-- ==== Sys2Proof/Word.lean ====
section
/-!
DEFINITION. The words of the engine: the bit vectors that the manual treats as bits, under its own names.
-/

namespace Sys2Proof

/-- The 48-bit block-wide tick count (R1). -/
abbrev Tick := BitVec 48
/-- Line index LIX = FPA[51:6] (R5, R39). -/
abbrev Lix := BitVec 46
/-- Caching-agent index (R314). -/
abbrev Cax := BitVec 10
/-- Requester identity (R506). -/
abbrev Rqid := BitVec 12
/-- Instance number, 0 to 63 (R244). -/
abbrev Ci := BitVec 6
/-- Memory port number (R25). -/
abbrev Mpid := BitVec 8
/-- Data steering tag, assigned by the switch (R19). -/
abbrev Dst := BitVec 16
/-- One 64 B line; byte b is bits 8b+7 to 8b (R6). -/
abbrev Line := BitVec 512
/-- A byte mask of a line; bit b covers byte b (R192). -/
abbrev Mask := BitVec 64
/-- Stop identifier 8y + x (R16). -/
abbrev Stop := BitVec 6
/-- Physical or logical home slice number, 0 to 31 (R40). -/
abbrev Hs := BitVec 5
/-- Port-station or memory-station number, 0 to 7. -/
abbrev Stn := BitVec 3
/-- Logical port of a port station, 0 to 127 (R503). -/
abbrev Lp := BitVec 7

end Sys2Proof
end

