-- ==== Sys2Proof/Config.lean ====
section
/-!
DEFINITION. What the manual leaves open and the model leaves free: constants without a body, so that nothing in Lean can evaluate them.
-/

namespace Sys2Proof

/-- R448: whether the key hash fused in the switch and the ECDSA P-384 signature accept the image of the
given bytes and length. The fused hash is no part of the manual, so the verdict is free. DESIGN CHOICE (log entry 9), safe. -/
opaque Config.imageAuthentic : List (Nat × BitVec 8) → Nat → Bool

/-- R62: the SEC-DED check bits of a firn entry. The code's matrix is not given, so they are free.
DESIGN CHOICE (log entry 8), safe. -/
opaque Config.firnEcc : BitVec 120 → BitVec 8

/-- R389: the CRC-32 digest of an instance. The order of the digested bytes is not given, so the digest is a
free function of the listed contents. DESIGN CHOICE (log entry 10), safe. -/
opaque Config.twinDigest : List Nat → BitVec 32

/-- R267: the `AKIND` of a violation record of a `MemClnEvct` or `BIConflict`, for which the table of kinds has no code.
DESIGN CHOICE (log entry 13), safe. -/
opaque Config.noticeAkind : Bool → BitVec 4

/-- R476: the bytes that a commit cut short by a reset leaves in the named profile, the PCRC field apart. The manual states
only that `PCRC` fails, so they are free: by the number of the reset, the profile and the byte. DESIGN CHOICE (log entry 33), safe. -/
opaque Config.mramCut : Nat → Nat → Nat → BitVec 8

/-- R479: `CHK` and `CHN` (low bits first) of a record whose cause R480 gives no channel, by `ECODE`. DESIGN CHOICE (log entry
34), safe. -/
opaque Config.noChannel : BitVec 8 → BitVec 16

/-- R479, R491: `ECODE` of a fatal record of R486, R487 or R488, for which the table of causes has no code. DESIGN CHOICE (log
entry 34), safe. -/
opaque Config.retireCode : BitVec 8

/-- R73, R477: `ECODE` of the record of an entry of another instance, for which the table of causes has no code. DESIGN CHOICE (log
entry 34), safe. -/
opaque Config.crossCode : BitVec 8

/-- R336: the check bits `FECC` of a flit; the code's matrix is not given. DESIGN CHOICE (log entry 8), safe. -/
opaque Config.fecc : BitVec 624 → BitVec 16

/-- R43: the SEC-DED check bits of an SF entry; the code's matrix is not given. DESIGN CHOICE (log entry 8), safe. -/
opaque Config.sfEcc : BitVec 88 → BitVec 8

/-- R421: the SEC-DED check bits of a Calibration Table entry; the code's matrix is not given. DESIGN CHOICE (log entry 8), safe. -/
opaque Config.calEcc : BitVec 74 → BitVec 8

end Sys2Proof
end

