-- ==== Sys2Proof/Syntax.lean ====
section
/-!
DEFINITION. The commands of the block: one constructor for each row of spec/opcode_table.json, with the row's operands.
A `k` names a packet in flight by its place in the mesh (log entry 4); a command packet `w` is the 512-bit Command Ring
slot of R459; `fixes`, `fix`, `ue` and `err` say how many crossing words or
sub-words of the row were corrected, `none` that one was uncorrectable (R529); a register access `a` is R506's word with its requester (log entry 12).
-/

namespace Sys2Proof

/-- What a check of a stored word finds (R29, R97, R98): no error, a corrected one, an uncorrectable one, a reserved encoding (R11, log entry 84). -/
inductive EccErr where
  | ok
  | corrected
  | uncorrectable
  | reserved
  deriving DecidableEq, Repr

/-- A request that reaches a slice: its packet `k`, and what the checks of the ways of its line's SF set find (R98). -/
structure SfLook where
  k : Nat
  errs : List (Nat × EccErr)
  deriving DecidableEq, Repr

/-- A release that reaches a slice: its packet `k`, and whether an uncorrectable error has struck the line's data (R209). -/
structure Release where
  k : Nat
  err : Bool
  deriving DecidableEq, Repr

/-- What the checks of a memory station's completion find: the corrected crossing words, none where one is uncorrectable (R529);
`rime`: an uncorrectable error in the rime bits that a META port stored with the line (R98). -/
structure PortCheck where
  fixes : Option Nat
  rime : Bool
  deriving DecidableEq, Repr

/-- The shared engines (R288): codes 0, 1, 2 of the opcode tables. -/
inductive Eng where
  | te0
  | te1
  | be
  deriving DecidableEq, Repr

/-- The crossing queues of R524 that can record an overrun (R527, R542). -/
inductive XQueue where
  | psIn (n : Stn) (lane : BitVec 2) (lp : Lp)
  | psOut (n : Stn) (lane : BitVec 2)
  | psDin (n : Stn) (lp : Lp)
  | psDout (n : Stn)
  | msCmd (n : Stn) (lane : BitVec 2)
  | msCpl (n : Stn) (lane : BitVec 2) (mpid : Mpid)
  | msDout (n : Stn)
  | msDin (n : Stn) (mpid : Mpid)
  | cmdRing
  | replyRing
  | trace
  | twinIn
  | twinOut
  deriving DecidableEq, Repr

/-- Twin roles (R388), coded as `TROLE` of `IW_ID`. -/
inductive TRole where
  | none
  | primary
  | mirror
  deriving DecidableEq, Repr

/-- A register access (R506): who makes it, where, of what size, with what data. `mc` is the MC's direct path (R532). -/
structure RegAcc where
  mc : Bool
  ps : Stn
  rqid : Rqid
  win : BitVec 7
  off : BitVec 20
  eight : Bool
  data : BitVec 64
  deriving DecidableEq, Repr

/-- The commands, in the table's order. -/
inductive Instr where
  | coldRstAssert
  | coldRstRelease (prof : BitVec 2) (twin : Bool)
  | romWaitEntry
  | warmRstLow
  | warmResetEffect
  | warmRstRelease (prof : BitVec 2) (twin : Bool)
  | imgVerifyEnd
  | autordyEntry
  | readyAssert
  | mcWatchdogExpiry
  | haltPostedLinePoison
  | blockHalt
  | commandSlotWrite (w : BitVec 512) (fixes : Nat)
  | queueOverrun (q : XQueue)
  | deferredCommandReread (peerIdle : Bool) (peerDigest : BitVec 32) (peerSlices : Nat)
  | replyRingRoom (n fixes : Nat) (ue : Bool)
  | bootStatus (w : BitVec 512)
  | imgBegin (w : BitVec 512)
  | imgData (w : BitVec 512)
  | imgEnd (w : BitVec 512)
  | bootStart (w : BitVec 512)
  | cmdProgress (w : BitVec 512)
  | instCreate (w : BitVec 512)
  | instEnable (w : BitVec 512)
  | instQuiesce (w : BitVec 512)
  | instReset (w : BitVec 512)
  | instRemove (w : BitVec 512)
  | instQuota (w : BitVec 512)
  | instStatus (w : BitVec 512)
  | irtAdd (w : BitVec 512)
  | irtRemove (w : BitVec 512)
  | iwMask (w : BitVec 512)
  | regionSet (w : BitVec 512)
  | regionClear (w : BitVec 512)
  | leasePass (w : BitVec 512)
  | regionRead (w : BitVec 512)
  | portSet (w : BitVec 512)
  | portRead (w : BitVec 512)
  | agentAdd (w : BitVec 512)
  | agentRemove (w : BitVec 512)
  | agentBind (w : BitVec 512)
  | agentUnbind (w : BitVec 512)
  | agentDisable (w : BitVec 512)
  | agentEnable (w : BitVec 512)
  | agentReadmit (w : BitVec 512)
  | agentRead (w : BitVec 512)
  | agentGrace (w : BitVec 512)
  | snoopCfg (w : BitVec 512)
  | calRead (w : BitVec 512)
  | calReset (w : BitVec 512)
  | pdFreeze (w : BitVec 512)
  | pdThaw (w : BitVec 512)
  | pdStatus (w : BitVec 512)
  | enginePark (w : BitVec 512)
  | engineUnpark (w : BitVec 512)
  | sliceFold (w : BitVec 512) (peerSlices : Nat)
  | pwrCfg (w : BitVec 512)
  | meshFence (w : BitVec 512)
  | meshCfg (w : BitVec 512)
  | arbTickets (w : BitVec 512)
  | arbSystkt (w : BitVec 512)
  | arbSeed (w : BitVec 512)
  | arbMode (w : BitVec 512)
  | arbPreempt (w : BitVec 512)
  | arbHoldmax (w : BitVec 512)
  | engDisable (w : BitVec 512)
  | engEnable (w : BitVec 512)
  | arbStatus (w : BitVec 512)
  | firnRotate (w : BitVec 512)
  | firnRebuild (w : BitVec 512)
  | churnCfg (w : BitVec 512)
  | sfRebuild (w : BitVec 512)
  | twinRole (w : BitVec 512) (peerIdle : Bool) (peerDigest : BitVec 32)
  | twinRelease (w : BitVec 512) (peerIdle : Bool)
  | twinHandover (w : BitVec 512)
  | twinTakeover (w : BitVec 512)
  | twinResync (w : BitVec 512)
  | twinLevelRaise (w : BitVec 512)
  | twinCfg (w : BitVec 512)
  | twinStatus (w : BitVec 512)
  | profileApply (w : BitVec 512)
  | profileStage (w : BitVec 512)
  | profileCapture (w : BitVec 512)
  | profileCommit (w : BitVec 512)
  | profileRead (w : BitVec 512)
  | obsTraceCfg (w : BitVec 512)
  | obsTraceDump (w : BitVec 512)
  | obsCntClear (w : BitVec 512)
  | obsSetEvents (w : BitVec 512)
  | errRead (w : BitVec 512)
  | vlogRead (w : BitVec 512)
  | errCfg (w : BitVec 512)
  | ruleGenerationSwitch (ci : Ci)
  | ruleChangeDrain (ci : Ci)
  | quiesceIdle (ci : Ci)
  | bulkOperationEnd (q : Nat)
  | request (ps : Stn) (w : BitVec 160) (a : BitVec 128) (b : BitVec 128) (fixes : Option Nat)
  | requestReinject (ps : Stn) (mid : Nat)
  | retry (k : Nat)
  | wbcr (k : Nat)
  | wradm (k : Nat)
  | rspack (k : Nat)
  | completionDelivery (k : Nat)
  | snoopDelivery (k : Nat)
  | snoopResponse (ps : Stn) (w : BitVec 160)
  | snpbusy (k : Nat)
  | pevDown (ps : Stn) (lp : Lp)
  | pevUp (ps : Stn) (lp : Lp) (blk : Bool)
  | pevReset (ps : Stn) (lp : Lp)
  | pevGone (ps : Stn) (lp : Lp)
  | graceTimerExpiry (rq : Rqid)
  | sessionDrain (rq : Rqid)
  | agentSweepEnd (rq : Rqid)
  | agentDisableDrain (rq : Rqid)
  | gpfReq (ps : Stn)
  | doorbell (a : RegAcc)
  | deferredDoorbellTest (ci : Ci) (q : Bool)
  | queueEnable (a : RegAcc)
  | queueDisable (a : RegAcc)
  | placementWrite (a : RegAcc)
  | sqnConsWrite (a : RegAcc)
  | wkick (a : RegAcc)
  | registerWrite (a : RegAcc)
  | requestAdmission (a : SfLook)
  | mw (k : Nat)
  | cln (k : Nat)
  | bic (k : Nat)
  | sliceSnoopResponse (k : Nat)
  | snoopTimeout (hs : Hs) (t : Nat) (c : Cax)
  | holdWindowExpiry (hs : Hs) (lix : Lix) (c : Cax)
  | memoryCompletion (k : Nat)
  | firnLookupData (k : Nat) (errs : List (Nat × EccErr))
  | overflowInstallRetry (hs : Hs)
  | victimBufferRetry (hs : Hs) (t : Nat)
  | plbRetry (hs : Hs) (t : Nat)
  | internalEntryRetry (hs : Hs) (n : Nat)
  | postThrReport (ms : Stn)
  | lck (k : Nat)
  | lckn (k : Nat)
  | grelw (r : Release)
  | grel (k : Nat)
  | grela (k : Nat)
  | memoryCommand (k : Nat)
  | memoryPortCompletion (ms : Stn) (w : BitVec 160) (d : Line) (fixes : PortCheck)
  | atomicop (k : Nat)
  | atomicopStart (te : Bool)
  | nmaResult (k : Nat)
  | descriptorCopy (te : Bool)
  | descriptorData (k : Nat)
  | groupStart (te : Bool)
  | lact (k : Nat)
  | lgnt (k : Nat) (err : Bool)
  | lnack (k : Nat)
  | statusRecordCmp (k : Nat)
  | lotteryDraw (e : Eng)
  | grantEnd (e : Eng)
  | holdWatchdogExpiry (e : Eng)
  | emergencyPreempt
  | hintUpdate
  | bulkStepIssue
  | bulkStepComplete (n : Nat)
  | setHandover (hs : Hs) (set : BitVec 14)
  | movingEntryInstall (k : Nat)
  | fmark (k : Nat)
  | fmack (k : Nat)
  | forwardedRequest (k : Nat)
  | firnAgencyRequest (k : Nat)
  | firnAgencyResult (k : Nat)
  | sliceMapEpochFlip
  | sliceMapEpochDrain
  | freezeFence (d : BitVec 7)
  | powerOffAck (d : BitVec 7)
  | pgTimeoutExpiry (d : BitVec 7)
  | frzDrainTmoExpiry (d : BitVec 7)
  | nackFrozen (k : Nat)
  | powerGood (d : BitVec 7)
  | thawReady (d : BitVec 7)
  | pgoodLoss (d : BitVec 7)
  | flitArrival (k : Nat) (err : EccErr)
  | replay (stop : Stop) (port : Option (BitVec 3))
  | routerGrant (stop : Stop) (port : BitVec 3)
  | escapeFallback (k : Nat)
  | routeEpochFlip
  | routeEpochDrained
  | rteDrainTmoExpiry
  | calibrationWrite (hs : Hs) (err : EccErr)
  | sfScrub (hs : Hs) (errs : List (Nat × EccErr))
  | firnScrub (hs : Hs)
  | rotationMove (hs : Hs) (ci : Ci)
  | telemetryEpoch
  | bucketLeak
  | retirementProcedureEnd
  | wayRetirementWalk (hs : Hs)
  | thello (cmin : BitVec 8) (cmax : BitVec 8) (lvl : BitVec 8) (peps : List (Ci × BitVec 16 × TRole))
  | thbSend (err : EccErr)
  | twinPacket (fix : Bool)
  | twinLeaseLapse
  | twLupLow (ue : Bool)
  | mdir (w : BitVec 256)
  | mline (w : BitVec 256) (d : Line)
  | mldone (w : BitVec 256)
  | mgline (w : BitVec 256) (d : Line)
  | mgend (w : BitVec 256)
  | mrot (w : BitVec 256)
  | mhold (w : BitVec 256)
  | mrule (w : BitVec 256) (cmd : BitVec 512)
  | msynce (w : BitVec 256)
  | mack (ci : Ci) (rseq : BitVec 16) (pepl : BitVec 8)
  | traceRecord (stop : Stop)
  | traceOutput (ue : Bool) (fixes : Nat)
  | counterIncrement (n : Nat)
  | twinLinkUp
  | dpullData (ps : Stn) (dst : Dst) (d : Line) (m : Mask)
  | uncAccessRetry (k : Nat)
  | forwardedEntryFreed (k : Nat)
  | profileMramWriteEnd
  | unknownOpCommand (w : BitVec 512) (ue : Bool)
  | refusedRegisterRead (a : RegAcc)
  deriving DecidableEq, Repr

end Sys2Proof
end

