-- ==== Sys2Proof/Machine/State.lean ====
section
/-!
DEFINITION. The state of the block as plain data: everything the manual gives it (INVENTORY.md, "State"), the queue of
waiting commands, the three reasons types and the state after reset. Sparse tables are lists of (key, value) with strictly
rising keys (log entry 11); a list of packets, entries or requests stands in the order of arrival.
-/

namespace Sys2Proof.Machine

open Sys2Proof

/-! ### Names of the manual -/

/-- Directory states (R44). -/
inductive DSt where
  | inv
  | shp
  | shc
  | exo
  | psn
  | bcs
  deriving DecidableEq, Repr

/-- Rime values (R80). -/
inductive Rime where
  | clear
  | tracked
  | poison
  | unknown
  deriving DecidableEq, Repr

/-- Agent classes (R311, R313). -/
inductive AClass where
  | bi
  | lease
  | io
  deriving DecidableEq, Repr

/-- Link states of an agent (R311). -/
inductive LSt where
  | offline
  | up
  | down
  | held
  deriving DecidableEq, Repr

/-- Region kinds (R260). -/
inductive RKind where
  | coh
  | lease
  | unc
  deriving DecidableEq, Repr

/-- The cache state that a request asks for or keeps, and that a completion grants (R101, R117). -/
inductive MVal where
  | i
  | s
  | a
  deriving DecidableEq, Repr

/-- Snoop forms and the answers to them (R122). -/
inductive SForm where
  | snpInv
  | snpData
  | snpCur
  deriving DecidableEq, Repr

inductive SRsp where
  | rspI
  | rspS
  | rspE
  deriving DecidableEq, Repr

/-- Request classes (R99, R104, R170) and the internal requests (R77, R253, R274, R275, R325, R98, R490, R410). -/
inductive Cls where
  | rdS
  | rdD
  | rdA
  | rdI
  | invA
  | invI
  | mw
  | wb
  | wr
  | wrp
  | cln
  | bic
  | skim
  | iowr
  | iowrp
  | lrd
  | lwr
  | lwrp
  | urd
  | uwr
  | uwrp
  | aop
  | lck
  | lckn
  | calve
  | rcl
  | sweep
  | zfill
  | rebuild
  deriving DecidableEq, Repr

/-- PCIe AtomicOps (R505). -/
inductive AopK where
  | fetchAdd
  | swap
  | cas
  deriving DecidableEq, Repr

/-- Status codes of commands, requests and groups (R466); `retry` is R105's refusal, which never leaves the engine (R509). -/
inductive Status where
  | done
  | inProgress
  | unknownOp
  | malformed
  | badState
  | noResource
  | duplicate
  | overlap
  | timeout
  | pwrFault
  | twinMismatch
  | authFail
  | badFormat
  | crcErr
  | notFound
  | unsupported
  | instOffline
  | agentOffline
  | cmpFail
  | poisoned
  | denied
  | aborted
  | engDisabled
  | engineFault
  deriving DecidableEq, Repr

/-- Instance states (R279), in the order of their codes. -/
inductive ISt where
  | free
  | idle
  | active
  | draining
  | aborting
  | quiesced
  | clearing
  deriving DecidableEq, Repr

/-- Boot states (R442), in the order of their codes. -/
inductive BState where
  | cold
  | romWait
  | loading
  | verify
  | starting
  | ready
  deriving DecidableEq, Repr

/-- Arbitration modes (R300), in the order of the codes of `ARBM`. -/
inductive AMode where
  | start
  | service
  | test
  | recovery
  deriving DecidableEq, Repr

/-- What a retirement makes of the mode (R484): RECOVERY, but START is held until READY (R300). -/
def AMode.recover : AMode → AMode
  | .start => .start
  | _ => .recovery

/-- Domain states (R365). -/
inductive DomSt where
  | off
  | freezing
  | thawing
  | on
  deriving DecidableEq, Repr

/-- The tracker reservations of R102 and the senior entries of R106. -/
inductive Resv where
  | writeback
  | engine
  | internal
  | general
  | senior
  deriving DecidableEq, Repr

/-! ### Clock, pins, block parameters -/

/-- The place in time: tick and phase (R1, R563). -/
structure Clk where
  tick : Tick
  phase : BitVec 4
  deriving DecidableEq, Repr

/-- Block parameters (the parameter table of R470 and the ranges table of Characteristics). -/
structure Params where
  biMin : Nat
  biMax : Nat
  biRetry : Nat
  graceTmo : Nat
  pgTmo : Nat
  frzTmo : Nat
  rteTmo : Nat
  scrubInt : Nat
  telLog2 : Nat
  fscrubInt : Nat
  sysTkt : Nat
  hm0 : Nat
  hm1 : Nat
  hmB : Nat
  twHb : Nat
  twLease : Nat
  lbThr : Nat
  lbWin : Nat
  deriving DecidableEq, Repr

/-- The defaults that R94, R131, R296, R302, R318, R359, R367, R370, R404, R413, R481 state. -/
def Params.defaults : Params :=
  { biMin := 64, biMax := 125000, biRetry := 2, graceTmo := 12500000, pgTmo := 1250, frzTmo := 500000,
    rteTmo := 12500, scrubInt := 4, telLog2 := 12, fscrubInt := 1024, sysTkt := 4096, hm0 := 0, hm1 := 0, hmB := 0,
    twHb := 125, twLease := 12500, lbThr := 16, lbWin := 125000000 }

/-- How far a halt has gone (R492, R494): running, draining since a tick (`warm`: for a warm reset; `poisoned`: step 4 has
been taken), or halted. -/
inductive Halt where
  | running
  | draining (t0 : Tick) (warm : Bool) (wdog : Bool) (poisoned : Bool)
  | halted (wdog : Bool)
  deriving DecidableEq, Repr

/-- A memory-port descriptor (R467) with what R468 puts in force and R91 completes. -/
structure PortDesc where
  base : BitVec 32
  size : BitVec 32
  rtBase : BitVec 40
  table : Bool
  nma : Bool
  thr : Nat
  pv : Bool
  nmaLive : Bool
  thrLive : Nat
  rtReady : Bool
  deriving DecidableEq, Repr

/-- A port that no command has set: not valid, `POST_THR` at its default (R233). -/
def PortDesc.reset : PortDesc :=
  { base := 0, size := 0, rtBase := 0, table := false, nma := false, thr := 48, pv := false, nmaLive := false, thrLive := 48,
    rtReady := false }

/-! ### Instances -/

/-- A region-table entry (R260); `V` is its presence in the table. -/
structure Region where
  base : BitVec 40
  limit : BitVec 40
  kind : RKind
  rd : Bool
  wr : Bool
  at' : Bool
  gr : Bool
  amask : BitVec 16
  lhrq : Rqid
  lhv : Bool
  deriving DecidableEq, Repr

/-- An IRT entry (R248); `V` is its presence. -/
structure IrtEnt where
  rqid : Rqid
  pasid : BitVec 20
  pv : Bool
  ci : Ci
  agrp : BitVec 4
  deriving DecidableEq, Repr

/-- One queue block of an Instance Window with the state behind it (R187, R190, R211, R545 to R549). -/
structure GQueue where
  dqBase : BitVec 40
  dqSize : BitVec 5
  dqMpid : Mpid
  en : Bool
  stopping : Bool
  db : BitVec 17
  cons : BitVec 17
  sqBase : BitVec 40
  sqSize : BitVec 4
  sqMpid : Mpid
  prod : BitVec 16
  sph : Bool
  scons : BitVec 16
  placeErr : Bool
  dbOvr : Bool
  wign : Bool
  sconsErr : Bool
  rep : Bool
  pacc : BitVec 17
  rungBy : List (BitVec 17 × Rqid)
  dbWait : Option Rqid
  nextRec : BitVec 16
  recDone : List (BitVec 16)
  prodWas : Option (Clk × BitVec 16)
  deriving DecidableEq, Repr

def GQueue.reset : GQueue :=
  { dqBase := 0, dqSize := 0, dqMpid := 0, en := false, stopping := false, db := 0, cons := 0, sqBase := 0, sqSize := 0,
    sqMpid := 0, prod := 0, sph := true, scons := 0, placeErr := false, dbOvr := false, wign := false,
    sconsErr := false, rep := false, pacc := 0, rungBy := [], dbWait := none, nextRec := 0, recDone := [], prodWas := none }

/-- What a rule change writes when its generation switches (R272). -/
inductive RuleOp where
  | setRegion (idx : Nat) (r : Region)
  | clearRegion (idx : Nat)
  | addIrt (e : IrtEnt)
  | removeIrt (e : IrtEnt)
  | bind (rq : Rqid) (agrp : BitVec 4)
  | unbind (rq : Rqid)
  | iwMask (m : BitVec 16)
  deriving DecidableEq, Repr

/-- Work that step 5 of R272 runs before the final reply (R253, R274, R275, R277): ranges of line indices, bounds included. -/
inductive Recall where
  | nothing
  | range (lo hi : Nat) (lo2 hi2 : Nat) (zf : Option (Nat × Nat × RKind))
  | zero (lo hi : Nat) (kind : RKind)
  | agent (c : Cax)
  deriving DecidableEq, Repr

/-- A rule change under way (R272): what it writes, whether its generation has switched, what it recalls, and the
command that it answers; `mrule`: the `RSEQ` of the record that gave it to the Mirror (R391). -/
structure RuleChg where
  op : RuleOp
  switched : Bool
  gen : BitVec 8
  rcl : Recall
  running : Bool
  cmd : BitVec 512
  long : Bool
  mrule : Option (BitVec 16)
  deriving DecidableEq, Repr

/-- A coherence instance (R254, R260, R279, and the rules INVENTORY.md lists). `rseq` is the next record's number, and `acked`
the first record not covered by `MACK`, on either side (R395, R397); `lapsed`: a Primary's lease has lapsed (R405); `alone`: a
Primary without a Mirror (log entry 35). -/
structure Inst where
  st : ISt
  mode : Bool
  ruleg : BitVec 8
  nreg : Nat
  rents : List Nat
  csets : List Nat
  evts : List (Nat × Nat)
  firnBase : BitVec 32
  firnLog2 : Nat
  firnMpid : Mpid
  rotWrites : Nat
  rotStart : Nat
  rotGap : Nat
  rotCnt : Nat
  rotPend : Nat
  rotBusy : Bool
  holdWin : Nat
  holdAuto : Bool
  sfq : Nat
  plbQ : Nat
  trkMin : Nat
  trkMax : Nat
  tkt0 : Nat
  tkt1 : Nat
  tktB : Nat
  iwAmask : BitVec 16
  viol : BitVec 32
  regions : List (Nat × Region)
  members : List Cax
  q0 : GQueue
  q1 : GQueue
  cut : BitVec 4
  imean : Nat
  genEven : Nat
  genOdd : Nat
  rule : Option RuleChg
  role : TRole
  strict : Bool
  pep : BitVec 16
  exact : Bool
  twr : Bool
  trp : Nat
  rseq : BitVec 16
  acked : BitVec 16
  lapsed : Bool
  alone : Bool
  abortQ : Bool
  deriving DecidableEq, Repr

/-- An instance right after reset: FREE, with the values of the Reset columns (R535) and the defaults (R94, R127). -/
def Inst.reset : Inst :=
  { st := .free, mode := false, ruleg := 0, nreg := 0, rents := [], csets := [], evts := [], firnBase := 0, firnLog2 := 0,
    firnMpid := 0, rotWrites := 64, rotStart := 0, rotGap := 0, rotCnt := 0, rotPend := 0, rotBusy := false, holdWin := 24,
    holdAuto := false, sfq := 0, plbQ := 0, trkMin := 0, trkMax := 0, tkt0 := 0, tkt1 := 0, tktB := 0, iwAmask := 0,
    viol := 0, regions := [], members := [], q0 := GQueue.reset, q1 := GQueue.reset, cut := 0, imean := 0, genEven := 0, genOdd := 0, rule := none, role := .none, strict := true, pep := 0, exact := false,
    twr := false, trp := 0, rseq := 0, acked := 0, lapsed := false, alone := false, abortQ := false }

/-! ### Agents -/

/-- An Agent Table entry (R311; presence is `V`, a `cax` is present exactly for BI), with the enable in force at the
port stations (R329), the grace timer (R318), the sweep's instances (R324) and its retirement (R484). -/
structure Agent where
  cls : AClass
  cax : Option Cax
  lport : BitVec 10
  sess : BitVec 8
  lst : LSt
  en : Bool
  enPs : Bool
  bind : Option (Ci × BitVec 4)
  swp : Bool
  rdm : Bool
  grace : Option Tick
  lostMem : List Ci
  retired : Bool
  deriving DecidableEq, Repr

/-- A logical port (R316, R321, R508): link flag, block snoops negotiated, credits withheld, snoops delivered so far. -/
structure LPort where
  up : Bool
  blk : Bool
  held : Bool
  tags : BitVec 12
  deriving DecidableEq, Repr

def LPort.reset : LPort := { up := false, blk := false, held := false, tags := 0 }

/-! ### Requests and messages -/

/-- Who sent a request to a slice: a port station, a transaction engine, or an internal requester (R102). -/
inductive Src where
  | ps (n : Stn)
  | te (e : Bool)
  | internal
  deriving DecidableEq, Repr

/-- A request header inside the engine (`itk`, `urg`: R346), with every stamp of "One request, end to end" (R24, R153, R270, R311). -/
structure Req where
  src : Src
  rqid : Rqid
  cax : Option Cax
  ci : Ci
  cls : Cls
  kind : RKind
  mval : MVal
  lix : Lix
  ofs : BitVec 6
  blen : BitVec 7
  dst : Option Dst
  mpid : Mpid
  pcnt : Nat
  pix : Nat
  lp : Lp
  sess : BitVec 8
  gen : BitVec 8
  smep : Bool
  wbc : BitVec 4
  wbg : Bool
  rwr : Bool
  tries : Nat
  mid : Nat
  aop : AopK
  opA : BitVec 128
  opB : BitVec 128
  data : Line
  fwd : Bool
  itk : BitVec 12
  urg : BitVec 3
  deriving DecidableEq, Repr

/-- The directory part of an entry: state and sharer field (R43, R44). -/
structure Dir where
  st : DSt
  shr : BitVec 40
  deriving DecidableEq, Repr

/-- Memory command kinds (R511). -/
inductive MKind where
  | memrd
  | memwr
  | mdrd
  | mdupd
  | memaop
  deriving DecidableEq, Repr

/-- Who issued a memory command, and what its completion is for. -/
inductive Purp where
  | trkRd (t : Nat)
  | trkMd (t : Nat)
  | trkWr (t : Nat)
  | plbWr (seq : Nat)
  | rime (tag : Nat)
  | firnRd (acc : Nat) (j : Nat)
  | firnWr (acc : Nat)
  | aop (t : Nat)
  | beFill (op : Nat) (step : Nat)
  | rtRead
  | rtWrite
  deriving DecidableEq, Repr

inductive MSrc where
  | hs (n : Hs)
  | be
  | ms
  deriving DecidableEq, Repr

/-- A memory command (R111, R511): its word's fields, its line where it carries one, its issuer; `rtpsn`: the station's own write of a
Rime Table line as UNKNOWN (R98). -/
structure MCmd where
  kind : MKind
  mpid : Mpid
  lix : Lix
  dst : Option Dst
  rgen : Bool
  rime : Option Rime
  wpsn : Bool
  data : Line
  aop : AopK
  aofs : BitVec 6
  alen : BitVec 4
  opA : BitVec 128
  opB : BitVec 128
  reiss : Bool
  src : MSrc
  purp : Purp
  rtpsn : Bool
  deriving DecidableEq, Repr

/-- The data-steering orders of R20 that a completion or a standalone order carries. -/
inductive DOrd where
  | none
  | drel
  | dpush
  | dpull
  | dfree
  | ddrop
  deriving DecidableEq, Repr

/-- A completion on its way to a port station (R506, R509). -/
structure Cpl where
  ps : Stn
  lp : Lp
  rqid : Rqid
  sess : BitVec 8
  mid : Nat
  lix : Lix
  dst : Option Dst
  ord : DOrd
  rgen : Bool
  psn : Bool
  grant : MVal
  status : Status
  data : Line
  wbc : Option (BitVec 4)
  bicAck : Bool
  hs : Option Hs
  deriving DecidableEq, Repr

/-- A snoop from a slice (R47, R132); `t` and `att` name the tracker entry and the attempt. -/
structure Snp where
  hs : Hs
  t : Nat
  att : Nat
  cax : Cax
  ci : Ci
  form : SForm
  lix : Lix
  deriving DecidableEq, Repr

/-- A snoop answer on its way to the slice (R154). -/
structure SAns where
  hs : Hs
  t : Nat
  att : Nat
  cax : Cax
  rsp : SRsp
  ps : Stn
  wbw : Bool
  wbc : BitVec 4
  wbg : Bool
  nsmp : Bool
  deriving DecidableEq, Repr

/-- An SF entry (R43); a free way is absent from the table. -/
structure SfEnt where
  st : DSt
  tag : BitVec 32
  ci : Ci
  shr : BitVec 40
  age : BitVec 2
  f : Bool
  fixed : Bool
  deriving DecidableEq, Repr

/-- A lock or release message between a transaction engine and a slice (R170 to R174, R181). -/
structure Lk where
  te : Bool
  run : Nat
  opi : Nat
  ci : Ci
  lix : Lix
  mpid : Mpid
  kind : RKind
  noData : Bool
  writes : Bool
  isAop : Bool
  rqid : Rqid
  deriving DecidableEq, Repr

/-- What the destination of a fold asks of the source's agency (R382): the four lines of a set, the write of one line
of it, or the end of the access. -/
inductive AgOp where
  | read
  | write (j : Nat) (d : Line)
  | done
  deriving DecidableEq, Repr

/-- A trace record (R432) before it is a word: kind, stop, phase and tick, body, instance. -/
structure TRec where
  kind : BitVec 4
  stop : Stop
  at' : Clk
  body : BitVec 128
  ci : Option Ci
  lix : Option Lix
  deriving DecidableEq, Repr

/-- A message between units (R339); the header of its packet stands in `Pkt`. `ln` is the line of a message that travels in two
packets (R341); `trace`, `twin` and `twinRule` travel on VN4 (R430, R395, R396). -/
inductive Msg where
  | req (r : Req)
  | wbm (r : Req)
  | snp (sn : Snp)
  | snpBusy (sn : Snp)
  | sans (a : SAns)
  | cpl (c : Cpl)
  | retry (r : Req)
  | wbcr (hs : Hs) (ps : Stn) (wbc : BitVec 4)
  | wradm (hs : Hs) (ps : Stn) (mid : Nat)
  | rspack (hs : Hs) (ps : Stn) (wbc : BitVec 4)
  | mcmd (c : MCmd)
  | mcpl (c : MCmd) (mst : BitVec 2) (rime : Rime) (data : Line)
  | lck (l : Lk)
  | lact (l : Lk) (hs : Hs)
  | lgnt (l : Lk) (hs : Hs) (psn : Bool) (plbh : Bool) (data : Line)
  | lrefuse (l : Lk) (hs : Hs)
  | lnack (l : Lk) (hs : Hs)
  | lfree (l : Lk) (hs : Hs)
  | grelw (l : Lk) (data : Line) (psn : Bool) (whole : Bool) (gpf : List Nat)
  | grel (l : Lk)
  | grela (l : Lk) (r : Req)
  | aop (r : Req)
  | dord (ps : Stn) (lp : Lp) (dst : Dst) (ord : DOrd) (rgen : Bool) (rqid : Rqid) (sess : BitVec 8)
  | nma (l : Lk) (hs : Hs) (psn : Bool) (data : Line)
  | unc (te : Bool) (r : Req) (psn : Bool) (data : Line)
  | uncRetry (te : Bool) (r : Req)
  | moving (src : Hs) (set : BitVec 14) (ents : List SfEnt) (susp : Option Tick)
  | fmark (src : Hs) (dst : Hs) (set : BitVec 14) (ps : Stn)
  | fmack (dst : Hs) (src : Hs) (set : BitVec 14) (ps : Stn)
  | fwd (src : Hs) (dst : Hs) (r : Req) (wb : Bool)
  | fwdFreed (src : Hs) (dst : Hs) (r : Req)
  | agReq (src : Hs) (dst : Hs) (acc : Nat) (ci : Ci) (fl : Nat) (op : AgOp)
  | agRsp (src : Hs) (dst : Hs) (acc : Nat) (ci : Ci) (fl : Nat) (lines : List Line)
  | ln (d : Line)
  | trace (r : TRec)
  | twin (w : BitVec 256) (line : Option Line)
  | twinRule (w : BitVec 256) (cmd : BitVec 512)
  | nack (m : Msg)
  deriving DecidableEq, Repr

/-- Virtual networks (R337). -/
inductive VNet where
  | req
  | snp
  | rsp
  | dat
  | mgt
  deriving DecidableEq, Repr

/-- A packet in flight, or a message that still waits for its unit's local port (`wait`): the header fields of R337, the body
that the receiver takes next and those after it (R338), the tag that pairs a body with its lines (R341), whether its first
injection is still to come (`fresh`), the router input queue that holds it (`none`: the local input of its own router), when
it came there and in what order (`came`, `qn`), whether a flit of it is on a link, whether the local output has granted it
(`arr`), and whether its unit holds it until the old route epoch has drained (R357). -/
structure Pkt where
  src : Stop
  dst : Stop
  vnet : VNet
  ord : Bool
  rte : Bool
  esc : Bool
  urg : BitVec 3
  itk : BitVec 12
  psn : Bool
  msg : Msg
  more : List Msg
  tag : Nat
  wait : Bool
  fresh : Bool
  came : Clk
  qn : Nat
  at' : Option (Stop × BitVec 3)
  link : Bool
  arr : Bool
  held : Bool
  deriving DecidableEq, Repr

/-- A message of one body at its unit's local port. -/
def Pkt.new (src dst : Stop) (v : VNet) (ord : Bool) (m : Msg) : Pkt :=
  { src := src, dst := dst, vnet := v, ord := ord, rte := false, esc := ord, urg := 0, itk := 0, psn := false, msg := m, more := [],
    tag := 0, wait := true, fresh := true, came := { tick := 0, phase := 0 }, qn := 0, at' := none, link := false, arr := false, held := false }

/-! ### The home slice -/

/-- A snoop of a request: its agent, form, attempts so far, deadline of the last, cycle of injection, whether it has been
sent (else it waits for a hold window), a parked answer, and the state that a writeback resolved by R104's second way keeps
(R104, R124, R126, R131, R132, R155). -/
structure SnpOut where
  cax : Cax
  form : SForm
  att : Nat
  sent : Bool
  inj : Clk
  deadline : Tick
  parked : Option SAns
  wb : Option MVal
  deriving DecidableEq, Repr

/-- What an active request waits for. -/
inductive Ph where
  | chain
  | victim
  | rime
  | firn
  | snoop
  | after
  | data
  | write
  | plb
  | pull
  | merge
  | rimeChg
  | lockPlb
  | lockRd
  | held
  | memAop
  | gate
  | pullWait
  | poison
  deriving DecidableEq, Repr

/-- The walks that recall a line from every BI member: firn rebuild (R98), SF rebuild (R490), recall walk (R410). -/
inductive RbKind where
  | none
  | firn
  | sf
  | walk
  deriving DecidableEq, Repr

/-- The work of an internal request (R77, R253, R274, R325, R98, R490, R410): `firn` is the entry found in the firn,
`cax` the agent that a sweep names, `rb` the walk it belongs to, `vb` that its holders stand in the victim buffer, `acc`
the firn access, and its slice, whose write took its slot (R160), `op` and `step` the bulk operation and its step. -/
structure IJob where
  firn : Option Dir
  cax : Option Cax
  rb : RbKind
  vb : Bool
  acc : Option (Hs × Nat)
  op : Nat
  step : Nat
  deriving DecidableEq, Repr

/-- A home-tracker entry (R102) with everything a request carries while it runs. `dir`: the state found; `res`: the
entry as the owner's answer leaves it; `finst`: the state found in the firn is still to be installed, with that `F` (R71, R159);
`snooped`: its decision sent a snoop (R108);
`stale`: a `MEMWR` was issued for the line since its read (R115); `bc`: resolved by a broadcast, `bcS`: some answer was
`BIRspS` (R85); `wrime`: the rime value its write carries (R119); `cpl`: a completion that waits under R403; `mdird`: the request caused an `MDIR` that R403 gates; `adm`: the
tick of admission. -/
structure Trk where
  id : Nat
  resv : Resv
  req : Req
  chain : Bool
  active : Bool
  ph : Ph
  known : Bool
  dir : Dir
  snps : List SnpOut
  rdOut : Bool
  rdHave : Bool
  rgen : Bool
  stale : Bool
  rime : Option Rime
  dpsn : Bool
  snooped : Bool
  bc : Bool
  bcS : Bool
  wrime : Option Rime
  hadE : Bool
  grant : MVal
  data : Line
  mask : Mask
  pulled : Bool
  lk : Option Lk
  rel : Bool
  job : Option IJob
  rseq : Option (BitVec 16)
  finst : Option Bool
  res : Option Dir
  cpl : Option Cpl
  adm : Tick
  mdird : Bool
  deriving DecidableEq, Repr

/-- A victim-buffer entry (R57): overflow or departing, with the steps of R74 still to complete. -/
structure VbEnt where
  set : BitVec 14
  ent : SfEnt
  dep : Bool
  fdel : Bool
  fwr : Bool
  rclr : Bool
  rtrk : Bool
  calve : Bool
  deriving DecidableEq, Repr

/-- A PLB line (R172, R235, R498): posted, or reserved by tracker entries (`resv`), with the number of its latest write. -/
structure PlbLine where
  lix : Lix
  ci : Ci
  mpid : Mpid
  posted : Bool
  resv : List Nat
  data : Line
  psn : Bool
  seq : Nat
  gpf : List Nat
  byGrel : Bool
  deriving DecidableEq, Repr

structure HoldEnt where
  lix : Lix
  cax : Cax
  expiry : Tick
  deriving DecidableEq, Repr

/-- Why a firn set is accessed (R70, R74, R82, R95, R98, R274, R325, R416): `d` is the entry that a spill writes, `fin` the tracker
entry that waits for the end of a poisoning. -/
inductive FKind where
  | lookup (t : Nat)
  | spill (d : Dir)
  | depart
  | psnDel (fin : Option Nat)
  | psnNone (mpid : Mpid) (fin : Option Nat)
  | bulk (op : Nat) (step : Nat)
  | jobDel (t : Nat)
  | scrub
  | move
  | agency (dest : Hs) (acc : Nat)
  deriving DecidableEq, Repr

/-- A firn access (R158): its set, line, kind, the lines read so far, whether its write is outstanding, and whether it
runs over the fold's agency (R382). -/
structure FAcc where
  id : Nat
  ci : Ci
  fl : Nat
  lix : Lix
  kind : FKind
  got : List (Nat × Line)
  writing : Bool
  agency : Bool
  wleft : Nat
  dirty : List Nat
  deriving DecidableEq, Repr

/-- What a rime change completes (R75, R83, R160). -/
inductive RKindU where
  | vbTracked
  | vbClear
  | poison (fin : Option Nat)
  | plain
  | trk (t : Nat)
  deriving DecidableEq, Repr

structure RimeChg where
  tag : Nat
  lix : Lix
  mpid : Mpid
  val : Rime
  why : RKindU
  cmd : Option MCmd
  deriving DecidableEq, Repr

/-- A Calibration Table entry with VLD = 1 (R421). -/
structure CalEnt where
  mean : Nat
  min : Nat
  max : Nat
  chg : Bool
  deriving DecidableEq, Repr

/-- The data bits of an entry (R421), and the 82-bit word with its check bits. -/
def CalEnt.bits (e : CalEnt) : BitVec 74 :=
  BitVec.ofNat 1 e.chg.toNat ++ 1#1 ++ BitVec.ofNat 24 e.max ++ BitVec.ofNat 24 e.min ++ BitVec.ofNat 24 e.mean
def CalEnt.word (e : CalEnt) : BitVec 82 := Config.calEcc e.bits ++ e.bits

/-- A home slice (`ffix`: firn words that a scrub has corrected and not read since, R482; `early`: what was forwarded to a fold's destination before its set was installed, R380; `noAck`: marks of a fold still awaited, `waitAck`: messages held until they come, R379; `suspOver`: the ticks of marks beyond the 16 of the list, R489; `sfWait`, `fsWait`, `telWait`: an SF scrub with what its checks find, a firn scrub, the telemetry that wait for a slot, `lastSf`: the last scrub was of the SF, R415; R43, R57, R102, R128, R153, R158, R172, R420, R421, R489). -/
structure Slice where
  sf : List (Nat × SfEnt)
  vb : List VbEnt
  trk : List Trk
  plb : List PlbLine
  hold : List HoldEnt
  admg : List (Nat × Bool)
  facc : List FAcc
  rimeQ : List RimeChg
  cal : List (Nat × CalEnt)
  calQ : List (Cax × Nat)
  susp : List (BitVec 14 × Tick)
  suspOver : List Tick
  suspF : List (Ci × Nat)
  suspFAll : List Ci
  thr : List Mpid
  seq : Nat
  scrubSet : BitVec 14
  ffix : List (Ci × Nat × Nat)
  fscrub : Option (Ci × Nat)
  walk : Option (BitVec 4 × Nat)
  fwdQ : List Req
  early : List (Req × Bool)
  moved : List (BitVec 14)
  install : List (Hs × BitVec 14 × List SfEnt)
  noAck : List (Hs × BitVec 14 × Stn)
  waitAck : List (BitVec 14 × Stn × Option Ci × Msg)
  sfWait : Option (List (Nat × EccErr))
  fsWait : Bool
  telWait : Bool
  lastSf : Bool
  deriving DecidableEq, Repr

def Slice.reset : Slice :=
  { sf := [], vb := [], trk := [], plb := [], hold := [], admg := [], facc := [], rimeQ := [], cal := [], calQ := [],
    susp := [], suspOver := [], suspF := [], suspFAll := [], thr := [], seq := 0, scrubSet := 0, ffix := [], fscrub := none,
    walk := none, fwdQ := [], early := [], moved := [], install := [], noAck := [], waitAck := [],
    sfWait := none, fsWait := false, telWait := false, lastSf := false }

/-! ### Port stations and memory stations -/

/-- Where a message of an agent stands at its port station (R105, R149 to R151). -/
inductive OSt where
  | waiting
  | injected
  | reinject (due : Tick)
  deriving DecidableEq, Repr

/-- A message of an agent; `old`: its session is lost; `cred`: its writeback credit is out; `first`: the number of the first piece
of its access (R228). -/
structure Outst where
  req : Req
  st : OSt
  dest : Hs
  old : Bool
  cred : Bool
  first : Nat
  deriving DecidableEq, Repr

/-- A snoop held or delivered by a port station (R144, R319, R322, R507, R508). -/
structure SnQ where
  sn : Snp
  lp : Lp
  rqid : Rqid
  sess : BitVec 8
  nsmp : Bool
  given : Option (BitVec 12)
  block : Nat
  deriving DecidableEq, Repr

/-- A snoop answer held at a port station behind the messages of its line that came before it, `after` (R152, R383). -/
structure HeldAns where
  ans : SAns
  rqid : Rqid
  lix : Lix
  after : List Nat
  deriving DecidableEq, Repr

/-- A port station: its messages (`nextMid` numbers them), the words of pieces it collects (R228), its writeback credits in use with the `RSPACK` owed
(R103, R156), the generation bits (R153), its snoops, held answers and flushes (R498); `owed`: the requester of each completed
writeback-class message whose credit is still out (R323). -/
structure PSt where
  msgs : List Outst
  nextMid : Nat
  pieces : List (BitVec 160)
  cred : List (Nat × Bool × Bool)
  wbg : List (Nat × Bool)
  snq : List SnQ
  held : List HeldAns
  gpf : List Nat
  owed : List (Nat × Rqid)
  deriving DecidableEq, Repr

def PSt.reset : PSt := { msgs := [], nextMid := 0, pieces := [], cred := [], wbg := [], snq := [], held := [], gpf := [], owed := [] }

/-- How far the rime part of a command on a TABLE-mode port has come (R89): none to do, waiting for its Rime Table line,
waiting for the line's write, done. -/
inductive RPart where
  | none
  | read
  | write
  | done
  deriving DecidableEq, Repr

/-- A command at a memory station (R89, R233, R513): `sent` to the port, `line` its completion is in with `mst` and `data`,
`failed` it was sent before an earlier command of its line failed; its rime part. -/
structure MEnt where
  cmd : MCmd
  sent : Bool
  line : Bool
  mst : BitVec 2
  data : Line
  failed : Bool
  rpart : RPart
  rime : Rime
  deriving DecidableEq, Repr

/-- A memory station with its rime cache of Rime Table lines, most recently used first (R89). -/
structure MSt where
  cmds : List MEnt
  rcache : List (Nat × Line)
  deriving DecidableEq, Repr

def MSt.reset : MSt := { cmds := [], rcache := [] }

/-! ### Shared engines -/

/-- The arbiter of one engine (R291 to R306). `seed`: a value written, held from the next core cycle on (R291). `holder`: a queue,
or 65 for the emergency requester; `start`: when its grant began; `ending`: this core cycle is the grant's last one, `cut`: it was
cut (R295, R299); `won`: the queue whose grant begins with the next cycle (R294). `req`: the requesting queues with their tickets as
they stood at the start of this cycle (R294). `hints`: the published hint of each instance, none before the first (R304, R305). -/
structure Arb where
  lfsr : BitVec 32
  seed : Option (BitVec 32)
  holder : Option Nat
  start : Clk
  dl : Option Tick
  ending : Bool
  cut : Bool
  won : Option Nat
  req : List (Nat × Nat)
  hest : List (Nat × Nat)
  hints : List Nat
  en : Bool
  deriving DecidableEq, Repr

/-- One operation of a group (R192, R193) with its images. -/
structure GOp where
  opk : BitVec 4
  wid : BitVec 2
  off : BitVec 6
  lix : Lix
  cmask : Mask
  wmask : Mask
  opnd : BitVec 64
  cimg : Line
  wimg : Line
  deriving DecidableEq, Repr

/-- A lock of a run: message, home, sent, active, granted, refused, what its grant carried (R197), and whether it holds a lock
credit of its slice (R145, R379). -/
structure LkSt where
  lk : Lk
  hs : Hs
  sent : Bool
  act : Bool
  gnt : Bool
  refused : Bool
  psn : Bool
  plbh : Bool
  data : Line
  cred : Bool
  deriving DecidableEq, Repr

/-- How far a group or AtomicOp has come (R197, R211, R400). -/
inductive GSt where
  | copied
  | locking
  | gated
  | past
  | ret
  | ph
  deriving DecidableEq, Repr

/-- A copied group (R196 to R211). -/
structure Group where
  id : Nat
  ci : Ci
  gidx : BitVec 16
  recN : BitVec 16
  ph : Bool
  rq : Rqid
  gtag : BitVec 32
  ldf : Bool
  stf : Bool
  fen : Bool
  ops : List GOp
  gen : BitVec 8
  stamped : Bool
  st : GSt
  locks : List LkSt
  status : Status
  fop : BitVec 4
  fmap : BitVec 8
  pw : Bool
  tcmt : Tick
  rets : List (BitVec 64)
  mir : Option (BitVec 16)
  drop : Bool
  deriving DecidableEq, Repr

/-- A started AtomicOp (R178, R181). -/
structure ARun where
  id : Nat
  req : Req
  lk : LkSt
  nma : Bool
  gate : Option (BitVec 16 × Line × Line)
  deriving DecidableEq, Repr

/-- A descriptor being copied (R190, R562): header index, slots received, slots asked for, its record. `len`: its length once
the header has been read; `bad`: the header cannot be trusted. -/
structure Copy where
  ci : Ci
  base : BitVec 17
  slots : List (Nat × Line)
  asked : Nat
  len : Nat
  bad : Bool
  recN : BitVec 16
  deriving DecidableEq, Repr

/-- A transaction engine; at most one descriptor of a queue is being copied. -/
structure Te where
  aopq : List Req
  grps : List Group
  runs : List ARun
  copies : List Copy
  cred : List (Nat × Nat)
  nextId : Nat
  deriving DecidableEq, Repr

def Te.reset : Te := { aopq := [], grps := [], runs := [], copies := [], cred := [], nextId := 0 }

/-- Bulk operations (R309). -/
inductive BKind where
  | region (lo hi : Nat)
  | agentRecall (c : Cax)
  | agentLoss (c : Cax) (rq : Rqid) (cis : List Ci)
  | zfillCoh (lo hi : Nat) (kind : RKind)
  | zfillFirn
  | zfillRt (mpid : Mpid)
  | fold
  | firnRebuild
  | sfRebuild (t0 : Tick)
  | rotate
  | walk
  | resync
  | drop407
  deriving DecidableEq, Repr

/-- One line of work of a step (R147). -/
structure BItem where
  hs : Hs
  req : Req
  job : IJob
  deriving DecidableEq, Repr

/-- A step outstanding (R308): lines still to do, one line in work, firn or memory accesses still awaited; `more`: its firn sets hold
further matching entries (R309), or it was `cut` and is to run again (R310). -/
structure BStep where
  pos : Nat
  todo : List BItem
  busy : Bool
  awaited : Nat
  more : Bool
  cut : Bool
  deriving DecidableEq, Repr

/-- A bulk operation: the number that its steps name it by, queue, kind, instance, the command it serves, next step, steps in all (0: not known), steps done,
steps outstanding, steps to run again after a cut (R310). -/
structure BulkOp where
  id : Nat
  q : Nat
  kind : BKind
  ci : Ci
  cmd : BitVec 512
  pos : Nat
  total : Nat
  done : Nat
  outst : List BStep
  again : List Nat
  stopped : Bool
  ended : Option Status
  deriving DecidableEq, Repr

/-- The bulk engine: its operations, waiting or running recovery sweeps, the number of the next operation, the RQIDs of the lost
sessions still to be swept in the order of the losses (R301), the tick of the last step issued (R308). -/
structure Be where
  ops : List BulkOp
  sweeps : List BulkOp
  nextId : Nat
  losses : List Rqid
  issued : Option Tick
  deriving DecidableEq, Repr

/-! ### MC -/

/-- What a long command is doing. -/
inductive Job where
  | rule
  | imgEnd
  | create
  | quiesce
  | clear (remove : Bool) (step : Nat) (zf : Bool) (abort : Bool)
  | portFill (mpid : Mpid)
  | agentDisable (rq : Rqid) (left : List Ci) (swept : Bool)
  | freeze (ds : List (BitVec 7))
  | thaw (ds : List (BitVec 7))
  | seq
  | fold (ds : List (BitVec 7))
  | fence (act : BitVec 8) (stop : Stop) (port : BitVec 3)
  | engDisable (e : Eng)
  | bulk
  | twin (kind : BitVec 12)
  | commit (p : Nat)
  | dump
  | bootStart
  | wait
  deriving DecidableEq, Repr

/-- A command whose reply, or final reply, is still owed (R272, R456, R463): its packet, its work, its steps, those done by operations that have ended, whether it is a
long command. -/
structure LongCmd where
  cmd : BitVec 512
  job : Job
  steps : Nat
  done : Nat
  long : Bool
  deriving DecidableEq, Repr

/-- A reply packet (R460): status, STEPS and result bytes; the rest is echoed. -/
structure Reply where
  cmd : BitVec 512
  status : Status
  rlen : Nat
  steps : Nat
  result : BitVec 384
  deriving DecidableEq, Repr

/-- Domains that the MC freezes or thaws group by group, in the order of R375 (R375, R449): the group under way, the groups
left, the command that it answers (none: started by the MC itself). -/
structure Seq where
  freeze : Bool
  cur : List (BitVec 7)
  left : List (List (BitVec 7))
  cmd : Option (BitVec 512)
  deriving DecidableEq, Repr

structure Mc where
  bstate : BState
  lstat : Status
  papp : BitVec 8
  pflt : BitVec 8
  autordy : Bool
  img : List Host.Cell
  imgLen : Nat
  clevMin : BitVec 8
  clevMax : BitVec 8
  iver : BitVec 32
  wdog : Option Tick
  crSlots : List (Nat × BitVec 512)
  crProd : BitVec 9
  crRd : BitVec 9
  crMark : BitVec 9
  crRel : BitVec 9
  crDone : List Nat
  crDefer : List Nat
  rrWp : BitVec 12
  rrRp : BitVec 12
  replies : List Reply
  longs : List LongCmd
  seq : Option Seq
  store : List Host.Cell
  staging : List Host.Cell
  deriving DecidableEq, Repr

/-! ### Observation, twin, mesh, power, fold -/

/-- The observation station (R429 to R441). -/
structure Obs where
  cnt : List (Nat × BitVec 64)
  pre : List (Nat × Nat)
  incs : List (Nat × Nat)
  tkmask : BitVec 8
  vnmask : BitVec 8
  ring : Bool
  trigSel : BitVec 8
  trigKind : BitVec 8
  fci : BitVec 8
  smask : BitVec 64
  flix : BitVec 64
  flmask : BitVec 64
  trPost : Nat
  trigLix : BitVec 64
  taps : List (Nat × List TRec)
  lost : List (Nat × Nat)
  buf : List TRec
  trLost : Nat
  stopIn : Option Nat
  stopped : Bool
  dumping : Bool
  deriving DecidableEq, Repr

def Obs.reset : Obs :=
  { cnt := [], pre := [], incs := [], tkmask := 0, vnmask := 0, ring := false, trigSel := 0, trigKind := 0, fci := 0xFF,
    smask := 0, flix := 0, flmask := 0, trPost := 0, trigLix := 0, taps := [], lost := [], buf := [], trLost := 0,
    stopIn := none, stopped := false, dumping := false }

/-- A line of the Mirror Line Store (R397): of a posted line, or of a group's `GID`, applied or not. -/
structure MirLine where
  ci : Ci
  lix : Lix
  gid : Option (BitVec 16)
  ended : Bool
  psn : Bool
  data : Line
  deriving DecidableEq, Repr

/-- The twin station (R386, R397, R403 to R405). -/
structure Tw where
  lup : Bool
  linkUp : Bool
  incompat : Bool
  held : Bool
  plev : BitVec 8
  pMin : BitVec 8
  pMax : BitVec 8
  lastPkt : Option Tick
  nextHb : Tick
  store : List MirLine
  credits : Nat
  gated : List (Ci × Pkt)
  deriving DecidableEq, Repr

def Tw.reset : Tw :=
  { lup := false, linkUp := false, incompat := false, held := false, plev := 0, pMin := 0, pMax := 0, lastPkt := none,
    nextHb := 0, store := [], credits := 4096, gated := [] }

/-- One bank of route tables, given by what it avoids (R350, R352, R354). -/
structure Bank where
  fenced : List Stop
  retired : List Stop
  links : List (Stop × BitVec 3)
  deriving DecidableEq, Repr

/-- A route-epoch swap (R357): when the epoch flips, whether it has, what the command was. -/
structure Swap where
  t0 : Tick
  flipped : Bool
  flipTick : Tick
  cmd : Option (BitVec 512)
  deriving DecidableEq, Repr

/-- The mesh. `inj`: the cycle of the last flit that a stop's local port took (R335); `seq` numbers arrivals at queues; `busy`:
the cycle of the last flit that an output moved (R335, R340); `left`: flits that left an input queue, whose credits return one
cycle later (R342); `full`: when an adaptive queue last became full (R351); `sent`: the last 8 flits that went out on a link,
newest last (R360); `rot`: the queue an output granted last (R348); `replays`: links that await a replay. -/
structure Mesh where
  pkts : List Pkt
  rtep : Bool
  bank0 : Bank
  bank1 : Bank
  swap : Option Swap
  queued : List (BitVec 8 × Stop × BitVec 3 × Option (BitVec 512))
  rot : List (Nat × BitVec 7)
  replays : List (Nat × Nat)
  inj : List (Nat × Clk)
  seq : Nat
  busy : List (Nat × Clk)
  left : List (Nat × Clk)
  full : List (Nat × Clk)
  sent : List (Nat × List Pkt)
  deriving DecidableEq, Repr

/-- A switched domain (R362 to R373): state, boundary signals, timer, progress of a freeze or thaw. -/
structure Dom where
  st : DomSt
  req : Bool
  ack : Bool
  good : Bool
  iso : Bool
  ret : Bool
  counted : Bool
  dl : Option Tick
  t1 : Tick
  fenced : Bool
  kept : Bool
  toRet : Bool
  force : Bool
  forced : Bool
  deriving DecidableEq, Repr

def Dom.reset : Dom :=
  { st := .off, req := false, ack := false, good := false, iso := true, ret := false, counted := false, dl := none, t1 := 0,
    fenced := false, kept := false, toRet := false, force := false, forced := false }

/-- A fold in progress (R378): the new map, the migration pointer, the phase, the command. -/
structure Fold where
  oldMap : List Hs
  newMap : List Hs
  mp : Nat
  started : Bool
  flipped : Bool
  cmd : Option (BitVec 512)
  deriving DecidableEq, Repr

/-- A channel of R480, with its number. -/
structure Chan where
  chk : BitVec 4
  chn : BitVec 12
  deriving DecidableEq, Repr

/-- An error record (R479). -/
structure ErrRec where
  ecls : BitVec 4
  chk : BitVec 4
  chn : BitVec 12
  estop : Stop
  ecode : BitVec 8
  elix : Option Lix
  eci : Option Ci
  erq : Option Rqid
  bkt : BitVec 8
  etick : Tick
  deriving DecidableEq, Repr

/-- A violation record (R267). -/
structure VRec where
  lix : Lix
  akind : BitVec 4
  rqid : Rqid
  ci : Option Ci
  ridx : Option (BitVec 6)
  cause : BitVec 4
  tick : Tick
  deriving DecidableEq, Repr

/-- Effects that a rule places at phase 0 of a later tick. -/
inductive Eff where
  | inst (c : Ci) (st : ISt)
  | quota (c : Ci) (sfq plbq tmin tmax hold : Nat) (hauto : Bool) (cmd : BitVec 512)
  | snoopCfg (mn mx rt : Nat)
  | churn (scrub tel fscrub : Nat)
  | port (m : Mpid) (nma : Bool) (thr : Nat)
  | calReset (c : Cax)
  | agentEn (rq : Rqid) (en : Bool)
  | queueOff (c : Ci) (q : Bool)
  | profile (p : Params) (ports : List (Nat × PortDesc)) (cmd : BitVec 512)
  | gpfFlag (id : Nat)
  | dom (d : BitVec 7) (st : DomSt)
  | domSig (d : BitVec 7) (iso ret req : Option Bool)
  | credits (rq : Rqid)
  | readyLow
  | readyHigh
  | abort (c : Ci)
  | thaw (ds : List (BitVec 7))
  | churnSlot (n : Hs)
  deriving DecidableEq, Repr

/-- A word at the boundary (R500), in the order in which the engine writes it. -/
inductive Out where
  | cpl (c : Cpl)
  | dord (ps : Stn) (dst : Dst) (ord : DOrd) (rgen : Bool)
  | snp (ps : Stn) (lp : Lp) (tag : BitVec 12) (rqid : Rqid) (form : SForm) (lix : Lix) (lines : Nat)
  | gpfDone (ps : Stn)
  | regData (a : RegAcc) (v : BitVec 64)
  | regAck (a : RegAcc)
  | regUr (a : RegAcc)
  | mem (ms : Stn) (c : MCmd)
  | trace (w : BitVec 256) (ue : Bool)
  | twin (w : BitVec 256) (line : Option Line)
  | twinHello (cmin cmax lvl : BitVec 8) (peps : List (Ci × BitVec 16 × TRole))
  | twinBeat
  | twinMack (c : Ci) (rseq : BitVec 16) (pepl : BitVec 8)
  | twinRule (w : BitVec 256) (cmd : BitVec 512)
  deriving DecidableEq, Repr

/-- No command of this model faults (INVENTORY.md, "Faults"): the engine's own faults are states (R492). The one
constructor keeps the type of the host's interface; no meaning raises it. Safe. -/
inductive Fault where
  | unused
  deriving DecidableEq, Repr

/-- `notModelled`: the command has no meaning yet; raised only by an arm of exec. Safe. -/
inductive Refusal where
  | notModelled (mnemonic : String)
  deriving DecidableEq, Repr

/-- The retirement map (R543) and the procedures running (R484). -/
structure Ret where
  chans : List Chan
  doms : List (BitVec 7)
  running : List Chan
  deriving DecidableEq, Repr

/-- What hardware set and what a W1C write named of a register's bits in core cycle `at'` (R13). -/
structure Race where
  at' : Clk
  set : BitVec 64
  wrote : BitVec 64
  deriving DecidableEq, Repr

/-- Registers of the management window that have no other home (R533, R539, R541, R542); `races`: R13, by register. -/
structure Regs where
  fmRq0 : Rqid
  fmV0 : Bool
  fmRq1 : Rqid
  fmV1 : Bool
  irqEn : BitVec 4
  twinCause : BitVec 9
  obsCause : BitVec 4
  denyCnt : BitVec 32
  denyRq : Rqid
  ringErr : BitVec 16
  qce : List (Nat × Nat)
  psOvr : List (Nat × BitVec 16)
  msOvr : List (Nat × BitVec 16)
  races : List (Nat × Race)
  deriving DecidableEq, Repr

def Regs.reset : Regs :=
  { fmRq0 := 0, fmV0 := false, fmRq1 := 0, fmV1 := false, irqEn := 0, twinCause := 0, obsCause := 0, denyCnt := 0, denyRq := 0,
    ringErr := 0, qce := [], psOvr := [], msOvr := [], races := [] }

/-- The whole block; `pending`, `out` and `cuts` are the model's own (log entries 1, 5 and 33). -/
structure State where
  pending : List Instr
  clk : Clk
  coldLow : Bool
  warmLow : Bool
  warmRel : Option (BitVec 2 × Bool)
  strapProf : BitVec 2
  strapTwin : Bool
  ready : Bool
  halt : Halt
  sched : List (Tick × Eff)
  soon : List Eff
  mc : Mc
  params : Params
  errLog : List ErrRec
  errLost : BitVec 32
  vlog : List VRec
  vlogLost : BitVec 32
  buckets : List (Nat × Nat)
  leak : Option (Tick × Bool)
  ret : Ret
  arbMode : AMode
  regs : Regs
  insts : List (Nat × Inst)
  irt : List IrtEnt
  agents : List (Nat × Agent)
  lports : List (Nat × LPort)
  ports : List (Nat × PortDesc)
  pss : List (Nat × PSt)
  slices : List (Nat × Slice)
  mss : List (Nat × MSt)
  arb0 : Arb
  arb1 : Arb
  arbB : Arb
  te0 : Te
  te1 : Te
  be : Be
  obs : Obs
  tw : Tw
  mesh : Mesh
  pd : List (Nat × Dom)
  smap : List Hs
  smep : Bool
  fold : Option Fold
  parked : Bool
  latched : List (Instr)
  calSum : List (Nat × (Nat × Nat × Nat))
  calSeen : List Nat
  gpfSeq : Nat
  out : List Out
  cuts : Nat
  deriving DecidableEq, Repr

/-- R291's reset values of the three arbiters; engines start enabled (R306). -/
def Arb.reset (seed : BitVec 32) : Arb :=
  { lfsr := seed, seed := none, holder := none, start := { tick := 0, phase := 0 }, dl := none, ending := false, cut := false, won := none,
    req := [], hest := [], hints := [], en := true }

/-- The MC after a cold reset, before the boot ROM has ended its self-initialisation (R442, R453, R542). -/
def Mc.reset : Mc :=
  { bstate := .cold, lstat := .done, papp := 0xFF, pflt := 0, autordy := false, img := [], imgLen := 0, clevMin := 0,
    clevMax := 0, iver := 0, wdog := none, crSlots := [], crProd := 0, crRd := 0, crMark := 0, crRel := 0, crDone := [],
    crDefer := [], rrWp := 0, rrRp := 0, replies := [], longs := [], seq := none, store := [], staging := [] }

/-- XY routes in both banks, nothing in flight (R350). -/
def Mesh.reset : Mesh :=
  { pkts := [], rtep := false, bank0 := { fenced := [], retired := [], links := [] },
    bank1 := { fenced := [], retired := [], links := [] }, swap := none, queued := [], rot := [], replays := [], inj := [], seq := 0, busy := [], left := [],
    full := [], sent := [] }

/-- The block right after a cold reset has been released with every strap low (log entry 6): every field at the value
that its rule states, or that INVENTORY.md names. -/
def State.reset : State :=
  { pending := [], clk := { tick := 0, phase := 0 }, coldLow := false, warmLow := false, warmRel := none, strapProf := 0,
    strapTwin := false, ready := false, halt := .running, sched := [], soon := [], mc := Mc.reset, params := Params.defaults,
    errLog := [], errLost := 0, vlog := [], vlogLost := 0, buckets := [], leak := none, ret := { chans := [], doms := [], running := [] },
    arbMode := .start, regs := Regs.reset, insts := [], irt := [], agents := [], lports := [], ports := [], pss := [],
    slices := [], mss := [], arb0 := Arb.reset 0x5EED0001, arb1 := Arb.reset 0x5EED0002, arbB := Arb.reset 0x5EED0003,
    te0 := Te.reset, te1 := Te.reset, be := { ops := [], sweeps := [], nextId := 0, losses := [], issued := none }, obs := Obs.reset, tw := Tw.reset,
    mesh := Mesh.reset, pd := [], smap := (List.range 32).map (BitVec.ofNat 5), smep := false, fold := none,
    parked := false, latched := [], calSum := [], calSeen := [], gpfSeq := 0, out := [], cuts := 0 }

end Sys2Proof.Machine

namespace Sys2Proof

/-- The 128-bit body of a message (R338): its contents are internal to the engine, so they are free. DESIGN CHOICE (log entry
69), safe. -/
opaque Config.msgBody : Machine.Msg → BitVec 128

/-- `HMSG` of a line packet (R337): internal to the engine, so free. DESIGN CHOICE (log entry 69), safe. -/
opaque Config.hdrMsg : Machine.Msg → BitVec 64

end Sys2Proof
end

