-- ==== Sys2Proof/Machine/Routes.lean ====
section
/-!
DEFINITION. The routes of the mesh (R334, R349, R350, R352, R354): a bank of route tables, whose entries follow from what it avoids.
Directions carry the port codes of R334: 1 N, 2 E, 3 S, 4 W; 0 is the local port, a packet's start.
-/

namespace Sys2Proof.Machine

open Sys2Proof

/-- The neighbour of a router at a port (R334). -/
def nbr (s p : Nat) : Option Nat :=
  if p = 1 then (if 8 ≤ s then some (s - 8) else none)
  else if p = 2 then (if s % 8 < 7 then some (s + 1) else none)
  else if p = 3 then (if s < 48 then some (s + 8) else none)
  else if p = 4 then (if s % 8 > 0 then some (s - 1) else none)
  else none

/-- The port on the other side of a link. -/
def oppPort (p : Nat) : Nat := if p = 1 then 3 else if p = 3 then 1 else if p = 2 then 4 else if p = 4 then 2 else 0

/-- No router fenced or retired and no link retired (R350). -/
def Bank.plain (b : Bank) : Bool := b.fenced.isEmpty && b.retired.isEmpty && b.links.isEmpty

def Bank.linkDead (b : Bank) (s p : Nat) : Bool :=
  (b.links.contains (BitVec.ofNat 6 s, BitVec.ofNat 3 p)) ||
  (match nbr s p with | some t => b.links.contains (BitVec.ofNat 6 t, BitVec.ofNat 3 (oppPort p)) | none => false)

/-- A packet that travels in direction `d` may leave router `s` through port `p` (R354). -/
def Bank.mayMove (b : Bank) (s d p : Nat) : Bool :=
  match nbr s p with
  | none => false
  | some t =>
    p != oppPort d && (p != 4 || d == 0 || d == 4) && (!b.fenced.contains (BitVec.ofNat 6 s) || d == 0 || d == p) &&
      !b.retired.contains (BitVec.ofNat 6 s) && !b.retired.contains (BitVec.ofNat 6 t) && !b.linkDead s p

/-- A router and the direction of travel as one bit of a set of places. -/
def place (s d : Nat) : Nat := 5 * s + d

/-- The places from which one move leads into a set of places. -/
def Bank.into (b : Bank) (m : Nat) : Nat :=
  (List.range 56).foldl (fun acc s => (List.range 5).foldl (fun acc d =>
    if (List.range 4).any fun q => b.mayMove s d (q + 1) && (match nbr s (q + 1) with | some t => m.testBit (place t (q + 1)) | none => false)
    then acc ||| 2 ^ place s d else acc) acc) 0

/-- The places at distance 0, 1, 2, … from a stop. -/
def Bank.levels (b : Bank) : Nat → Nat → List Nat
  | 0, m => [m]
  | fuel + 1, m => m :: b.levels fuel (b.into m)

def Bank.toward (b : Bank) (dst : Nat) : List Nat :=
  b.levels 40 ((List.range 5).foldl (fun acc d => acc ||| 2 ^ place dst d) 0)

/-- The length of the shortest route from a place. -/
def routeLen (ms : List Nat) (s d : Nat) : Option Nat := ms.findIdx? fun m => m.testBit (place s d)

/-- The unit at a stop is out of service under the bank: its router is fenced or retired (R353). -/
def Bank.lost (b : Bank) (s : Stop) : Bool := b.fenced.contains s || b.retired.contains s

/-- `APORT` of router `s` for destination `dst`, lowest port first: the XY port (R350), or each port from which a shortest route of
R354 remains; the local port at the destination. None where the destination is not reachable (`EV` = 0). -/
def Bank.aport (b : Bank) (s dst : Nat) : List Nat :=
  if b.lost (BitVec.ofNat 6 dst) then []
  else if s = dst then [0]
  else if b.plain then
    if s % 8 < dst % 8 then [2] else if dst % 8 < s % 8 then [4] else if s < dst then [3] else [1]
  else
    let ms := b.toward dst
    match routeLen ms s 0 with
    | none => []
    | some n => [1, 2, 3, 4].filter fun p => b.mayMove s 0 p && (match nbr s p with
        | some t => (match routeLen ms t p with | some k => k + 1 == n | none => false)
        | none => false)

/-- The route-table entry of router `s` for destination `dst` (R349): `APORT`, `EPORT` (the lowest of the equal shortest ports,
R354) and `EV`. -/
def Bank.entry (b : Bank) (s dst : Nat) : BitVec 16 :=
  match b.aport s dst with
  | [] => 0
  | e :: l => BitVec.ofNat 16 (((e :: l).map fun p => 2 ^ p).sum + e * 2 ^ 5 + 2 ^ 8)

/-- The ports that may carry a packet at router `s`, lowest first; the first is for the escape channel. A fenced router passes
a packet straight through, in its direction of travel `d` (R352); any other goes by its table (log entry 68). -/
def Bank.ports (b : Bank) (s d dst : Nat) : List Nat :=
  if s != dst && d != 0 && b.fenced.contains (BitVec.ofNat 6 s) then (if b.mayMove s d d then [d] else [])
  else b.aport s dst

/-- The ports of the escape route from a stop to a stop. -/
def Bank.route (b : Bank) (s d dst : Nat) : Nat → List Nat
  | 0 => []
  | fuel + 1 =>
    match b.ports s d dst with
    | [] => []
    | p :: _ => match nbr s p with
      | some t => p :: b.route t p dst fuel
      | none => [p]

/-- The stops whose unit is in service under a bank (R353). -/
def Bank.inService (b : Bank) : List Nat :=
  (List.range 54).filter fun s => !b.lost (BitVec.ofNat 6 s)

/-- Every unit in service reaches every other (R355). -/
def Bank.connected (b : Bank) : Bool :=
  b.plain || b.inService.all fun t =>
    let ms := b.toward t
    b.inService.all fun s => (routeLen ms s 0).isSome

/-- The bank that a route-epoch bit selects (R349). -/
def Mesh.bank (m : Mesh) (rte : Bool) : Bank := if rte then m.bank1 else m.bank0

/-- The destination is in `RCHG` of the source: its escape route, where it has one, differs between the banks (R357). -/
def Mesh.changed (m : Mesh) (src dst : Stop) : Bool :=
  m.bank0 != m.bank1 && !m.bank0.lost dst && !m.bank1.lost dst && m.bank0.route src.toNat 0 dst.toNat 40 != m.bank1.route src.toNat 0 dst.toNat 40

/-- The mask `RCHG` that the MC gives the unit at a stop (R357 step 1). -/
def Mesh.rchg (m : Mesh) (src : Stop) : BitVec 64 :=
  BitVec.ofNat 64 (((List.range 56).filter fun d => m.changed src (BitVec.ofNat 6 d)).map fun d => 2 ^ d).sum

/-- No packet is sent to the stop: its entry has `EV` = 0 (R349, R352). -/
def Mesh.noWay (m : Mesh) (dst : Stop) : Bool := (m.bank m.rtep).lost dst

/-- The router has lost its local port: at once for its destination entries, at the end of the swap for the unit's own packets (R352,
R357 step 5). -/
def Mesh.cutOff (m : Mesh) (src : Stop) : Bool :=
  (m.bank m.rtep).lost src && (match m.swap with | some _ => (m.bank !m.rtep).lost src | none => true)

/-- After the flip of a swap, an ordered packet for a destination of `RCHG` is held (R357 step 4). -/
def Mesh.holds (m : Mesh) (src dst : Stop) (ord : Bool) : Bool :=
  ord && (match m.swap with | some w => w.flipped | none => false) && m.changed src dst

end Sys2Proof.Machine
end

