-- ==== Sys2Proof/Machine/Ops.lean ====
section
/-!
DEFINITION. The named operations over the state: sparse tables, the units' parts of the state, time and the effects placed
at a later tick, packets in flight, counters, error and violation records, replies. Every meaning is built from these.
-/

namespace Sys2Proof.Machine

open Sys2Proof

/-- The outcome of every command of this model. -/
abbrev Res := Host.Outcome State Fault Refusal

/-! ### Sparse tables with strictly rising keys -/

def tGet {α : Type} : List (Nat × α) → Nat → Option α
  | [], _ => none
  | (j, v) :: m, k => if j = k then some v else tGet m k

def tPut {α : Type} : List (Nat × α) → Nat → α → List (Nat × α)
  | [], k, v => [(k, v)]
  | (j, w) :: m, k, v =>
    if k < j then (k, v) :: (j, w) :: m
    else if k = j then (k, v) :: m
    else (j, w) :: tPut m k v

def tDel {α : Type} (m : List (Nat × α)) (k : Nat) : List (Nat × α) :=
  m.filter fun p => p.1 != k

/-- The strictly rising order of keys. -/
def tSorted {α : Type} : List (Nat × α) → Bool
  | [] => true
  | [_] => true
  | a :: b :: m => a.1 < b.1 && tSorted (b :: m)

/-! ### Addressed RAM of the block: bytes in canonical form, an unlisted byte reads 0 (log entry 7) -/

/-- What a byte that the list does not hold reads as (log entry 7). -/
def memDefault : BitVec 8 := 0

def memGet (m : List Host.Cell) (a : Nat) : BitVec 8 := (tGet m a).getD memDefault

def memSet (m : List Host.Cell) (a : Nat) (b : BitVec 8) : List Host.Cell :=
  if b = memDefault then tDel m a else tPut m a b

/-- The canonical form: addresses strictly rising, no byte equal to what an unlisted one reads as. -/
def Memory.wf (m : List Host.Cell) : Bool :=
  tSorted m && m.all fun c => c.2 != memDefault

/-- Writes the `n` little-endian bytes of `v` from address `a` on (R6). -/
def memSetN (m : List Host.Cell) (a : Nat) : Nat → Nat → List Host.Cell
  | 0, _ => m
  | n + 1, v => memSetN (memSet m a (BitVec.ofNat 8 (v % 256))) (a + 1) n (v / 256)

/-- Reads `n` little-endian bytes from address `a` on (R6). -/
def memGetN (m : List Host.Cell) (a : Nat) : Nat → Nat
  | 0 => 0
  | n + 1 => (memGet m a).toNat + 256 * memGetN m (a + 1) n

/-! ### Parts of the state -/

def State.inst (s : State) (c : Ci) : Inst := (tGet s.insts c.toNat).getD Inst.reset
def State.setInst (s : State) (c : Ci) (i : Inst) : State := { s with insts := tPut s.insts c.toNat i }
def State.modInst (s : State) (c : Ci) (f : Inst → Inst) : State := s.setInst c (f (s.inst c))

def State.slice (s : State) (n : Hs) : Slice := (tGet s.slices n.toNat).getD Slice.reset
def State.setSlice (s : State) (n : Hs) (x : Slice) : State := { s with slices := tPut s.slices n.toNat x }
def State.modSlice (s : State) (n : Hs) (f : Slice → Slice) : State := s.setSlice n (f (s.slice n))

def State.ps (s : State) (n : Stn) : PSt := (tGet s.pss n.toNat).getD PSt.reset
def State.setPs (s : State) (n : Stn) (x : PSt) : State := { s with pss := tPut s.pss n.toNat x }
def State.modPs (s : State) (n : Stn) (f : PSt → PSt) : State := s.setPs n (f (s.ps n))

def State.ms (s : State) (n : Stn) : MSt := (tGet s.mss n.toNat).getD MSt.reset
def State.setMs (s : State) (n : Stn) (x : MSt) : State := { s with mss := tPut s.mss n.toNat x }

def State.te (s : State) (e : Bool) : Te := if e then s.te1 else s.te0
def State.setTe (s : State) (e : Bool) (t : Te) : State := if e then { s with te1 := t } else { s with te0 := t }
def State.modTe (s : State) (e : Bool) (f : Te → Te) : State := s.setTe e (f (s.te e))

def State.arb (s : State) : Eng → Arb
  | .te0 => s.arb0
  | .te1 => s.arb1
  | .be => s.arbB
def State.setArb (s : State) : Eng → Arb → State
  | .te0, a => { s with arb0 := a }
  | .te1, a => { s with arb1 := a }
  | .be, a => { s with arbB := a }
def State.modArb (s : State) (e : Eng) (f : Arb → Arb) : State := s.setArb e (f (s.arb e))

def State.agent (s : State) (r : Rqid) : Option Agent := tGet s.agents r.toNat
def State.setAgent (s : State) (r : Rqid) (a : Agent) : State := { s with agents := tPut s.agents r.toNat a }
def State.modAgent (s : State) (r : Rqid) (f : Agent → Agent) : State :=
  match s.agent r with
  | some a => s.setAgent r (f a)
  | none => s

/-- The agent that holds a CAX (R314). -/
def State.caxAgent (s : State) (c : Cax) : Option (Rqid × Agent) :=
  (s.agents.find? fun p => p.2.cax == some c).map fun p => (BitVec.ofNat 12 p.1, p.2)

def State.lport (s : State) (l : BitVec 10) : LPort := (tGet s.lports l.toNat).getD LPort.reset
def State.modLport (s : State) (l : BitVec 10) (f : LPort → LPort) : State :=
  { s with lports := tPut s.lports l.toNat (f (s.lport l)) }
def lportOf (ps : Stn) (lp : Lp) : BitVec 10 := ps ++ lp

def State.port (s : State) (m : Mpid) : Option PortDesc :=
  match tGet s.ports m.toNat with
  | some p => if p.pv then some p else none
  | none => none

def State.dom (s : State) (d : BitVec 7) : Dom := (tGet s.pd d.toNat).getD Dom.reset
def State.setDom (s : State) (d : BitVec 7) (x : Dom) : State := { s with pd := tPut s.pd d.toNat x }
def State.modDom (s : State) (d : BitVec 7) (f : Dom → Dom) : State := s.setDom d (f (s.dom d))

/-! ### Stops (R15, R16) and domains (R362) -/

def psStop (n : Stn) : Stop := BitVec.ofNat 6 n.toNat
def hsStop (n : Hs) : Stop := BitVec.ofNat 6 (8 + n.toNat)
def msStop (n : Stn) : Stop := BitVec.ofNat 6 (40 + n.toNat)
def teStop (e : Bool) : Stop := if e then 49 else 48
def beStop : Stop := 50
def mcStop : Stop := 51
def twStop : Stop := 52
def obsStop : Stop := 53

def psDom (n : Stn) : BitVec 7 := BitVec.ofNat 7 (64 + n.toNat)
def msDom (n : Stn) : BitVec 7 := BitVec.ofNat 7 (72 + n.toNat)
def hsDom (n : Hs) : BitVec 7 := BitVec.ofNat 7 n.toNat
def sfDom (n : Hs) : BitVec 7 := BitVec.ofNat 7 (32 + n.toNat)
def teDom (e : Bool) : BitVec 7 := if e then 81 else 80

/-- A unit works while its domain is ON, or FREEZING and not yet fenced (R369 steps 2 and 3). -/
def State.works (s : State) (d : BitVec 7) : Bool := (s.dom d).st == .on || ((s.dom d).st == .freezing && !(s.dom d).fenced)
def State.isOn (s : State) (d : BitVec 7) : Bool := (s.dom d).st == .on

/-- Neither halted nor draining (R492). -/
def State.running (s : State) : Bool := s.halt == .running

def Eng.dom : Eng → BitVec 7
  | .te0 => 80
  | .te1 => 81
  | .be => 82
def Eng.ofTe (e : Bool) : Eng := if e then .te1 else .te0

/-! ### Replies (R460, R456) -/

/-- Little-endian fields of a command packet (R459): parameter byte `off` on, `n` bytes. -/
def cOpc (w : BitVec 512) : BitVec 12 := w.extractLsb' 4 12
def cTag (w : BitVec 512) : BitVec 16 := w.extractLsb' 16 16
def cCi8 (w : BitVec 512) : BitVec 8 := w.extractLsb' 32 8
def cCi (w : BitVec 512) : Ci := w.extractLsb' 32 6
def cFlag (w : BitVec 512) (i : Nat) : Bool := w.getLsbD (40 + i)
def cPar (w : BitVec 512) (off n : Nat) : Nat := (w.extractLsb' (128 + 8 * off) (8 * n)).toNat

/-- Writes one reply packet of 8 words into the Reply Ring. -/
def State.reply (s : State) (cmd : BitVec 512) (st : Status) (rlen : Nat := 0) (result : Nat := 0) (steps : Nat := 0) : State :=
  { s with mc := { s.mc with
      replies := s.mc.replies ++ [{ cmd := cmd, status := st, rlen := rlen, steps := steps, result := BitVec.ofNat 384 result }],
      rrWp := s.mc.rrWp + 8 } }

/-- Sends the final reply of a long command and forgets it (R463). -/
def State.finish (s : State) (cmd : BitVec 512) (st : Status) (rlen : Nat := 0) (result : Nat := 0) : State :=
  let s := { s with mc := { s.mc with longs := s.mc.longs.filter fun l => l.cmd != cmd } }
  s.reply cmd st rlen result

/-- What a command without its final reply does next. -/
def State.setJob (s : State) (w : BitVec 512) (j : Job) : State :=
  { s with mc := { s.mc with longs := s.mc.longs.map fun (l : LongCmd) => if l.cmd == w then { l with job := j } else l } }

/-! ### Counters (R437 to R441) -/

/-- A unit counts one event: its 16-bit pre-counter rises, and is sent to OBS when it reaches 0x8000 (R438). -/
def State.bump (s : State) (i : Nat) : State :=
  let v := (tGet s.obs.pre i).getD 0 + 1
  if v < 0x8000 then { s with obs := { s.obs with pre := tPut s.obs.pre i v } }
  else { s with obs := { s.obs with pre := tDel s.obs.pre i, incs := s.obs.incs ++ [(i, v)] } }

/-- `n` events at once (R438). -/
def State.bumpBy (s : State) (i n : Nat) : State :=
  let v := (tGet s.obs.pre i).getD 0 + n
  { s with obs := { s.obs with pre := if v % 0x8000 = 0 then tDel s.obs.pre i else tPut s.obs.pre i (v % 0x8000),
                               incs := s.obs.incs ++ List.replicate (v / 0x8000) (i, 0x8000) } }

def State.bumpN : State → Nat → Nat → State
  | s, _, 0 => s
  | s, i, n + 1 => (s.bump i).bumpN i n

/-- An event of an instance: every counter of its sets that counts it (R441). -/
def State.bumpI (s : State) (c : Ci) (ev : Nat) : State :=
  ((s.inst c).evts.filter fun p => p.2 == ev).foldl (fun s p => s.bump p.1) s

def hsCtr (n : Hs) (i : Nat) : Nat := 0x800 + 32 * n.toNat + i
def psCtr (n : Stn) (i : Nat) : Nat := 0xC00 + 32 * n.toNat + i
def msCtr (n : Stn) (i : Nat) : Nat := 0xD00 + 32 * n.toNat + i
def teCtr (e : Bool) (i : Nat) : Nat := (if e then 0xE20 else 0xE00) + i

/-! ### Cause bits with REPEAT (R13) -/

/-- The registers with W1C bits (R541, R542, R305, R547), as keys of `Regs.races`. -/
inductive W1c where
  | twinCause
  | obsCause
  | ringErr
  | psOvr (n : Nat)
  | msOvr (n : Nat)
  | lot (c : Ci)
  | qerr (c : Ci) (q : Bool)
  deriving DecidableEq, Repr

def W1c.key : W1c → Nat
  | .twinCause => 0
  | .obsCause => 1
  | .ringErr => 2
  | .psOvr n => 16 + n
  | .msOvr n => 32 + n
  | .lot c => 64 + c.toNat
  | .qerr c q => 128 + 2 * c.toNat + (if q then 1 else 0)

/-- What happened to a register's W1C bits in this core cycle. -/
def State.race (s : State) (r : W1c) : Race :=
  match tGet s.regs.races r.key with
  | some x => if x.at' = s.clk then x else { at' := s.clk, set := 0, wrote := 0 }
  | none => { at' := s.clk, set := 0, wrote := 0 }

def State.setRace (s : State) (r : W1c) (x : Race) : State :=
  { s with regs := { s.regs with races := tPut (s.regs.races.filter fun p => p.2.at' == s.clk) r.key x } }

/-- A hardware event sets bit `b`: the register's old bits `v` with that bit, and with `REPEAT` (bit `rep`) where a W1C write named
the bit in the same core cycle (R13). -/
def State.hwSet (s : State) (r : W1c) (v : BitVec 64) (b rep : Nat) : BitVec 64 :=
  v ||| BitVec.ofNat 64 (2 ^ b) ||| (if (s.race r).wrote.getLsbD b then BitVec.ofNat 64 (2 ^ rep) else 0)

def State.hwNote (s : State) (r : W1c) (b : Nat) : State :=
  s.setRace r { s.race r with set := (s.race r).set ||| BitVec.ofNat 64 (2 ^ b) }

/-- A W1C write of the bits `m`: a bit that hardware set in the same core cycle stays, and sets `REPEAT` (R12, R13). -/
def State.w1cVal (s : State) (r : W1c) (v m : BitVec 64) (rep : Nat) : BitVec 64 :=
  let both := (s.race r).set &&& m
  (v &&& ~~~(m &&& ~~~both)) ||| (if both = 0 then 0 else BitVec.ofNat 64 (2 ^ rep))

def State.w1cNote (s : State) (r : W1c) (m : BitVec 64) : State :=
  s.setRace r { s.race r with wrote := (s.race r).wrote ||| m }

def State.twinCause (s : State) (b : Nat) : State :=
  ({ s with regs := { s.regs with twinCause := (s.hwSet .twinCause (s.regs.twinCause.setWidth 64) b 8).setWidth 9 } } : State).hwNote .twinCause b
def State.obsCause (s : State) (b : Nat) : State :=
  ({ s with regs := { s.regs with obsCause := (s.hwSet .obsCause (s.regs.obsCause.setWidth 64) b 3).setWidth 4 } } : State).hwNote .obsCause b
def State.ringErrBit (s : State) (b : Nat) : State :=
  ({ s with regs := { s.regs with ringErr := (s.hwSet .ringErr (s.regs.ringErr.setWidth 64) b 15).setWidth 16 } } : State).hwNote .ringErr b

/-- Corrected words of a queue (R529, R542): 0 Command Ring, 1 Reply Ring, 2 trace, 3 and 4 the twin queues; saturating. -/
def State.qceAdd (s : State) (k n : Nat) : State :=
  if n = 0 then s
  else { s with regs := { s.regs with qce := tPut s.regs.qce k (min 0xFFFF ((tGet s.regs.qce k).getD 0 + n)) } }

/-! ### Trace taps (R429 to R431) -/

/-- The trace filter (R431). -/
def State.tracePass (s : State) (r : TRec) (vnet : Option Nat) : Bool :=
  r.kind.toNat ≥ 1 && s.obs.tkmask.getLsbD (r.kind.toNat - 1) &&
  (match vnet with | some v => s.obs.vnmask.getLsbD v | none => true) &&
  s.obs.smask.getLsbD r.stop.toNat &&
  (s.obs.fci == 0xFF || (match r.ci with | some c => s.obs.fci == c.setWidth 8 | none => false)) &&
  (match r.lix with
    | some l => ((l ^^^ s.obs.flix.setWidth 46) &&& s.obs.flmask.setWidth 46) == 0
    | none => true)

/-- A tap makes a record: 8 places per tap, a discard is counted (R429); without OBS there is no trace (R374). -/
def State.tap (s : State) (r : TRec) (vnet : Option Nat) : State :=
  if s.obs.tkmask == 0 || !s.isOn 84 || !s.tracePass r vnet then s
  else
    let k := r.stop.toNat
    let q := (tGet s.obs.taps k).getD []
    let n := (tGet s.obs.lost k).getD 0
    if q.length + (if n = 0 then 0 else 1) ≥ 8 then { s with obs := { s.obs with lost := tPut s.obs.lost k (n + 1) } }
    else
      let l : TRec := { kind := 5, stop := r.stop, at' := s.clk, body := BitVec.ofNat 128 (min n 0xFFFF), ci := none, lix := none }
      if n = 0 then { s with obs := { s.obs with taps := tPut s.obs.taps k (q ++ [r]) } }
      else { s with obs := { s.obs with taps := tPut s.obs.taps k (q ++ [l, r]), lost := tDel s.obs.lost k } }

def VNet.code : VNet → Nat
  | .req => 0
  | .snp => 1
  | .rsp => 2
  | .dat => 3
  | .mgt => 4

def DSt.code : DSt → BitVec 3
  | .inv => 0
  | .shp => 1
  | .shc => 2
  | .exo => 3
  | .psn => 4
  | .bcs => 6

/-! ### Flits (R336, R337, R340) -/

/-- The trace record as a word (R432). -/
def TRec.word (r : TRec) : BitVec 256 :=
  BitVec.ofNat 256 (r.kind.toNat + r.stop.toNat * 2 ^ 4 + r.at'.phase.toNat * 2 ^ 10 + r.at'.tick.toNat * 2 ^ 14 + r.body.toNat * 2 ^ 64 +
    (match r.ci with | some c => c.toNat * 2 ^ 192 + 2 ^ 198 | none => 0))

/-- The 128-bit bodies that a message takes in a flit: a record of 256 bits takes two (R395, R430). -/
def Msg.size : Msg → Nat
  | .trace _ => 2
  | .twin _ _ => 2
  | .twinRule _ _ => 2
  | _ => 1

/-- The line that a message's packet carries as its payload, or in its second flit (R337, R395, R396). -/
def Msg.line : Msg → Option Line
  | .ln d => some d
  | .lgnt _ _ _ _ d => some d
  | .grelw _ d _ _ _ => some d
  | .nma _ _ _ d => some d
  | .unc _ r _ d => if r.cls = Cls.urd then some d else none
  | .mcpl _ _ _ d => some d
  | .twin _ l => l
  | .twinRule _ c => some c
  | _ => none

/-- The message's payload is a poisoned line (`PPSN`, R337). -/
def Msg.poisoned : Msg → Bool
  | .lgnt _ _ p _ _ => p
  | .grelw _ _ p _ _ => p
  | .nma _ _ p _ => p
  | .unc _ _ p _ => p
  | .mcpl _ m _ _ => m == 1
  | .cpl c => c.psn
  | .mcmd c => c.wpsn
  | _ => false

/-- A line packet (`LINE` = 1): one 64 B line on VN3 (R336, R341). -/
def Pkt.isLine (p : Pkt) : Bool := p.vnet == .dat && p.msg.line.isSome

def Pkt.bodies (p : Pkt) : List Msg := p.msg :: p.more

/-- Flits of the packet: two for a VN4 packet whose record carries a line, else one (R340, R395). -/
def Pkt.flits (p : Pkt) : Nat := if p.vnet = .mgt && p.msg.line.isSome then 2 else 1

/-- The header of R337 of flit `idx`, with `HMSG` zero, as a `PKT` record shows it (R433). -/
def Pkt.header (p : Pkt) (idx : Nat := 0) : BitVec 112 :=
  BitVec.ofNat 112 (p.dst.toNat + p.src.toNat * 2 ^ 6 + p.vnet.code * 2 ^ 12 + (if p.esc then 2 ^ 15 else 0) +
    (if p.rte then 2 ^ 16 else 0) + p.urg.toNat * 2 ^ 17 + (if p.ord then 2 ^ 20 else 0) + (if p.isLine then 2 ^ 21 else 0) +
    (if p.psn && p.isLine then 2 ^ 22 else 0) + (if p.isLine then 0 else (p.bodies.map Msg.size).sum * 2 ^ 23) +
    (p.flits - 1) * 2 ^ 26 + idx * 2 ^ 28 + p.itk.toNat * 2 ^ 30)

/-- The bodies of a message as bits: the words of a record; the rest is internal to the engine (log entry 69). -/
def Msg.bits : Msg → List (BitVec 128)
  | .trace r => [r.word.extractLsb' 0 128, r.word.extractLsb' 128 128]
  | .twin w _ => [w.extractLsb' 0 128, w.extractLsb' 128 128]
  | .twinRule w _ => [w.extractLsb' 0 128, w.extractLsb' 128 128]
  | m => [Config.msgBody m]

/-- Body i lies in payload bits [128i + 127 : 128i]; the rest is zero (R338). -/
def packBodies : List (BitVec 128) → Nat
  | [] => 0
  | b :: l => b.toNat + 2 ^ 128 * packBodies l

/-- The payload of flit `idx`: the line, or the bodies (R336, R338); a record's line in the second flit (R395). -/
def Pkt.payload (p : Pkt) (idx : Nat) : BitVec 512 :=
  if p.isLine || idx == 1 then p.msg.line.getD 0 else BitVec.ofNat 512 (packBodies (p.bodies.flatMap Msg.bits))

/-- Flit `idx` of a packet (R336): header with `HMSG`, payload, check bits. -/
def Pkt.flit (p : Pkt) (idx : Nat) : BitVec 640 :=
  let h : BitVec 112 := p.header idx ||| (if p.isLine then BitVec.ofNat 112 ((Config.hdrMsg p.msg).toNat * 2 ^ 48) else 0)
  let w : BitVec 624 := p.payload idx ++ h
  Config.fecc w ++ w

/-! ### Two packets for one message (R341) -/

/-- The body of a message that carries lines beside it, and those lines: a `MEMWR` without DST, a completion with `DPUSH`, the
agency's writes and results. -/
def Msg.split : Msg → Msg × List Line
  | .mcmd c => if c.kind = .memwr && c.dst.isNone then (.mcmd { c with data := 0 }, [c.data]) else (.mcmd c, [])
  | .cpl c => if c.ord = .dpush then (.cpl { c with data := 0 }, [c.data]) else (.cpl c, [])
  | .agReq s d a c f (.write j l) => (.agReq s d a c f (.write j 0), [l])
  | .agRsp s d a c f ls => (.agRsp s d a c f (ls.map fun _ => 0), ls)
  | m => (m, [])

/-- The message of a body and the lines that have arrived for it; none while one is missing. -/
def Msg.join : Msg → List Line → Option Msg
  | .mcmd c, [d] => some (.mcmd { c with data := d })
  | .cpl c, [d] => some (.cpl { c with data := d })
  | .agReq s d a c f (.write j _), [l] => some (.agReq s d a c f (.write j l))
  | .agRsp s d a c f ls, ms => if ls.length = ms.length then some (.agRsp s d a c f ms) else none
  | m, [] => some m
  | _, _ => none

/-- The `ITK` and `URG` of its packet stay with a request, which may be sent again (R346). -/
def Msg.stamp (itk : BitVec 12) (urg : BitVec 3) : Msg → Msg
  | .req r => .req { r with itk := itk, urg := urg }
  | .wbm r => .wbm { r with itk := itk, urg := urg }
  | .aop r => .aop { r with itk := itk, urg := urg }
  | .fwd s d r w => .fwd s d { r with itk := itk, urg := urg } w
  | m => m

/-- The line and instance that a message names, for the trace filter. -/
def Msg.names : Msg → Option Ci × Option Lix
  | .req r => (some r.ci, some r.lix)
  | .wbm r => (some r.ci, some r.lix)
  | .aop r => (some r.ci, some r.lix)
  | .snp n => (some n.ci, some n.lix)
  | .mcmd c => (none, some c.lix)
  | .mcpl c _ _ _ => (none, some c.lix)
  | .cpl c => (none, some c.lix)
  | .lck l => (some l.ci, some l.lix)
  | .lgnt l _ _ _ _ => (some l.ci, some l.lix)
  | .grelw l _ _ _ _ => (some l.ci, some l.lix)
  | .grel l => (some l.ci, some l.lix)
  | _ => (none, none)

/-- The `PKT` records of R433 for a packet that enters (`ej` false) or leaves the mesh at `stop`: one for each body. -/
def State.tapPkt (s : State) (p : Pkt) (stop : Stop) (ej : Bool) : State :=
  let body := (p.header.setWidth 128) ||| (if ej then BitVec.ofNat 128 (2 ^ 112) else 0)
  p.bodies.foldl (fun s m => s.tap { kind := 1, stop := stop, at' := s.clk, body := body, ci := m.names.1, lix := m.names.2 } (some p.vnet.code)) s

/-! ### Packets in flight -/

/-- Core cycle `a` is before core cycle `b` (R31). -/
def Clk.before (a b : Clk) : Bool :=
  if a.tick = b.tick then decide (a.phase < b.phase) else decide ((b.tick - a.tick).toNat < 2 ^ 47)

/-- The core cycle `n` cycles on. -/
def Clk.plus (c : Clk) (n : Nat) : Clk :=
  { tick := c.tick + BitVec.ofNat 48 ((c.phase.toNat + n) / 16), phase := BitVec.ofNat 4 ((c.phase.toNat + n) % 16) }

/-- `URG` by age (R347). -/
def urgOf (age : Nat) : Nat :=
  if age < 4 then 0 else if age < 8 then 1 else if age < 16 then 2 else if age < 32 then 3 else if age < 64 then 4
  else if age < 128 then 5 else if age < 256 then 6 else 7

/-- `ITK` of a packet; a message not yet injected takes the tick (R346). -/
def State.itkOf (s : State) (p : Pkt) : BitVec 12 := if p.wait && p.fresh then s.clk.tick.setWidth 12 else p.itk

/-- The urgency that a router gives a packet: `URG` never falls (R346, R347). -/
def State.urgency (s : State) (p : Pkt) : Nat := max p.urg.toNat (urgOf (s.clk.tick.setWidth 12 - s.itkOf p).toNat)

/-- The router and the input that hold a packet; 0 is the local input. -/
def Pkt.queueAt (p : Pkt) : Nat × Nat := match p.at' with | some (s, i) => (s.toNat, i.toNat) | none => (p.src.toNat, 0)

/-- A queue of R342 as a number: router, input, network, channel. -/
def queueKey (st inp : Nat) (v : VNet) (esc : Bool) : Nat := ((st * 8 + inp) * 5 + v.code) * 2 + (if esc then 1 else 0)

/-- The queue that holds a packet. -/
def Pkt.key (p : Pkt) : Nat := queueKey p.queueAt.1 p.queueAt.2 p.vnet p.esc

/-- The packet stands in an input queue of a router, or on the link toward it. -/
def Pkt.queued (p : Pkt) : Bool := !p.wait && !p.arr

/-- Credits left toward the queue of a network and channel at an input of a router: 4 flits; the credit of a flit that has left
returns one core cycle later (R342). -/
def State.credit (s : State) (st inp : Nat) (v : VNet) (esc : Bool) : Nat :=
  let k := queueKey st inp v esc
  4 - ((s.mesh.pkts.filter fun (p : Pkt) => p.queued && p.key == k).map Pkt.flits).sum -
    (s.mesh.left.filter fun x => x.1 == k && !x.2.before s.clk).length

/-- The local port of a stop has taken a flit in this core cycle (R335). -/
def State.portBusy (s : State) (n : Stop) : Bool :=
  match tGet s.mesh.inj n.toNat with | some c => !c.before s.clk | none => false

/-- The bodies that join a packet: messages that wait for the same destination, network and `ORD`, up to `room` bodies (R338, R339);
and the packets that are left. -/
def takeBodies (p : Pkt) : Nat → List Pkt → List Msg × List Pkt
  | _, [] => ([], [])
  | room, q :: l =>
    if q.wait && !q.held && q.src == p.src && q.dst == p.dst && q.vnet == p.vnet && q.ord == p.ord && q.tag == 0 && q.fresh &&
        q.msg.line.isNone && decide (q.msg.size ≤ room) then
      let (b, r) := takeBodies p (room - q.msg.size) l
      (q.msg :: b, r)
    else
      let (b, r) := takeBodies p (if q.wait && q.src == p.src && q.dst == p.dst && q.vnet == p.vnet && q.ord == p.ord then 0 else room) l
      (b, q :: r)

/-- The waiting message in place `k` may be injected: its unit does not hold it, the queue has credit for every flit, and no
message before it waits for the same destination, network and `ORD`. -/
def State.mayEnter (s : State) (k : Nat) (p : Pkt) : Bool :=
  p.wait && !p.held && decide (p.flits ≤ s.credit p.src.toNat 0 p.vnet p.esc) &&
    (s.mesh.pkts.take k).all fun q => !(q.wait && q.src == p.src && q.dst == p.dst && q.vnet == p.vnet && q.ord == p.ord)

/-- The local port of a stop takes a packet, if it can: the oldest message that may enter, with those that wait beside it
(R335, R338, R339, R346, R357). -/
def State.injectAt (s : State) (n : Stop) : State :=
  if s.portBusy n || s.mesh.cutOff n then s
  else
    match ((List.range s.mesh.pkts.length).zip s.mesh.pkts).find? fun x => x.2.src == n && s.mayEnter x.1 x.2 with
    | none => s
    | some (k, p) =>
      let (b, r) := if p.msg.line.isSome || p.tag != 0 || !p.fresh then ([], s.mesh.pkts.drop (k + 1))
        else takeBodies p (4 - p.msg.size) (s.mesh.pkts.drop (k + 1))
      let q := { p with more := b, wait := false, rte := s.mesh.rtep, itk := s.itkOf p, came := s.clk, qn := s.mesh.seq }
      let s := { s with mesh := { s.mesh with pkts := s.mesh.pkts.take k ++ q :: r, seq := s.mesh.seq + 1,
                                              inj := tPut s.mesh.inj n.toNat (s.clk.plus (p.flits - 1)) } }
      s.tapPkt q n false

/-- Every local port with a message waiting takes a packet, if it can. -/
def State.injectAll (s : State) : State :=
  (((s.mesh.pkts.filter fun (p : Pkt) => p.wait && !p.held).map fun p => p.src).eraseDups).foldl State.injectAt s

/-- A unit has a message for another: it waits for the unit's local port (R335), and enters at once where that can take a flit. A
line beside it travels on VN3 (R341). To a stop whose entry has `EV` = 0 nothing is sent (R352). `old`: `ITK` and `URG` of a
message sent again (R346). R343 sets `ord`. -/
def State.send (s : State) (src dst : Stop) (v : VNet) (ord : Bool) (m : Msg) (old : Option (BitVec 12 × BitVec 3) := none) : State :=
  if s.mesh.noWay dst || s.mesh.cutOff src then s
  else
    let (b, ls) := m.split
    let tag := if ls.isEmpty then 0 else s.mesh.seq + 1
    let p := { Pkt.new src dst v ord b with psn := m.poisoned, tag := tag, held := s.mesh.holds src dst ord, fresh := old.isNone,
                                            itk := (old.getD (0, 0)).1, urg := (old.getD (0, 0)).2 }
    let l := ls.map fun d => { Pkt.new src dst .dat false (.ln d) with psn := m.poisoned, tag := tag }
    ({ s with mesh := { s.mesh with pkts := s.mesh.pkts ++ p :: l, seq := s.mesh.seq + 1 } } : State).injectAt src

/-- Whether the packet in place `k` may be ejected next: no ordered packet of the same source, destination and network
was injected before it (R344), and its unit does not hold it (R357). -/
def canEject (ps : List Pkt) (k : Nat) (p : Pkt) : Bool :=
  !p.held && (!p.ord || (ps.take k).all fun q => !(q.ord && q.src == p.src && q.dst == p.dst && q.vnet == p.vnet))

/-- The line packets that belong to a body (R341). -/
def Pkt.partOf (p q : Pkt) : Bool :=
  p.tag != 0 && q.tag == p.tag && q.src == p.src && q.dst == p.dst && (match q.msg with | .ln _ => true | _ => false)

/-- The message that the receiver of a packet takes next: the body with its lines, once they can be had (R341). -/
def State.body (s : State) (p : Pkt) : Option Msg :=
  let m := if p.tag = 0 then some p.msg
    else p.msg.join ((s.mesh.pkts.filter p.partOf).filterMap fun q => match q.msg with | .ln d => some d | _ => none)
  m.map (Msg.stamp (s.itkOf p) (BitVec.ofNat 3 (s.urgency p)))

/-- A packet leaves the mesh: the hops still before it are implied, and the routers on its way raise `URG` (R347, log entry 4). -/
def State.tapOut (s : State) (p : Pkt) : State :=
  if p.arr then s
  else
    let q := { p with itk := s.itkOf p, rte := if p.wait then s.mesh.rtep else p.rte }
    let s := if p.wait then s.tapPkt q p.src false else s
    s.tapPkt { q with urg := BitVec.ofNat 3 (s.urgency q) } p.dst true

/-- The state once the receiver has taken the next body of the packet in place `k`, with its lines (R338, R341). -/
def State.ejected (s : State) (k : Nat) (p : Pkt) : State :=
  let lines := s.mesh.pkts.filter p.partOf
  let ps := match p.more with
    | [] => s.mesh.pkts.eraseIdx k
    | m :: r => s.mesh.pkts.set k { p with msg := m, more := r, wait := false, arr := true }
  let s := { s with mesh := { s.mesh with pkts := if lines.isEmpty then ps else ps.filter fun q => !p.partOf q } }
  lines.foldl State.tapOut (s.tapOut p)

/-- The receiver takes the next body of the packet in place `k` if it is one that `sel` takes. -/
def State.recv {α : Type} (s : State) (k : Nat) (sel : Msg → Option α) : Option (α × Pkt × State) :=
  match s.mesh.pkts[k]? with
  | none => none
  | some p =>
    match (s.body p).bind sel with
    | none => none
    | some a => if canEject s.mesh.pkts k p then some (a, p, s.ejected k p) else none

/-- A word written to an outbound attachment (log entry 5). -/
def State.emit (s : State) (o : Out) : State := { s with out := s.out ++ [o] }

/-! ### Records -/

def chanKey (c : Chan) : Nat := c.chk.toNat * 4096 + c.chn.toNat

/-- The channel fields of a cause that has no channel (log entry 34). -/
def noChan (code : BitVec 8) : Chan :=
  { chk := (Config.noChannel code).extractLsb' 0 4, chn := (Config.noChannel code).extractLsb' 4 12 }

/-- A record enters the error log of 64 (R483); a fatal one replaces the newest of a full log. -/
def State.logErr (s : State) (e : ErrRec) : State :=
  if s.errLog.length < 64 then { s with errLog := s.errLog ++ [e] }
  else if e.ecls = 5 then { s with errLog := s.errLog.take 63 ++ [e], errLost := s.errLost + 1 }
  else { s with errLost := s.errLost + 1 }

/-- A contained fault of a cause without a channel: a record, and no bucket (log entry 34). -/
def State.logBare (s : State) (stop : Stop) (code : BitVec 8) (lix : Lix) (ci : Option Ci) (rq : Rqid) : State :=
  s.logErr { ecls := 3, chk := (noChan code).chk, chn := (noChan code).chn, estop := stop, ecode := code, elix := some lix, eci := ci,
             erq := some rq, bkt := 0, etick := s.clk.tick }

/-- Ticks from one leak of the buckets to the next (R481). -/
def State.leakPeriod (s : State) : Nat := max 1 (s.params.lbWin / s.params.lbThr)

/-- Every bucket above zero falls by 1; `row`: by the command of the leak itself. -/
def State.leakNow (s : State) (row : Bool) : State :=
  { s with buckets := (s.buckets.map fun b => (b.1, b.2 - 1)).filter (fun b => b.2 != 0), leak := some (s.clk.tick, row) }

/-- An event in the cycle of a leak is added after the fall (R481). -/
def State.leakFirst (s : State) : State :=
  if s.clk.phase = 0 && s.clk.tick.toNat % s.leakPeriod == 0 && !(s.leak.any fun l => l.1 == s.clk.tick) then s.leakNow false else s

/-- R481, R478: an event of a transient or contained fault (`cls` 2 or 3) in its channel's bucket, its record, and,
when the bucket reaches LB_THR, the channel's retirement (R484): record, map, mode RECOVERY, procedure waiting. -/
def State.faultEv (s : State) (cls : BitVec 4) (ch : Chan) (stop : Stop) (code : BitVec 8) (lix : Option Lix := none)
    (ci : Option Ci := none) (rq : Option Rqid := none) : State :=
  let s := s.leakFirst
  let b := min 255 ((tGet s.buckets (chanKey ch)).getD 0 + 1)
  let s := { s with buckets := tPut s.buckets (chanKey ch) b }
  let e : ErrRec := { ecls := cls, chk := ch.chk, chn := ch.chn, estop := stop, ecode := code, elix := lix, eci := ci, erq := rq,
                      bkt := BitVec.ofNat 8 b, etick := s.clk.tick }
  let s := s.logErr e
  if b ≥ s.params.lbThr && !s.ret.chans.contains ch then
    let s := s.logErr { e with ecls := 4 }
    { s with ret := { s.ret with chans := s.ret.chans ++ [ch], running := s.ret.running ++ [ch] }, arbMode := s.arbMode.recover }
  else s

/-- Effect of a fatal fault (R492 steps 1 and 2): record, and the drain that halts the block. -/
def State.fatal (s : State) (ch : Chan) (stop : Stop) (code : BitVec 8) (wdog : Bool := false) : State :=
  let s := s.logErr { ecls := 5, chk := ch.chk, chn := ch.chn, estop := stop, ecode := code, elix := none, eci := none, erq := none,
                      bkt := BitVec.ofNat 8 ((tGet s.buckets (chanKey ch)).getD 0), etick := s.clk.tick }
  match s.halt with
  | .running => { s with halt := .draining s.clk.tick false wdog false, sched := s.sched ++ [(s.clk.tick + 1, .readyLow)] }
  | _ => s

/-- One violation record in the log of 256, and the instance's denial count (R267, R268). -/
def State.violation (s : State) (v : VRec) : State :=
  let s := if s.vlog.length < 256 then { s with vlog := s.vlog ++ [v] } else { s with vlogLost := s.vlogLost + 1 }
  match v.ci with
  | some c => (s.modInst c fun i => { i with viol := i.viol + 1 }).bumpI c 0x11
  | none => s

/-! ### Time -/

/-- `d` is not later than `now`, modulo 2^48 (R31). -/
def tickReached (now d : Tick) : Bool := (now - d).toNat < 2 ^ 47

/-- The tick at which a timer of `n` ticks started now expires (R32, R563). -/
def State.timer (s : State) (n : Nat) : Tick :=
  (if s.clk.phase = 0 then s.clk.tick else s.clk.tick + 1) + BitVec.ofNat 48 n

/-- One step of the Galois LFSR (R291). -/
def lfsrStep (x : BitVec 32) : BitVec 32 := if x.getLsbD 0 then (x >>> 1) ^^^ 0x80200003 else x >>> 1

/-- A linear map on 32 bits as the images of its unit vectors. -/
def linApply (m : List (BitVec 32)) (x : BitVec 32) : BitVec 32 :=
  (m.foldl (fun (p : Nat × BitVec 32) c => (p.1 + 1, if x.getLsbD p.1 then p.2 ^^^ c else p.2)) (0, 0)).2
def linSq (m : List (BitVec 32)) : List (BitVec 32) := m.map (linApply m)

/-- `n` steps of the LFSR, `n` read from its lowest bit up (`fuel` bits). -/
def lfsrJump : Nat → List (BitVec 32) → Nat → BitVec 32 → BitVec 32
  | 0, _, _, x => x
  | fuel + 1, m, n, x => lfsrJump fuel (linSq m) (n / 2) (if n % 2 = 1 then linApply m x else x)

def lfsrUnit : List (BitVec 32) := (List.range 32).map fun i => lfsrStep (BitVec.ofNat 32 (2 ^ i))

def lfsrAfter (n : Nat) (x : BitVec 32) : BitVec 32 :=
  if n = 0 then x else if n = 1 then lfsrStep x else lfsrJump 52 lfsrUnit n x

/-- `n` core cycles pass for an arbiter's LFSR; a seed that was written stands in the first of them (R291). -/
def Arb.run (a : Arb) (n : Nat) : Arb :=
  match a.seed with
  | some v => { a with lfsr := lfsrAfter (n - 1) v, seed := none }
  | none => { a with lfsr := lfsrAfter n a.lfsr }

def State.stepLfsr (s : State) (n : Nat) : State :=
  { s with arb0 := s.arb0.run n, arb1 := s.arb1.run n, arbB := s.arbB.run n }

def CalEnt.zeroed (l : List (Nat × CalEnt)) (c : Cax) : List (Nat × CalEnt) := tDel l c.toNat

/-- R498: at its phase 0 a flush flags each PLB line held and each `GRELW` not yet admitted. -/
def flagMsg (id : Nat) : Msg → Msg
  | .grelw l d p w g => .grelw l d p w (g ++ [id])
  | m => m
def flagPlb (id : Nat) (p : PlbLine) : PlbLine := if p.posted then { p with gpf := p.gpf ++ [id] } else p

/-- R498: each flush whose flagged lines have all been written is answered, unless a halt or drain holds the answer (R499). -/
def State.gpfCheck (s : State) : State :=
  let open' (id : Nat) : Bool :=
    (s.slices.any fun p => p.2.plb.any fun l => l.gpf.contains id) ||
    (s.mesh.pkts.any fun (p : Pkt) => match p.msg with | .grelw _ _ _ _ g => g.contains id | _ => false) ||
    (s.sched.any fun e => match e.2 with | .gpfFlag i => i == id | _ => false)
  if !s.running then s
  else s.pss.foldl (fun s p =>
    let n : Stn := BitVec.ofNat 3 p.1
    let fin := p.2.gpf.filter fun id => !open' id
    if fin.isEmpty then s
    else
      let s := s.modPs n fun x => { x with gpf := x.gpf.filter open' }
      fin.foldl (fun s _ => s.emit (.gpfDone n)) s) s

/-- Places an effect at phase 0 of the tick `n` ticks on. -/
def State.later (s : State) (n : Nat) (e : Eff) : State :=
  { s with sched := s.sched ++ [(s.clk.tick + BitVec.ofNat 48 n, e)] }

def Clk.succ (c : Clk) : Clk :=
  if c.phase = 15 then { tick := c.tick + 1, phase := 0 } else { tick := c.tick, phase := c.phase + 1 }

/-! ### Rule generations (R270, R271) -/

/-- An access checked under generation `g` of an instance. -/
def State.genInc (s : State) (c : Ci) (g : BitVec 8) : State :=
  s.modInst c fun i => if g.getLsbD 0 then { i with genOdd := i.genOdd + 1 } else { i with genEven := i.genEven + 1 }

/-- An access of generation `g` has completed. -/
def State.genDec (s : State) (c : Ci) (g : BitVec 8) : State :=
  s.modInst c fun i => if g.getLsbD 0 then { i with genOdd := i.genOdd - 1 } else { i with genEven := i.genEven - 1 }

/-! ### Small list helpers -/

def insertAsc (x : Cax) : List Cax → List Cax
  | [] => [x]
  | y :: l => if x = y then y :: l else if x.toNat < y.toNat then x :: y :: l else y :: insertAsc x l

def updWhere {α : Type} (p : α → Bool) (f : α → α) (l : List α) : List α := l.map fun x => if p x then f x else x

/-- A command whose own happening cannot occur in this state changes nothing (log entry 1). -/
def stay (s : State) : Res := .next s

end Sys2Proof.Machine
end

