-- ==== Sys2Proof/Machine/Operands.lean ====
section
/-!
DEFINITION. Where a line lives and how its entries are coded: the hashes of R39 to R42 and R69, sharer fields (R45, R46, R63,
R79), the firn entry and its set (R62, R64), the rotation (R92), and the bit fields of words, descriptors and packets.
-/

namespace Sys2Proof.Machine

open Sys2Proof

/-! ### Placement -/

/-- Logical slice number (R39). -/
def logicalSlice (l : Lix) : Hs :=
  (List.range 10).foldl (fun x k => x ^^^ (l >>> (5 * k)).setWidth 5) 0

def lineTag (l : Lix) : BitVec 32 := (l >>> 14).setWidth 32
/-- The scrambling value of R41. -/
def tagScramble (t : BitVec 32) : BitVec 14 := t.setWidth 14 ^^^ (t >>> 14).setWidth 14 ^^^ (t >>> 28).setWidth 14
def lineSet (l : Lix) : BitVec 14 := l.setWidth 14 ^^^ tagScramble (lineTag l)
/-- The line index recovered from tag and set (R42). -/
def lineOf (t : BitVec 32) (set : BitVec 14) : Lix := t ++ (set ^^^ tagScramble t)

/-- Home slice: the Slice Map entry of the logical slice (R40). -/
def homeOf (m : List Hs) (l : Lix) : Hs := (m[(logicalSlice l).toNat]?).getD 0
def State.home (s : State) (l : Lix) : Hs := homeOf s.smap l

/-- Logical firn set of a line with k = `k` (R69). -/
def firnSet (k : Nat) (l : Lix) : Nat :=
  let j := k - 5
  (logicalSlice l).toNat * 2 ^ j + ((l.toNat % 2 ^ 23) ^^^ (l.toNat / 2 ^ 23)) % 2 ^ j

/-- Physical set index of logical set `fl` (R92). -/
def firnPhys (k start gap fl : Nat) : Nat :=
  let q := (fl + start) % 2 ^ k
  if q < gap then q else q + 1

/-- The line index of line `j` of a logical firn set (R64, R69). -/
def firnLine (i : Inst) (fl j : Nat) : Lix :=
  BitVec.ofNat 46 (i.firnBase.toNat * 2 ^ 14 + 4 * firnPhys i.firnLog2 i.rotStart i.rotGap fl + j)

/-! ### Sharer fields -/

/-- The four slots of the precise form (R45). -/
def slotsOf (shr : BitVec 40) : List Cax :=
  [shr.extractLsb' 0 10, shr.extractLsb' 10 10, shr.extractLsb' 20 10, shr.extractLsb' 30 10]

/-- The distinct holders, in slot order (R45). -/
def preciseHolders (shr : BitVec 40) : List Cax := (slotsOf shr).foldl (fun l c => if l.contains c then l else l ++ [c]) []

/-- The precise form of one to four holders; unused slots copy slot 0 (R45). -/
def preciseOf (l : List Cax) : BitVec 40 :=
  match l with
  | [] => 0
  | a :: r =>
    let b := r.headD a
    let c := (r.drop 1).headD a
    let d := (r.drop 2).headD a
    d ++ c ++ b ++ a

/-- The coarse form of a set of holders (R46). -/
def coarseOf (l : List Cax) : BitVec 40 :=
  l.foldl (fun v c => v ||| (1#40 <<< (c.toNat / 32))) 0

def Dir.inv : Dir := { st := .inv, shr := 0 }
def Dir.psn : Dir := { st := .psn, shr := 0 }
def Dir.bcs : Dir := { st := .bcs, shr := 0 }
def Dir.exo (c : Cax) : Dir := { st := .exo, shr := preciseOf [c] }
/-- A shared entry for holders listed one by one: SHP up to four, else SHC (R48). -/
def Dir.shared (l : List Cax) : Dir :=
  match l with
  | [] => Dir.inv
  | _ => if l.length ≤ 4 then { st := .shp, shr := preciseOf l } else { st := .shc, shr := coarseOf l }

/-- Records a new shared holder (R48). -/
def Dir.add (d : Dir) (c : Cax) : Dir :=
  match d.st with
  | .inv => Dir.shared [c]
  | .psn => Dir.shared [c]
  | .shp => let h := preciseHolders d.shr; Dir.shared (if h.contains c then h else h ++ [c])
  | .shc => { d with shr := d.shr ||| coarseOf [c] }
  | .exo => let h := preciseHolders d.shr; Dir.shared (if h.contains c then h else h ++ [c])
  | .bcs => d

/-- Removes a holder from an SHP or EXO entry (R117 `CLN`, R325). -/
def Dir.drop (d : Dir) (c : Cax) : Dir :=
  match d.st with
  | .shp => Dir.shared ((preciseHolders d.shr).filter (· != c))
  | .exo => if preciseHolders d.shr = [c] then Dir.inv else d
  | _ => d

def Dir.owner (d : Dir) : Option Cax := if d.st = .exo then some (d.shr.extractLsb' 0 10) else none

def Dir.isShared (d : Dir) : Bool := d.st == .shp || d.st == .shc || d.st == .bcs

/-- Whether an entry names an agent as a listed holder. -/
def Dir.names (d : Dir) (c : Cax) : Bool :=
  (d.st == .shp || d.st == .exo) && (preciseHolders d.shr).contains c

/-- The agents that a snoop of the entry goes to: its holders that are BI members of the instance (R47). -/
def Dir.targets (d : Dir) (members : List Cax) : List Cax :=
  match d.st with
  | .shp => (preciseHolders d.shr).filter members.contains
  | .exo => (preciseHolders d.shr).filter members.contains
  | .shc => members.filter fun c => d.shr.getLsbD (c.toNat / 32)
  | .bcs => members
  | _ => []

def SfEnt.dir (e : SfEnt) : Dir := { st := e.st, shr := e.shr }

/-! ### Firn entries (R62, R63, R79) -/

structure FirnEnt where
  st : DSt
  age : Bool
  lix : Lix
  ci : Ci
  shr : BitVec 64
  deriving DecidableEq, Repr

/-- The firn's state codes (R62); a reserved code is none. -/
def firnSt (b : BitVec 3) : Option DSt :=
  if b = 0 then some .inv else if b = 1 then some .shp else if b = 2 then some .shc else if b = 3 then some .exo
  else if b = 6 then some .bcs else none

def FirnEnt.decode (w : BitVec 128) : Option FirnEnt :=
  (firnSt (w.extractLsb' 0 3)).map fun st =>
    { st := st, age := w.getLsbD 3, lix := w.extractLsb' 4 46, ci := w.extractLsb' 50 6, shr := w.extractLsb' 56 64 }

def FirnEnt.data (e : FirnEnt) : BitVec 120 :=
  e.shr ++ e.ci ++ e.lix ++ (if e.age then 1#1 else 0#1) ++ e.st.code

def FirnEnt.encode (e : FirnEnt) : BitVec 128 := Config.firnEcc e.data ++ e.data

def FirnEnt.free : FirnEnt := { st := .inv, age := false, lix := 0, ci := 0, shr := 0 }

/-- Slot `i` (0 to 3) of a firn line (R64). -/
def firnSlot (d : Line) (i : Nat) : BitVec 128 := d.extractLsb' (128 * i) 128
def firnPut (d : Line) (i : Nat) (w : BitVec 128) : Line :=
  (d &&& ~~~((BitVec.allOnes 128).setWidth 512 <<< (128 * i))) ||| (w.setWidth 512 <<< (128 * i))

/-- SF to firn (R79): slots 4 and 5 copy slot 0; each coarse bit doubles. -/
def toFirnShr (d : Dir) : BitVec 64 :=
  match d.st with
  | .shp => let a := d.shr.extractLsb' 0 10; (a ++ a ++ d.shr).setWidth 64
  | .exo => let a := d.shr.extractLsb' 0 10; (a ++ a ++ d.shr).setWidth 64
  | .shc => (List.range 32).foldl (fun v i => if d.shr.getLsbD i then v ||| (3#64 <<< (2 * i)) else v) 0
  | _ => 0

def firnHolders (shr : BitVec 64) : List Cax :=
  ((List.range 6).map fun i => shr.extractLsb' (10 * i) 10).foldl (fun l c => if l.contains c then l else l ++ [c]) []

/-- Firn to SF (R79). -/
def FirnEnt.dir (e : FirnEnt) : Dir :=
  match e.st with
  | .shp => Dir.shared (firnHolders e.shr)
  | .exo => Dir.exo (e.shr.extractLsb' 0 10)
  | .shc => { st := .shc, shr := (List.range 32).foldl (fun v i =>
      if e.shr.getLsbD (2 * i) || e.shr.getLsbD (2 * i + 1) then v ||| (1#40 <<< i) else v) 0 }
  | .bcs => Dir.bcs
  | _ => Dir.inv

def FirnEnt.ofDir (l : Lix) (c : Ci) (d : Dir) (age : Bool) : FirnEnt :=
  { st := d.st, age := age, lix := l, ci := c, shr := toFirnShr d }

/-! ### Rime values (R80) -/

def Rime.code : Rime → BitVec 2
  | .clear => 0
  | .tracked => 1
  | .poison => 2
  | .unknown => 3
def Rime.ofCode (b : BitVec 2) : Rime :=
  if b = 0 then .clear else if b = 1 then .tracked else if b = 2 then .poison else .unknown

/-! ### Status codes (R466) -/

def Status.code : Status → BitVec 8
  | .done => 0x00
  | .inProgress => 0x01
  | .unknownOp => 0x02
  | .malformed => 0x03
  | .badState => 0x04
  | .noResource => 0x05
  | .duplicate => 0x06
  | .overlap => 0x07
  | .timeout => 0x08
  | .pwrFault => 0x09
  | .twinMismatch => 0x0A
  | .authFail => 0x0B
  | .badFormat => 0x0C
  | .crcErr => 0x0D
  | .notFound => 0x0E
  | .unsupported => 0x20
  | .instOffline => 0x23
  | .agentOffline => 0x24
  | .cmpFail => 0x40
  | .poisoned => 0x41
  | .denied => 0x42
  | .aborted => 0x43
  | .engDisabled => 0x44
  | .engineFault => 0x45

def ISt.code : ISt → Nat
  | .free => 0
  | .idle => 1
  | .active => 2
  | .draining => 3
  | .aborting => 4
  | .quiesced => 5
  | .clearing => 6

def BState.code : BState → Nat
  | .cold => 0
  | .romWait => 1
  | .loading => 2
  | .verify => 3
  | .starting => 4
  | .ready => 5

def AMode.code : AMode → Nat
  | .start => 0
  | .service => 1
  | .test => 2
  | .recovery => 3

def DomSt.code : DomSt → Nat
  | .off => 0
  | .freezing => 1
  | .thawing => 2
  | .on => 3

def AClass.code : AClass → Nat
  | .bi => 0
  | .lease => 1
  | .io => 2

def LSt.code : LSt → Nat
  | .offline => 0
  | .up => 1
  | .down => 2
  | .held => 3

def RKind.code : RKind → Nat
  | .coh => 0
  | .lease => 1
  | .unc => 2

def TRole.code : TRole → Nat
  | .none => 0
  | .primary => 1
  | .mirror => 2

/-! ### Line bytes -/

/-- The 512-bit mask of a byte mask. -/
def maskBits (m : Mask) : Line :=
  (List.range 64).foldl (fun v b => if m.getLsbD b then v ||| (0xFF#512 <<< (8 * b)) else v) 0

/-- Bytes under the mask from `new`, the others from `old` (R121, R193). -/
def mergeLine (old new : Line) (m : Mask) : Line := (old &&& ~~~maskBits m) ||| (new &&& maskBits m)

/-- The little-endian value of `n` bytes at byte `o` (R193). -/
def lineGet (d : Line) (o n : Nat) : Nat := (d.toNat / 2 ^ (8 * o)) % 2 ^ (8 * n)
def linePut (d : Line) (o n v : Nat) : Line :=
  let m : Line := BitVec.ofNat 512 ((2 ^ (8 * n) - 1) * 2 ^ (8 * o))
  (d &&& ~~~m) ||| BitVec.ofNat 512 ((v % 2 ^ (8 * n)) * 2 ^ (8 * o))

/-! ### Descriptor slots (R191, R192) -/

def dSlotK (d : Line) : BitVec 4 := d.extractLsb' 0 4
def dNops (d : Line) : Nat := (d.extractLsb' 4 4).toNat
def dNslot (d : Line) : Nat := (d.extractLsb' 16 8).toNat

/-! ### CRC-32 of R459 (IEEE 802.3: reflected polynomial, initial and final inversion) -/

def crcStep (c : BitVec 32) (byte : BitVec 8) : BitVec 32 :=
  (List.range 8).foldl (fun c _ => if c.getLsbD 0 then (c >>> 1) ^^^ 0xEDB88320 else c >>> 1) (c ^^^ byte.setWidth 32)

/-- Over `n` bytes, byte 0 first. -/
def crcOf (byte : Nat → BitVec 8) (n : Nat) : BitVec 32 :=
  ~~~((List.range n).foldl (fun c i => crcStep c (byte i)) (BitVec.allOnes 32))

def crcPar (w : BitVec 512) : BitVec 32 := crcOf (fun i => w.extractLsb' (128 + 8 * i) 8) 48

/-! ### Page and line ranges of regions (R260) -/

def Region.lo (r : Region) : Nat := r.base.toNat * 64
def Region.hi (r : Region) : Nat := r.limit.toNat * 64 + 63
def Region.holds (r : Region) (l : Lix) : Bool := decide (r.lo ≤ l.toNat) && decide (l.toNat ≤ r.hi)

def Region.decode (w : BitVec 128) : Region :=
  { base := w.extractLsb' 0 40, limit := w.extractLsb' 40 40,
    kind := if w.extractLsb' 81 2 = 0 then .coh else if w.extractLsb' 81 2 = 1 then .lease else .unc,
    rd := w.getLsbD 83, wr := w.getLsbD 84, at' := w.getLsbD 85, gr := w.getLsbD 86, amask := w.extractLsb' 88 16,
    lhrq := w.extractLsb' 104 12, lhv := w.getLsbD 116 }

def b2n (b : Bool) (i : Nat) : Nat := if b then 2 ^ i else 0

def Region.encode (r : Region) : Nat :=
  r.base.toNat + r.limit.toNat * 2 ^ 40 + 2 ^ 80 + r.kind.code * 2 ^ 81 + b2n r.rd 83 + b2n r.wr 84 + b2n r.at' 85 +
    b2n r.gr 86 + r.amask.toNat * 2 ^ 88 + r.lhrq.toNat * 2 ^ 104 + b2n r.lhv 116

/-- The valid regions of an instance that contain a line, with their indices. -/
def Inst.regionsAt (i : Inst) (l : Lix) : List (Nat × Region) := i.regions.filter fun p => p.2.holds l

end Sys2Proof.Machine
end

