-- ==== Sys2Proof/Machine/Dir.lean ====
section
/-!
DEFINITION. The three tiers of the directory at a home slice (R43 to R98): finding, writing and allocating entries, eviction,
firn accesses, rime changes, poisoning; with the records that a twin's Primary sends of them (R396).
-/

namespace Sys2Proof.Machine

open Sys2Proof

/-! ### Twin records and trace events that a change of the directory makes -/

/-- A mirror record of the unit at a stop (R395, R396): the header, the body's bits, the line; its `RSEQ` is the instance's. It
crosses the mesh to TW on VN4 (log entry 70). Nothing leaves while the link is down (R411). -/
def State.twinRec (s : State) (src : Stop) (c : Ci) (kind : Nat) (lix : Lix) (body : Nat) (line : Option Line := none) : State :=
  let i := s.inst c
  let w := BitVec.ofNat 256 (kind + c.toNat * 2 ^ 4 + i.rseq.toNat * 2 ^ 10 + (i.pep.toNat % 256) * 2 ^ 26 + lix.toNat * 2 ^ 40 + body)
  let s := s.setInst c { i with rseq := i.rseq + 1 }
  if s.tw.linkUp && s.works 83 then s.send src twStop .mgt true (.twin w line) else s

/-- A Primary with a Mirror, which sends it records. -/
def Inst.twin (i : Inst) : Bool := i.role == .primary && !i.alone

/-- `MDIR` (R396). -/
def State.mdir (s : State) (n : Hs) (c : Ci) (lix : Lix) (e : SfEnt) : State :=
  if (s.inst c).twin then
    s.twinRec (hsStop n) c 1 lix (e.st.code.toNat * 2 ^ 86 + e.shr.toNat * 2 ^ 89 + b2n e.f 129 + e.age.toNat * 2 ^ 130)
  else s

/-- The `DIRUPD` record of R433. -/
def State.tapDir (s : State) (n : Hs) (lix : Lix) (old : DSt) (e : SfEnt) (vb : Bool) : State :=
  s.tap { kind := 2, stop := hsStop n, at' := s.clk, ci := some e.ci, lix := some lix,
          body := BitVec.ofNat 128 (lix.toNat + old.code.toNat * 2 ^ 46 + e.st.code.toNat * 2 ^ 49 + e.shr.toNat * 2 ^ 52 +
            b2n e.f 92 + b2n vb 93) } none

/-- The `CHURN` record of R433; `lix`: the line of a record that names one. -/
def State.tapChurn (s : State) (n : Hs) (ev v : Nat) (ci : Option Ci) (lix : Option Lix := none) : State :=
  s.tap { kind := 4, stop := hsStop n, at' := s.clk, ci := ci, lix := lix, body := BitVec.ofNat 128 (ev + v * 16) } none

/-! ### Finding an entry (R58) -/

def wayKey (set : BitVec 14) (w : Nat) : Nat := set.toNat * 16 + w

/-- The occupied ways of a set, lowest first. -/
def Slice.ways (x : Slice) (set : BitVec 14) : List (Nat × SfEnt) :=
  x.sf.filter fun p => p.1 / 16 == set.toNat

/-- Where an entry stands: `inVb` with the buffer's index, else the way's key. -/
structure Loc where
  inVb : Bool
  k : Nat
  deriving DecidableEq, Repr

def vbIdx (vb : List VbEnt) (lix : Lix) : Option Nat :=
  vb.findIdx? fun v => v.set == lineSet lix && v.ent.tag == lineTag lix

/-- The line's entry in its set or in the victim buffer. -/
def Slice.find (x : Slice) (lix : Lix) : Option (Loc × SfEnt) :=
  match (x.ways (lineSet lix)).find? fun p => p.2.tag == lineTag lix with
  | some (k, e) => some ({ inVb := false, k := k }, e)
  | none =>
    match vbIdx x.vb lix with
    | some i => (x.vb[i]?).map fun v => ({ inVb := true, k := i }, v.ent)
    | none => none

def VbEnt.pending (v : VbEnt) : Bool := v.fdel || v.fwr || v.rclr || v.rtrk || v.calve

/-- Whether a victim-buffer entry leaves: departing with every step done (R74), or recaptured and empty. -/
def VbEnt.leaves (v : VbEnt) : Bool := !v.pending && (v.dep || (v.ent.st == .inv && !v.ent.f))

/-- Removes the entries that leave; for a twin, `MDIR` removes an entry whose spill is done (R399). -/
def State.vbSweep (s : State) (n : Hs) : State :=
  let gone := (s.slice n).vb.filter VbEnt.leaves
  let s := s.modSlice n fun x => { x with vb := x.vb.filter fun v => !v.leaves }
  gone.foldl (fun s v =>
    if v.dep then s.mdir n v.ent.ci (lineOf v.ent.tag v.set) { v.ent with st := .inv, shr := 0, f := false } else s) s

/-- Writes the directory part of an entry where it stands; an empty one is freed (R51). -/
def State.dirWrite (s : State) (n : Hs) (l : Loc) (lix : Lix) (old e : SfEnt) : State :=
  let changed := old.st != e.st || old.shr != e.shr || old.f != e.f
  let s :=
    if l.inVb then s.modSlice n fun x => { x with vb := x.vb.modify l.k fun v => { v with ent := e } }
    else s.modSlice n fun x =>
      { x with sf := if e.st = .inv && !e.f then tDel x.sf l.k else tPut x.sf l.k e }
  let s := if changed then (s.mdir n e.ci lix e).tapDir n lix old.st e l.inVb else s
  let s := if e.st = .psn && old.st != .psn then (s.bump (hsCtr n 16)).bumpI e.ci 0x0B else s
  if l.inVb then s.vbSweep n else s

/-- A request matches a departing entry and recaptures it (R61). -/
def recapture (v : VbEnt) : VbEnt :=
  if v.calve then { v with dep := false }
  else { v with dep := false, ent := { v.ent with f := v.ent.f || v.fwr }, rclr := false }

/-- A request has found an entry: `AGE` 00 (R53), and a departing one is recaptured (R61). -/
def State.touch (s : State) (n : Hs) (l : Loc) : State :=
  s.modSlice n fun x =>
    if l.inVb then { x with vb := x.vb.modify l.k fun v => { recapture v with ent := { (recapture v).ent with age := 0 } } }
    else match tGet x.sf l.k with
      | some e => { x with sf := tPut x.sf l.k { e with age := 0 } }
      | none => x

/-! ### Memory commands -/

def msOf (m : Mpid) : Stn := m.setWidth 3

/-- The memory port that holds a line, for work that carries no header (R25). -/
def State.portOf (s : State) (l : Lix) : Mpid :=
  match s.ports.find? fun p => p.2.pv && decide (p.2.base.toNat * 2 ^ 14 ≤ l.toNat) &&
      decide (l.toNat < p.2.base.toNat * 2 ^ 14 + p.2.size.toNat * 2 ^ 14) with
  | some p => BitVec.ofNat 8 p.1
  | none => 0

/-- Work for a Rime Table line of the station's own (R68). -/
def MCmd.own (c : MCmd) : Bool := match c.src with | .ms => true | _ => false

def mkCmd (n : Hs) (k : MKind) (m : Mpid) (l : Lix) (p : Purp) : MCmd :=
  { kind := k, mpid := m, lix := l, dst := none, rgen := false, rime := none, wpsn := false, data := 0, aop := .fetchAdd,
    aofs := 0, alen := 0, opA := 0, opB := 0, reiss := false, src := .hs n, purp := p, rtpsn := false }

/-- Whether the Primary's lease of an instance has lapsed (R405). -/
def State.lapsed (s : State) (c : Ci) : Bool := (s.inst c).lapsed

/-- A packet of an instance: held while its lease has lapsed (R405). -/
def State.sendC (s : State) (c : Ci) (src dst : Stop) (v : VNet) (ord : Bool) (m : Msg) : State :=
  if s.lapsed c then
    { s with tw := { s.tw with gated := s.tw.gated ++ [(c, Pkt.new src dst v ord m)] } }
  else s.send src dst v ord m

/-- An ordered VN2 message about a line to a port station: held while the slice awaits that station's `FMACK` for the line's set
(R379 step 6). `gate`: the instance whose lease gates it (R405). -/
def State.sendPs (s : State) (n : Hs) (gate : Option Ci) (lix : Lix) (p : Stn) (m : Msg) : State :=
  let moving (h : Hs) : Bool := match s.fold with | some f => homeOf f.oldMap lix == h | none => false
  if (s.slice n).noAck.any fun a => a.2.1 == lineSet lix && a.2.2 == p && moving a.1 then
    s.modSlice n fun x => { x with waitAck := x.waitAck ++ [(lineSet lix, p, gate, m)] }
  else match gate with
    | some c => s.sendC c (hsStop n) (psStop p) .rsp true m
    | none => s.send (hsStop n) (psStop p) .rsp true m

/-- Issues a slice's memory command (R25, R111, R113). A `MEMWR` makes the reads already issued for its line stale (R115). -/
def State.memCmd (s : State) (n : Hs) (ci : Ci) (c : MCmd) : State :=
  let s := if c.kind = .memwr then
      s.modSlice n fun x => { x with trk := updWhere (fun t => t.req.lix == c.lix && (t.rdOut || t.rdHave)) (fun t => { t with stale := true }) x.trk }
    else s
  s.sendC ci (hsStop n) (msStop (msOf c.mpid)) .req true (.mcmd c)

/-! ### Instances as a slice sees them -/

/-- An instance has a firn in use (R70, R410). -/
def Inst.hasFirn (i : Inst) : Bool := i.firnLog2 != 0 && !i.twr

/-- Entries of an instance that its slices hold in a set. -/
def Slice.waysOf (x : Slice) (set : BitVec 14) (c : Ci) : Nat := ((x.ways set).filter fun p => p.2.ci == c).length

/-- The retired ways of a slice (R485). -/
def State.wayRetired (s : State) (n : Hs) (w : Nat) : Bool :=
  s.ret.chans.contains { chk := 1, chn := BitVec.ofNat 12 (16 * n.toNat + w) }

def State.waysLeft (s : State) (n : Hs) : Nat := ((List.range 16).filter fun w => !s.wayRetired n w).length

/-- Ways that an instance may hold in a set of the slice (R54, R485). -/
def State.sfqOf (s : State) (n : Hs) (c : Ci) : Nat := min (s.inst c).sfq (s.waysLeft n)

/-- An entry is pinned while its line has a request in its chain (R56). -/
def Slice.pinned (x : Slice) (lix : Lix) : Bool := x.trk.any fun t => t.chain && t.req.lix == lix

def SfEnt.lix (e : SfEnt) (set : BitVec 14) : Lix := lineOf e.tag set

/-- Tombstones count as AGE 11 (R52). -/
def SfEnt.rank (e : SfEnt) : BitVec 2 := if e.st = .inv then 3 else e.age

/-- Whether any instance has a twin role (R392). -/
def State.twinAny (s : State) : Bool := s.insts.any fun p => p.2.role != .none

/-- Room in the victim buffer for an entry of instance `c` (R57, R392). -/
def State.vbRoom (s : State) (n : Hs) (c : Ci) : Bool :=
  let vb := (s.slice n).vb
  let own := (s.inst c).role
  let cap := if s.twinAny && own != .mirror then 96 else 128
  decide (vb.length < cap) &&
    (own != .primary || decide ((vb.filter fun v => (s.inst v.ent.ci).role == .primary).length < 32))

/-! ### Firn accesses (R158) -/

/-- The source of a moving logical slice while a fold runs, when this slice is its destination: for a set of an instance's firn, whose
upper five bits are the logical slice (R69, R382). -/
def State.agencyOf (s : State) (n : Hs) (ci : Ci) (fl : Nat) : Option Hs :=
  match s.fold with
  | some f =>
    let ls := fl / 2 ^ ((s.inst ci).firnLog2 - 5)
    let src := (f.oldMap[ls]?).getD 0
    if f.started && (f.newMap[ls]?).getD 0 == n && src != n then some src else none
  | none => none

/-- The 16 agency credits of a destination (R382). -/
def Slice.agencyFree (x : Slice) : Bool := decide ((x.facc.filter fun a => a.agency).length < 16)

/-- Sends the reads of an access that has become the one outstanding of its set; over a fold's agency it waits for a credit. -/
def State.issueAcc (s : State) (n : Hs) (a : FAcc) : State :=
  let i := s.inst a.ci
  match a.kind with
  | .agency dest acc =>
    let s := ((List.range 4).foldl (fun s j => s.memCmd n a.ci (mkCmd n .memrd i.firnMpid (firnLine i a.fl j) (.firnRd a.id j))) s)
    let _ := (dest, acc)
    (s.bump (hsCtr n 8)).bumpI a.ci 0x07
  | _ =>
    match s.agencyOf n a.ci a.fl with
    | some src =>
      if !(s.slice n).agencyFree then s else
      let s := s.modSlice n fun x => { x with facc := updWhere (fun b => b.id == a.id) (fun b => { b with agency := true }) x.facc }
      s.send (hsStop n) (hsStop src) .req false (.agReq n src a.id a.ci a.fl .read)
    | none =>
      let s := (List.range 4).foldl (fun s j => s.memCmd n a.ci (mkCmd n .memrd i.firnMpid (firnLine i a.fl j) (.firnRd a.id j))) s
      (s.bump (hsCtr n 8)).bumpI a.ci 0x07

/-- Starts or queues an access to a firn set. -/
def State.addAcc (s : State) (n : Hs) (ci : Ci) (fl : Nat) (lix : Lix) (k : FKind) : State :=
  let x := s.slice n
  let a : FAcc := { id := x.seq, ci := ci, fl := fl, lix := lix, kind := k, got := [], writing := false, agency := false,
                    wleft := 0, dirty := [] }
  let busy := x.facc.any fun b => b.ci == ci && b.fl == fl
  let s := s.setSlice n { x with facc := x.facc ++ [a], seq := x.seq + 1 }
  if busy then s else s.issueAcc n a

/-- The set of a line in its instance's firn (R69). -/
def State.firnOf (s : State) (ci : Ci) (lix : Lix) : Nat := firnSet (s.inst ci).firnLog2 lix

def State.accLine (s : State) (n : Hs) (ci : Ci) (lix : Lix) (k : FKind) : State := s.addAcc n ci (s.firnOf ci lix) lix k

/-- An access over a fold's agency that stands first at its set and has no credit yet (R382). -/
def State.agencyWaits (s : State) (n : Hs) (b : FAcc) : Bool :=
  !b.agency && b.got.isEmpty && (s.agencyOf n b.ci b.fl).isSome &&
    ((s.slice n).facc.find? fun c => c.ci == b.ci && c.fl == b.fl).any fun c => c.id == b.id

/-- Ends an access; the next of its set begins. Over the fold's agency, the source is told, and the oldest access that waits for the
credit takes it (R382). -/
def State.closeAcc (s : State) (n : Hs) (id : Nat) : State :=
  match (s.slice n).facc.find? fun a => a.id == id with
  | none => s
  | some a =>
    let s := if a.agency then
        match s.agencyOf n a.ci a.fl with
        | some src => s.send (hsStop n) (hsStop src) .req false (.agReq n src a.id a.ci a.fl .done)
        | none => s
      else s
    let s := s.modSlice n fun x => { x with facc := x.facc.filter fun b => b.id != id }
    let next := (s.slice n).facc.find? fun b => b.ci == a.ci && b.fl == a.fl
    match (if a.agency then ((s.slice n).facc.find? (s.agencyWaits n)).or next else next) with
    | some b => s.issueAcc n b
    | none => s

/-- Counts a firn line write, and R94's share of it; a move's writes are not counted. -/
def State.countFirn (s : State) (n : Hs) (a : FAcc) : State :=
  let i := s.inst a.ci
  let s := (s.bump (hsCtr n 9)).bumpI a.ci 0x09
  let s := if i.rotWrites = 0 then s else
    s.modInst a.ci fun i =>
      if i.rotCnt + 1 < i.rotWrites then { i with rotCnt := i.rotCnt + 1 }
      else if i.rotPend < 15 then { i with rotCnt := 0, rotPend := i.rotPend + 1 } else { i with rotCnt := 0 }
  if i.rotWrites != 0 && i.rotCnt + 1 ≥ i.rotWrites && i.rotPend ≥ 15 then s.bumpI a.ci 0x10 else s

/-- Writes line `j` of the set of an access; the access waits for its completion. Over the fold's agency the source makes the write,
and counts it. -/
def State.firnWrite (s : State) (n : Hs) (a : FAcc) (j : Nat) (d : Line) : State :=
  let i := s.inst a.ci
  let s := s.modSlice n fun x =>
    { x with facc := updWhere (fun b => b.id == a.id) (fun b => { b with writing := true, wleft := b.wleft + 1, dirty := b.dirty.filter (· != j) }) x.facc }
  if a.agency then
    match s.agencyOf n a.ci a.fl with
    | some src => s.send (hsStop n) (hsStop src) .req false (.agReq n src a.id a.ci a.fl (.write j d))
    | none => s
  else
    (s.countFirn n a).memCmd n a.ci { mkCmd n .memwr i.firnMpid (firnLine i a.fl j) (.firnWr a.id) with data := d, rime := some .clear }

/-! ### Rime changes (R75, R83) -/

def State.issueRime (s : State) (n : Hs) (r : RimeChg) (ci : Ci) : State :=
  match r.cmd with
  | some c => s.memCmd n ci c
  | none => s.memCmd n ci { mkCmd n .mdupd r.mpid r.lix (.rime r.tag) with rime := some r.val }

/-- Issues a rime change, or queues it behind the line's one outstanding (R75). -/
def State.addRime (s : State) (n : Hs) (ci : Ci) (lix : Lix) (mpid : Mpid) (v : Rime) (why : RKindU) (cmd : Option MCmd := none) : State :=
  let x := s.slice n
  let r : RimeChg := { tag := x.seq, lix := lix, mpid := mpid, val := v, why := why, cmd := cmd }
  let busy := x.rimeQ.any fun q => q.lix == lix
  let s := s.setSlice n { x with rimeQ := x.rimeQ ++ [r], seq := x.seq + 1 }
  if busy then s else s.issueRime n r ci

/-- The line's outstanding rime change has completed: the next one is issued. -/
def State.popRime (s : State) (n : Hs) (ci : Ci) (lix : Lix) : State :=
  let q := (s.slice n).rimeQ
  match q.findIdx? fun r => r.lix == lix with
  | none => s
  | some i =>
    let s := s.modSlice n fun x => { x with rimeQ := q.eraseIdx i }
    match (s.slice n).rimeQ.find? fun r => r.lix == lix with
    | some r => s.issueRime n r ci
    | none => s

/-! ### Internal requests (R102, R78) -/

/-- Internal entries free: 32, of which a fold reserves 8 at each destination (R378 step 2). -/
def State.internalFree (s : State) (n : Hs) : Bool :=
  let used := ((s.slice n).trk.filter fun t => t.resv == .internal).length
  let cap := match s.fold with
    | some f => if f.started && (f.newMap.zip f.oldMap).any fun p => p.1 == n && p.2 != n then 24 else 32
    | none => 32
  decide (used < cap)

def Req.internal (c : Cls) (ci : Ci) (kind : RKind) (lix : Lix) (mpid : Mpid) : Req :=
  { src := .internal, rqid := 0, cax := none, ci := ci, cls := c, kind := kind, mval := .i, lix := lix, ofs := 0, blen := 63,
    dst := none, mpid := mpid, pcnt := 1, pix := 0, lp := 0, sess := 0, gen := 0, smep := false, wbc := 0, wbg := false,
    rwr := false, tries := 0, mid := 0, aop := .fetchAdd, opA := 0, opB := 0, data := 0, fwd := false, itk := 0, urg := 0 }

def Trk.new (id : Nat) (resv : Resv) (chain : Bool) (r : Req) (now : Tick) : Trk :=
  { id := id, resv := resv, req := r, chain := chain, active := false, ph := .chain, known := false, dir := Dir.inv, snps := [],
    rdOut := false, rdHave := false, rgen := false, stale := false, rime := none, dpsn := false, snooped := false, bc := false, bcS := false,
    wrime := none, hadE := false, grant := .i, data := r.data, mask := 0, pulled := false, lk := none, rel := false, job := none,
    rseq := none, finst := none, res := none, cpl := none, adm := now, mdird := false }

/-- A new entry at the tail of the tracker, and of its line's chain (R107). -/
def State.addTrk (s : State) (n : Hs) (resv : Resv) (chain : Bool) (r : Req) (f : Trk → Trk := id) : State :=
  let x := s.slice n
  s.setSlice n { x with trk := x.trk ++ [f (Trk.new x.seq resv chain r s.clk.tick)], seq := x.seq + 1 }

/-- An internal request joins its line's chain. -/
def State.addJob (s : State) (n : Hs) (r : Req) (j : IJob) : State :=
  s.addTrk n .internal true r fun t => { t with job := some j }

/-- A calving recall (R77, R78), counted. -/
def State.calve (s : State) (n : Hs) (lix : Lix) (ci : Ci) (d : Option Dir) (acc : Option (Hs × Nat)) : State :=
  let s := (s.bump (hsCtr n 11)).bumpI ci 0x0A
  s.addJob n (Req.internal .calve ci .coh lix (s.portOf lix))
    { firn := d, cax := none, rb := .none, vb := d.isNone, acc := acc, op := 0, step := 0 }

/-! ### Eviction (R74) and allocation (R52) -/

/-- Evicts the entry of a way; none while it has to wait for the victim buffer or an internal entry (R60, R78). -/
def State.evict (s : State) (n : Hs) (k : Nat) (e : SfEnt) : Option State :=
  let set : BitVec 14 := BitVec.ofNat 14 (k / 16)
  let lix := e.lix set
  let drop := s.modSlice n fun x => { x with sf := tDel x.sf k }
  let dep (s : State) (f : VbEnt → VbEnt) : State :=
    s.modSlice n fun x => { x with vb := x.vb ++ [f { set := set, ent := e, dep := true, fdel := false, fwr := false, rclr := false,
                                                      rtrk := false, calve := false }] }
  let s := drop
  if e.st = .psn && !e.f then some (s.mdir n e.ci lix { e with st := .inv, shr := 0 })
  else if !s.vbRoom n e.ci then none
  else if e.st = .psn then some ((dep s fun v => { v with fdel := true }).accLine n e.ci lix .depart)
  else if e.st = .inv then some ((dep s fun v => { v with fdel := true, rclr := true }).accLine n e.ci lix .depart)
  else if (s.inst e.ci).hasFirn then
    let s := (s.bump (hsCtr n 10)).bumpI e.ci 0x08
    if e.f then some ((dep s fun v => { v with fwr := true }).accLine n e.ci lix (.spill e.dir))
    else
      let s := dep s fun v => { v with fwr := true, rtrk := true }
      some ((s.addRime n e.ci lix (s.portOf lix) .tracked .vbTracked).accLine n e.ci lix (.spill e.dir))
  else if s.internalFree n then some ((dep s fun v => { v with calve := true }).calve n lix e.ci none none)
  else none

/-- Ways of the set that twin instances other than `c` have reserved and do not use (R392). -/
def State.twinOwed (s : State) (n : Hs) (set : BitVec 14) (c : Ci) : Nat :=
  (s.insts.map fun p =>
    let d : Ci := BitVec.ofNat 6 p.1
    if p.2.role = .none || d = c then 0 else s.sfqOf n d - (s.slice n).waysOf set d).sum

/-- Whether instance `c` may evict an entry (R54, R392). -/
def State.mayEvict (s : State) (n : Hs) (set : BitVec 14) (c : Ci) (own : Bool) (e : SfEnt) : Bool :=
  e.ci == c || (!own && ((s.inst e.ci).role == .none || decide ((s.slice n).waysOf set e.ci > s.sfqOf n e.ci)))

/-- The way with the highest rank, the lowest of equals (R52 step 2). -/
def bestWay : List (Nat × SfEnt) → Option (Nat × SfEnt)
  | [] => none
  | p :: l =>
    match bestWay l with
    | none => some p
    | some q => if q.2.rank.toNat > p.2.rank.toNat then some q else some p

/-- R52 steps 1 to 3: the way that an entry of a line takes. None: every way is pinned; none within: the eviction waits. -/
def State.toWay (s : State) (n : Hs) (set : BitVec 14) (e : SfEnt) : Option (Option State) :=
  let x := s.slice n
  let occ := x.ways set
  let atQ := decide (x.waysOf set e.ci ≥ s.sfqOf n e.ci)
  let free := (List.range 16).filter fun w => !s.wayRetired n w && !occ.any fun p => p.1 == wayKey set w
  let put (s : State) (k : Nat) : State := s.modSlice n fun x => { x with sf := tPut x.sf k e }
  match (if atQ || decide (free.length ≤ s.twinOwed n set e.ci) then none else free.head?) with
  | some w => some (some (put s (wayKey set w)))
  | none =>
    let cand := occ.filter fun p => !s.wayRetired n (p.1 % 16) && !x.pinned (p.2.lix set) && s.mayEvict n set e.ci atQ p.2
    match bestWay cand with
    | some (k, v) =>
      let up : BitVec 2 := 3 - v.rank
      let raise (p : Nat × SfEnt) : Nat × SfEnt :=
        if cand.contains p && p.2.st != .inv then (p.1, { p.2 with age := p.2.age + up }) else p
      let s1 := if up = 0 then s else s.modSlice n fun x => { x with sf := x.sf.map raise }
      some ((s1.evict n k (raise (k, v)).2).map fun s2 => put s2 k)
    | none => none

/-- Places a new entry for a line by R52: a way, or the victim buffer; none while it has to wait (R60). -/
def State.allocate (s : State) (n : Hs) (lix : Lix) (e : SfEnt) : Option State :=
  let set := lineSet lix
  match s.toWay n set e with
  | some (some s) => some ((s.mdir n e.ci lix e).tapDir n lix .inv e false)
  | some none => none
  | none =>
    if s.vbRoom n e.ci then
      let v : VbEnt := { set := set, ent := e, dep := false, fdel := false, fwr := false, rclr := false, rtrk := false, calve := false }
      let s := s.modSlice n fun x => { x with vb := x.vb ++ [v] }
      some (((s.bump (hsCtr n 12)).mdir n e.ci lix e).tapDir n lix .inv e true)
    else none

/-- The directory state that an entry gives: a tombstone reads INV (R118). -/
def SfEnt.live (e : SfEnt) : Dir := if e.st = .inv then Dir.inv else e.dir

def SfEnt.fresh (lix : Lix) (ci : Ci) (d : Dir) (f : Bool) : SfEnt :=
  { st := d.st, tag := lineTag lix, ci := ci, shr := d.shr, age := 2, f := f, fixed := false }

/-- The data bits of an SF entry (R43), and the 96-bit word with its check bits. -/
def SfEnt.bits (e : SfEnt) : BitVec 88 :=
  BitVec.ofNat 88 (e.st.code.toNat + e.tag.toNat * 2 ^ 3 + e.ci.toNat * 2 ^ 35 + e.shr.toNat * 2 ^ 41 + e.age.toNat * 2 ^ 81 + b2n e.f 83)
def SfEnt.word (e : SfEnt) : BitVec 96 := Config.sfEcc e.bits ++ e.bits

/-! ### Errors of the SF (R97, R98, R482) -/

/-- Every set counts as suspect: the list is full, or ticks of marks beyond it are still kept (R489, R490). -/
def Slice.overflowed (x : Slice) : Bool := decide (x.susp.length ≥ 16) || !x.suspOver.isEmpty

/-- The set counts as suspect (R489). -/
def Slice.suspect (x : Slice) (set : BitVec 14) : Bool := x.overflowed || x.susp.any fun p => p.1 == set

/-- The tick that a suspect set is marked with: the latest kept beyond the list, else its own, else the list's latest (log entry 61). -/
def Slice.suspTick (x : Slice) (set : BitVec 14) : Option Tick :=
  if !x.suspect set then none
  else x.suspOver.getLast?.or (((x.susp.find? fun p => p.1 == set).map fun p => p.2).or (x.susp.getLast?.map fun p => p.2))

/-- Marks a set suspect; beyond a full list only the tick is kept (R489). -/
def Slice.markSet (x : Slice) (set : BitVec 14) (t : Tick) : Slice :=
  if x.overflowed then { x with suspOver := x.suspOver ++ [t] }
  else if x.susp.any fun p => p.1 == set then { x with susp := updWhere (fun p => p.1 == set) (fun _ => (set, t)) x.susp }
  else { x with susp := x.susp ++ [(set, t)] }

/-- What the check of one way of a set finds when the set is read: nothing; a corrected word, written back; one that cannot be used
(uncorrectable, or a reserved encoding: R11), rebuilt where a tracker entry refers to it, else freed and its set marked. -/
def State.checkWay (s : State) (n : Hs) (set : BitVec 14) (w : Nat) (err : EccErr) : State :=
  let k := wayKey set w
  let e := tGet (s.slice n).sf k
  let ch : Chan := { chk := 1, chn := BitVec.ofNat 12 (16 * n.toNat + w) }
  let ci := e.map fun x => x.ci
  let lost (code : BitVec 8) : State :=
    let s := ((s.bump (hsCtr n 19)).tapChurn n 5 set.toNat ci).faultEv 3 ch (hsStop n) code none ci
    let s := match ci with
      | some c => if (s.inst c).role == TRole.mirror then s.modInst c fun i => { i with exact := false } else s
      | none => s
    match e with
    | some x =>
      let lix := x.lix set
      if (s.slice n).pinned lix then
        let s := s.dirWrite n { inVb := false, k := k } lix x { x with st := .bcs, shr := 0, f := false }
        s.addRime n x.ci lix (s.portOf lix) (if (s.inst x.ci).hasFirn then .tracked else .clear) .plain
      else s.modSlice n fun y => ({ y with sf := tDel y.sf k } : Slice).markSet set s.clk.tick
    | none => s.modSlice n fun y => y.markSet set s.clk.tick
  match err with
  | .ok => match e with
    | some x => if x.fixed then s.modSlice n fun y => { y with sf := tPut y.sf k { x with fixed := false } } else s
    | none => s
  | .corrected =>
    let s := (s.bump (hsCtr n 17)).tapChurn n 1 set.toNat ci
    match e with
    | some x =>
      let s := if x.fixed then s.faultEv 2 ch (hsStop n) 2 (some (x.lix set)) ci else s
      s.modSlice n fun y => { y with sf := tPut y.sf k { x with fixed := true } }
    | none => s
  | .uncorrectable => lost 1
  | .reserved => lost 6

/-- The check of a whole set. -/
def State.checkSet (s : State) (n : Hs) (set : BitVec 14) (errs : List (Nat × EccErr)) : State :=
  (List.range 16).foldl (fun s w => s.checkWay n set w ((tGet errs w).getD .ok)) s

/-! ### Poison (R82) -/

/-- The poisoning of a line without an entry has to look into its firn set first (R82). -/
def State.firnPoison (s : State) (n : Hs) (ci : Ci) (kind : RKind) (lix : Lix) (clear : Bool) : Bool :=
  ((s.slice n).find lix).isNone && kind == .coh && !clear && (s.inst ci).hasFirn

/-- Poisons a line: entry PSN, firn entry deleted, rime POISON, in the order of R82. `clear`: the rime bits read CLEAR. `fin`: the
tracker entry that goes on once POISON stands in memory, so that no request becomes active on the line before. -/
def State.poisonLine (s : State) (n : Hs) (ci : Ci) (kind : RKind) (lix : Lix) (mpid : Mpid) (clear : Bool) (fin : Option Nat) : State :=
  let s := match fin with
    | some t => s.modSlice n fun x => { x with trk := updWhere (fun y => y.id == t) (fun y => { y with ph := .poison }) x.trk }
    | none => s
  match (s.slice n).find lix with
  | some (l, e) =>
    let s := if l.inVb then s.modSlice n fun x => { x with vb := x.vb.modify l.k recapture } else s
    let f := e.f || (l.inVb && (((s.slice n).vb[l.k]?).map fun v => v.ent.f).getD false)
    let s := s.dirWrite n l lix { e with f := f } { e with st := .psn, shr := 0, f := f }
    if f then s.accLine n ci lix (.psnDel fin) else s.addRime n ci lix mpid .poison (.poison fin)
  | none =>
    if kind = .coh && !clear && (s.inst ci).hasFirn then s.accLine n ci lix (.psnNone mpid fin)
    else s.addRime n ci lix mpid .poison (.poison fin)

end Sys2Proof.Machine
end

