-- ==== Sys2Proof/Machine/Engine.lean ====
section
/-!
DEFINITION. The transaction engines (R169 to R217): descriptors and their checks, groups from their first lock to their status
record, AtomicOps, fences, abandonment, and the records that a twin's Primary sends for them (R400 to R402).
-/

namespace Sys2Proof.Machine

open Sys2Proof

/-! ### Queues of an instance -/

/-- The queue block that an engine serves: Q0 by TE0, Q1 by TE1. -/
def Inst.gq (i : Inst) (e : Bool) : GQueue := if e then i.q1 else i.q0
def Inst.setGq (i : Inst) (e : Bool) (q : GQueue) : Inst := if e then { i with q1 := q } else { i with q0 := q }
def State.modGq (s : State) (c : Ci) (e : Bool) (f : GQueue → GQueue) : State := s.modInst c fun i => i.setGq e (f (i.gq e))

/-- Line of a descriptor ring slot (R187) and of a status record (R190). -/
def GQueue.slotLix (q : GQueue) (idx : BitVec 17) : Lix := BitVec.ofNat 46 (q.dqBase.toNat * 64 + idx.toNat % 2 ^ q.dqSize.toNat)
def GQueue.recLix (q : GQueue) (r : BitVec 16) (j : Nat) : Lix :=
  BitVec.ofNat 46 (q.sqBase.toNat * 64 + 2 * (r.toNat % 2 ^ q.sqSize.toNat) + j)

/-- A status record can be reserved (R190). -/
def GQueue.recFree (q : GQueue) : Bool := decide ((q.nextRec - q.scons).toNat < 2 ^ q.sqSize.toNat)

/-- The phase of a record: 1 on the first pass, toggling with each wrap (R210). -/
def GQueue.phOf (q : GQueue) (r : BitVec 16) : Bool := !(r.toNat / 2 ^ q.sqSize.toNat % 2 == 1)

/-- The requester whose doorbell covers a slot (R189). -/
def GQueue.ringer (q : GQueue) (idx : BitVec 17) : Rqid :=
  match q.rungBy.find? fun p => (p.1 - q.cons).toNat > (idx - q.cons).toNat with
  | some p => p.2
  | none => 0

/-! ### Engine bookkeeping -/

def Te.used (t : Te) (h : Hs) : Nat := (tGet t.cred h.toNat).getD 0
def Te.take (t : Te) (h : Hs) : Te := { t with cred := tPut t.cred h.toNat (t.used h + 1) }
def Te.give (t : Te) (h : Hs) : Te := { t with cred := tPut t.cred h.toNat (t.used h - 1) }

/-- Execution contexts in use (R217): started groups until the last line of their record is sent, AtomicOps until their completion. -/
def Te.contexts (t : Te) : Nat := (t.grps.filter fun g => g.st != .copied && g.st != .ph && g.stamped).length + t.runs.length

/-- Descriptors in the descriptor buffer: each copied group without a status record (R217, `NGRP` of `Qn_STAT`; log entry 30). -/
def Te.buffered (t : Te) : Nat := t.grps.length

def State.modGroup (s : State) (e : Bool) (id : Nat) (f : Group → Group) : State :=
  s.modTe e fun t => { t with grps := updWhere (fun g => g.id == id) f t.grps }
def State.modRun (s : State) (e : Bool) (id : Nat) (f : ARun → ARun) : State :=
  s.modTe e fun t => { t with runs := updWhere (fun r => r.id == id) f t.runs }

/-- A UNC access of an engine goes to its line's home (R186). -/
def State.uncSend (s : State) (e : Bool) (c : Cls) (ci : Ci) (lix : Lix) (mpid : Mpid) (data : Line) (mid pix : Nat) : State :=
  let r : Req := { Req.internal c ci .unc lix mpid with src := .te e, data := data, mid := mid, pix := pix, smep := s.smep }
  s.send (teStop e) (hsStop (s.home lix)) .req false (.req r)

/-! ### Status records (R210, R211) -/

/-- The first line of a record. -/
def Group.line1 (g : Group) (hint : Nat) : Line :=
  BitVec.ofNat 512 (b2n g.ph 0 + b2n g.pw 1 + g.status.code.toNat * 2 ^ 8 + g.fop.toNat * 2 ^ 16 + g.fmap.toNat * 2 ^ 24 +
    g.gtag.toNat * 2 ^ 32 + hint * 2 ^ 64 + g.gidx.toNat * 2 ^ 96 + g.tcmt.toNat * 2 ^ 128)

/-- The second line: the original values. -/
def Group.line2 (g : Group) : Line :=
  BitVec.ofNat 512 (g.rets.foldr (fun v n => v.toNat + 2 ^ 64 * n) 0)

/-- A group ends with a status: its `RETi` line is written, the line of `PH` after it. -/
def State.record (s : State) (e : Bool) (id : Nat) (st : Status) : State :=
  match (s.te e).grps.find? fun g => g.id == id with
  | none => s
  | some g =>
    let g := { g with st := .ret, status := st, tcmt := s.clk.tick, locks := [], rets := if st = .done then g.rets else [] }
    let s := s.modGroup e id fun _ => g
    let s := if st = .done then (s.bump (teCtr e 0)).bumpI g.ci 0x0D
      else (s.bump (teCtr e (if st = .aborted || st = .engineFault then 2 else 1))).bumpI g.ci 0x0E
    let q := (s.inst g.ci).gq e
    s.uncSend e .uwr g.ci (q.recLix g.recN 1) q.sqMpid g.line2 id 1

/-! ### Operations (R192, R193, R208) -/

def opWidth (o : GOp) : Nat := if o.wid = 1 then 8 else 4

/-- The operation overwrites its whole line without a comparison (R208). -/
def GOp.whole (o : GOp) : Bool := o.opk == 0 && o.cmask == 0 && o.wmask == BitVec.allOnes 64

def GOp.writes (o : GOp) : Bool := o.opk == 2 || o.opk == 3 || (o.opk == 0 && o.wmask != 0)

/-- What an operation finds on its line. -/
inductive OpRes where
  | pass
  | cmp
  | psn
  deriving DecidableEq, Repr

def GOp.eval (o : GOp) (psn : Bool) (cur : Line) : OpRes :=
  if psn then (if o.whole then .pass else .psn)
  else if o.opk = 2 || o.opk = 3 then .pass
  else if (cur &&& maskBits o.cmask) == (o.cimg &&& maskBits o.cmask) then .pass else .cmp

/-- The line that an operation leaves (R193). -/
def GOp.apply (o : GOp) (cur : Line) : Line :=
  let n := opWidth o
  if o.opk = 2 then linePut cur o.off.toNat n (lineGet cur o.off.toNat n + o.opnd.toNat)
  else if o.opk = 3 then linePut cur o.off.toNat n o.opnd.toNat
  else if o.opk = 0 then mergeLine cur o.wimg o.wmask
  else cur

/-- The original value that the record returns (R210). -/
def GOp.ret (o : GOp) (cur : Line) : BitVec 64 :=
  if o.opk = 2 || o.opk = 3 then BitVec.ofNat 64 (lineGet cur o.off.toNat (opWidth o)) else 0

/-! ### Locks and releases -/

def State.lockMsg (s : State) (e : Bool) (l : LkSt) : State :=
  s.send (teStop e) (hsStop l.hs) .snp false (.lck l.lk)

/-- `GREL` of each lock that has been sent and stands; a credit of an unsent lock returns (R173, R201). -/
def State.relAll (s : State) (e : Bool) (ls : List LkSt) : State :=
  ls.foldl (fun s l =>
    if l.refused then s
    else if l.sent then s.send (teStop e) (hsStop l.hs) .snp false (.grel l.lk)
    else if l.cred then s.modTe e fun t => t.give l.hs
    else s) s

/-- The lock of an operation. -/
def Group.lockOf (g : Group) (e : Bool) (run k : Nat) (o : GOp) (home : Hs) (mpid : Mpid) (kind : RKind) : LkSt :=
  { lk := { te := e, run := run, opi := k, ci := g.ci, lix := o.lix, mpid := mpid, kind := kind, noData := false,
            writes := o.writes, isAop := false, rqid := g.rq },
    hs := home, sent := false, act := false, gnt := false, refused := false, psn := false, plbh := false, data := 0, cred := true }

def insLock (l : LkSt) : List LkSt → List LkSt
  | [] => [l]
  | m :: r => if l.lk.lix.toNat < m.lk.lix.toNat then l :: m :: r else m :: insLock l r

/-! ### Fences (R206, R207) and shared lines (R198) -/

def Group.committed (g : Group) : Bool := g.st == .past || g.st == .ret || g.st == .ph
def Group.allGnt (g : Group) : Bool := g.committed || g.st == .gated || (g.st == .locking && g.locks.all fun l => l.gnt)

/-- The groups of `g`'s queue up to `g` itself, in ring order. -/
def Te.upTo (t : Te) (g : Group) : List Group :=
  let l := t.grps.filter fun h => h.ci == g.ci
  (l.takeWhile fun h => h.id != g.id) ++ [g]

/-- Walks the queue in ring order: `cm` every group so far has reached its commit point, `ag` has all its grants, `sf` every
`STFENCE` so far is satisfied; answers whether the last group may send locks, and whether it may commit. -/
def fenceWalk : List Group → (cm ag sf lock commit : Bool) → Bool × Bool
  | [], _, _, _, lock, commit => (lock, commit)
  | g :: r, cm, ag, sf, lock, commit =>
    let sf := sf && (!g.stf || cm)
    let lock := lock && (!g.fen || cm) && (!g.ldf || (ag && sf))
    let commit := commit && (!g.stf || cm) && (!g.fen || cm)
    fenceWalk r (cm && g.committed) (ag && g.allGnt) sf lock commit

def Te.mayLock (t : Te) (g : Group) : Bool := (fenceWalk (t.upTo g) true true true true true).1
def Te.mayCommit (t : Te) (g : Group) : Bool := (fenceWalk (t.upTo g) true true true true true).2

/-- Every earlier group of the queue that names the line has its lock on it active (R198). -/
def Te.earlierActive (t : Te) (g : Group) (lix : Lix) : Bool :=
  ((t.grps.filter fun h => h.ci == g.ci).takeWhile fun h => h.id != g.id).all fun h =>
    h.committed || !(h.ops.any fun o => o.lix == lix) || (h.locks.any fun l => l.lk.lix == lix && l.act)

/-! ### Twin records of groups and AtomicOps (R398, R400) -/

def gidOf (e : Bool) (id : Nat) : BitVec 16 := BitVec.ofNat 16 (2 * id + (if e then 1 else 0))

/-- The written lines that need a line credit toward the Mirror's store. -/
def State.needCred (s : State) (ls : List (Hs × Lix)) : Nat :=
  (ls.filter fun p => !((s.slice p.1).plb.any fun q => q.lix == p.2 && q.posted)).length

/-- `MGLINE` for each written line, then `MGEND`; answers the `RSEQ` of the latter. -/
def State.mgLines (s : State) (e : Bool) (c : Ci) (gid : BitVec 16) (ls : List (Hs × Lix × Line)) : State × BitVec 16 :=
  let n := s.needCred (ls.map fun p => (p.1, p.2.1))
  let s := { s with tw := { s.tw with credits := s.tw.credits - n } }
  let s := ls.foldl (fun s p => s.twinRec (teStop e) c 4 p.2.1 (gid.toNat * 2 ^ 86) (some p.2.2)) s
  let q := (s.inst c).rseq
  (s.twinRec (teStop e) c 5 0 (gid.toNat * 2 ^ 86 + ls.length * 2 ^ 102), q)

/-! ### Groups -/

/-- The lines that a group writes, with their new contents. -/
def Group.written (g : Group) : List (LkSt × Line × Bool) :=
  g.locks.filterMap fun l =>
    match g.ops[l.lk.opi]? with
    | some o => if o.writes then some (l, o.apply l.data, o.whole) else none
    | none => none

/-- The commit point: every release, then the record (R197 steps 5 and 6, R200). -/
def State.commit (s : State) (e : Bool) (g : Group) : State :=
  let w := g.written
  let s := g.locks.foldl (fun s l =>
    match w.find? fun p => p.1.lk.opi == l.lk.opi with
    | some (_, d, whole) => s.send (teStop e) (hsStop l.hs) .dat false (.grelw l.lk d false whole [])
    | none => s.send (teStop e) (hsStop l.hs) .snp false (.grel l.lk)) s
  let rets := (List.range g.ops.length).map fun k =>
    match g.ops[k]?, g.locks.find? fun l => l.lk.opi == k with
    | some o, some l => o.ret l.data
    | _, _ => 0
  (s.modGroup e g.id fun h => { h with rets := rets }).record e g.id .done

/-- Failure or abandonment before the commit point: every lock released, the record reports the status. -/
def State.failGroup (s : State) (e : Bool) (g : Group) (st : Status) : State :=
  (s.relAll e g.locks).record e g.id st

/-- R197 step 4 with every grant at hand. A result is recorded whether or not a fence delays the commit point. -/
def State.evaluate (s : State) (e : Bool) (g : Group) : State :=
  let rs := (List.range g.ops.length).map fun k =>
    match g.ops[k]?, g.locks.find? fun l => l.lk.opi == k with
    | some o, some l => o.eval l.psn l.data
    | _, _ => .pass
  match rs.findIdx? fun r => r != .pass with
  | some k =>
    let fmap : BitVec 8 := (List.range rs.length).foldl (fun m i => if rs[i]? == some OpRes.cmp then m ||| (1#8 <<< i) else m) 0
    let g := { g with fop := BitVec.ofNat 4 k, fmap := fmap }
    let s := s.modGroup e g.id fun _ => g
    s.failGroup e g (if rs.contains .psn then .poisoned else .cmpFail)
  | none =>
    if !(s.te e).mayCommit g then s
    else
      let w := g.written
      if (s.inst g.ci).twin && !w.isEmpty then
        if s.tw.credits < s.needCred (w.map fun p => (p.1.hs, p.1.lk.lix)) then s
        else
          let (s, q) := s.mgLines e g.ci (gidOf e g.id) (w.map fun p => (p.1.hs, p.1.lk.lix, p.2.1))
          s.modGroup e g.id fun h => { h with st := .gated, mir := some q }
      else s.commit e g

/-- The first lock not yet sent, if every lower one is active (R197 step 1, R146). -/
def nextLock : List LkSt → Option LkSt
  | [] => none
  | l :: r => if !l.sent then some l else if l.act then nextLock r else none

/-- Moves one started group on. -/
def State.goGroup (s : State) (e : Bool) (g : Group) : State :=
  if g.st != .locking then s
  else
    let t := s.te e
    if g.locks.all fun l => l.gnt then s.evaluate e g
    else match nextLock g.locks with
      | none => s
      | some l =>
        if !t.mayLock g || !t.earlierActive g l.lk.lix || !(l.cred || t.used l.hs < 32) then s
        else
          let s := if l.cred then s else s.modTe e fun t => t.take l.hs
          let set (h : Group) : Group :=
            { h with locks := updWhere (fun m => m.lk.opi == l.lk.opi) (fun m => { m with sent := true, cred := true }) h.locks }
          (s.modGroup e g.id set).lockMsg e l

/-! ### AtomicOps -/

/-- The completion of an AtomicOp and the end of its count (R178, R271). -/
def State.aopEnd (s : State) (e : Bool) (r : Req) (st : Status) (psn : Bool) (data : Line) : State :=
  let p : Stn := match r.src with | .ps p => p | _ => 0
  let ok := st = .done
  let c : Cpl :=
    { ps := p, lp := r.lp, rqid := r.rqid, sess := r.sess, mid := r.mid, lix := r.lix, dst := r.dst,
      ord := if ok then .dpush else .dfree, rgen := false, psn := psn, grant := .i, status := st, data := data, wbc := none,
      bicAck := false, hs := none }
  (s.sendC r.ci (teStop e) (psStop p) (if ok then .dat else .rsp) false (.cpl c)).genDec r.ci r.gen

/-- The new line, if the operation writes, and the original value in the low bytes (R178, R505). -/
def aopCompute (r : Req) (cur : Line) : Option Line × Line :=
  let n := r.blen.toNat + 1
  let o := r.ofs.toNat
  let v := lineGet cur o n
  let orig : Line := BitVec.ofNat 512 v
  match r.aop with
  | .fetchAdd => (some (linePut cur o n (v + r.opA.toNat)), orig)
  | .swap => (some (linePut cur o n r.opA.toNat), orig)
  | .cas => (if v = r.opA.toNat % 2 ^ (8 * n) then some (linePut cur o n r.opB.toNat) else none, orig)

def State.dropRun (s : State) (e : Bool) (id : Nat) : State :=
  s.modTe e fun t => { t with runs := t.runs.filter fun r => r.id != id }

/-- The commit of an AtomicOp at its home (R178 steps 3 and 4). -/
def State.aopCommit (s : State) (e : Bool) (u : ARun) (new : Option Line) (orig : Line) : State :=
  let s := match new with
    | some d => s.send (teStop e) (hsStop u.lk.hs) .dat false (.grelw u.lk.lk d false false [])
    | none => s.send (teStop e) (hsStop u.lk.hs) .snp false (.grel u.lk.lk)
  let s := (s.bump (teCtr e 3)).bumpI u.req.ci 0x0F
  (s.dropRun e u.id).aopEnd e u.req .done false orig

/-- Moves one started AtomicOp on: its lock is sent (again), or its result is computed and committed (R178, R179, R401). -/
def State.goRun (s : State) (e : Bool) (u : ARun) : State :=
  let l := u.lk
  if !l.sent then
    if !(l.cred || (s.te e).used l.hs < 32) then s
    else
      let s := if l.cred then s else s.modTe e fun t => t.take l.hs
      (s.modRun e u.id fun r => { r with lk := { r.lk with sent := true, cred := true } }).lockMsg e l
  else if !l.gnt || u.nma || u.gate.isSome then s
  else if l.psn then
    let s := ((s.relAll e [l]).bump (teCtr e 3)).bumpI u.req.ci 0x0F
    (s.dropRun e u.id).aopEnd e u.req .done true l.data
  else
    let (new, orig) := aopCompute u.req l.data
    match new with
    | some d =>
      if (s.inst u.req.ci).twin then
        if s.tw.credits < s.needCred [(l.hs, l.lk.lix)] then s
        else
          let (s, q) := s.mgLines e u.req.ci (gidOf e u.id) [(l.hs, l.lk.lix, d)]
          s.modRun e u.id fun r => { r with gate := some (q, d, orig) }
      else s.aopCommit e u new orig
    | none => s.aopCommit e u none orig

/-- Moves every group of an engine on, in ring order, and every AtomicOp, until nothing more can be done in this step. -/
def State.teRound (s : State) (e : Bool) : State :=
  let s := (s.te e).grps.foldl (fun s g => match (s.te e).grps.find? fun h => h.id == g.id with
    | some h => s.goGroup e h
    | none => s) s
  (s.te e).runs.foldl (fun s u => match (s.te e).runs.find? fun v => v.id == u.id with
    | some v => s.goRun e v
    | none => s) s

def State.tePump (s : State) (e : Bool) : State := if s.running then (((s.teRound e).teRound e).teRound e) else s

/-! ### Abandonment (R202, R213, R214, R299, R306) -/

/-- A preempted group: its locks are released, and it starts again when its queue next wins (R213). -/
def State.preempt (s : State) (e : Bool) (c : Ci) : State :=
  (s.te e).grps.foldl (fun s g =>
    if g.ci == c && g.st == .locking then
      let s := ((s.relAll e g.locks).bump (teCtr e 2)).bumpI g.ci 0x0E
      let id := (s.te e).nextId
      let s := s.modTe e fun t => { t with nextId := id + 1 }
      s.modGroup e g.id fun h => { h with id := id, st := .copied, locks := [] }
    else s) s

/-- Ends every group of a queue that has not been started, with a status. -/
def State.endCopied (s : State) (e : Bool) (pick : Ci → Bool) (st : Status) : State :=
  (s.te e).grps.foldl (fun s g => if pick g.ci && g.st == .copied then s.record e g.id st else s) s

/-- An abort of an instance: its groups before their commit point, its AtomicOps before their computation. -/
def State.abortTe (s : State) (e : Bool) (c : Ci) : State :=
  let s := (s.te e).grps.foldl (fun s g =>
    if g.ci == c && (g.st == .locking || g.st == .copied) then s.failGroup e g .aborted else s) s
  let mine := (s.te e).aopq.filter fun r => r.ci == c
  let s := s.modTe e fun t => { t with aopq := t.aopq.filter fun r => r.ci != c }
  let s := mine.foldl (fun s r => s.aopEnd e r .aborted false 0) s
  (s.te e).runs.foldl (fun s u =>
    if u.req.ci == c && u.gate.isNone && !(u.nma && u.lk.gnt) then
      ((s.relAll e [u.lk]).dropRun e u.id).aopEnd e u.req .aborted false 0
    else s) s

/-! ### Descriptors (R190, R191, R194, R562) -/

/-- The header can be trusted for the descriptor's length (R562). -/
def headOk (d : Line) : Bool :=
  dSlotK d == 1 && decide (1 ≤ dNops d) && decide (dNops d ≤ 8) && decide (1 + dNops d ≤ dNslot d) && decide (dNslot d ≤ 1 + 3 * dNops d)

/-- The reserved bits of a header are zero. -/
def headClean (d : Line) : Bool := d.extractLsb' 11 5 == 0 && d.extractLsb' 24 8 == 0 && d.extractLsb' 64 448 == 0

def opOf (d cimg wimg : Line) : GOp :=
  { opk := d.extractLsb' 4 4, wid := d.extractLsb' 8 2, off := d.extractLsb' 10 6, lix := d.extractLsb' 64 46,
    cmask := d.extractLsb' 128 64, wmask := d.extractLsb' 192 64, opnd := d.extractLsb' 256 64, cimg := cimg, wimg := wimg }

/-- Data slots that an op slot requires (R193). -/
def dataSlots (d : Line) : Nat :=
  let k := d.extractLsb' 4 4
  if k = 0 then (if d.extractLsb' 128 64 = 0 then 0 else 1) + (if d.extractLsb' 192 64 = 0 then 0 else 1)
  else if k = 1 then 1 else 0

/-- R194 for one op slot. A kind without a width takes no `OPND`: any set bit lies beyond its width. DESIGN CHOICE (log entry 78). -/
def opSlotOk (d : Line) : Bool :=
  let k := d.extractLsb' 4 4
  let wid := d.extractLsb' 8 2
  let off := d.extractLsb' 10 6
  let cm := d.extractLsb' 128 64
  let wm := d.extractLsb' 192 64
  let op := d.extractLsb' 256 64
  let n := if wid = 1 then 8 else 4
  dSlotK d == 2 && d.extractLsb' 16 48 == 0 && d.extractLsb' 110 18 == 0 && d.extractLsb' 320 192 == 0 &&
  (if k = 0 then !(cm == 0 && wm == 0) && wid == 0 && off == 0 && op == 0
   else if k = 1 then cm != 0 && wid == 0 && off == 0 && op == 0
   else if k = 2 || k = 3 then (wid == 0 || wid == 1) && off.toNat % n == 0 && cm == 0 && wm == 0 && (wid == 1 || op.toNat < 2 ^ 32)
   else false)

/-- The operations of a descriptor's slots after its header; none where R194 refuses them. -/
def parseOps : Nat → List Line → Option (List GOp)
  | 0, [] => some []
  | 0, _ :: _ => none
  | _ + 1, [] => none
  | n + 1, d :: r =>
    if !opSlotOk d then none
    else
      let k := dataSlots d
      if r.length < k then none
      else
        let c := d.extractLsb' 128 64 != 0
        let img (i : Nat) : Line := r.getD i 0
        let o := opOf d (if c then img 0 else 0) (if c then img 1 else img 0)
        (parseOps n (r.drop k)).map fun l => o :: l

/-- No two operations name one line. -/
def distinctLines : List GOp → Bool
  | [] => true
  | o :: r => !(r.any fun p => p.lix == o.lix) && distinctLines r

def parseDesc (l : List Line) : Option (List GOp) :=
  match l with
  | [] => none
  | h :: r =>
    if !headOk h || !headClean h || dNslot h != l.length then none
    else match parseOps (dNops h) r with
      | some os => if distinctLines os then some os else none
      | none => none

/-- A whole descriptor is at hand: it becomes a group; a refused one writes its record at once (R194). `cut`: an abort takes it in
although a doorbell has yet to cover all of it (R285, log entry 58). -/
def State.takeDesc (s : State) (e : Bool) (c : Copy) (cut : Bool) : State :=
  let q := (s.inst c.ci).gq e
  let l := (List.range c.len).map fun k => (tGet c.slots k).getD 0
  let h := l.headD 0
  let ops := if c.bad then none else parseDesc l
  let id := (s.te e).nextId
  let g : Group :=
    { id := id, ci := c.ci, gidx := BitVec.ofNat 16 (c.base.toNat % 2 ^ q.dqSize.toNat), recN := c.recN, ph := q.phOf c.recN,
      rq := q.ringer (c.base + BitVec.ofNat 17 (c.len - 1)), gtag := h.extractLsb' 32 32, ldf := h.getLsbD 8, stf := h.getLsbD 9, fen := h.getLsbD 10,
      ops := ops.getD [], gen := 0, stamped := false, st := .copied, locks := [], status := .done, fop := 15, fmap := 0,
      pw := false, tcmt := 0, rets := [], mir := none, drop := false }
  let s := (s.modTe e fun t => { t with grps := t.grps ++ [g], nextId := id + 1, copies := t.copies.filter fun x => x.ci != c.ci }).bump (teCtr e 5)
  let cons := c.base + BitVec.ofNat 17 c.len
  let s := s.modGq c.ci e fun q =>
    { q with cons := cons, rungBy := q.rungBy.filter fun p => (p.1 - c.base).toNat > c.len }
  match ops, cut with
  | none, false => s.record e id .malformed
  | _, _ =>
    let i := s.inst c.ci
    if cut || i.st = .aborting then s.record e id .aborted
    else if !(s.arb (Eng.ofTe e)).en then s.record e id .engDisabled
    else s

/-- Slots up to PACC that the engine may copy from the header on (R562). -/
def GQueue.ahead (q : GQueue) : Nat := (q.pacc - q.cons).toNat

/-- Every slot that a copy may ask for has arrived, and the descriptor goes on past PACC: it waits for a doorbell (R562). -/
def Copy.waits (c : Copy) (q : GQueue) : Bool := c.slots.length == c.asked && c.asked == q.ahead && decide (q.ahead < c.len)

/-- An abort takes in each copy of an instance that waits for a doorbell, with the slots up to PACC (R283, R285; log entry 58). -/
def State.cutCopies (s : State) (e : Bool) (ci : Ci) : State :=
  let q := (s.inst ci).gq e
  ((s.te e).copies.filter fun c => c.ci == ci && c.waits q).foldl (fun s c => s.takeDesc e { c with len := q.ahead } true) s

end Sys2Proof.Machine
end

