-- ==== Sys2Proof/Machine/Slice.lean ====
section
/-!
DEFINITION. A request in a home slice from its activation to its completion: snoops and hold windows (R122 to R133), the
decision table (R117, R170), reads (R114, R115), writes and merges (R120, R121, R234, R235), locks (R169 to R174), internal
requests (R77, R253, R274, R325, R98, R490), completions gated by a twin (R403), and the conflict chains (R107, R108).
-/

namespace Sys2Proof.Machine

open Sys2Proof

/-! ### Tracker entries -/

def State.trk (s : State) (n : Hs) (t : Nat) : Option Trk := (s.slice n).trk.find? fun x => x.id == t

def State.modTrk (s : State) (n : Hs) (t : Nat) (f : Trk → Trk) : State :=
  s.modSlice n fun x => { x with trk := updWhere (fun y => y.id == t) f x.trk }

def State.setPh (s : State) (n : Hs) (t : Nat) (p : Ph) : State := s.modTrk n t fun x => { x with ph := p }

/-- A line of a bulk step has ended (R147). -/
def Be.lineDone (b : Be) (op step : Nat) : Be :=
  let f (o : BulkOp) : BulkOp :=
    if o.id = op then { o with outst := o.outst.map fun st => if st.pos = step then { st with busy := false } else st } else o
  { b with ops := b.ops.map f, sweeps := b.sweeps.map f }

/-- Frees a tracker entry: a lock's credit returns (R145), a bulk step learns of its line's end (R147), a forwarded
writeback's source that its entry is freed (R380). -/
def State.endTrk (s : State) (n : Hs) (t : Nat) : State :=
  match s.trk n t with
  | none => s
  | some x =>
    let s := s.modSlice n fun y => { y with trk := y.trk.filter fun z => z.id != t }
    let s := if x.req.fwd && x.resv == .internal then
        match s.fold with
        | some f => s.send (hsStop n) (hsStop (homeOf f.oldMap x.req.lix)) .rsp false (.fwdFreed (homeOf f.oldMap x.req.lix) n x.req)
        | none => s
      else s
    let s := match x.lk with
      | some l => s.modTe l.te fun e => { e with cred := tPut e.cred n.toNat ((tGet e.cred n.toNat).getD 0 - 1) }
      | none => s
    match x.job with
    | some j => if x.req.cls = .calve then s else { s with be := s.be.lineDone j.op j.step }
    | none => s

/-- The class belongs to a read batch (R108). -/
def Cls.batch : Cls → Bool
  | .rdS | .rdD | .rdI | .skim | .lrd | .urd => true
  | _ => false

/-- A read of R114. -/
def Cls.isRead : Cls → Bool
  | .rdS | .rdD | .rdA | .rdI | .skim | .lrd | .urd => true
  | _ => false

def Cls.uncached : Cls → Bool
  | .lrd | .lwr | .lwrp | .urd | .uwr | .uwrp => true
  | _ => false

def Cls.isMerge : Cls → Bool
  | .wrp | .iowrp | .lwrp | .uwrp => true
  | _ => false

def Cls.fullWrite : Cls → Bool
  | .wb | .wr | .iowr | .lwr | .uwr | .zfill => true
  | _ => false

/-- A request that needs exclusive ownership (R85). -/
def Cls.excl : Cls → Bool
  | .rdA | .invA | .invI | .wr | .wrp | .iowr | .iowrp | .lck | .lckn | .zfill | .rebuild => true
  | _ => false

/-! ### Hold windows (R126 to R129, R427) -/

/-- The calibrated mean of an agent in ticks (R423). -/
def Slice.mean (x : Slice) (c : Cax) : Option Nat := (tGet x.cal c.toNat).map fun e => e.mean / 16

/-- A window is in force for the line and agent (R126), unless an abort sets windows aside (R129, R286). -/
def State.holdOn (s : State) (n : Hs) (ci : Ci) (lix : Lix) (c : Cax) : Bool :=
  !(s.inst ci).abortQ && (s.slice n).hold.any fun h => h.lix == lix && h.cax == c

/-- Sends one snoop and starts its timeout (R125, R131). -/
def State.snoopOut (s : State) (n : Hs) (t : Nat) (ci : Ci) (lix : Lix) (o : SnpOut) : State :=
  let len := match (s.slice n).mean o.cax with
    | some m => max s.params.biMin (min (4 * m + 8) s.params.biMax)
    | none => s.params.biMax
  let o' := { o with sent := true, inj := s.clk, deadline := s.timer len }
  let s := s.modTrk n t fun x => { x with snps := updWhere (fun p => p.cax == o.cax) (fun _ => o') x.snps }
  match s.caxAgent o.cax with
  | some (_, a) =>
    ((s.sendC ci (hsStop n) (psStop (a.lport.extractLsb' 7 3)) .snp false
      (.snp { hs := n, t := t, att := o.att, cax := o.cax, ci := ci, form := o.form, lix := lix })).bump (hsCtr n 2)).bumpI ci 0x03
  | none => s

/-- Sends each snoop that no window holds back any longer. -/
def State.flushHeld (s : State) (n : Hs) : State :=
  (s.slice n).trk.foldl (fun s x =>
    x.snps.foldl (fun s o => if o.sent || s.holdOn n x.req.ci x.req.lix o.cax then s else s.snoopOut n x.id x.req.ci x.req.lix o) s) s

/-- Starts the window of a grant of E (R126, R128, R427). Of equal earliest expiries the first in the list, the oldest window, goes.
DESIGN CHOICE (log entry 72). -/
def State.startHold (s : State) (n : Hs) (ci : Ci) (lix : Lix) (c : Cax) : State :=
  let i := s.inst ci
  let w := if i.holdAuto then min 255 (i.holdWin + (((s.slice n).mean c).getD 0 + 1) / 2) else i.holdWin
  if i.holdWin = 0 then s
  else
    let h : HoldEnt := { lix := lix, cax := c, expiry := s.timer w }
    let l := (s.slice n).hold.filter fun y => !(y.lix == lix && y.cax == c)
    let s := (s.bump (hsCtr n 7)).bumpI ci 0x05
    let s := if i.twin && s.tw.plev ≥ 2 then s.twinRec (hsStop n) ci 7 lix (c.toNat * 2 ^ 86 + min w 255 * 2 ^ 96) else s
    if l.length < 128 then s.modSlice n fun x => { x with hold := l ++ [h] }
    else
      let first := l.foldl (fun (b : Option HoldEnt) y => match b with
        | none => some y
        | some z => if tickReached z.expiry y.expiry && y.expiry != z.expiry then some y else some z) none
      let s := s.modSlice n fun x => { x with hold := (match first with | some z => l.erase z | none => l) ++ [h] }
      (s.bump (hsCtr n 6)).flushHeld n

/-! ### Completions and their gate (R403, R405) -/

/-- `MACK` covers record `q` of the instance. -/
def Inst.covered (i : Inst) (q : BitVec 16) : Bool := decide ((i.acked - q - 1).toNat < 2 ^ 15)

/-- Whether a request of instance `ci` may be completed or granted now. -/
def State.gateOpen (s : State) (ci : Ci) (q : Option (BitVec 16)) (mdird : Bool) : Bool :=
  let i := s.inst ci
  !i.lapsed && (!i.twin || ((match q with | some r => i.covered r | none => true) &&
    (i.strict || !mdird || decide ((i.rseq - i.acked).toNat < 4096))))

def Trk.mkCpl (x : Trk) (n : Hs) (ord : DOrd) (g : MVal) (st : Status) : Cpl :=
  { ps := (match x.req.src with | .ps p => p | _ => 0), lp := x.req.lp, rqid := x.req.rqid, sess := x.req.sess, mid := x.req.mid,
    lix := x.req.lix, dst := x.req.dst, ord := ord, rgen := x.rgen, psn := false, grant := g, status := st, data := 0, wbc := none,
    bicAck := false, hs := some n }

/-- Sends a completion and frees the entry; a grant of E to an agent that did not hold the line exclusive starts a hold
window (R126). A transaction engine's UNC access gets its data or `Cmp` (R186). -/
def State.emitCpl (s : State) (n : Hs) (t : Nat) (c : Cpl) : State :=
  match s.trk n t with
  | none => s
  | some x =>
    let s := match x.req.src with
      | .ps p => s.sendPs n (some x.req.ci) x.req.lix p (.cpl c)
      | .te e => s.sendC x.req.ci (hsStop n) (teStop e) (if x.req.cls = Cls.urd then VNet.dat else VNet.rsp) false (.unc e x.req c.psn c.data)
      | .internal => s
    let s := match c.grant, x.hadE, x.req.cax with
      | .a, false, some cx => s.startHold n x.req.ci x.req.lix cx
      | _, _, _ => s
    s.endTrk n t

/-- Completes a request now, or once its gate opens. -/
def State.complete (s : State) (n : Hs) (t : Nat) (c : Cpl) : State :=
  match s.trk n t with
  | none => s
  | some x =>
    if s.gateOpen x.req.ci x.rseq x.mdird then s.emitCpl n t c
    else s.modTrk n t fun y => { y with ph := .gate, cpl := some c }

/-- A standalone data-steering order (R20); each `DDROP` is counted (R440). -/
def State.order (s : State) (n : Hs) (x : Trk) (o : DOrd) : State :=
  match x.req.src, x.req.dst with
  | .ps p, some d =>
    (if o = .ddrop then s.bump (hsCtr n 15) else s).sendPs n (some x.req.ci) x.req.lix p (.dord p x.req.lp d o x.rgen x.req.rqid x.req.sess)
  | _, _ => s

def Cls.akind : Cls → BitVec 4
  | .mw | .wb | .wr | .iowr | .lwr | .uwr => 1
  | .wrp | .iowrp | .lwrp | .uwrp => 2
  | .invA | .invI => 6
  | .aop | .lckn => 3
  | .lck => 4
  | .cln => Config.noticeAkind false
  | .bic => Config.noticeAkind true
  | _ => 0

/-- R73: an entry of another instance; the request is refused as a region violation, the entry is left unchanged. The fault is
contained and recorded (R477; its code is free, log entry 34). -/
def State.refuse73 (s : State) (n : Hs) (t : Nat) : State :=
  match s.trk n t with
  | none => s
  | some x =>
    let k : BitVec 4 := match x.lk with
      | some l => if l.isAop then 3 else 4
      | none => x.req.cls.akind
    let s := s.violation { lix := x.req.lix, akind := k, rqid := x.req.rqid, ci := some x.req.ci, ridx := none, cause := 7, tick := s.clk.tick }
    let s := s.logBare (hsStop n) Config.crossCode x.req.lix (some x.req.ci) x.req.rqid
    match x.lk with
    | some l => (s.send (hsStop n) (teStop l.te) .rsp false (.lrefuse l n)).endTrk n t
    | none =>
      match x.req.src with
      | .ps _ => s.complete n t { x.mkCpl n .dfree .i .denied with wbc := if x.resv = .writeback then some x.req.wbc else none }
      | _ => s.complete n t (x.mkCpl n .none .i .denied)

/-! ### The line's state and the next state -/

/-- The directory part as it stands: the owner's answer, the entry, or the state found. -/
def State.curDir (s : State) (n : Hs) (x : Trk) : Dir :=
  match x.res with
  | some d => d
  | none =>
    match (s.slice n).find x.req.lix with
    | some (_, e) => e.live
    | none => x.dir

/-- Snoops of R117 and R170 for a class against a state: agents and form, before membership is looked at. -/
def Cls.snoops (c : Cls) (d : Dir) (r : Option Cax) (members : List Cax) : List Cax × SForm :=
  let h' := (d.targets members).filter fun x => r != some x
  match c with
  | .rdS | .rdD => (if d.st = .exo then h' else [], .snpData)
  | .rdI | .skim => (if d.st = .exo then h' else [], .snpCur)
  | .rdA | .invA | .invI | .wr | .wrp | .iowr | .iowrp | .lck | .lckn | .zfill | .calve | .rcl => (h', .snpInv)
  | _ => ([], .snpInv)

/-- "Per x" (R117). -/
def perX (m : MVal) (r : Option Cax) : Dir :=
  match m, r with
  | .s, some c => Dir.shared [c]
  | .a, some c => Dir.exo c
  | _, _ => Dir.inv

/-- The next state of R117 and R170: `found` is the state the request found, `cur` the entry after the answers. -/
def Cls.next (c : Cls) (m : MVal) (r : Option Cax) (found cur : Dir) : Dir :=
  let psn := found.st = .psn
  match c, r with
  | .rdS, some x => if psn then Dir.psn else cur.add x
  | .rdD, some x => if psn then Dir.psn else if found.st = .inv then Dir.exo x else cur.add x
  | .rdA, some x => if psn then Dir.psn else Dir.exo x
  | .invA, some x => if psn then Dir.psn else Dir.exo x
  | .invI, _ => if psn then Dir.psn else Dir.inv
  | .wr, _ => perX m r
  | .wrp, _ => if psn then Dir.psn else perX m r
  | .iowr, _ => Dir.inv
  | .zfill, _ => Dir.inv
  | .iowrp, _ => if psn then Dir.psn else Dir.inv
  | .lck, _ => if psn then Dir.psn else Dir.inv
  | .lckn, _ => if psn then Dir.psn else Dir.inv
  | _, _ => cur

/-- The state granted by a completion (R117, R561). -/
def Cls.grant (c : Cls) (m : MVal) (found : Dir) : MVal :=
  if found.st = .psn && c != .wr then .i
  else match c with
    | .rdS => .s
    | .rdD => if found.st = .inv then .a else .s
    | .rdA => .a
    | .invA => .a
    | .wb => m
    | .wr => m
    | .wrp => m
    | _ => .i

/-- Writes the state of a line on behalf of a request (R110, R118); none while a new entry has to wait (R60). -/
def State.setDir (s : State) (n : Hs) (t : Nat) (ci : Ci) (lix : Lix) (d : Dir) : Option State :=
  let i := s.inst ci
  let mark (changed : Bool) (s' : State) : State :=
    if changed && i.twin then
      s'.modTrk n t fun x => { x with mdird := true, rseq := if i.strict then some ((s'.inst ci).rseq - 1) else x.rseq }
    else s'
  match (s.slice n).find lix with
  | some (l, e) =>
    some (mark (e.st != d.st || e.shr != d.shr) (s.dirWrite n l lix e { e with st := d.st, shr := d.shr }))
  | none =>
    if d.st = .inv || d.st = .psn then some s
    else (s.allocate n lix (SfEnt.fresh lix ci d false)).map (mark true)

/-! ### Reads -/

/-- `MEMRD` for a request, with its DST or towards the slice (R111, R112). -/
def State.readCmd (s : State) (n : Hs) (t : Nat) (withDst : Bool) : State :=
  match s.trk n t with
  | none => s
  | some x =>
    let s := s.modTrk n t fun y => { y with rdOut := true, rdHave := false, stale := false }
    s.memCmd n x.req.ci { mkCmd n .memrd x.req.mpid x.req.lix (.trkRd t) with dst := if withDst then x.req.dst else none, rgen := x.rgen }

def State.posted (s : State) (n : Hs) (lix : Lix) : Option PlbLine := (s.slice n).plb.find? fun p => p.lix == lix && p.posted

/-- A write that has its place before request `t` still awaits its `DPULL` data: what comes after it in the line's order waits
(R218, R219; log entry 73). -/
def State.pullAhead (s : State) (n : Hs) (lix : Lix) (t : Nat) : Bool :=
  (s.slice n).trk.any fun y => y.req.lix == lix && y.ph == .pull && y.id != t

/-- R115: the data of a read is released, discarded and read again, or sent from the PLB. -/
def State.checkData (s : State) (n : Hs) (t : Nat) : State :=
  match s.trk n t with
  | none => s
  | some x =>
    if x.ph != .data || !x.rdHave || s.pullAhead n x.req.lix t then s
    else
      let psn := x.dir.st = .psn || x.rime = some .poison || x.dpsn
      let c := x.mkCpl n .drel (x.req.cls.grant x.req.mval x.dir) .done
      match s.posted n x.req.lix with
      | some p =>
        let s := s.order n x .ddrop
        s.complete n t { c with ord := .dpush, psn := p.psn || psn, data := p.data }
      | none =>
        if x.stale then
          let s := s.order n x .ddrop
          let s := s.modTrk n t fun y => { y with rgen := !y.rgen, dpsn := false }
          s.readCmd n t (x.req.dst.isSome)
        else s.complete n t { c with psn := psn, data := x.data }

/-! ### Posted lines (R233 to R236) -/

def State.plbCount (s : State) (n : Hs) (ci : Ci) : Nat := ((s.slice n).plb.filter fun p => p.ci == ci).length

def State.plbFree (s : State) (n : Hs) (ci : Ci) : Bool :=
  decide ((s.slice n).plb.length < 64) && decide (s.plbCount n ci < (s.inst ci).plbQ)

def State.lineCredit (s : State) (ci : Ci) : Bool := !(s.inst ci).twin || decide (s.tw.credits > 0)

/-- R234 for a full-line write, R398 for a twin. -/
def State.canPost (s : State) (n : Hs) (ci : Ci) (lix : Lix) (mpid : Mpid) : Bool :=
  (s.posted n lix).isSome || ((s.slice n).thr.contains mpid && s.plbFree n ci && s.lineCredit ci)

/-- Takes a PLB line for tracker entry `t`: the one that holds its line, or a free one within the quota (R121, R172). -/
def State.reservePlb (s : State) (n : Hs) (t : Nat) (ci : Ci) (lix : Lix) (mpid : Mpid) : Option State :=
  if (s.slice n).plb.any fun p => p.lix == lix then
    some (s.modSlice n fun x =>
      { x with plb := updWhere (fun p => p.lix == lix) (fun p => { p with resv := p.resv.filter (· != t) ++ [t] }) x.plb })
  else if s.plbFree n ci then
    some (s.modSlice n fun x => { x with plb := x.plb ++ [{ lix := lix, ci := ci, mpid := mpid, posted := false, resv := [t], data := 0,
                                                            psn := false, seq := 0, gpf := [], byGrel := false }] })
  else none

/-- The reservation of tracker entry `t` ends. -/
def State.freeResv (s : State) (n : Hs) (t : Nat) : State :=
  s.modSlice n fun x =>
    { x with plb := (x.plb.map fun p => { p with resv := p.resv.filter (· != t) }).filter fun p => p.posted || !p.resv.isEmpty }

/-- Issues the `MEMWR` of a posted line. One that changes rime bits, or comes after one that waits for its turn, is a rime change
of its line (R75, R113). -/
def State.plbWrite (s : State) (n : Hs) (ci : Ci) (c : MCmd) : State :=
  match c.rime with
  | some v => s.addRime n ci c.lix c.mpid v .plain (some c)
  | none =>
    if (s.slice n).rimeQ.any fun r => r.lix == c.lix && r.cmd.isSome then s.addRime n ci c.lix c.mpid .clear .plain (some c)
    else s.memCmd n ci c

/-- Posts a line, of tracker entry `t` if any, into its PLB line and issues its `MEMWR` (R235); `MLINE` for a twin, unless a release
posts it (R398). -/
def State.postLine (s : State) (n : Hs) (t : Option Nat) (ci : Ci) (lix : Lix) (mpid : Mpid) (data : Line) (psn : Bool) (rime : Option Rime)
    (byG : Bool) (gpf : List Nat) : State :=
  let was := (s.posted n lix).isSome
  let seq := (s.slice n).seq
  let l : PlbLine := { lix := lix, ci := ci, mpid := mpid, posted := true, resv := [], data := data, psn := psn, seq := seq, gpf := gpf, byGrel := byG }
  let s := s.modSlice n fun x =>
    { x with seq := x.seq + 1,
             plb := if x.plb.any fun p => p.lix == lix then updWhere (fun p => p.lix == lix) (fun p => { l with gpf := p.gpf ++ gpf, resv := p.resv.filter fun r => some r != t }) x.plb
                    else x.plb ++ [l] }
  let s := (s.bump (hsCtr n 14)).bumpI ci 0x0C
  let s := s.plbWrite n ci { mkCmd n .memwr mpid lix (.plbWr seq) with data := data, wpsn := psn, rime := rime }
  if (s.inst ci).twin && !byG then
    let s := s.twinRec (hsStop n) ci 2 lix (b2n psn 86) (some data)
    if was then s else { s with tw := { s.tw with credits := s.tw.credits - 1 } }
  else s

/-- The rime value of a full write (R119, R138): under R85 that rule's, CLEAR or TRACKED where it clears poison. -/
def State.writeRime (s : State) (n : Hs) (x : Trk) : Option Rime :=
  if x.req.cls.uncached || x.req.kind != .coh then (if x.rime = some .poison then some .clear else none)
  else if x.bc then x.wrime
  else if x.dir.st = .psn then
    match (s.slice n).find x.req.lix with
    | some (_, e) => some (if e.f then .tracked else .clear)
    | none => some .clear
  else none

/-- `Cmp` of a write (R120). -/
def State.cmpWrite (s : State) (n : Hs) (t : Nat) (ord : DOrd) : State :=
  match s.trk n t with
  | none => s
  | some x =>
    s.complete n t { x.mkCpl n ord (x.req.cls.grant x.req.mval x.dir) .done with
      wbc := if x.resv = .writeback then some x.req.wbc else none }

/-- The posted line's record is what the request's completion waits for (R403). -/
def State.markLine (s : State) (n : Hs) (t : Nat) (ci : Ci) : State :=
  if (s.inst ci).twin then s.modTrk n t fun x => { x with rseq := some ((s.inst ci).rseq - 1) } else s

/-- A full-line write whose snoops are answered: posted, or `MEMWR` (R120, R234); behind a write of the line that awaits its data
it waits its turn (R218). -/
def State.doWrite (s : State) (n : Hs) (t : Nat) : State :=
  match s.trk n t with
  | none => s
  | some x =>
    let r := s.writeRime n x
    let own := x.req.dst.isSome
    if s.pullAhead n x.req.lix t then s.setPh n t .pullWait
    else if s.canPost n x.req.ci x.req.lix x.req.mpid then
      if own then
        let s := (s.reservePlb n t x.req.ci x.req.lix x.req.mpid).getD s
        let s := s.modTrk n t fun y => { y with ph := .pull, wrime := r }
        s.order n x .dpull
      else
        let s := (s.postLine n (some t) x.req.ci x.req.lix x.req.mpid x.data false r false []).markLine n t x.req.ci
        s.cmpWrite n t .none
    else
      let c := { mkCmd n .memwr x.req.mpid x.req.lix (.trkWr t) with dst := x.req.dst, data := if own then 0 else x.data, rime := r }
      let s := s.setPh n t .write
      if r.isSome then s.addRime n x.req.ci x.req.lix x.req.mpid (r.getD .clear) (.trk t) (some c) else s.memCmd n x.req.ci c

/-- The merge's last two steps once its bytes and the line are there (R121 step 4). A merge that ends poisoned completes once the
line is poisoned, granting I: the line has no holder then. DESIGN CHOICE (log entry 74). -/
def State.mergeDone (s : State) (n : Hs) (t : Nat) : State :=
  match s.trk n t with
  | none => s
  | some x =>
    if x.ph != .merge || !x.pulled || !x.rdHave then s
    else if x.stale then
      (s.modTrk n t fun y => { y with rgen := !y.rgen, dpsn := false }).readCmd n t false
    else
      let d := mergeLine x.data x.req.data x.mask
      let s := (s.postLine n (some t) x.req.ci x.req.lix x.req.mpid d x.dpsn x.wrime false []).markLine n t x.req.ci
      if x.dpsn then
        (s.modTrk n t fun y => { y with dir := Dir.psn }).poisonLine n x.req.ci x.req.kind x.req.lix x.req.mpid (x.rime == some .clear) (some t)
      else s.cmpWrite n t .none

/-- R121 steps 1 to 3. -/
def State.startMerge (s : State) (n : Hs) (t : Nat) : State :=
  match s.trk n t with
  | none => s
  | some x =>
    if s.pullAhead n x.req.lix t then s.setPh n t .pullWait
    else if !s.lineCredit x.req.ci && (s.posted n x.req.lix).isNone then s.setPh n t .plb
    else match s.reservePlb n t x.req.ci x.req.lix x.req.mpid with
      | none => s.setPh n t .plb
      | some s =>
        let s := (s.setPh n t .merge).order n x .dpull
        match s.posted n x.req.lix with
        | some p => s.modTrk n t fun y => { y with rdHave := true, stale := false, data := p.data, dpsn := p.psn }
        | none => s.readCmd n t false

/-! ### Locks -/

/-- Sends `LGNT` (R170 to R172), once its gate is open. State PSN is granted with `PSN` and no data, a posted copy or not.
DESIGN CHOICE (log entry 75). -/
def State.grantLock (s : State) (n : Hs) (t : Nat) : State :=
  match s.trk n t with
  | none => s
  | some x =>
    match x.lk with
    | none => s
    | some l =>
      if !s.gateOpen x.req.ci x.rseq x.mdird then s.setPh n t .gate
      else
        let psnDir := x.dir.st = .psn || (x.req.kind != .coh && x.rime = some .poison)
        let s := s.setPh n t .held
        let go (psn plbh : Bool) (d : Line) (dat : Bool) : State :=
          s.sendC x.req.ci (hsStop n) (teStop l.te) (if dat then .dat else .rsp) false (.lgnt l n psn plbh d)
        match s.posted n x.req.lix with
        | some p =>
          if x.dir.st = .psn then go true false 0 false
          else
            let r := if l.noData then (s.reservePlb n t x.req.ci x.req.lix x.req.mpid).getD s else s
            (r.modTrk n t fun y => { y with dpsn := y.dpsn || p.psn }).sendC x.req.ci (hsStop n) (teStop l.te) .dat false (.lgnt l n p.psn l.noData p.data)
        | none =>
          if x.dir.st = .psn then go true false 0 false
          else if l.noData then go false false 0 false
          else go (psnDir || x.dpsn) false x.data true

/-- A lock whose snoops are answered: PLB line, data, grant. -/
def State.lockStep (s : State) (n : Hs) (t : Nat) : State :=
  match s.trk n t with
  | none => s
  | some x =>
    match x.lk with
    | none => s
    | some l =>
      if x.rel then (s.freeResv n t).endTrk n t
      else if s.pullAhead n x.req.lix t then s.setPh n t .pullWait
      else
        match (if l.writes then s.reservePlb n t x.req.ci x.req.lix x.req.mpid else some s) with
        | none => s.setPh n t .lockPlb
        | some s =>
          if (s.posted n x.req.lix).isSome || l.noData || x.dir.st = .psn then s.grantLock n t
          else if x.rdHave && !x.stale then s.grantLock n t
          else if x.rdOut && !x.stale then s.setPh n t .lockRd
          else (s.modTrk n t fun y => { y with ph := .lockRd, rgen := if y.rdOut || y.rdHave then !y.rgen else y.rgen }).readCmd n t false

/-- Requests that waited for the data of a write of the line go on. -/
def State.resume (s : State) (n : Hs) (lix : Lix) : State :=
  ((s.slice n).trk.filter fun x => x.req.lix == lix).foldl (fun s x =>
    match s.trk n x.id with
    | none => s
    | some y =>
      if y.ph == .data then s.checkData n y.id
      else if y.ph != .pullWait then s
      else if y.lk.isSome then s.lockStep n y.id
      else if y.req.cls.isMerge then s.startMerge n y.id
      else s.doWrite n y.id) s

/-! ### Internal requests after their snoops -/

/-- The rime bits of a recalled line become CLEAR, after the firn write that took its slot (R160). -/
def State.jobClear (s : State) (n : Hs) (t : Nat) (v : Rime) : State :=
  match s.trk n t with
  | none => s
  | some x =>
    let wait := match x.job with
      | some j => (match j.acc with | some (h, a) => (s.slice h).facc.any fun f => f.id == a | none => false)
      | none => false
    let s := s.modTrk n t fun y => { y with ph := .rimeChg, wrime := some v }
    if wait then s else s.addRime n x.req.ci x.req.lix x.req.mpid v (.trk t)

/-- The end of an internal request's snoops (R77, R160, R253, R274, R325, R98, R490, R410). -/
def State.jobStep (s : State) (n : Hs) (t : Nat) : State :=
  match s.trk n t with
  | none => s
  | some x =>
    match x.job with
    | none => s
    | some j =>
      let lix := x.req.lix
      let ci := x.req.ci
      let ent := (s.slice n).find lix
      match x.req.cls with
      | .calve =>
        let s := match ent with
          | some (l, e) =>
            let s := if l.inVb then s.modSlice n fun y => { y with vb := y.vb.modify l.k fun v => { v with calve := false } } else s
            if e.st = DSt.psn then s else s.dirWrite n l lix e { e with st := .inv, shr := 0 }
          | none => s
        if (match ent with | some (_, e) => e.st == DSt.psn | none => false) then s.endTrk n t else s.jobClear n t .clear
      | .rcl =>
        match ent with
        | some (l, e) =>
          let d := match j.cax with
            | some c => e.dir.drop c
            | none => Dir.inv
          if e.st = DSt.psn && e.f then (s.setPh n t .rimeChg).accLine n ci lix (.jobDel t)
          else
          let s := s.dirWrite n l lix e { e with st := d.st, shr := d.shr }
          if e.f && j.cax.isNone then (s.setPh n t .rimeChg).accLine n ci lix (.jobDel t) else s.endTrk n t
        | none => if j.firn.isSome then (s.setPh n t .rimeChg).accLine n ci lix (.jobDel t) else s.endTrk n t
      | .sweep =>
        match ent, j.cax with
        | some (l, e), some c =>
          if e.st = .exo && e.dir.names c then s.poisonLine n ci .coh lix x.req.mpid false (some t)
          else if e.st = .shp && e.dir.names c then
            let d := e.dir.drop c
            (s.dirWrite n l lix e { e with st := d.st, shr := d.shr }).endTrk n t
          else s.endTrk n t
        | none, some _ => if j.firn.isSome then (s.setPh n t .rimeChg).accLine n ci lix (.jobDel t) else s.endTrk n t
        | _, none => s.endTrk n t
      | .rebuild =>
        if j.rb = .sf && x.rime = some .tracked && (s.inst ci).hasFirn then (s.setPh n t .rimeChg).accLine n ci lix (.jobDel t)
        else s.jobClear n t .clear
      | _ => s.endTrk n t

/-- What waited for the end of a poisoning goes on (R82, R121, R209, R325). -/
def State.poisoned (s : State) (n : Hs) (t : Nat) : State :=
  match s.trk n t with
  | none => s
  | some x =>
    if x.ph != .poison then s
    else match x.job with
      | some j =>
        if x.req.cls = .rcl && j.cax.isNone then
          match (s.slice n).find x.req.lix with
          | some (l, e) => (if e.st = DSt.psn && !e.f then s.dirWrite n l x.req.lix e { e with st := .inv } else s).endTrk n t
          | none => s.endTrk n t
        else s.endTrk n t
      | none => if x.lk.isSome then s.endTrk n t else s.cmpWrite n t .none

/-! ### The decision -/

/-- What follows the directory change of a request (R117, R120, R138, R170). -/
def State.proceed (s : State) (n : Hs) (t : Nat) : State :=
  match s.trk n t with
  | none => s
  | some x =>
    let c := x.req.cls
    let s := if x.bc && !c.fullWrite && !c.isMerge then s.addRime n x.req.ci x.req.lix x.req.mpid (x.wrime.getD .clear) .plain else s
    if c.isRead then
      if x.rdOut || x.rdHave then (s.setPh n t .data).checkData n t
      else (s.setPh n t .data).readCmd n t (x.req.dst.isSome)
    else if c = .invA || c = .invI then s.complete n t (x.mkCpl n .dfree (c.grant x.req.mval x.dir) .done)
    else if c.fullWrite then s.doWrite n t
    else if c.isMerge then
      if x.dir.st = .psn || (c.uncached && x.rime = some .poison) then s.complete n t (x.mkCpl n .dfree .i .done)
      else s.startMerge n t
    else if c = .lck || c = .lckn then s.lockStep n t
    else s

/-- Every snoop of the request is answered (R120): the next state is written, then the request goes on. -/
def State.afterSnoops (s : State) (n : Hs) (t : Nat) : State :=
  match s.trk n t with
  | none => s
  | some x =>
    if x.req.cls = .calve || x.req.cls = .rcl || x.req.cls = .sweep || x.req.cls = .rebuild then s.jobStep n t
    else if x.lk.isSome && x.rel then
      let d := x.req.cls.next x.req.mval x.req.cax x.dir (s.curDir n x)
      ((s.setDir n t x.req.ci x.req.lix d).getD s).lockStep n t
    else
      let hasFirn := (s.inst x.req.ci).hasFirn
      let s := if x.bc then s.modTrk n t fun y => { y with
          dir := if y.bcS then Dir.bcs else Dir.inv, wrime := some (if hasFirn then .tracked else .clear) } else s
      match s.trk n t with
      | none => s
      | some x =>
        let d := x.req.cls.next x.req.mval x.req.cax x.dir (s.curDir n x)
        match s.setDir n t x.req.ci x.req.lix d with
        | none => (s.bump (hsCtr n 13)).setPh n t .victim
        | some s => (s.modTrk n t fun y => { y with res := none }).proceed n t

/-- Sends snoops to the members among the agents named (R47, R125); with none to send the request goes on. -/
def State.startSnoops (s : State) (n : Hs) (t : Nat) (cs : List Cax) (f : SForm) : State :=
  match s.trk n t with
  | none => s
  | some x =>
    let o (c : Cax) : SnpOut := { cax := c, form := f, att := 0, sent := false, inj := s.clk, deadline := 0, parked := none, wb := none }
    let s := s.modTrk n t fun y => { y with ph := .snoop, snps := cs.map o, snooped := y.snooped || !cs.isEmpty }
    if cs.isEmpty then s.afterSnoops n t
    else cs.foldl (fun s c => if s.holdOn n x.req.ci x.req.lix c then s else s.snoopOut n t x.req.ci x.req.lix (o c)) s

/-- The class asks an owner and lets it keep a copy (R117). -/
def Cls.asks : Cls → Bool
  | .rdS | .rdD | .rdI | .skim => true
  | _ => false

/-- An owner that is no BI member of the instance counts as having answered `BIRspI` (R47). -/
def State.absentOwner (s : State) (x : Trk) (d : Dir) : Option Dir :=
  match d.owner with
  | some o => if x.req.cls.asks && x.req.cax != some o && !(s.inst x.req.ci).members.contains o then some (d.drop o) else none
  | none => none

/-- The state of the line is known: the decision of R117 or R170. A lock that recalls holders reads the line after their answers. -/
def State.rule117 (s : State) (n : Hs) (t : Nat) (d : Dir) : State :=
  match s.trk n t with
  | none => s
  | some x =>
    let (cs, f) := x.req.cls.snoops d x.req.cax (s.inst x.req.ci).members
    let s := s.modTrk n t fun y => { y with
      known := true, dir := d, hadE := d.owner.isSome && d.owner == y.req.cax, res := s.absentOwner x d,
      stale := y.stale || (y.lk.isSome && !cs.isEmpty) }
    s.startSnoops n t cs f

/-- A recall of calving: the holders of the entry that stands, and those that its firn entry named (R77, R78). -/
def State.calveSnoops (s : State) (n : Hs) (t : Nat) (d : Dir) (f : Option Dir) : State :=
  let ms := (s.inst (match s.trk n t with | some x => x.req.ci | none => 0)).members
  let more := (match f with | some g => g.targets ms | none => []).filter fun c => !(d.targets ms).contains c
  (s.modTrk n t fun y => { y with known := true, dir := d }).startSnoops n t (d.targets ms ++ more) .snpInv

/-- R85: a broadcast resolves a line whose holders are not known. -/
def State.broadcast (s : State) (n : Hs) (t : Nat) : State :=
  match s.trk n t with
  | none => s
  | some x =>
    let s := s.modTrk n t fun y => { y with bc := y.job.isNone, snooped := true, bcS := false, stale := y.lk.isSome }
    let cs := (s.inst x.req.ci).members.filter fun c => x.req.cax != some c
    s.startSnoops n t cs (if x.req.cls.excl then .snpInv else .snpData)

def Slice.suspectFirn (x : Slice) (ci : Ci) (fl : Nat) : Bool :=
  x.suspFAll.contains ci || x.suspF.contains (ci, fl)

/-- A firn set counts as suspect wherever it was marked: its logical slice may have moved since (R98, R380; log entry 61). -/
def State.suspectFirn (s : State) (ci : Ci) (fl : Nat) : Bool := s.slices.any fun p => p.2.suspectFirn ci fl

/-- A zero-fill's line whose holders are not known (R85, R275): every BI member is recalled. -/
def State.jobUnknown (s : State) (n : Hs) (t : Nat) : State :=
  match s.trk n t with
  | none => s
  | some x =>
    let i := s.inst x.req.ci
    (s.modTrk n t fun y => { y with wrime := some (if i.hasFirn then .tracked else .clear), bc := true }).startSnoops n t i.members .snpInv

/-- The rime bits of a line that missed are known (R70, R85, R118, R138; R410 and R489 for UNKNOWN). -/
def State.resolveRime (s : State) (n : Hs) (t : Nat) (v : Rime) : State :=
  match s.trk n t with
  | none => s
  | some x =>
    let s := s.modTrk n t fun y => { y with rime := some v }
    let i := s.inst x.req.ci
    if x.req.cls.uncached || x.req.kind != .coh then
      (s.modTrk n t fun y => { y with known := true }).proceed n t
    else if v = .poison then
      match x.job with
      | some j => if x.req.cls = .rebuild then (let _ := j; s.endTrk n t) else s.rule117 n t Dir.psn
      | none => s.rule117 n t Dir.psn
    else
      match x.job with
      | some j =>
        if x.req.cls = .rebuild then
          if j.rb = .firn then
            if v = .tracked then (s.setPh n t .firn).accLine n x.req.ci x.req.lix (.lookup t) else s.endTrk n t
          else s.broadcast n t
        else if v = .unknown || (s.slice n).suspect (lineSet x.req.lix) || (i.twr && decide (x.req.lix.toNat ≥ i.trp)) then
          s.jobUnknown n t
        else if v = .tracked && i.hasFirn then (s.setPh n t .firn).accLine n x.req.ci x.req.lix (.lookup t)
        else s.rule117 n t Dir.inv
      | none =>
        if v = .unknown || (s.slice n).suspect (lineSet x.req.lix) || (i.twr && decide (x.req.lix.toNat ≥ i.trp)) then s.broadcast n t
        else if v = .tracked && i.hasFirn then (s.setPh n t .firn).accLine n x.req.ci x.req.lix (.lookup t)
        else s.rule117 n t Dir.inv

/-- The state an active read found holds an owner other than its requester (R114's exception). -/
def exoOther (d : Dir) (r : Option Cax) : Bool := d.st == .exo && d.owner != r

/-- A request becomes active (R108): lookup, speculative read, decision. `inh`: the line's state as the batch knows it. -/
def State.activate (s : State) (n : Hs) (t : Nat) (inh : Option Dir) : State :=
  match s.trk n t with
  | none => s
  | some x =>
    let s := s.modTrk n t fun y => { y with active := true }
    let s := if (s.clk.tick - x.adm).toNat ≥ 256 && !x.req.cls.batch then s.bumpI x.req.ci 0x06 else s
    let lix := x.req.lix
    let s := match x.lk with
      | some l => s.send (hsStop n) (teStop l.te) .rsp false (.lact l n)
      | none => s
    if x.req.cls.uncached then
      if x.req.cls.isRead then ((s.modTrk n t fun y => { y with known := true, ph := .data }).readCmd n t x.req.dst.isSome)
      else (s.setPh n t .rime).memCmd n x.req.ci (mkCmd n .mdrd x.req.mpid lix (.trkMd t))
    else if x.req.kind != .coh then
      if x.lk.isSome then
        if x.req.cls = .lckn then (s.modTrk n t fun y => { y with known := true }).lockStep n t
        else ((s.modTrk n t fun y => { y with known := true }).lockStep n t)
      else (s.setPh n t .rime).memCmd n x.req.ci (mkCmd n .mdrd x.req.mpid lix (.trkMd t))
    else
      match (s.slice n).find lix with
      | some (l, e) =>
        if e.ci != x.req.ci && x.job.isNone then s.refuse73 n t
        else
          let s := if x.req.cls = .calve then s else s.touch n l
          let d := e.live
          match x.job with
          | some j =>
            if x.req.cls = .calve then s.calveSnoops n t d j.firn
            else if x.req.cls = .rebuild then s.endTrk n t
            else if x.req.cls = .sweep then s.jobStep n t
            else if x.req.cls = .rcl then
              match j.cax with
              | some c => if d.names c then (s.modTrk n t fun y => { y with known := true, dir := d }).startSnoops n t
                  (if (s.inst x.req.ci).members.contains c then [c] else []) .snpInv else s.endTrk n t
              | none => s.rule117 n t d
            else s.rule117 n t d
          | none =>
            let s := if x.req.cls.isRead && !exoOther d x.req.cax then s.readCmd n t x.req.dst.isSome else s
            s.rule117 n t d
      | none =>
        match inh, x.job with
        | some d, _ => (s.readCmd n t x.req.dst.isSome).rule117 n t d
        | none, some j =>
          match x.req.cls with
          | .calve => s.calveSnoops n t (j.firn.getD Dir.inv) none
          | .rcl =>
            match j.firn, j.cax with
            | some d, some c => if d.names c then (s.modTrk n t fun y => { y with known := true, dir := d }).startSnoops n t
                (if (s.inst x.req.ci).members.contains c then [c] else []) .snpInv else s.endTrk n t
            | some d, none => s.rule117 n t d
            | none, _ => s.endTrk n t
          | .sweep => s.jobStep n t
          | _ => (s.setPh n t .rime).memCmd n x.req.ci (mkCmd n .mdrd x.req.mpid lix (.trkMd t))
        | none, none =>
          if x.req.cls.isRead then (s.setPh n t .rime).readCmd n t x.req.dst.isSome
          else if x.req.cls = .lck then (s.setPh n t .rime).readCmd n t false
          else (s.setPh n t .rime).memCmd n x.req.ci (mkCmd n .mdrd x.req.mpid lix (.trkMd t))

/-! ### Chains -/

/-- A batch member that lets the read behind it become active (R108). -/
def Trk.batchOpen (y : Trk) : Bool :=
  y.active && y.req.cls.batch && y.known && !y.snooped && !y.bc && (y.ph == .data || y.ph == .gate)

/-- The first entry that may become active now, with the state its batch knows (R108). -/
def Slice.ready (x : Slice) (members : Ci → List Cax) : List Trk → Option (Nat × Option Dir)
  | [] => none
  | y :: rest =>
    if y.chain && !y.active then
      let ahead := (x.trk.takeWhile fun z => z.id != y.id).filter fun z => z.chain && z.req.lix == y.req.lix
      match ahead with
      | [] => some (y.id, none)
      | h :: _ =>
        if y.req.cls.batch && ahead.all Trk.batchOpen then
          let d := match x.find y.req.lix with
            | some (_, e) => e.live
            | none => if h.dir.st = .psn then Dir.psn else Dir.inv
          if y.req.cls.uncached || ((y.req.cls.snoops d y.req.cax (members y.req.ci)).1.isEmpty && !exoOther d y.req.cax) then
            some (y.id, if y.req.cls.uncached then none else some d)
          else x.ready members rest
        else x.ready members rest
    else x.ready members rest

/-- Activates, one after another, the requests that may become active. -/
def State.settle (s : State) (n : Hs) : Nat → State
  | 0 => s
  | fuel + 1 =>
    let x := s.slice n
    match x.ready (fun c => (s.inst c).members) x.trk with
    | none => s
    | some (t, d) => (s.activate n t d).settle n fuel

def State.settleFuel (s : State) (n : Hs) : Nat := 2 * (s.slice n).trk.length + 8

/-- The lines that bulk steps may start: each step whose line in work has ended (R147), where its slice works and has an
internal entry free. A halt starts none (R492). -/
def State.beLines (s : State) : List (BItem × Nat × Nat) :=
  if !s.running then [] else
  ((s.be.ops ++ s.be.sweeps).flatMap fun o =>
    o.outst.filterMap fun st => if st.busy then none else st.todo.head?.map fun i => (i, o.id, st.pos)).filter fun l =>
      s.internalFree l.1.hs && s.works (hsDom l.1.hs)

/-- Starts one line of a bulk step as an internal request of its slice. -/
def State.beStart (s : State) (l : BItem × Nat × Nat) : State :=
  let f (o : BulkOp) : BulkOp :=
    if o.id = l.2.1 then
      { o with outst := o.outst.map fun st => if st.pos = l.2.2 then { st with busy := true, todo := st.todo.drop 1 } else st }
    else o
  let s := { s with be := { s.be with ops := s.be.ops.map f, sweeps := s.be.sweeps.map f } }
  s.addJob l.1.hs l.1.req l.1.job

def State.settleAll (s : State) : State :=
  s.slices.foldl (fun s p => let n : Hs := BitVec.ofNat 5 p.1; s.settle n (s.settleFuel n)) s

/-- Lets every slice go on as far as it can, and bulk steps start their lines. -/
def State.pumpN (s : State) : Nat → State
  | 0 => s
  | fuel + 1 =>
    let s := s.settleAll
    match s.beLines with
    | [] => s
    | l :: _ => (s.beStart l).pumpN fuel

/-- Slices, bulk steps, then the groups that a freed credit or line lets go on. -/
def State.pump (s : State) : State := ((s.pumpN 600).tePump false).tePump true

end Sys2Proof.Machine
end

