-- ==== Sys2Proof/Machine/Firn.lean ====
section
/-!
DEFINITION. What a home slice does with a firn set that it has read (R70 to R77, R82, R98, R158 to R160, R309), with the
completions of its firn writes and rime changes, and with rotation moves (R93, R95).
-/

namespace Sys2Proof.Machine

open Sys2Proof

/-! ### A set in hand -/

/-- Line `j` of the set an access has read. -/
def FAcc.line (a : FAcc) (j : Nat) : Line := (tGet a.got j).getD 0

/-- Slot `i` (0 to 15) of the set; a free or reserved slot is none. -/
def FAcc.slot (a : FAcc) (i : Nat) : Option FirnEnt :=
  match FirnEnt.decode (firnSlot (a.line (i / 4)) (i % 4)) with
  | some e => if e.st = .inv then none else some e
  | none => none

/-- The slot that holds a line's entry. -/
def FAcc.findSlot (a : FAcc) (lix : Lix) : Option (Nat × FirnEnt) :=
  ((List.range 16).filterMap fun i => (a.slot i).map fun e => (i, e)).find? fun p => p.2.lix == lix

/-- The line with slot `i` replaced; `clr` clears `AGE` in the three others (R76). -/
def FAcc.put (a : FAcc) (i : Nat) (e : FirnEnt) (clr : Bool) : Line :=
  let base := a.line (i / 4)
  let base := if clr then (List.range 4).foldl (fun d k =>
      match FirnEnt.decode (firnSlot d k) with
      | some f => if f.age then firnPut d k ({ f with age := false } : FirnEnt).encode else d
      | none => d) base else base
  firnPut base (i % 4) e.encode

/-- The slot that R76 chooses: a free one, else the candidate. -/
def FAcc.choose (a : FAcc) : Nat × Option FirnEnt :=
  match (List.range 16).find? fun i => (a.slot i).isNone with
  | some i => (i, none)
  | none =>
    match (List.range 16).find? fun i => match a.slot i with | some e => !e.age | none => false with
    | some i => (i, a.slot i)
    | none => (0, a.slot 0)

/-! ### What follows the end of an access -/

/-- Calving recalls, at this slice or in a fold at another, that waited for this access' write (R160). -/
def State.wakeJobs (s : State) (n : Hs) (id : Nat) : State :=
  s.slices.foldl (fun s p => p.2.trk.foldl (fun s x =>
    match x.job with
    | some j =>
      if j.acc = some (n, id) && x.ph == Ph.rimeChg then s.addRime (BitVec.ofNat 5 p.1) x.req.ci x.req.lix x.req.mpid .clear (.trk x.id) else s
    | none => s) s) s

/-- The change of a line's directory that an access makes when its writes are done, or at once with none to make. -/
def State.accEffect (s : State) (n : Hs) (a : FAcc) : State :=
  match a.kind with
  | .spill _ =>
    (s.modSlice n fun x =>
      { x with vb := updWhere (fun v => v.set == lineSet a.lix && v.ent.tag == lineTag a.lix) (fun v => { v with fwr := false }) x.vb }).vbSweep n
  | .depart =>
    match (s.slice n).vb.find? fun v => v.set == lineSet a.lix && v.ent.tag == lineTag a.lix with
    | none =>
      match (s.slice n).find a.lix with
      | some (l, e) => if e.f then s.dirWrite n l a.lix e { e with f := false } else s
      | none => s
    | some v =>
      let s := s.modSlice n fun x => { x with vb := updWhere (fun w => w.set == v.set && w.ent.tag == v.ent.tag) (fun w => { w with fdel := false, ent := { w.ent with f := false } }) x.vb }
      if v.rclr then s.addRime n a.ci a.lix (s.portOf a.lix) .clear .vbClear else s.vbSweep n
  | .psnDel fin =>
    match (s.slice n).find a.lix, fin with
    | some (l, e), _ =>
      if e.st = .psn then
        (s.dirWrite n l a.lix e { e with f := false }).addRime n a.ci a.lix (s.portOf a.lix) .poison (.poison fin)
      else match fin with
        | some t => s.poisoned n t
        | none => s
    | none, some t => s.poisoned n t
    | none, none => s
  | .psnNone mpid fin =>
    if ((s.slice n).find a.lix).isSome then s.poisonLine n a.ci .coh a.lix mpid false fin
    else s.addRime n a.ci a.lix mpid .poison (.poison fin)
  | .jobDel t =>
    match s.trk n t with
    | none => s
    | some x =>
      let s := match (s.slice n).find a.lix with
        | some (l, e) =>
          if x.req.cls == Cls.rcl && e.st == DSt.psn then s.dirWrite n l a.lix e { e with st := .inv, f := false }
          else if x.req.cls == Cls.rcl && e.f then s.dirWrite n l a.lix e { e with f := false } else s
        | none => s
      match x.wrime with
      | some v => s.jobClear n t v
      | none => s.endTrk n t
  | _ => s

/-- Ends an access: its effect, the next access of the set, the recalls that waited. -/
def State.finishAcc (s : State) (n : Hs) (a : FAcc) : State :=
  ((s.accEffect n a).closeAcc n a.id).wakeJobs n a.id

/-- Writes the next corrected or emptied line of a set back (R97, R98), one write at a time (R75), or ends the access. -/
def State.flushAcc (s : State) (n : Hs) (a : FAcc) : State :=
  match a.dirty with
  | [] => s.finishAcc n a
  | j :: _ => s.firnWrite n a j (a.line j)

/-! ### Lookups -/

/-- Installs a firn entry for a waiting request and decides it (R71, R159). -/
def State.install (s : State) (n : Hs) (t : Nat) (e : FirnEnt) (f : Bool) : State :=
  match s.trk n t with
  | none => s
  | some x =>
    if e.ci != x.req.ci then s.refuse73 n t
    else
      match s.allocate n x.req.lix (SfEnt.fresh x.req.lix x.req.ci e.dir f) with
      | some s => (s.modTrk n t fun y => { y with finst := none }).rule117 n t e.dir
      | none => (s.bump (hsCtr n 13)).modTrk n t fun y => { y with ph := .victim, finst := some f, dir := e.dir }

/-- The lookup of R70 has its set. -/
def State.accLookup (s : State) (n : Hs) (a : FAcc) (t : Nat) : State :=
  match s.trk n t with
  | none => s.flushAcc n a
  | some x =>
    let s := match a.findSlot a.lix with
      | some (_, e) => if x.req.cls = Cls.rebuild then s.endTrk n t else s.install n t e true
      | none =>
        if x.req.cls = Cls.rebuild then s.broadcast n t
        else if x.job.isNone && s.suspectFirn a.ci a.fl then s.broadcast n t
        else if s.suspectFirn a.ci a.fl then s.jobUnknown n t
        else s.rule117 n t Dir.inv
    s.flushAcc n a

/-! ### Spills (R74, R76, R159) -/

/-- Where a line of a moving set is homed now: its destination once the set has been handed over (R380, R382). -/
def State.homeNow (s : State) (n : Hs) (l : Lix) : Hs :=
  match s.fold with
  | some f =>
    let src := homeOf f.oldMap l
    let dst := homeOf f.newMap l
    if f.started && src != dst then (if (s.slice src).moved.contains (lineSet l) || f.flipped then dst else src) else n
  | none => n

/-- Clears the flag `F` of a line found in the SF or victim buffer (R76 step 2). -/
def State.clearF (s : State) (n : Hs) (lix : Lix) : State :=
  match (s.slice n).find lix with
  | some (l, e) => if e.f then s.dirWrite n l lix e { e with f := false } else s
  | none => s

/-- The request that waits to look a line up in a set whose access is at hand (R159): its access is queued, or the line's rime bits,
which read TRACKED, are still on their way to it. DEDUCED (log entry 25). -/
def Slice.waitingLookup (x : Slice) (a : FAcc) (lix : Lix) : Option Nat :=
  match x.facc.find? fun b => b.id != a.id && b.ci == a.ci && b.fl == a.fl && b.lix == lix && (match b.kind with | .lookup _ => true | _ => false) with
  | some b => (match b.kind with | .lookup t => some t | _ => none)
  | none => (x.trk.find? fun y => y.active && y.req.lix == lix && y.req.ci == a.ci && y.req.kind == .coh && y.ph == .rime).map fun y => y.id

/-- A departing entry takes its slot, with the holders that it left its way with, recaptured since or not (R61); none while a recall
it needs has no internal entry (R78). -/
def State.accSpill (s : State) (n : Hs) (a : FAcc) (e : Dir) : Option State :=
  match a.findSlot a.lix with
  | some (i, _) => some (s.firnWrite n a (i / 4) (a.put i (FirnEnt.ofDir a.lix a.ci e true) false))
  | none =>
    let (i, cand) := a.choose
    let d := a.put i (FirnEnt.ofDir a.lix a.ci e false) true
    match cand with
    | none => some (s.firnWrite n a (i / 4) d)
    | some c =>
      let m := s.homeNow n c.lix
      match (s.slice m).waitingLookup a c.lix with
      | some t =>
        let mine (y : FAcc) : Bool := match y.kind with | .lookup u => u == t | _ => false
        let s := (s.modSlice m fun x => { x with facc := x.facc.filter fun y => !mine y }).install m t c false
        some (s.firnWrite n a (i / 4) d)
      | none =>
        if ((s.slice m).find c.lix).isSome then some ((s.clearF m c.lix).firnWrite n a (i / 4) d)
        else if s.internalFree m then some ((s.calve m c.lix a.ci (some c.dir) (some (n, a.id))).firnWrite n a (i / 4) d)
        else none

/-! ### Deletions -/

/-- The tombstone of a deletion not yet issued has been recaptured: the deletion is cancelled (R142, R161). -/
def State.delCancelled (s : State) (n : Hs) (a : FAcc) : Bool :=
  a.kind == .depart && !((s.slice n).vb.any fun v => v.set == lineSet a.lix && v.ent.tag == lineTag a.lix && v.dep)

/-- Writes the entry of a line INV, or ends the access where the set holds none. -/
def State.accDelete (s : State) (n : Hs) (a : FAcc) : State :=
  if s.delCancelled n a then
    let mine (v : VbEnt) : Bool := v.set == lineSet a.lix && v.ent.tag == lineTag a.lix
    let a := { a with kind := .scrub }
    (s.modSlice n fun x => { x with vb := updWhere mine (fun v => { v with fdel := false }) x.vb,
                                    facc := updWhere (fun b => b.id == a.id) (fun _ => a) x.facc }).flushAcc n a
  else
  match a.findSlot a.lix with
  | some (i, _) => s.firnWrite n a (i / 4) (a.put i FirnEnt.free false)
  | none => s.flushAcc n a

/-- The firn part of a recall or sweep of a line that stands only in the firn (R253, R274, R325, R490). -/
def State.accJob (s : State) (n : Hs) (a : FAcc) (t : Nat) : State :=
  match s.trk n t with
  | none => s.flushAcc n a
  | some x =>
    if x.req.cls == Cls.rcl && (match (s.slice n).find a.lix with | some (_, e) => e.st == DSt.psn | none => false) then
      (s.modTrk n t fun y => { y with wrime := none }).flushAcc n a
    else
    match x.job, a.findSlot a.lix with
    | some j, some (i, e) =>
      match j.cax with
      | none => (s.modTrk n t fun y => { y with wrime := some .clear }).firnWrite n a (i / 4) (a.put i FirnEnt.free false)
      | some c =>
        if !e.dir.names c && !((e.st == .shp) && (firnHolders e.shr).contains c) then s.flushAcc n a
        else if e.st = .exo then
          (s.modTrk n t fun y => { y with wrime := some (if x.req.cls = .sweep then .poison else .clear) }).firnWrite n a (i / 4)
            (a.put i FirnEnt.free false)
        else
          let hs := (firnHolders e.shr).filter (· != c)
          match hs with
          | [] => (s.modTrk n t fun y => { y with wrime := some .clear }).firnWrite n a (i / 4) (a.put i FirnEnt.free false)
          | h :: _ =>
            let shr := (List.range 6).foldl (fun (v : BitVec 64) k => v ||| ((hs.getD k h).setWidth 64 <<< (10 * k))) 0
            (s.modTrk n t fun y => { y with wrime := none }).firnWrite n a (i / 4) (a.put i { e with shr := shr } false)
    | some _, none =>
      (s.modTrk n t fun y => { y with wrime := if x.req.cls == Cls.rcl && y.job.any (fun k => k.cax.isNone) || x.req.cls == Cls.rebuild then some .clear else none }).flushAcc n a
    | none, _ => s.flushAcc n a

/-! ### Bulk steps in the firn (R309) -/

/-- Whether a bulk operation acts on an entry. -/
def BKind.takes : BKind → Lix → Dir → Bool
  | .region lo hi, l, _ => decide (lo ≤ l.toNat) && decide (l.toNat ≤ hi)
  | .agentRecall c, _, d => d.names c
  | .agentLoss c _ _, _, d => d.names c
  | _, _, _ => false

def BKind.job (k : BKind) (d : Option Dir) (op step : Nat) : IJob :=
  { firn := d, cax := (match k with | .agentRecall c => some c | .agentLoss c _ _ => some c | _ => none), rb := .none, vb := false,
    acc := none, op := op, step := step }

def BKind.cls : BKind → Cls
  | .agentLoss _ _ _ => .sweep
  | _ => .rcl

def FirnEnt.names (e : FirnEnt) (c : Cax) : Bool := (e.st == .shp || e.st == .exo) && (firnHolders e.shr).contains c

/-- Whether a sweep acts on an entry that it meets (R253, R274, R325). -/
def BulkOp.acts (o : BulkOp) (l : Lix) (e : SfEnt) : Bool :=
  match o.kind with
  | .region lo hi => e.ci == o.ci && decide (lo ≤ l.toNat) && decide (l.toNat ≤ hi) && (e.st != .inv || e.f)
  | .agentRecall c => e.ci == o.ci && e.dir.names c
  | .agentLoss c _ _ => e.dir.names c
  | _ => false

/-- A step's set has been read: its next 2 matching entries become lines of the step (one with an SF entry is stale, but where that entry
came after the SF phase it is acted on now: R50, R253), unless a cut has taken the step back (R310). -/
def State.accBulk (s : State) (n : Hs) (a : FAcc) (op step : Nat) : State :=
  let upd (o : BulkOp) : BulkOp :=
    if o.id != op then o
    else
      let es := ((List.range 16).filterMap a.slot).filter fun e =>
        e.ci == a.ci && (match o.kind with
          | .region lo hi => decide (lo ≤ e.lix.toNat) && decide (e.lix.toNat ≤ hi)
          | .agentRecall c => e.names c
          | .agentLoss c _ _ => e.names c
          | _ => false)
      let es := es.filter fun e => match (s.slice n).find e.lix with
        | none => true
        | some (_, f) => o.acts e.lix f
      let items := (es.take 2).map fun e =>
        ({ hs := n, req := Req.internal o.kind.cls a.ci .coh e.lix (s.portOf e.lix), job := o.kind.job (some e.dir) op step } : BItem)
      { o with outst := o.outst.map fun st =>
          if st.pos = step && st.cut then { st with awaited := st.awaited - 1 }
          else if st.pos = step then { st with todo := st.todo ++ items, awaited := st.awaited - 1, more := st.more || decide (es.length > 2) } else st }
  ({ s with be := { s.be with ops := s.be.ops.map upd, sweeps := s.be.sweeps.map upd } } : State).flushAcc n a

/-! ### Rotation (R93, R95) -/

/-- Line `j` of a moving set is written to the gap, one write after another (R75). -/
def State.moveWrite (s : State) (n : Hs) (a : FAcc) (j : Nat) : State :=
  let i := s.inst a.ci
  let dst := if i.rotGap > 0 then i.rotGap else 0
  s.memCmd n a.ci { mkCmd n .memwr i.firnMpid (BitVec.ofNat 46 (i.firnBase.toNat * 2 ^ 14 + 4 * dst + j)) (.firnWr a.id) with
    data := a.line j, rime := some .clear }

/-- The four lines of a set are written to the gap, once read. -/
def State.accMove (s : State) (n : Hs) (a : FAcc) : State :=
  (s.modSlice n fun x => { x with facc := updWhere (fun b => b.id == a.id) (fun b => { b with writing := true, wleft := 4 }) x.facc }).moveWrite n a 0

/-- The move is published (R93, R95; R396 `MROT`). -/
def State.publishMove (s : State) (n : Hs) (a : FAcc) : State :=
  let i := s.inst a.ci
  let sz := 2 ^ i.firnLog2
  let i := if i.rotGap > 0 then { i with rotGap := i.rotGap - 1, rotBusy := false }
           else { i with rotGap := sz, rotStart := (i.rotStart + 1) % sz, rotBusy := false }
  let s := (s.setInst a.ci i).tapChurn n 3 a.fl (some a.ci)
  let s := if i.twin then s.twinRec (hsStop n) a.ci 6 0 (i.rotStart * 2 ^ 86 + i.rotGap * 2 ^ 112) else s
  let upd (o : BulkOp) : BulkOp :=
    if o.ci = a.ci && o.kind = .rotate then { o with outst := o.outst.map fun st => { st with awaited := st.awaited - 1 } } else o
  ({ s with be := { s.be with ops := s.be.ops.map upd } } : State).closeAcc n a.id

/-! ### The set is complete -/

/-- Acts on a set whose four lines have arrived. -/
def State.accReady (s : State) (n : Hs) (a : FAcc) : State :=
  match a.kind with
  | .lookup t => s.accLookup n a t
  | .spill d => (s.accSpill n a d).getD s
  | .depart => s.accDelete n a
  | .psnDel _ => s.accDelete n a
  | .psnNone _ _ => s.accDelete n a
  | .bulk op step => s.accBulk n a op step
  | .jobDel t => s.accJob n a t
  | .scrub => s.flushAcc n a
  | .move => s.accMove n a
  | .agency dest acc => s.send (hsStop n) (hsStop dest) .dat false (.agRsp n dest acc a.ci a.fl ((List.range 4).map a.line))

/-- Marks a firn set suspect (R98): 16 per slice, then the whole firn of the instance. -/
def Slice.markFirn (x : Slice) (ci : Ci) (fl : Nat) : Slice :=
  if x.suspF.contains (ci, fl) then x
  else if x.suspF.length < 16 then { x with suspF := x.suspF ++ [(ci, fl)] }
  else { x with suspFAll := if x.suspFAll.contains ci then x.suspFAll else x.suspFAll ++ [ci] }

/-- An entry that cannot be used is written INV and its set marked (R98, R11): code 3 uncorrectable, 6 a reserved encoding. -/
def State.emptySlot (s : State) (n : Hs) (a : FAcc) (d : Line) (k : Nat) (code : BitVec 8) : State × Line × Bool :=
  let ch : Chan := { chk := 4, chn := (s.inst a.ci).firnMpid.setWidth 12 }
  let s := ((s.bump (hsCtr n 19)).tapChurn n 6 a.fl (some a.ci)).faultEv 3 ch (hsStop n) code none (some a.ci)
  (s.modSlice n fun x => x.markFirn a.ci a.fl, firnPut d k FirnEnt.free.encode, true)

/-- The check of one slot of line `j` (R97, R98, R11): an uncorrectable or reserved entry is emptied, its set marked. -/
def State.checkSlot (s : State) (n : Hs) (a : FAcc) (j : Nat) (err : List (Nat × EccErr)) (scrub : Bool) (d : Line) (k : Nat) :
    State × Line × Bool :=
  let mp := (s.inst a.ci).firnMpid
  match tGet err k with
  | some .uncorrectable => s.emptySlot n a d k 3
  | some .reserved => s.emptySlot n a d k 6
  | some .corrected =>
    let word := (a.ci, a.fl, 4 * j + k)
    let s := if (s.slice n).ffix.contains word then s.faultEv 2 { chk := 4, chn := mp.setWidth 12 } (hsStop n) 2 none (some a.ci) else s
    let s := if scrub && !(s.slice n).ffix.contains word then s.modSlice n fun x => { x with ffix := x.ffix ++ [word] } else s
    let s := (s.bump (hsCtr n 18)).tapChurn n 2 a.fl (some a.ci)
    match FirnEnt.decode (firnSlot d k) with
    | some _ => (s, d, scrub)
    | none => s.emptySlot n a d k 6
  | _ =>
    let s := s.modSlice n fun x => { x with ffix := x.ffix.erase (a.ci, a.fl, 4 * j + k) }
    match FirnEnt.decode (firnSlot d k) with
    | some _ => (s, d, false)
    | none => s.emptySlot n a d k 6

/-- Line `j` of a set has arrived, with what the checks of its slots found. -/
def State.gotLine (s : State) (n : Hs) (id j : Nat) (d : Line) (err : List (Nat × EccErr)) : State :=
  match (s.slice n).facc.find? fun a => a.id == id with
  | none => s
  | some a =>
    let scrub := a.kind == .scrub
    let (s, d, dirty) := (List.range 4).foldl (fun (p : State × Line × Bool) k =>
      let (s, d, b) := p.1.checkSlot n a j err scrub p.2.1 k
      (s, d, p.2.2 || b)) (s, d, false)
    let a := { a with got := tPut a.got j d, dirty := if dirty then a.dirty ++ [j] else a.dirty }
    let s := s.modSlice n fun x => { x with facc := updWhere (fun b => b.id == id) (fun _ => a) x.facc }
    if a.got.length = 4 then s.accReady n a else s

/-- One line of a set has been written. -/
def State.wroteLine (s : State) (n : Hs) (id : Nat) : State :=
  match (s.slice n).facc.find? fun a => a.id == id with
  | none => s
  | some a =>
    let a := { a with wleft := a.wleft - 1 }
    let s := s.modSlice n fun x => { x with facc := updWhere (fun b => b.id == id) (fun _ => a) x.facc }
    match a.kind with
    | .agency dest acc => s.send (hsStop n) (hsStop dest) .dat false (.agRsp n dest acc a.ci a.fl [])
    | .move => if a.wleft = 0 then s.publishMove n a else s.moveWrite n a (4 - a.wleft)
    | _ => if a.wleft = 0 then s.flushAcc n a else s

/-! ### Completions of rime changes -/

/-- What a rime change completes (R74, R83, R160). -/
def State.rimeDone (s : State) (n : Hs) (tag : Nat) (ci : Ci) : State :=
  match (s.slice n).rimeQ.find? fun r => r.tag == tag with
  | none => s
  | some r =>
    let mine (v : VbEnt) : Bool := v.set == lineSet r.lix && v.ent.tag == lineTag r.lix
    let s := match r.why with
      | .vbTracked => (s.modSlice n fun x => { x with vb := updWhere mine (fun v => { v with rtrk := false }) x.vb }).vbSweep n
      | .vbClear => (s.modSlice n fun x => { x with vb := updWhere mine (fun v => { v with rclr := false }) x.vb }).vbSweep n
      | .trk t =>
        match s.trk n t with
        | some x => if x.job.isSome && x.ph == Ph.rimeChg then s.endTrk n t else s
        | none => s
      | .poison (some t) => s.poisoned n t
      | _ => s
    s.popRime n ci r.lix

end Sys2Proof.Machine
end

