-- ==== Sys2Proof/Machine/Home.lean ====
section
/-!
DEFINITION. A home slice and its requesters: snoop answers (R122 to R124, R155, R156), agent failure and the loss of a session
(R133, R163, R166, R320, R328), admission (R102 to R107, R256), writebacks (R104), and the forwarding of a fold (R379 to R381).
-/

namespace Sys2Proof.Machine

open Sys2Proof

/-! ### Snoop answers -/

/-- The state an answer records, where R122 allows it for the form. -/
def SForm.allows : SForm → SRsp → Bool
  | .snpInv, .rspI => true
  | .snpData, .rspI => true
  | .snpData, .rspS => true
  | .snpCur, _ => true
  | _, _ => false

/-- The owner's entry after its answer, the lower of entry and answer (R122, R124). -/
def Dir.answered (d : Dir) (c : Cax) : SRsp → Dir
  | .rspI => d.drop c
  | .rspS => if d.st = DSt.exo && d.names c then Dir.shared [c] else d
  | .rspE => d

/-- `RSPACK` for an answer that names a credit (R156). -/
def State.rspAck (s : State) (n : Hs) (a : SAns) : State :=
  if a.wbw then s.send (hsStop n) (psStop a.ps) .rsp true (.rspack n a.ps a.wbc) else s

/-- An answer with no snoop to answer is discarded and counted (R132). -/
def State.lateRsp (s : State) (n : Hs) (a : SAns) : State := (s.rspAck n a).bump (hsCtr n 5)

/-- The last answer of a request lets it go on. -/
def State.ifAnswered (s : State) (n : Hs) (t : Nat) : State :=
  match s.trk n t with
  | none => s
  | some x => if x.ph == Ph.snoop && x.snps.isEmpty then s.afterSnoops n t else s

/-- Applies an answer to the request that sent the snoop (R155). -/
def State.applyAns (s : State) (n : Hs) (t : Nat) (a : SAns) : State :=
  match s.trk n t with
  | none => s.lateRsp n a
  | some x =>
    match x.snps.find? fun o => o.cax == a.cax with
    | none => s.lateRsp n a
    | some o =>
      let s := s.rspAck n a
      let ok := o.form.allows a.rsp
      let s := if ok then s else
        match s.caxAgent a.cax with
        | some (rq, _) => s.faultEv 2 { chk := 7, chn := rq } (hsStop n) 0x0B (some x.req.lix) (some x.req.ci) (some rq)
        | none => s
      let r := if ok then a.rsp else .rspI
      let s := s.modTrk n t fun y => { y with snps := y.snps.filter fun p => p.cax != a.cax }
      let s :=
        if x.bc then s.modTrk n t fun y => { y with bcS := y.bcS || (r == .rspS && o.wb != some .i) }
        else if x.dir.st = DSt.exo && x.job.isNone then
          let cur := match (s.slice n).find x.req.lix with
            | some (_, e) => e.live
            | none => Dir.inv
          s.modTrk n t fun y => { y with res := some (cur.answered a.cax r) }
        else s
      s.ifAnswered n t

/-- Applies the parked answers that name a credit whose writeback has now been admitted, or refused (R104, R155). -/
def State.applyParked (s : State) (n : Hs) (ps : Stn) (wbc : BitVec 4) (wbg : Bool) : State :=
  let l := (s.slice n).trk.flatMap fun x => x.snps.filterMap fun o =>
    match o.parked with
    | some a => if a.ps == ps && a.wbc == wbc && a.wbg == wbg then some (x.id, a) else none
    | none => none
  l.foldl (fun s p => s.applyAns n p.1 p.2) s

/-- R133, R166: a snoop counts as answered without an answer. An owner's line is poisoned, a sharer holds nothing. -/
def State.dropSnoop (s : State) (n : Hs) (t : Nat) (c : Cax) : State :=
  match s.trk n t with
  | none => s
  | some x =>
    if !(x.snps.any fun o => o.cax == c) then s
    else
      let parked := x.snps.filterMap fun o => if o.cax == c then o.parked else none
      let s := parked.foldl (fun s a => s.rspAck n a) s
      let s := s.modTrk n t fun y => { y with snps := y.snps.filter fun p => p.cax != c }
      let ent := (s.slice n).find x.req.lix
      let owner := match ent with
        | some (_, e) => (e.st == DSt.exo && e.dir.names c) || (match x.job.bind (·.firn) with | some d => d.st == DSt.exo && d.names c | none => false)
        | none => x.job.isSome && x.dir.st == DSt.exo && x.dir.names c
      if owner then
        let wait := x.job.isSome && x.req.cls != Cls.zfill
        let s := s.poisonLine n x.req.ci x.req.kind x.req.lix x.req.mpid (x.rime == some .clear) (if wait then some t else none)
        let hit (v : VbEnt) : Bool := v.set == lineSet x.req.lix && v.ent.tag == lineTag x.req.lix
        if wait then s.modSlice n fun y => { y with vb := y.vb.map fun v => if hit v then { v with calve := false } else v }
        else s.rule117 n t Dir.psn
      else
        let s := if x.dir.st = DSt.exo && !x.bc && x.job.isNone then
            match ent with
            | some (_, e) => s.modTrk n t fun y => { y with res := some (e.live.drop c) }
            | none => s.modTrk n t fun y => { y with res := some Dir.inv }
          else s
        s.ifAnswered n t

/-! ### Sessions -/

/-- The memberships of an agent (R251). -/
def State.memberOf (s : State) (rq : Rqid) : List Ci :=
  let l := (s.irt.filter fun e => e.rqid == rq).map fun e => e.ci
  let l := match s.agent rq with
    | some a => (match a.bind with | some (c, _) => c :: l | none => l)
    | none => l
  l.eraseDups

/-- Every snoop outstanding to an agent counts as answered (R166). -/
def State.dropAll (s : State) (c : Cax) : State :=
  s.slices.foldl (fun s p =>
    let n : Hs := BitVec.ofNat 5 p.1
    p.2.trk.foldl (fun s x => s.dropSnoop n x.id c) s) s

/-- `DFREE` for a message that the port station gives up. -/
def State.freeMsg (s : State) (p : Stn) (r : Req) : State :=
  match r.dst with
  | some d => s.emit (.dord p d .dfree false)
  | none => s

/-- `RQID` of a request word (R504). -/
def wRq (w : BitVec 160) : Rqid := w.extractLsb' 11 12

/-- The loss of a session at its port station (R163): a message accepted but not injected is given up, with `DFREE` and no completion.
DESIGN CHOICE (log entry 77): the spec only says that it is not injected. -/
def State.dropMsgs (s : State) (p : Stn) (rq : Rqid) : State :=
  let x := s.ps p
  let lost := x.msgs.filter fun m => m.req.rqid == rq && !m.old && m.st != .injected
  let s := lost.foldl (fun s m => (s.freeMsg p m.req).genDec m.req.ci m.req.gen) s
  let s := (x.pieces.filter fun w => wRq w == rq).foldl (fun s w => s.emit (.dord p (w.extractLsb' 91 16) .dfree false)) s
  s.modPs p fun y => { y with
    msgs := (y.msgs.filter fun m => !(m.req.rqid == rq && !m.old && m.st != .injected)).map fun m =>
      if m.req.rqid == rq then { m with old := true } else m,
    pieces := y.pieces.filter fun w => wRq w != rq,
    held := y.held.filter fun h => h.rqid != rq }

/-- The loss of a session (R166, R320, R321, R328); of an agent already held out it starts no sweep, and a link reset lets it in again
once the sweep has ended. `fail`: by grace expiry or a declared failure (R317). -/
def State.loseSession (s : State) (rq : Rqid) (fail : Bool) : State :=
  match s.agent rq with
  | none => s
  | some a =>
    let s := s.bump 0xEA3
    match a.lst with
    | .offline => s.setAgent rq { a with sess := a.sess + 1, rdm := false }
    | .held =>
      let s := s.setAgent rq { a with sess := a.sess + 1, rdm := fail }
      let s := match a.cax with
        | some c => s.dropAll c
        | none => s
      if !fail && !a.swp && !a.retired then s.later 1 (.credits rq) else s
    | _ =>
      let s := { s with be := { s.be with losses := s.be.losses ++ [rq] } }
      let s := s.setAgent rq { a with lst := .held, swp := true, rdm := fail, sess := a.sess + 1, grace := none, lostMem := s.memberOf rq }
      let s := s.modLport a.lport fun l => { l with held := true }
      let s := s.dropMsgs (a.lport.extractLsb' 7 3) rq
      match a.cax with
      | some c => s.dropAll c
      | none => s

/-- R133: an agent is declared failed, counted against its channel (R480), its session lost. -/
def State.failAgent (s : State) (n : Hs) (c : Cax) (lix : Lix) (ci : Ci) : State :=
  match s.caxAgent c with
  | none => s.dropAll c
  | some (rq, _) =>
    let s := ((s.bump (hsCtr n 4)).bump 0xEA4).faultEv 3 { chk := 7, chn := rq } (hsStop n) 0x0C (some lix) (some ci) (some rq)
    (s.loseSession rq true).dropAll c

/-! ### The general reservation (R102, R106, R256) -/

def Trk.isGeneral (t : Trk) : Bool := t.resv == .general || t.resv == .senior

def Slice.heldBy (x : Slice) (c : Ci) : Nat := (x.trk.filter fun t => t.isGeneral && t.req.ci == c).length

/-- Entries that the unused floors of the other instances claim (R256). -/
def State.owed (s : State) (n : Hs) (c : Ci) : Nat :=
  (s.insts.map fun p =>
    if p.1 = c.toNat || p.2.st = .free then 0 else p.2.trkMin - (s.slice n).heldBy (BitVec.ofNat 6 p.1)).sum

/-- The reservation that a general request may take an entry from, if any (R105, R106, R256). -/
def State.generalEntry (s : State) (n : Hs) (c : Ci) (tries : Nat) : Option Resv :=
  let x := s.slice n
  let i := s.inst c
  let h := x.heldBy c
  let free := 768 - (x.trk.filter fun t => t.resv == .general).length
  if h ≥ i.trkMax then none
  else if (decide (h < i.trkMin) && decide (free > 0)) || (decide (h ≥ i.trkMin) && decide (free > s.owed n c)) then some .general
  else if tries ≥ 8 && (x.trk.filter fun t => t.resv == .senior).length < 32 then some .senior
  else none

/-! ### Fold: requests at a source (R379 to R381) -/

/-- How a fold treats a line at this slice: not at all, refused while its set is handed over, or forwarded. -/
inductive FoldAct where
  | own
  | refuse
  | forward (dest : Hs)
  deriving DecidableEq, Repr

/-- A migration step that covers the set is outstanding. -/
def State.handing (s : State) (set : BitVec 14) : Bool :=
  s.be.ops.any fun o => o.kind == .fold && o.outst.any fun st => st.pos == set.toNat / 2

def State.foldAct (s : State) (n : Hs) (l : Lix) : FoldAct :=
  match s.fold with
  | none => .own
  | some f =>
    let src := homeOf f.oldMap l
    let dst := homeOf f.newMap l
    if !f.started || src != n || src == dst then .own
    else if f.flipped then .forward dst
    else if s.handing (lineSet l) then .refuse
    else if (s.slice n).moved.contains (lineSet l) then .forward dst
    else .own

/-- Where a writeback-class message for a line goes on to: its set has been handed over (R380). -/
def State.wbAct (s : State) (n : Hs) (l : Lix) : Option Hs :=
  match s.fold with
  | none => none
  | some f =>
    let src := homeOf f.oldMap l
    let dst := homeOf f.newMap l
    if f.started && src == n && src != dst && (f.flipped || (s.slice n).moved.contains (lineSet l)) then some dst else none

/-- Forwarded writeback-class messages at a destination not yet reported freed: at most 8 (R380). -/
def State.fwdWb (s : State) (n d : Hs) : Nat :=
  ((s.slice n).trk.filter fun t => t.req.fwd && homeOf (match s.fold with | some f => f.newMap | none => s.smap) t.req.lix == d).length

/-! ### Refusals and admission -/

/-- A general request is refused by `RETRY`, or a transaction engine's UNC access sent back (R105, R186). -/
def State.refuseReq (s : State) (n : Hs) (r : Req) : State :=
  let r := { r with tries := r.tries + 1 }
  let s := (s.bump (hsCtr n 1)).bumpI r.ci 0x02
  match r.src with
  | .ps p => s.sendPs n none r.lix p (.retry r)
  | .te e => s.send (hsStop n) (teStop e) .rsp false (.uncRetry e r)
  | .internal => s

/-- Admits a general request into its chain, or refuses it (R105 to R107). -/
def State.admitGeneral (s : State) (n : Hs) (r : Req) : State :=
  match s.generalEntry n r.ci r.tries with
  | none => s.refuseReq n r
  | some v =>
    let s := (s.bump (hsCtr n 0)).bumpI r.ci 0x01
    let s := s.addTrk n v true r
    let s := if r.rwr then
        match r.src with
        | .ps p => s.sendPs n none r.lix p (.wradm n p r.mid)
        | _ => s
      else s
    s

/-- The writeback credit's generation last admitted or refused (R153). -/
def admgKey (p : Stn) (c : BitVec 4) : Nat := p.toNat * 16 + c.toNat
def Slice.admgOf (x : Slice) (p : Stn) (c : BitVec 4) : Bool := (tGet x.admg (admgKey p c)).getD false
def State.setAdmg (s : State) (n : Hs) (p : Stn) (c : BitVec 4) (g : Bool) : State :=
  s.modSlice n fun x => { x with admg := tPut x.admg (admgKey p c) g }

/-- R104's two ways in which an `MW` is a writeback: 1, the owner's entry; 2, a snoop outstanding to the requester where the
line has no entry or a BCS one. -/
def State.wbWay (s : State) (n : Hs) (r : Req) : Nat :=
  let ent := (s.slice n).find r.lix
  let own := match ent with
    | some (_, e) => e.st == DSt.exo && e.dir.owner == r.cax
    | none => false
  if own then 1
  else
    let open2 := match ent with
      | some (_, e) => e.st == DSt.bcs
      | none => true
    if open2 && (s.slice n).trk.any fun x => x.active && x.req.lix == r.lix && x.snps.any fun o => o.sent && some o.cax == r.cax then 2 else 0

/-- The owner's entry after its writeback (R117 `WB`, R124). -/
def wbDir (m : MVal) (d : Dir) (c : Cax) : Dir :=
  match m with
  | .a => d
  | .s => Dir.shared [c]
  | .i => d.drop c

/-- Whose port station a request came from. -/
def Req.station (r : Req) : Stn := match r.src with | .ps p => p | _ => 0

/-- The reservation of a writeback-class message: at a fold's destination a forwarded one takes a reserved entry (R380). -/
def Req.wbResv (r : Req) : Resv := if r.fwd then .internal else .writeback

/-- Frees a writeback entry without a message of its own: the credit returns by `WBCR` (R103), or the source frees its
entry when it hears of it (R380). -/
def State.wbFree (s : State) (n : Hs) (r : Req) : State :=
  if r.fwd then
    match s.fold with
    | some f => s.send (hsStop n) (hsStop (homeOf f.oldMap r.lix)) .rsp false (.fwdFreed (homeOf f.oldMap r.lix) n r)
    | none => s
  else s.sendPs n none r.lix r.station (.wbcr n r.station r.wbc)

/-- Records the admission of a writeback-class message and applies the answers parked on it (R153, R155). -/
def State.admitted (s : State) (n : Hs) (r : Req) : State :=
  if r.fwd then s else (s.setAdmg n r.station r.wbc r.wbg).applyParked n r.station r.wbc r.wbg

/-- The owner's or a sharer's entry changed by a writeback-class message (R117). -/
def State.wbChange (s : State) (n : Hs) (t : Nat) (r : Req) (f : Dir → Dir) : State :=
  match (s.slice n).find r.lix with
  | some (_, e) => (s.setDir n t r.ci r.lix (f e.dir)).getD s
  | none => s

/-- An `MW` whose line is its instance's: a writeback, or a write (R104). -/
def State.placeMw (s : State) (n : Hs) (r : Req) : State :=
  match s.wbWay n r with
  | 0 =>
    let s := match s.generalEntry n r.ci r.tries with
      | some v => (s.addTrk n v true { r with cls := .wr, fwd := false }).wbFree n r
      | none =>
        let s := ((s.bump (hsCtr n 1)).bumpI r.ci 0x02).sendPs n none r.lix r.station
          (.retry { r with cls := .wr, rwr := true, tries := r.tries + 1 })
        if r.fwd then s.wbFree n r else s
    s.admitted n r
  | way =>
    let t := (s.slice n).seq
    let s := s.addTrk n r.wbResv false { r with cls := .wb } fun x => { x with active := true, known := true, hadE := true }
    let s :=
      if way = 1 then s.wbChange n t r fun d => wbDir r.mval d (r.cax.getD 0)
      else
        let g (o : SnpOut) : SnpOut := if some o.cax == r.cax then { o with wb := some r.mval } else o
        s.modSlice n fun x => { x with trk := updWhere (fun y => y.req.lix == r.lix) (fun y => { y with snps := y.snps.map g }) x.trk }
    (s.doWrite n t).admitted n r

/-- An `MW` at its home. -/
def State.admitMw (s : State) (n : Hs) (r : Req) : State :=
  let s := (s.bump (hsCtr n 0)).bumpI r.ci 0x01
  match (s.slice n).find r.lix with
  | some (l, e) =>
    if e.ci != r.ci then
      let t := (s.slice n).seq
      ((s.addTrk n r.wbResv false { r with cls := .wb }).refuse73 n t).admitted n r
    else (s.touch n l).placeMw n r
  | none => s.placeMw n r

/-- A `CLN` at its home (R117): the agent is removed, `DFREE` and `Cmp` are sent. -/
def State.admitCln (s : State) (n : Hs) (r : Req) : State :=
  let t := (s.slice n).seq
  let s := ((s.bump (hsCtr n 0)).bumpI r.ci 0x01).addTrk n r.wbResv false r fun x => { x with active := true, known := true, hadE := true }
  let s := match (s.slice n).find r.lix, r.cax with
    | some (l, e), some c =>
      if e.ci != r.ci then s.refuse73 n t
      else
        let s := s.touch n l
        (if e.dir.names c then s.wbChange n t r (fun d => d.drop c) else s).cmpWrite n t .dfree
    | _, _ => s.cmpWrite n t .dfree
  s.admitted n r

/-- A `BIC` at its home (R134). -/
def State.admitBic (s : State) (n : Hs) (r : Req) : State :=
  let t := (s.slice n).seq
  let s := ((s.bump (hsCtr n 0)).bumpI r.ci 0x01).addTrk n r.wbResv false r fun x => { x with active := true, known := true, hadE := true }
  match s.trk n t with
  | some x => s.complete n t { x.mkCpl n .dfree .i .done with wbc := if r.fwd then none else some r.wbc, bicAck := true }
  | none => s

/-- A writeback-class message for a line that has moved: admitted here and forwarded, within 8 credits (R380). -/
def State.fwdWriteback (s : State) (n d : Hs) (r : Req) : State :=
  let r := { r with fwd := true }
  let s := s.addTrk n .writeback false r
  let s := if r.cls = Cls.bic then s else (s.setAdmg n r.station r.wbc r.wbg).applyParked n r.station r.wbc r.wbg
  if s.fwdWb n d ≤ 8 then s.send (hsStop n) (hsStop d) .req false (.fwd n d r true) (some (r.itk, r.urg))
  else s.modSlice n fun x => { x with fwdQ := x.fwdQ ++ [r] }

/-- Whether a slice takes packets: its logic domain works and the block has not halted (R369, R492). -/
def State.hsUp (s : State) (n : Hs) : Bool :=
  s.works (hsDom n) && (match s.halt with | .halted _ => false | _ => true)

def stopHs (st : Stop) : Hs := BitVec.ofNat 5 (st.toNat - 8)

/-- The packet in place `k`, ejected at a home slice that takes packets. -/
def State.recvHs {α : Type} (s : State) (k : Nat) (sel : Msg → Option α) : Option (α × Hs × State) :=
  match s.recv k sel with
  | some (a, p, s') =>
    if decide (8 ≤ p.dst.toNat) && decide (p.dst.toNat < 40) && s.hsUp (stopHs p.dst) then some (a, stopHs p.dst, s') else none
  | none => none

end Sys2Proof.Machine
end

