-- ==== Sys2Proof/Machine/Power.lean ====
section
/-!
DEFINITION. Power domains (R362 to R374): the two domains of a slice as one, idleness, and the start of a freeze or thaw.
-/

namespace Sys2Proof.Machine

open Sys2Proof

/-- The domains that one command acts on: both of a slice, else the one (R363, R469). -/
def domPair (d : BitVec 7) : List (BitVec 7) :=
  if d.toNat < 32 then [d, d + 32] else if d.toNat < 64 then [d - 32, d] else [d]

/-- The slice of a slice domain. -/
def domHs (d : BitVec 7) : Hs := d.setWidth 5

/-- The stop of a domain's unit (R15). -/
def domStop (d : BitVec 7) : Stop :=
  if d.toNat < 64 then hsStop (domHs d)
  else if d.toNat < 72 then psStop (d.setWidth 3)
  else if d.toNat < 80 then msStop (d.setWidth 3)
  else BitVec.ofNat 6 (48 + (d.toNat - 80) + (if d.toNat ≥ 83 then 1 else 0))

/-- The unit of a domain has nothing in work (R369 step 2). -/
def State.unitIdle (s : State) (d : BitVec 7) : Bool :=
  let n := d.toNat
  if n < 64 then
    let x := s.slice (domHs d)
    x.trk.isEmpty && x.vb.isEmpty && x.plb.isEmpty && x.facc.isEmpty && x.rimeQ.isEmpty && x.fwdQ.isEmpty && x.install.isEmpty
  else if n < 72 then
    let x := s.ps (d.setWidth 3)
    x.msgs.isEmpty && x.pieces.isEmpty && x.snq.isEmpty && x.held.isEmpty && x.gpf.isEmpty
  else if n < 80 then (s.ms (d.setWidth 3)).cmds.isEmpty
  else if n = 80 || n = 81 then
    let t := s.te (n == 81)
    t.grps.isEmpty && t.runs.isEmpty && t.aopq.isEmpty && t.copies.isEmpty
  else if n = 82 then s.be.ops.isEmpty && s.be.sweeps.isEmpty
  else true

/-- No packet in flight is addressed to the stop (R368). -/
def State.noneTo (s : State) (st : Stop) : Bool := s.mesh.pkts.all fun p => p.dst != st

/-- R369 step 1 for a set of domains: FREEZING at phase 0 of the next tick. -/
def State.startFreeze (s : State) (ds : List (BitVec 7)) (toRet force : Bool) : State :=
  ds.foldl (fun s d =>
    let s := s.modDom d fun x => { x with force := force, fenced := false, forced := false, dl := none, t1 := s.clk.tick + 1,
                                          toRet := toRet && decide (32 ≤ d.toNat) && decide (d.toNat < 64) }
    s.later 1 (.dom d .freezing)) s

/-- R373 step 1 for a set of domains: THAWING and `PD_REQ` = 1 at phase 0 of the next tick, the timer from the tick after. -/
def State.startThaw (s : State) (ds : List (BitVec 7)) : State :=
  ds.foldl (fun s d =>
    let s := s.modDom d fun x => { x with counted := false, fenced := false, ack := false, good := false,
                                          dl := some (s.clk.tick + 2 + BitVec.ofNat 48 s.params.pgTmo) }
    (s.later 1 (.dom d .thawing)).later 1 (.domSig d none none (some true))) s

/-- A thaw of the domain has been started and has not yet begun. -/
def State.thawDue (s : State) (d : BitVec 7) : Bool :=
  s.sched.any fun e => match e.2 with | .dom x .thawing => x == d | _ => false

/-- The unit of a domain is out of service: its stop's router is fenced or retired (R353); it stays OFF (R487). -/
def State.stopOut (s : State) (d : BitVec 7) : Bool := (s.mesh.bank s.mesh.rtep).lost (domStop d)

/-- R374: the MC thaws BE before it queues a bulk operation. -/
def State.wakeBe (s : State) : State :=
  if (s.dom 82).st == .off && !s.thawDue 82 && !s.stopOut 82 then s.startThaw [82] else s

end Sys2Proof.Machine
end

