-- ==== Sys2Proof/Machine/Bulk.lean ====
section
/-!
DEFINITION. The shared engines' arbitration and the bulk engine's operations (R288 to R310, R384): which queue requests, the
draw, cuts, the lines and sets of each step.
-/

namespace Sys2Proof.Machine

open Sys2Proof

/-! ### Steps of an operation (R309) -/

def sfSteps : Nat := 8192

/-- The firns that a sweep walks after its SF phase: each instance with the steps of its firn. -/
def State.sweepFirns (s : State) (o : BulkOp) : List (Ci × Nat) :=
  let cis := match o.kind with
    | .agentLoss _ _ l => l
    | _ => [o.ci]
  (cis.filter fun c => (s.inst c).hasFirn).map fun c => (c, 2 ^ ((s.inst c).firnLog2 - 5))

/-- The step of a sweep beyond its SF phase: the instance and the set of each logical slice. -/
def firnStep : List (Ci × Nat) → Nat → Option (Ci × Nat)
  | [], _ => none
  | (c, n) :: r, k => if k < n then some (c, k) else firnStep r (k - n)

/-- COH lines of an instance as ranges in ascending order. -/
def insRange (x : Nat × Nat) : List (Nat × Nat) → List (Nat × Nat)
  | [] => [x]
  | y :: r => if x.1 < y.1 then x :: y :: r else y :: insRange x r

def Inst.cohRanges (i : Inst) : List (Nat × Nat) :=
  (i.regions.filter fun p => p.2.kind == .coh).foldl (fun l p => insRange (p.2.lo, p.2.hi) l) []

def rangesLen (l : List (Nat × Nat)) : Nat := (l.map fun p => p.2 + 1 - p.1).sum

/-- The `k`-th line of a list of ranges. -/
def rangesAt : List (Nat × Nat) → Nat → Option Nat
  | [], _ => none
  | (a, b) :: r, k => if a + k ≤ b then some (a + k) else rangesAt r (k - (b + 1 - a))

/-- The COH lines that an SF rebuild visits: every instance not FREE, ascending (R490). -/
def State.allRanges (s : State) : List (Ci × Nat × Nat) :=
  (s.insts.filter fun p => p.2.st != .free).flatMap fun p => p.2.cohRanges.map fun r => ((BitVec.ofNat 6 p.1 : Ci), r.1, r.2)

def allLen (l : List (Ci × Nat × Nat)) : Nat := (l.map fun p => p.2.2 + 1 - p.2.1).sum
def allAt : List (Ci × Nat × Nat) → Nat → Option (Ci × Nat)
  | [], _ => none
  | (c, a, b) :: r, k => if a + k ≤ b then some (c, a + k) else allAt r (k - (b + 1 - a))

/-- Total extent of an operation in positions: steps, or lines for those that walk lines. -/
def State.opExtent (s : State) (o : BulkOp) : Nat :=
  match o.kind with
  | .region _ _ | .agentRecall _ | .agentLoss _ _ _ => sfSteps + ((s.sweepFirns o).map fun p => p.2).sum
  | .zfillCoh lo hi _ => hi + 1 - lo
  | .zfillFirn => if (s.inst o.ci).firnLog2 = 0 then 0 else 2 ^ ((s.inst o.ci).firnLog2 - 4) + 1
  | .zfillRt m => match s.port m with
    | some p => p.size.toNat
    | none => 0
  | .fold | .resync | .drop407 => sfSteps
  | .firnRebuild | .walk => rangesLen (s.inst o.ci).cohRanges
  | .sfRebuild _ => allLen s.allRanges
  | .rotate => o.total

/-- The operation has steps still to issue. -/
def State.opMore (s : State) (o : BulkOp) : Bool :=
  o.ended.isNone && !o.stopped && (!o.again.isEmpty || decide (o.pos < s.opExtent o))

/-- The operation has issued every step and each has completed, or it has stopped and its steps have. -/
def State.opDone (s : State) (o : BulkOp) : Bool := !s.opMore o && o.outst.isEmpty

/-! ### Queues (R288, R289, R293) -/

/-- The operation of a BE queue whose steps are issued next: the first, in command order, that has steps still to issue. -/
def State.beHead (s : State) (q : Nat) : Option BulkOp :=
  match s.be.ops.find? fun o => o.q == q && s.opMore o with
  | some o => some o
  | none => s.be.ops.find? fun o => o.q == q

/-- Queue `q` of an engine requests the grant (R289). A copied group, an AtomicOp or a descriptor is work of a TE queue; a descriptor
whose copy has begun holds its record. -/
def State.requests (s : State) (e : Eng) (q : Nat) : Bool :=
  match e with
  | .be => s.be.ops.any fun o => o.q == q && s.opMore o
  | _ =>
    let b := e == .te1
    let t := s.te b
    let c : Ci := BitVec.ofNat 6 q
    let i := s.inst c
    let g := i.gq b
    decide (q < 64) && (i.st == .active || i.st == .draining) && (s.arb e).en && s.works (teDom b) &&
      ((t.grps.any fun x => x.ci == c && x.st == .copied) || (t.aopq.any fun r => r.ci == c) ||
       (i.st == .active && g.en && g.cons != g.pacc && (g.recFree || t.copies.any fun x => x.ci == c)))

def Inst.tkt (i : Inst) : Eng → Nat
  | .te0 => i.tkt0
  | .te1 => i.tkt1
  | .be => i.tktB

def State.tkt (s : State) (e : Eng) (q : Nat) : Nat :=
  if q = 64 then s.params.sysTkt else (s.inst (BitVec.ofNat 6 q)).tkt e

/-- The queues of an engine in ascending order. -/
def engQueues (e : Eng) : List Nat := if e = .be then List.range 65 else List.range 64

/-- The first queue at which the running sum of tickets exceeds `w` (R292). -/
def pickWinner : List (Nat × Nat) → Nat → Option Nat
  | [], _ => none
  | (q, t) :: r, w => if w < t then some q else pickWinner r (w - t)

/-- The requesting queues with their tickets: what a draw of this cycle sees where the cycle starts (R294). -/
def State.reqLines (s : State) (e : Eng) : List (Nat × Nat) :=
  ((engQueues e).filter fun q => s.requests e q).map fun q => (q, s.tkt e q)

/-- R292, R293: the queue that a draw, or BE's grant without one, chooses among the queues that requested at the start of the cycle,
but for the one whose grant is ending (R295). -/
def State.draw (s : State) (e : Eng) (excl : Option Nat) : Option Nat :=
  let l := (s.arb e).req.filter fun p => excl != some p.1
  match l.filter fun p => decide (p.2 > 0) with
  | [] => if e = .be && l.any (fun p => p.1 == 64) then some 64 else none
  | d => pickWinner d ((s.arb e).lfsr.toNat * (d.map fun p => p.2).sum / 2 ^ 32)

/-! ### Grants (R294 to R303) -/

def State.holdMax (s : State) : Eng → Nat
  | .te0 => s.params.hm0
  | .te1 => s.params.hm1
  | .be => s.params.hmB

/-- `HEST` of a queue (R303). -/
def State.hest (s : State) (e : Eng) (q : Nat) : Nat :=
  match tGet (s.arb e).hest q with
  | some h => h
  | none => 4 * (if q < 64 then (s.inst (BitVec.ofNat 6 q)).imean else 0) + 8

/-- The grant of an engine begins; so does its watchdog's timer, with the limit set now (R294, R296). -/
def State.grantTo (s : State) (e : Eng) (q : Nat) : State :=
  let dl := if s.holdMax e = 0 then none else some (s.timer (s.holdMax e))
  s.modArb e fun a => { a with holder := some q, start := s.clk, dl := dl, ending := false, cut := false, won := none }

/-- A step outstanding at a cut is run again from its beginning once its started work has completed (R310). -/
def BulkOp.cutOp (o : BulkOp) : BulkOp := { o with outst := o.outst.map fun st => { st with todo := [], more := true, cut := true } }

/-- A cut takes effect: groups before their commit point, or the steps of the bulk operation (R299, R310). -/
def State.cutWork (s : State) (e : Eng) (q : Nat) : State :=
  match e with
  | .te0 => s.preempt false (BitVec.ofNat 6 q)
  | .te1 => s.preempt true (BitVec.ofNat 6 q)
  | .be =>
    let mine (o : BulkOp) : Bool := o.q == q || q == 65
    let f (o : BulkOp) : BulkOp := if mine o then o.cutOp else o
    let s := s.bumpN 0xE43 (((if q = 65 then s.be.sweeps else s.be.ops).filter mine).map fun o => o.outst.length).sum
    { s with be := if q = 65 then { s.be with sweeps := s.be.sweeps.map f } else { s.be with ops := s.be.ops.map f } }

/-- Whole ticks from one moment to a later one. -/
def Clk.ticksTo (a b : Clk) : Nat := (16 * (b.tick - a.tick).toNat + b.phase.toNat - a.phase.toNat) / 16

/-- The grant has ended: `HEST` of its queue (R303). -/
def State.endGrant (s : State) (e : Eng) : State :=
  match (s.arb e).holder with
  | none => s
  | some q =>
    let len := (s.arb e).start.ticksTo s.clk
    let h := s.hest e q
    let h' := if len ≥ h then h + (len - h) / 16 else h - (h - len + 15) / 16
    s.modArb e fun a =>
      { a with holder := none, dl := none, ending := false, cut := false, hest := if q = 65 then a.hest else tPut a.hest q h' }

/-- What an arbiter does as a core cycle begins: a grant whose last cycle has passed ends, with what its cut takes away (R202, R299), and
the grant drawn in that cycle begins (R294). -/
def State.arbTurn (s : State) (e : Eng) : State :=
  let a := s.arb e
  let s := if a.ending then (match a.holder, a.cut with
      | some q, true => s.cutWork e q
      | _, _ => s).endGrant e else s
  match a.won with
  | some q => s.grantTo e q
  | none => s

/-- The operation of BE's current grant. -/
def State.granted (s : State) : Option BulkOp := match s.arbB.holder with | some q => s.beHead q | none => none

/-- The work of the grant of a disabled engine has ended (R306). -/
def State.engIdle (s : State) (e : Eng) : Bool :=
  let te (t : Te) : Bool := t.grps.all (fun g => g.st == .ret || g.st == .ph) && t.runs.isEmpty
  let idle (a : Arb) : Bool := a.holder.isNone && a.won.isNone
  match e with
  | .te0 => idle s.arb0 && te s.te0
  | .te1 => idle s.arb1 && te s.te1
  | .be => idle s.arbB && s.be.ops.all fun o => o.ended.isSome || (!s.opMore o && o.outst.isEmpty)

/-- Disables that wait for the work of a grant are answered once it has ended. -/
def State.engEnds (s : State) : State :=
  s.mc.longs.foldl (fun s l => match l.job with
    | .engDisable e => if s.engIdle e then s.finish l.cmd .done else s
    | _ => s) s

/-- Steps still to issue of the recovery sweep that holds BE (R303). -/
def State.sweepLeft (s : State) : Nat :=
  match s.be.sweeps with
  | o :: _ => s.opExtent o - o.pos + o.again.length
  | [] => 0

/-- R304: the wait hint of a queue. -/
def State.hint (s : State) (e : Eng) (q : Nat) : Nat :=
  match (s.arb e).holder with
  | none => 0
  | some h =>
    if h = q then 0
    else if s.tkt e q = 0 then 65535
    else
      let comp := (((engQueues e).filter fun p => p != q && p != h && s.requests e p).map fun p => s.tkt e p).sum
      let hs := if h = 65 then s.sweepLeft else s.hest e h
      min 65535 (hs * (comp + (if h = 65 then 0 else s.tkt e h)) / s.tkt e q)

/-! ### Queueing (R293, R301, R306) -/

def BulkOp.mk' (id q : Nat) (k : BKind) (ci : Ci) (cmd : BitVec 512) (total : Nat) : BulkOp :=
  { id := id, q := q, kind := k, ci := ci, cmd := cmd, pos := 0, total := total, done := 0, outst := [], again := [], stopped := false, ended := none }

/-- Queues a bulk operation. On a disabled BE it ends at once: its end is then taken with `ENG_DISABLED` (R306). -/
def State.queueBulk (s : State) (sys : Bool) (k : BKind) (ci : Ci) (cmd : BitVec 512) (total : Nat := 0) : State :=
  let q := if sys || (s.inst ci).tktB = 0 then 64 else ci.toNat
  let o := BulkOp.mk' s.be.nextId q k ci cmd total
  let o := if s.arbB.en then o else { o with ended := some .engDisabled, stopped := true }
  ({ s with be := { s.be with ops := s.be.ops ++ [o], nextId := s.be.nextId + 1 } } : State).wakeBe

/-- The sweeps with one more: before the first whose session was lost later, but behind the one that runs (R301). -/
def insSweep (losses : List Rqid) (run : Bool) (o : BulkOp) (l : List BulkOp) : List BulkOp :=
  let at' (p : BulkOp) : Nat := losses.findIdx fun r => 4096 + r.toNat == p.q
  let now := if run then l.take 1 else []
  let rest := if run then l.drop 1 else l
  now ++ rest.takeWhile (fun p => decide (at' p ≤ at' o)) ++ [o] ++ rest.dropWhile (fun p => decide (at' p ≤ at' o))

/-- Queues a recovery sweep, in the order of the losses (R301). -/
def State.queueSweep (s : State) (rq : Rqid) (c : Cax) (cis : List Ci) : State :=
  let o := BulkOp.mk' s.be.nextId (4096 + rq.toNat) (.agentLoss c rq cis) 0 0 0
  ({ s with be := { s.be with sweeps := insSweep s.be.losses (s.arbB.holder == some 65) o s.be.sweeps, nextId := s.be.nextId + 1 } } : State).wakeBe

/-- An abort stops each operation of an instance at the end of its current step (R283 step 3, R285). -/
def State.stopBulk (s : State) (c : Ci) : State :=
  let f (o : BulkOp) : BulkOp :=
    if o.ci == c && o.kind != .fold && o.q != 64 || (o.ci == c && o.cmd != 0 && (match o.kind with
        | .region _ _ | .agentRecall _ | .zfillCoh _ _ _ | .zfillFirn | .firnRebuild | .rotate => true | _ => false))
    then { o with stopped := true, ended := some (o.ended.getD .aborted) } else o
  { s with be := { s.be with ops := s.be.ops.map f } }

/-! ### The lines of a step -/

/-- The active slices: those that the Slice Map names; during a fold, the departing and returning ones too. -/
def State.activeSlices (s : State) : List Hs :=
  let l := match s.fold with
    | some f => if f.started then f.oldMap ++ f.newMap else s.smap
    | none => s.smap
  (List.range 32).filterMap fun n => let h : Hs := BitVec.ofNat 5 n; if l.contains h then some h else none

/-- The entries of an instance (or, for a loss, of any) that the slice holds in two sets, its victim buffer included. -/
def Slice.inSets (x : Slice) (i : Nat) : List (Lix × SfEnt) :=
  let a : BitVec 14 := BitVec.ofNat 14 (2 * i)
  let f (set : BitVec 14) : List (Lix × SfEnt) :=
    ((x.ways set).map fun p => (p.2.lix set, p.2)) ++ ((x.vb.filter fun v => v.set == set).map fun v => (v.ent.lix v.set, v.ent))
  f a ++ f (a + 1)

def State.sfItems (s : State) (o : BulkOp) (i : Nat) : List BItem :=
  s.activeSlices.flatMap fun n =>
    ((s.slice n).inSets i).filterMap fun p =>
      if o.acts p.1 p.2 then some { hs := n, req := Req.internal o.kind.cls p.2.ci .coh p.1 (s.portOf p.1), job := o.kind.job none o.id i }
      else none

/-- The next lines of a walk: at most 64, ending before a third line of one slice that `use` takes. Answers the lines that
count and the positions passed. -/
def walkLines (at' : Nat → Option (Ci × Nat)) (home : Nat → Hs) (use : Ci → Nat → Bool) : Nat → Nat → List (Ci × Nat) → Nat → List (Ci × Nat) × Nat
  | 0, _, acc, n => (acc, n)
  | fuel + 1, k, acc, n =>
    match at' k with
    | none => (acc, n)
    | some (c, l) =>
      if use c l then
        if (acc.filter fun p => home p.2 == home l).length ≥ 2 then (acc, n)
        else walkLines at' home use fuel (k + 1) (acc ++ [(c, l)]) (n + 1)
      else walkLines at' home use fuel (k + 1) acc (n + 1)

def State.homeOfNat (s : State) (l : Nat) : Hs := s.homeNow (s.home (BitVec.ofNat 46 l)) (BitVec.ofNat 46 l)

/-- An internal request of a walk for one line. -/
def State.walkItem (s : State) (o : BulkOp) (cls : Cls) (kind : RKind) (rb : RbKind) (step : Nat) (p : Ci × Nat) : BItem :=
  let l : Lix := BitVec.ofNat 46 p.2
  { hs := s.homeOfNat p.2, req := Req.internal cls p.1 kind l (s.portOf l),
    job := { firn := none, cax := none, rb := rb, vb := false, acc := none, op := o.id, step := step } }

/-- The lines of a walking operation from position `k` on, and the position after them. -/
def State.walkStep (s : State) (o : BulkOp) (k : Nat) : List BItem × Nat :=
  match o.kind with
  | .zfillCoh lo hi kind =>
    let cls : Cls := match kind with | .coh => .zfill | .lease => .lwr | .unc => .uwr
    let r := walkLines (fun j => if lo + j ≤ hi then some (o.ci, lo + j) else none) s.homeOfNat (fun _ _ => true) 64 k [] 0
    (r.1.map (s.walkItem o cls kind .none k), k + r.2)
  | .firnRebuild =>
    let rs := (s.inst o.ci).cohRanges
    let r := walkLines (fun j => (rangesAt rs j).map fun l => (o.ci, l)) s.homeOfNat
      (fun c l => s.suspectFirn c (s.firnOf c (BitVec.ofNat 46 l))) 64 k [] 0
    (r.1.map (s.walkItem o .rebuild .coh .firn k), k + r.2)
  | .sfRebuild _ =>
    let rs := s.allRanges
    let r := walkLines (allAt rs) s.homeOfNat (fun _ l => (s.slice (s.homeOfNat l)).suspect (lineSet (BitVec.ofNat 46 l))) 64 k [] 0
    (r.1.map (s.walkItem o .rebuild .coh .sf k), k + r.2)
  | .walk =>
    let rs := (s.inst o.ci).cohRanges
    let r := walkLines (fun j => (rangesAt rs j).map fun l => (o.ci, l)) s.homeOfNat (fun _ _ => true) 64 k [] 0
    (r.1.map (s.walkItem o .rebuild .coh .walk k), k + r.2)
  | _ => ([], k + 1)

/-- A migration step that covers a set pair is outstanding (R384). -/
def State.migrating (s : State) (i : Nat) : Bool :=
  s.be.ops.any fun o => o.kind == .fold && o.outst.any fun st => st.pos == i

end Sys2Proof.Machine
end

