-- ==== Sys2Proof/Machine/Churn.lean ====
section
/-!
DEFINITION. The churn of the slices (R97, R98, R413 to R416, R425, R426): which task is ready, and the order in which background slots
serve them.
-/

namespace Sys2Proof.Machine

open Sys2Proof

/-! ### Scrubs (R97, R98, R416, R482) -/

/-- One SF scrub access: the next set of the slice, with what the checks of its ways find. -/
def State.sfScrub (s : State) (n : Hs) (errs : List (Nat × EccErr)) : State :=
  let set := (s.slice n).scrubSet
  let s := (s.checkSet n set errs).modSlice n fun x => { x with scrubSet := set + 1 }
  (if set + 1 = 0 then s.bump (hsCtr n 23) else s).pump

/-- The logical slices homed at a slice, ascending. -/
def State.logicals (s : State) (n : Hs) : List Nat := (List.range 32).filter fun i => s.smap[i]? == some n

/-- The next firn set of an instance at or after `fl` that belongs to the slice. -/
def nextFirnSet (per : Nat) (ls : List Nat) (fl : Nat) : Option Nat :=
  if ls.contains (fl / per) then some fl
  else (ls.find? fun i => decide (i * per ≥ fl)).map fun i => i * per

/-- The instances whose firn is scrubbed, ascending (R416). -/
def State.scrubbed (s : State) : List Ci :=
  (s.insts.filter fun p => p.2.st != .free && p.2.role != .mirror && p.2.hasFirn &&
    !(s.be.ops.any fun o => o.ci.toNat == p.1 && o.kind == .zfillFirn)).map fun p => BitVec.ofNat 6 p.1

/-- The set that the firn scrub of a slice takes next (R416). -/
def State.nextScrub (s : State) (n : Hs) : Option (Ci × Nat) :=
  let ls := s.logicals n
  let per (c : Ci) : Nat := 2 ^ ((s.inst c).firnLog2 - 5)
  let l := s.scrubbed
  let from' (c : Ci) (fl : Nat) : Option (Ci × Nat) := (nextFirnSet (per c) ls fl).map fun x => (c, x)
  let first := l.findSome? fun c => from' c 0
  match (s.slice n).fscrub with
  | none => first
  | some (c, fl) =>
    match (if l.contains c then from' c (fl + 1) else none) with
    | some x => some x
    | none => match (l.filter fun d => decide (c.toNat < d.toNat)).findSome? fun d => from' d 0 with
      | some x => some x
      | none => first

/-- One firn scrub access: the next set's read is issued. -/
def State.firnScrub (s : State) (n : Hs) (c : Ci) (fl : Nat) : State :=
  ((s.modSlice n fun x => { x with fscrub := some (c, fl) }).addAcc n c fl 0 .scrub).pump

/-! ### Rotation (R93 to R96, R414) -/

/-- The logical set that the next move takes (R95). -/
def Inst.moveSet (i : Inst) : Nat :=
  let n := 2 ^ i.firnLog2
  ((if i.rotGap > 0 then i.rotGap - 1 else n - 1) + n - i.rotStart % n) % n

/-- The next move of an instance may run at a slice: its set is homed there, in one epoch, and the engine is no Mirror of it. -/
def State.mayMove (s : State) (hs : Hs) (ci : Ci) : Bool :=
  let i := s.inst ci
  let ls := i.moveSet / 2 ^ (i.firnLog2 - 5)
  i.hasFirn && s.smap[ls]? == some hs && !(match s.fold with | some f => f.oldMap[ls]? != f.newMap[ls]? | none => false) && s.hsUp hs &&
    i.role != .mirror

/-- A move of `FIRN_ROTATE` waits to start. -/
def State.moveBulk (s : State) (ci : Ci) : Bool :=
  (s.inst ci).rotBusy && !(s.slices.any fun p => p.2.facc.any fun a => a.ci == ci && a.kind == .move)

/-! ### Telemetry (R425, R426, R438) -/

/-- `CMEAN`, `CMIN`, `CMAX` of a `CAX` after a slice's report; `again`: another slice has reported it in this epoch. -/
def sumOf (old : Option (Nat × Nat × Nat)) (again : Bool) (e : CalEnt) : Nat × Nat × Nat :=
  match old with
  | none => (e.mean / 16, e.min / 16, e.max / 16)
  | some (m, a, b) => (if again then max m (e.mean / 16) else e.mean / 16, min a (e.min / 16), max b (e.max / 16))

/-- `IMEAN` of every instance (R426). -/
def State.imeans (s : State) : State :=
  let mean (i : Inst) : Nat := (i.members.map fun c => match tGet s.calSum c.toNat with | some v => v.1 | none => 0).foldl max 0
  { s with insts := s.insts.map fun p => (p.1, { p.2 with imean := mean p.2 }) }

/-- The telemetry access of a slice: each entry with CHG set goes to the AON domain. -/
def State.telSend (s : State) (n : Hs) : State :=
  let s := ((s.slice n).cal.filter fun e => e.2.chg).foldl (fun (s : State) e =>
    { s with calSum := tPut s.calSum e.1 (sumOf (tGet s.calSum e.1) (s.calSeen.contains e.1) e.2), calSeen := s.calSeen ++ [e.1] }) s
  (s.modSlice n fun x => { x with telWait := false, cal := x.cal.map fun e => (e.1, { e.2 with chg := false }) }).imeans

/-! ### The order of the tasks (R413, R415) -/

/-- A bulk step has an access to make in the slice: a line to start, or a move of `FIRN_ROTATE`. -/
def State.bulkReady (s : State) (n : Hs) : Bool :=
  (s.beLines.any fun l => l.1.hs == n) || s.insts.any fun p => s.moveBulk (BitVec.ofNat 6 p.1) && s.mayMove n (BitVec.ofNat 6 p.1)

/-- A move posted to the slice under R414 may start. -/
def State.moveReady (s : State) (n : Hs) : Bool :=
  s.insts.any fun p => !p.2.rotBusy && decide (p.2.rotPend > 0) && s.mayMove n (BitVec.ofNat 6 p.1)

/-- A task that the usual order puts before the scrubs is ready. -/
def State.aheadOfScrub (s : State) (n : Hs) : Bool :=
  s.bulkReady n || !(s.slice n).calQ.isEmpty || s.moveReady n

/-- The phase-15 slot of each tick whose number modulo 64 is 63. -/
def State.lastSlot (s : State) : Bool := s.clk.phase = 15 && s.clk.tick.toNat % 64 == 63

/-- A scrub or the telemetry of the slice waits for a slot. -/
def Slice.waits (x : Slice) : Bool := x.sfWait.isSome || x.fsWait || x.telWait

/-- The slot goes to a waiting scrub, else to the telemetry; SF and firn scrub alternate where both wait. -/
def State.scrubSlot (s : State) (n : Hs) : State :=
  let x := s.slice n
  let fs := if x.fsWait then s.nextScrub n else none
  match x.sfWait, fs with
  | some errs, none => (s.modSlice n fun x => { x with sfWait := none, fsWait := false, lastSf := true }).sfScrub n errs
  | some errs, some (c, fl) =>
    if x.lastSf then (s.modSlice n fun x => { x with fsWait := false, lastSf := false }).firnScrub n c fl
    else (s.modSlice n fun x => { x with sfWait := none, lastSf := true }).sfScrub n errs
  | none, some (c, fl) => (s.modSlice n fun x => { x with fsWait := false, lastSf := false }).firnScrub n c fl
  | none, none => if x.telWait then s.telSend n else s

/-- The scrubs and the telemetry that wait are served, up to `k` of them, until a task of the usual order before them is ready. -/
def State.churnRun (s : State) (n : Hs) : Nat → State
  | 0 => s
  | k + 1 => if s.aheadOfScrub n || !(s.slice n).waits then s else (s.scrubSlot n).churnRun n k

/-- The slots that background work gets now. What still waits has the slot before the next tick whose number is a multiple of 64
(log entry 81). -/
def State.churn (s : State) (n : Hs) : State :=
  let s := if s.lastSlot && (s.slice n).waits then s.scrubSlot n else s
  let s := s.churnRun n 3
  if (s.slice n).waits && !s.sched.any (fun e => e.2 == .churnSlot n) then s.later (64 - s.clk.tick.toNat % 64) (.churnSlot n) else s

/-- The exceptional slot of a slice has come. -/
def State.churnLast (s : State) (n : Hs) : State :=
  if s.works (hsDom n) && s.running && (s.slice n).waits then (s.scrubSlot n).churn n else s

end Sys2Proof.Machine
end

