-- ==== Sys2Proof/Machine/Time.lean ====
section
/-!
DEFINITION. What a rule places at phase 0 of a later tick, and the passing of time (R29 to R33): instance states, power domains
and what follows their changes (R369 to R375, R378), port events (R316, R375), live settings.
-/

namespace Sys2Proof.Machine

open Sys2Proof

/-! ### Port events (R316 to R321) -/

/-- The agents of a logical port. -/
def State.onPort (s : State) (l : BitVec 10) : List Rqid :=
  (s.agents.filter fun p => p.2.lport == l).map fun p => BitVec.ofNat 12 p.1

def State.linkDown (s : State) (ps : Stn) (lp : Lp) : State :=
  let l := lportOf ps lp
  let s := s.modLport l fun x => { x with up := false }
  let d := s.timer s.params.graceTmo
  (s.onPort l).foldl (fun s rq =>
    s.modAgent rq fun a => if a.lst = .up then { a with lst := .down, grace := some d } else a) s

def State.linkUp (s : State) (ps : Stn) (lp : Lp) (blk : Bool) : State :=
  let l := lportOf ps lp
  let s := s.modLport l fun x => { x with up := true, blk := blk }
  (s.onPort l).foldl (fun s rq =>
    s.modAgent rq fun a => match a.lst with
      | .down => { a with lst := .up, grace := none }
      | .offline => { a with lst := .up }
      | _ => a) s

def State.linkReset (s : State) (ps : Stn) (lp : Lp) : State :=
  let l := lportOf ps lp
  let s := s.modLport l fun x => { x with up := false }
  (s.onPort l).foldl (fun s rq => s.loseSession rq false) s

/-- Every logical port of a station is treated as under `PEV_GONE` (R491, R529). -/
def State.stationGone (s : State) (n : Stn) : State :=
  let ls := (s.agents.map fun p => p.2.lport) ++ s.lports.map fun p => BitVec.ofNat 10 p.1
  (ls.filter fun l => l.extractLsb' 7 3 == n).eraseDups.foldl (fun s l => s.linkReset n (l.setWidth 7)) s

/-- A port event as it acts (R316). -/
def State.portEvent (s : State) : Instr → State
  | .pevDown ps lp => s.linkDown ps lp
  | .pevUp ps lp blk => s.linkUp ps lp blk
  | .pevReset ps lp => s.linkReset ps lp
  | .pevGone ps lp => s.linkReset ps lp
  | _ => s

def evStation : Instr → Option Stn
  | .pevDown ps _ => some ps
  | .pevUp ps _ _ => some ps
  | .pevReset ps _ => some ps
  | .pevGone ps _ => some ps
  | _ => none

/-! ### Park and unpark order (R375) -/

def rangeDoms (a n : Nat) : List (BitVec 7) := (List.range n).map fun i => BitVec.ofNat 7 (a + i)

/-- The order in which `ENGINE_PARK` freezes. -/
def parkOrder : List (List (BitVec 7)) :=
  [[80, 81], [82], [84], [83], rangeDoms 0 64, rangeDoms 72 8, rangeDoms 64 8]

/-- The groups of an order that hold a domain that `p` takes, cut down to those. -/
def pickGroups (p : BitVec 7 → Bool) (l : List (List (BitVec 7))) : List (List (BitVec 7)) :=
  (l.map fun g => g.filter p).filter fun g => !g.isEmpty

/-- The thaws of start-up have ended, and every slice of the map is ON (R450). -/
def State.mayReady (s : State) : Bool := s.mc.seq.isNone && s.smap.all fun h => (s.dom (hsDom h)).st == .on && (s.dom (sfDom h)).st == .on

/-- The MC enters READY; what R451 does together stands at phase 0 of the next tick. -/
def State.enterReady (s : State) : State := ({ s with mc := { s.mc with bstate := .ready } } : State).later 1 .readyHigh

/-- `BOOT_START` is answered, once it need not wait for thaws any longer (R450). -/
def State.bootEnd (s : State) (cmd : BitVec 512) : State :=
  if s.mayReady then (s.finish cmd .done).enterReady else s.finish cmd .badState

/-- Starts the next group of a sequence, or ends it; a waiting `BOOT_START` is then answered. -/
def State.seqNext (s : State) : State :=
  match s.mc.seq with
  | none => s
  | some q =>
    match q.left with
    | g :: rest =>
      let s := { s with mc := { s.mc with seq := some { q with cur := g, left := rest } } }
      if q.freeze then (g.foldl (fun s d => s.modDom d fun x => { x with kept := true }) s).startFreeze g true false else s.startThaw g
    | [] =>
      let s := { s with mc := { s.mc with seq := none }, parked := q.freeze }
      let s := s.mc.longs.foldl (fun s l => match l.job with | .bootStart => s.bootEnd l.cmd | _ => s) s
      match q.cmd with
      | some c => s.finish c .done
      | none => s

/-- Starts a sequence of freezes or thaws. -/
def State.startSeq (s : State) (freeze : Bool) (gs : List (List (BitVec 7))) (cmd : Option (BitVec 512)) : State :=
  ({ s with mc := { s.mc with seq := some { freeze := freeze, cur := [], left := gs, cmd := cmd } } } : State).seqNext

/-- Whether each domain of a list is in a state. -/
def State.allIn (s : State) (ds : List (BitVec 7)) (st : DomSt) : Bool := ds.all fun d => (s.dom d).st == st

/-- The thaws of an unpark: what the park froze, in reverse order. -/
def State.unparkGroups (s : State) : List (List (BitVec 7)) :=
  pickGroups (fun d => (s.dom d).kept && (s.dom d).st != .on && !s.stopOut d) parkOrder.reverse

/-! ### The end of a freeze or thaw (R369 step 7, R373 step 5, R378) -/

/-- The slices that one map names and the other does not. -/
def mapLess (a b : List Hs) : List Hs := (a.filter fun h => !b.contains h).eraseDups

def sliceDoms (l : List Hs) : List (BitVec 7) := l.flatMap fun h => [hsDom h, sfDom h]

/-- R378 steps 2 and 3: the migration begins. -/
def State.startFold (s : State) : State :=
  match s.fold with
  | none => s
  | some f =>
    if f.started then s
    else ({ s with fold := some { f with started := true } } : State).queueBulk true .fold 0 (f.cmd.getD 0) sfSteps

/-- What waits for a domain that has become ON or OFF. -/
def State.pdAdvance (s : State) : State :=
  let s := match s.mc.seq with
    | some q => if s.allIn q.cur (if q.freeze then .off else .on) then s.seqNext else s
    | none => s
  let s := s.mc.longs.foldl (fun s l => match l.job with
    | .freeze ds => if s.allIn ds .off then s.finish l.cmd .done else s
    | .thaw ds => if s.allIn ds .on then s.finish l.cmd .done else s
    | .fold ds => if !ds.isEmpty && s.allIn ds .off then s.finish l.cmd .done else s
    | _ => s) s
  match s.fold with
  | some f =>
    let back := sliceDoms (mapLess f.newMap f.oldMap)
    if f.started then s else if s.allIn back .on then s.startFold
    else s.startThaw (back.filter fun d => (s.dom d).st == .off && !s.thawDue d && !s.stopOut d)
  | none => s

/-- What a unit loses when its domain goes OFF (R364, R369, R489). -/
def State.unitOff (s : State) (d : BitVec 7) : State :=
  let n := d.toNat
  if n < 32 then s.modSlice (domHs d) fun x =>
    { x with hold := [], cal := [], calQ := [], thr := [], scrubSet := 0, ffix := [], fscrub := none, moved := [], noAck := [],
             sfWait := none, fsWait := false, telWait := false, lastSf := false }
  else if n < 64 then (if (s.dom d).ret then s else s.modSlice (domHs d) fun x => { x with
      sf := [], susp := if s.smap.contains (domHs d) then x.susp else [], suspOver := if s.smap.contains (domHs d) then x.suspOver else [] })
  else if n < 72 then s.modPs (d.setWidth 3) fun x => { x with snq := [], held := [] }
  else if n < 80 then s.setMs (d.setWidth 3) MSt.reset
  else if n = 83 then { s with tw := { s.tw with linkUp := false, incompat := false } }
  else s

/-- A Calibration Table loaded from the block summary (R424). -/
def State.calLoad (s : State) : List (Nat × CalEnt) :=
  s.calSum.map fun p => (p.1, { mean := 16 * p.2.1, min := 16 * p.2.2.1, max := 16 * p.2.2.2, chg := false })

/-- What a unit starts with when its domain comes ON (R373 step 4, R424, R437). -/
def State.unitOn (s : State) (d : BitVec 7) : State :=
  let n := d.toNat
  if n < 32 then s.modSlice (domHs d) fun x => { x with cal := s.calLoad }
  else if 64 ≤ n && n < 72 then
    let mine := s.latched.filter fun e => evStation e == some (d.setWidth 3)
    let s := { s with latched := s.latched.filter fun e => evStation e != some (d.setWidth 3) }
    mine.foldl (fun s e => s.portEvent e) s
  else if n = 84 then { s with obs := { s.obs with cnt := [], pre := [], incs := [] } }
  else s

/-- A domain's state comes into force; a freeze that is abandoned returns to ON without a new start (R370). -/
def State.domTo (s : State) (d : BitVec 7) (st : DomSt) : State :=
  let fresh := (s.dom d).st != .freezing
  let s := s.modDom d fun x => { x with st := st }
  match st with
  | .off =>
    let s := (s.unitOff d).pdAdvance
    if d == 82 && !(s.be.ops.isEmpty && s.be.sweeps.isEmpty) then s.wakeBe else s
  | .on =>
    let s := s.modDom d fun x => { x with kept := false, force := false }
    (if fresh then s.unitOn d else s).pdAdvance
  | _ => s

/-! ### Effects that were placed at phase 0 -/

/-- An instance's state comes into force (R283, R286); `INST_ENABLE` is then answered. -/
def State.instTo (s : State) (c : Ci) (st : ISt) : State :=
  let abort := s.mc.longs.any fun l => cCi l.cmd == c && (match l.job with | .clear _ _ _ a => a | _ => false)
  let s := s.modInst c fun i => { i with st := st, abortQ := st == .aborting || (st == .clearing && abort) }
  match st with
  | .active => s.mc.longs.foldl (fun s l => if cCi l.cmd == c && cOpc l.cmd == 0x102 then s.finish l.cmd .done else s) s
  | .aborting =>
    let s : State := { s.stopBulk c with soon := s.soon ++ [Eff.abort c] }
    (s.slices.foldl (fun s p => s.flushHeld (BitVec.ofNat 5 p.1)) s).pump
  | .clearing =>
    let s := s.mc.longs.foldl (fun s l => match l.job with
      | .clear _ _ _ _ => if cCi l.cmd == c then s.queueBulk false (.region 0 (2 ^ 46 - 1)) c l.cmd else s
      | _ => s) s
    (s.slices.foldl (fun s p => s.flushHeld (BitVec.ofNat 5 p.1)) s).pump
  | _ => s

/-- What each deferred effect does when its tick comes. -/
def State.apply (s : State) : Eff → State
  | .inst c st => s.instTo c st
  | .quota c sfq plbq tmin tmax hold hauto cmd =>
    (s.modInst c fun i => { i with sfq := sfq, plbQ := plbq, trkMin := tmin, trkMax := tmax, holdWin := hold, holdAuto := hauto }).finish
      cmd .done
  | .snoopCfg mn mx rt => { s with params := { s.params with biMin := mn, biMax := mx, biRetry := rt } }
  | .churn a b c => { s with params := { s.params with scrubInt := a, telLog2 := b, fscrubInt := c } }
  | .port m nma thr =>
    match tGet s.ports m.toNat with
    | some p => { s with ports := tPut s.ports m.toNat { p with nmaLive := nma, thrLive := thr } }
    | none => s
  | .calReset c =>
    { s with
      slices := s.slices.map fun p => (p.1, { p.2 with cal := tDel p.2.cal c.toNat, calQ := p.2.calQ.filter fun q => q.1 != c }),
      calSum := tDel s.calSum c.toNat }
  | .agentEn rq en => s.modAgent rq fun a => { a with enPs := en }
  | .queueOff c q => s.modGq c q fun g => if g.stopping then { g with en := false, stopping := false } else g
  | .profile p ports cmd =>
    let fresh := ports.filter fun e => e.2.table && !((tGet s.ports e.1).any fun o => o.pv && o.table)
    let s : State := { s with params := p,
                              ports := ports.foldl (fun m e => tPut m e.1 { e.2 with nmaLive := e.2.nma, thrLive := e.2.thr }) s.ports }
    (fresh.foldl (fun (s : State) (e : Nat × PortDesc) => s.queueBulk true (.zfillRt (BitVec.ofNat 8 e.1)) 0 0) s).finish cmd .done
  | .gpfFlag id =>
    ({ s with
      slices := s.slices.map fun p => (p.1, { p.2 with plb := p.2.plb.map (flagPlb id) }),
      mesh := { s.mesh with pkts := s.mesh.pkts.map fun p => { p with msg := flagMsg id p.msg, more := p.more.map (flagMsg id) } } } : State).gpfCheck
  | .dom d st => s.domTo d st
  | .domSig d iso ret req =>
    s.modDom d fun x => { x with iso := iso.getD x.iso, ret := ret.getD x.ret, req := req.getD x.req }
  | .credits rq =>
    match s.agent rq with
    | some a =>
      if a.lst = .held && !a.rdm && !a.swp then
        let s := s.setAgent rq { a with lst := if (s.lport a.lport).up then .up else .offline }
        let other := s.agents.any fun p => p.2.lport == a.lport && p.2.lst == .held
        let gone := s.ret.chans.contains { chk := 3, chn := a.lport.setWidth 12 }
        s.modLport a.lport fun l => { l with held := other || gone }
      else s
    | none => s
  | .readyLow => { s with ready := false }
  | .churnSlot n => s.churnLast n
  | .thaw ds => s.startThaw (ds.filter fun d => !s.stopOut d)
  | .abort c => ((((s.abortTe false c).abortTe true c).cutCopies false c).cutCopies true c).pump
  | .readyHigh => if s.running then { s with ready := true, arbMode := if s.ret.running.isEmpty then .service else .recovery } else s

/-- Applies, in the order in which they were placed, the effects whose tick has come. -/
def State.applyDue (s : State) : State :=
  let due := s.sched.filter fun e => tickReached s.clk.tick e.1
  let rest := s.sched.filter fun e => !tickReached s.clk.tick e.1
  due.foldl (fun s e => s.apply e.2) { s with sched := rest }

/-- A port station that is ON withholds the credits of one of its logical ports at least (R321, R484). -/
def State.withholds (s : State) (n : Stn) : Bool :=
  s.isOn (psDom n) && s.lports.any fun p => (BitVec.ofNat 10 p.1).extractLsb' 7 3 == n && p.2.held

/-- Ticks that pass are counted by each station that withholds credits (R440). -/
def State.countTicks (s : State) (n : Nat) : State :=
  if !s.lports.any fun p => p.2.held then s
  else (List.range 8).foldl (fun s k => if s.withholds (BitVec.ofNat 3 k) then s.bumpBy (psCtr (BitVec.ofNat 3 k) 5) n else s) s

/-- Local ports take what waits, cycle after cycle (R335). -/
def State.injectOver : State → Nat → State
  | s, 0 => s
  | s, n + 1 => if s.mesh.pkts.any Pkt.wait then (({ s with clk := s.clk.succ } : State).injectAll).injectOver n else s

/-- Records that have crossed the mesh reach TW, which sends them over the link in their order; nothing leaves while the link is down
(R395, R411; log entry 70). -/
def State.twArrive (s : State) : State :=
  let mine (p : Pkt) : Bool := p.dst == twStop && p.vnet == .mgt && !p.wait
  let l := s.mesh.pkts.filter mine
  if l.isEmpty then s
  else
    let s := { s with mesh := { s.mesh with pkts := s.mesh.pkts.filter fun p => !mine p } }
    l.foldl (fun s p => p.bodies.foldl (fun s m => if s.tw.linkUp && s.works 83 then
      match m with
      | .twin w line => (s.emit (.twin w line)).bump 0xE80
      | .twinRule w cmd => (s.emit (.twinRule w cmd)).bump 0xE80
      | _ => s else s) (s.tapOut p)) s

/-- Something acts as the next core cycle begins. -/
def State.restless (s : State) : Bool :=
  !s.soon.isEmpty || [s.arb0, s.arb1, s.arbB].any fun a => a.ending || a.won.isSome || a.seed.isSome

/-- What acts as a core cycle begins: an abort or a preemption that arrived in the cycle before (R202), the end and the beginning of
grants (R294, R295). -/
def State.turn (s : State) : State :=
  if !s.restless then s.engEnds
  else
    let s := s.soon.foldl (fun s e => s.apply e) { s with soon := [] }
    (((s.arbTurn .te0).arbTurn .te1).arbTurn .be).engEnds.pump

/-- The request lines and ticket counts as the cycle starts (R294). -/
def State.seeReq (s : State) : State :=
  { s with arb0 := { s.arb0 with req := s.reqLines .te0 }, arb1 := { s.arb1 with req := s.reqLines .te1 },
           arbB := { s.arbB with req := s.reqLines .be } }

/-- One core cycle passes (R29, R30, R291; log entry 2). While a cold reset is held nothing runs (R516). -/
def State.cycle (s : State) : State :=
  if s.coldLow then s
  else
    let c := s.clk.succ
    let s := (({ s with clk := c }).stepLfsr 1).turn.twArrive
    (if c.phase = 0 then (s.countTicks 1).applyDue else s).seeReq.injectAll

/-- The clock moves on to phase 0 of a later tick, where what is due is applied. -/
def State.jump (s : State) (d : Tick) : State :=
  let n := 16 * (d - s.clk.tick).toNat - s.clk.phase.toNat
  let w := (s.mesh.pkts.filter fun (p : Pkt) => p.wait).length
  let k := (d - s.clk.tick).toNat
  let s := s.injectOver (min (n - 1) w)
  (((({ s with clk := { tick := d, phase := 0 } }).stepLfsr n).turn.twArrive.countTicks k).applyDue).seeReq.injectAll

/-- The first tick, up to `d`, at which an effect is due. -/
def State.nextDue (s : State) (d : Tick) : Tick :=
  s.sched.foldl (fun b e => if (e.1 - s.clk.tick).toNat < (b - s.clk.tick).toNat then e.1 else b) d

/-- Brings the clock to phase 0 of tick `d`, stopping at every tick at which an effect is due and in the cycle after one that leaves
something to it. -/
def State.runTo (s : State) (d : Tick) : Nat → State
  | 0 => if tickReached s.clk.tick d then s else s.jump d
  | fuel + 1 =>
    if tickReached s.clk.tick d then s
    else if s.restless then s.cycle.runTo d fuel
    else (s.jump (s.nextDue d)).runTo d fuel

/-- Brings the clock to phase 0 of tick `d` unless that moment has passed (log entry 3). -/
def State.goTo (s : State) (d : Tick) : State := s.runTo d (4 * s.sched.length + 16)

/-- The expiry of a timer is the last thing of its core cycle: an event of that cycle has come before it (R33, log entry 71). -/
def State.closeCycle (s : State) : State := s.cycle

/-- Brings the clock to phase 0: now, or of the next tick (log entry 3). -/
def State.toPhase0 (s : State) : State :=
  if s.clk.phase = 0 then s else s.goTo (s.clk.tick + 1)

end Sys2Proof.Machine
end

