-- ==== Sys2Proof/Machine/Port.lean ====
section
/-!
DEFINITION. A port station: request words (R502 to R506, R560), classes (R99), the access check (R264), order per agent and
line (R149 to R156, R381, R383), completions (R164, R509), snoops on the link (R144, R507, R508) and their answers.
-/

namespace Sys2Proof.Machine

open Sys2Proof

/-! ### Inbound words (R503, R504) -/

def wKind (w : BitVec 160) : BitVec 4 := w.extractLsb' 0 4
def wLp (w : BitVec 160) : Lp := w.extractLsb' 4 7
def wRop (w : BitVec 160) : BitVec 6 := w.extractLsb' 23 6
def wMfv (w : BitVec 160) : Bool := w.getLsbD 29
def wMval (w : BitVec 160) : BitVec 2 := w.extractLsb' 30 2
def wLix (w : BitVec 160) : Lix := w.extractLsb' 32 46
def wOfs (w : BitVec 160) : BitVec 6 := w.extractLsb' 78 6
def wBlen (w : BitVec 160) : BitVec 7 := w.extractLsb' 84 7
def wDst (w : BitVec 160) : Dst := w.extractLsb' 91 16
def wMpid (w : BitVec 160) : Mpid := w.extractLsb' 107 8
def wPcnt (w : BitVec 160) : Nat := (w.extractLsb' 115 7).toNat
def wPix (w : BitVec 160) : Nat := (w.extractLsb' 122 7).toNat
def wPasv (w : BitVec 160) : Bool := w.getLsbD 129
def wPasid (w : BitVec 160) : BitVec 20 := w.extractLsb' 130 20
def wOpw (w : BitVec 160) : Bool := w.getLsbD 151

/-- A full-line access (R504). -/
def wFull (w : BitVec 160) : Bool := wOfs w == 0 && wBlen w == 63

/-- The cache state of `MetaValue`; No-Op states none (R504). -/
def wMeta (w : BitVec 160) : MVal := if !wMfv w then .i else if wMval w = 2 then .a else if wMval w = 3 then .s else .i

def ropRead (r : BitVec 6) : Bool := r == 0x01 || r == 0x02 || r == 0x10 || r == 0x11
def ropAop (r : BitVec 6) : Bool := r == 0x20 || r == 0x21 || r == 0x22
def ropKnown (r : BitVec 6) : Bool :=
  ropRead r || ropAop r || r == 0x03 || r == 0x04 || r == 0x05 || r == 0x06 || r == 0x07 || r == 0x12 || r == 0x13

def aopKind (r : BitVec 6) : AopK := if r = 0x21 then .swap else if r = 0x22 then .cas else .fetchAdd

/-- Step 1 of R560: the opcode and the word's form are served (R505, R515, R176; log entry 14). -/
def wForm (w : BitVec 160) : Bool :=
  let r := wRop w
  let n := (wBlen w).toNat + 1
  ropKnown r && decide ((wOfs w).toNat + n ≤ 64) && decide (1 ≤ wPcnt w) && decide (wPcnt w ≤ 65) && decide (wPix w < wPcnt w) &&
  !(wMfv w && wMval w == 1) && (r != 0x04 || wFull w) &&
  (!ropAop r || (wOpw w && wPcnt w == 1 && (n == 4 || n == 8 || (n == 16 && r == 0x22)) && (wOfs w).toNat % n == 0))

/-- R99. -/
def classOf (a : AClass) (k : RKind) (w : BitVec 160) : Option Cls :=
  let r := wRop w
  let rd := r == 0x01 || r == 0x10 || r == 0x11
  let wr := r == 0x04 || ((r == 0x12 || r == 0x13) && wFull w)
  let wp := r == 0x05 || ((r == 0x12 || r == 0x13) && !wFull w)
  if ropAop r then some .aop
  else match k with
    | .lease => if rd then some .lrd else if wr then some .lwr else if wp then some .lwrp else none
    | .unc => if rd then some .urd else if wr then some .uwr else if wp then some .uwrp else none
    | .coh =>
      match a with
      | .bi =>
        if r = 0x01 then some (match wMeta w with | .s => .rdS | .a => .rdA | .i => .rdI)
        else if r = 0x02 then some .rdD
        else if r = 0x03 then (if !wMfv w || wMeta w = .s then none else if wMeta w = .a then some .invA else some .invI)
        else if r = 0x04 then (if wMfv w then some .mw else none)
        else if r = 0x05 then some .wrp
        else if r = 0x06 then some .cln
        else if r = 0x07 then some .bic
        else none
      | _ => if rd then some .skim else if wr then some .iowr else if wp then some .iowrp else none

/-- The `AKIND` of an access (R267). -/
def wAkind (ws : List (BitVec 160)) : BitVec 4 :=
  match ws with
  | [] => 0
  | w :: _ =>
    let r := wRop w
    if ropRead r then 0
    else if r = 0x03 then 6
    else if ropAop r then 3
    else if r = 0x05 then 2
    else if r = 0x06 then Config.noticeAkind false
    else if r = 0x07 then Config.noticeAkind true
    else if ws.all wFull then 1 else 2

/-! ### Instance resolution and the check (R245, R264, R560) -/

/-- R245, R246, R312; a FREE instance is no instance (R279). -/
def State.resolve (s : State) (rq : Rqid) (pasv : Bool) (pasid : BitVec 20) : Option (Ci × BitVec 4) :=
  match s.agent rq with
  | none => none
  | some a =>
    let hit := match a.bind with
      | some b => some b
      | none => (s.irt.find? fun (e : IrtEnt) => e.rqid == rq && e.pv == pasv && (!pasv || e.pasid == pasid)).map fun (e : IrtEnt) => (e.ci, e.agrp)
    match hit with
    | some (c, g) => if (s.inst c).st = .free then none else some (c, g)
    | none => none

/-- Causes 4 to 6 of R264 against one region. -/
def Region.denies (r : Region) (rq : Rqid) (agrp : BitVec 4) (perm : Bool) : Option (BitVec 4) :=
  if !r.amask.getLsbD agrp.toNat then some 3
  else if r.kind = .lease && !(r.lhv && r.lhrq == rq) then some 4
  else if !perm then some 2 else none

/-- What a refusal is: its status and, for a denial, cause and region index. -/
structure Denial where
  st : Status
  cause : Option (BitVec 4)
  ridx : Option Nat
  deriving DecidableEq, Repr

/-- R560 for one piece: the refusal, or region kind and class. -/
def State.vet (s : State) (w : BitVec 160) : Denial ⊕ (RKind × Cls) :=
  let rq := wRq w
  if !wForm w then .inl { st := .unsupported, cause := none, ridx := none }
  else
    match s.resolve rq (wPasv w) (wPasid w), s.agent rq with
    | some (c, g), some a =>
      match (s.inst c).regionsAt (wLix w) with
      | [] => .inl { st := .denied, cause := some 1, ridx := none }
      | [(i, r)] =>
        match classOf a.cls r.kind w with
        | none => .inl { st := .unsupported, cause := none, ridx := none }
        | some k =>
          if k = .mw || k = .cln || k = .bic then .inr (r.kind, k)
          else if !a.enPs then .inl { st := .agentOffline, cause := none, ridx := none }
          else if (s.inst c).st != .active || s.lapsed c then .inl { st := .instOffline, cause := none, ridx := none }
          else
            let perm := if ropRead (wRop w) then r.rd else if ropAop (wRop w) then r.at' else r.wr
            match r.denies rq g perm with
            | some x => .inl { st := .denied, cause := some x, ridx := some i }
            | none => .inr (r.kind, k)
      | (i, _) :: _ => .inl { st := .denied, cause := some 5, ridx := some i }
    | _, _ => .inl { st := .denied, cause := some 6, ridx := none }

/-- A transaction engine takes AtomicOps: enabled and ON (R175). -/
def State.teUp (s : State) (e : Bool) : Bool := (s.arb (Eng.ofTe e)).en && s.isOn (teDom e)

/-- The engine that an AtomicOp goes to (R175). -/
def State.teFor (s : State) (l : Lix) : Option Bool :=
  let e := (logicalSlice l).getLsbD 0
  if s.teUp e then some e else if s.teUp (!e) then some (!e) else none

/-! ### Credits (R103, R153, R156) and injection -/

def credKey (h : Hs) (c : Nat) : Nat := h.toNat * 16 + c

/-- A writeback credit toward a slice that is back, with no `RSPACK` owed: the lowest-numbered one, the spec naming none.
DESIGN CHOICE (log entry 77). -/
def PSt.freeCred (p : PSt) (h : Hs) : Option (BitVec 4) :=
  ((List.range 16).find? fun c =>
    match tGet p.cred (credKey h c) with
    | some (u, o) => !u && !o
    | none => true).map (BitVec.ofNat 4)

def PSt.setCred (p : PSt) (h : Hs) (c : BitVec 4) (f : Bool × Bool → Bool × Bool) : PSt :=
  { p with cred := tPut p.cred (credKey h c.toNat) (f ((tGet p.cred (credKey h c.toNat)).getD (false, false))) }

def Cls.wbClass : Cls → Bool
  | .mw | .cln => true
  | _ => false

def Outst.of (m : Outst) (rq : Rqid) (l : Lix) : Bool := m.req.rqid == rq && m.req.lix == l

/-- R381: after the flip, a writeback-class message for a moved logical slice waits for the credits toward its source. -/
def State.foldHold (s : State) (p : PSt) (l : Lix) : Bool :=
  match s.fold with
  | some f =>
    let src := homeOf f.oldMap l
    f.flipped && homeOf f.newMap l != src &&
      (List.range 16).any fun c => match tGet p.cred (credKey src c) with | some (u, _) => u | none => false
  | none => false

/-- Whether a waiting message may be injected (R104, R150, R151), the pieces of an access in ascending `PIX` (R229). A `BIC` is not held
behind a general request that was refused. DESIGN CHOICE (log entry 77). -/
def State.mayInject (s : State) (p : PSt) (m : Outst) (ahead : List Outst) : Bool :=
  let mine := ahead.filter fun x => x.of m.req.rqid m.req.lix
  m.st == OSt.waiting && !(ahead.any fun x => x.first == m.first && x.st == OSt.waiting) && !(mine.any fun x => x.req.rwr) &&
  (if m.req.cls = Cls.bic then (p.freeCred (s.home m.req.lix)).isSome
   else if m.req.cls.wbClass then
     !(mine.any fun x => x.req.cls.wbClass && x.st == OSt.waiting) && (p.freeCred (s.home m.req.lix)).isSome && !s.foldHold p m.req.lix
   else mine.all fun x => x.req.cls == Cls.bic)

/-- The completion of a request that is refused after it was stamped, with `DFREE` (R23). -/
def Req.refused (r : Req) (n : Stn) (st : Status) : Cpl :=
  { ps := n, lp := r.lp, rqid := r.rqid, sess := r.sess, mid := r.mid, lix := r.lix, dst := r.dst, ord := .dfree, rgen := false,
    psn := false, grant := .i, status := st, data := 0, wbc := none, bicAck := false, hs := none }

/-- Sends a message that may go (R24, R104, R153, R175). -/
def State.inject (s : State) (n : Stn) (m : Outst) : State :=
  let h := s.home m.req.lix
  let r := { m.req with smep := s.smep }
  let old := if m.st == OSt.waiting then none else some (r.itk, r.urg)
  let upd (s : State) (f : Outst → Outst) : State :=
    s.modPs n fun p => { p with msgs := updWhere (fun x => x.req.mid == m.req.mid) f p.msgs }
  if r.cls = Cls.aop then
    match s.teFor r.lix with
    | some e => (upd s fun x => { x with st := .injected, req := r }).send (psStop n) (teStop e) .req false (.aop r) old
    | none =>
      let s := (s.modPs n fun p => { p with msgs := p.msgs.filter fun x => x.req.mid != m.req.mid }).genDec r.ci r.gen
      (s.bump (psCtr n 1)).emit (.cpl (r.refused n .engDisabled))
  else if r.cls.wbClass || r.cls = Cls.bic then
    match (s.ps n).freeCred h with
    | none => s
    | some c =>
      let k := credKey h c.toNat
      let g := if r.cls = Cls.bic then false else !((tGet (s.ps n).wbg k).getD false)
      let r := { r with wbc := c, wbg := g }
      let s := s.modPs n fun p =>
        { p.setCred h c (fun x => (true, x.2)) with wbg := if r.cls = Cls.bic then p.wbg else tPut p.wbg k g }
      (upd s fun x => { x with st := .injected, req := r, dest := h, cred := true }).send (psStop n) (hsStop h) .req r.cls.wbClass (.wbm r) old
  else (upd s fun x => { x with st := .injected, req := r, dest := h }).send (psStop n) (hsStop h) .req false (.req r) old

/-- A held answer may go (R104, R152, R383). -/
def PSt.mayAnswer (p : PSt) (a : HeldAns) : Bool :=
  let mine := p.msgs.filter fun m => m.of a.rqid a.lix
  !(mine.any fun m => a.after.contains m.req.mid && ((m.req.cls.wbClass && m.st != OSt.injected) || m.req.rwr)) &&
  !(mine.any fun m => m.req.cls.wbClass && m.cred && m.dest != a.ans.hs)

/-- Sends an answer, naming the writeback whose credit is out (R154, R156): of several the latest, the spec naming none.
DESIGN CHOICE (log entry 77). -/
def State.sendAns (s : State) (n : Stn) (a : HeldAns) : State :=
  let p := s.ps n
  let wb := (p.msgs.filter fun m => m.of a.rqid a.lix && m.req.cls.wbClass && m.cred && m.dest == a.ans.hs).getLast?
  let s := s.modPs n fun p => { p with held := p.held.erase a }
  match wb with
  | some m =>
    let ans := { a.ans with wbw := true, wbc := m.req.wbc, wbg := m.req.wbg }
    (s.modPs n fun p => p.setCred a.ans.hs m.req.wbc fun x => (x.1, true)).send (psStop n) (hsStop a.ans.hs) .rsp false (.sans ans)
  | none => s.send (psStop n) (hsStop a.ans.hs) .rsp false (.sans a.ans)

/-- The first message that may go, in arrival order. -/
def State.nextInject (s : State) (p : PSt) : List Outst → List Outst → Option Outst
  | _, [] => none
  | pre, m :: rest => if s.mayInject p m pre then some m else s.nextInject p (pre ++ [m]) rest

/-- Injects everything that may go. -/
def State.pumpPs (s : State) (n : Stn) : Nat → State
  | 0 => s
  | fuel + 1 =>
    let p := s.ps n
    match s.nextInject p [] p.msgs with
    | some m => (s.inject n m).pumpPs n fuel
    | none =>
      match p.held.find? p.mayAnswer with
      | some a => (s.sendAns n a).pumpPs n fuel
      | none => s

def State.pumpPort (s : State) (n : Stn) : State := s.pumpPs n ((s.ps n).msgs.length + (s.ps n).held.length + 1)

/-- A port station takes words and delivers to agents: its domain works and the block runs (R492). -/
def State.psUp (s : State) (n : Stn) : Bool := s.works (psDom n) && s.running

/-! ### Requests -/

def refusal (n : Stn) (w : BitVec 160) (st : Status) : Cpl :=
  { ps := n, lp := wLp w, rqid := wRq w, sess := 0, mid := 0, lix := wLix w, dst := some (wDst w), ord := .dfree, rgen := false,
    psn := false, grant := .i, status := st, data := 0, wbc := none, bicAck := false, hs := none }

/-- R23: every piece is refused with the status. -/
def State.refuseAll (s : State) (n : Stn) (ws : List (BitVec 160)) (st : Status) : State :=
  ws.foldl (fun s w => (s.bump (psCtr n 1)).emit (.cpl (refusal n w st))) s

/-- R267, R265: the record of a denied access. -/
def State.denyRec (s : State) (n : Stn) (ws : List (BitVec 160)) (w : BitVec 160) (cause : BitVec 4) (ridx : Option Nat) : State :=
  let ci := (s.resolve (wRq w) (wPasv w) (wPasid w)).map (·.1)
  let s := s.violation { lix := wLix w, akind := wAkind ws, rqid := wRq w, ci := ci, ridx := ridx.map (BitVec.ofNat 6), cause := cause,
                         tick := s.clk.tick }
  if cause = 5 then
    s.logBare (psStop n) 0x0D (wLix w) ci (wRq w)
  else s

/-- A piece that has passed: stamped and put in line (R24, R270); `first` is the number of its access's first piece. -/
def State.accept (s : State) (n : Stn) (w : BitVec 160) (a b : BitVec 128) (k : RKind) (c : Cls) (first : Nat) : State :=
  match s.resolve (wRq w) (wPasv w) (wPasid w), s.agent (wRq w) with
  | some (ci, _), some ag =>
    let g := (s.inst ci).ruleg
    let cas16 := wBlen w == 15
    let r : Req :=
      { src := .ps n, rqid := wRq w, cax := ag.cax, ci := ci, cls := c, kind := k, mval := wMeta w, lix := wLix w, ofs := wOfs w,
        blen := wBlen w, dst := some (wDst w), mpid := wMpid w, pcnt := wPcnt w, pix := wPix w, lp := wLp w, sess := ag.sess, gen := g,
        smep := s.smep, wbc := 0, wbg := false, rwr := false, tries := 0, mid := (s.ps n).nextMid, aop := aopKind (wRop w),
        opA := if cas16 then a else a.extractLsb' 0 64 |>.setWidth 128,
        opB := if cas16 then b else a.extractLsb' 64 64 |>.setWidth 128, data := 0, fwd := false, itk := 0, urg := 0 }
    ((s.bump (psCtr n 0)).genInc ci g).modPs n fun p =>
      { p with nextMid := p.nextMid + 1, msgs := p.msgs ++ [{ req := r, st := .waiting, dest := 0, old := false, cred := false, first := first }] }
  | _, _ => s

/-- The pieces of an access in ascending `PIX` (R229). -/
def byPix (ws : List (BitVec 160)) : List (BitVec 160) := (List.range 128).filterMap fun i => ws.find? fun w => wPix w == i

/-- The first piece, in the order given, that is refused, and how. -/
def firstDenial (s : State) (ws : List (BitVec 160)) : Option (BitVec 160 × Denial) :=
  ws.findSome? fun w => match s.vet w with
    | .inl d => some (w, d)
    | .inr _ => none

/-- Every piece of an access has arrived: all are refused or all accepted (R163, R228, R560). -/
def State.access (s : State) (n : Stn) (ws : List (BitVec 160)) (a b : BitVec 128) : State :=
  match ws with
  | [] => s
  | w0 :: _ =>
    if (match s.agent (wRq w0) with | some ag => ag.lst == LSt.held | none => false) then
      ws.foldl (fun s w => (s.bump (psCtr n 1)).emit (.dord n (wDst w) .dfree false)) s
    else
      match firstDenial s ws with
      | some (w, d) =>
        let s := match d.cause with
          | some x => s.denyRec n ws w x d.ridx
          | none => s
        s.refuseAll n ws d.st
      | none =>
        if ropAop (wRop w0) && (s.teFor (wLix w0)).isNone then s.refuseAll n ws .engDisabled
        else
          let first := (s.ps n).nextMid
          let s := ws.foldl (fun (s : State) w => match s.vet w with | .inr (k, c) => s.accept n w a b k c first | .inl _ => s) s
          s.pumpPort n

/-- A request word (R502 to R506). The words of one requester and logical port that arrive one after another until `PCNT` of them are in
form one access (R228): the word names none. DESIGN CHOICE (log entry 77). A word of a reserved kind is refused if it holds a DST, else counted (R503). -/
def State.requestWord (s : State) (ps : Stn) (w : BitVec 160) (a b : BitVec 128) : Res :=
  if wKind w = 1 then
    if (match s.agent (wRq w) with | some ag => ag.lst == LSt.held | none => false) then
      .next ((s.bump (psCtr ps 1)).emit (.dord ps (wDst w) .dfree false))
    else
    let mine := (s.ps ps).pieces.filter fun x => wRq x == wRq w && wLp x == wLp w
    if mine.length + 1 < wPcnt w then .next (s.modPs ps fun p => { p with pieces := p.pieces ++ [w] })
    else
      let s := s.modPs ps fun p => { p with pieces := p.pieces.filter fun x => !(wRq x == wRq w && wLp x == wLp w) }
      .next (s.access ps (if mine.isEmpty then [w] else byPix (mine ++ [w])) a b)
  else if wKind w = 0 || 6 ≤ (wKind w).toNat then
    if wDst w = 0 then .next (s.bump (psCtr ps 1)) else .next (s.refuseAll ps [w] .unsupported)
  else stay s

/-- An uncorrectable crossing word of a port station: the word is lost and the fault contained, without a channel (R491, R529). -/
def State.psWordLost (s : State) (n : Stn) : State :=
  (s.logErr { ecls := 3, chk := (noChan 0x0A).chk, chn := (noChan 0x0A).chn, estop := psStop n, ecode := 0x0A, elix := none, eci := none,
              erq := none, bkt := 0, etick := s.clk.tick }).stationGone n

def execRequest (ps : Stn) (w : BitVec 160) (a b : BitVec 128) (fixes : Option Nat) (s : State) : Res :=
  if !s.psUp ps then stay s
  else match fixes with
    | some k => (s.bumpN (psCtr ps 6) k).requestWord ps w a b
    | none => .next (s.psWordLost ps).pump

/-- A refused request is injected again at phase 0 of the next tick (R105, R177). -/
def execRequestReinject (ps : Stn) (mid : Nat) (s : State) : Res :=
  match (s.ps ps).msgs.find? fun m => m.req.mid == mid with
  | none => stay s
  | some m =>
    match m.st with
    | .reinject due =>
      if !s.psUp ps then stay s
      else
        let s := s.goTo due
        .next ((s.inject ps m).pumpPort ps)
    | _ => stay s

/-! ### Messages from slices and engines -/

/-- The packet in place `k`, ejected at a working port station. -/
def State.recvPs {α : Type} (s : State) (k : Nat) (sel : Msg → Option α) : Option (α × Stn × State) :=
  match s.recv k sel with
  | some (a, p, s') =>
    let n : Stn := p.dst.setWidth 3
    if decide (p.dst.toNat < 8) && s.psUp n then some (a, n, s') else none
  | none => none

/-- A message leaves the port station (R149); its access has completed (R271) unless that was counted before. A writeback credit that
it leaves out stays noted (R323). -/
def State.retire (s : State) (n : Stn) (m : Outst) : State :=
  let out := (s.ps n).msgs.any fun x => x.req.mid == m.req.mid && x.cred && x.req.cls.wbClass
  let s := s.modPs n fun p => { p with
    msgs := p.msgs.filter fun x => x.req.mid != m.req.mid,
    owed := if out then p.owed ++ [(credKey m.dest m.req.wbc.toNat, m.req.rqid)] else p.owed }
  if m.req.cls = Cls.aop then s else s.genDec m.req.ci m.req.gen

/-- `RETRY` (R104, R105): the first of an `MW` returns its credit; a lost session's message is given up (R163). -/
def execRetry (k : Nat) (s : State) : Res :=
  match s.recvPs k (fun m => match m with | .retry r => some r | _ => none) with
  | none => stay s
  | some (r, n, s) =>
    match (s.ps n).msgs.find? fun m => m.req.mid == r.mid with
    | none => .next s
    | some m =>
      let s := if m.cred && !r.fwd then s.modPs n fun p => p.setCred m.dest m.req.wbc fun x => (false, x.2) else s
      if m.old then
        let s := (s.freeMsg n r).retire n m
        .next ((if r.cls = Cls.aop then s.genDec r.ci r.gen else s).pumpPort n)
      else
        let s := s.modPs n fun p => { p with
          msgs := updWhere (fun x => x.req.mid == r.mid) (fun x => { x with req := { r with fwd := false }, st := .reinject (s.clk.tick + 1), cred := false }) p.msgs }
        .next (s.pumpPort n)

/-- The writeback credit that a message holds returns. -/
def State.credBack (s : State) (n : Stn) (h : Hs) (c : BitVec 4) : State :=
  s.modPs n fun p => { p.setCred h c (fun x => (false, x.2)) with
    owed := p.owed.filter fun o => o.1 != credKey h c.toNat,
    msgs := updWhere (fun m => m.cred && m.dest == h && m.req.wbc == c) (fun m => { m with cred := false }) p.msgs }

/-- `WBCR` (R103). -/
def execWbcr (k : Nat) (s : State) : Res :=
  match s.recvPs k (fun m => match m with | .wbcr h _ c => some (h, c) | _ => none) with
  | none => stay s
  | some ((h, c), n, s) => .next ((s.credBack n h c).pumpPort n)

/-- `WRADM` (R104): the messages held behind the write are released. -/
def execWradm (k : Nat) (s : State) : Res :=
  match s.recvPs k (fun m => match m with | .wradm _ _ mid => some mid | _ => none) with
  | none => stay s
  | some (mid, n, s) =>
    .next ((s.modPs n fun p => { p with
      msgs := updWhere (fun m => m.req.mid == mid) (fun m => { m with req := { m.req with rwr := false } }) p.msgs }).pumpPort n)

/-- `RSPACK` (R156). -/
def execRspack (k : Nat) (s : State) : Res :=
  match s.recvPs k (fun m => match m with | .rspack h _ c => some (h, c) | _ => none) with
  | none => stay s
  | some ((h, c), n, s) => .next ((s.modPs n fun p => p.setCred h c fun x => (x.1, false)).pumpPort n)

/-- R101: only a BI agent is told a granted state. -/
def State.grantFor (s : State) (rq : Rqid) (g : MVal) : MVal :=
  match s.agent rq with
  | some a => if a.cls = .bi then g else .i
  | none => .i

/-- A completion or a standalone order is delivered (R20, R103, R135, R164, R271, R509). -/
def execCompletionDelivery (k : Nat) (s : State) : Res :=
  match s.recvPs k (fun m => match m with
    | .cpl c => some (Sum.inl c)
    | .dord _ _ d o g rq se => some (Sum.inr (d, o, g, rq, se))
    | _ => none) with
  | none => stay s
  | some (.inr (d, o, g, rq, se), n, s) =>
    let lost := match s.agent rq with | some a => a.sess != se | none => true
    .next (s.emit (.dord n d (if lost && (o == .drel || o == .dpush) then .dfree else o) g))
  | some (.inl c, n, s) =>
    let s := match c.wbc, c.hs with
      | some w, some h => s.credBack n h w
      | _, _ => s
    match (s.ps n).msgs.find? fun m => m.req.mid == c.mid with
    | none =>
      let s := match c.dst with
        | some d => if c.ord = DOrd.none then s else s.emit (.dord n d .dfree c.rgen)
        | none => s
      .next (s.pumpPort n)
    | some m =>
      let s :=
        if m.old then
          match c.dst with
          | some d => if c.ord = .none then s else s.emit (.dord n d .dfree c.rgen)
          | none => s
        else s.emit (.cpl { c with grant := s.grantFor c.rqid c.grant })
      .next ((s.retire n m).pumpPort n)

/-! ### Snoops -/

/-- The agent's link takes snoops (R319, R321). -/
def State.linkOpen (s : State) (a : Agent) : Bool := (a.lst == .up || a.lst == .held) && (s.lport a.lport).up

/-- A link tag is bound to a snoop (R507). -/
def PSt.tagUsed (p : PSt) (lp : Lp) (t : BitVec 12) : Bool := p.snq.any fun q => q.lp == lp && q.given == some t

/-- The first of `n` consecutive free tags, from the port's next one on. -/
def PSt.freeTags (p : PSt) (lp : Lp) (start : BitVec 12) (n : Nat) : Option (BitVec 12) :=
  ((List.range 4096).find? fun i => (List.range n).all fun j => !p.tagUsed lp (start + BitVec.ofNat 12 (i + j))).map fun i =>
    start + BitVec.ofNat 12 i

/-- The snoops waiting with the first that one block snoop may cover: four lines, two, or itself (R508). -/
def PSt.joined (p : PSt) (blk : Bool) (q : SnQ) : List SnQ :=
  let w := p.snq.filter fun x => x.given.isNone && x.lp == q.lp && x.rqid == q.rqid && x.sn.form == q.sn.form
  let pick (n : Nat) : List SnQ :=
    (List.range n).filterMap fun j => w.find? fun x => x.sn.lix.toNat == q.sn.lix.toNat / n * n + j
  if !blk then [q]
  else if (pick 4).length = 4 then pick 4
  else if (pick 2).length = 2 then pick 2
  else [q]

/-- Delivers waiting snoops while tags last (R319, R322, R507, R508). -/
def State.deliverOne (s : State) (n : Stn) : Option State :=
  let p := s.ps n
  let open' (q : SnQ) : Bool := q.given.isNone && (match s.agent q.rqid with | some a => s.linkOpen a | none => false)
  match p.snq.find? open' with
  | none => none
  | some q =>
    let l := s.lport (lportOf n q.lp)
    let js := p.joined l.blk q
    let js := if (p.freeTags q.lp l.tags js.length).isSome then js else [q]
    match p.freeTags q.lp l.tags js.length, s.agent q.rqid with
    | some t, some a =>
      let tagOf (x : SnQ) : BitVec 12 := t + BitVec.ofNat 12 (x.sn.lix.toNat % js.length)
      let give (x : SnQ) : SnQ := if js.contains x then { x with given := some (tagOf x), sess := a.sess, block := js.length } else x
      let s := s.modPs n fun p => { p with snq := p.snq.map give }
      let s := s.modLport (lportOf n q.lp) fun y => { y with tags := t + BitVec.ofNat 12 js.length }
      let lix : Lix := BitVec.ofNat 46 (q.sn.lix.toNat / js.length * js.length)
      let s := s.bumpN (psCtr n 2) js.length
      some (s.emit (.snp n q.lp t q.rqid q.sn.form lix js.length))
    | _, _ => none

/-- The snoops that a station holds and may deliver now, each in its turn. -/
def State.deliverSn (s : State) (n : Stn) : Nat → State
  | 0 => s
  | fuel + 1 =>
    match s.deliverOne n with
    | none => s
    | some s => s.deliverSn n fuel

def State.deliverAll (s : State) (n : Stn) : State := s.deliverSn n ((s.ps n).snq.length + 1)

/-- A snoop reaches a port station: queued and delivered, or discarded with `SNPBUSY` (R144, R319, R418). -/
def execSnoopDelivery (k : Nat) (s : State) : Res :=
  match s.recvPs k (fun m => match m with | .snp x => some x | _ => none) with
  | none => stay s
  | some (x, n, s) =>
    match s.caxAgent x.cax with
    | none => .next s
    | some (rq, a) =>
      let lp : Lp := a.lport.setWidth 7
      if ((s.ps n).snq.filter fun q => q.lp == lp && q.given.isNone).length ≥ 32 then
        .next ((s.bump (psCtr n 3)).send (psStop n) (hsStop x.hs) .rsp false (.snpBusy x))
      else
        let q : SnQ := { sn := x, lp := lp, rqid := rq, sess := a.sess, nsmp := a.lst == .down, given := none, block := 0 }
        .next ((s.modPs n fun p => { p with snq := p.snq ++ [q] }).deliverAll n)

/-- `SNPBUSY` reaches the slice, which records nothing (R144). -/
def execSnpbusy (k : Nat) (s : State) : Res :=
  match s.recvHs k (fun m => match m with | .snpBusy x => some x | _ => none) with
  | none => stay s
  | some (_, _, s) => .next s

/-- The answer that a response word names, and whether it is a block response (R506). -/
def wRsp (w : BitVec 160) : Option (SRsp × Bool) :=
  let r := wRop w
  if r = 0x08 then some (.rspI, false) else if r = 0x09 then some (.rspS, false) else if r = 0x0A then some (.rspE, false)
  else if r = 0x0C then some (.rspI, true) else if r = 0x0D then some (.rspS, true) else if r = 0x0E then some (.rspE, true)
  else none

/-- One line's answer: discarded if its snoop was delivered under an earlier session (R322), else held or sent. -/
def State.answerLine (s : State) (n : Stn) (r : SRsp) (q : SnQ) : State :=
  let s := s.modPs n fun p => { p with snq := p.snq.erase q }
  match s.agent q.rqid with
  | none => s.bump (psCtr n 4)
  | some a =>
    if a.sess != q.sess then s.bump (psCtr n 4)
    else
      let ans : SAns := { hs := q.sn.hs, t := q.sn.t, att := q.sn.att, cax := q.sn.cax, rsp := r, ps := n, wbw := false, wbc := 0,
                          wbg := false, nsmp := q.nsmp }
      s.modPs n fun p => { p with
        held := p.held ++ [{ ans := ans, rqid := q.rqid, lix := q.sn.lix,
                             after := (p.msgs.filter fun m => m.of q.rqid q.sn.lix).map fun m => m.req.mid }] }

/-- The snoop that a link tag answers: the one it was given to, or, for a block response, any one still waiting of the block whose tags take
it in (R508). -/
def SnQ.named (q : SnQ) (lp : Lp) (t : BitVec 12) (blk : Bool) : Bool :=
  q.lp == lp && (q.given == some t || (blk && (match q.given with
    | some g => decide ((t - (g - BitVec.ofNat 12 (q.sn.lix.toNat % max q.block 1))).toNat < q.block)
    | none => false)))

/-- A snoop response word (R152, R154, R322, R383, R506 to R508); one that answers no snoop delivered is counted, and so is
each line of a block response that was answered before. -/
def execSnoopResponse (ps : Stn) (w : BitVec 160) (s : State) : Res :=
  if !s.psUp ps || wKind w != 2 then stay s
  else
    match wRsp w with
    | none => stay s
    | some (r, blk) =>
      let t := w.extractLsb' 29 12
      match (s.ps ps).snq.find? fun q => q.named (wLp w) t blk with
      | none => .next (s.bump (psCtr ps 4))
      | some q =>
        let base := q.sn.lix.toNat / max q.block 1 * max q.block 1
        let all := (s.ps ps).snq.filter fun x =>
          x.given.isSome && x.lp == q.lp && x.block == q.block && x.rqid == q.rqid && x.sn.form == q.sn.form && x.sess == q.sess &&
            decide (base ≤ x.sn.lix.toNat) && decide (x.sn.lix.toNat < base + q.block)
        let late := if blk then q.block - all.length else 0
        let s := (if blk then all else [q]).foldl (fun s x => s.answerLine ps r x) (s.bumpN (psCtr ps 4) late)
        .next ((s.pumpPort ps).deliverAll ps)

/-- Global Persistent Flush (R498, R499). -/
def execGpfReq (ps : Stn) (s : State) : Res :=
  if !s.works (psDom ps) then stay s
  else
    let id := s.gpfSeq
    let s := { s with gpfSeq := id + 1 }
    .next ((s.modPs ps fun p => { p with gpf := p.gpf ++ [id] }).later 1 (.gpfFlag id))

end Sys2Proof.Machine
end

