-- ==== Sys2Proof/Machine/Agents.lean ====
section
/-!
DEFINITION. Agents and sessions: port events (R316 to R321, R375), the grace timer (R318), drain and sweep of a lost session
(R323 to R326), the drain of a disabled agent (R329).
-/

namespace Sys2Proof.Machine

open Sys2Proof

/-- The block stands in a cold or warm reset (R516, R517). -/
def State.inReset (s : State) : Bool := s.coldLow || (s.warmLow && s.running)

/-- A port event for a frozen port station is latched; firmware unparks, or thaws that station (R375). -/
def State.latch (s : State) (ps : Stn) (e : Instr) : State :=
  if s.inReset then s
  else
  let s := { s with latched := s.latched ++ [e] }
  if s.mc.bstate != BState.starting && s.mc.bstate != BState.ready then s
  else if s.parked then (if s.mc.seq.isNone then s.startSeq false s.unparkGroups none else s)
  else if (s.dom (psDom ps)).st == .off && !s.thawDue (psDom ps) && s.mc.seq.isNone then s.startThaw [psDom ps]
  else s

/-- The link has left its active state. -/
def execPevDown (ps : Stn) (lp : Lp) (s : State) : Res :=
  if s.works (psDom ps) then .next (s.linkDown ps lp) else .next (s.latch ps (.pevDown ps lp))

/-- The link has returned: waiting snoops are delivered (R319). -/
def execPevUp (ps : Stn) (lp : Lp) (blk : Bool) (s : State) : Res :=
  if s.works (psDom ps) then
    let s := s.linkUp ps lp blk
    .next (if s.psUp ps then s.deliverAll ps else s)
  else .next (s.latch ps (.pevUp ps lp blk))

/-- Fundamental or hot reset of the link. -/
def execPevReset (ps : Stn) (lp : Lp) (s : State) : Res :=
  if s.works (psDom ps) then .next (s.linkReset ps lp).pump else .next (s.latch ps (.pevReset ps lp))

/-- Presence of the attached component lost: as a reset. -/
def execPevGone (ps : Stn) (lp : Lp) (s : State) : Res :=
  if s.works (psDom ps) then .next (s.linkReset ps lp).pump else .next (s.latch ps (.pevGone ps lp))

/-- The grace timer expires (R318, R320). -/
def execGraceTimerExpiry (rq : Rqid) (s : State) : Res :=
  match s.agent rq with
  | none => stay s
  | some a =>
    match a.lst, a.grace with
    | .down, some d =>
      let s := s.goTo d
      .next (s.loseSession rq true).pump.closeCycle
    | _, _ => stay s

/-- The credits of an agent that was held out are restored, or it waits for `AGENT_READMIT` (R326). -/
def State.release (s : State) (rq : Rqid) : State :=
  match s.agent rq with
  | none => s
  | some a =>
    let s := { s with be := { s.be with losses := s.be.losses.filter (· != rq) } }
    let s := s.setAgent rq { a with swp := false }
    if a.rdm then s else s.later 1 (.credits rq)

/-- Nothing of a lost session is outstanding at its port station, and every writeback credit it used is back (R323). -/
def State.drained (s : State) (rq : Rqid) (a : Agent) : Bool :=
  let p := s.ps (a.lport.extractLsb' 7 3)
  (p.msgs.all fun m => !(m.req.rqid == rq && m.old)) && p.owed.all fun o => o.2 != rq

/-- The session is drained: a BI agent's loss sweep is queued (R324). -/
def execSessionDrain (rq : Rqid) (s : State) : Res :=
  match s.agent rq with
  | none => stay s
  | some a =>
    if !a.swp || !s.drained rq a || (s.be.sweeps.any fun o => o.q == 4096 + rq.toNat) then stay s
    else
      match a.cax with
      | some c => .next (s.queueSweep rq c a.lostMem)
      | none => .next (s.release rq)

/-- The loss sweep has ended (R326). -/
def execAgentSweepEnd (rq : Rqid) (s : State) : Res :=
  match s.be.sweeps.find? fun o => o.q == 4096 + rq.toNat with
  | none => stay s
  | some o =>
    if !s.opDone o then stay s
    else
      let s := { s with be := { s.be with sweeps := s.be.sweeps.erase o } }
      .next ((s.bump 0xE42).release rq)

/-- A message is outstanding once it has been injected (R149). -/
def Outst.isOut (m : Outst) : Bool := m.st != .waiting

/-- General messages of an agent outstanding at its port station. -/
def State.generalOut (s : State) (rq : Rqid) (a : Agent) : Bool :=
  (s.ps (a.lport.extractLsb' 7 3)).msgs.any fun m =>
    m.isOut && m.req.rqid == rq && !m.req.cls.wbClass && m.req.cls != .bic

/-- The next instance of a disabled agent is swept in recall form; after the last the command ends (R329). -/
def State.disableNext (s : State) (cmd : BitVec 512) (rq : Rqid) (left : List Ci) : State :=
  match s.agent rq with
  | none => s.finish cmd .done
  | some a =>
    match a.cax, left with
    | some c, ci :: rest =>
      let set (l : LongCmd) : LongCmd := if l.cmd == cmd then { l with job := .agentDisable rq rest true } else l
      ({ s with mc := { s.mc with longs := s.mc.longs.map set } } : State).queueBulk false (.agentRecall c) ci cmd
    | _, _ => s.finish cmd .done

/-- No general message of the disabled agent is outstanding any more. -/
def execAgentDisableDrain (rq : Rqid) (s : State) : Res :=
  match s.mc.longs.find? fun l => (match l.job with | .agentDisable r _ false => r == rq | _ => false), s.agent rq with
  | some l, some a =>
    if s.generalOut rq a || a.enPs then stay s
    else .next (s.disableNext l.cmd rq (if a.cax.isSome then s.memberOf rq else []))
  | _, _ => stay s

end Sys2Proof.Machine
end

