-- ==== Sys2Proof/Machine/Lottery.lean ====
section
/-!
DEFINITION. The commands of the lottery and of the bulk engine's steps (R292 to R310).
-/

namespace Sys2Proof.Machine

open Sys2Proof

/-- A draw (R292 to R295): with no holder or in the last cycle of its grant, no recovery sweep waiting, the engine enabled. The grant
begins with the next cycle. -/
def execLotteryDraw (e : Eng) (s : State) : Res :=
  let a := s.arb e
  if (a.holder.isSome && !a.ending) || a.won.isSome || !a.en || !s.running || (e == .be && !s.be.sweeps.isEmpty) then stay s
  else .next (s.modArb e fun b => { b with won := s.draw e a.holder })

/-- The holder no longer requests, or was cut: this is the last cycle of its grant (R295, R303); a disable that waits for its work is
answered once it has ended (R306). -/
def execGrantEnd (e : Eng) (s : State) : Res :=
  match (s.arb e).holder with
  | none => .next s.engEnds
  | some q =>
    let over' := if q = 65 then s.be.sweeps.isEmpty else !s.requests e q
    if over' || (s.arb e).cut then .next (s.modArb e fun a => { a with ending := true }) else stay s

/-- The current grant is cut: the cut acts as the next cycle begins (R202, R298, R299, R301). -/
def State.cutGrant (s : State) (e : Eng) : State :=
  s.modArb e fun a => if a.holder.isSome then { a with cut := true, ending := true } else a

/-- The `CUT` bit of an engine in `IW_LOT` (R305). -/
def Eng.cutBit : Eng → Nat
  | .te0 => 52
  | .te1 => 53
  | .be => 54

/-- A `CUT` bit is set (R297, R305). -/
def State.markCut (s : State) (c : Ci) (e : Eng) : State :=
  let v := s.hwSet (.lot c) (((s.inst c).cut.setWidth 64) <<< 52) (Eng.cutBit e) 55
  (s.modInst c fun i => { i with cut := v.extractLsb' 52 4 }).hwNote (.lot c) (Eng.cutBit e)

/-- The block-wide hold-cut counter of an engine (R297, R440). -/
def Eng.cutCtr : Eng → Nat
  | .te0 => teCtr false 4
  | .te1 => teCtr true 4
  | .be => 0xE41

/-- The watchdog of a grant expires (R297), unless the grant ends in the same core cycle (R33). -/
def execHoldWatchdogExpiry (e : Eng) (s : State) : Res :=
  match (s.arb e).holder, (s.arb e).dl with
  | some q, some d =>
    let s := s.goTo d
    if (s.arb e).holder != some q || (s.arb e).ending then .next s
    else
      let s := s.modArb e fun a => { a with dl := none }
      let s := if q < 64 then s.markCut (BitVec.ofNat 6 q) e else s
      let s := s.bump (Eng.cutCtr e)
      .next (if s.arbMode = .service then s.cutGrant e else s).closeCycle
  | _, _ => stay s

/-- A waiting recovery sweep cuts BE's grant and takes it, in the next cycle (R301). -/
def execEmergencyPreempt (s : State) : Res :=
  if s.be.sweeps.isEmpty || (s.arbB.holder == some 65 && !s.arbB.ending) || !s.running then stay s
  else .next ((s.cutGrant .be).modArb .be fun a => { a with won := some 65 })

/-- The hints of every instance on an engine (R304). -/
def State.hintsOf (s : State) (e : Eng) : List Nat := (List.range 64).map (s.hint e)

/-- Phase 0: the hints of every instance on every engine (R304, R305). -/
def execHintUpdate (s : State) : Res :=
  let s := s.toPhase0
  .next { s with arb0 := { s.arb0 with hints := s.hintsOf .te0 }, arb1 := { s.arb1 with hints := s.hintsOf .te1 },
                 arbB := { s.arbB with hints := s.hintsOf .be } }

/-! ### Steps of the bulk engine (R308) -/

/-- Changes the operation of a number. -/
def State.modOp (s : State) (id : Nat) (f : BulkOp → BulkOp) : State :=
  let g (o : BulkOp) : BulkOp := if o.id == id then f o else o
  { s with be := { s.be with ops := s.be.ops.map g, sweeps := s.be.sweeps.map g } }

def BStep.new (pos : Nat) (todo : List BItem) (awaited : Nat) : BStep :=
  { pos := pos, todo := todo, busy := false, awaited := awaited, more := false, cut := false }

/-- A non-coherent zero-fill step: 64 lines written from BE (R68, R309). -/
def State.fillStep (s : State) (op step : Nat) (mpid : Mpid) (base : Nat) : State :=
  (List.range 64).foldl (fun s j =>
    let c := { mkCmd 0 .memwr mpid (BitVec.ofNat 46 (base + 64 * step + j)) (.beFill op step) with src := .be, rime := some .clear }
    s.send beStop (msStop (msOf mpid)) .req false (.mcmd c)) s

/-- A resynchronisation step (R412): `MDIR` for each entry of the instance in two sets of every active slice. -/
def State.resyncStep (s : State) (c : Ci) (i : Nat) : State :=
  s.activeSlices.foldl (fun s n => ((s.slice n).inSets i).foldl (fun s p => if p.2.ci == c then s.mdir n c p.1 p.2 else s) s) s

/-- A step of R407: the instance's entries leave the SF and the victim buffer without snoops or memory writes. -/
def State.dropStep (s : State) (c : Ci) (i : Nat) : State :=
  { s with slices := s.slices.map fun p => (p.1, { p.2 with
      sf := p.2.sf.filter fun e => !(e.2.ci == c && e.1 / 16 / 2 == i),
      vb := p.2.vb.filter fun v => !(v.ent.ci == c && v.set.toNat / 2 == i) }) }

/-- The logical slice's home reads set `j` of its part of a firn for a sweep step. -/
def State.firnSweep (s : State) (c : Ci) (j op step : Nat) : State :=
  let per := 2 ^ ((s.inst c).firnLog2 - 5)
  (List.range 32).foldl (fun s ls =>
    let fl := ls * per + j
    let h := (s.smap[ls]?).getD 0
    s.addAcc h c fl 0 (.bulk op step)) s

/-- Begins one step of an operation: the next one to run again, else the next. -/
def State.beginStep (s : State) (o : BulkOp) : Option State :=
  let (pos, again) := match o.again with
    | p :: r => (p, r)
    | [] => (o.pos, [])
  let fresh := o.again.isEmpty
  let put (s : State) (st : BStep) (next : Nat) : State :=
    s.modOp o.id fun p => { p with again := again, pos := if fresh then next else p.pos, outst := p.outst ++ [st] }
  match o.kind with
  | .region _ _ | .agentRecall _ | .agentLoss _ _ _ =>
    if pos < sfSteps then
      if s.migrating pos then none else some (put s (BStep.new pos (s.sfItems o pos) 0) (pos + 1))
    else
      match firnStep (s.sweepFirns o) (pos - sfSteps) with
      | some (c, j) => some ((put s (BStep.new pos [] 32) (pos + 1)).firnSweep c j o.id pos)
      | none => none
  | .zfillCoh _ _ _ | .firnRebuild | .sfRebuild _ | .walk =>
    let r := s.walkStep o pos
    some (put s (BStep.new pos r.1 0) r.2)
  | .zfillFirn =>
    let i := s.inst o.ci
    some ((put s (BStep.new pos [] 64) (pos + 1)).fillStep o.id pos i.firnMpid (i.firnBase.toNat * 2 ^ 14))
  | .zfillRt m =>
    match s.port m with
    | some p => some ((put s (BStep.new pos [] 64) (pos + 1)).fillStep o.id pos m (p.rtBase.toNat * 64))
    | none => none
  | .fold => if (s.migrating pos) then none else some (put s (BStep.new pos [] 0) (pos + 1))
  | .rotate =>
    let i := s.inst o.ci
    if i.rotBusy then none
    else some ((put s (BStep.new pos [] 1) (pos + 1)).modInst o.ci fun i => { i with rotBusy := true })
  | .resync => some ((put s (BStep.new pos [] 0) (pos + 1)).resyncStep o.ci pos)
  | .drop407 => some ((put s (BStep.new pos [] 0) (pos + 1)).dropStep o.ci pos)

/-- The operation that holds BE: the first recovery sweep, or that of the grant holder's queue. -/
def State.beCurrent (s : State) : Option BulkOp :=
  match s.arbB.holder with
  | some q => if q = 65 then s.be.sweeps.head? else s.beHead q
  | none => none

/-- Steps outstanding, over every operation. -/
def Be.outstanding (b : Be) : Nat := ((b.ops ++ b.sweeps).map fun o => o.outst.length).sum

/-- The operation that BE may issue a step of: the holder's, with at most 8 steps outstanding (R308). -/
def State.stepReady (s : State) : Option BulkOp :=
  match s.beCurrent with
  | none => none
  | some o => if s.opMore o && decide (s.be.outstanding < 8) && s.works 82 && s.running then some o else none

/-- Phase 0: one step of the holder's operation, the only one of this tick (R308). -/
def execBulkStepIssue (s : State) : Res :=
  if s.stepReady.isNone then stay s
  else
    let s := s.toPhase0
    match s.stepReady with
    | none => .next s
    | some o =>
      if s.be.issued == some s.clk.tick then .next s
      else match s.beginStep o with
        | some s => .next ((({ s with be := { s.be with issued := some s.clk.tick } } : State).bump 0xE40).pump)
        | none => .next s

/-- All that a step caused has completed. -/
def BStep.complete (b : BStep) : Bool := b.todo.isEmpty && !b.busy && b.awaited == 0

/-- The `n`-th step outstanding, over every operation. -/
def State.nthStep (s : State) (n : Nat) : Option (BulkOp × BStep) :=
  ((s.be.ops ++ s.be.sweeps).flatMap fun o => o.outst.map fun b => (o, b))[n]?

/-- What follows the completion of a step: `MP` of a fold (R378), `TRP` of a recall walk (R410). -/
def State.stepDone (s : State) (o : BulkOp) (b : BStep) : State :=
  match o.kind with
  | .fold => { s with fold := s.fold.map fun f => { f with mp := max f.mp (2 * b.pos + 2) } }
  | .walk =>
    let rs := (s.inst o.ci).cohRanges
    let open' := (o.outst.filter fun c => c.pos != b.pos).map fun c => c.pos
    let first := open'.foldl min (s.opMore o |> fun m => if m then o.pos else rangesLen rs)
    s.modInst o.ci fun i => { i with trp := (rangesAt rs first).getD (2 ^ 46) }
  | _ => s

/-- A step of a fold ends when its sets have been handed over and installed everywhere, in the order of the steps (R379); any other
when all that it caused has completed. -/
def State.stepOver (s : State) (o : BulkOp) (b : BStep) : Bool :=
  b.complete && (o.kind != .fold ||
    ((s.activeSlices.all fun h =>
      let x := s.slice h
      !(match s.fold with | some f => f.oldMap.contains h && (f.oldMap.zip f.newMap).any fun p => p.1 == h && p.2 != h | none => false) ||
      (x.moved.contains (BitVec.ofNat 14 (2 * b.pos)) && x.moved.contains (BitVec.ofNat 14 (2 * b.pos + 1)))) &&
    (s.slices.all fun p => p.2.install.all fun t => t.2.1.toNat / 2 != b.pos) &&
    (s.mesh.pkts.all fun (p : Pkt) => p.bodies.all fun m => match m with | .moving _ set _ _ => set.toNat / 2 != b.pos | _ => true) &&
    (match o.outst with | c :: _ => c.pos == b.pos | [] => false)))

/-- A step has completed (R308): it is done, or runs again. -/
def execBulkStepComplete (n : Nat) (s : State) : Res :=
  match s.nthStep n with
  | none => stay s
  | some (o, b) =>
    if !s.stepOver o b then stay s
    else
      let s := if b.more then s else s.stepDone o b
      .next (s.modOp o.id fun p =>
        { p with outst := p.outst.filter fun c => c.pos != b.pos, done := if b.more then p.done else p.done + 1,
                 again := if b.more && !p.stopped then p.again ++ [b.pos] else p.again })

end Sys2Proof.Machine
end

