-- ==== Sys2Proof/Machine/Memory.lean ====
section
/-!
DEFINITION. A memory station (R87 to R91, R113, R233, R511 to R513): its commands in issue order, the rime bits of a META port and
of a Rime Table behind the rime cache, reissue after a failure.
-/

namespace Sys2Proof.Machine

open Sys2Proof

def State.modMs (s : State) (n : Stn) (f : MSt → MSt) : State := s.setMs n (f (s.ms n))

/-- The Rime Table line that holds a line's bits, and their place in it (R88). -/
def PortDesc.rtLix (p : PortDesc) (l : Lix) : Lix := BitVec.ofNat 46 (p.rtBase.toNat * 64 + (l.toNat - p.base.toNat * 2 ^ 14) / 256)
def PortDesc.rtBit (p : PortDesc) (l : Lix) : Nat := (l.toNat - p.base.toNat * 2 ^ 14) % 256 * 2

def rtGet (d : Line) (b : Nat) : Rime := Rime.ofCode (d.extractLsb' b 2)
def rtPut (d : Line) (b : Nat) (v : Rime) : Line := (d &&& ~~~((3#512) <<< b)) ||| ((v.code.setWidth 512) <<< b)

/-- A TABLE-mode port whose table governs the line: the table and firn areas themselves carry no entry of their own (R68). -/
def State.tablePort (s : State) (m : Mpid) : Option PortDesc :=
  match s.port m with
  | some p => if p.table then some p else none
  | none => none

/-! ### The rime cache (R89) -/

/-- A line brought to the front of the cache, the least recently used of its set leaving a full one. The low 8 bits of the table
line's index choose its set of the 256: the spec names no index. DESIGN CHOICE (log entry 76). -/
def cachePut (l : List (Nat × Line)) (k : Nat) (d : Line) : List (Nat × Line) :=
  let rest := l.filter fun p => p.1 != k
  let set := rest.filter fun p => p.1 % 256 == k % 256
  let rest := if set.length ≥ 16 then
      match set.getLast? with
      | some v => rest.filter fun p => p.1 != v.1
      | none => rest
    else rest
  (k, d) :: rest

/-! ### Commands toward the port -/

def MCmd.isMeta (c : MCmd) : Bool := c.kind == .mdrd || c.kind == .mdupd

/-- The command changes the stored rime bits. -/
def MCmd.changesRime (c : MCmd) : Bool := c.rime.isSome && (c.kind == .memwr || c.kind == .mdupd || c.kind == .memaop)

/-- The command returns the stored rime bits. -/
def MCmd.readsRime (c : MCmd) : Bool := c.kind == .memrd || c.kind == .mdrd

def MEnt.new (c : MCmd) (table : Bool) : MEnt :=
  { cmd := c, sent := false, line := table && c.isMeta, mst := 0, data := 0, failed := false,
    rpart := if table && !c.own && (c.readsRime || c.changesRime) then .read else .none, rime := .clear }

/-- Sends to the port each command whose line has no failed one ahead of it. -/
def State.msSend (s : State) (n : Stn) : State :=
  let step (p : List MEnt × List MCmd) (e : MEnt) : List MEnt × List MCmd :=
    let behind := p.1.any fun f => f.cmd.lix == e.cmd.lix && f.cmd.mpid == e.cmd.mpid && (f.failed || f.cmd.reiss)
    if e.sent || e.line || behind then (p.1 ++ [e], p.2) else (p.1 ++ [{ e with sent := true }], p.2 ++ [e.cmd])
  let r := (s.ms n).cmds.foldl step ([], [])
  r.2.foldl (fun s c => s.emit (.mem n c)) (s.modMs n fun x => { x with cmds := r.1 })

/-- A Rime Table command of the station itself. -/
def rtCmd (k : MKind) (m : Mpid) (l : Lix) (p : Purp) (d : Line) : MCmd :=
  { mkCmd 0 k m l p with src := .ms, data := d, rime := if k = .memwr then some .clear else none }

/-- Serves the rime part of one command from the cached line, or asks for the line (R89, R90). -/
def State.rimeServe (s : State) (n : Stn) (i : Nat) (miss : Bool) : State :=
  let x := s.ms n
  match x.cmds[i]? with
  | none => s
  | some e =>
    if e.rpart != .read then s
    else
      match s.tablePort e.cmd.mpid with
      | none => s
      | some p =>
        let k := (p.rtLix e.cmd.lix).toNat
        let b := p.rtBit e.cmd.lix
        match tGet x.rcache k with
        | some d =>
          let s := if miss then s else s.bump (msCtr n 3)
          if e.cmd.changesRime then
            let d := rtPut d b (e.cmd.rime.getD .clear)
            let w := MEnt.new (rtCmd .memwr e.cmd.mpid (p.rtLix e.cmd.lix) .rtWrite d) true
            s.modMs n fun x => { x with rcache := cachePut x.rcache k d,
                                        cmds := (x.cmds.modify i fun e => { e with rpart := .write }) ++ [w] }
          else
            s.modMs n fun x => { x with rcache := cachePut x.rcache k d,
                                        cmds := x.cmds.modify i fun e => { e with rpart := .done, rime := rtGet d b } }
        | none =>
          let asked := x.cmds.any fun f => f.cmd.own && f.cmd.purp == .rtRead && f.cmd.lix.toNat == k && f.cmd.mpid == e.cmd.mpid
          let s := if miss then s else s.bump (msCtr n 4)
          if asked then s
          else s.modMs n fun x => { x with cmds := x.cmds ++ [MEnt.new (rtCmd .memrd e.cmd.mpid (p.rtLix e.cmd.lix) .rtRead 0) true] }

def State.rimeServeAll (s : State) (n : Stn) (miss : Bool) : State :=
  (List.range (s.ms n).cmds.length).foldl (fun s i => s.rimeServe n i miss) s

/-! ### Completions -/

/-- The line part and the rime part are both done. -/
def MEnt.complete (e : MEnt) : Bool := e.line && (e.rpart == .none || e.rpart == .done)

/-- A write of BE has completed (R308, R309). -/
def State.fillDone (s : State) (op step : Nat) : State :=
  let f (o : BulkOp) : BulkOp :=
    if o.id == op then { o with outst := o.outst.map fun b => if b.pos == step && b.awaited > 0 then { b with awaited := b.awaited - 1 } else b } else o
  { s with be := { s.be with ops := s.be.ops.map f } }

/-- Answers the issuer of a complete command. -/
def State.msAnswer (s : State) (n : Stn) (e : MEnt) : State :=
  match e.cmd.src with
  | .hs h => s.send (msStop n) (hsStop h) (if e.cmd.readsRime || e.cmd.kind == .memaop then .dat else .rsp) false (.mcpl e.cmd e.mst e.rime e.data)
  | .be => match e.cmd.purp with
    | .beFill op step => s.fillDone op step
    | _ => s
  | .ms => s

/-- Answers and frees every complete command. -/
def State.msFlush (s : State) (n : Stn) : State :=
  let l := (s.ms n).cmds
  let s := s.modMs n fun x => { x with cmds := l.filter fun e => !e.complete }
  (l.filter MEnt.complete).foldl (fun s e => s.msAnswer n e) s

def State.msPump (s : State) (n : Stn) : State := (s.msSend n).msFlush n

/-- A memory station takes a command: it works, its port's queue has room, the port is not retired (R148, R233, R488). The station's own
Rime Table commands take no place of the 64, here and in the report of R233. DESIGN CHOICE (log entry 79). -/
def State.msTakes (s : State) (n : Stn) (c : MCmd) : Bool :=
  s.works (msDom n) && decide (((s.ms n).cmds.filter fun e => e.cmd.mpid == c.mpid && !e.cmd.own).length < 64) &&
    !s.ret.chans.contains { chk := 4, chn := c.mpid.setWidth 12 }

/-- The command's rime bits lie in a Rime Table (R68). -/
def State.tabled (s : State) (c : MCmd) : Bool :=
  (s.tablePort c.mpid).isSome && (match c.purp with | .firnRd _ _ | .firnWr _ | .beFill _ _ => false | _ => true)

/-- A memory or metadata command reaches its station; it is refused only while its port's queue is full (R148, R233). -/
def execMemoryCommand (k : Nat) (s : State) : Res :=
  match s.recv k (fun m => match m with | .mcmd c => some c | _ => none) with
  | none => stay s
  | some (c, p, s') =>
    let n : Stn := p.dst.setWidth 3
    if !s.msTakes n c then stay s
    else
      let s := s'.bump (msCtr n (if c.isMeta then 1 else 0))
      let i := (s.ms n).cmds.length
      let s := s.modMs n fun x => { x with cmds := x.cmds ++ [MEnt.new c (s.tabled c)] }
      .next ((s.rimeServe n i false).msPump n)

/-- Fields of a completion word (R511). -/
def mKind (w : BitVec 160) : Option MKind :=
  let k := w.extractLsb' 0 4
  if k = 1 then some .memrd else if k = 2 then some .memwr else if k = 3 then some .mdrd else if k = 4 then some .mdupd
  else if k = 5 then some .memaop else none

/-- The command that a completion word answers: the first one sent, by kind, port, line, tag and read generation (log entry 31). -/
def MEnt.answeredBy (e : MEnt) (w : BitVec 160) : Bool :=
  e.sent && !e.line && some e.cmd.kind == mKind w && e.cmd.mpid == w.extractLsb' 4 8 && e.cmd.lix == w.extractLsb' 12 46 &&
  e.cmd.dst.isSome == w.getLsbD 74 && (match e.cmd.dst with | some d => d == w.extractLsb' 58 16 && e.cmd.rgen == w.getLsbD 75 | none => true)

/-- A Rime Table line arrives: every command that waits for it is served (R89, R98). -/
def State.rtArrived (s : State) (n : Stn) (e : MEnt) (poison : Bool) (d : Line) : State :=
  let k := e.cmd.lix.toNat
  let s := if poison then s.faultEv 3 { chk := 4, chn := e.cmd.mpid.setWidth 12 } (msStop n) 5 (some e.cmd.lix) else s
  let d := if poison then BitVec.allOnes 512 else d
  let s := s.modMs n fun x => { x with rcache := cachePut x.rcache k d }
  let s := if poison then
      s.modMs n fun x => { x with cmds := x.cmds ++ [MEnt.new { rtCmd .memwr e.cmd.mpid e.cmd.lix .rtWrite d with rtpsn := true } true] }
    else s
  s.rimeServeAll n true

/-- The write of a Rime Table line has completed: the oldest change that waits for it is done. -/
def State.rtWritten (s : State) (n : Stn) (e : MEnt) : State :=
  match s.tablePort e.cmd.mpid with
  | none => s
  | some p =>
    let l := (s.ms n).cmds
    match l.findIdx? fun f => f.rpart == .write && f.cmd.mpid == e.cmd.mpid && p.rtLix f.cmd.lix == e.cmd.lix with
    | some i => s.modMs n fun x => { x with cmds := x.cmds.modify i fun f => { f with rpart := .done } }
    | none => s

/-- A queue entry in place `j` when the one in place `i`, `e`, failed: that is reissued, a later one sent to its line waits behind it. -/
def MEnt.behind (f : MEnt) (i j : Nat) (e : MEnt) : MEnt :=
  if j = i then { f with cmd := { f.cmd with reiss := true }, failed := false }
  else if j > i && f.sent && !f.line && !f.cmd.reiss && f.cmd.lix == e.cmd.lix && f.cmd.mpid == e.cmd.mpid then { f with failed := true }
  else f

/-- The entry's rime bits come from the device's metadata field of a META port (R87). -/
def MEnt.metaRime (f : MEnt) : Bool := f.rpart == .none && f.cmd.readsRime

/-- A queue entry with what its completion word brings; rime bits in error (`rerr`) resolve the line as UNKNOWN (R98). -/
def MEnt.answered (f : MEnt) (w : BitVec 160) (d : Line) (rerr : Bool) : MEnt :=
  { f with line := true, failed := false, mst := w.extractLsb' 80 2, data := d,
           rime := if f.metaRime then if rerr then .unknown else Rime.ofCode (w.extractLsb' 76 2) else f.rime }

/-- A completion word arrives at a memory station; `MST` 10 reissues its command (R513). -/
def State.completionWord (s : State) (ms : Stn) (w : BitVec 160) (d : Line) (rerr : Bool) : Res :=
  match (s.ms ms).cmds.findIdx? fun e => e.answeredBy w with
  | none => stay s
  | some i =>
    match (s.ms ms).cmds[i]? with
    | none => stay s
    | some e =>
      let mst := w.extractLsb' 80 2
      if mst = 2 then
        let s := if e.failed then s else
          s.faultEv 2 { chk := 4, chn := e.cmd.mpid.setWidth 12 } (msStop ms) 0x17 (some e.cmd.lix)
        let s := s.modMs ms fun x => { x with cmds := x.cmds.mapIdx fun j f => f.behind i j e }
        .next (if s.ret.chans.contains { chk := 4, chn := e.cmd.mpid.setWidth 12 } then s else s.emit (.mem ms { e.cmd with reiss := true }))
      else
        let s := if rerr && e.metaRime && !e.cmd.own then
            s.faultEv 3 { chk := 4, chn := e.cmd.mpid.setWidth 12 } (msStop ms) 4 (some e.cmd.lix) else s
        let s := s.modMs ms fun x => { x with cmds := x.cmds.modify i fun f => f.answered w d rerr }
        let s := match e.cmd.purp with
          | .rtRead => if e.cmd.own then s.rtArrived ms e (mst == 1) d else s
          | .rtWrite => if e.cmd.own && !e.cmd.rtpsn then s.rtWritten ms e else s
          | _ => s
        .next ((s.msPump ms).pump)

/-- A crossing word of a memory station that is uncorrectable is fatal (R98, R491, R529). -/
def execMemoryPortCompletion (ms : Stn) (w : BitVec 160) (d : Line) (fixes : PortCheck) (s : State) : Res :=
  if !s.works (msDom ms) then stay s
  else match fixes.fixes with
    | some k => (s.bumpN (msCtr ms 5) k).completionWord ms w d fixes.rime
    | none => .next (s.fatal (noChan 0x0A) (msStop ms) 0x0A)

end Sys2Proof.Machine
end

