-- ==== Sys2Proof/Machine/HomeCmds.lean ====
section
/-!
DEFINITION. The commands of the home slices: admission, writebacks, snoop answers and timeouts, memory completions, firn
data, retries, locks and releases, `DPULL` data.
-/

namespace Sys2Proof.Machine

open Sys2Proof

/-- The requests that the slice has forwarded and that are on their way (R380). -/
def State.fwdOut (s : State) (n : Hs) : Nat :=
  ((s.mesh.pkts.flatMap Pkt.bodies).filter fun m => match m with | .fwd src _ _ false => src == n | _ => false).length

/-- A general request reaches a slice (R98, R102, R105 to R107, R379, R380). -/
def execRequestAdmission (a : SfLook) (s : State) : Res :=
  match s.recvHs a.k (fun m => match m with | .req r => some r | _ => none) with
  | none => stay s
  | some (r, n, s) =>
    let s := if r.kind = .coh then s.checkSet n (lineSet r.lix) a.errs else s
    let s := match s.foldAct n r.lix with
      | .own => s.admitGeneral n r
      | .refuse => s.refuseReq n r
      | .forward d =>
        if r.fwd then s.admitGeneral n r
        else if s.fwdOut n ≥ 32 then s.refuseReq n r
        else s.send (hsStop n) (hsStop d) .req false (.fwd n d { r with fwd := true } false) (some (r.itk, r.urg))
    .next s.pump

/-- An `MW` reaches its home (R103, R104). -/
def execMw (k : Nat) (s : State) : Res :=
  match s.recvHs k (fun m => match m with | .wbm r => if r.cls = Cls.mw then some r else none | _ => none) with
  | none => stay s
  | some (r, n, s) =>
    .next (match s.wbAct n r.lix with
      | some d => s.fwdWriteback n d r
      | none => s.admitMw n r).pump

/-- A `CLN` reaches its home (R117). -/
def execCln (k : Nat) (s : State) : Res :=
  match s.recvHs k (fun m => match m with | .wbm r => if r.cls = Cls.cln then some r else none | _ => none) with
  | none => stay s
  | some (r, n, s) =>
    .next (match s.wbAct n r.lix with
      | some d => s.fwdWriteback n d r
      | none => s.admitCln n r).pump

/-- A `BIC` reaches its home (R134). -/
def execBic (k : Nat) (s : State) : Res :=
  match s.recvHs k (fun m => match m with | .wbm r => if r.cls = Cls.bic then some r else none | _ => none) with
  | none => stay s
  | some (r, n, s) =>
    .next (match s.wbAct n r.lix with
      | some d => s.fwdWriteback n d r
      | none => s.admitBic n r).pump

/-- The sample of R418 and R419. -/
def State.sample (s : State) (n : Hs) (a : SAns) : State :=
  match s.trk n a.t with
  | none => s
  | some x =>
    match x.snps.find? fun o => o.cax == a.cax with
    | none => s
    | some o =>
      if o.att != 0 || a.att != 0 || a.nsmp || !o.sent || o.parked.isSome then s
      else
        let c := min ((16 * (s.clk.tick - o.inj.tick).toNat + s.clk.phase.toNat - o.inj.phase.toNat) % 2 ^ 24) (2 ^ 24 - 1)
        if (s.slice n).calQ.length < 16 then s.modSlice n fun y => { y with calQ := y.calQ ++ [(a.cax, c)] }
        else (s.bump (hsCtr n 20)).tapChurn n 4 x.req.lix.toNat (some x.req.ci) (some x.req.lix)

/-- A snoop response reaches the slice (R132, R155, R418). -/
def execSliceSnoopResponse (k : Nat) (s : State) : Res :=
  match s.recvHs k (fun m => match m with | .sans a => some a | _ => none) with
  | none => stay s
  | some (a, n, s) =>
    let s := s.sample n a
    let known := match s.trk n a.t with
      | some x => x.snps.any fun o => o.cax == a.cax && o.sent && o.parked.isNone
      | none => false
    let s :=
      if !known then s.lateRsp n a
      else if !a.wbw || (s.slice n).admgOf a.ps a.wbc == a.wbg then s.applyAns n a.t a
      else
        let g (o : SnpOut) : SnpOut := if o.cax == a.cax then { o with parked := some a } else o
        s.modTrk n a.t fun x => { x with snps := x.snps.map g }
    .next s.pump

/-- A snoop's timeout expires: sent again, or its agent declared failed (R131 to R133). -/
def execSnoopTimeout (hs : Hs) (t : Nat) (c : Cax) (s : State) : Res :=
  match s.trk hs t with
  | none => stay s
  | some x =>
    match x.snps.find? fun o => o.cax == c with
    | none => stay s
    | some o =>
      if !o.sent || o.parked.isSome || !s.hsUp hs then stay s
      else
        let s := s.goTo o.deadline
        let s := (s.bump (hsCtr hs 3)).bumpI x.req.ci 0x04
        let s := if o.att < s.params.biRetry then s.snoopOut hs t x.req.ci x.req.lix { o with att := o.att + 1 }
          else s.failAgent hs c x.req.lix x.req.ci
        .next s.pump.closeCycle

/-- A hold window ends (R126): the snoops it held back are sent. -/
def execHoldWindowExpiry (hs : Hs) (lix : Lix) (c : Cax) (s : State) : Res :=
  match (s.slice hs).hold.find? fun h => h.lix == lix && h.cax == c with
  | none => stay s
  | some h =>
    let s := s.goTo h.expiry
    let s := s.modSlice hs fun x => { x with hold := x.hold.filter fun y => !(y.lix == lix && y.cax == c) }
    .next ((s.flushHeld hs).pump)

/-! ### Memory completions -/

/-- The `MEMWR` of a posted line has completed (R235): the line is freed if it carried the latest contents. -/
def State.plbDone (s : State) (n : Hs) (seq : Nat) : State :=
  match (s.slice n).plb.find? fun p => p.seq == seq && p.posted with
  | none => s
  | some p =>
    let kept := fun (l : List PlbLine) => if p.resv.isEmpty
      then l.filter fun q => q.lix != p.lix
      else updWhere (fun q => q.lix == p.lix) (fun q => { q with posted := false, gpf := [] }) l
    let s := s.modSlice n fun x => { x with plb := kept x.plb }
    let s := if (s.inst p.ci).twin then
        let s := s.twinRec (hsStop n) p.ci 3 p.lix 0
        { s with tw := { s.tw with credits := min 4096 (s.tw.credits + 1) } }
      else s
    s.gpfCheck

/-- A read of a request has completed (R114, R115, R121, R171, R513). -/
def State.readDone (s : State) (n : Hs) (t : Nat) (rgen : Bool) (mst : BitVec 2) (rime : Rime) (d : Line) : State :=
  match s.trk n t with
  | none => s
  | some x =>
    if !x.rdOut || x.rgen != rgen then s
    else
      let s := s.modTrk n t fun y => { y with rdOut := false, rdHave := true, data := d, dpsn := mst == 1 || (y.ph == Ph.merge && rime == .poison && !y.known) }
      match x.ph with
      | .rime => s.resolveRime n t rime
      | .data => (s.modTrk n t fun y => { y with rime := some (y.rime.getD rime) }).checkData n t
      | .merge => s.mergeDone n t
      | .lockRd => (s.modTrk n t fun y => { y with rime := some (y.rime.getD rime) }).lockStep n t
      | _ => s

/-- The next rime change of a line may go once the write that was its last has completed (R75). -/
def State.rimeTurn (s : State) (n : Hs) (c : MCmd) (ci : Ci) : State :=
  match (s.slice n).rimeQ.find? fun r => r.lix == c.lix with
  | some r => if (r.cmd.map fun d => d.purp) == some c.purp then s.popRime n ci c.lix else s
  | none => s

/-- The instance whose work a memory completion belongs to. -/
def State.cmdCi (s : State) (n : Hs) (c : MCmd) : Ci :=
  match c.purp with
  | .trkRd t | .trkMd t | .trkWr t | .aop t => match s.trk n t with | some x => x.req.ci | none => 0
  | .rime tag => match (s.slice n).rimeQ.find? fun r => r.tag == tag with
    | some r => (match (s.slice n).find r.lix with | some (_, e) => e.ci | none => 0)
    | none => 0
  | _ => 0

/-- A memory or metadata completion reaches the slice (R84, R115, R120, R235). -/
def execMemoryCompletion (k : Nat) (s : State) : Res :=
  match s.recvHs k (fun m => match m with
    | .mcpl c mst rime d => (match c.purp with | .firnRd _ _ => none | _ => some (c, mst, rime, d))
    | _ => none) with
  | none => stay s
  | some ((c, mst, rime, d), n, s) =>
    let ci := s.cmdCi n c
    let s := match c.purp with
      | .trkRd t => s.readDone n t c.rgen mst rime d
      | .trkMd t => (match s.trk n t with | some x => if x.ph = Ph.rime then s.resolveRime n t rime else s | none => s)
      | .trkWr t => (s.rimeTurn n c ci).cmpWrite n t .none
      | .plbWr q => (s.rimeTurn n c ci).plbDone n q
      | .rime tag => s.rimeDone n tag ci
      | .firnWr a => s.wroteLine n a
      | .aop t =>
        (match s.trk n t with
          | some x => (match x.lk with
            | some l => (s.send (hsStop n) (teStop l.te) .dat false (.nma l n (mst == 1) d)).endTrk n t
            | none => s)
          | none => s)
      | _ => s
    .next s.pump

/-- A line of a firn set reaches the slice, with what its check bits show (R71, R74, R76, R98, R159). -/
def execFirnLookupData (k : Nat) (errs : List (Nat × EccErr)) (s : State) : Res :=
  match s.recvHs k (fun m => match m with
    | .mcpl c _ _ d => (match c.purp with | .firnRd a j => some (a, j, d) | _ => none)
    | _ => none) with
  | none => stay s
  | some ((a, j, d), n, s) => .next (s.gotLine n a j d errs).pump

/-! ### Retries (R59, R60, R78, R121, R172) -/

/-- The oldest overflow entry is tried in its set again (R59). -/
def execOverflowInstallRetry (hs : Hs) (s : State) : Res :=
  if !s.hsUp hs then stay s
  else
    match (s.slice hs).vb.find? fun v => !v.dep with
    | none => stay s
    | some v =>
      let s' := s.modSlice hs fun x => { x with vb := x.vb.erase v }
      match s'.toWay hs v.set v.ent with
      | some (some s) => .next s.pump
      | _ => stay s

/-- A request that waits for the victim buffer or an internal entry tries again (R60, R78). -/
def execVictimBufferRetry (hs : Hs) (t : Nat) (s : State) : Res :=
  match s.trk hs t with
  | none => stay s
  | some x =>
    if x.ph != .victim || !s.hsUp hs then stay s
    else
      match x.finst with
      | some f =>
        match s.allocate hs x.req.lix (SfEnt.fresh x.req.lix x.req.ci x.dir f) with
        | some s => .next ((s.modTrk hs t fun y => { y with finst := none }).rule117 hs t x.dir).pump
        | none => .next (s.bump (hsCtr hs 13))
      | none => .next (s.afterSnoops hs t).pump

/-- A merge or lock that waits for a PLB line tries again (R121, R172). -/
def execPlbRetry (hs : Hs) (t : Nat) (s : State) : Res :=
  match s.trk hs t with
  | none => stay s
  | some x =>
    if !s.hsUp hs then stay s
    else match x.ph with
      | .plb => .next (s.startMerge hs t).pump
      | .lockPlb => .next (s.lockStep hs t).pump
      | _ => stay s

/-- A spill whose recall waits for an internal entry tries again (R78). -/
def execInternalEntryRetry (hs : Hs) (n : Nat) (s : State) : Res :=
  match (s.slice hs).facc.find? fun a => a.id == n with
  | none => stay s
  | some a =>
    match a.kind with
    | .spill d =>
      if !s.hsUp hs || a.writing || a.got.length != 4 then stay s
      else match s.accSpill hs a d with
        | some s => .next s.pump
        | none => stay s
    | _ => stay s

/-- The memory station's report of its queues to every slice, used by R234 from then on (R233). -/
def execPostThrReport (ms : Stn) (s : State) : Res :=
  if !s.works (msDom ms) then stay s
  else
    let q := (s.ms ms).cmds
    let over' := (s.ports.filter fun p => p.2.pv && msOf (BitVec.ofNat 8 p.1) == ms &&
      decide ((q.filter fun c => c.cmd.mpid.toNat == p.1 && !c.cmd.own).length > p.2.thrLive)).map fun p => (BitVec.ofNat 8 p.1 : Mpid)
    let s := s.bumpN (msCtr ms 2) over'.length
    let base := (List.range 32).foldl (fun (l : List (Nat × Slice)) n => if (tGet l n).isNone then tPut l n Slice.reset else l) s.slices
    .next { s with slices := base.map fun p => (p.1, { p.2 with thr := (p.2.thr.filter fun m => msOf m != ms) ++ over' }) }

/-! ### Locks (R169 to R174, R379) -/

def Lk.req (l : Lk) (c : Cls) : Req :=
  { Req.internal c l.ci l.kind l.lix l.mpid with src := .te l.te, rqid := l.rqid }

/-- A lock joins its line's chain, or is answered `LNACK` where its set is handed over (R379). -/
def State.admitLock (s : State) (n : Hs) (l : Lk) : State :=
  match s.foldAct n l.lix with
  | .own => s.addTrk n .engine true (l.req (if l.noData then .lckn else .lck)) fun x => { x with lk := some l }
  | _ => s.send (hsStop n) (teStop l.te) .rsp false (.lnack l n)

def execLck (k : Nat) (s : State) : Res :=
  match s.recvHs k (fun m => match m with | .lck l => if l.noData then none else some l | _ => none) with
  | none => stay s
  | some (l, n, s) => .next (s.admitLock n l).pump

def execLckn (k : Nat) (s : State) : Res :=
  match s.recvHs k (fun m => match m with | .lck l => if l.noData then some l else none | _ => none) with
  | none => stay s
  | some (l, n, s) => .next (s.admitLock n l).pump

/-- The tracker entry of a lock. -/
def State.lockOf (s : State) (n : Hs) (l : Lk) : Option Trk :=
  (s.slice n).trk.find? fun x => match x.lk with
    | some m => m.te == l.te && m.run == l.run && m.lix == l.lix
    | none => false

/-- A whole line that a group writes ends the line's poison. -/
def Lk.clears (l : Lk) (x : Trk) (whole : Bool) : Bool :=
  whole && (x.dir.st == DSt.psn || (l.kind != .coh && (x.rime == some .poison || x.dpsn)))

/-- The rime value that a write which ends a line's poison carries. -/
def State.clearRime (s : State) (n : Hs) (l : Lk) : Rime :=
  match (s.slice n).find l.lix with
  | some (_, e) => if e.f && l.kind == .coh then Rime.tracked else .clear
  | none => .clear

/-- A group's line is written poisoned: its record will say so (R209, R210). -/
def State.markPw (s : State) (l : Lk) : State :=
  s.modGroup l.te l.run fun g => { g with pw := true }

/-- The group of a release has not yet sent the line of `PH` (R211). -/
def State.recordOpen (s : State) (l : Lk) : Bool := !l.isAop && (s.te l.te).grps.any fun g => g.id == l.run && g.st == .ret

/-- `GRELW` (R173, R209): the line is posted into the reserved PLB line and the lock freed, once a line without an entry is poisoned.
An error that has struck the group's line data after the commit point stands in the record, unless that was sent before. -/
def execGrelw (r : Release) (s : State) : Res :=
  match s.recvHs r.k (fun m => match m with | .grelw l d p w g => some (l, d, p, w, g) | _ => none) with
  | none => stay s
  | some ((l, d, p, whole, g), n, s) =>
    match s.lockOf n l with
    | none => .next s
    | some x =>
      let hit := r.err && s.recordOpen l
      let s := if hit then (s.markPw l).logBare (teStop l.te) 0x08 l.lix (some l.ci) l.rqid else s
      let psn := p || hit
      let clears := l.clears x whole
      let v := if clears && l.kind == .coh then (s.setDir n x.id l.ci l.lix Dir.inv).getD s else s
      let v := v.postLine n (some x.id) l.ci l.lix l.mpid d psn (if clears then some (s.clearRime n l) else none) true g
      let clear := x.rime == some .clear
      let t := if !psn then v.endTrk n x.id
        else if v.firnPoison n l.ci l.kind l.lix clear then v.poisonLine n l.ci l.kind l.lix l.mpid clear (some x.id)
        else (v.poisonLine n l.ci l.kind l.lix l.mpid clear none).endTrk n x.id
      .next t.gpfCheck.pump

/-- `GREL` (R173, R174). A lock whose lookup or victim wait is still outstanding, with no snoop sent, finishes the lookup and the recall
before it is freed. DESIGN CHOICE (log entry 78). -/
def execGrel (k : Nat) (s : State) : Res :=
  match s.recvHs k (fun m => match m with | .grel l => some l | _ => none) with
  | none => stay s
  | some (l, n, s) =>
    match s.lockOf n l with
    | none => .next s
    | some x =>
      if x.active && (x.ph == Ph.snoop || x.ph == Ph.rime || x.ph == Ph.firn || x.ph == Ph.victim) then
        .next (s.modTrk n x.id fun y => { y with rel := true }).pump
      else .next ((s.freeResv n x.id).endTrk n x.id).pump

/-- `GRELA` (R181): the slice issues `MEMAOP` and keeps the lock. -/
def execGrela (k : Nat) (s : State) : Res :=
  match s.recvHs k (fun m => match m with | .grela l r => some (l, r) | _ => none) with
  | none => stay s
  | some ((l, r), n, s) =>
    match s.lockOf n l with
    | none => .next s
    | some x =>
      let s := s.setPh n x.id .memAop
      .next (s.memCmd n l.ci { mkCmd n .memaop l.mpid l.lix (.aop x.id) with
        aop := r.aop, aofs := r.ofs, alen := r.blen.setWidth 4, opA := r.opA, opB := r.opB })

/-! ### `DPULL` data (R20, R121) -/

/-- The slice and tracker entry that wait for the data of a DST. -/
def State.pulling (s : State) (ps : Stn) (dst : Dst) : Option (Hs × Trk) :=
  let l := s.slices.flatMap fun p => (p.2.trk.filter fun x =>
    x.req.dst == some dst && (match x.req.src with | .ps q => q == ps | _ => false) &&
    (x.ph == Ph.pull || (x.ph == Ph.merge && !x.pulled))).map fun x => ((BitVec.ofNat 5 p.1 : Hs), x)
  l.head?

/-- `DPULL` for the DST is still on its way to the port station. -/
def State.dpullComing (s : State) (ps : Stn) (dst : Dst) : Bool :=
  s.mesh.pkts.any fun (p : Pkt) => p.bodies.any fun m => match m with | .dord q _ e o _ _ _ => q == ps && e == dst && o == .dpull | _ => false

/-- The data of a `DPULL` arrives: the write's line is posted, or its merge goes on. -/
def execDpullData (ps : Stn) (dst : Dst) (d : Line) (m : Mask) (s : State) : Res :=
  if s.dpullComing ps dst then stay s
  else
    match s.pulling ps dst with
    | none => stay s
    | some (n, x) =>
      if x.ph == Ph.pull then
        let s := (s.postLine n (some x.id) x.req.ci x.req.lix x.req.mpid d false x.wrime false []).markLine n x.id x.req.ci
        .next ((s.cmpWrite n x.id .none).resume n x.req.lix).pump
      else .next ((s.modTrk n x.id fun y => { y with pulled := true, mask := m, req := { y.req with data := d } }).mergeDone n x.id).pump

/-! ### Forwarding of a fold (R380) -/

/-- Entries of the line's set are still to be installed at the destination. -/
def State.coming (s : State) (n : Hs) (lix : Lix) : Bool :=
  ((s.slice n).install.any fun i => i.2.1 == lineSet lix) || s.mesh.pkts.any fun (p : Pkt) => p.bodies.any fun m =>
    match m with
    | .moving src set _ _ =>
      set == lineSet lix && p.dst == hsStop n && src == (match s.fold with | some f => homeOf f.oldMap lix | none => n)
    | _ => false

/-- A forwarded request or writeback is admitted at the destination. -/
def State.admitFwd (s : State) (n : Hs) (r : Req) (w : Bool) : State :=
  if !w then s.admitGeneral n r
  else if r.cls = Cls.mw then s.admitMw n r
  else if r.cls = Cls.cln then s.admitCln n r
  else s.admitBic n r

/-- What reached the destination before its set was installed is admitted, in order (R379 step 6). -/
def State.releaseEarly (s : State) (n : Hs) : State :=
  let go := (s.slice n).early.filter fun e => !s.coming n e.1.lix
  if go.isEmpty then s
  else
    let s := s.modSlice n fun x => { x with early := x.early.filter fun e => !go.contains e }
    go.foldl (fun s e => s.admitFwd n e.1 e.2) s

/-- A forwarded request or writeback reaches the destination, which takes it at once (R345); it waits there until the set has been
installed (R379 step 6). -/
def execForwardedRequest (k : Nat) (s : State) : Res :=
  match s.recvHs k (fun m => match m with | .fwd _ _ r w => some (r, w) | _ => none) with
  | none => stay s
  | some ((r, w), n, s') =>
    if s'.coming n r.lix then .next (s'.modSlice n fun x => { x with early := x.early ++ [(r, w)] })
    else .next (s'.admitFwd n r w).pump

/-- The destination has freed a forwarded entry: the source frees its own, returns the credit and forwards the next. -/
def execForwardedEntryFreed (k : Nat) (s : State) : Res :=
  match s.recvHs k (fun m => match m with | .fwdFreed _ d r => some (d, r) | _ => none) with
  | none => stay s
  | some ((d, r), n, s) =>
    match (s.slice n).trk.find? fun x => x.req.fwd && x.resv == .writeback && x.req.station == r.station && x.req.wbc == r.wbc with
    | none => .next s
    | some x =>
      let s := (s.endTrk n x.id).send (hsStop n) (psStop r.station) .rsp true (.wbcr n r.station r.wbc)
      let s := match (s.slice n).fwdQ with
        | [] => s
        | q :: rest => (s.modSlice n fun y => { y with fwdQ := rest }).send (hsStop n) (hsStop d) .req false (.fwd n d q true) (some (q.itk, q.urg))
      .next s.pump

end Sys2Proof.Machine
end

