-- ==== Sys2Proof/Machine/TeCmds.lean ====
section
/-!
DEFINITION. The commands of the transaction engines: AtomicOps (R175 to R183), the copying of descriptors (R186, R190, R562), the
start of a group with its check (R195, R196), lock answers (R197, R379) and status records (R211).
-/

namespace Sys2Proof.Machine

open Sys2Proof

/-- The home that a lock is sent to: while sets migrate, the one that `MP` gives (R379). -/
def State.teHome (s : State) (l : Lix) : Hs :=
  match s.fold with
  | some f =>
    if f.started && !f.flipped then (if (lineSet l).toNat < f.mp then homeOf f.newMap l else homeOf f.oldMap l) else s.home l
  | none => s.home l

/-- The packet in place `k`, ejected at a transaction engine that works. -/
def State.recvTe {α : Type} (s : State) (k : Nat) (sel : Msg → Option α) : Option (α × Bool × State) :=
  match s.recv k sel with
  | some (a, p, s') =>
    let e := p.dst == teStop true
    if (e || p.dst == teStop false) && s.works (teDom e) && (match s.halt with | .halted _ => false | _ => true) then some (a, e, s') else none
  | none => none

/-! ### AtomicOps -/

/-- An AtomicOp reaches its engine's queue; a disabled engine sends it on to the other one (R175, R177, R214, R306). -/
def execAtomicop (k : Nat) (s : State) : Res :=
  match s.recvTe k (fun m => match m with | .aop r => some r | _ => none) with
  | none => stay s
  | some (r, e, s) =>
    let p : Stn := match r.src with | .ps p => p | _ => 0
    if !(s.arb (Eng.ofTe e)).en then
      .next (if s.teUp (!e) then s.send (teStop e) (teStop (!e)) .req false (.aop r) (some (r.itk, r.urg)) else s.aopEnd e r .engDisabled false 0)
    else if (s.inst r.ci).st = .aborting then .next (s.aopEnd e r .aborted false 0)
    else if (s.inst r.ci).st != .active then .next (s.aopEnd e r .instOffline false 0)
    else if ((s.te e).aopq.filter fun q => q.ci == r.ci).length ≥ 16 then
      .next (s.send (teStop e) (psStop p) .rsp false (.retry { r with tries := r.tries + 1 }))
    else .next (s.modTe e fun t => { t with aopq := t.aopq ++ [r] })

/-- The queue that holds an engine's grant, while the engine works. -/
def State.teHolder (s : State) (e : Bool) : Option Ci :=
  match (s.arb (Eng.ofTe e)).holder with
  | some q =>
    if decide (q < 64) && s.works (teDom e) && (match s.halt with | .halted _ => false | _ => true)
    then some (BitVec.ofNat 6 q) else none
  | none => none

/-- `NMA_EN` in force for a port (R180, R468). -/
def State.nmaOn (s : State) (m : Mpid) : Bool := match s.port m with | some p => p.nmaLive | none => false

/-- The holder's first waiting AtomicOp takes a context and sends its lock (R178, R181, R217). -/
def execAtomicopStart (te : Bool) (s : State) : Res :=
  match s.teHolder te with
  | none => stay s
  | some c =>
    match (s.te te).aopq.find? fun r => r.ci == c with
    | none => stay s
    | some r =>
      let t := s.te te
      let h := s.teHome r.lix
      if t.contexts ≥ 64 || t.used h ≥ 32 then stay s
      else
        let nma := s.nmaOn r.mpid
        let lk : Lk := { te := te, run := t.nextId, opi := 0, ci := r.ci, lix := r.lix, mpid := r.mpid, kind := r.kind, noData := nma,
                         writes := !nma, isAop := true, rqid := r.rqid }
        let l : LkSt := { lk := lk, hs := h, sent := true, act := false, gnt := false, refused := false, psn := false, plbh := false,
                          data := 0, cred := true }
        let u : ARun := { id := t.nextId, req := r, lk := l, nma := nma, gate := none }
        .next ((s.setTe te { t.take h with aopq := t.aopq.erase r, runs := t.runs ++ [u], nextId := t.nextId + 1 }).lockMsg te l)

/-- The original value from memory (R181): `DPUSH` and the completion. -/
def execNmaResult (k : Nat) (s : State) : Res :=
  match s.recvTe k (fun m => match m with | .nma l _ p d => some (l, p, d) | _ => none) with
  | none => stay s
  | some ((l, psn, d), e, s) =>
    match (s.te e).runs.find? fun u => u.id == l.run with
    | none => .next s
    | some u => .next (((((s.bump (teCtr e 3)).bumpI u.req.ci 0x0F).dropRun e u.id).aopEnd e u.req .done psn d).pump)

/-! ### Copying descriptors -/

/-- Asks for the slots of a copy up to a limit (R186). -/
def State.askSlots (s : State) (e : Bool) (c : Copy) (limit : Nat) : State :=
  let q := (s.inst c.ci).gq e
  let s := (List.range (limit - c.asked)).foldl (fun s j =>
    s.uncSend e .urd c.ci (q.slotLix (c.base + BitVec.ofNat 17 (c.asked + j))) q.dqMpid 0 0 (c.asked + j)) s
  s.modTe e fun t => { t with copies := updWhere (fun x => x.ci == c.ci) (fun x => { x with asked := limit }) t.copies }

/-- Slots that a copy may ask for now: below its end and below PACC (R562). -/
def Copy.limit (c : Copy) (q : GQueue) : Nat := min c.len q.ahead

/-- A copy that an engine may go on with: one that has begun runs on, with the grant or without it (R290, R283 step 2). -/
def State.copyNow (s : State) (e : Bool) : Option Copy :=
  (s.te e).copies.find? fun c =>
    let i := s.inst c.ci
    (i.st == .active || i.st == .draining || i.st == .aborting) && decide (c.asked < c.limit (i.gq e))

/-- The engine goes on with a copy, or reserves a record and reads the next header (R190, R215, R562). -/
def execDescriptorCopy (te : Bool) (s : State) : Res :=
  let h := s.teHolder te
  match s.copyNow te with
  | some c => if s.works (teDom te) then .next (s.askSlots te c (c.limit ((s.inst c.ci).gq te))) else stay s
  | none =>
    match h with
    | none => stay s
    | some c =>
      let i := s.inst c
      let q := i.gq te
      let t := s.te te
      if i.st != .active || !(s.arb (Eng.ofTe te)).en || !q.en || q.stopping || q.cons == q.pacc || !q.recFree ||
          decide (t.buffered + t.copies.length ≥ 64) || (t.copies.any fun x => x.ci == c) then stay s
      else
        let x : Copy := { ci := c, base := q.cons, slots := [], asked := 1, len := 0, bad := false, recN := q.nextRec }
        let s := s.modGq c te fun q => { q with nextRec := q.nextRec + 1 }
        let s := s.modTe te fun t => { t with copies := t.copies ++ [x] }
        .next (s.uncSend te .urd c (q.slotLix q.cons) q.dqMpid 0 0 0)

/-- A slot arrives: its descriptor is taken once it is whole (R190, R194, R562). -/
def execDescriptorData (k : Nat) (s : State) : Res :=
  match s.recvTe k (fun m => match m with | .unc _ r p d => if r.cls = Cls.urd then some (r, p, d) else none | _ => none) with
  | none => stay s
  | some ((r, psn, d), e, s) =>
    match (s.te e).copies.find? fun c => c.ci == r.ci with
    | none => .next s
    | some c =>
      let q := (s.inst c.ci).gq e
      let head := r.pix == 0
      let broken := head && (psn || !headOk d)
      let c := { c with slots := tPut c.slots r.pix d, bad := c.bad || psn || broken,
                        len := if broken then q.ahead else if head then dNslot d else c.len }
      let s := s.modTe e fun t => { t with copies := updWhere (fun x => x.ci == c.ci) (fun _ => c) t.copies }
      if broken || (c.len != 0 && c.slots.length == c.len) then .next (s.takeDesc e c false)
      else .next (if (s.inst c.ci).st = .aborting then s.cutCopies e c.ci else s)

/-! ### Groups -/

/-- The access group of a requester in an instance: its binding's, or its first IRT entry's (R248, R250). -/
def State.groupOf (s : State) (rq : Rqid) (c : Ci) : Option (BitVec 4) :=
  match s.agent rq with
  | none => none
  | some a =>
    match a.bind with
    | some (d, g) => if d = c then some g else none
    | none => (s.irt.find? fun (e : IrtEnt) => e.rqid == rq && e.ci == c).map fun (e : IrtEnt) => e.agrp

/-- A requester that `MW_FM` lists (R539). -/
def State.isFm (s : State) (rq : Rqid) : Bool :=
  (s.regs.fmV0 && s.regs.fmRq0 == rq) || (s.regs.fmV1 && s.regs.fmRq1 == rq)

/-- R195 for one line: the cause of its denial and the region, in the order of R264; the fabric manager passes cause 4. -/
def State.vetGroup (s : State) (c : Ci) (rq : Rqid) (l : Lix) : Option (BitVec 4 × Option Nat) :=
  match (s.inst c).regionsAt l with
  | [] => some (1, none)
  | [(k, r)] =>
    let open' : Bool := s.isFm rq || (match s.groupOf rq c with | some g => r.amask.getLsbD g.toNat | none => false)
    if !open' then some (3, some k)
    else if r.kind = .lease && !(r.lhv && r.lhrq == rq) then some (4, some k)
    else if r.kind = .lease || !r.gr then some (2, some k)
    else none
  | (k, _) :: _ => some (5, some k)

/-- The kind of the region that holds a line. -/
def State.kindAt (s : State) (c : Ci) (l : Lix) : RKind :=
  match (s.inst c).regionsAt l with
  | (_, r) :: _ => r.kind
  | [] => .coh

/-- Every slice has the credits that a set of locks needs (R196). -/
def Te.credFor (t : Te) (ls : List LkSt) : Bool :=
  ls.all fun l => decide (t.used l.hs + (ls.filter fun m => m.hs == l.hs).length ≤ 32)

/-- The first refused line of a group. -/
def State.groupDenial (s : State) (g : Group) : Option (GOp × BitVec 4 × Option Nat) :=
  g.ops.findSome? fun o => (s.vetGroup g.ci g.rq o.lix).map fun d => (o, d.1, d.2)

/-- The locks that a group needs, in the order in which they are sent (R197). -/
def State.groupLocks (s : State) (te : Bool) (g : Group) : List LkSt :=
  ((List.range g.ops.length).zip g.ops).foldl (fun l p =>
    insLock (g.lockOf te g.id p.1 p.2 (s.teHome p.2.lix) (s.portOf p.2.lix) (s.kindAt g.ci p.2.lix)) l) []

/-- The first group of the holder that has not started is checked, stamped and started, or denied (R195, R196, R217). -/
def execGroupStart (te : Bool) (s : State) : Res :=
  match s.teHolder te with
  | none => stay s
  | some c =>
    match (s.te te).grps.find? fun g => g.ci == c && g.st == .copied with
    | none => stay s
    | some g =>
      match (if g.stamped then none else s.groupDenial g) with
      | some (o, cause, ridx) =>
        let s := s.violation { lix := o.lix, akind := 4, rqid := g.rq, ci := some c, ridx := ridx.map (BitVec.ofNat 6), cause := cause,
                               tick := s.clk.tick }
        let s := if cause = 5 then
            s.logBare (teStop te) 0x0D o.lix (some c) g.rq
          else s
        .next (s.failGroup te g .denied).pump
      | none =>
        let t := s.te te
        let ls := s.groupLocks te g
        if t.contexts ≥ 64 || !t.credFor ls then stay s
        else
          let s := s.setTe te (ls.foldl (fun t l => t.take l.hs) t)
          let gen := if g.stamped then g.gen else (s.inst c).ruleg
          let s := if g.stamped then s else s.genInc c gen
          .next ((s.modGroup te g.id fun h => { h with st := .locking, locks := ls, gen := gen, stamped := true }).pump)

/-- Changes the lock that a message names: of a group, or of an AtomicOp. -/
def State.modLock (s : State) (e : Bool) (l : Lk) (f : LkSt → LkSt) : State :=
  s.modTe e fun t =>
    { t with
      grps := updWhere (fun g => g.id == l.run) (fun g => { g with locks := updWhere (fun m => m.lk.lix == l.lix) f g.locks }) t.grps,
      runs := updWhere (fun u => u.id == l.run) (fun u => { u with lk := f u.lk }) t.runs }

/-- `LACT`: the next lock of the group, or of a later group of its queue, may be sent (R146, R198). -/
def execLact (k : Nat) (s : State) : Res :=
  match s.recvTe k (fun m => match m with | .lact l _ => some l | _ => none) with
  | none => stay s
  | some (l, e, s) => .next ((s.modLock e l fun m => { m with act := true }).pump)

/-- `LGNT`, or the refusal of a lock under R73; `err`: the line data met an uncorrectable error (R209). A poisoned line is not
computed at memory: the engine writes nothing (R179). -/
def execLgnt (k : Nat) (err : Bool) (s : State) : Res :=
  match s.recvTe k (fun m => match m with
    | .lgnt l _ p h d => some (l, some (p, h, d))
    | .lrefuse l _ => some (l, none)
    | _ => none) with
  | none => stay s
  | some ((l, g), e, s) =>
    let s := match g with
      | some (p, h, d) => s.modLock e l fun m => { m with act := true, gnt := true, psn := p, plbh := h, data := d }
      | none => s.modLock e l fun m => { m with refused := true }
    let bad := err && g.isSome && (!l.noData || (match g with | some (_, h, _) => h | none => false))
    let s := if bad then
        s.logBare (teStop e) 0x08 l.lix (some l.ci) l.rqid
      else s
    let st : Option Status := if g.isNone then some .denied else if bad then some .engineFault else none
    match (s.te e).grps.find? fun g => g.id == l.run, (s.te e).runs.find? fun u => u.id == l.run, st with
    | some grp, _, some x => .next (if grp.st == .locking then (s.failGroup e grp x).pump else s)
    | _, some u, some x => .next ((((s.relAll e [u.lk]).dropRun e u.id).aopEnd e u.req x false 0).pump)
    | _, some u, none =>
      if u.nma && !u.lk.plbh && !u.lk.psn then .next ((s.send (teStop e) (hsStop u.lk.hs) .snp false (.grela u.lk.lk u.req)).pump)
      else .next ((s.modRun e u.id fun r => { r with nma := false }).pump)
    | _, _, _ => .next s.pump

/-- `LNACK` (R379): the credit returns and the lock goes to the home that `MP` gives. -/
def execLnack (k : Nat) (s : State) : Res :=
  match s.recvTe k (fun m => match m with | .lnack l h => some (l, h) | _ => none) with
  | none => stay s
  | some ((l, h), e, s) =>
    let s := s.modTe e fun t => t.give h
    .next ((s.modLock e l fun m => { m with sent := false, cred := false, hs := s.teHome l.lix }).pump)

/-- `SQn_PROD` passes each record that has been written, in order (R211). -/
def GQueue.advance (q : GQueue) : Nat → GQueue
  | 0 => q
  | fuel + 1 =>
    if q.recDone.contains q.prod then
      let p := q.prod + 1
      ({ q with recDone := q.recDone.filter (· != q.prod), prod := p, sph := q.phOf p } : GQueue).advance fuel
    else q

/-- A record has been written: `SQn_PROD` advances in the core cycle `c`, its value before that cycle noted (R211, R548). -/
def GQueue.recorded (q : GQueue) (c : Clk) (n : BitVec 16) : GQueue :=
  let p := ({ q with recDone := q.recDone ++ [n] } : GQueue).advance (q.recDone.length + 1)
  if p.prod = q.prod || q.prodWas.any (fun w => w.1 == c) then p else { p with prodWas := some (c, q.prod) }

/-- The `Cmp` of a status-record line (R211): the line of `PH` follows, or the group has ended. -/
def execStatusRecordCmp (k : Nat) (s : State) : Res :=
  match s.recvTe k (fun m => match m with | .unc _ r _ _ => if r.cls = Cls.uwr then some r else none | _ => none) with
  | none => stay s
  | some (r, e, s) =>
    match (s.te e).grps.find? fun g => g.id == r.mid with
    | none => .next s
    | some g =>
      let q := (s.inst g.ci).gq e
      if r.pix = 1 then
        let s := s.modGroup e g.id fun h => { h with st := .ph }
        .next (s.uncSend e .uwr g.ci (q.recLix g.recN 0) q.sqMpid (g.line1 ((s.arb (Eng.ofTe e)).hints.getD g.ci.toNat 0)) g.id 0)
      else
        let s := s.modTe e fun t => { t with grps := t.grps.filter fun h => h.id != g.id }
        let s := if g.stamped then s.genDec g.ci g.gen else s
        let s := s.modGq g.ci e fun q => q.recorded s.clk g.recN
        .next s.pump

/-- A refused UNC access of an engine is sent again at phase 0 of the next tick (R186). -/
def execUncAccessRetry (k : Nat) (s : State) : Res :=
  match s.recvTe k (fun m => match m with | .uncRetry _ r => some r | _ => none) with
  | none => stay s
  | some (r, e, s) =>
    let s := s.goTo (s.clk.tick + 1)
    .next (s.send (teStop e) (hsStop (s.home r.lix)) .req false (.req { r with smep := s.smep }) (some (r.itk, r.urg)))

end Sys2Proof.Machine
end

