-- ==== Sys2Proof/Machine/Regs.lean ====
section
/-!
DEFINITION. The register windows (R530 to R550): which accesses are accepted, what each register reads, and what a write does.
-/

namespace Sys2Proof

/-! ### A register access -/

/-- The form of R240 within a window of `span` bytes (R530). -/
def RegAcc.formOk (a : RegAcc) (span : Nat) : Bool :=
  a.off.toNat % (if a.eight then 8 else 4) == 0 && decide (a.off.toNat < span)

/-- The register that an access names in the management window. -/
def RegAcc.mw (a : RegAcc) (off : Nat) : Bool := a.win == 0x40 && a.off.toNat / 8 * 8 == off
/-- The register that an access names in an Instance Window. -/
def RegAcc.iw (a : RegAcc) (off : Nat) : Bool := decide (a.win.toNat < 64) && a.off.toNat / 8 * 8 == off
def RegAcc.ci (a : RegAcc) : Ci := a.win.setWidth 6

/-- A register of a queue block: the queue, when the access names one at `off` of its block. -/
def RegAcc.qreg (a : RegAcc) (off : Nat) : Option Bool :=
  if a.iw (0x100 + off) then some false else if a.iw (0x200 + off) then some true else none

/-- The bits that a write writes, and their values (R531; log entry 32). -/
def RegAcc.mask (a : RegAcc) : BitVec 64 := if a.eight then BitVec.allOnes 64 else if a.off.getLsbD 2 then 0xFFFFFFFF00000000 else 0xFFFFFFFF
def RegAcc.bits (a : RegAcc) : BitVec 64 := if a.eight then a.data else if a.off.getLsbD 2 then a.data <<< 32 else a.data &&& 0xFFFFFFFF

/-- The register's bits after an RW write. -/
def RegAcc.over (a : RegAcc) (cur : BitVec 64) : BitVec 64 := (cur &&& ~~~a.mask) ||| (a.bits &&& a.mask)

/-- The write reaches the low `n` bits, where the field stands. -/
def RegAcc.hits (a : RegAcc) (n : Nat) : Bool := a.mask &&& BitVec.ofNat 64 (2 ^ n - 1) != 0

end Sys2Proof

namespace Sys2Proof.Machine

open Sys2Proof

/-- `Qn_ERR` (R547). -/
def GQueue.err (g : GQueue) : BitVec 64 :=
  BitVec.ofNat 64 (b2n g.placeErr 0 + b2n g.dbOvr 1 + b2n g.wign 2 + b2n g.sconsErr 3 + b2n g.rep 15)
def GQueue.setErr (g : GQueue) (v : BitVec 64) : GQueue :=
  { g with placeErr := v.getLsbD 0, dbOvr := v.getLsbD 1, wign := v.getLsbD 2, sconsErr := v.getLsbD 3, rep := v.getLsbD 15 }

/-! ### Access (R240, R530 to R534) -/

/-- The valid IRT entries of a requester that name an instance. -/
def State.irtGroups (s : State) (rq : Rqid) (c : Ci) : List (BitVec 4) :=
  (s.irt.filter fun (e : IrtEnt) => e.rqid == rq && e.ci == c).map fun (e : IrtEnt) => e.agrp

/-- Whether the engine takes an access of its place: a port station that works, or the MC's direct path. -/
def State.regUp (s : State) (a : RegAcc) : Bool := a.mc || s.psUp a.ps

/-- The state after a refused access (R269, R533, R534), or none where the access is accepted. -/
def State.refuseReg (s : State) (a : RegAcc) : Option State :=
  let ur (s : State) : State := s.emit (.regUr a)
  if a.win = 0x40 then
    if !a.mc && (s.regs.fmV0 || s.regs.fmV1) && !s.isFm a.rqid then
      some (ur { s with regs := { s.regs with denyCnt := s.regs.denyCnt + 1, denyRq := a.rqid } })
    else if !a.formOk 0x10000 then some (ur s) else none
  else if 64 ≤ a.win.toNat then some (ur s)
  else if !a.formOk 0x1000 then some (ur s)
  else
    let i := s.inst a.ci
    let gs := s.irtGroups a.rqid a.ci
    let tagged := i.st != .free && !i.mode
    if a.mc || (i.st != .free && s.isFm a.rqid) || (tagged && gs.any fun g => i.iwAmask.getLsbD g.toNat) then none
    else
      some (ur (s.violation { lix := 0, akind := 5, rqid := a.rqid, ci := some a.ci, ridx := none,
                              cause := if tagged && !gs.isEmpty then 3 else 6, tick := s.clk.tick }))

/-! ### What registers read -/

/-- A bit map of the retired channels of a kind, numbers `base` to `base + 63` (R543). -/
def State.retBits (s : State) (chk : BitVec 4) (base : Nat) : Nat :=
  ((List.range 64).map fun i => b2n (s.ret.chans.contains { chk := chk, chn := BitVec.ofNat 12 (base + i) }) i).sum

def State.domBits (s : State) (base : Nat) : Nat :=
  ((List.range 64).map fun i =>
    b2n (s.ret.chans.contains { chk := 8, chn := BitVec.ofNat 12 (base + i) } || s.ret.doms.contains (BitVec.ofNat 7 (base + i))) i).sum

/-- The retirement map (R543). -/
def State.retMap (s : State) (off : Nat) : Nat :=
  if off = 0x400 then s.retBits 2 0
  else if off = 0x408 then s.domBits 0
  else if off = 0x410 then s.domBits 64 % 2 ^ 21
  else if off = 0x418 then s.retBits 5 0
  else if 0x420 ≤ off ∧ off ≤ 0x458 then s.retBits 1 ((off - 0x420) * 8)
  else if 0x460 ≤ off ∧ off ≤ 0x478 then s.retBits 6 ((off - 0x460) * 8)
  else if 0x480 ≤ off ∧ off ≤ 0x498 then s.retBits 4 ((off - 0x480) * 8)
  else if off = 0x4A0 then b2n (s.ret.chans.contains { chk := 9, chn := 0 }) 0 + b2n (s.ret.chans.contains { chk := 10, chn := 0 }) 1
  else if 0x500 ≤ off ∧ off ≤ 0x578 then s.retBits 3 ((off - 0x500) * 8)
  else 0

/-- The domain of the unit that counts counter `i`, where it has one (R439). -/
def ctrDom (i : Nat) : Option (BitVec 7) :=
  if i < 0x800 then none
  else if i < 0xC00 then some (BitVec.ofNat 7 ((i - 0x800) / 32))
  else if i < 0xD00 then some (BitVec.ofNat 7 (64 + (i - 0xC00) / 32))
  else if i < 0xE00 then some (BitVec.ofNat 7 (72 + (i - 0xD00) / 32 % 8))
  else if i < 0xE20 then some 80
  else if i < 0xE40 then some 81
  else if i < 0xE60 then some 82
  else if 0xE80 ≤ i ∧ i < 0xEA0 then some 83
  else none

/-- A counter as the window shows it (R437, R544): zero while its unit, or OBS which holds it, is not ON. -/
def State.counter (s : State) (i : Nat) : BitVec 64 :=
  if s.isOn 84 && (match ctrDom i with | some d => s.isOn d | none => true) then (tGet s.obs.cnt i).getD 0 else 0

/-- The causes that stand on the four interrupt lines (R541). -/
def State.irqRaw (s : State) : BitVec 4 :=
  BitVec.ofNat 4 (b2n (!s.mc.replies.isEmpty) 0 + b2n (!s.errLog.isEmpty || !s.vlog.isEmpty) 1 +
    b2n (s.regs.twinCause.extractLsb' 0 8 != 0) 2 + b2n (s.regs.obsCause.extractLsb' 0 3 != 0) 3)

/-- `OHE_IRQ[3:0]` (R541). -/
def State.irqOut (s : State) : BitVec 4 := s.irqRaw &&& s.regs.irqEn

def State.mwId (s : State) : Nat :=
  s.mc.bstate.code + b2n s.ready 4 + s.strapProf.toNat * 2 ^ 5 + b2n s.strapTwin 7 +
    (match s.halt with | .halted _ => 2 ^ 8 | _ => 0) + s.arbMode.code * 2 ^ 9 + b2n s.mesh.rtep 11 + b2n s.smep 12 +
    s.mc.clevMin.toNat * 2 ^ 16 + s.mc.clevMax.toNat * 2 ^ 24 + s.mc.iver.toNat * 2 ^ 32

/-- Two bits per domain, 32 domains a register. -/
def State.pdBits (s : State) (k : Nat) : Nat :=
  ((List.range 32).map fun i => if 32 * k + i < 85 then (s.dom (BitVec.ofNat 7 (32 * k + i))).st.code * 4 ^ i else 0).sum

def State.smapBits (s : State) (k : Nat) : Nat :=
  ((List.range 8).map fun i => ((s.smap[8 * k + i]?).getD 0).toNat * 256 ^ i).sum

/-- A management register (R536 to R544). -/
def State.mwRead (s : State) (off : Nat) : Nat :=
  if 0x8000 ≤ off then (s.counter ((off - 0x8000) / 8)).toNat
  else if 0x400 ≤ off ∧ off < 0x580 then s.retMap off
  else if 0x200 ≤ off ∧ off ≤ 0x210 then s.pdBits ((off - 0x200) / 8)
  else if 0x220 ≤ off ∧ off ≤ 0x238 then s.smapBits ((off - 0x220) / 8)
  else if 0x100 ≤ off ∧ off < 0x140 then ((tGet s.regs.psOvr ((off - 0x100) / 8)).getD 0).toNat
  else if 0x140 ≤ off ∧ off < 0x180 then ((tGet s.regs.msOvr ((off - 0x140) / 8)).getD 0).toNat
  else if off = 0x00 then s.mwId
  else if off = 0x08 then s.clk.tick.toNat + s.clk.phase.toNat * 2 ^ 48
  else if off = 0x10 then s.regs.fmRq0.toNat + b2n s.regs.fmV0 12 + s.regs.fmRq1.toNat * 2 ^ 16 + b2n s.regs.fmV1 28
  else if off = 0x20 then s.regs.irqEn.toNat
  else if off = 0x28 then s.irqRaw.toNat + s.irqOut.toNat * 2 ^ 8
  else if off = 0x30 then s.regs.twinCause.toNat
  else if off = 0x38 then s.regs.obsCause.toNat
  else if off = 0x40 then s.errLog.length + b2n (s.errLog.any fun e => e.ecls == 5) 8 + s.errLost.toNat * 2 ^ 32
  else if off = 0x48 then s.vlog.length + s.vlogLost.toNat * 2 ^ 32
  else if off = 0x50 then s.regs.denyCnt.toNat + s.regs.denyRq.toNat * 2 ^ 32
  else if off = 0x80 then s.mc.crProd.toNat + s.mc.crRd.toNat * 2 ^ 16 + s.mc.crMark.toNat * 2 ^ 32 + s.mc.crRel.toNat * 2 ^ 48
  else if off = 0x88 then s.mc.rrWp.toNat + s.mc.rrRp.toNat * 2 ^ 16
  else if off = 0x90 then s.regs.ringErr.toNat
  else if off = 0x98 then ((List.range 4).map fun k => min 0xFFFF ((tGet s.regs.qce k).getD 0) * 2 ^ (16 * k)).sum
  else if off = 0xA0 then min 0xFFFF ((tGet s.regs.qce 4).getD 0)
  else 0

/-- `QBUSY`, `NGRP` and `NRES` of `Qn_STAT`. -/
def State.ngrp (s : State) (c : Ci) (q : Bool) : Nat := ((s.te q).grps.filter fun g => g.ci == c).length

/-- A register of a queue block (R545 to R549). -/
def State.qRead (s : State) (c : Ci) (q : Bool) (off : Nat) : Nat :=
  let g := (s.inst c).gq q
  if off = 0x00 then g.dqBase.toNat
  else if off = 0x08 then g.dqSize.toNat
  else if off = 0x10 then g.dqMpid.toNat
  else if off = 0x18 then b2n g.en 0
  else if off = 0x20 then g.db.toNat
  else if off = 0x28 then g.cons.toNat
  else if off = 0x30 then g.sqBase.toNat
  else if off = 0x38 then g.sqSize.toNat
  else if off = 0x40 then g.sqMpid.toNat
  else if off = 0x48 then g.prod.toNat + b2n g.sph 16
  else if off = 0x50 then g.scons.toNat
  else if off = 0x58 then g.err.toNat
  else if off = 0x60 then b2n (decide (s.ngrp c q > 0)) 0 + min 64 (s.ngrp c q) * 2 ^ 8 + (g.nextRec - g.scons).toNat * 2 ^ 16
  else 0

/-- `IW_LOT` (R305). -/
def State.iwLot (s : State) (c : Ci) : Nat :=
  let i := s.inst c
  s.arb0.hints.getD c.toNat 0 + s.arb1.hints.getD c.toNat 0 * 2 ^ 16 + s.arbB.hints.getD c.toNat 0 * 2 ^ 32 + b2n (s.arb0.holder == some c.toNat) 48 + b2n (s.arb1.holder == some c.toNat) 49 +
    b2n (s.arbB.holder == some c.toNat) 50 + i.cut.toNat * 2 ^ 52

/-- A register of an Instance Window. -/
def State.iwRead (s : State) (c : Ci) (off : Nat) : Nat :=
  let i := s.inst c
  if off = 0x00 then c.toNat + b2n i.mode 6 + i.st.code * 2 ^ 8 + i.ruleg.toNat * 2 ^ 16 + i.csets.length * 2 ^ 24 + TRole.code i.role * 2 ^ 32
  else if off = 0x08 then i.iwAmask.toNat
  else if off = 0x10 then s.iwLot c
  else if off = 0x18 then i.viol.toNat
  else if 0x100 ≤ off ∧ off < 0x200 then s.qRead c false (off - 0x100)
  else if 0x200 ≤ off ∧ off < 0x300 then s.qRead c true (off - 0x200)
  else if 0x800 ≤ off ∧ off < 0xC00 then
    match i.csets[(off - 0x800) / 0x100]? with
    | some k => (s.counter (32 * k + (off - 0x800) % 0x100 / 8)).toNat
    | none => 0
  else 0

/-- The whole 64 bits of the register that an access names. -/
def State.regRead (s : State) (a : RegAcc) : BitVec 64 :=
  let off := a.off.toNat / 8 * 8
  BitVec.ofNat 64 (if a.win = 0x40 then s.mwRead off else s.iwRead a.ci off)

/-- What a read returns: all of it, or the half that the address names (R531). -/
def State.regValue (s : State) (a : RegAcc) : BitVec 64 :=
  let v := s.regRead a
  if a.eight then v else if a.off.getLsbD 2 then v >>> 32 else v &&& 0xFFFFFFFF

/-! ### Writes -/

/-- A write of a register whose happening has a row of its own: its access is checked, `f` performs it, the write is acknowledged. -/
def State.regWrite (s : State) (a : RegAcc) (f : State → State) : Res :=
  if !s.regUp a then stay s
  else match s.refuseReg a with
    | some s => .next s
    | none => .next ((f s).emit (.regAck a))

/-- A bit of `Qn_ERR` is set (R13, R547). -/
def State.gqErr (s : State) (c : Ci) (q : Bool) (b : Nat) : State :=
  let v := s.hwSet (.qerr c q) ((s.inst c).gq q).err b 15
  (s.modGq c q fun g => g.setErr v).hwNote (.qerr c q) b

/-- The test of R187. -/
def State.bellTest (s : State) (c : Ci) (q : Bool) (rq : Rqid) : State :=
  let g := (s.inst c).gq q
  let d := (g.db - g.cons).toNat
  let a := (g.pacc - g.cons).toNat
  if a ≤ d && d ≤ 2 ^ g.dqSize.toNat then
    s.modGq c q fun g => { g with pacc := g.db, dbWait := none, rungBy := if a = d then g.rungBy else g.rungBy ++ [(g.db, rq)] }
  else (s.modGq c q fun g => { g with db := g.pacc, dbWait := none }).gqErr c q 1

/-- A doorbell (R187, R189, R549). -/
def State.ring (s : State) (a : RegAcc) (q : Bool) : State :=
  if !a.hits 17 then s
  else
    let c := a.ci
    let s := s.modGq c q fun g => { g with db := (a.over (g.db.setWidth 64)).setWidth 17, dbWait := some a.rqid }
    if ((s.inst c).gq q).en && (s.inst c).st == .active then s.bellTest c q a.rqid else s

def execDoorbell (a : RegAcc) (s : State) : Res :=
  match a.qreg 0x20 with
  | some q => s.regWrite a fun s => s.ring a q
  | none => stay s

/-- A stored doorbell is tested at the first phase 0 at which its queue is enabled and its instance ACTIVE (R549). -/
def execDeferredDoorbellTest (ci : Ci) (q : Bool) (s : State) : Res :=
  match ((s.inst ci).gq q).dbWait with
  | none => stay s
  | some rq =>
    let s := s.toPhase0
    if ((s.inst ci).gq q).en && (s.inst ci).st == .active then .next (s.bellTest ci q rq) else .next s

/-- Lines `lo` to `hi` lie in UNC regions. -/
def inUnc (rs : List (Nat × Region)) (hi : Nat) : Nat → Nat → Bool
  | 0, _ => false
  | fuel + 1, lo =>
    match rs.find? fun p => p.2.kind == .unc && decide (p.2.lo ≤ lo) && decide (lo ≤ p.2.hi) with
    | some p => if hi ≤ p.2.hi then true else inUnc rs hi fuel (p.2.hi + 1)
    | none => false

/-- The check of R184, R185 and R546. -/
def Inst.placeOk (i : Inst) (g : GQueue) : Bool :=
  let d := g.dqBase.toNat * 64
  let t := g.sqBase.toNat * 64
  decide (6 ≤ g.dqSize.toNat) && decide (g.dqSize.toNat ≤ 16) && decide (4 ≤ g.sqSize.toNat) && decide (g.sqSize.toNat ≤ 14) &&
    inUnc i.regions (d + 2 ^ g.dqSize.toNat - 1) (i.regions.length + 1) d &&
    inUnc i.regions (t + 2 ^ (g.sqSize.toNat + 1) - 1) (i.regions.length + 1) t

def execQueueEnable (a : RegAcc) (s : State) : Res :=
  match a.qreg 0x18 with
  | some q =>
    if !(a.hits 1 && a.bits.getLsbD 0) then stay s
    else s.regWrite a fun s =>
      let g := (s.inst a.ci).gq q
      if g.en && !g.stopping then s
      else if (s.inst a.ci).placeOk g then s.modGq a.ci q fun g => { g with en := true, stopping := false }
      else (s.modGq a.ci q fun g => { g with en := false, stopping := false }).gqErr a.ci q 0
  | none => stay s

/-- R215, R546: no further descriptor is copied; the bit falls at the next phase 0. -/
def execQueueDisable (a : RegAcc) (s : State) : Res :=
  match a.qreg 0x18 with
  | some q =>
    if a.hits 1 && a.bits.getLsbD 0 then stay s
    else s.regWrite a fun s =>
      if a.hits 1 && ((s.inst a.ci).gq q).en then (s.modGq a.ci q fun g => { g with stopping := true }).later 1 (.queueOff a.ci q) else s
  | none => stay s

/-- The placement registers of a queue block. -/
def placeRegs : List Nat := [0x00, 0x08, 0x10, 0x30, 0x38, 0x40]

/-- R545 for an accepted write. -/
def GQueue.place (g : GQueue) (off : Nat) (f : BitVec 64 → BitVec 64) : GQueue :=
  let dq (g : GQueue) : GQueue := { g with db := 0, cons := 0, pacc := 0, rungBy := [], dbWait := none }
  let sq (g : GQueue) : GQueue := { g with prod := 0, scons := 0, sph := true, nextRec := 0, recDone := [], prodWas := none }
  if off = 0x00 then dq { g with dqBase := (f (g.dqBase.setWidth 64)).setWidth 40 }
  else if off = 0x08 then dq { g with dqSize := (f (g.dqSize.setWidth 64)).setWidth 5 }
  else if off = 0x10 then { g with dqMpid := (f (g.dqMpid.setWidth 64)).setWidth 8 }
  else if off = 0x30 then sq { g with sqBase := (f (g.sqBase.setWidth 64)).setWidth 40 }
  else if off = 0x38 then sq { g with sqSize := (f (g.sqSize.setWidth 64)).setWidth 4 }
  else if off = 0x40 then { g with sqMpid := (f (g.sqMpid.setWidth 64)).setWidth 8 }
  else g

def execPlacementWrite (a : RegAcc) (s : State) : Res :=
  match placeRegs.findSome? fun off => (a.qreg off).map fun q => (off, q) with
  | some (off, q) => s.regWrite a fun s =>
    let n := if off = 0x00 || off = 0x30 then 40 else 8
    if !a.hits n then s
    else if ((s.inst a.ci).gq q).en || decide (s.ngrp a.ci q > 0) then s.gqErr a.ci q 2
    else s.modGq a.ci q fun g => g.place off a.over
  | none => stay s

/-- `SQn_PROD` as it stood before the core cycle `c` (R548). -/
def GQueue.prodAt (g : GQueue) (c : Clk) : BitVec 16 :=
  match g.prodWas with
  | some (d, p) => if d = c then p else g.prod
  | none => g.prod

/-- R548: the test uses `SQn_PROD` as it stood before this cycle. -/
def execSqnConsWrite (a : RegAcc) (s : State) : Res :=
  match a.qreg 0x50 with
  | some q => s.regWrite a fun s =>
    if !a.hits 16 then s
    else
      let g := (s.inst a.ci).gq q
      let v : BitVec 16 := (a.over (g.scons.setWidth 64)).setWidth 16
      if (v - g.scons).toNat ≤ (g.prodAt s.clk - g.scons).toNat then s.modGq a.ci q fun g => { g with scons := v } else s.gqErr a.ci q 3
  | none => stay s

/-- R538, R452: 0x5A5A from the MC restarts the watchdog; any other write has no effect. -/
def execWkick (a : RegAcc) (s : State) : Res :=
  if a.mw 0x18 then s.regWrite a fun s =>
    if a.mc && a.hits 16 && a.bits.extractLsb' 0 16 == 0x5A5A && s.mc.wdog.isSome then
      { s with mc := { s.mc with wdog := some (s.timer 1250000) } }
    else s
  else stay s

/-- What the other registers' fields do by their access codes (R12, R14). -/
def State.plainWrite (s : State) (a : RegAcc) : State :=
  let off := a.off.toNat / 8 * 8
  let m : BitVec 64 := a.bits &&& a.mask
  if a.win = 0x40 then
    if off = 0x10 then
      if s.mc.bstate = .ready then s
      else
        let v := a.over (BitVec.ofNat 64 (s.mwRead 0x10))
        { s with regs := { s.regs with fmRq0 := v.extractLsb' 0 12, fmV0 := v.getLsbD 12, fmRq1 := v.extractLsb' 16 12, fmV1 := v.getLsbD 28 } }
    else if off = 0x20 then { s with regs := { s.regs with irqEn := (a.over (s.regs.irqEn.setWidth 64)).setWidth 4 } }
    else if off = 0x30 then
      ({ s with regs := { s.regs with twinCause := (s.w1cVal .twinCause (s.regs.twinCause.setWidth 64) m 8).setWidth 9 } } : State).w1cNote .twinCause m
    else if off = 0x38 then
      ({ s with regs := { s.regs with obsCause := (s.w1cVal .obsCause (s.regs.obsCause.setWidth 64) m 3).setWidth 4 } } : State).w1cNote .obsCause m
    else if off = 0x90 then
      ({ s with regs := { s.regs with ringErr := (s.w1cVal .ringErr (s.regs.ringErr.setWidth 64) m 15).setWidth 16 } } : State).w1cNote .ringErr m
    else if 0x100 ≤ off ∧ off < 0x140 then
      let n := (off - 0x100) / 8
      let v := (s.w1cVal (.psOvr n) (((tGet s.regs.psOvr n).getD 0).setWidth 64) m 15).setWidth 16
      ({ s with regs := { s.regs with psOvr := tPut s.regs.psOvr n v } } : State).w1cNote (.psOvr n) m
    else if 0x140 ≤ off ∧ off < 0x180 then
      let n := (off - 0x140) / 8
      let v := (s.w1cVal (.msOvr n) (((tGet s.regs.msOvr n).getD 0).setWidth 64) m 15).setWidth 16
      ({ s with regs := { s.regs with msOvr := tPut s.regs.msOvr n v } } : State).w1cNote (.msOvr n) m
    else s
  else if off = 0x10 then
    let v := s.w1cVal (.lot a.ci) (((s.inst a.ci).cut.setWidth 64) <<< 52) m 55
    (s.modInst a.ci fun i => { i with cut := v.extractLsb' 52 4 }).w1cNote (.lot a.ci) m
  else
    match a.qreg 0x58 with
    | some q =>
      let v := s.w1cVal (.qerr a.ci q) ((s.inst a.ci).gq q).err m 15
      (s.modGq a.ci q fun g => g.setErr v).w1cNote (.qerr a.ci q) m
    | none => s

/-- The access names a register whose writes have a row of their own. -/
def ownRow (a : RegAcc) : Bool :=
  a.mw 0x18 || ([0x18, 0x20, 0x50] ++ placeRegs).any fun off => (a.qreg off).isSome

/-- A write to any other register; where no register stands it is ignored (R12, R530). -/
def execRegisterWrite (a : RegAcc) (s : State) : Res :=
  if ownRow a && (s.refuseReg a).isNone then stay s else s.regWrite a fun s => s.plainWrite a

/-- A read: refused (R240, R533, R534), else answered with the register's value, without side effect (R242). -/
def execRefusedRegisterRead (a : RegAcc) (s : State) : Res :=
  if !s.regUp a then stay s
  else match s.refuseReg a with
    | some s => .next s
    | none => .next (s.emit (.regData a (s.regValue a)))

end Sys2Proof.Machine
end

