-- ==== Sys2Proof/Machine/FoldCmds.lean ====
section
/-!
DEFINITION. The commands of a fold (R378 to R382): handing a set over, installing it, the marks that keep messages in order, the
firn agency, the flip of the Slice Map and the drain of the old epoch.
-/

namespace Sys2Proof.Machine

open Sys2Proof

/-- A line moves from slice `n` in this fold, and where to. -/
def Fold.from' (f : Fold) (n : Hs) (l : Lix) : Option Hs :=
  let d := homeOf f.newMap l
  if homeOf f.oldMap l == n && d != n then some d else none

/-- The slices that logical slices of `n` move to, each once. -/
def Fold.dests (f : Fold) (n : Hs) : List Hs :=
  ((f.oldMap.zip f.newMap).filterMap fun p => if p.1 == n && p.2 != n then some p.2 else none).eraseDups

/-- Nothing of a set's moving lines is in work at the slice (R379 step 2). -/
def State.setQuiet (s : State) (f : Fold) (n : Hs) (set : BitVec 14) : Bool :=
  let x := s.slice n
  let mine (l : Lix) : Bool := lineSet l == set && (f.from' n l).isSome
  !(x.trk.any fun t => mine t.req.lix) && !(x.vb.any fun v => v.set == set && mine (v.ent.lix v.set)) &&
    !(x.facc.any fun a => mine a.lix) && !(x.rimeQ.any fun r => mine r.lix)

/-- The moving entries of a set for one destination. -/
def Slice.movers (x : Slice) (f : Fold) (n d : Hs) (set : BitVec 14) : List (Nat × SfEnt) :=
  (x.ways set).filter fun p => f.from' n (p.2.lix set) == some d

/-- The entries for one destination leave: `MOVING` on VN3, `FMARK` to every port station (R379 steps 3 and 4). -/
def State.handTo (s : State) (f : Fold) (n d : Hs) (set : BitVec 14) : State :=
  let x := s.slice n
  let es := x.movers f n d set
  let susp := x.suspTick set
  let s := s.modSlice n fun y =>
    { y with sf := y.sf.filter fun p => !(es.any fun e => e.1 == p.1),
             hold := y.hold.filter fun h => !(lineSet h.lix == set && f.from' n h.lix == some d) }
  let s := s.send (hsStop n) (hsStop d) .dat false (.moving n set (es.map fun e => e.2) susp)
  (List.range 8).foldl (fun s p =>
    let ps : Stn := BitVec.ofNat 3 p
    let s := s.modSlice d fun y => { y with noAck := y.noAck ++ [(n, set, ps)] }
    s.send (hsStop n) (psStop ps) .rsp true (.fmark n d set ps)) s

/-- A source hands a set over (R379): its step is outstanding, and the set is quiet. -/
def execSetHandover (hs : Hs) (set : BitVec 14) (s : State) : Res :=
  match s.fold with
  | none => stay s
  | some f =>
    let ds := f.dests hs
    if !f.started || f.flipped || ds.isEmpty || !s.handing set || (s.slice hs).moved.contains set || !s.hsUp hs || !s.setQuiet f hs set then
      stay s
    else
      let s := ds.foldl (fun s d => s.handTo f hs d set) s
      .next (s.modSlice hs fun y => { y with moved := y.moved ++ [set] })

/-- Youngest first, by `AGE`. -/
def byAge (es : List SfEnt) : List SfEnt := (List.range 4).flatMap fun a => es.filter fun e => e.age.toNat == a

/-- Installs entries by R52, the overflow buffer included; answers those that have to wait. -/
def State.installAll (s : State) (n : Hs) (set : BitVec 14) : List SfEnt → State × List SfEnt
  | [] => (s, [])
  | e :: r =>
    match s.toWay n set e with
    | some (some s) => s.installAll n set r
    | some none => (s, e :: r)
    | none =>
      if s.vbRoom n e.ci then
        let v : VbEnt := { set := set, ent := e, dep := false, fdel := false, fwr := false, rclr := false, rtrk := false, calve := false }
        ((s.modSlice n fun x => { x with vb := x.vb ++ [v] }).bump (hsCtr n 12)).installAll n set r
      else (s, e :: r)

/-- An install that waited for the victim buffer is made again (R379 step 5). -/
def State.reinstall (s : State) (n : Hs) : State :=
  (s.slice n).install.foldl (fun s i =>
    let s := s.modSlice n fun x => { x with install := x.install.erase i }
    let (s, rest) := s.installAll n i.2.1 i.2.2
    if rest.isEmpty then s else s.modSlice n fun x => { x with install := x.install ++ [(i.1, i.2.1, rest)] }) s

/-- The moving entries of a set arrive, or those that waited are tried in the next tick (R379 step 5, R489). -/
def execMovingEntryInstall (k : Nat) (s : State) : Res :=
  match s.recvHs k (fun m => match m with | .moving src set es sp => some (src, set, es, sp) | _ => none) with
  | some ((src, set, es, sp), n, s) =>
    let s := match sp with
      | some t => s.modSlice n fun x => x.markSet set t
      | none => s
    let (s, rest) := s.installAll n set (byAge es)
    .next ((if rest.isEmpty then s else s.modSlice n fun x => { x with install := x.install ++ [(src, set, rest)] }).releaseEarly n).pump
  | none =>
    if s.slices.all fun p => p.2.install.isEmpty then stay s
    else
      let s := s.goTo (s.clk.tick + 1)
      .next (s.slices.foldl (fun s p => (s.reinstall (BitVec.ofNat 5 p.1)).releaseEarly (BitVec.ofNat 5 p.1)) s).pump

/-- `FMARK` reaches a port station, after every earlier ordered message of its source: `FMACK` (R379 step 4). -/
def execFmark (k : Nat) (s : State) : Res :=
  match s.recvPs k (fun m => match m with | .fmark src dst set ps => some (src, dst, set, ps) | _ => none) with
  | none => stay s
  | some ((src, dst, set, ps), n, s) => .next (s.send (psStop n) (hsStop dst) .rsp false (.fmack dst src set ps))

/-- Messages whose marks have all come are sent, in order. -/
def State.release379 (s : State) (n : Hs) : State :=
  let x := s.slice n
  let waits (w : BitVec 14 × Stn × Option Ci × Msg) : Bool := x.noAck.any fun a => a.2.1 == w.1 && a.2.2 == w.2.1
  let go := x.waitAck.filter fun w => !waits w
  let s := s.modSlice n fun y => { y with waitAck := y.waitAck.filter waits }
  go.foldl (fun s w => match w.2.2.1 with
    | some c => s.sendC c (hsStop n) (psStop w.2.1) .rsp true w.2.2.2
    | none => s.send (hsStop n) (psStop w.2.1) .rsp true w.2.2.2) s

/-- `FMACK` reaches the destination (R379 step 6). -/
def execFmack (k : Nat) (s : State) : Res :=
  match s.recvHs k (fun m => match m with | .fmack _ src set ps => some (src, set, ps) | _ => none) with
  | none => stay s
  | some (a, n, s) => .next ((s.modSlice n fun y => { y with noAck := y.noAck.erase a }).release379 n)

/-- The source serves a firn access for the destination (R382). -/
def execFirnAgencyRequest (k : Nat) (s : State) : Res :=
  match s.recvHs k (fun m => match m with | .agReq d _ acc ci fl op => some (d, acc, ci, fl, op) | _ => none) with
  | none => stay s
  | some ((d, acc, ci, fl, op), n, s) =>
    let mine := (s.slice n).facc.find? fun a => a.kind == .agency d acc && a.ci == ci && a.fl == fl
    match op, mine with
    | .read, _ => .next (s.addAcc n ci fl 0 (.agency d acc)).pump
    | .write j l, some a => .next (s.firnWrite n a j l).pump
    | .done, some a =>
      if a.dirty.isEmpty then .next (s.closeAcc n a.id).pump
      else
        let a := { a with kind := .scrub }
        let s := s.modSlice n fun x => { x with facc := updWhere (fun b => b.id == a.id) (fun _ => a) x.facc }
        .next (s.flushAcc n a).pump
    | _, none => stay s

/-- The result of an agency access: the lines of the set, or a write's end (R382). -/
def execFirnAgencyResult (k : Nat) (s : State) : Res :=
  match s.recvHs k (fun m => match m with | .agRsp src _ acc ci fl ls => some (src, acc, ci, fl, ls) | _ => none) with
  | none => stay s
  | some ((src, acc, ci, fl, ls), n, s) =>
    if !((s.slice n).facc.any fun a => a.id == acc) then
      .next (s.send (hsStop n) (hsStop src) .req false (.agReq n src acc ci fl .done))
    else if ls.isEmpty then .next (s.wroteLine n acc).pump
    else .next ((((List.range 4).zip ls).foldl (fun (s : State) (p : Nat × Line) => s.gotLine n acc p.1 p.2 []) s).pump)

/-- The migration's bulk operation, with every step done. -/
def State.foldOp (s : State) : Option BulkOp := s.be.ops.find? fun o => o.kind == .fold && s.opDone o && o.ended.isNone

/-- Phase 0 after the last step: the new map becomes current everywhere, the epoch bit toggles (R378 step 4). -/
def execSliceMapEpochFlip (s : State) : Res :=
  match s.fold, s.foldOp with
  | some f, some o =>
    if f.flipped then stay s
    else
      let s := s.toPhase0
      .next { s with smap := f.newMap, smep := !s.smep, fold := some { f with flipped := true }, be := { s.be with ops := s.be.ops.erase o } }
  | _, _ => stay s

/-- Every request stamped with the old epoch has ended, and nothing forwarded or done for another remains (R381, R382). -/
def State.epochDrained (s : State) : Bool :=
  (s.pss.all fun p => p.2.msgs.all fun m => m.st == OSt.waiting || m.req.smep == s.smep) &&
  (s.slices.all fun p => p.2.fwdQ.isEmpty && p.2.early.isEmpty && p.2.noAck.isEmpty && p.2.install.isEmpty &&
    (p.2.trk.all fun t => !t.req.fwd) && (p.2.facc.all fun a => !a.agency && (match a.kind with | .agency _ _ => false | _ => true))) &&
  s.mesh.pkts.all fun (p : Pkt) => p.bodies.all fun m => match m with
    | .fwd _ _ _ _ => false
    | .fwdFreed _ _ _ => false
    | .agReq _ _ _ _ _ _ => false
    | .agRsp _ _ _ _ _ _ => false
    | .lck l => p.dst == hsStop (s.home l.lix)
    | .req r => (match r.src with | .te _ => r.smep == s.smep | _ => true)
    | _ => true

/-- The old epoch has drained: agency and reserved entries end; a fold's departing slices are frozen (R378 step 6). -/
def execSliceMapEpochDrain (s : State) : Res :=
  match s.fold with
  | none => stay s
  | some f =>
    if !f.flipped || !s.epochDrained then stay s
    else
      let s := s.toPhase0
      let gone := sliceDoms (mapLess f.oldMap f.newMap)
      let s := { s with fold := none, slices := s.slices.map fun (p : Nat × Slice) => (p.1, ({ p.2 with moved := [] } : Slice)) }
      let s := s.bump 0xEA2
      match f.cmd with
      | none => .next (s.startFreeze gone false false)
      | some cmd =>
        if gone.isEmpty then .next (s.finish cmd .done)
        else
          let set (l : LongCmd) : LongCmd := if l.cmd == cmd then { l with job := .fold gone } else l
          .next (({ s with mc := { s.mc with longs := s.mc.longs.map set } } : State).startFreeze gone false false)

end Sys2Proof.Machine
end

