-- ==== Sys2Proof/Machine/PowerCmds.lean ====
section
/-!
DEFINITION. The commands of the power domains (R369 to R373, R491): the steps of a freeze and of a thaw, their time limits, packets
returned by a forced freeze, and a supply that is lost.
-/

namespace Sys2Proof.Machine

open Sys2Proof

/-- A freeze or thaw of a domain has failed: the commands that wait for it end, a start-up goes on without it (R473). -/
def State.pdFail (s : State) (d : BitVec 7) (st : Status) : State :=
  let s := s.mc.longs.foldl (fun s l => match l.job with
    | .freeze ds => if ds.contains d then s.finish l.cmd st else s
    | .thaw ds => if ds.contains d then s.finish l.cmd st else s
    | .fold ds => if ds.contains d then s.finish l.cmd st else s
    | _ => s) s
  let s := match s.fold with
    | some f =>
      if !f.started && (sliceDoms (mapLess f.newMap f.oldMap)).contains d then
        match f.cmd with
        | some c => ({ s with fold := none } : State).finish c st
        | none => { s with fold := none }
      else s
    | none => s
  match s.mc.seq with
  | none => s
  | some q =>
    if !q.cur.contains d then s
    else match q.cmd with
      | some c => ({ s with mc := { s.mc with seq := none } } : State).finish c st
      | none =>
        let s := { s with mc := { s.mc with seq := some { q with cur := q.cur.filter fun x => !(domPair d).contains x } } }
        let s := if s.mc.bstate = .starting then { s with mc := { s.mc with pflt := s.mc.pflt ||| 2 } } else s
        s.pdAdvance

/-- The fault of a freeze or thaw, counted against the domain (R369, R373, R480). -/
def State.pdFault (s : State) (d : BitVec 7) : State := s.faultEv 2 { chk := 8, chn := d.setWidth 12 } (domStop d) 0x0E

/-- The port of one domain's unit closes: the signals change tick by tick (R369 steps 3 to 6). -/
def State.fenceDom (s : State) (d : BitVec 7) : State :=
  let x := s.dom d
  let s := s.setDom d { x with fenced := true, dl := some (s.clk.tick + 4 + BitVec.ofNat 48 s.params.pgTmo) }
  let s := s.later 1 (.domSig d (some true) none none)
  let s := if x.toRet then s.later 2 (.domSig d none (some true) none) else s
  s.later 3 (.domSig d none none (some false))

/-- R369 steps 3 to 6: at phase 0 the idle unit's port closes, of both domains of a slice together (R363). -/
def execFreezeFence (d : BitVec 7) (s : State) : Res :=
  let s := s.toPhase0
  let ds := domPair d
  if !(ds.all fun e => (s.dom e).st == .freezing && !(s.dom e).fenced) || !s.unitIdle d || !s.noneTo (domStop d) then .next s
  else .next (ds.foldl State.fenceDom s)

/-- `PD_ACK` = 0 and `PD_PGOOD` = 0: OFF at the next phase 0 (R369 step 7), both domains of a slice together once both are sampled
low (R363). -/
def execPowerOffAck (d : BitVec 7) (s : State) : Res :=
  let x := s.dom d
  if x.st != .freezing || !x.fenced || x.req || x.dl.isNone then stay s
  else
    let s := s.setDom d { x with ack := false, good := false }
    let ds := domPair d
    if !(ds.all fun e => !(s.dom e).ack && !(s.dom e).good) then .next s
    else .next (ds.foldl (fun s e => (s.modDom e fun y => { y with dl := none }).later 1 (.dom e .off)) s)

/-- `PG_TIMEOUT` expires: a freeze stays FREEZING, a thaw returns to OFF; `PWR_FAULT` (R369, R373). -/
def execPgTimeoutExpiry (d : BitVec 7) (s : State) : Res :=
  match (s.dom d).dl with
  | none => stay s
  | some t =>
    let s := (s.goTo t).toPhase0
    if (s.dom d).dl != some t then .next s
    else if (s.dom d).st == .freezing then
      .next ((((domPair d).foldl (fun s e => s.modDom e fun x => { x with dl := none }) s).pdFault d).pdFail d .pwrFault).closeCycle
    else
      let s := s.pdFault d
      let s := (domPair d).foldl (fun s e => s.modDom e fun x => { x with dl := none, req := false, counted := false, st := .off }) s
      let s := (domPair d).foldl (fun s e => s.unitOff e) s
      .next (s.pdFail d .pwrFault).closeCycle

/-- `FRZ_DRAIN_TMO` expires before the fence: the freeze is abandoned, or forced (R370). -/
def execFrzDrainTmoExpiry (d : BitVec 7) (s : State) : Res :=
  let x := s.dom d
  if x.st != .freezing || x.fenced || x.forced then stay s
  else
    let s := s.goTo (x.t1 + BitVec.ofNat 48 s.params.frzTmo)
    if (s.dom d).st != .freezing || (s.dom d).fenced then .next s
    else if x.force then .next ((domPair d).foldl (fun s e => s.modDom e fun y => { y with forced := true }) s).closeCycle
    else
      let s := (domPair d).foldl (fun s e =>
        if (s.dom e).st == .freezing && !(s.dom e).fenced then s.later 1 (.dom e .on) else s) s
      .next (s.pdFail d .timeout).closeCycle

/-- The virtual network and order of a message that is sent again (R337, R343). -/
def Msg.net : Msg → VNet × Bool
  | .req _ | .aop _ | .fwd _ _ _ _ | .agReq _ _ _ _ _ _ => (.req, false)
  | .wbm r => (.req, r.cls.wbClass)
  | .mcmd _ => (.req, true)
  | .snp _ | .lck _ | .grel _ | .grela _ _ => (.snp, false)
  | .grelw _ _ _ _ _ | .lgnt _ _ _ _ _ | .nma _ _ _ _ | .moving _ _ _ _ | .agRsp _ _ _ _ _ _ => (.dat, false)
  | .unc _ r _ _ => (if r.cls = Cls.urd then .dat else .rsp, false)
  | .mcpl _ _ _ _ => (.dat, false)
  | .cpl c => if c.hs.isSome then (.rsp, true) else (if c.ord = .dpush then .dat else .rsp, false)
  | .retry r => (.rsp, r.cls != Cls.aop)
  | .wbcr _ _ _ | .wradm _ _ _ | .rspack _ _ _ | .dord _ _ _ _ _ _ _ | .fmark _ _ _ _ => (.rsp, true)
  | _ => (.rsp, false)

/-- Where a returned message goes, once that is in force (R371). -/
def State.newDest (s : State) (m : Msg) (old : Stop) : Stop :=
  match m with
  | .req r => hsStop (s.home r.lix)
  | .wbm r => hsStop (s.home r.lix)
  | .lck l => hsStop (s.teHome l.lix)
  | .aop r => match s.teFor r.lix with | some e => teStop e | none => old
  | _ => old

/-- The domain of the unit at a stop (R15, R362); a slice's logic. -/
def stopDom (p : Stop) : Option (BitVec 7) :=
  let n := p.toNat
  if n < 8 then some (BitVec.ofNat 7 (64 + n))
  else if n < 40 then some (BitVec.ofNat 7 (n - 8))
  else if n < 48 then some (BitVec.ofNat 7 (72 + n - 40))
  else if n = 48 then some 80
  else if n = 49 then some 81
  else if n = 50 then some 82
  else if n = 52 then some 83
  else if n = 53 then some 84
  else none

/-- `ITK` and `URG` that a packet keeps when it is sent again (R346). -/
def State.keepAge (s : State) (p : Pkt) : BitVec 12 × BitVec 3 := (s.itkOf p, BitVec.ofNat 3 (s.urgency p))

/-- A packet for a forced freeze returns as `NACK-FROZEN` (R370); at its sender it is sent again, `ITK` and `URG` kept (R371). -/
def execNackFrozen (k : Nat) (s : State) : Res :=
  match s.recv k some with
  | none => stay s
  | some (.nack m, p, t) =>
    let dst := s.newDest m p.src
    let up : Bool := match stopDom dst with | some d => s.isOn d | none => true
    if up then .next (t.send p.dst dst m.net.1 m.net.2 m (some (s.keepAge p))) else stay s
  | some (m, p, t) =>
    let forced : Bool := match stopDom p.dst with | some d => (s.dom d).st == .freezing && (s.dom d).forced && !(s.dom d).fenced | none => false
    if forced then .next (t.send p.dst p.src .rsp false (.nack m) (some (s.keepAge p))) else stay s

/-- `PD_ACK` and `PD_PGOOD` high together (R373 step 2); both domains of a slice have to count. Then steps 3 and 4, with the
clearing of an array from OFF (R364). -/
def execPowerGood (d : BitVec 7) (s : State) : Res :=
  let x := s.dom d
  if x.st != .thawing || !x.req || x.counted || x.dl.isNone then stay s
  else
    let s := s.setDom d { x with counted := true, ack := true, good := true }
    let ds := domPair d
    if !(ds.all fun e => (s.dom e).counted) then .next s
    else
      let cold := ds.any fun e => decide (32 ≤ e.toNat) && decide (e.toNat < 64) && !(s.dom e).ret
      let s := ds.foldl (fun s e =>
        let s := s.modDom e fun y => { y with dl := none, t1 := s.clk.tick + (if cold then 1026 else 2) }
        (s.later 1 (.domSig e none (some false) none)).later 2 (.domSig e (some false) none none)) s
      .next s

/-- The unit has reported itself ready: ON at the first phase 0 after that (R365, R373 step 5). -/
def execThawReady (d : BitVec 7) (s : State) : Res :=
  let ds := domPair d
  if !(ds.all fun e => (s.dom e).st == .thawing && (s.dom e).counted && (s.dom e).dl.isNone) then stay s
  else
    let s := (s.goTo ((s.dom d).t1 + 1)).toPhase0
    .next (ds.reverse.foldl (fun s e => s.domTo e .on) s).pump

/-- What a port station loses with its supply: its messages and everything that waits in it (R491). -/
def State.psLost (s : State) (n : Stn) : State :=
  let x := s.ps n
  let s := s.stationGone n
  let s := (s.ps n).msgs.foldl (fun s m => if m.req.cls = Cls.aop then s else s.genDec m.req.ci m.req.gen) s
  let s := s.setPs n { PSt.reset with wbg := x.wbg, nextMid := x.nextMid, cred := x.cred }
  { s with mesh := { s.mesh with pkts := s.mesh.pkts.filter fun p => p.dst != psStop n } }

/-- A unit holds work whose loss is fatal (R491): a slice's array with entries among it. -/
def State.holdsWork (s : State) (d : BitVec 7) : Bool :=
  !s.unitIdle d || (decide (d.toNat < 64) && !(s.slice (domHs d)).sf.isEmpty)

/-- `PD_PGOOD` of an ON domain falls without a request (R372, R491). The state is OFF, and the outputs change, at the next phase 0 (R365,
R366); then the domain is thawed. -/
def execPgoodLoss (d : BitVec 7) (s : State) : Res :=
  if !s.isOn d || !(s.dom d).good then stay s
  else
    let n := d.toNat
    if (n < 64 || (72 ≤ n && n ≤ 82)) && s.holdsWork d then
      .next (s.fatal { chk := 8, chn := d.setWidth 12 } (domStop d) 0x0F)
    else
      let s := if 64 ≤ n && n < 72 then
          (s.psLost (d.setWidth 3)).faultEv 3 { chk := 8, chn := d.setWidth 12 } (domStop d) 0x0F
        else s
      let ds := domPair d
      let s := ds.foldl (fun s e =>
        ((s.modDom e fun x => { x with good := false, ack := false }).later 1 (.domSig e (some true) (some false) (some false))).later 1
          (.dom e .off)) s
      .next (s.later 1 (.thaw ds)).pump

end Sys2Proof.Machine
end

