-- ==== Sys2Proof/Machine/MeshCmds.lean ====
section
/-!
DEFINITION. The mesh from router to router (R334 to R361): a packet's hops, urgency, the choice of channel, link errors and
replays, and route-epoch swaps. A command that takes a packet at its unit implies the hops still before it (log entry 4).
-/

namespace Sys2Proof.Machine

open Sys2Proof

/-- The router where a packet stands, and its direction of travel. -/
def Pkt.here (p : Pkt) : Nat × Nat := match p.at' with | some (s, i) => (s.toNat, oppPort i.toNat) | none => (p.src.toNat, 0)

/-- A unit takes a packet from the local output: VN0 is refused only by a memory station without room (R148, R345). -/
def State.unitTakes (s : State) (p : Pkt) : Bool :=
  match p.vnet, p.msg with
  | .req, .mcmd c => s.msTakes (p.dst.setWidth 3) c
  | _, _ => true

/-- Credit for one hop through a port; the local port takes what the unit takes. -/
def State.hopCredit (s : State) (st port : Nat) (v : VNet) (esc : Bool) : Nat :=
  match nbr st port with | some t => s.credit t (oppPort port) v esc | none => 0

/-- The port that a packet takes next: on the escape channel `EPORT`, on the adaptive one the port with the most credits, the
lowest of equals (R351). -/
def State.outPort (s : State) (p : Pkt) : Option Nat :=
  let (h, d) := p.here
  let l := (s.mesh.bank p.rte).ports h d p.dst.toNat
  if p.esc then l.head?
  else l.foldl (fun b q => match b with
    | none => some q
    | some c => if s.hopCredit h c p.vnet false < s.hopCredit h q p.vnet false then some q else some c) none

/-- The packet at the head of its input queue: of those in the queue, the one that came first (R342, R348). -/
def State.atHead (s : State) (p : Pkt) : Bool :=
  p.queued && !p.link && s.mesh.pkts.all fun q => !(q.queued && q.key == p.key && decide (q.qn < p.qn))

/-- The head of a queue is routed to the output and has credit downstream for every flit (R340, R348). -/
def State.wantsPort (s : State) (p : Pkt) (st port : Nat) : Bool :=
  s.atHead p && p.here.1 == st && s.outPort p == some port &&
    (if port = 0 then s.unitTakes p else decide (p.flits ≤ s.hopCredit st port p.vnet p.esc))

/-- The input queue that holds a packet, as a number: input, network, channel (R348's rotating order). -/
def Pkt.queue (p : Pkt) : Nat :=
  ((match p.at' with | some (_, i) => i.toNat | none => 0) * 5 + p.vnet.code) * 2 + (if p.esc then 1 else 0)

/-- The output has moved a flit in this cycle, or still moves the flits of a packet (R335, R340). -/
def State.outBusy (s : State) (st port : Nat) : Bool :=
  match tGet s.mesh.busy (st * 8 + port) with | some c => !c.before s.clk | none => false

/-- The candidates of an output in rotating order after the queue granted last; of one queue, its head. -/
def State.candidates (s : State) (st port : Nat) : List (Nat × Pkt) :=
  if s.outBusy st port then []
  else
    let l := ((List.range s.mesh.pkts.length).zip s.mesh.pkts).filter fun x => s.wantsPort x.2 st port
    let last := match tGet s.mesh.rot (st * 8 + port) with | some q => q.toNat | none => 49
    (List.range 50).filterMap fun i => l.find? fun x => x.2.queue == (last + 1 + i) % 50

/-- The candidate with the highest urgency, the first of equals. -/
def State.bestOf (s : State) : List (Nat × Pkt) → Option (Nat × Pkt)
  | [] => none
  | c :: r => match s.bestOf r with
    | none => some c
    | some d => if s.urgency c.2 < s.urgency d.2 then some d else some c

/-- The flits of the packet in place `k` leave their queue through an output, in consecutive cycles (R335, R340, R342). -/
def State.leaves (s : State) (p : Pkt) (st port : Nat) : State :=
  let last := s.clk.plus (p.flits - 1)
  { s with mesh := { s.mesh with busy := tPut s.mesh.busy (st * 8 + port) last,
                                 left := (s.mesh.left.filter fun x => !x.2.before s.clk) ++ List.replicate p.flits (p.key, last) } }

/-- The packet in place `k` goes through an output of router `st` to its neighbour `t`, on the escape channel if `esc` (R342, R347,
R351); the sender keeps its last 8 flits (R360). An adaptive queue that becomes full is noted (R351). -/
def State.hop (s : State) (k : Nat) (p : Pkt) (st port t : Nat) (esc : Bool) : State :=
  let q := { p with urg := BitVec.ofNat 3 (s.urgency p), at' := some (BitVec.ofNat 6 t, BitVec.ofNat 3 (oppPort port)), link := true, esc := esc,
                    came := s.clk, qn := s.mesh.seq }
  let s := s.leaves p st port
  let out := ((tGet s.mesh.sent (st * 8 + port)).getD []) ++ List.replicate p.flits q
  let s := { s with mesh := { s.mesh with pkts := s.mesh.pkts.set k q, seq := s.mesh.seq + 1,
                                          sent := tPut s.mesh.sent (st * 8 + port) (out.drop (out.length - 8)) } }
  if !esc && s.credit t (oppPort port) p.vnet false = 0 then { s with mesh := { s.mesh with full := tPut s.mesh.full q.key s.clk } } else s

/-- The packet in place `k` leaves through the local output of its destination's router (R345, R347). -/
def State.eject (s : State) (k : Nat) (p : Pkt) : State :=
  let s := s.tapOut p
  let s := s.leaves p p.dst.toNat 0
  { s with mesh := { s.mesh with pkts := s.mesh.pkts.set k { p with urg := BitVec.ofNat 3 (s.urgency p), arr := true } } }

/-- An output grants one flit (R340, R342, R347, R348); port 0 is the local output. -/
def execRouterGrant (stop : Stop) (port : BitVec 3) (s : State) : Res :=
  match s.bestOf (s.candidates stop.toNat port.toNat) with
  | none => stay s
  | some (k, p) =>
    let u := match nbr stop.toNat port.toNat with
      | some t => s.hop k p stop.toNat port.toNat t p.esc
      | none => s.eject k p
    .next ({ u with mesh := { u.mesh with rot := tPut u.mesh.rot (stop.toNat * 8 + port.toNat) (BitVec.ofNat 7 p.queue) } } : State).injectAll

/-- The link that a flit travels on awaits a replay (R360). -/
def State.replaying (s : State) (st : Stop) (i : BitVec 3) : Bool := s.mesh.replays.contains (st.toNat, i.toNat)

/-- No flit that left before it is still on the same link (R335, R360). -/
def State.firstOnLink (s : State) (p : Pkt) : Bool :=
  s.mesh.pkts.all fun q => !(q.link && q.at' == p.at' && decide (q.qn < p.qn))

/-- A flit reaches a router input, with what its check found (R360). -/
def execFlitArrival (k : Nat) (err : EccErr) (s : State) : Res :=
  match s.mesh.pkts[k]? with
  | none => stay s
  | some p =>
    match p.at' with
    | none => stay s
    | some (st, i) =>
      if !p.link || s.replaying st i || !s.firstOnLink p then stay s
      else
        let t := { s with mesh := { s.mesh with pkts := s.mesh.pkts.set k { p with link := false, came := s.clk } } }
        match err with
        | .uncorrectable | .reserved => .next { s with mesh := { s.mesh with replays := s.mesh.replays ++ [(st.toNat, i.toNat)] } }
        | .corrected => .next (t.bump (0xF00 + 2 * st.toNat))
        | .ok => .next t

/-- The link at an input of a router, named by the router and the port that drive it. -/
def linkOf (stop : Stop) (port : BitVec 3) : Option (Stop × Nat) :=
  (nbr stop.toNat port.toNat).map fun t => (BitVec.ofNat 6 t, oppPort port.toNat)

/-- The sender of the link at an input sends its flits again from the one in error: those of its last 8 that have not arrived, which are
still on the link in their first order. A transient fault of the link (R360, R361). No input: the replay recovers an error in the router's
own queues, an event of the router (R480; log entry 80). -/
def execReplay (stop : Stop) (port : Option (BitVec 3)) (s : State) : Res :=
  match port with
  | none => .next (s.faultEv 2 { chk := 5, chn := stop.setWidth 12 } stop 0x09)
  | some q =>
    if !s.replaying stop q then stay s
    else
      let s := { s with mesh := { s.mesh with replays := s.mesh.replays.erase (stop.toNat, q.toNat) } }
      .next ((s.bump (0xF01 + 2 * stop.toNat)).faultEv 2 { chk := 6, chn := BitVec.ofNat 12 (4 * stop.toNat + q.toNat - 1) } stop 0x09)

/-- Core cycles from one to a later one. -/
def Clk.since (now c : Clk) : Nat := 16 * (now.tick - c.tick).toNat + now.phase.toNat - c.phase.toNat

/-- A packet has found no adaptive credit for 8 consecutive cycles: it came, and the last of its ports filled, that long ago (R351). -/
def State.starved (s : State) (p : Pkt) (st : Nat) (l : List Nat) : Bool :=
  decide (8 ≤ s.clk.since p.came) && l.all fun q => s.hopCredit st q p.vnet false = 0 &&
    (match nbr st q with
     | some t => (match tGet s.mesh.full (queueKey t (oppPort q) p.vnet false) with | some c => decide (8 ≤ s.clk.since c) | none => true)
     | none => true)

/-- A packet that has waited 8 cycles without adaptive credit moves through `EPORT` on the escape channel, where that has credit
(R351). -/
def execEscapeFallback (k : Nat) (s : State) : Res :=
  match s.mesh.pkts[k]? with
  | none => stay s
  | some p =>
    let (h, d) := p.here
    let l := (s.mesh.bank p.rte).ports h d p.dst.toNat
    if p.esc || !s.atHead p || !s.starved p h l then stay s
    else match l with
      | [] => stay s
      | e :: _ => match nbr h e with
        | none => stay s
        | some t =>
          if s.credit t (oppPort e) p.vnet true < p.flits || s.outBusy h e then stay s
          else .next (s.hop k p h e t true).injectAll

/-! ### Route-epoch swaps (R357) -/

/-- A swap begins: the idle bank is written (R357 step 1). A bank without a route between units in service is fatal, and so is a
fault of the MC's router (R355); that ends the command with `ENGINE_FAULT` (R465). `act`: the action of `MESH_FENCE`, which
says whether the channel is a router's or a link's. -/
def State.startSwap (s : State) (b : Bank) (cmd : Option (BitVec 512)) (act : Nat) (stop : Stop) (port : BitVec 3) : State :=
  if !b.connected || b.lost mcStop then
    let s := match cmd with
      | some c => s.finish c .engineFault
      | none => s
    s.fatal (if act = 3 then { chk := 6, chn := BitVec.ofNat 12 (4 * stop.toNat + port.toNat - 1) } else { chk := 5, chn := stop.setWidth 12 }) stop 0x12
  else
    let m := if s.mesh.rtep then { s.mesh with bank0 := b } else { s.mesh with bank1 := b }
    { s with mesh := { m with swap := some { t0 := s.clk.tick, flipped := false, flipTick := 0, cmd := cmd } } }

/-- A bank changed by an action of `MESH_FENCE`: 0 fence, 1 unfence, 2 retire the router, 3 retire the link at a port. -/
def Bank.act (b : Bank) (act : Nat) (stop : Stop) (port : BitVec 3) : Bank :=
  if act = 0 then { b with fenced := if b.fenced.contains stop then b.fenced else b.fenced ++ [stop] }
  else if act = 1 then { b with fenced := b.fenced.filter (· != stop) }
  else if act = 2 then { b with retired := if b.retired.contains stop then b.retired else b.retired ++ [stop] }
  else { b with links := if b.links.contains (stop, port) then b.links else b.links ++ [(stop, port)] }

/-- Starts a swap, or queues it behind the one under way (R358). -/
def State.fence (s : State) (act : BitVec 8) (stop : Stop) (port : BitVec 3) (cmd : Option (BitVec 512)) : State :=
  if s.mesh.swap.isSome then { s with mesh := { s.mesh with queued := s.mesh.queued ++ [(act, stop, port, cmd)] } }
  else s.startSwap ((s.mesh.bank s.mesh.rtep).act act.toNat stop port) cmd act.toNat stop port

/-- The epoch flips at phase 0 of the fourth tick (R357 step 2). -/
def execRouteEpochFlip (s : State) : Res :=
  match s.mesh.swap with
  | none => stay s
  | some w =>
    if w.flipped then stay s
    else
      let s := s.goTo (w.t0 + 4)
      let m := { s.mesh with rtep := !s.mesh.rtep, swap := some { w with flipped := true, flipTick := s.clk.tick } }
      .next { s with mesh := { m with pkts := m.pkts.map fun (p : Pkt) => if p.wait then { p with held := m.holds p.src p.dst p.ord } else p } }

/-- Packets of an epoch injected and not yet ejected (R356). -/
def State.epochCount (s : State) (rte : Bool) : Nat := (s.mesh.pkts.filter fun (p : Pkt) => p.queued && p.rte == rte).length

/-- The old epoch's count is not zero. -/
def State.oldEpoch (s : State) : Bool := s.epochCount (!s.mesh.rtep) != 0

/-- The old epoch's count reads zero (R357 step 5): held packets go, the old bank is idle, the command ends. -/
def execRouteEpochDrained (s : State) : Res :=
  match s.mesh.swap with
  | none => stay s
  | some w =>
    if !w.flipped || s.oldEpoch then stay s
    else
      let s := s.toPhase0
      let s := { s with mesh := { s.mesh with swap := none, pkts := s.mesh.pkts.map fun (p : Pkt) => { p with held := false } } }
      let s := s.injectAll
      let s := s.bump 0xEA1
      let s := match w.cmd with
        | some c => s.finish c .done
        | none => s
      match s.mesh.queued with
      | [] => .next s
      | (a, st, p, c) :: r => .next (({ s with mesh := { s.mesh with queued := r } } : State).fence a st p c)

/-- `RTE_DRAIN_TMO` ticks after the flip the old epoch has not drained: fatal (R359). -/
def execRteDrainTmoExpiry (s : State) : Res :=
  match s.mesh.swap with
  | none => stay s
  | some w =>
    if !w.flipped then stay s
    else
      let s := s.goTo (w.flipTick + BitVec.ofNat 48 s.params.rteTmo)
      if s.oldEpoch then .next (s.fatal (noChan 0x11) mcStop 0x11) else .next s

end Sys2Proof.Machine
end

