-- ==== Sys2Proof/Machine/ObsCmds.lean ====
section
/-!
DEFINITION. The churn of the slices (R97, R98, R413 to R426), and observation: trace buffer, trace output, counters (R434 to R438).
-/

namespace Sys2Proof.Machine

open Sys2Proof

/-! ### Calibration (R420 to R426) -/

/-- R422. The mean moves by an arithmetic shift, rounded down. -/
def calSample (e : Option CalEnt) (x : Nat) : CalEnt :=
  match e with
  | none => { mean := x, min := x, max := x, chg := true }
  | some e => { mean := ((e.mean : Int) + ((x : Int) - (e.mean : Int)).fdiv 16).toNat, min := min e.min x, max := max e.max x, chg := true }

/-- The `CALS` record of R433. -/
def State.tapCal (s : State) (n : Hs) (c : Cax) (x mean : Nat) : State :=
  s.tap { kind := 3, stop := hsStop n, at' := s.clk, ci := none, lix := none,
          body := BitVec.ofNat 128 (c.toNat + x * 2 ^ 10 + mean * 2 ^ 34) } none

/-- The oldest sample is applied (R420), once no bulk step is before it, nor in the exceptional slot what waits (R415); an
uncorrectable entry counts as empty (R423). -/
def execCalibrationWrite (hs : Hs) (err : EccErr) (s : State) : Res :=
  match (s.slice hs).calQ with
  | [] => stay s
  | (c, x) :: r =>
    if !s.hsUp hs then stay s
    else if s.lastSlot && (s.slice hs).waits then .next (s.churn hs)
    else if s.bulkReady hs then stay s
    else
      let bad := err == .uncorrectable
      let s := if bad then s.bump (hsCtr hs 22) else s
      let e := calSample (if bad then none else tGet (s.slice hs).cal c.toNat) x
      let s := s.modSlice hs fun y => { y with calQ := r, cal := tPut y.cal c.toNat e }
      .next (((s.bump (hsCtr hs 21)).tapCal hs c x e.mean).churn hs)

/-! ### Scrubs and moves (R93 to R98, R414, R415) -/

/-- The SF scrub of the slice becomes ready (R413), `errs` being what the checks of the set find; it has its slot in the order of R415. -/
def execSfScrub (hs : Hs) (errs : List (Nat × EccErr)) (s : State) : Res :=
  if !s.hsUp hs || !s.works (sfDom hs) || (s.slice hs).sfWait.isSome then stay s
  else .next ((s.modSlice hs fun x => { x with sfWait := some errs }).churn hs)

/-- The firn scrub of the slice becomes ready. -/
def execFirnScrub (hs : Hs) (s : State) : Res :=
  if !s.hsUp hs || (s.slice hs).fsWait || (s.nextScrub hs).isNone then stay s
  else .next ((s.modSlice hs fun x => { x with fsWait := true }).churn hs)

/-- A move that the slice has to make has its slot: of `FIRN_ROTATE`, a bulk step, or one posted under R414, which comes after the
calibration writes. In the exceptional slot what waits comes first (R415). -/
def execRotationMove (hs : Hs) (ci : Ci) (s : State) : Res :=
  let i := s.inst ci
  if !s.mayMove hs ci then stay s
  else if s.lastSlot && (s.slice hs).waits then .next (s.churn hs)
  else if s.moveBulk ci then .next ((s.addAcc hs ci i.moveSet 0 .move).pump.churn hs)
  else if i.rotBusy || i.rotPend = 0 || s.bulkReady hs || !(s.slice hs).calQ.isEmpty then stay s
  else .next (((s.setInst ci { i with rotBusy := true, rotPend := i.rotPend - 1 }).addAcc hs ci i.moveSet 0 .move).pump.churn hs)

/-! ### Telemetry (R425, R426, R438) -/

/-- Brings the clock to phase 0 of the next tick whose number is a multiple of `n`, or leaves it there. -/
def State.toMultiple (s : State) (n : Nat) : State :=
  let t := s.clk.tick.toNat
  if s.clk.phase = 0 && t % n == 0 then s else s.goTo (BitVec.ofNat 48 (t / n * n + n))

/-- A telemetry epoch, at the next tick that `TEL_LOG2` names: the telemetry of every slice becomes ready, units send their
pre-counters. -/
def execTelemetryEpoch (s : State) : Res :=
  let s := s.toMultiple (2 ^ s.params.telLog2)
  let s : State := { s with
    calSeen := [],
    slices := s.slices.map fun p => if s.works (BitVec.ofNat 7 p.1) then (p.1, { p.2 with telWait := true }) else p,
    obs := { s.obs with incs := s.obs.incs ++ s.obs.pre, pre := [] } }
  .next (s.slices.foldl (fun s p => s.churn (BitVec.ofNat 5 p.1)) s.imeans)

/-- An increment reaches OBS; while OBS is not ON it is discarded (R438). -/
def execCounterIncrement (n : Nat) (s : State) : Res :=
  match s.obs.incs[n]? with
  | none => stay s
  | some (i, v) =>
    let o := { s.obs with incs := s.obs.incs.eraseIdx n }
    .next { s with obs := if s.isOn 84 then { o with cnt := tPut o.cnt i ((tGet o.cnt i).getD 0 + BitVec.ofNat 64 v) } else o }

/-! ### The trace buffer and output (R434, R435, R522) -/

def bufSize : Nat := 131072

/-- The record fires the trigger (R435). -/
def State.triggered (s : State) (r : TRec) : Bool :=
  if s.obs.trigSel = 1 then
    r.kind.setWidth 8 == s.obs.trigKind && (match r.lix with | some l => l == s.obs.trigLix.setWidth 46 | none => false)
  else false

/-- The error interrupt is asserted and is what fires the trigger (R435). -/
def State.irqTriggers (s : State) : Bool :=
  s.obs.trigSel = 2 && s.regs.irqEn.getLsbD 1 && (!s.errLog.isEmpty || !s.vlog.isEmpty)

/-- Capture stops once the records after the trigger are taken. -/
def State.stopAt (s : State) : State :=
  match s.obs.stopIn with
  | some 0 => (({ s with obs := { s.obs with stopIn := none, stopped := true } } : State).obsCause 0)
  | _ => s

/-- A record enters the buffer: STREAM discards when full, RING overwrites the oldest and may stop (R434). -/
def State.capture (s : State) (r : TRec) : State :=
  if !s.obs.ring then
    if s.obs.buf.length < bufSize then { s with obs := { s.obs with buf := s.obs.buf ++ [r] } }
    else (({ s with obs := { s.obs with trLost := s.obs.trLost + 1 } } : State).bump 0xEA0).obsCause 2
  else if s.obs.stopped || s.obs.dumping then s
  else
    let s := if s.obs.stopIn.isNone && s.irqTriggers then ({ s with obs := { s.obs with stopIn := some s.obs.trPost } } : State).stopAt else s
    if s.obs.stopped then s
    else
    let b := s.obs.buf ++ [r]
    let s := { s with obs := { s.obs with buf := if b.length > bufSize then b.drop 1 else b } }
    match s.obs.stopIn with
    | some n => ({ s with obs := { s.obs with stopIn := some (n - 1) } } : State).stopAt
    | none => if s.triggered r then ({ s with obs := { s.obs with stopIn := some s.obs.trPost } } : State).stopAt else s

/-- A tap injects its oldest records, up to two in one flit, in a cycle in which its unit has no other VN4 flit waiting (R430). -/
def State.tapSend (s : State) (stop : Stop) : State :=
  match (tGet s.obs.taps stop.toNat).getD [] with
  | [] => s
  | r :: rest =>
    if s.mesh.pkts.any fun (p : Pkt) => p.wait && p.src == stop && p.vnet == .mgt then s
    else
      let (b, rest) := match rest with
        | [] => ([], [])
        | r2 :: l => ([Msg.trace r2], l)
      let p := { Pkt.new stop obsStop .mgt true (.trace r) with
        more := b, wait := false, rte := s.mesh.rtep, itk := s.clk.tick.setWidth 12, came := s.clk, qn := s.mesh.seq }
      let s := { s with obs := { s.obs with taps := if rest.isEmpty then tDel s.obs.taps stop.toNat else tPut s.obs.taps stop.toNat rest },
                        mesh := { s.mesh with pkts := s.mesh.pkts ++ [p], seq := s.mesh.seq + 1, inj := tPut s.mesh.inj stop.toNat s.clk } }
      s.tapPkt p stop false

/-- The oldest packet of records that a stop has in flight. -/
def State.traceIdx (s : State) (stop : Stop) : Option Nat :=
  s.mesh.pkts.findIdx? fun p => p.src == stop && (match p.msg with | .trace _ => true | _ => false)

/-- The oldest record of a tap reaches OBS: it is on its way, or the tap injects it first (R429, R430). While OBS is not ON it is lost. -/
def execTraceRecord (stop : Stop) (s : State) : Res :=
  let s := if (s.traceIdx stop).isSome then s else s.tapSend stop
  match s.traceIdx stop with
  | none => stay s
  | some k => match s.recv k (fun m => match m with | .trace r => some r | _ => none) with
    | none => stay s
    | some (r, _, s) => if s.isOn 84 then .next (s.capture r) else .next s

/-- The dump of a RING buffer has ended: it is clear, and capture may start again (R434). -/
def State.dumpEnd (s : State) : State :=
  let s := { s with obs := { s.obs with dumping := false, stopped := false, stopIn := none, buf := [] } }
  let s := s.obsCause 1
  s.mc.longs.foldl (fun s l => match l.job with | .dump => s.finish l.cmd .done | _ => s) s

/-- A record leaves on the trace output; `ue`: a word of it was found uncorrectable, `fixes` words were corrected (R522, R529). -/
def execTraceOutput (ue : Bool) (fixes : Nat) (s : State) : Res :=
  if s.obs.ring && !s.obs.dumping then stay s
  else match s.obs.buf with
    | [] => if s.obs.dumping then .next s.dumpEnd else stay s
    | r :: rest =>
      let s := (({ s with obs := { s.obs with buf := rest } } : State).emit (.trace r.word ue)).qceAdd 2 fixes
      .next (if rest.isEmpty && s.obs.dumping then s.dumpEnd else s)

end Sys2Proof.Machine
end

