-- ==== Sys2Proof/Machine/Profile.lean ====
section
/-!
DEFINITION. Profiles (R470 to R476): the layout of the profile store, when a profile is valid, what it puts in force; memory-port
descriptors as words (R467) and the ranges of pool that ports, Rime Tables, firn areas and regions take (R67, R88).
-/

namespace Sys2Proof.Machine

open Sys2Proof

/-! ### Ranges of lines, upper end left out -/

abbrev Span := Nat × Nat

def Span.meets (a b : Span) : Bool := decide (a.1 < b.2) && decide (b.1 < a.2) && decide (a.1 < a.2) && decide (b.1 < b.2)
def Span.inside (a b : Span) : Bool := decide (b.1 ≤ a.1) && decide (a.2 ≤ b.2)

/-- A port's range: `PORT_BASE` and `PORT_SIZE` in MiB, 2^14 lines each (R87). -/
def PortDesc.span (p : PortDesc) : Span := (p.base.toNat * 2 ^ 14, (p.base.toNat + p.size.toNat) * 2 ^ 14)

/-- Its Rime Table: `PORT_SIZE` / 256, 64 lines for each MiB (R88). -/
def PortDesc.rtSpan (p : PortDesc) : Span := if p.table then (p.rtBase.toNat * 64, (p.rtBase.toNat + p.size.toNat) * 64) else (0, 0)

/-- A firn area: 2^k sets of 4 lines and 4 KiB more (R66). -/
def firnSpan (base : BitVec 32) (k : Nat) : Span :=
  if k = 0 then (0, 0) else (base.toNat * 2 ^ 14, base.toNat * 2 ^ 14 + 4 * 2 ^ k + 64)

def Inst.firnSpan (i : Inst) : Span := Machine.firnSpan i.firnBase i.firnLog2
def Region.span (r : Region) : Span := (r.lo, r.hi + 1)

/-- The rule changes accepted whose generation has not switched yet: they stand in the shadow copies (R272 step 2). -/
def State.pendRules (s : State) : List (Ci × RuleOp) :=
  s.insts.filterMap fun p => p.2.rule.bind fun r => if r.switched then none else some ((BitVec.ofNat 6 p.1 : Ci), r.op)

/-- The regions of every instance, those accepted for the next generation among them. -/
def State.allRegions (s : State) : List (Ci × Nat × Region) :=
  (s.insts.flatMap fun p => p.2.regions.map fun r => ((BitVec.ofNat 6 p.1 : Ci), r.1, r.2)) ++
    s.pendRules.filterMap fun p => match p.2 with | .setRegion k r => some (p.1, k, r) | _ => none

/-- IRT entries accepted and not yet current. -/
def State.pendIrt (s : State) : List IrtEnt := s.pendRules.filterMap fun p => match p.2 with | .addIrt e => some e | _ => none

/-- A binding of the agent is accepted and not yet current. -/
def State.pendBind (s : State) (rq : Rqid) : Bool := s.pendRules.any fun p => match p.2 with | .bind r _ => r == rq | _ => false

/-- The firn areas of every instance but one; an instance holds what it drew at `INST_CREATE` while its `NREG` is not 0. -/
def State.firnSpans (s : State) (but : Option Ci := none) : List Span :=
  (s.insts.filter fun p => p.2.nreg != 0 && but != some (BitVec.ofNat 6 p.1)).map fun p => p.2.firnSpan

/-- The port descriptors, those of a profile that comes into force at the next tick among them (R474). -/
def State.portsSeen (s : State) : List (Nat × PortDesc) :=
  s.ports ++ s.sched.flatMap fun e => match e.2 with | .profile _ l _ => l | _ => []

/-- The Rime Tables of the valid ports but one. -/
def State.rtSpans (s : State) (but : Option Nat := none) : List Span :=
  (s.portsSeen.filter fun p => p.2.pv && but != some p.1).map fun p => p.2.rtSpan

/-! ### Port descriptors (R467, R468) -/

def PortDesc.decode (w : BitVec 128) : PortDesc :=
  { base := w.extractLsb' 0 32, size := w.extractLsb' 32 32, rtBase := w.extractLsb' 64 40, table := w.getLsbD 104,
    nma := w.getLsbD 105, thr := (w.extractLsb' 106 7).toNat, pv := w.getLsbD 113, nmaLive := w.getLsbD 105,
    thrLive := (w.extractLsb' 106 7).toNat, rtReady := false }

def PortDesc.encode (p : PortDesc) : Nat :=
  p.base.toNat + p.size.toNat * 2 ^ 32 + p.rtBase.toNat * 2 ^ 64 + b2n p.table 104 + b2n p.nma 105 + p.thr % 128 * 2 ^ 106 + b2n p.pv 113

/-- Every field lies in its range; the range fits the address space, and a Rime Table lies on its port (R87, R88, R233). -/
def PortDesc.inRange (p : PortDesc) : Bool :=
  decide (p.thr ≤ 64) && (!p.pv || (decide (p.base.toNat + p.size.toNat ≤ 2 ^ 32) && (!p.table || Span.inside p.rtSpan p.span)))

/-- A Rime Table zero-fill runs on the port. -/
def State.rtFilling (s : State) (m : Nat) : Bool := s.be.ops.any fun o => o.kind == .zfillRt (BitVec.ofNat 8 m)

/-- A valid region, a firn area or a Rime Table lies on the port, or its zero-fill runs (R468, R374, R488). -/
def State.portHeld (s : State) (m : Nat) (p : PortDesc) : Bool :=
  p.pv && ((s.allRegions.any fun r => Span.meets r.2.2.span p.span) ||
    (s.insts.any fun i => i.2.nreg != 0 && i.2.firnLog2 != 0 && i.2.firnMpid.toNat == m) || p.table || s.rtFilling m)

/-- A change that R468 forbids while the port is held. -/
def PortDesc.moves (p q : PortDesc) : Bool :=
  p.base != q.base || p.size != q.size || p.rtBase != q.rtBase || p.table != q.table || !q.pv

def State.portFixed (s : State) (m : Nat) (q : PortDesc) : Bool :=
  match tGet s.ports m with
  | some p => s.portHeld m p && p.moves q
  | none => false

/-- A new descriptor overlaps another valid port, or its Rime Table breaks R67 (R468). -/
def State.portClash (s : State) (m : Nat) (q : PortDesc) : Bool :=
  q.pv && ((s.portsSeen.any fun p => p.1 != m && p.2.pv && (Span.meets p.2.span q.span || Span.meets p.2.span q.rtSpan || Span.meets p.2.rtSpan q.span)) ||
    ((s.rtSpans (some m)).any fun r => Span.meets r q.rtSpan) || ((s.firnSpans).any fun r => Span.meets r q.rtSpan) ||
    (s.allRegions.any fun r => Span.meets r.2.2.span q.rtSpan))

/-- The descriptor that a write leaves: `NMA_EN` and `POST_THR` come into force later, a table's readiness stands. -/
def PortDesc.over (q : PortDesc) (old : Option PortDesc) : PortDesc :=
  let p := old.getD PortDesc.reset
  { q with nmaLive := p.nmaLive, thrLive := p.thrLive, rtReady := p.pv && p.table && q.table && p.rtReady }

/-! ### Profile fields (R470) -/

/-- A profile's bytes: from an address of a byte memory on. -/
structure Prof where
  mem : List Host.Cell
  base : Nat

def Prof.get (p : Prof) (off n : Nat) : Nat := memGetN p.mem (p.base + off) n

def Prof.params (p : Prof) : Params :=
  { scrubInt := p.get 0x40 1, telLog2 := p.get 0x41 1, fscrubInt := p.get 0x42 2, pgTmo := p.get 0x44 2, biMin := p.get 0x46 2,
    frzTmo := p.get 0x48 4, rteTmo := p.get 0x4C 4, graceTmo := p.get 0x50 4, biMax := p.get 0x54 4, biRetry := p.get 0x58 1,
    sysTkt := p.get 0x5A 2, hm0 := p.get 0x5C 2, hm1 := p.get 0x5E 2, hmB := p.get 0x60 2, twHb := p.get 0x62 2,
    twLease := p.get 0x64 4, lbThr := p.get 0x68 2, lbWin := p.get 0x6C 4 }

def between (a x b : Nat) : Bool := decide (a ≤ x) && decide (x ≤ b)

/-- Every parameter in its rule's range (R94 to R481; the ranges table of Characteristics). -/
def Params.ok (p : Params) : Bool :=
  between 16 p.biMin 65535 && between 1024 p.biMax 1048575 && decide (p.biMin ≤ p.biMax) && decide (p.biRetry ≤ 7) &&
    between 1250 p.graceTmo 125000000 && between 16 p.pgTmo 65535 && between 1250 p.frzTmo 12500000 &&
    between 1250 p.rteTmo 1250000 && between 1 p.scrubInt 64 && between 8 p.telLog2 16 && between 1 p.fscrubInt 65535 &&
    decide (p.sysTkt ≤ 65535) && decide (p.hm0 ≤ 65535) && decide (p.hm1 ≤ 65535) && decide (p.hmB ≤ 65535) &&
    between 16 p.twHb 65535 && between 1250 p.twLease 1250000 && decide (8 * p.twHb ≤ p.twLease) && between 1 p.lbThr 255 &&
    between 1250 p.lbWin 1250000000 && decide (p.lbThr ≤ p.lbWin)

/-- A Slice Map of 8, 16 or 32 slices with equal shares (R376, R471). -/
def mapShape (l : List Nat) : Bool :=
  let d := l.eraseDups
  let n := d.length
  l.length == 32 && l.all (fun x => decide (x < 32)) && (n == 8 || n == 16 || n == 32) && d.all fun x => l.count x == 32 / n

def Prof.smap (p : Prof) : List Nat := (List.range 32).map fun i => p.get (0xC0 + i) 1

/-- The valid entries of the port table. -/
def Prof.ports (p : Prof) : List (Nat × PortDesc) :=
  (List.range 256).filterMap fun m =>
    let q := PortDesc.decode (BitVec.ofNat 128 (p.get (0x200 + 16 * m) 16))
    if q.pv then some (m, q) else none

/-- No two valid entries overlap, and no Rime Table overlaps another port's range (R471). -/
def portsApart : List (Nat × PortDesc) → Bool
  | [] => true
  | (_, p) :: r => p.inRange && (r.all fun q => !Span.meets p.span q.2.span && !Span.meets p.rtSpan q.2.span && !Span.meets p.span q.2.rtSpan) && portsApart r

def Prof.crc (p : Prof) : Nat := (crcOf (fun i => memGet p.mem (p.base + 0x40 + i)) 0x7FC0).toNat

/-- R471 apart from `PCRC`. -/
def Prof.sound (p : Prof) : Bool :=
  p.get 0 4 == 0x464F5250 && p.get 4 2 == 1 && p.params.ok && mapShape p.smap && portsApart p.ports

def Prof.valid (p : Prof) : Bool := p.sound && p.get 8 4 == p.crc

def State.prof (s : State) (k : Nat) : Prof := { mem := s.mc.store, base := 0x8000 * k }
def State.staged (s : State) : Prof := { mem := s.mc.staging, base := 0 }

/-! ### Byte memory: ranges -/

def memClear (m : List Host.Cell) (a n : Nat) : List Host.Cell := m.filter fun c => !(decide (a ≤ c.1) && decide (c.1 < a + n))

/-- Writes the cells of another memory from an address on. -/
def memLoad (m : List Host.Cell) (a : Nat) (src : List Host.Cell) : List Host.Cell :=
  src.foldl (fun m c => memSet m (a + c.1) c.2) m

/-! ### Start-up (R449, R471, R472, R497) -/

/-- The maps of R497, in its order. -/
def fallbackMaps : List (List Nat) :=
  [(List.range 32).map (· % 16), (List.range 32).map fun i => 16 + i % 16] ++
    (List.range 4).map fun k => (List.range 32).map fun i => 8 * k + i % 8

/-- A retired slice (R484, R486). -/
def State.sliceRetired (s : State) (n : Nat) : Bool :=
  s.ret.chans.contains { chk := 2, chn := BitVec.ofNat 12 n } || s.ret.doms.contains (BitVec.ofNat 7 n)

def State.mapClean (s : State) (l : List Nat) : Bool := l.all fun n => !s.sliceRetired n

/-- A domain that stays OFF: for good (R484), or while its stop is out of service (R353, R487; log entry 80). -/
def State.domRetired (s : State) (d : BitVec 7) : Bool :=
  s.stopOut d || (domPair d).any fun e => s.ret.chans.contains { chk := 8, chn := e.setWidth 12 } || s.ret.doms.contains e

def toHs (l : List Nat) : List Hs := l.map (BitVec.ofNat 5)

/-- The profile selected by the straps, or the defaults of R472, put in force; the Slice Map, replaced under R497 where it
names a retired slice; the thaws of the profile's domain set. -/
def State.startUp (s : State) : State :=
  let p := s.prof s.strapProf.toNat
  let ok := p.valid
  let params := if ok then p.params else Params.defaults
  let ports := if ok then p.ports.map fun e => (e.1, { e.2 with rtReady := e.2.table }) else []
  let want := if ok then p.smap else List.range 32
  let map := if s.mapClean want then want else (fallbackMaps.find? s.mapClean).getD want
  let named (d : BitVec 7) : Bool :=
    if ok then (p.get 0x80 11).testBit d.toNat else !(d == 83 && !s.strapTwin)
  let pflt : BitVec 8 := (if ok then 0 else 1) ||| (if s.mapClean want then 0 else 4)
  let s := { s with params := params, ports := ports, smap := toHs map,
                    mc := { s.mc with papp := if ok then s.strapProf.setWidth 8 else 0xFF, pflt := pflt,
                                      autordy := ok && (p.get 0x70 1).testBit 0 } }
  s.startSeq false (pickGroups (fun d => (domPair d).any named && !s.domRetired d) parkOrder.reverse) none

/-! ### Capture and commit (R475, R476) -/

/-- The staging buffer as `PROFILE_CAPTURE` leaves it. -/
def State.captured (s : State) : List Host.Cell :=
  let p := s.params
  let w (l : List (Nat × Nat × Nat)) (m : List Host.Cell) : List Host.Cell := l.foldl (fun m e => memSetN m e.1 e.2.1 e.2.2) m
  let m := w [(0, 4, 0x464F5250), (4, 2, 1), (0x40, 1, p.scrubInt), (0x41, 1, p.telLog2), (0x42, 2, p.fscrubInt), (0x44, 2, p.pgTmo),
    (0x46, 2, p.biMin), (0x48, 4, p.frzTmo), (0x4C, 4, p.rteTmo), (0x50, 4, p.graceTmo), (0x54, 4, p.biMax), (0x58, 1, p.biRetry),
    (0x5A, 2, p.sysTkt), (0x5C, 2, p.hm0), (0x5E, 2, p.hm1), (0x60, 2, p.hmB), (0x62, 2, p.twHb), (0x64, 4, p.twLease),
    (0x68, 2, p.lbThr), (0x6C, 4, p.lbWin),
    (0x80, 11, ((List.range 85).map fun d => b2n (s.isOn (BitVec.ofNat 7 d)) d).sum)] []
  let m := w ((List.range 32).map fun i => (0xC0 + i, 1, ((s.smap[i]?).getD 0).toNat)) m
  w ((s.ports.filter fun e => e.2.pv).map fun e => (0x200 + 16 * e.1, 16, e.2.encode)) m

/-- The profile that a commit has written: `PGEN` one above the stored one, `PCRC` of its bytes. -/
def State.committed (s : State) (k : Nat) : List Host.Cell :=
  let gen := (s.prof k).get 0xC 4 + 1
  let img := memSetN s.mc.staging 0xC 4 gen
  let img := memSetN img 8 4 ({ mem := img, base := 0 } : Prof).crc
  memLoad (memClear s.mc.store (0x8000 * k) 0x8000) (0x8000 * k) (img.filter fun c => c.1 < 0x8000)

/-- What a commit cut short by the `n`th reset leaves: bytes that are free, with a `PCRC` that fails (R476). -/
def cutCommit (n : Nat) (store : List Host.Cell) (k : Nat) : List Host.Cell :=
  let m := (List.range 0x8000).foldl (fun m i => memSet m (0x8000 * k + i) (Config.mramCut n k i)) store
  memSetN m (0x8000 * k + 8) 4 (({ mem := m, base := 0x8000 * k } : Prof).crc + 1)

/-- The store as a reset leaves it. -/
def State.storeKept (s : State) : List Host.Cell :=
  s.mc.longs.foldl (fun m l => match l.job with | .commit k => cutCommit s.cuts m k | _ => m) s.mc.store

end Sys2Proof.Machine
end

