-- ==== Sys2Proof/Machine/Faults.lean ====
section
/-!
DEFINITION. Resets (R493 to R496, R516, R517), the boot states' own events (R444 to R452), halts (R492), overruns (R527), the leak of
buckets (R481) and the retirement procedures (R484 to R488).
-/

namespace Sys2Proof.Machine

open Sys2Proof

/-! ### Global Persistent Flush, answered by the end of a drain (R499) -/

def State.gpfEnd (s : State) : State :=
  s.pss.foldl (fun (s : State) p =>
    let n : Stn := BitVec.ofNat 3 p.1
    p.2.gpf.foldl (fun s _ => s.emit (.gpfDone n)) (s.modPs n fun x => { x with gpf := [] })) s

/-! ### Cold reset (R516) -/

/-- Everything is cleared but the profile store; the model's own queue and record of outbound words stand. -/
def State.coldReset (s : State) : State :=
  { State.reset with pending := s.pending, out := s.out, cuts := s.cuts + 1, strapProf := s.strapProf, strapTwin := s.strapTwin,
                     mc := { Mc.reset with store := s.storeKept } }

def execColdRstAssert (s : State) : Res := .next { s.coldReset with coldLow := true }

/-- The straps are sampled (R443) and the tick counter starts at zero. -/
def execColdRstRelease (prof : BitVec 2) (twin : Bool) (s : State) : Res :=
  if !s.coldLow then stay s else .next { s.coldReset with coldLow := false, strapProf := prof, strapTwin := twin }

/-- The boot ROM has initialised itself (R444). -/
def execRomWaitEntry (s : State) : Res :=
  if s.mc.bstate != .cold || s.inReset || !s.running then stay s
  else .next { s with mc := { s.mc with bstate := .romWait } }

/-! ### Halts (R492) -/

/-- The posted lines of every slice. -/
def State.postedLines (s : State) : List (Hs × PlbLine) :=
  s.slices.flatMap fun p => (p.2.plb.filter fun l => l.posted).map fun l => ((BitVec.ofNat 5 p.1 : Hs), l)

/-- A record of a posted line at a halt (R492 steps 4 and 5). -/
def State.lineRec (s : State) (n : Hs) (l : PlbLine) (code : BitVec 8) : State :=
  s.logErr { ecls := 3, chk := 2, chn := n.setWidth 12, estop := hsStop n, ecode := code, elix := some l.lix, eci := some l.ci,
             erq := none, bkt := BitVec.ofNat 8 ((tGet s.buckets (chanKey { chk := 2, chn := n.setWidth 12 })).getD 0), etick := s.clk.tick }

/-- Step 4 of R492, at t+501: the rime of each line not written becomes POISON. -/
def State.haltPoison (s : State) : State :=
  match s.halt with
  | .draining t0 w d false =>
    let s := { s.goTo (t0 + 501) with halt := .draining t0 w d true }
    s.postedLines.foldl (fun s p => (s.addRime p.1 p.2.ci p.2.lix p.2.mpid .poison .plain).lineRec p.1 p.2 0x13) s
  | _ => s

def execHaltPostedLinePoison (s : State) : Res := .next s.haltPoison

/-- A poisoning of the line is outstanding. -/
def State.poisonDue (s : State) (n : Hs) (l : PlbLine) : Bool := (s.slice n).rimeQ.any fun r => r.lix == l.lix && r.val == .poison

/-- Record 0x14 for each line whose poisoning has not completed. -/
def State.lostRecs (s : State) : State :=
  s.postedLines.foldl (fun s p => if s.poisonDue p.1 p.2 then s.lineRec p.1 p.2 0x14 else s) s

/-- Steps 4 and 5 of R492, up to t+1,001. -/
def State.drainOut (s : State) (t0 : Tick) : State := (s.haltPoison.goTo (t0 + 1001)).lostRecs

/-- The block is halted at t+1,001 (R492 step 5). -/
def execBlockHalt (s : State) : Res :=
  match s.halt with
  | .draining t0 false d _ => .next ({ s.drainOut t0 with halt := .halted d } : State).gpfEnd
  | _ => stay s

/-- The watchdog has not been kicked in time (R452): fatal. -/
def execMcWatchdogExpiry (s : State) : Res :=
  match s.mc.wdog with
  | none => stay s
  | some d =>
    let s := s.goTo d
    if s.mc.wdog != some d || !s.running then .next s
    else .next ((({ s with mc := { s.mc with wdog := none } } : State).fatal (noChan 0x10) mcStop 0x10 true).closeCycle)

/-! ### Block warm reset (R493, R494, R517) -/

/-- Route tables avoid what stays out of service (R353, R484): a fenced router, which only a command returns to service, a retired
router or link, and a router whose channel is retired. -/
def State.keptBank (s : State) : Bank :=
  let b := s.mesh.bank s.mesh.rtep
  let of' (k : BitVec 4) : List (BitVec 12) := (s.ret.chans.filter fun c => c.chk == k).map fun c => c.chn
  let routers : List Stop := (of' 5).map fun c => c.setWidth 6
  { fenced := ((b.fenced ++ routers).filter fun x => !b.retired.contains x).eraseDups, retired := b.retired,
    links := ((of' 6).map fun c => ((BitVec.ofNat 6 (c.toNat / 4) : Stop), (BitVec.ofNat 3 (c.toNat % 4 + 1) : BitVec 3))) ++ b.links |>.eraseDups }

/-- What a block warm reset leaves: tick counter, retirement map, logs and profile store are kept (R493). -/
def State.warmClear (s : State) : State :=
  let s := s.gpfEnd
  { State.reset with
    pending := s.pending, out := s.out, cuts := s.cuts + 1, clk := s.clk, strapProf := s.strapProf, strapTwin := s.strapTwin, warmLow := true,
    mc := { Mc.reset with store := s.storeKept }, errLog := s.errLog, errLost := s.errLost, vlog := s.vlog, vlogLost := s.vlogLost,
    ret := { s.ret with running := [] }, mesh := { Mesh.reset with bank0 := s.keptBank, bank1 := s.keptBank },
    tw := { Tw.reset with lup := s.tw.lup, held := s.ret.chans.contains { chk := 10, chn := 0 } } }

/-- The warm reset takes effect; a release that came before it is taken here (R494). -/
def State.warmReset (s : State) : State :=
  match s.warmRel with
  | some (p, t) => { s.warmClear with warmLow := false, strapProf := p, strapTwin := t }
  | none => s.warmClear

/-- The drain is over: no line is on its way, and each posted line is written or poisoned (R494). -/
def State.drainDone (s : State) (poisoned : Bool) : Bool :=
  (s.mesh.pkts.all fun (p : Pkt) => p.bodies.all fun m => match m with | .grelw _ _ _ _ _ => false | _ => true) &&
    s.postedLines.all fun p => poisoned && !s.poisonDue p.1 p.2

/-- The sixteenth low sample (R517). -/
def execWarmRstLow (s : State) : Res :=
  if s.coldLow then stay s
  else if s.warmLow then .next { s with warmRel := none }
  else
    let s := { s with warmLow := true }
    match s.halt with
    | .halted _ => .next s.warmReset
    | .draining t0 _ d p => .next { s with halt := .draining t0 true d p }
    | .running => .next (({ s with halt := .draining s.clk.tick true false false } : State).later 1 .readyLow)

def execWarmResetEffect (s : State) : Res :=
  match s.halt with
  | .draining t0 true _ p => .next (if s.drainDone p then s.warmReset else (s.drainOut t0).warmReset)
  | _ => stay s

/-- The release: taken at once, or at the end of the drain (R494). -/
def execWarmRstRelease (prof : BitVec 2) (twin : Bool) (s : State) : Res :=
  if !s.warmLow || s.coldLow then stay s
  else if s.running then .next { s with warmLow := false, strapProf := prof, strapTwin := twin }
  else .next { s with warmRel := some (prof, twin) }

/-! ### Boot (R448 to R451) -/

/-- Verification ends (R448): the image starts, or the ROM waits again. Start-up follows (R449). -/
def execImgVerifyEnd (s : State) : Res :=
  match s.mc.longs.find? fun l => l.job == .imgEnd with
  | none => stay s
  | some l =>
    if s.mc.bstate != .verify || !s.running then stay s
    else if Config.imageAuthentic s.mc.img s.mc.imgLen then
      let s := s.finish l.cmd .done
      let b (off n : Nat) : Nat := memGetN s.mc.img off n
      let s := { s with mc := { s.mc with bstate := .starting, lstat := .done, clevMin := BitVec.ofNat 8 (b 6 1), clevMax := BitVec.ofNat 8 (b 7 1),
                                          iver := BitVec.ofNat 32 (b 8 4), wdog := some (s.timer 1250000) } }
      .next s.startUp
    else
      let s := s.finish l.cmd .authFail
      .next { s with mc := { s.mc with bstate := .romWait, lstat := .authFail, img := [], imgLen := 0 } }

/-- `AUTORDY` (R450). -/
def execAutordyEntry (s : State) : Res :=
  if s.mc.bstate == .starting && s.mc.autordy && s.mayReady && s.running then .next s.enterReady else stay s

/-- Phase 0 of the tick after READY has been entered (R451). -/
def execReadyAssert (s : State) : Res :=
  match s.sched.find? fun e => e.2 == .readyHigh with
  | some e => .next (s.goTo e.1)
  | none => stay s

/-! ### Overruns (R527, R542) -/

def State.psOvr (s : State) (n : Stn) (b : Nat) : State :=
  let r : W1c := .psOvr n.toNat
  let v := (s.hwSet r (((tGet s.regs.psOvr n.toNat).getD 0).setWidth 64) b 15).setWidth 16
  ({ s with regs := { s.regs with psOvr := tPut s.regs.psOvr n.toNat v } } : State).hwNote r b
def State.msOvr (s : State) (n : Stn) (b : Nat) : State :=
  let r : W1c := .msOvr n.toNat
  let v := (s.hwSet r (((tGet s.regs.msOvr n.toNat).getD 0).setWidth 64) b 15).setWidth 16
  ({ s with regs := { s.regs with msOvr := tPut s.regs.msOvr n.toNat v } } : State).hwNote r b

/-- A write to a full queue is lost and sets `OVERRUN`; on an inbound queue it is a transient fault of the queue's channel. -/
def execQueueOverrun (q : XQueue) (s : State) : Res :=
  if s.inReset then stay s
  else match q with
    | .psIn n j lp => .next ((s.psOvr n j.toNat).faultEv 2 { chk := 3, chn := (lportOf n lp).setWidth 12 } (psStop n) 0x18)
    | .psOut n j => .next (s.psOvr n (4 + j.toNat))
    | .psDin n lp => .next ((s.psOvr n 8).faultEv 2 { chk := 3, chn := (lportOf n lp).setWidth 12 } (psStop n) 0x18)
    | .psDout n => .next (s.psOvr n 9)
    | .msCmd n j => .next (s.msOvr n j.toNat)
    | .msCpl n j m => .next ((s.msOvr n (4 + j.toNat)).faultEv 2 { chk := 4, chn := m.setWidth 12 } (msStop n) 0x18)
    | .msDout n => .next (s.msOvr n 8)
    | .msDin n m => .next ((s.msOvr n 9).faultEv 2 { chk := 4, chn := m.setWidth 12 } (msStop n) 0x18)
    | .cmdRing => .next ((s.ringErrBit 1).faultEv 2 { chk := 9, chn := 0 } mcStop 0x18)
    | .replyRing => .next (s.ringErrBit 3)
    | .trace => .next (s.ringErrBit 5)
    | .twinIn => .next ((s.ringErrBit 6).faultEv 2 { chk := 10, chn := 0 } twStop 0x18)
    | .twinOut => .next (s.ringErrBit 7)

/-! ### Buckets (R481) -/

/-- Phase 0 of a multiple of L: every bucket above zero falls by 1, once; an event of that cycle may have brought the fall about. -/
def execBucketLeak (s : State) : Res :=
  let n := s.leakPeriod
  let s := if s.clk.phase = 0 && s.leak == some (s.clk.tick, true) then s.goTo (BitVec.ofNat 48 (s.clk.tick.toNat / n * n + n)) else s.toMultiple n
  .next (if s.leak == some (s.clk.tick, false) then { s with leak := some (s.clk.tick, true) } else s.leakNow true)

/-! ### Retirement (R484 to R488) -/

/-- A channel is made permanent by firmware: record, map, procedure waiting. -/
def State.retireChan (s : State) (c : Chan) (stop : Stop) (code : BitVec 8) : State :=
  if s.ret.chans.contains c then s
  else
    let s := s.logErr { ecls := 4, chk := c.chk, chn := c.chn, estop := stop, ecode := code, elix := none, eci := none, erq := none,
                        bkt := BitVec.ofNat 8 ((tGet s.buckets (chanKey c)).getD 0), etick := s.clk.tick }
    { s with ret := { s.ret with chans := s.ret.chans ++ [c], running := s.ret.running ++ [c] }, arbMode := s.arbMode.recover }

/-- The way of a slice that a procedure empties. -/
def State.walking (s : State) (n : Hs) : Option (BitVec 4) :=
  (s.ret.running.find? fun c => c.chk == 1 && c.chn.toNat / 16 == n.toNat).map fun c => c.chn.setWidth 4

/-- One set of the walk (R485): the way's entry departs; a pinned one is waited for. -/
def execWayRetirementWalk (hs : Hs) (s : State) : Res :=
  match s.walking hs with
  | none => stay s
  | some w =>
    let at' := match (s.slice hs).walk with
      | some (v, i) => if v = w then i else 0
      | none => 0
    if at' ≥ 16384 || !s.hsUp hs then stay s
    else
      let set : BitVec 14 := BitVec.ofNat 14 at'
      let next (s : State) : State := s.modSlice hs fun x => { x with walk := some (w, at' + 1) }
      let wait (s : State) : State := s.modSlice hs fun x => { x with walk := some (w, at') }
      match tGet (s.slice hs).sf (wayKey set w.toNat) with
      | none => .next (next s)
      | some e =>
        if (s.slice hs).pinned (e.lix set) then .next (wait s)
        else match s.evict hs (wayKey set w.toNat) e with
          | some s => .next (next s).pump
          | none => .next (wait s)

/-- The new map of R486: the active slices that stay are the lowest that are not retired, half of them; each takes the share of
the departing slice in the same place of the rest. -/
def State.retireMap (s : State) : Option (List Hs) :=
  let act := (List.range 32).filter fun n => s.smap.contains (BitVec.ofNat 5 n)
  let stay' := (act.filter fun n => !s.sliceRetired n).take (act.length / 2)
  let gone := act.filter fun n => !stay'.contains n
  if act.length ≤ 8 || stay'.length < act.length / 2 then none
  else some (s.smap.map fun h => if stay'.contains h.toNat then h else
    BitVec.ofNat 5 ((stay'[(gone.findIdx? fun n => n == h.toNat).getD 0]?).getD 0))

/-- A slice leaves service (R486): answers whether it has. -/
def State.retireSlice (s : State) (n : Hs) : State × Bool :=
  if s.smap.contains n then
    if s.fold.isSome then (s, false)
    else match s.retireMap with
      | none => (s.fatal { chk := 2, chn := n.setWidth 12 } (hsStop n) Config.retireCode, false)
      | some m => (({ s with fold := some { oldMap := s.smap, newMap := m, mp := 0, started := false, flipped := false, cmd := none } } : State).startFold, false)
  else if s.fold.isSome then (s, false)
  else
    let ds := domPair (hsDom n)
    if s.allIn ds .off then ({ s with ret := { s.ret with doms := (s.ret.doms ++ ds).eraseDups } }, true)
    else if s.allIn ds .on then (s.startFreeze ds false false, false)
    else (s, false)

/-- The paths that a memory station serves are out of use, or the retirement is fatal (R488). -/
def State.retireMem (s : State) (ms : List Nat) : State × Bool :=
  match ms.find? fun m => match tGet s.ports m with | some p => s.portHeld m p | none => false with
  | some m => (s.fatal { chk := 4, chn := BitVec.ofNat 12 m } (msStop (BitVec.ofNat 3 m)) Config.retireCode, false)
  | none => (s, true)

/-- Every agent of the paths loses its session; the credits stay withheld. -/
def State.retirePaths (s : State) (ls : List (BitVec 10)) : State :=
  ls.foldl (fun s l => (s.linkReset (l.extractLsb' 7 3) (l.setWidth 7)).modLport l fun x => { x with held := true }) s

/-- The unit at a stop is out of use before its router is fenced (R487). -/
def State.unitOut (s : State) (st : Stop) : State × Bool :=
  let n := st.toNat
  if n < 8 then
    let ps : Stn := st.setWidth 3
    let open' := ((List.range 128).map fun l => lportOf ps (BitVec.ofNat 7 l)).filter fun l =>
      !s.ret.chans.contains { chk := 3, chn := l.setWidth 12 }
    let cs : List Chan := open'.map fun l => { chk := 3, chn := l.setWidth 12 }
    let s := { s with ret := { s.ret with chans := s.ret.chans ++ cs } }
    let s := s.retirePaths open'
    (s, (s.ps ps).msgs.isEmpty)
  else if n < 40 then s.retireSlice (BitVec.ofNat 5 (n - 8))
  else if n < 48 then
    let (s, ok) := s.retireMem ((s.ports.filter fun p => p.2.pv && p.1 % 8 == n - 40).map fun p => p.1)
    if ok then
      let cs : List Chan := (((List.range 32).map fun i => ({ chk := 4, chn := BitVec.ofNat 12 (8 * i + (n - 40)) } : Chan))).filter
        fun c => !s.ret.chans.contains c
      ({ s with ret := { s.ret with chans := s.ret.chans ++ cs } }, true)
    else (s, false)
  else if n = 48 || n = 49 then
    let d := teDom (n == 49)
    if s.allIn [d] .off then (s, true)
    else if s.allIn [d] .on then (s.startFreeze [d] false false, false) else (s, false)
  else
    match stopDom st with
    | some d => (if s.allIn [d] .on then s.startFreeze [d] false false else s, true)
    | none => (s, true)

/-- The twin link is lost (R405, R411, R523). -/
def State.twinLost (s : State) : State :=
  if !s.tw.lup then s
  else
    let s := { s with tw := { s.tw with linkUp := false, incompat := false },
                      insts := s.insts.map fun (p : Nat × Inst) => if p.2.role == TRole.mirror && !p.2.strict then (p.1, ({ p.2 with exact := false } : Inst)) else p }
    s.twinCause 1

/-- A step of the procedure of a channel, and whether the procedure has ended (R484). -/
def State.retireStep (s : State) (c : Chan) : State × Bool :=
  let n := c.chn.toNat
  if c.chk = 1 then
    let h : Hs := BitVec.ofNat 5 (n / 16)
    let over' := (s.slice h).walk == some (c.chn.setWidth 4, 16384) || s.allIn (domPair (hsDom h)) .off
    if !over' then (s, false)
    else
      let s := s.modSlice h fun x => { x with walk := none }
      (if s.waysLeft h < 12 then s.retireChan { chk := 2, chn := h.setWidth 12 } (hsStop h) Config.retireCode else s, true)
  else if c.chk = 2 then s.retireSlice (BitVec.ofNat 5 n)
  else if c.chk = 3 then (s.retirePaths [c.chn.setWidth 10], true)
  else if c.chk = 4 then s.retireMem [n]
  else if c.chk = 5 then
    let st : Stop := c.chn.setWidth 6
    if st = mcStop then (s.fatal c st 0x12, false)
    else if (s.mesh.bank s.mesh.rtep).fenced.contains st && s.mesh.swap.isNone then (s, true)
    else if s.mesh.swap.isSome then (s, false)
    else
      let (s, ok) := s.unitOut st
      (if ok && s.running then s.fence 0 st 0 none else s, false)
  else if c.chk = 6 then
    let st : Stop := BitVec.ofNat 6 (n / 4)
    let p : BitVec 3 := BitVec.ofNat 3 (n % 4 + 1)
    if (s.mesh.bank s.mesh.rtep).links.contains (st, p) && s.mesh.swap.isNone then (s, true)
    else if s.mesh.swap.isSome then (s, false)
    else (s.fence 3 st p none, false)
  else if c.chk = 7 then
    let rq : Rqid := c.chn
    let s := match s.agent rq with
      | some a => (s.setAgent rq { a with en := false, enPs := false, retired := true }).loseSession rq true
      | none => s
    (s, true)
  else if c.chk = 8 then
    let d : BitVec 7 := c.chn.setWidth 7
    let s := { s with ret := { s.ret with doms := (s.ret.doms ++ domPair d).eraseDups } }
    if d.toNat < 64 then s.retireSlice (domHs d) else (s, true)
  else if c.chk = 10 then
    (({ s with tw := { s.tw with held := true } } : State).twinLost, true)
  else (s, true)

/-- One procedure is carried on; at its end the record 0x15 is made. -/
def State.retireOne (s : State) (c : Chan) : State :=
  let (s, over') := s.retireStep c
  if !over' then s
  else
    let s := s.logErr { ecls := 4, chk := c.chk, chn := c.chn, estop := mcStop, ecode := 0x15, elix := none, eci := none, erq := none,
                        bkt := BitVec.ofNat 8 ((tGet s.buckets (chanKey c)).getD 0), etick := s.clk.tick }
    { s with ret := { s.ret with running := s.ret.running.erase c } }

/-- The mark that a command's retirement leaves in the map (R353). -/
def State.markRetired (s : State) (act : Nat) (st : Stop) (port : BitVec 3) : State :=
  let c : Option Chan := if act = 2 then some { chk := 5, chn := st.setWidth 12 }
    else if act = 3 then some { chk := 6, chn := BitVec.ofNat 12 (4 * st.toNat + port.toNat - 1) } else none
  match c with
  | some c => if s.ret.chans.contains c then s else { s with ret := { s.ret with chans := s.ret.chans ++ [c] } }
  | none => s

/-- A fence or retirement whose unit is out of use begins its swap (R357, R487). -/
def State.fenceGo (s : State) (w : BitVec 512) (act : Nat) (st : Stop) (port : BitVec 3) : State :=
  ((s.setJob w .wait).markRetired act st port).fence (BitVec.ofNat 8 act) st port (some w)

/-- A step toward the fence or retirement of a router: its unit is taken out of use first; a fatal fault ends the command (R465, R487). -/
def State.fenceStep (s : State) (w : BitVec 512) (act : Nat) (st : Stop) (port : BitVec 3) : State :=
  if s.mesh.swap.isSome then s
  else
    let r := s.unitOut st
    if s.running && !r.1.running then r.1.finish w .engineFault
    else if r.2 then r.1.fenceGo w act st port else r.1

/-- The `MESH_FENCE` commands that wait for their unit. -/
def State.fenceWaits (s : State) : List LongCmd := s.mc.longs.filter fun l => match l.job with | .fence _ _ _ => true | _ => false

/-- The firmware carries on the procedures and the fences under way; after the last procedure the mode returns to SERVICE. -/
def execRetirementProcedureEnd (s : State) : Res :=
  if (s.ret.running.isEmpty && s.fenceWaits.isEmpty) || !s.running || (s.mc.bstate != .starting && s.mc.bstate != .ready) then stay s
  else
    let procs := !s.ret.running.isEmpty
    let s := s.ret.running.foldl State.retireOne s
    let s := s.fenceWaits.foldl (fun s l => match l.job with
      | .fence act st port => s.fenceStep l.cmd act.toNat st port
      | _ => s) s
    .next ((if procs && s.ret.running.isEmpty && s.arbMode != .start then { s with arbMode := .service } else s).pump)

end Sys2Proof.Machine
end

