-- ==== Sys2Proof/Machine/Mc.lean ====
section
/-!
DEFINITION. The management controller as it reads a command (R442 to R466): the opcode tables, subjects and deferral, the checks of
R462, and the ring indices. The body of each command stands in the files that follow.
-/

namespace Sys2Proof.Machine

open Sys2Proof

/-! ### The opcode tables -/

/-- A row of the tables: whether it names an instance, the flags it defines, its parameters in order as (bits used, bits in all). -/
structure OpRow where
  opc : Nat
  ci : Bool
  flags : BitVec 8
  par : List (Nat × Nat)
  deriving DecidableEq, Repr

def b8 : Nat × Nat := (8, 8)
def b16 : Nat × Nat := (16, 16)
def b32 : Nat × Nat := (32, 32)
def rqF : Nat × Nat := (12, 16)
def res (bytes : Nat) : Nat × Nat := (0, 8 * bytes)

def opRows0 : List OpRow :=
  [⟨0x001, false, 0, []⟩, ⟨0x002, false, 0, []⟩, ⟨0x003, false, 0, [b32, res 12, (256, 256)]⟩, ⟨0x004, false, 0, []⟩,
   ⟨0x005, false, 0, []⟩, ⟨0x006, false, 0, [b16, (12, 16)]⟩]
def opRows1 : List OpRow :=
  [⟨0x101, true, 0x20, [b8, b8, b8, b8, b32, b8, b8, b16, b8, b8, b16, b16, b16, b16, b16]⟩, ⟨0x102, true, 0, []⟩, ⟨0x103, true, 0x01, []⟩,
   ⟨0x104, true, 0x03, []⟩, ⟨0x105, true, 0x07, []⟩, ⟨0x106, true, 0x20, [b8, b8, b16, b16, b8]⟩, ⟨0x107, true, 0, []⟩,
   ⟨0x108, true, 0, [rqF, (20, 32), (1, 8), (4, 8)]⟩, ⟨0x109, true, 0, [rqF, (20, 32), (1, 8)]⟩, ⟨0x10A, true, 0, [b16]⟩]
def opRows2 : List OpRow :=
  [⟨0x201, true, 0, [b8, res 7, (87, 88), (29, 40)]⟩, ⟨0x202, true, 0x02, [b8]⟩, ⟨0x203, true, 0x02, [b8, res 1, rqF, (1, 8)]⟩,
   ⟨0x204, true, 0, [b8]⟩, ⟨0x210, false, 0, [b8, res 7, (114, 128)]⟩, ⟨0x211, false, 0, [b8]⟩]
def opRows3 : List OpRow :=
  [⟨0x301, false, 0x10, [rqF, (2, 8), res 1, (10, 16), (10, 16)]⟩, ⟨0x302, false, 0, [rqF]⟩, ⟨0x303, true, 0, [rqF, (4, 8)]⟩,
   ⟨0x304, true, 0, [rqF]⟩, ⟨0x305, false, 0, [rqF]⟩, ⟨0x306, false, 0, [rqF]⟩, ⟨0x307, false, 0, [rqF]⟩, ⟨0x308, false, 0, [rqF]⟩,
   ⟨0x309, false, 0, [b32]⟩, ⟨0x30A, false, 0, [b16, res 2, b32, b8]⟩, ⟨0x30B, false, 0, [(10, 16)]⟩, ⟨0x30C, false, 0, [(10, 16)]⟩]
def opRows4 : List OpRow :=
  [⟨0x401, false, 0x08, [b8]⟩, ⟨0x402, false, 0, [b8]⟩, ⟨0x403, false, 0, []⟩, ⟨0x404, false, 0, []⟩, ⟨0x405, false, 0, []⟩,
   ⟨0x406, false, 0, List.replicate 32 b8⟩, ⟨0x407, false, 0, [b16, res 2, b32]⟩, ⟨0x408, false, 0, [b8, b8, b8]⟩, ⟨0x409, false, 0, [b32]⟩]
def opRows5 : List OpRow :=
  [⟨0x501, true, 0, [b16, b16, b16]⟩, ⟨0x502, false, 0, [b16]⟩, ⟨0x503, false, 0, [b8, res 3, b32]⟩, ⟨0x504, false, 0, [b8]⟩,
   ⟨0x505, false, 0, [b8]⟩, ⟨0x506, false, 0, [b8, res 1, b16]⟩, ⟨0x507, false, 0, [b8]⟩, ⟨0x508, false, 0, [b8]⟩, ⟨0x509, false, 0, [b8]⟩,
   ⟨0x50A, true, 0, [b32]⟩, ⟨0x50B, true, 0, []⟩, ⟨0x50C, false, 0, [b8, b8, b16]⟩, ⟨0x50D, false, 0, []⟩]
def opRows6 : List OpRow :=
  [⟨0x601, true, 0, [b8]⟩, ⟨0x602, true, 0, []⟩, ⟨0x603, true, 0, []⟩, ⟨0x604, true, 0x08, []⟩, ⟨0x605, true, 0, []⟩,
   ⟨0x606, false, 0, []⟩, ⟨0x607, false, 0, [b16, res 2, b32]⟩, ⟨0x608, false, 0, []⟩]
def opRows7 : List OpRow :=
  [⟨0x701, false, 0, [b8]⟩, ⟨0x702, false, 0, [b16, res 14, (256, 256)]⟩, ⟨0x703, false, 0, []⟩, ⟨0x704, false, 0, [b8]⟩,
   ⟨0x705, false, 0, [b8, res 1, b16]⟩]
def opRows8 : List OpRow :=
  [⟨0x801, false, 0, [b8, (5, 8), b8, b8, b8, res 1, b8, res 1, (56, 64), (46, 64), (46, 64), b32, (46, 64)]⟩, ⟨0x802, false, 0, []⟩,
   ⟨0x803, false, 0, [b16, b16]⟩, ⟨0x804, true, 0, b8 :: res 1 :: List.replicate 32 b8⟩, ⟨0x901, false, 0, []⟩, ⟨0x902, false, 0, []⟩,
   ⟨0x903, false, 0, [b16, res 2, b32]⟩]

/-- The rows of a group. -/
def groupRows (g : Nat) : List OpRow :=
  match g with
  | 0 => opRows0
  | 1 => opRows1
  | 2 => opRows2
  | 3 => opRows3
  | 4 => opRows4
  | 5 => opRows5
  | 6 => opRows6
  | 7 => opRows7
  | 8 => opRows8
  | 9 => opRows8
  | _ => []

def opRow (opc : Nat) : Option OpRow := (groupRows (opc / 256)).find? fun r => r.opc == opc

/-- The commands that only read state (R457). -/
def readOnly : List Nat := [0x001, 0x006, 0x107, 0x204, 0x211, 0x308, 0x30B, 0x403, 0x509, 0x608, 0x705, 0x901, 0x902]

/-! ### Fields of a command packet (R459) -/

def cFmt (w : BitVec 512) : BitVec 4 := w.extractLsb' 0 4
def cFlags (w : BitVec 512) : BitVec 8 := w.extractLsb' 40 8
def cPlen (w : BitVec 512) : Nat := (w.extractLsb' 48 6).toNat
def cOp (w : BitVec 512) : Nat := (cOpc w).toNat
/-- The requester that an agent command names in its first parameter. -/
def cRq (w : BitVec 512) : Rqid := w.extractLsb' 128 12

/-- The parameters lie as the row lists them, with every reserved bit zero (R461). -/
def parOk (w : BitVec 512) : List (Nat × Nat) → Nat → Bool
  | [], bit => cPlen w * 8 == bit - 128 && w.toNat / 2 ^ bit == 0
  | (used, all) :: r, bit => w.toNat / 2 ^ (bit + used) % 2 ^ (all - used) == 0 && parOk w r (bit + all)

/-- The reserved bits of the header are zero (R459). -/
def headOk' (w : BitVec 512) : Bool :=
  w.extractLsb' 54 10 == 0 && w.extractLsb' 96 32 == 0 && (cFmt w == 2 || w.extractLsb' 64 32 == 0)

/-- Packs fields of so many bytes, in order (R461). -/
def pack : List (Nat × Nat) → Nat
  | [] => 0
  | (n, v) :: r => v % 2 ^ (8 * n) + 2 ^ (8 * n) * pack r

/-! ### Subjects (R457) -/

/-- The subject of a command: an instance, a requester (0x1000 up), a domain (0x2000 up; a slice's pair is one), a group. -/
def subjectOf (w : BitVec 512) : Nat :=
  let o := cOp w
  match opRow o with
  | none => 0x3000 + o / 256
  | some r =>
    if r.ci && decide ((cCi8 w).toNat < 64) then (cCi w).toNat
    else if o = 0x301 || o = 0x302 || (0x305 ≤ o && o ≤ 0x308) then 0x1000 + (cRq w).toNat
    else if o = 0x401 || o = 0x402 then 0x2000 + (if cPar w 0 1 < 64 then cPar w 0 1 % 32 else cPar w 0 1)
    else 0x3000 + o / 256

/-- A command of the subject is without its final reply. -/
def State.subjectHeld (s : State) (k : Nat) : Bool := s.mc.longs.any fun l => subjectOf l.cmd == k

/-- A deferred command of the subject stands before slot index `idx`. -/
def State.subjectQueued (s : State) (k : Nat) (idx : Nat) : Bool :=
  (s.mc.crDefer.takeWhile (· != idx)).any fun i => match tGet s.mc.crSlots i with
    | some w => subjectOf w == k
    | none => false

/-! ### Long commands (R457) -/

/-- The entry of a region table that a command names. -/
def State.regionAt (s : State) (w : BitVec 512) : Option Region := tGet (s.inst (cCi w)).regions (cPar w 0 1)

/-- The only membership of the agent in the instance is the entry given. -/
def State.lastMember (s : State) (rq : Rqid) (c : Ci) (e : IrtEnt) : Bool :=
  s.irt.contains e && (s.irt.filter fun x => x.rqid == rq && x.ci == c).length == 1

def cEntry (w : BitVec 512) : Region := Region.decode (w.extractLsb' 192 128)
def cPdesc (w : BitVec 512) : PortDesc := PortDesc.decode (w.extractLsb' 192 128)

/-- The IRT entry that `IRT_ADD` or `IRT_REMOVE` names. -/
def cIrt (w : BitVec 512) : IrtEnt :=
  { rqid := cRq w, pasid := w.extractLsb' 144 20, pv := w.getLsbD 176, ci := cCi w, agrp := w.extractLsb' 184 4 }

/-- The IRT holds the entry, whatever its access group. -/
def State.irtFind (s : State) (e : IrtEnt) : Option IrtEnt :=
  s.irt.find? fun x => x.rqid == e.rqid && x.pv == e.pv && x.pasid == e.pasid

def State.isBi (s : State) (rq : Rqid) : Bool := (s.agent rq).any fun a => a.cls == .bi

/-- A region change that removes part of a COH region (R274). -/
def Region.cuts (old new : Region) : Bool := old.kind == .coh && (decide (old.base.toNat < new.base.toNat) || decide (new.limit.toNat < old.limit.toNat))

/-- Whether a command is long, as the opcode tables give (R457). -/
def State.isLong (s : State) (w : BitVec 512) : Bool :=
  let o := cOp w
  if o = 0x202 then cFlag w 1 || (s.regionAt w).any fun r => r.kind == .coh
  else if o = 0x203 then cFlag w 1
  else if o = 0x201 then (s.regionAt w).any fun r => r.cuts (cEntry w)
  else if o = 0x210 then
    let q := cPdesc w
    q.pv && q.table && !((s.port (BitVec.ofNat 8 (cPar w 0 1))).any fun p => p.table)
  else if o = 0x304 then s.isBi (cRq w) && (s.agent (cRq w)).any fun a => a.bind.any fun b => b.1 == cCi w
  else if o = 0x109 then s.isBi (cRq w) && (s.irtFind (cIrt w)).any fun e => e.ci == cCi w && s.lastMember (cRq w) (cCi w) e
  else [0x004, 0x101, 0x103, 0x104, 0x105, 0x305, 0x401, 0x402, 0x404, 0x405, 0x406, 0x408, 0x507, 0x50A, 0x50B, 0x50D,
    0x601, 0x603, 0x604, 0x605, 0x704, 0x802].contains o

/-- R457: the command in slot index `idx` has to wait. -/
def State.mustDefer (s : State) (idx : Nat) (w : BitVec 512) : Bool :=
  !readOnly.contains (cOp w) && (s.subjectHeld (subjectOf w) || s.subjectQueued (subjectOf w) idx ||
    (decide ((s.mc.longs.filter fun l => l.long).length ≥ 64) && s.isLong w))

/-! ### The checks of R462 -/

/-- Step 4: the opcode is served in the present state (R442, R445, R449, R450, R385, R495). -/
def State.served (s : State) (o : Nat) : Bool :=
  (match s.mc.bstate with
    | .cold => false
    | .romWait => o == 1 || o == 2
    | .loading => decide (1 ≤ o) && decide (o ≤ 4)
    | .verify => o == 1
    | .starting => o == 1 || o == 5 || o == 6 ||
        (decide (0x100 ≤ o) && o / 256 != 6 && !([0x102, 0x406, 0x504, 0x505].contains o))
    | .ready => !([2, 3, 4, 5].contains o)) &&
  (o / 256 != 6 || s.strapTwin) &&
  (match s.halt with
    | .halted _ => [0x001, 0x901, 0x902, 0x403, 0x802].contains o
    | _ => true)

/-- Step 5: the tag of a long command of the group. -/
def State.tagTaken (s : State) (w : BitVec 512) : Bool :=
  s.mc.longs.any fun l => l.long && cTag l.cmd == cTag w && cOp l.cmd / 256 == cOp w / 256

/-- Step 6, apart from the ranges of values, which each body checks first. -/
def formOk (w : BitVec 512) (r : OpRow) : Bool :=
  let ci := (cCi8 w).toNat
  (if r.ci then decide (ci < 64) else ci == 0xFF || (r.opc == 0x608 && decide (ci < 64))) &&
    (cFlags w &&& ~~~r.flags) == 0 && headOk' w && parOk w r.par 128

/-- Steps 4 to 6: the status of the first check that fails. -/
def State.check (s : State) (w : BitVec 512) (r : OpRow) : Option Status :=
  if !s.served r.opc then some .badState
  else if s.tagTaken w then some .duplicate
  else if !formOk w r then some .malformed
  else none

/-! ### Serving -/

/-- What a command does once steps 1 to 6 have passed: a refusal, which changes nothing, or the new state with its reply. -/
abbrev Body := State → Except Status State

def State.refuseCmd (s : State) (w : BitVec 512) (st : Status) : State := (s.bump 0xE61).reply w st

/-- Steps 4 to 7, and the counters of the MC (R440). -/
def State.execCmd (s : State) (w : BitVec 512) (r : OpRow) (b : Body) : State :=
  match s.check w r with
  | some st => s.refuseCmd w st
  | none => match b s with
    | .error st => s.refuseCmd w st
    | .ok s => s.bump 0xE60

/-- The slot has been executed (R455). -/
def State.slotDone (s : State) (idx : Nat) : State :=
  { s with mc := { s.mc with crDone := s.mc.crDone ++ [idx], crDefer := s.mc.crDefer.filter (· != idx) } }

/-- A command read from slot index `idx` (R457, R462). -/
def State.serve (s : State) (idx : Nat) (w : BitVec 512) (b : Body) : State :=
  if cFmt w != 1 && cFmt w != 2 then (s.refuseCmd w .badFormat).slotDone idx
  else if cFmt w == 2 && w.extractLsb' 64 32 != crcPar w then (s.refuseCmd w .crcErr).slotDone idx
  else match opRow (cOp w) with
    | none => (s.refuseCmd w .unknownOp).slotDone idx
    | some r =>
      if s.served r.opc && s.mustDefer idx w then
        if s.mc.crDefer.contains idx then s else { s with mc := { s.mc with crDefer := s.mc.crDefer ++ [idx] } }
      else (s.execCmd w r b).slotDone idx

/-- MARK at the oldest deferred command, RELEASE of every slot below it (R457). -/
def State.ringSettle (s : State) : State :=
  let m := s.mc
  let mark : BitVec 9 := match m.crDefer with | [] => m.crRd | i :: _ => BitVec.ofNat 9 i
  let freed (k : Nat) : Bool := decide ((BitVec.ofNat 9 k - m.crRel).toNat < (mark - m.crRel).toNat)
  { s with mc := { m with crMark := mark, crRel := mark, crSlots := m.crSlots.filter fun p => !freed p.1,
                          crDone := m.crDone.filter fun k => !freed k } }

/-- The MC runs: not in reset, nor stopped by its own watchdog (R442, R495). -/
def State.mcUp (s : State) : Bool :=
  s.mc.bstate != .cold && !s.inReset && (match s.halt with | .draining _ _ d _ => !d | .halted d => !d | .running => true)

/-- The MC may read a slot: room for every promised reply and two more (R456). -/
def State.mayRead (s : State) : Bool := s.mcUp && decide (s.mc.replies.length + s.mc.longs.length + 2 ≤ 256)

/-- Reads the next slot, where `w` stands; a command that the switch has not written yet is written first (R453). -/
def State.readSlot (s : State) (w : BitVec 512) : Option (Nat × State) :=
  let m := s.mc
  if !s.mayRead || decide (m.crDefer.length ≥ 32) then none
  else if m.crRd = m.crProd then
    if (m.crProd - m.crRel).toNat ≥ 256 then none
    else some (m.crRd.toNat, { s with mc := { m with crSlots := tPut m.crSlots m.crProd.toNat w, crProd := m.crProd + 1, crRd := m.crRd + 1 } })
  else if tGet m.crSlots m.crRd.toNat = some w then some (m.crRd.toNat, { s with mc := { m with crRd := m.crRd + 1 } })
  else none

/-- The command of a row: the MC reads `w`, whose opcode is the row's, and serves or defers it. -/
def mcRow (opc : Nat) (w : BitVec 512) (b : Body) (s : State) : Res :=
  if cOp w != opc then stay s
  else match s.readSlot w with
    | none => stay s
    | some (idx, s) => .next ((s.serve idx w b).ringSettle)

/-! ### Replies of bodies -/

/-- `DONE`, with the result's fields as (bytes, value). -/
def State.done (s : State) (w : BitVec 512) (l : List (Nat × Nat) := []) : Except Status State :=
  .ok (s.reply w .done ((l.map fun p => p.1).sum) (pack l))

/-- A long command begins: `IN_PROGRESS` (R463). -/
def State.startLong (s : State) (w : BitVec 512) (j : Job) (steps : Nat) : State :=
  ({ s with mc := { s.mc with longs := s.mc.longs ++ [{ cmd := w, job := j, steps := steps, done := 0, long := true }] } } : State).reply
    w .inProgress 0 0 steps

/-- A short command whose reply waits. -/
def State.hold (s : State) (w : BitVec 512) (j : Job) : State :=
  { s with mc := { s.mc with longs := s.mc.longs ++ [{ cmd := w, job := j, steps := 0, done := 0, long := false }] } }

end Sys2Proof.Machine
end

