-- ==== Sys2Proof/Machine/McInst.lean ====
section
/-!
DEFINITION. The bodies of groups 0x0 (boot and image), 0x1 (instances) and 0x2 (regions and memory ports), and the start of a rule
change (R272). A body's first checks are the ranges of step 6 of R462.
-/

namespace Sys2Proof.Machine

open Sys2Proof

/-! ### Group 0x0 -/

def bootStatus (w : BitVec 512) : Body := fun s =>
  s.done w [(1, s.mc.bstate.code), (1, s.mc.lstat.code.toNat), (1, s.strapProf.toNat), (1, s.mc.papp.toNat), (1, s.mc.pflt.toNat),
    (1, s.mc.clevMin.toNat), (1, s.mc.clevMax.toNat), (1, 0), (4, s.mc.iver.toNat)]

/-- R446. -/
def imgBegin (w : BitVec 512) : Body := fun s =>
  ({ s with mc := { s.mc with bstate := .loading, img := [], imgLen := 0 } } : State).done w

/-- `n` bytes of the image from `a` on are zero. -/
def imgZero (m : List Host.Cell) (a n : Nat) : Bool := m.all fun c => !(decide (a ≤ c.1) && decide (c.1 < a + n)) || c.2 == 0

/-- The checks of R447 on the first 512 bytes. -/
def imgHeadOk (m : List Host.Cell) : Bool :=
  let b (off n : Nat) : Nat := memGetN m off n
  b 0 4 == 0x4645484F && b 4 2 == 1 && decide (1 ≤ b 6 1) && (b 7 1 == b 6 1 || b 7 1 == b 6 1 + 1) && b 0xC 4 % 32 == 0 &&
    between 0x240 (b 0xC 4) 0x100000 && decide (0x200 ≤ b 0x10 4) && decide (b 0x10 4 < b 0xC 4) && imgZero m 0x14 44 &&
    b 0x40 1 == 4 && imgZero m 0xA1 31 && imgZero m 0x120 224

def imgData (w : BitVec 512) : Body := fun s =>
  let ofs := cPar w 0 4
  if ofs != s.mc.imgLen || (decide (512 ≤ s.mc.imgLen) && decide (memGetN s.mc.img 0xC 4 < ofs + 32)) then .error .malformed
  else
    let img := memSetN s.mc.img ofs 32 (cPar w 16 32)
    if ofs + 32 = 512 && !imgHeadOk img then
      .ok (({ s with mc := { s.mc with bstate := .romWait, lstat := .badFormat, img := [], imgLen := 0 } } : State).reply w .badFormat)
    else ({ s with mc := { s.mc with img := img, imgLen := ofs + 32 } } : State).done w [(4, ofs + 32)]

/-- R447, R448. -/
def imgEnd (w : BitVec 512) : Body := fun s =>
  if decide (s.mc.imgLen < 512) || decide (s.mc.imgLen < memGetN s.mc.img 0xC 4) then .error .malformed
  else .ok (({ s with mc := { s.mc with bstate := .verify } } : State).startLong w .imgEnd 0)

/-- R450: at once, or when the thaws of start-up have ended. -/
def bootStart (w : BitVec 512) : Body := fun s =>
  if s.mc.seq.isSome then .ok (s.hold w .bootStart)
  else if s.mayReady then .ok ((s.reply w .done).enterReady) else .error .badState

/-- Steps of a long command that are done: those of operations that have ended, and of those under way. -/
def State.stepsDone (s : State) (l : LongCmd) : Nat := l.done + ((s.be.ops.filter fun o => o.cmd == l.cmd).map fun o => o.done).sum

def cmdProgress (w : BitVec 512) : Body := fun s =>
  match s.mc.longs.find? fun l => l.long && (cTag l.cmd).toNat == cPar w 0 2 && cOp l.cmd == cPar w 2 2 with
  | none => .error .notFound
  | some l => s.done w [(4, l.steps), (4, s.stepsDone l)]

/-! ### Group 0x1: instances -/

/-- Steps of an operation as R309 states them (at least, where it says so). -/
def State.stepsOf (s : State) (k : BKind) (c : Ci) : Nat :=
  let o := BulkOp.mk' 0 0 k c 0 0
  match k with
  | .zfillCoh _ _ _ | .firnRebuild | .walk => (s.opExtent o + 63) / 64
  | _ => s.opExtent o

/-- Quotas in their ranges (R94, R254; R462 step 6). -/
def quotaOk (sfq plbq tmin tmax : Nat) : Bool :=
  between 1 sfq 16 && between 2 plbq 64 && decide (tmin ≤ 256) && between 16 tmax 768 && decide (tmin ≤ tmax)

/-- The floor of an instance: the one accepted for the next tick where an `INST_QUOTA` waits. -/
def State.floorOf (s : State) (c : Ci) : Nat :=
  s.sched.foldl (fun n e => match e.2 with | .quota d _ _ m _ _ _ _ => if d == c then m else n | _ => n) (s.inst c).trkMin

/-- The floors of the other instances that have drawn their resources (R255). -/
def State.floors (s : State) (c : Ci) : Nat :=
  ((s.insts.filter fun p => p.2.nreg != 0 && p.1 != c.toNat).map fun p => s.floorOf (BitVec.ofNat 6 p.1)).sum

/-- The `n` lowest numbers below `top` that no instance holds. -/
def lowestFree (used : List Nat) (top n : Nat) : List Nat := ((List.range top).filter fun k => !used.contains k).take n

/-- Firn bytes of an instance in units of 256 B (R65). -/
def Inst.firnSets (i : Inst) : Nat := if i.firnLog2 = 0 then 0 else 2 ^ i.firnLog2

/-- Parameters of `INST_CREATE` in their ranges. -/
def createOk (w : BitVec 512) : Bool :=
  decide (cPar w 0 1 ≤ 1) && between 1 (cPar w 1 1) 64 && decide (cPar w 2 1 ≤ 4) &&
    (cPar w 3 1 == 0 || between 12 (cPar w 3 1) 26) && (cPar w 10 2 == 0 || between 16 (cPar w 10 2) 4095) &&
    quotaOk (cPar w 12 1) (cPar w 13 1) (cPar w 14 2) (cPar w 16 2)

/-- The instance that `INST_CREATE` makes of its parameters (R92, R281, R535). -/
def createInst (w : BitVec 512) (rents csets : List Nat) : Inst :=
  { Inst.reset with
    mode := cPar w 0 1 == 1, nreg := cPar w 1 1, rents := rents, csets := csets, firnLog2 := cPar w 3 1,
    firnBase := BitVec.ofNat 32 (cPar w 4 4), firnMpid := BitVec.ofNat 8 (cPar w 8 1), holdWin := cPar w 9 1, holdAuto := cFlag w 5,
    rotWrites := cPar w 10 2, rotGap := if cPar w 3 1 = 0 then 0 else 2 ^ cPar w 3 1, sfq := cPar w 12 1, plbQ := cPar w 13 1,
    trkMin := cPar w 14 2, trkMax := cPar w 16 2, tkt0 := cPar w 18 2, tkt1 := cPar w 20 2, tktB := cPar w 22 2 }

def instCreate (w : BitVec 512) : Body := fun s =>
  let c := cCi w
  let rents := lowestFree ((s.insts.filter fun p => p.2.nreg != 0).flatMap fun p => p.2.rents) 2048 (cPar w 1 1)
  let csets := lowestFree ((s.insts.filter fun p => p.2.nreg != 0).flatMap fun p => p.2.csets) 64 (cPar w 2 1)
  let i := createInst w rents csets
  let area := i.firnSpan
  let onPort := match s.port i.firnMpid with
    | some p => Span.inside area p.span
    | none => false
  if !createOk w then .error .malformed
  else if (s.inst c).st != .free || (s.inst c).nreg != 0 then .error .badState
  else if decide (s.floors c + i.trkMin > 768) || decide (rents.length < cPar w 1 1) || decide (csets.length < cPar w 2 1) then
    .error .noResource
  else if i.firnLog2 != 0 && (decide (((s.insts.filter fun p => p.2.nreg != 0).map fun p => p.2.firnSets).sum + i.firnSets > 2 ^ 28) ||
      (s.firnSpans ++ s.rtSpans ++ s.allRegions.map fun r => r.2.2.span).any fun r => Span.meets area r) then .error .overlap
  else if i.firnLog2 != 0 && !onPort then .error .badState
  else
    let s := (s.setInst c i).later 1 (.inst c .idle)
    let s := s.startLong w .create (s.stepsOf .zfillFirn c)
    .ok (s.queueBulk false .zfillFirn c w)

def instEnable (w : BitVec 512) : Body := fun s =>
  let i := s.inst (cCi w)
  if (i.st != .idle && i.st != .quiesced) || i.role == TRole.mirror then .error .badState
  else .ok ((s.hold w .wait).later 1 (.inst (cCi w) .active))

/-- A quiesce begins (R283 step 1). -/
def State.startQuiesce (s : State) (c : Ci) (abort : Bool) : State := s.later 1 (.inst c (if abort then .aborting else .draining))

def instQuiesce (w : BitVec 512) : Body := fun s =>
  if (s.inst (cCi w)).st != .active then .error .badState
  else .ok ((s.startLong w .quiesce 0).startQuiesce (cCi w) (cFlag w 0))

/-- The COH ranges that a clear with `ZF` fills. -/
def State.clearRanges (s : State) (c : Ci) (zf : Bool) : List (Nat × Nat) := if zf then (s.inst c).cohRanges else []

/-- Steps of a clear: sweep, firn, regions (R286, R309). -/
def State.clearSteps (s : State) (c : Ci) (zf : Bool) : Nat :=
  s.stepsOf (.region 0 (2 ^ 46 - 1)) c + s.stepsOf .zfillFirn c + ((s.clearRanges c zf).map fun r => s.stepsOf (.zfillCoh r.1 r.2 .coh) c).sum

/-- CLEARING is entered and the sweep queued (R286 step 1). -/
def State.beginClear (s : State) (c : Ci) (w : BitVec 512) (remove zf abort : Bool) : State :=
  (s.setJob w (.clear remove 1 zf abort)).later 1 (.inst c .clearing)

/-- `INST_RESET` and `INST_REMOVE` (R281, R286). -/
def State.clearCmd (s : State) (w : BitVec 512) (remove : Bool) : State :=
  let c := cCi w
  let zf := cFlag w 1
  let abort := cFlag w 0
  let s' := s.startLong w (.clear remove 0 zf abort) (s.clearSteps c zf)
  if (s.inst c).st == .active then s'.startQuiesce c abort else s'.beginClear c w remove zf abort

/-- The states in which a clear may be given (R281); a Mirror stays IDLE (R391). -/
def Inst.clearable (i : Inst) : Bool := (i.st == .idle || i.st == .active || i.st == .quiesced) && i.role != TRole.mirror

def instReset (w : BitVec 512) : Body := fun s => if (s.inst (cCi w)).clearable then .ok (s.clearCmd w false) else .error .badState

def instRemove (w : BitVec 512) : Body := fun s =>
  let i := s.inst (cCi w)
  if !i.clearable || (!cFlag w 1 && !cFlag w 2 && i.regions.any fun r => r.2.kind == .coh) then .error .badState
  else .ok (s.clearCmd w true)

/-- `SFQ` summed over the other instances with a twin role (R392). -/
def State.twinSfq (s : State) (c : Ci) : Nat :=
  ((s.insts.filter fun p => p.2.role != TRole.none && p.1 != c.toNat).map fun p =>
    s.sched.foldl (fun n e => match e.2 with | .quota d q _ _ _ _ _ _ => if d.toNat == p.1 then q else n | _ => n) p.2.sfq).sum

def instQuota (w : BitVec 512) : Body := fun s =>
  let c := cCi w
  if !quotaOk (cPar w 0 1) (cPar w 1 1) (cPar w 2 2) (cPar w 4 2) then .error .malformed
  else if (s.inst c).st == .free then .error .badState
  else if decide (s.floors c + cPar w 2 2 > 768) || ((s.inst c).role != TRole.none && decide (s.twinSfq c + cPar w 0 1 > 16)) then
    .error .noResource
  else .ok ((s.hold w .wait).later 1 (.quota c (cPar w 0 1) (cPar w 1 1) (cPar w 2 2) (cPar w 4 2) (cPar w 6 1) (cFlag w 5) w))

def instStatus (w : BitVec 512) : Body := fun s =>
  let i := s.inst (cCi w)
  s.done w [(1, i.st.code), (1, i.ruleg.toNat), (1, b2n i.mode 0), (1, i.sfq), (1, i.plbQ), (1, i.holdWin), (2, i.trkMin), (2, i.trkMax),
    (1, i.nreg), (1, i.csets.length), (1, i.firnLog2), (1, i.firnMpid.toNat), (4, i.firnBase.toNat), (4, i.rotStart), (4, i.rotGap),
    (4, i.viol.toNat)]

/-! ### Rule changes (R272, R273) -/

/-- A rule change begins: its reply, or final reply, waits for step 5. -/
def State.startRule (s : State) (w : BitVec 512) (op : RuleOp) (r : Recall) (steps : Nat) : State :=
  let c := cCi w
  let long := r != .nothing
  let s := s.modInst c fun i => { i with rule := some { op := op, switched := false, gen := i.ruleg, rcl := r, running := false, cmd := w,
                                                        long := long, mrule := none } }
  if long then s.startLong w .rule steps else s.hold w .rule

/-- The set of an IRT entry (R249). -/
def irtSet (e : IrtEnt) : Nat :=
  let p := if e.pv then e.pasid.toNat else 0
  let r := e.rqid.toNat
  ((r % 512) ^^^ (r / 512) ^^^ (p % 512) ^^^ (p / 512 % 512) ^^^ (p / 2 ^ 18)) % 512

def irtAdd (w : BitVec 512) : Body := fun s =>
  let e := cIrt w
  let i := s.inst e.ci
  if !e.pv && e.pasid != 0 then .error .malformed
  else if i.st == .free || i.mode then .error .badState
  else if (s.irtFind e).isSome || s.pendIrt.any fun x => x.rqid == e.rqid && x.pv == e.pv && x.pasid == e.pasid then .error .duplicate
  else if ((s.agent e.rqid).any fun a => a.bind.isSome) || s.pendBind e.rqid then .error .badState
  else if ((s.irt ++ s.pendIrt).filter fun x => irtSet x == irtSet e).length ≥ 8 then .error .noResource
  else .ok (s.startRule w (.addIrt e) .nothing 0)

/-- The recall-form sweep of an agent that leaves the instance (R253). -/
def State.leaving (s : State) (rq : Rqid) : Recall :=
  match s.agent rq with
  | some a => (match a.cax with | some c => .agent c | none => .nothing)
  | none => .nothing

def State.leaveSteps (s : State) (c : Ci) (r : Recall) : Nat :=
  match r with
  | .agent x => s.stepsOf (.agentRecall x) c
  | _ => 0

def irtRemove (w : BitVec 512) : Body := fun s =>
  let c := cCi w
  if !(cIrt w).pv && (cIrt w).pasid != 0 then .error .malformed
  else if (s.inst c).st == .free then .error .badState
  else match s.irtFind (cIrt w) with
    | none => .error .notFound
    | some e =>
      if e.ci != c then .error .notFound
      else
        let r := if s.lastMember e.rqid c e then s.leaving e.rqid else .nothing
        .ok (s.startRule w (.removeIrt e) r (s.leaveSteps c r))

def iwMask (w : BitVec 512) : Body := fun s =>
  if (s.inst (cCi w)).st == .free then .error .badState
  else .ok (s.startRule w (.iwMask (BitVec.ofNat 16 (cPar w 0 2))) .nothing 0)

/-! ### Group 0x2: regions -/

/-- R261, R462 step 6 for an entry. -/
def entryOk (w : BitVec 512) : Bool :=
  let r := cEntry w
  w.getLsbD (192 + 80) && decide (r.base.toNat ≤ r.limit.toNat) && w.extractLsb' (192 + 81) 2 != 3 && !(r.kind == .lease && r.gr) &&
    (r.kind == .lease || (r.lhrq == 0 && !r.lhv))

/-- The range lies on one memory port that is written and, in TABLE mode, filled (R262). -/
def State.onPort262 (s : State) (r : Region) : Bool :=
  s.ports.any fun p => p.2.pv && Span.inside r.span p.2.span && (!p.2.table || p.2.rtReady)

/-- What `REGION_SET` removes of a COH region (R263, R274). -/
def Region.removed (old new : Region) : Recall :=
  let a := decide (old.base.toNat < new.base.toNat)
  let b := decide (new.limit.toNat < old.limit.toNat)
  let low := (old.lo, min (new.lo - 1) old.hi)
  let high := (max (new.hi + 1) old.lo, old.hi)
  if old.kind != .coh then .nothing
  else if a && b then .range low.1 low.2 high.1 high.2 none
  else if a then .range low.1 low.2 1 0 none
  else if b then .range high.1 high.2 1 0 none
  else .nothing

def State.recallSteps (s : State) (c : Ci) : Recall → Nat
  | .range lo hi lo2 hi2 zf => s.stepsOf (.region lo hi) c + (if lo2 ≤ hi2 then s.stepsOf (.region lo2 hi2) c else 0) +
      (match zf with | some (a, b, k) => s.stepsOf (.zfillCoh a b k) c | none => 0)
  | .zero lo hi k => s.stepsOf (.zfillCoh lo hi k) c
  | .agent x => s.stepsOf (.agentRecall x) c
  | .nothing => 0

def regionSet (w : BitVec 512) : Body := fun s =>
  let c := cCi w
  let i := s.inst c
  let ridx := cPar w 0 1
  let r := cEntry w
  let others := s.allRegions.filter fun x => !(x.1 == c && x.2.1 == ridx)
  if !entryOk w then .error .malformed
  else if i.st == .free then .error .badState
  else if ridx ≥ i.nreg then .error .malformed
  else if (tGet i.regions ridx).any fun o => o.kind != r.kind || o.lhv != r.lhv then .error .badState
  else if (others.any fun x => Span.meets x.2.2.span r.span) || (s.firnSpans ++ s.rtSpans).any fun x => Span.meets x r.span then .error .overlap
  else if !s.onPort262 r then .error .badState
  else
    let cut := match tGet i.regions ridx with
      | some o => o.removed r
      | none => .nothing
    .ok (s.startRule w (.setRegion ridx r) cut (s.recallSteps c cut))

def regionClear (w : BitVec 512) : Body := fun s =>
  let c := cCi w
  let i := s.inst c
  let ridx := cPar w 0 1
  if i.st == .free then .error .badState
  else if ridx ≥ i.nreg then .error .malformed
  else match tGet i.regions ridx with
    | none => .error .notFound
    | some o =>
      let r : Recall := if o.kind == .coh then .range o.lo o.hi 1 0 (if cFlag w 1 then some (o.lo, o.hi, .coh) else none)
        else if cFlag w 1 then .zero o.lo o.hi o.kind else .nothing
      .ok (s.startRule w (.clearRegion ridx) r (s.recallSteps c r))

def leasePass (w : BitVec 512) : Body := fun s =>
  let c := cCi w
  let i := s.inst c
  let ridx := cPar w 0 1
  if i.st == .free then .error .badState
  else if ridx ≥ i.nreg then .error .malformed
  else match tGet i.regions ridx with
    | none => .error .notFound
    | some o =>
      if o.kind != .lease then .error .badState
      else
        let r : Recall := if cFlag w 1 then .zero o.lo o.hi .lease else .nothing
        let n : Region := { o with lhrq := BitVec.ofNat 12 (cPar w 2 2), lhv := cPar w 4 1 == 1 }
        .ok (s.startRule w (.setRegion ridx n) r (s.recallSteps c r))

def regionRead (w : BitVec 512) : Body := fun s =>
  let i := s.inst (cCi w)
  if i.st == .free then .error .badState
  else if cPar w 0 1 ≥ i.nreg then .error .malformed
  else s.done w [(16, match tGet i.regions (cPar w 0 1) with | some r => r.encode | none => 0)]

/-! ### Group 0x2: memory ports -/

def portSet (w : BitVec 512) : Body := fun s =>
  let m := cPar w 0 1
  let q := cPdesc w
  if !q.inRange then .error .malformed
  else if s.ret.chans.contains { chk := 4, chn := BitVec.ofNat 12 m } || s.portFixed m q then .error .badState
  else if s.portClash m q then .error .overlap
  else
    let fill := s.isLong w
    let s := { s with ports := tPut s.ports m (q.over (tGet s.ports m)) }
    let s := s.later 1 (.port (BitVec.ofNat 8 m) q.nma q.thr)
    if fill then
      .ok ((s.startLong w (.portFill (BitVec.ofNat 8 m)) (s.stepsOf (.zfillRt (BitVec.ofNat 8 m)) 0)).queueBulk true (.zfillRt (BitVec.ofNat 8 m)) 0 w)
    else s.done w

def portRead (w : BitVec 512) : Body := fun s =>
  s.done w [(16, ((tGet s.ports (cPar w 0 1)).getD PortDesc.reset).encode)]

/-! ### The commands -/

def execBootStatus (w : BitVec 512) (s : State) : Res := mcRow 0x001 w (bootStatus w) s
def execImgBegin (w : BitVec 512) (s : State) : Res := mcRow 0x002 w (imgBegin w) s
def execImgData (w : BitVec 512) (s : State) : Res := mcRow 0x003 w (imgData w) s
def execImgEnd (w : BitVec 512) (s : State) : Res := mcRow 0x004 w (imgEnd w) s
def execBootStart (w : BitVec 512) (s : State) : Res := mcRow 0x005 w (bootStart w) s
def execCmdProgress (w : BitVec 512) (s : State) : Res := mcRow 0x006 w (cmdProgress w) s
def execInstCreate (w : BitVec 512) (s : State) : Res := mcRow 0x101 w (instCreate w) s
def execInstEnable (w : BitVec 512) (s : State) : Res := mcRow 0x102 w (instEnable w) s
def execInstQuiesce (w : BitVec 512) (s : State) : Res := mcRow 0x103 w (instQuiesce w) s
def execInstReset (w : BitVec 512) (s : State) : Res := mcRow 0x104 w (instReset w) s
def execInstRemove (w : BitVec 512) (s : State) : Res := mcRow 0x105 w (instRemove w) s
def execInstQuota (w : BitVec 512) (s : State) : Res := mcRow 0x106 w (instQuota w) s
def execInstStatus (w : BitVec 512) (s : State) : Res := mcRow 0x107 w (instStatus w) s
def execIrtAdd (w : BitVec 512) (s : State) : Res := mcRow 0x108 w (irtAdd w) s
def execIrtRemove (w : BitVec 512) (s : State) : Res := mcRow 0x109 w (irtRemove w) s
def execIwMask (w : BitVec 512) (s : State) : Res := mcRow 0x10A w (iwMask w) s
def execRegionSet (w : BitVec 512) (s : State) : Res := mcRow 0x201 w (regionSet w) s
def execRegionClear (w : BitVec 512) (s : State) : Res := mcRow 0x202 w (regionClear w) s
def execLeasePass (w : BitVec 512) (s : State) : Res := mcRow 0x203 w (leasePass w) s
def execRegionRead (w : BitVec 512) (s : State) : Res := mcRow 0x204 w (regionRead w) s
def execPortSet (w : BitVec 512) (s : State) : Res := mcRow 0x210 w (portSet w) s
def execPortRead (w : BitVec 512) (s : State) : Res := mcRow 0x211 w (portRead w) s

end Sys2Proof.Machine
end

