-- ==== Sys2Proof/Machine/McAgents.lean ====
section
/-!
DEFINITION. The bodies of group 0x3: agents and snoops (R131, R311 to R330, R424, R425).
-/

namespace Sys2Proof.Machine

open Sys2Proof

/-- The lowest `CAX` that no agent holds (R314). -/
def State.freeCax (s : State) : Option Cax :=
  ((List.range 1024).find? fun k => (s.caxAgent (BitVec.ofNat 10 k)).isNone).map fun k => BitVec.ofNat 10 k

def aclassOf (n : Nat) : AClass := if n = 0 then .bi else if n = 1 then .lease else .io

/-- A new entry of the Agent Table (R314). -/
def Agent.fresh (cls : AClass) (cax : Option Cax) (l : BitVec 10) : Agent :=
  { cls := cls, cax := cax, lport := l, sess := 0, lst := .offline, en := true, enPs := true, bind := none, swp := false, rdm := false,
    grace := none, lostMem := [], retired := false }

/-- The member vectors that the IRT entries of a new BI agent put it into (R251, R252). -/
def State.joinAll (s : State) (rq : Rqid) (c : Cax) : State :=
  (s.irt.filter fun e => e.rqid == rq).foldl (fun s e => s.modInst e.ci fun i => { i with members := insertAsc c i.members }) s

/-- R251, R314, R424, R484. -/
def agentAdd (w : BitVec 512) : Body := fun s =>
  let rq := cRq w
  let cls := cPar w 2 1
  let l : BitVec 10 := BitVec.ofNat 10 (cPar w 4 2)
  let named : Cax := BitVec.ofNat 10 (cPar w 6 2)
  let any := cFlag w 4
  if cls > 2 then .error .malformed
  else if (s.agent rq).isSome || (cls == 0 && !any && (s.caxAgent named).isSome) then .error .duplicate
  else if s.ret.chans.contains { chk := 3, chn := l.setWidth 12 } then .error .badState
  else if cls != 0 then (s.setAgent rq (Agent.fresh (aclassOf cls) none l)).done w [(2, 0)]
  else match (if any then s.freeCax else some named) with
    | none => .error .noResource
    | some c => (((s.setAgent rq (Agent.fresh .bi (some c) l)).joinAll rq c).later 1 (.calReset c)).done w [(2, c.toNat)]

/-- The entry that a command names, else `NOT_FOUND`. -/
def State.named (s : State) (w : BitVec 512) (f : Agent → Except Status State) : Except Status State :=
  match s.agent (cRq w) with
  | none => .error .notFound
  | some a => f a

/-- A message of the agent is outstanding at its port station (R149). -/
def State.msgOut (s : State) (rq : Rqid) (a : Agent) : Bool :=
  (s.ps (a.lport.extractLsb' 7 3)).msgs.any fun m => m.isOut && m.req.rqid == rq

/-- R315. The credits of its port are withheld no longer, unless for another agent or a retired path (R321, R484). -/
def agentRemove (w : BitVec 512) : Body := fun s =>
  let rq := cRq w
  s.named w fun a =>
    if a.bind.isSome || s.pendBind rq || ((s.irt ++ s.pendIrt).any fun e => e.rqid == rq) || a.swp || s.msgOut rq a then .error .badState
    else
      let s := { s with agents := tDel s.agents rq.toNat }
      let other := s.agents.any fun p => p.2.lport == a.lport && p.2.lst == .held
      let gone := s.ret.chans.contains { chk := 3, chn := a.lport.setWidth 12 }
      (if a.lst == .held then s.modLport a.lport fun l => { l with held := other || gone } else s).done w

/-- R247, R250. -/
def agentBind (w : BitVec 512) : Body := fun s =>
  let c := cCi w
  if (s.inst c).st == .free then .error .badState
  else s.named w fun a =>
    if !(s.inst c).mode || ((s.irt ++ s.pendIrt).any fun e => e.rqid == cRq w) then .error .badState
    else if a.bind.isSome || s.pendBind (cRq w) then .error .duplicate
    else .ok (s.startRule w (.bind (cRq w) (BitVec.ofNat 4 (cPar w 2 1))) .nothing 0)

/-- R250, R253. -/
def agentUnbind (w : BitVec 512) : Body := fun s =>
  let c := cCi w
  if (s.inst c).st == .free then .error .badState
  else s.named w fun a =>
    if !(a.bind.any fun b => b.1 == c) then .error .notFound
    else
      let r := s.leaving (cRq w)
      .ok (s.startRule w (.unbind (cRq w)) r (s.leaveSteps c r))

/-- R329. -/
def agentDisable (w : BitVec 512) : Body := fun s =>
  let rq := cRq w
  s.named w fun a =>
    let cis := if a.cax.isSome then s.memberOf rq else []
    let n := (cis.map fun c => s.stepsOf (.agentRecall (a.cax.getD 0)) c).sum
    .ok ((((s.setAgent rq { a with en := false }).later 1 (.agentEn rq false))).startLong w (.agentDisable rq [] false) n)

/-- R330, R484. -/
def agentEnable (w : BitVec 512) : Body := fun s =>
  let rq := cRq w
  s.named w fun a =>
    if a.retired then .error .badState
    else ((s.setAgent rq { a with en := true }).later 1 (.agentEn rq true)).done w

/-- R326, R327, R484. -/
def agentReadmit (w : BitVec 512) : Body := fun s =>
  let rq := cRq w
  s.named w fun a =>
    if a.retired || a.swp then .error .badState
    else
      let s := s.setAgent rq { a with rdm := false }
      (if a.lst == .held then s.later 1 (.credits rq) else s).done w

/-- The layout of R311. -/
def Agent.encode (a : Agent) : Nat :=
  1 + a.cls.code * 2 + (match a.cax with | some c => c.toNat * 2 ^ 3 + 2 ^ 13 | none => 0) + a.lport.toNat * 2 ^ 14 + a.sess.toNat * 2 ^ 24 +
    a.lst.code * 2 ^ 32 + b2n a.en 35 +
    (match a.bind with | some (c, g) => c.toNat * 2 ^ 36 + g.toNat * 2 ^ 42 + 2 ^ 46 | none => 0) + b2n a.swp 47 + b2n a.rdm 48

def agentRead (w : BitVec 512) : Body := fun s => s.named w fun a => s.done w [(8, a.encode)]

/-- R318. -/
def agentGrace (w : BitVec 512) : Body := fun s =>
  if !between 1250 (cPar w 0 4) 125000000 then .error .malformed
  else ({ s with params := { s.params with graceTmo := cPar w 0 4 } } : State).done w

/-- R131: for the snoops of the next tick on. -/
def snoopCfg (w : BitVec 512) : Body := fun s =>
  let mn := cPar w 0 2
  let mx := cPar w 4 4
  let n := cPar w 8 1
  if !(between 16 mn 65535 && between 1024 mx 1048575 && decide (mn ≤ mx) && decide (n ≤ 7)) then .error .malformed
  else (s.later 1 (.snoopCfg mn mx n)).done w

/-- R425. -/
def calRead (w : BitVec 512) : Body := fun s =>
  match tGet s.calSum (cPar w 0 2) with
  | some (a, b, c) => s.done w [(4, a), (4, b), (4, c), (1, 1)]
  | none => s.done w [(4, 0), (4, 0), (4, 0), (1, 0)]

/-- R424. -/
def calReset (w : BitVec 512) : Body := fun s => (s.later 1 (.calReset (BitVec.ofNat 10 (cPar w 0 2)))).done w

def execAgentAdd (w : BitVec 512) (s : State) : Res := mcRow 0x301 w (agentAdd w) s
def execAgentRemove (w : BitVec 512) (s : State) : Res := mcRow 0x302 w (agentRemove w) s
def execAgentBind (w : BitVec 512) (s : State) : Res := mcRow 0x303 w (agentBind w) s
def execAgentUnbind (w : BitVec 512) (s : State) : Res := mcRow 0x304 w (agentUnbind w) s
def execAgentDisable (w : BitVec 512) (s : State) : Res := mcRow 0x305 w (agentDisable w) s
def execAgentEnable (w : BitVec 512) (s : State) : Res := mcRow 0x306 w (agentEnable w) s
def execAgentReadmit (w : BitVec 512) (s : State) : Res := mcRow 0x307 w (agentReadmit w) s
def execAgentRead (w : BitVec 512) (s : State) : Res := mcRow 0x308 w (agentRead w) s
def execAgentGrace (w : BitVec 512) (s : State) : Res := mcRow 0x309 w (agentGrace w) s
def execSnoopCfg (w : BitVec 512) (s : State) : Res := mcRow 0x30A w (snoopCfg w) s
def execCalRead (w : BitVec 512) (s : State) : Res := mcRow 0x30B w (calRead w) s
def execCalReset (w : BitVec 512) (s : State) : Res := mcRow 0x30C w (calReset w) s

end Sys2Proof.Machine
end

