-- ==== Sys2Proof/Machine/McUnits.lean ====
section
/-!
DEFINITION. The bodies of groups 0x4 (power, slices and mesh) and 0x5 (engines, arbiters and the churn).
-/

namespace Sys2Proof.Machine

open Sys2Proof

/-! ### Group 0x4 -/

/-- A sequence of freezes or thaws names the domain. -/
def State.inSeq (s : State) (d : BitVec 7) : Bool := s.mc.seq.any fun q => q.cur.contains d || q.left.any fun g => g.contains d

/-- R374: the freeze of a domain's unit is refused. -/
def State.freezeHeld (s : State) (d : BitVec 7) : Bool :=
  let n := d.toNat
  if n < 64 then s.smap.contains (domHs d) || s.fold.any fun f => f.oldMap.contains (domHs d) || f.newMap.contains (domHs d)
  else if n < 72 then s.agents.any fun p => p.2.lport.extractLsb' 7 3 == d.setWidth 3 && p.2.lst != .offline
  else if n < 80 then s.ports.any fun p => p.1 % 8 == n - 72 && s.portHeld p.1 p.2
  else if n = 82 then !s.be.ops.isEmpty || !s.be.sweeps.isEmpty
  else n == 83 && s.strapTwin && s.twinAny

/-- R369, R370, R374, R469. -/
def pdFreeze (w : BitVec 512) : Body := fun s =>
  let n := cPar w 0 1
  let ds := domPair (BitVec.ofNat 7 n)
  if n > 84 then .error .malformed
  else if !s.allIn ds .on || (ds.any s.inSeq) || s.freezeHeld (BitVec.ofNat 7 n) then .error .badState
  else .ok ((s.startLong w (.freeze ds) 0).startFreeze ds false (cFlag w 3))

/-- R373, R469, R484. A thaw that the MC has begun by itself is joined. -/
def pdThaw (w : BitVec 512) : Body := fun s =>
  let n := cPar w 0 1
  let d : BitVec 7 := BitVec.ofNat 7 n
  let ds := domPair d
  if n > 84 then .error .malformed
  else if s.domRetired d || ds.any s.inSeq then .error .badState
  else if s.allIn ds .thawing || (s.allIn ds .off && s.thawDue d) then .ok (s.startLong w (.thaw ds) 0)
  else if !s.allIn ds .off then .error .badState
  else .ok ((s.startLong w (.thaw ds) 0).startThaw ds)

def pdStatus (w : BitVec 512) : Body := fun s =>
  s.done w [(22, ((List.range 85).map fun i => (s.dom (BitVec.ofNat 7 i)).st.code * 4 ^ i).sum)]

/-- R375: no ACTIVE instance, no twin role, no bulk operation, no sweep. -/
def State.mayPark (s : State) : Bool :=
  (s.insts.all fun p => p.2.st != .active && p.2.role == TRole.none) && s.be.ops.isEmpty && s.be.sweeps.isEmpty &&
    (s.agents.all fun p => !p.2.swp) && s.mc.seq.isNone

/-- The domains that a park freezes: those ON, of the slices the active ones. -/
def State.parks (s : State) (d : BitVec 7) : Bool := s.isOn d && (decide (64 ≤ d.toNat) || s.smap.contains (domHs d))

def enginePark (w : BitVec 512) : Body := fun s =>
  if !s.mayPark then .error .badState
  else .ok ((s.startLong w .seq 0).startSeq true (pickGroups s.parks parkOrder) (some w))

/-- Where the MC unparks by itself already, the command waits for that (R375). -/
def engineUnpark (w : BitVec 512) : Body := fun s =>
  match s.mc.seq with
  | none => .ok ((s.startLong w .seq 0).startSeq false s.unparkGroups (some w))
  | some q =>
    if q.freeze || q.cmd.isSome || s.mc.bstate != .ready then .error .badState
    else
      let s := s.startLong w .seq 0
      .ok { s with mc := { s.mc with seq := some { q with cmd := some w } } }

/-- The map of `SLICE_FOLD`. -/
def cSmap (w : BitVec 512) : List Nat := (List.range 32).map fun i => cPar w i 1

/-- R376 for a new map beside the present one. -/
def foldShape (old new : List Nat) : Bool :=
  let a := old.eraseDups
  let b := new.eraseDups
  let pairs := old.zip new
  mapShape new &&
    ((2 * b.length == a.length && (b.all fun x => a.contains x) && pairs.all fun p => p.1 == p.2 || !b.contains p.1) ||
     (b.length == 2 * a.length && (a.all fun x => b.contains x) && pairs.all fun p => p.1 == p.2 || !a.contains p.2))

/-- R376, R378, R393. `peer`: how many active slices the partner has. -/
def sliceFold (w : BitVec 512) (peer : Nat) : Body := fun s =>
  let new := cSmap w
  let n := new.eraseDups.length
  if !foldShape (s.smap.map fun h => h.toNat) new then .error .malformed
  else if s.fold.isSome || s.parked || !s.mapClean new || s.ret.doms.any fun d => decide (d.toNat < 64) && new.contains (domHs d).toNat then
    .error .badState
  else if (s.insts.any fun p => p.2.role == TRole.mirror) && n < peer then .error .badState
  else
    let s := s.startLong w (.fold []) sfSteps
    let s := { s with fold := some { oldMap := s.smap, newMap := toHs new, mp := 0, started := false, flipped := false, cmd := some w } }
    let ret' := sliceDoms (mapLess (toHs new) s.smap)
    if s.allIn ret' .on then .ok s.startFold
    else .ok (s.startThaw (ret'.filter fun d => (s.dom d).st == .off && !s.thawDue d))

/-- R367, R370. -/
def pwrCfg (w : BitVec 512) : Body := fun s =>
  let a := cPar w 0 2
  let b := cPar w 4 4
  if !(between 16 a 65535 && between 1250 b 12500000) then .error .malformed
  else ({ s with params := { s.params with pgTmo := a, frzTmo := b } } : State).done w

/-- R353, R357, R358, R469, R487. -/
def meshFence (w : BitVec 512) : Body := fun s =>
  let n := cPar w 0 1
  let act := cPar w 1 1
  let p := cPar w 2 1
  let st : Stop := BitVec.ofNat 6 n
  let port : BitVec 3 := BitVec.ofNat 3 p
  if n > 55 || act > 3 || (act == 3 && (nbr n p).isNone) then .error .malformed
  else if st = mcStop || s.mesh.swap.isSome then .error .badState
  else
    let s := s.startLong w (.fence (BitVec.ofNat 8 act) st port) 0
    if act = 1 || act = 3 then .ok (s.fenceGo w act st port)
    else
      .ok (s.fenceStep w act st port)

/-- R359. -/
def meshCfg (w : BitVec 512) : Body := fun s =>
  if !between 1250 (cPar w 0 4) 1250000 then .error .malformed
  else ({ s with params := { s.params with rteTmo := cPar w 0 4 } } : State).done w

/-! ### Group 0x5 -/

/-- The engine of a number (R288). -/
def engOf (n : Nat) : Option Eng := if n = 0 then some .te0 else if n = 1 then some .te1 else if n = 2 then some .be else none

def withEng (w : BitVec 512) (f : Eng → Except Status State) : Except Status State :=
  match engOf (cPar w 0 1) with
  | none => .error .malformed
  | some e => f e

/-- R302. -/
def arbTickets (w : BitVec 512) : Body := fun s =>
  if (s.inst (cCi w)).st == .free then .error .badState
  else (s.modInst (cCi w) fun i => { i with tkt0 := cPar w 0 2, tkt1 := cPar w 2 2, tktB := cPar w 4 2 }).done w

def arbSystkt (w : BitVec 512) : Body := fun s => ({ s with params := { s.params with sysTkt := cPar w 0 2 } } : State).done w

/-- R291. -/
def arbSeed (w : BitVec 512) : Body := fun s => withEng w fun e =>
  if cPar w 4 4 = 0 then .error .malformed else (s.modArb e fun a => { a with seed := some (BitVec.ofNat 32 (cPar w 4 4)) }).done w

/-- R300. -/
def arbMode (w : BitVec 512) : Body := fun s =>
  let n := cPar w 0 1
  if !between 1 n 3 then .error .malformed
  else ({ s with arbMode := if n = 1 then .service else if n = 2 then .test else .recovery } : State).done w

/-- R298, R299. -/
def arbPreempt (w : BitVec 512) : Body := fun s => withEng w fun e =>
  if s.arbMode != .service then .error .badState
  else (s.cutGrant e).done w

/-- R296. -/
def arbHoldmax (w : BitVec 512) : Body := fun s => withEng w fun e =>
  let v := cPar w 2 2
  let p := match e with
    | .te0 => { s.params with hm0 := v }
    | .te1 => { s.params with hm1 := v }
    | .be => { s.params with hmB := v }
  ({ s with params := p } : State).done w

/-- R306 on BE: every operation ends but that of the grant, of the grant that a draw of this cycle gives, and one with no step left
to issue. -/
def State.beOff (s : State) : State :=
  let cur := ([s.arbB.holder, s.arbB.won].filterMap fun q => q.bind s.beHead).map fun o => o.id
  let f (o : BulkOp) : BulkOp := if cur.contains o.id || !s.opMore o then o else { o with stopped := true, ended := some .engDisabled }
  { s with be := { s.be with ops := s.be.ops.map f } }

/-- R306 on a transaction engine: copied groups and queued AtomicOps end. -/
def State.teOff (s : State) (e : Bool) : State :=
  let q := (s.te e).aopq
  let s := s.modTe e fun t => { t with aopq := [] }
  let s := q.foldl (fun s r => s.aopEnd e r .engDisabled false 0) s
  s.endCopied e (fun _ => true) .engDisabled

def engDisable (w : BitVec 512) : Body := fun s => withEng w fun e =>
  if e == .be && (!s.be.sweeps.isEmpty || s.arbB.holder == some 65 || s.arbB.won == some 65) then .error .badState
  else
    let s := (s.modArb e fun a => { a with en := false }).startLong w (.engDisable e) 0
    let s := match e with
      | .te0 => s.teOff false
      | .te1 => s.teOff true
      | .be => s.beOff
    .ok s.pump.engEnds

def engEnable (w : BitVec 512) : Body := fun s => withEng w fun e => (s.modArb e fun a => { a with en := true }).done w

/-- `HEST` of `ARB_STATUS`: the holder's estimate (R303). -/
def State.hestNow (s : State) (e : Eng) : Nat :=
  match (s.arb e).holder with
  | none => 0
  | some q => if q = 65 then s.sweepLeft else s.hest e q

def arbStatus (w : BitVec 512) : Body := fun s => withEng w fun e =>
  let a := s.arb e
  s.done w [(1, s.arbMode.code), (1, match a.holder with | some q => q | none => 0xFF), (2, s.hestNow e), (4, a.lfsr.toNat), (1, b2n a.en 0)]

/-- R309, R391: `MOVES` moves of an instance's firn; none where it has no firn. -/
def firnRotate (w : BitVec 512) : Body := fun s =>
  let c := cCi w
  let i := s.inst c
  let n := if i.firnLog2 = 0 then 0 else cPar w 0 4
  if i.st == .free || i.role == TRole.mirror then .error .badState
  else .ok ((s.startLong w .bulk n).queueBulk false .rotate c w n)

/-- R98, R309. -/
def firnRebuild (w : BitVec 512) : Body := fun s =>
  let c := cCi w
  let i := s.inst c
  if i.st == .free || i.role == TRole.mirror then .error .badState
  else .ok ((s.startLong w .bulk (s.stepsOf .firnRebuild c)).queueBulk false .firnRebuild c w)

/-- R413. -/
def churnCfg (w : BitVec 512) : Body := fun s =>
  let a := cPar w 0 1
  let b := cPar w 1 1
  let c := cPar w 2 2
  if !(between 1 a 64 && between 8 b 16 && between 1 c 65535) then .error .malformed
  else (s.later 1 (.churn a b c)).done w

/-- R490. -/
def sfRebuild (w : BitVec 512) : Body := fun s =>
  .ok ((s.startLong w .bulk 0).queueBulk true (.sfRebuild s.clk.tick) 0 w)

def execPdFreeze (w : BitVec 512) (s : State) : Res := mcRow 0x401 w (pdFreeze w) s
def execPdThaw (w : BitVec 512) (s : State) : Res := mcRow 0x402 w (pdThaw w) s
def execPdStatus (w : BitVec 512) (s : State) : Res := mcRow 0x403 w (pdStatus w) s
def execEnginePark (w : BitVec 512) (s : State) : Res := mcRow 0x404 w (enginePark w) s
def execEngineUnpark (w : BitVec 512) (s : State) : Res := mcRow 0x405 w (engineUnpark w) s
def execSliceFold (w : BitVec 512) (peerSlices : Nat) (s : State) : Res := mcRow 0x406 w (sliceFold w peerSlices) s
def execPwrCfg (w : BitVec 512) (s : State) : Res := mcRow 0x407 w (pwrCfg w) s
def execMeshFence (w : BitVec 512) (s : State) : Res := mcRow 0x408 w (meshFence w) s
def execMeshCfg (w : BitVec 512) (s : State) : Res := mcRow 0x409 w (meshCfg w) s
def execArbTickets (w : BitVec 512) (s : State) : Res := mcRow 0x501 w (arbTickets w) s
def execArbSystkt (w : BitVec 512) (s : State) : Res := mcRow 0x502 w (arbSystkt w) s
def execArbSeed (w : BitVec 512) (s : State) : Res := mcRow 0x503 w (arbSeed w) s
def execArbMode (w : BitVec 512) (s : State) : Res := mcRow 0x504 w (arbMode w) s
def execArbPreempt (w : BitVec 512) (s : State) : Res := mcRow 0x505 w (arbPreempt w) s
def execArbHoldmax (w : BitVec 512) (s : State) : Res := mcRow 0x506 w (arbHoldmax w) s
def execEngDisable (w : BitVec 512) (s : State) : Res := mcRow 0x507 w (engDisable w) s
def execEngEnable (w : BitVec 512) (s : State) : Res := mcRow 0x508 w (engEnable w) s
def execArbStatus (w : BitVec 512) (s : State) : Res := mcRow 0x509 w (arbStatus w) s
def execFirnRotate (w : BitVec 512) (s : State) : Res := mcRow 0x50A w (firnRotate w) s
def execFirnRebuild (w : BitVec 512) (s : State) : Res := mcRow 0x50B w (firnRebuild w) s
def execChurnCfg (w : BitVec 512) (s : State) : Res := mcRow 0x50C w (churnCfg w) s
def execSfRebuild (w : BitVec 512) (s : State) : Res := mcRow 0x50D w (sfRebuild w) s

end Sys2Proof.Machine
end

