-- ==== Sys2Proof/Machine/McStore.lean ====
section
/-!
DEFINITION. The bodies of groups 0x7 (profiles), 0x8 (observation) and 0x9 (errors), and the end of a profile's write (R476).
-/

namespace Sys2Proof.Machine

open Sys2Proof

/-! ### Group 0x7 -/

/-- The port table as a profile leaves it: an entry with `PV` = 0 leaves the live descriptor (R474). -/
def State.portsAfter (s : State) (l : List (Nat × PortDesc)) : List (Nat × PortDesc) :=
  l.foldl (fun m e => tPut m e.1 (e.2.over (tGet s.ports e.1))) s.ports

/-- A Rime Table meets a firn area or a region (R67). -/
def State.rtMeets (s : State) (p : PortDesc) : Bool :=
  p.table && ((s.firnSpans.any fun r => Span.meets r p.rtSpan) || s.allRegions.any fun r => Span.meets r.2.2.span p.rtSpan)

/-- R474; R67 for the table that results. -/
def profileApply (w : BitVec 512) : Body := fun s =>
  let k := cPar w 0 1
  let p := s.prof k
  let l := p.ports
  let after := (s.portsAfter l).filter fun e => e.2.pv
  if k > 3 || !p.valid then .error .malformed
  else if l.any fun e => s.portFixed e.1 e.2 || s.ret.chans.contains { chk := 4, chn := BitVec.ofNat 12 e.1 } then .error .badState
  else if !portsApart after || after.any fun e => s.rtMeets e.2 then .error .overlap
  else .ok ((s.hold w .wait).later 1 (.profile p.params (l.map fun e => (e.1, (e.2.over (tGet s.ports e.1) : PortDesc))) w))

/-- R475. -/
def profileStage (w : BitVec 512) : Body := fun s =>
  let ofs := cPar w 0 2
  if ofs % 32 != 0 || ofs ≥ 0x8000 then .error .malformed
  else ({ s with mc := { s.mc with staging := memSetN s.mc.staging ofs 32 (cPar w 16 32) } } : State).done w

def profileCapture (w : BitVec 512) : Body := fun s => ({ s with mc := { s.mc with staging := s.captured } } : State).done w

/-- R476. -/
def profileCommit (w : BitVec 512) : Body := fun s =>
  if cPar w 0 1 > 3 || !s.staged.sound then .error .malformed else .ok (s.startLong w (.commit (cPar w 0 1)) 0)

def profileRead (w : BitVec 512) : Body := fun s =>
  let k := cPar w 0 1
  let ofs := cPar w 2 2
  if k > 3 || ofs + 32 > 0x8000 then .error .malformed else s.done w [(32, (s.prof k).get ofs 32)]

/-- A commit under way: its command and profile. -/
def LongCmd.commitOf (l : LongCmd) : Option (BitVec 512 × Nat) :=
  match l.job with
  | .commit k => some (l.cmd, k)
  | _ => none

/-- The 32 KiB have been written (R476). -/
def execProfileMramWriteEnd (s : State) : Res :=
  match s.mc.longs.findSome? LongCmd.commitOf with
  | none => stay s
  | some (w, k) =>
    if !s.mcUp then stay s
    else .next (({ s with mc := { s.mc with store := s.committed k } } : State).finish w .done)

/-! ### Group 0x8 -/

/-- The fields of `OBS_TRACE_CFG` in their ranges. -/
def traceCfgOk (w : BitVec 512) : Bool :=
  decide (cPar w 2 1 ≤ 1) && decide (cPar w 3 1 ≤ 2) && decide (cPar w 4 1 ≤ 5) && (cPar w 3 1 != 1 || decide (1 ≤ cPar w 4 1)) &&
    (decide (cPar w 6 1 ≤ 63) || cPar w 6 1 == 0xFF) && decide (cPar w 32 4 ≤ 131071)

/-- R431, R434, R435. A new configuration arms the trigger afresh. -/
def obsTraceCfg (w : BitVec 512) : Body := fun s =>
  if !traceCfgOk w then .error .malformed
  else
    let b (off n : Nat) : BitVec 64 := BitVec.ofNat 64 (cPar w off n)
    ({ s with obs := { s.obs with
        tkmask := (b 0 1).setWidth 8, vnmask := (b 1 1).setWidth 8, ring := cPar w 2 1 == 1, trigSel := (b 3 1).setWidth 8,
        trigKind := (b 4 1).setWidth 8, fci := (b 6 1).setWidth 8, smask := b 8 8, flix := b 16 8, flmask := b 24 8,
        trPost := cPar w 32 4, trigLix := b 36 8, stopIn := none, stopped := false } } : State).done w

/-- R434: the records leave by `TRACE_OUTPUT`, the reply follows the last. -/
def obsTraceDump (w : BitVec 512) : Body := fun s =>
  .ok (({ s with obs := { s.obs with dumping := true } } : State).startLong w .dump 0)

/-- R437. -/
def obsCntClear (w : BitVec 512) : Body := fun s =>
  let a := cPar w 0 2
  let n := cPar w 2 2
  if a ≥ 4096 || a + n > 4096 then .error .malformed
  else ({ s with obs := { s.obs with cnt := s.obs.cnt.filter fun p => !(decide (a ≤ p.1) && decide (p.1 < a + n)) } } : State).done w

/-- R441. -/
def obsSetEvents (w : BitVec 512) : Body := fun s =>
  let c := cCi w
  let i := s.inst c
  let j := cPar w 0 1
  let ev (k : Nat) : Nat := cPar w (2 + k) 1
  if (List.range 32).any fun k => ev k > 0x11 then .error .malformed
  else if i.st == .free then .error .badState
  else if !i.csets.contains j then .error .malformed
  else
    let rest := i.evts.filter fun p => p.1 / 32 != j
    let new := ((List.range 32).map fun k => (32 * j + k, ev k)).filter fun p => p.2 != 0
    (s.setInst c { i with evts := rest ++ new }).done w

/-! ### Group 0x9 -/

/-- The layout of R479. -/
def ErrRec.encode (e : ErrRec) : Nat :=
  e.ecls.toNat + e.chk.toNat * 2 ^ 4 + e.chn.toNat * 2 ^ 8 + e.estop.toNat * 2 ^ 20 + e.ecode.toNat * 2 ^ 26 +
    (match e.elix with | some l => l.toNat * 2 ^ 34 + 2 ^ 80 | none => 0) + (match e.eci with | some c => c.toNat * 2 ^ 81 + 2 ^ 87 | none => 0) +
    (match e.erq with | some r => r.toNat * 2 ^ 88 + 2 ^ 100 | none => 0) + e.bkt.toNat * 2 ^ 104 + e.etick.toNat * 2 ^ 112

/-- The layout of R267. -/
def VRec.encode (v : VRec) : Nat :=
  v.lix.toNat + v.akind.toNat * 2 ^ 46 + v.rqid.toNat * 2 ^ 50 + (match v.ci with | some c => c.toNat * 2 ^ 62 + 2 ^ 68 | none => 0) +
    (match v.ridx with | some r => r.toNat * 2 ^ 69 + 2 ^ 75 | none => 0) + v.cause.toNat * 2 ^ 76 + v.tick.toNat * 2 ^ 80

/-- R483. -/
def errRead (w : BitVec 512) : Body := fun s =>
  match s.errLog with
  | [] => .error .notFound
  | e :: r => ({ s with errLog := r } : State).done w [(2, r.length), (14, 0), (32, e.encode)]

/-- R268. -/
def vlogRead (w : BitVec 512) : Body := fun s =>
  match s.vlog with
  | [] => .error .notFound
  | v :: r => ({ s with vlog := r } : State).done w [(2, r.length), (4, s.vlogLost.toNat), (10, 0), (16, v.encode)]

/-- R481. -/
def errCfg (w : BitVec 512) : Body := fun s =>
  let a := cPar w 0 2
  let b := cPar w 4 4
  if !(between 1 a 255 && between 1250 b 1250000000 && decide (a ≤ b)) then .error .malformed
  else ({ s with params := { s.params with lbThr := a, lbWin := b } } : State).done w

def execProfileApply (w : BitVec 512) (s : State) : Res := mcRow 0x701 w (profileApply w) s
def execProfileStage (w : BitVec 512) (s : State) : Res := mcRow 0x702 w (profileStage w) s
def execProfileCapture (w : BitVec 512) (s : State) : Res := mcRow 0x703 w (profileCapture w) s
def execProfileCommit (w : BitVec 512) (s : State) : Res := mcRow 0x704 w (profileCommit w) s
def execProfileRead (w : BitVec 512) (s : State) : Res := mcRow 0x705 w (profileRead w) s
def execObsTraceCfg (w : BitVec 512) (s : State) : Res := mcRow 0x801 w (obsTraceCfg w) s
def execObsTraceDump (w : BitVec 512) (s : State) : Res := mcRow 0x802 w (obsTraceDump w) s
def execObsCntClear (w : BitVec 512) (s : State) : Res := mcRow 0x803 w (obsCntClear w) s
def execObsSetEvents (w : BitVec 512) (s : State) : Res := mcRow 0x804 w (obsSetEvents w) s
def execErrRead (w : BitVec 512) (s : State) : Res := mcRow 0x901 w (errRead w) s
def execVlogRead (w : BitVec 512) (s : State) : Res := mcRow 0x902 w (vlogRead w) s
def execErrCfg (w : BitVec 512) (s : State) : Res := mcRow 0x903 w (errCfg w) s

end Sys2Proof.Machine
end

