-- ==== Sys2Proof/Machine/Twin.lean ====
section
/-!
DEFINITION. The twin pair (R385 to R412): the link and its negotiation, leases, the Mirror's records, acknowledgements, and the
commands of group 0x6. What the partner answers within a command is an operand (log entry 10).
-/

namespace Sys2Proof.Machine

open Sys2Proof

/-! ### Records -/

def rKind (w : BitVec 256) : BitVec 4 := w.extractLsb' 0 4
def rCi (w : BitVec 256) : Ci := w.extractLsb' 4 6
def rSeq (w : BitVec 256) : BitVec 16 := w.extractLsb' 10 16
def rPepl (w : BitVec 256) : BitVec 8 := w.extractLsb' 26 8
def rLix (w : BitVec 256) : Lix := w.extractLsb' 40 46
def rGid (w : BitVec 256) : BitVec 16 := w.extractLsb' 86 16

/-- `MRULE` (R391, R396): the next record of the instance, with the command packet. -/
def State.mruleRec (s : State) (c : Ci) (cmd : BitVec 512) : State :=
  let i := s.inst c
  let w := BitVec.ofNat 256 (8 + c.toNat * 2 ^ 4 + i.rseq.toNat * 2 ^ 10 + (i.pep.toNat % 256) * 2 ^ 26)
  let s := s.setInst c { i with rseq := i.rseq + 1 }
  if s.tw.linkUp && s.works 83 then s.send mcStop twStop .mgt true (.twinRule w cmd) else s

/-! ### The link (R386, R404, R405, R523) -/

/-- TW takes words from the link: in a pair, ON, its path not retired, `TW_LUP` high. -/
def State.twinIn (s : State) : Bool :=
  s.tw.lup && !s.tw.held && s.strapTwin && s.works 83 && !s.inReset && (match s.halt with | .halted _ => false | _ => true)

/-- What waited for a `MACK` or for the lease goes on: groups and AtomicOps at their commit point, completions, grants (R400, R403). -/
def State.ungate (s : State) (c : Ci) : State :=
  if (s.inst c).lapsed then s
  else
    let open' (s : State) (q : BitVec 16) : Bool := !(s.inst c).twin || (s.inst c).covered q
    let s := [false, true].foldl (fun s e =>
      let s := (s.te e).grps.foldl (fun s g =>
        if g.ci == c && g.st == .gated && (match g.mir with | some q => open' s q | none => true) then s.commit e g else s) s
      (s.te e).runs.foldl (fun s u => match u.gate with
        | some (q, d, o) => if u.req.ci == c && open' s q then s.aopCommit e u (some d) o else s
        | none => s) s) s
    s.slices.foldl (fun s p =>
      let n : Hs := BitVec.ofNat 5 p.1
      p.2.trk.foldl (fun s x =>
        if x.req.ci != c || x.ph != .gate then s
        else match x.cpl with
          | some cp => s.complete n x.id cp
          | none => s.grantLock n x.id) s) s

/-- The lease holds again: packets held back leave in their order (R405). -/
def State.regain (s : State) : State :=
  let cs := (s.insts.filter fun p => p.2.lapsed).map fun p => (BitVec.ofNat 6 p.1 : Ci)
  if cs.isEmpty || !s.tw.linkUp then s
  else
    let l := s.tw.gated
    let s := { s with insts := s.insts.map fun (p : Nat × Inst) => (p.1, { p.2 with lapsed := false }), tw := { s.tw with gated := [] } }
    let s := l.foldl (fun s p => s.send p.2.src p.2.dst p.2.vnet p.2.ord p.2.msg) s
    (cs.foldl State.ungate s).pump

/-- A twin packet arrives: the lease is renewed (R405); whole heartbeat periods without a packet count as missed heartbeats. -/
def State.renew (s : State) : State :=
  let missed := match s.tw.lastPkt with
    | some t => if tickReached s.clk.tick t then (s.clk.tick - t).toNat / max 1 s.params.twHb - 1 else 0
    | none => 0
  ({ s.bumpBy 0xE83 missed with tw := { s.tw with lastPkt := some (s.timer 0) } } : State).regain

/-- The `THELLO` of this engine: its levels, its current level, the `PEP` and role of every instance (R386). -/
def State.hello (s : State) : Out :=
  .twinHello s.mc.clevMin s.mc.clevMax s.tw.plev ((List.range 64).map fun k =>
    let c : Ci := BitVec.ofNat 6 k
    (c, (s.inst c).pep, (s.inst c).role))

/-- `TW_LUP` rises: `THELLO` is sent (R386). -/
def execTwinLinkUp (s : State) : Res :=
  if s.tw.linkUp || s.tw.incompat then stay s
  else
    let s := { s with tw := { s.tw with lup := true } }
    .next (if s.twinIn then (s.twinCause 0).emit s.hello else s)

/-- A low sample of `TW_LUP`, or an uncorrectable inbound word: the link is lost (R523). -/
def execTwLupLow (ue : Bool) (s : State) : Res :=
  let s' := if s.tw.held || !s.works 83 then s else s.twinLost
  .next { s' with tw := { s'.tw with lup := ue && s.tw.lup } }

/-- `THB` (R404). An uncorrectable outbound word is dropped, and the link with it (R529). -/
def execThbSend (err : EccErr) (s : State) : Res :=
  if !s.twinIn || !s.tw.linkUp then stay s
  else
    let s := s.goTo s.tw.nextHb
    let s := { s with tw := { s.tw with nextHb := s.timer s.params.twHb } }
    match err with
    | .ok => .next (s.emit .twinBeat)
    | .corrected => .next ((s.qceAdd 4 1).emit .twinBeat)
    | .uncorrectable | .reserved => .next s.twinLost

/-- An inbound packet renews the lease (R405); `fix`: one of its words was corrected (R529). -/
def execTwinPacket (fix : Bool) (s : State) : Res := if s.twinIn then .next (s.qceAdd 3 (if fix then 1 else 0)).renew else stay s

/-- The lease of every Primary lapses (R405); a Primary without a Mirror has none to lose (log entry 35). -/
def execTwinLeaseLapse (s : State) : Res :=
  match s.tw.lastPkt with
  | none => stay s
  | some t =>
    if !s.strapTwin || s.inReset || !s.insts.any fun p => p.2.twin && !p.2.lapsed then stay s
    else
      let s := s.goTo (t + BitVec.ofNat 48 s.params.twLease)
      .next (({ s with insts := s.insts.map fun (p : Nat × Inst) => if p.2.twin then (p.1, { p.2 with lapsed := true }) else p } : State).twinCause
        3).closeCycle

/-! ### Roles -/

/-- Rime Table lines of the instance leave the rime caches of an engine that becomes its Mirror (R394). -/
def State.uncacheTwin (s : State) (c : Ci) : State :=
  let hit (m : PortDesc) (k : Nat) (r : Region) : Bool :=
    r.kind == .coh && m.table && decide ((r.lo - m.base.toNat * 2 ^ 14) / 256 + m.rtBase.toNat * 64 ≤ k) &&
      decide (k ≤ (r.hi - m.base.toNat * 2 ^ 14) / 256 + m.rtBase.toNat * 64) && decide (m.base.toNat * 2 ^ 14 ≤ r.lo)
  { s with mss := s.mss.map fun (p : Nat × MSt) => (p.1, { p.2 with rcache := p.2.rcache.filter fun e =>
      !(s.ports.any fun m => m.1 % 8 == p.1 && (s.inst c).regions.any fun r => hit m.2 e.1 r.2) }) }

/-- Every directory entry of the instance leaves, without snoops or memory writes. -/
def State.dropEntries (s : State) (c : Ci) : State :=
  { s with slices := s.slices.map fun (p : Nat × Slice) =>
      (p.1, { p.2 with sf := p.2.sf.filter fun e => e.2.ci != c, vb := p.2.vb.filter fun v => v.ent.ci != c }) }

/-- The Mirror Line Store without the lines of an instance. -/
def State.dropStore (s : State) (c : Ci) : State := { s with tw := { s.tw with store := s.tw.store.filter fun l => l.ci != c } }

/-- The role `NONE` (`TWIN_RELEASE`); what a Mirror held of the instance goes. -/
def State.roleNone (s : State) (c : Ci) : State :=
  let s := if (s.inst c).role == TRole.mirror then (s.dropEntries c).dropStore c else s
  s.modInst c fun i => { i with role := .none, exact := false, twr := false, lapsed := false, alone := false, rseq := 0, acked := 0 }

/-- The DST of a request has been returned, or its data is on its way under it: `MEMWR` with it, or `DPULL`, has gone (R20). -/
def State.dstGone (s : State) (n : Hs) (x : Trk) : Bool :=
  let mine (m : Msg) : Bool := match m with
    | .dord _ _ d o _ _ _ => o == .dpull && some d == x.req.dst
    | .mcmd c => c.kind == .memwr && c.dst == x.req.dst && c.lix == x.req.lix
    | _ => false
  let sent := !(s.tw.gated.any fun p => mine p.2.msg) && !((s.slice n).rimeQ.any fun r =>
    (match r.cmd with | some c => mine (.mcmd c) | none => false) && ((s.slice n).rimeQ.find? fun q => q.lix == r.lix) != some r)
  match x.ph with
  | .pull | .merge | .write => x.req.dst.isSome && sent
  | .gate => (match x.cpl with | some c => c.ord == .none | none => false)
  | _ => false

/-- R407: a superseded Primary. Its requests in flight are answered `INST_OFFLINE`, its groups, posted lines and memory commands
are dropped, and BE removes its entries. -/
def State.supersede (s : State) (c : Ci) : State :=
  let gone := s.dstGone
  let s := (s.twinCause 4).modInst c fun i => { i with role := .none, exact := false, twr := false, lapsed := false, alone := false }
  let s := { s with tw := { s.tw with gated := s.tw.gated.filter fun p => p.1 != c } }
  let s := [false, true].foldl (fun s e =>
    let t := s.te e
    let s := s.setTe e { t with grps := t.grps.filter (fun g => g.ci != c), copies := t.copies.filter (fun x => x.ci != c),
                                aopq := t.aopq.filter (fun r => r.ci != c), runs := t.runs.filter (fun u => u.req.ci != c) }
    let s := (t.grps.filter fun g => g.ci == c && g.stamped).foldl (fun s g => s.genDec c g.gen) s
    ((t.aopq ++ t.runs.map fun u => u.req).filter fun r => r.ci == c).foldl (fun s r => s.aopEnd e r .instOffline false 0) s) s
  let rs := (s.inst c).cohRanges
  let mine (l : Lix) : Bool := rs.any fun r => decide (r.1 ≤ l.toNat) && decide (l.toNat ≤ r.2)
  let s := s.slices.foldl (fun s p =>
    let n : Hs := BitVec.ofNat 5 p.1
    let s := p.2.trk.foldl (fun s x =>
      if x.req.ci != c then s
      else match x.req.src, x.lk, x.job with
        | .ps _, none, none =>
          s.emitCpl n x.id { x.mkCpl n (if gone n x then .none else .dfree) .i .instOffline with wbc := if x.resv = .writeback then some x.req.wbc else none }
        | _, _, _ => s.endTrk n x.id) s
    s.modSlice n fun x => { x with plb := x.plb.filter (fun l => l.ci != c), facc := x.facc.filter (fun a => a.ci != c),
                                   rimeQ := x.rimeQ.filter (fun r => !mine r.lix), fwdQ := x.fwdQ.filter (fun r => r.ci != c) }) s
  let s := { s with be := { s.be with ops := s.be.ops.map fun (o : BulkOp) => if o.ci == c && o.q != 64 then
      { o with stopped := true, outst := [], again := [], ended := some (o.ended.getD .aborted) } else o } }
  ((s.later 1 (.inst c .clearing)).queueBulk false .drop407 c 0 sfSteps).pump

/-- What `THELLO` tells of one instance (R405, R407; log entry 35). -/
def State.helloInst (s : State) (p : Ci × BitVec 16 × TRole) : State :=
  let i := s.inst p.1
  if i.role != TRole.primary then s
  else if p.2.1.toNat > i.pep.toNat then s.supersede p.1
  else s.modInst p.1 fun i => { i with alone := !(p.2.2 == TRole.mirror && p.2.1 == i.pep) }

/-- `THELLO` (R386, R407): the pair level, or INCOMPAT; roles superseded. -/
def execThello (cmin cmax _lvl : BitVec 8) (peps : List (Ci × BitVec 16 × TRole)) (s : State) : Res :=
  if !s.twinIn then stay s
  else
    let lev : BitVec 8 := if s.mc.clevMax.toNat ≤ cmax.toNat then s.mc.clevMax else cmax
    let bad := decide (lev.toNat < s.mc.clevMin.toNat) || decide (lev.toNat < cmin.toNat)
    let was := s.tw.incompat
    let s := if !bad && s.tw.plev != lev then s.twinCause 2 else s
    let s := if bad && !was then s.twinCause 1 else s
    let s := { s with tw := { s.tw with linkUp := !bad, incompat := bad, pMin := cmin, pMax := cmax, plev := if bad then s.tw.plev else lev,
                                        nextHb := if s.tw.linkUp then s.tw.nextHb else s.timer s.params.twHb } }
    let s := peps.foldl State.helloInst s
    .next ((s.insts.foldl (fun (s : State) p => s.ungate (BitVec.ofNat 6 p.1)) s.renew).pump)

/-! ### The Mirror applies records (R397) -/

/-- The number and the acknowledgement of a record that has been applied (R395, R397, R411). A record missed ends exactness, and
nothing is acknowledged from then on until `MSYNCE`. -/
def State.took (s : State) (c : Ci) (q : BitVec 16) (sync : Bool) : State :=
  let i := s.inst c
  let gap := q != i.rseq
  let ok := sync || (!gap && i.acked == i.rseq)
  let s := s.setInst c { i with rseq := q + 1, exact := !gap && (sync || i.exact), acked := if ok then q + 1 else i.acked }
  if ok then s.emit (.twinMack c q (i.pep.setWidth 8)) else s

/-- A record reaches its Mirror, or is discarded and counted (R407). -/
def mirRow (kind : BitVec 4) (w : BitVec 256) (f : State → State) (s : State) : Res :=
  if !s.twinIn || !s.tw.linkUp || rKind w != kind then stay s
  else
    let s := s.renew.bump 0xE81
    let i := s.inst (rCi w)
    if i.pep.setWidth 8 != rPepl w || i.role != TRole.mirror then .next (s.bump 0xE82)
    else .next ((f s).took (rCi w) (rSeq w) (kind == 9))

/-- Places a Mirror entry: a reserved way (R392), else the victim buffer. -/
def State.mirPlace (s : State) (n : Hs) (lix : Lix) (e : SfEnt) : State :=
  let set := lineSet lix
  let v : VbEnt := { set := set, ent := e, dep := false, fdel := false, fwr := false, rclr := false, rtrk := false, calve := false }
  let buf := s.modSlice n fun x => { x with vb := x.vb ++ [v] }
  if (s.slice n).waysOf set e.ci ≥ s.sfqOf n e.ci then buf
  else match s.toWay n set e with
    | some (some t) => t
    | _ => buf

/-- A directory record: the entry takes the state given, or leaves (R396). -/
def State.mirDir (s : State) (w : BitVec 256) : State :=
  let lix := rLix w
  let n := s.homeNow (s.home lix) lix
  let st : DSt := match (w.extractLsb' 86 3).toNat with
    | 1 => .shp
    | 2 => .shc
    | 3 => .exo
    | 4 => .psn
    | 6 => .bcs
    | _ => .inv
  let e : SfEnt := { st := st, tag := lineTag lix, ci := rCi w, shr := w.extractLsb' 89 40, age := w.extractLsb' 130 2, f := w.getLsbD 129,
                     fixed := false }
  let gone := st == .inv && !e.f
  match (s.slice n).find lix with
  | some (l, old) =>
    let s := if l.inVb then s.modSlice n fun x => { x with vb := if gone then x.vb.eraseIdx l.k else x.vb.modify l.k fun v => { v with ent := e } }
      else s.modSlice n fun x => { x with sf := if gone then tDel x.sf l.k else tPut x.sf l.k e }
    s.tapDir n lix old.st e l.inVb
  | none => if gone then s else (s.mirPlace n lix e).tapDir n lix .inv e false

/-- The applied line of the store, if any, is replaced. -/
def putLine (l : List MirLine) (x : MirLine) : List MirLine := (l.filter fun y => !(y.ci == x.ci && y.lix == x.lix && y.ended)) ++ [x]

def execMdir (w : BitVec 256) (s : State) : Res := mirRow 1 w (fun s => s.mirDir w) s

def execMline (w : BitVec 256) (d : Line) (s : State) : Res :=
  let y : MirLine := { ci := rCi w, lix := rLix w, gid := none, ended := true, psn := w.getLsbD 86, data := d }
  mirRow 2 w (fun s => { s with tw := { s.tw with store := putLine s.tw.store y } }) s

def execMldone (w : BitVec 256) (s : State) : Res :=
  let done (y : MirLine) : Bool := y.ci == rCi w && y.lix == rLix w && y.ended
  mirRow 3 w (fun s => { s with tw := { s.tw with store := s.tw.store.filter fun y => !done y } }) s

/-- A group's line waits for its `MGEND` (R401). -/
def execMgline (w : BitVec 256) (d : Line) (s : State) : Res :=
  let y : MirLine := { ci := rCi w, lix := rLix w, gid := some (rGid w), ended := false, psn := false, data := d }
  mirRow 4 w (fun s => { s with tw := { s.tw with store := s.tw.store ++ [y] } }) s

/-- The lines of the group are applied together. -/
def execMgend (w : BitVec 256) (s : State) : Res :=
  mirRow 5 w (fun s =>
    let mine (y : MirLine) : Bool := y.ci == rCi w && y.gid == some (rGid w) && !y.ended
    let rest := s.tw.store.filter fun y => !mine y
    { s with tw := { s.tw with store := (s.tw.store.filter mine).foldl (fun l y => putLine l { y with ended := true }) rest } }) s

def execMrot (w : BitVec 256) (s : State) : Res :=
  mirRow 6 w (fun s => s.modInst (rCi w) fun i =>
    { i with rotStart := (w.extractLsb' 86 26).toNat, rotGap := (w.extractLsb' 112 27).toNat }) s

/-- The window stands in the Mirror's home slice for the ticks that remain. -/
def execMhold (w : BitVec 256) (s : State) : Res :=
  mirRow 7 w (fun s =>
    let lix := rLix w
    let c : Cax := w.extractLsb' 86 10
    let h : HoldEnt := { lix := lix, cax := c, expiry := s.timer (w.extractLsb' 96 8).toNat }
    s.modSlice (s.homeNow (s.home lix) lix) fun x =>
      let l := x.hold.filter fun y => !(y.lix == lix && y.cax == c)
      { x with hold := (if l.length < 128 then l else l.drop 1) ++ [h] }) s

def execMsynce (w : BitVec 256) (s : State) : Res := mirRow 9 w (fun s => s.twinCause 7) s

/-! ### Rule changes take their effect (R252, R253, R270, R272) -/

/-- The member vectors of every slice: the agent is in, or out unless a sweep is still to come. -/
def State.joinMember (s : State) (c : Ci) (rq : Rqid) : State :=
  match (s.agent rq).bind fun a => a.cax with
  | some x => s.modInst c fun i => { i with members := insertAsc x i.members }
  | none => s

def State.leaveMember (s : State) (c : Ci) (rq : Rqid) (keep : Bool) : State :=
  match (s.agent rq).bind fun a => a.cax with
  | some x => if keep || (s.memberOf rq).contains c then s else s.modInst c fun i => { i with members := i.members.filter (· != x) }
  | none => s

/-- The new rules of an instance; `RULEG` advances. `sweep`: the agent's bit stays until its sweep has ended. -/
def State.applyRule (s : State) (c : Ci) (op : RuleOp) (sweep : Bool) : State :=
  let s := s.modInst c fun i => { i with ruleg := i.ruleg + 1 }
  match op with
  | .setRegion k r => s.modInst c fun i => { i with regions := tPut i.regions k r }
  | .clearRegion k => s.modInst c fun i => { i with regions := tDel i.regions k }
  | .addIrt e => ({ s with irt := s.irt ++ [e] } : State).joinMember c e.rqid
  | .removeIrt e => ({ s with irt := s.irt.erase e } : State).leaveMember c e.rqid sweep
  | .bind rq g => (s.modAgent rq fun a => { a with bind := some (c, g) }).joinMember c rq
  | .unbind rq => (s.modAgent rq fun a => { a with bind := none }).leaveMember c rq sweep
  | .iwMask m => s.modInst c fun i => { i with iwAmask := m }

/-- What a forwarded command writes on the Mirror. -/
def State.mirRule (s : State) (c : Ci) (w : BitVec 512) : Option RuleOp :=
  let o := cOp w
  let k := cPar w 0 1
  if o = 0x108 then some (.addIrt (cIrt w))
  else if o = 0x109 then (s.irtFind (cIrt w)).map .removeIrt
  else if o = 0x10A then some (.iwMask (BitVec.ofNat 16 (cPar w 0 2)))
  else if o = 0x201 then some (.setRegion k (cEntry w))
  else if o = 0x202 then some (.clearRegion k)
  else if o = 0x203 then (tGet (s.inst c).regions k).map fun r =>
    .setRegion k { r with lhrq := BitVec.ofNat 12 (cPar w 2 2), lhv := cPar w 4 1 == 1 }
  else if o = 0x303 then some (.bind (cRq w) (BitVec.ofNat 4 (cPar w 2 1)))
  else if o = 0x304 then some (.unbind (cRq w))
  else none

/-- `MRULE` (R391). A change of roles that the partner makes comes in the same form (log entry 36). -/
def execMrule (w : BitVec 256) (cmd : BitVec 512) (s : State) : Res :=
  let c := rCi w
  let o := cOp cmd
  if !s.twinIn || !s.tw.linkUp || rKind w != 8 then stay s
  else
    let s := s.renew.bump 0xE81
    let i := s.inst c
    if o = 0x601 then
      if i.st != .idle || i.role == TRole.primary then .next (s.bump 0xE82)
      else
        let s := s.setInst c { i with role := .mirror, strict := cPar cmd 0 1 == 0, pep := 1, exact := false, twr := false, lapsed := false,
                                      alone := false, rseq := rSeq w + 1, acked := rSeq w + 1 }
        .next ((s.uncacheTwin c).emit (.twinMack c (rSeq w) 1))
    else if i.pep.setWidth 8 != rPepl w then .next (s.bump 0xE82)
    else if o = 0x602 then .next (s.roleNone c)
    else if i.role != TRole.mirror then .next (s.bump 0xE82)
    else if o = 0x603 then
      let s := (s.setInst c { i with role := .primary, pep := i.pep + 1, rseq := 0, acked := 0, lapsed := false, alone := false, twr := false }).dropStore c
      .next ((s.twinCause 6).later 1 (.inst c .active))
    else
      .next ((match s.mirRule c cmd with
        | some op => s.applyRule c op false
        | none => s).took c (rSeq w) false)

/-! ### Handover (R408) -/

/-- Steps 2 to 4, once the instance is QUIESCED and every record is acknowledged: this engine becomes the Mirror. -/
def State.handoverGo (s : State) (c : Ci) : State :=
  let i := s.inst c
  match s.mc.longs.find? fun l => l.job == .twin 0x603 && cCi l.cmd == c with
  | none => s
  | some l =>
    if i.st != .quiesced || i.acked != i.rseq || i.role != TRole.primary then s
    else
      let s := s.mruleRec c l.cmd
      let s := s.modInst c fun i => { i with role := .mirror, pep := i.pep + 1, exact := true, rseq := 0, acked := 0 }
      (((s.uncacheTwin c).twinCause 6).later 1 (.inst c .idle)).finish l.cmd .done

/-- `MACK` (R397, R400, R403, R407, R408). -/
def execMack (ci : Ci) (rseq : BitVec 16) (pepl : BitVec 8) (s : State) : Res :=
  if !s.twinIn || !s.tw.linkUp then stay s
  else
    let s := s.renew
    let i := s.inst ci
    if i.pep.setWidth 8 != pepl || i.role != TRole.primary then .next (s.bump 0xE82)
    else
      let n := rseq + 1
      let s := if (n - i.acked).toNat < 2 ^ 15 then s.setInst ci { i with acked := n } else s
      .next (((s.ungate ci).handoverGo ci).pump)

/-! ### Group 0x6 -/

/-- What the digest of R389 covers. -/
def Inst.digest (i : Inst) : BitVec 32 :=
  Config.twinDigest ([b2n i.mode 0, i.firnBase.toNat, i.firnLog2, i.firnMpid.toNat, i.sfq, i.plbQ] ++
    i.regions.flatMap (fun r => [r.1, r.2.encode]) ++ i.members.map fun c => c.toNat)

/-- R388, R389, R392. -/
def twinRole (w : BitVec 512) (peerIdle : Bool) (peerDigest : BitVec 32) : Body := fun s =>
  let c := cCi w
  let i := s.inst c
  if cPar w 0 1 > 1 then .error .malformed
  else if i.st != .idle || i.role == TRole.mirror || !peerIdle || !s.tw.linkUp then .error .badState
  else if s.twinSfq c + i.sfq > 16 then .error .noResource
  else if i.digest != peerDigest then .error .twinMismatch
  else
    let s := s.startLong w .wait 0
    let s := s.setInst c { i with role := .primary, strict := cPar w 0 1 == 0, pep := 1, exact := false, twr := false, lapsed := false,
                                  alone := false, rseq := 0, acked := 0 }
    .ok ((s.mruleRec c w).finish w .done)

def twinRelease (w : BitVec 512) (peerIdle : Bool) : Body := fun s =>
  let c := cCi w
  let i := s.inst c
  if i.st != .idle || !peerIdle || (i.role != TRole.none && !s.tw.linkUp) then .error .badState
  else ((if i.role == TRole.none then s else s.mruleRec c w).roleNone c).done w

/-- R408 step 1. -/
def twinHandover (w : BitVec 512) : Body := fun s =>
  let i := s.inst (cCi w)
  if !i.twin || i.st != .active || i.lapsed || !s.tw.linkUp then .error .badState
  else .ok ((s.startLong w (.twin 0x603) 0).startQuiesce (cCi w) false)

/-- No twin packet for two lease times (R409). -/
def State.silent (s : State) : Bool :=
  match s.tw.lastPkt with
  | some t => tickReached s.clk.tick (t + BitVec.ofNat 48 (2 * s.params.twLease))
  | none => true

/-- R409 step 2: the lines of the store are posted, or written; those of a group without its `MGEND` are discarded (R401). -/
def State.takeLines (s : State) (c : Ci) : State :=
  let l := s.tw.store.filter fun y => y.ci == c && y.ended
  l.foldl (fun s y =>
    let n := s.homeNow (s.home y.lix) y.lix
    let m := s.portOf y.lix
    if s.plbFree n c then s.postLine n none c y.lix m y.data y.psn none false []
    else s.memCmd n c { mkCmd n .memwr m y.lix (.plbWr (s.slice n).seq) with data := y.data, wpsn := y.psn }) (s.dropStore c)

/-- R409, R410. -/
def twinTakeover (w : BitVec 512) : Body := fun s =>
  let c := cCi w
  let i := s.inst c
  if i.role != TRole.mirror || !(s.silent || cFlag w 3) then .error .badState
  else
    let exact := i.strict && i.exact
    let rs := i.cohRanges
    let s := s.startLong w (.twin 0x604) (if exact then 0 else s.stepsOf .zfillFirn c + s.stepsOf .walk c)
    let s := (s.modInst c fun i => { i with pep := i.pep + 1, role := .primary, alone := true, lapsed := false, rseq := 0, acked := 0 }).takeLines c
    if exact then .ok (((s.later 1 (.inst c .active)).twinCause 5).finish w .done)
    else
      let s := (s.dropEntries c).modInst c fun i => { i with twr := true, trp := (rangesAt rs 0).getD (2 ^ 46) }
      .ok ((s.later 1 (.inst c .active)).queueBulk false .zfillFirn c w)

/-- R412. -/
def twinResync (w : BitVec 512) : Body := fun s =>
  let c := cCi w
  if !(s.inst c).twin || !s.tw.linkUp then .error .badState
  else .ok ((s.startLong w (.twin 0x605) sfSteps).queueBulk true .resync c w sfSteps)

/-- R387. -/
def twinLevelRaise (w : BitVec 512) : Body := fun s =>
  let n := s.tw.plev.toNat + 1
  if !s.tw.linkUp || n > s.mc.clevMax.toNat || n > s.tw.pMax.toNat then .error .badState
  else (({ s with tw := { s.tw with plev := BitVec.ofNat 8 n } } : State).twinCause 2).done w [(1, n)]

/-- R404. -/
def twinCfg (w : BitVec 512) : Body := fun s =>
  let hb := cPar w 0 2
  let le := cPar w 4 4
  if !(between 16 hb 65535 && between 1250 le 1250000 && decide (8 * hb ≤ le)) then .error .malformed
  else ({ s with params := { s.params with twHb := hb, twLease := le } } : State).done w

def twinStatus (w : BitVec 512) : Body := fun s =>
  let i := if (cCi8 w).toNat < 64 then s.inst (cCi w) else Inst.reset
  s.done w [(1, if s.tw.incompat then 2 else if s.tw.linkUp then 1 else 0), (1, s.tw.plev.toNat), (1, TRole.code i.role), (1, b2n (!i.strict) 0),
    (2, i.pep.toNat), (1, b2n i.exact 0), (1, b2n i.twr 0), (2, if i.role == TRole.primary then (i.rseq - i.acked).toNat else 0)]

def execTwinRole (w : BitVec 512) (peerIdle : Bool) (peerDigest : BitVec 32) (s : State) : Res := mcRow 0x601 w (twinRole w peerIdle peerDigest) s
def execTwinRelease (w : BitVec 512) (peerIdle : Bool) (s : State) : Res := mcRow 0x602 w (twinRelease w peerIdle) s
def execTwinHandover (w : BitVec 512) (s : State) : Res := mcRow 0x603 w (twinHandover w) s
def execTwinTakeover (w : BitVec 512) (s : State) : Res := mcRow 0x604 w (twinTakeover w) s
def execTwinResync (w : BitVec 512) (s : State) : Res := mcRow 0x605 w (twinResync w) s
def execTwinLevelRaise (w : BitVec 512) (s : State) : Res := mcRow 0x606 w (twinLevelRaise w) s
def execTwinCfg (w : BitVec 512) (s : State) : Res := mcRow 0x607 w (twinCfg w) s
def execTwinStatus (w : BitVec 512) (s : State) : Res := mcRow 0x608 w (twinStatus w) s

end Sys2Proof.Machine
end

