-- ==== Sys2Proof/Machine/Ring.lean ====
section
/-!
DEFINITION. The Command and Reply Rings as the switch side and the MC use them (R453 to R458, R462, R529), and what ends a command
that waits: rule changes (R272), quiesces (R283), clears (R286) and the ends of bulk operations (R285, R306, R410, R463, R490).
-/

namespace Sys2Proof.Machine

open Sys2Proof

/-! ### The rings -/

/-- Bodies of group 0x0. -/
def mcBody0 (w : BitVec 512) : Option Body :=
  match cOp w with
  | 0x001 => some (bootStatus w)
  | 0x002 => some (imgBegin w)
  | 0x003 => some (imgData w)
  | 0x004 => some (imgEnd w)
  | 0x005 => some (bootStart w)
  | 0x006 => some (cmdProgress w)
  | _ => none

/-- Bodies of group 0x1. -/
def mcBody1 (w : BitVec 512) : Option Body :=
  match cOp w with
  | 0x101 => some (instCreate w)
  | 0x102 => some (instEnable w)
  | 0x103 => some (instQuiesce w)
  | 0x104 => some (instReset w)
  | 0x105 => some (instRemove w)
  | 0x106 => some (instQuota w)
  | 0x107 => some (instStatus w)
  | 0x108 => some (irtAdd w)
  | 0x109 => some (irtRemove w)
  | 0x10A => some (iwMask w)
  | _ => none

/-- Bodies of group 0x2. -/
def mcBody2 (w : BitVec 512) : Option Body :=
  match cOp w with
  | 0x201 => some (regionSet w)
  | 0x202 => some (regionClear w)
  | 0x203 => some (leasePass w)
  | 0x204 => some (regionRead w)
  | 0x210 => some (portSet w)
  | 0x211 => some (portRead w)
  | _ => none

/-- Bodies of group 0x3. -/
def mcBody3 (w : BitVec 512) : Option Body :=
  match cOp w with
  | 0x301 => some (agentAdd w)
  | 0x302 => some (agentRemove w)
  | 0x303 => some (agentBind w)
  | 0x304 => some (agentUnbind w)
  | 0x305 => some (agentDisable w)
  | 0x306 => some (agentEnable w)
  | 0x307 => some (agentReadmit w)
  | 0x308 => some (agentRead w)
  | 0x309 => some (agentGrace w)
  | 0x30A => some (snoopCfg w)
  | 0x30B => some (calRead w)
  | 0x30C => some (calReset w)
  | _ => none

/-- Bodies of group 0x4. -/
def mcBody4 (w : BitVec 512) (peerSlices : Nat) : Option Body :=
  match cOp w with
  | 0x401 => some (pdFreeze w)
  | 0x402 => some (pdThaw w)
  | 0x403 => some (pdStatus w)
  | 0x404 => some (enginePark w)
  | 0x405 => some (engineUnpark w)
  | 0x406 => some (sliceFold w peerSlices)
  | 0x407 => some (pwrCfg w)
  | 0x408 => some (meshFence w)
  | 0x409 => some (meshCfg w)
  | _ => none

/-- Bodies of group 0x5. -/
def mcBody5 (w : BitVec 512) : Option Body :=
  match cOp w with
  | 0x501 => some (arbTickets w)
  | 0x502 => some (arbSystkt w)
  | 0x503 => some (arbSeed w)
  | 0x504 => some (arbMode w)
  | 0x505 => some (arbPreempt w)
  | 0x506 => some (arbHoldmax w)
  | 0x507 => some (engDisable w)
  | 0x508 => some (engEnable w)
  | 0x509 => some (arbStatus w)
  | 0x50A => some (firnRotate w)
  | 0x50B => some (firnRebuild w)
  | 0x50C => some (churnCfg w)
  | 0x50D => some (sfRebuild w)
  | _ => none

/-- Bodies of group 0x6. -/
def mcBody6 (w : BitVec 512) (peerIdle : Bool) (peerDigest : BitVec 32) : Option Body :=
  match cOp w with
  | 0x601 => some (twinRole w peerIdle peerDigest)
  | 0x602 => some (twinRelease w peerIdle)
  | 0x603 => some (twinHandover w)
  | 0x604 => some (twinTakeover w)
  | 0x605 => some (twinResync w)
  | 0x606 => some (twinLevelRaise w)
  | 0x607 => some (twinCfg w)
  | 0x608 => some (twinStatus w)
  | _ => none

/-- Bodies of group 0x7. -/
def mcBody7 (w : BitVec 512) : Option Body :=
  match cOp w with
  | 0x701 => some (profileApply w)
  | 0x702 => some (profileStage w)
  | 0x703 => some (profileCapture w)
  | 0x704 => some (profileCommit w)
  | 0x705 => some (profileRead w)
  | _ => none

/-- Bodies of group 0x8. -/
def mcBody8 (w : BitVec 512) : Option Body :=
  match cOp w with
  | 0x801 => some (obsTraceCfg w)
  | 0x802 => some (obsTraceDump w)
  | 0x803 => some (obsCntClear w)
  | 0x804 => some (obsSetEvents w)
  | _ => none

/-- Bodies of group 0x9. -/
def mcBody9 (w : BitVec 512) : Option Body :=
  match cOp w with
  | 0x901 => some (errRead w)
  | 0x902 => some (vlogRead w)
  | 0x903 => some (errCfg w)
  | _ => none

/-- The body of the command in a packet; the operands are what the partner answers, for the twin's and the fold's commands. -/
def mcBody (w : BitVec 512) (peerIdle : Bool) (peerDigest : BitVec 32) (peerSlices : Nat) : Option Body :=
  match cOp w / 256 with
  | 0 => mcBody0 w
  | 1 => mcBody1 w
  | 2 => mcBody2 w
  | 3 => mcBody3 w
  | 4 => mcBody4 w peerSlices
  | 5 => mcBody5 w
  | 6 => mcBody6 w peerIdle peerDigest
  | 7 => mcBody7 w
  | 8 => mcBody8 w
  | 9 => mcBody9 w
  | _ => none

/-- The switch side writes a slot; with the ring full the word is lost (R453, R527).
`fixes` of its words are found with an error that is corrected (R529). -/
def execCommandSlotWrite (w : BitVec 512) (fixes : Nat) (s : State) : Res :=
  let m := s.mc
  if s.inReset then stay s
  else if (m.crProd - m.crRel).toNat ≥ 256 then execQueueOverrun .cmdRing s
  else .next (({ s with mc := { m with crSlots := tPut m.crSlots m.crProd.toNat w, crProd := m.crProd + 1 } } : State).qceAdd 0 fixes)

/-- The first deferred command, in ring order, whose wait is over (R457, R458). -/
def State.dueDeferred (s : State) : Option (Nat × BitVec 512) :=
  (s.mc.crDefer.filterMap fun i => (tGet s.mc.crSlots i).map fun w => (i, w)).find? fun p => !s.mustDefer p.1 p.2

/-- The MC rewinds to its mark and serves a deferred command (R455, R457). -/
def execDeferredCommandReread (peerIdle : Bool) (peerDigest : BitVec 32) (peerSlices : Nat) (s : State) : Res :=
  if !s.mayRead then stay s
  else match s.dueDeferred with
    | none => stay s
    | some (i, w) =>
      match opRow (cOp w), mcBody w peerIdle peerDigest peerSlices with
      | some r, some b => .next ((s.execCmd w r b).slotDone i).ringSettle
      | _, _ => stay s

/-- The switch side takes `n` replies out of the ring; the MC may then read on (R456). `fixes` of their words are corrected, and
`ue`: one leaves with the error marker (R529). -/
def execReplyRingRoom (n fixes : Nat) (ue : Bool) (s : State) : Res :=
  if n > s.mc.replies.length then stay s
  else
    let s := { s with mc := { s.mc with replies := s.mc.replies.drop n, rrRp := s.mc.rrRp + BitVec.ofNat 12 (8 * n) } }
    .next ((if ue then s.ringErrBit 4 else s).qceAdd 1 fixes)

/-- The MC reads a packet that no row of the tables serves (R462): an unknown format, a failed check sum, an undefined opcode, or
(`ue`) an uncorrectable word, whose header then reads zero (R529). -/
def execUnknownOpCommand (w : BitVec 512) (ue : Bool) (s : State) : Res :=
  let bad := (cFmt w != 1 && cFmt w != 2) || (cFmt w == 2 && w.extractLsb' 64 32 != crcPar w) || (opRow (cOp w)).isNone
  if !ue && !bad then stay s
  else match s.readSlot w with
    | none => stay s
    | some (i, s) =>
      if ue then .next (((s.ringErrBit 2).refuseCmd w .crcErr).slotDone i).ringSettle
      else .next (s.serve i w fun _ => .error .unknownOp).ringSettle

/-! ### Rule changes (R272 to R277) -/

/-- Phase 0 of t+1: the shadow rules become current, `RULEG` advances, and a Primary forwards the command to its Mirror (R272, R391). -/
def execRuleGenerationSwitch (ci : Ci) (s : State) : Res :=
  match (s.inst ci).rule with
  | none => stay s
  | some r =>
    if r.switched then stay s
    else
      let s := s.goTo (s.clk.tick + 1)
      let q := (s.inst ci).rseq
      let twin := (s.inst ci).twin
      let s := s.applyRule ci r.op (match r.rcl with | .agent _ => true | _ => false)
      let s := if twin then s.mruleRec ci r.cmd else s
      .next (s.modInst ci fun i => { i with rule := some { r with switched := true, mrule := if twin then some q else none } })

/-- The Mirror has applied the change, where there is one (R391). -/
def State.mirrored (s : State) (ci : Ci) (r : RuleChg) : Bool :=
  match r.mrule with
  | none => true
  | some q => !(s.inst ci).twin || (s.inst ci).covered q

/-- The change is over: its final reply. -/
def State.ruleEnd (s : State) (ci : Ci) (w : BitVec 512) (st : Status) : State := (s.modInst ci fun i => { i with rule := none }).finish w st

/-- The bulk work that step 5 still requires begins; with none left the change ends once the Mirror has it. -/
def State.ruleGo (s : State) (ci : Ci) (r : RuleChg) : State :=
  let put (rcl : Recall) (run : Bool) : State := s.modInst ci fun i => { i with rule := some { r with rcl := rcl, running := run } }
  match r.rcl with
  | .nothing => if s.mirrored ci r then s.ruleEnd ci r.cmd .done else put .nothing false
  | .range lo hi _ _ _ => (put r.rcl true).queueBulk false (.region lo hi) ci r.cmd
  | .zero lo hi k => (put r.rcl true).queueBulk false (.zfillCoh lo hi k) ci r.cmd
  | .agent c => (put r.rcl true).queueBulk false (.agentRecall c) ci r.cmd

/-- Steps 4 and 5 of R272. -/
def execRuleChangeDrain (ci : Ci) (s : State) : Res :=
  let i := s.inst ci
  match i.rule with
  | none => stay s
  | some r => if !r.switched || r.running || (if r.gen.getLsbD 0 then i.genOdd else i.genEven) != 0 then stay s else .next (s.ruleGo ci r)

/-- An operation of a rule change has ended: the next one, or the end. -/
def State.ruleNext (s : State) (ci : Ci) (w : BitVec 512) (st : Status) : State :=
  match (s.inst ci).rule with
  | none => s.finish w st
  | some r =>
    if st != .done then s.ruleEnd ci w st
    else match r.rcl with
      | .range _ _ lo2 hi2 zf =>
        s.ruleGo ci { r with rcl := if lo2 ≤ hi2 then .range lo2 hi2 1 0 zf else match zf with | some (a, b, k) => .zero a b k | none => .nothing }
      | .agent c => (s.modInst ci fun i => { i with members := i.members.filter (· != c) }).ruleGo ci { r with rcl := .nothing }
      | _ => s.ruleGo ci { r with rcl := .nothing }

/-! ### Quiesce and clear (R283 to R287) -/

/-- The operation belongs to the instance. -/
def BulkOp.ofInst (o : BulkOp) (c : Ci) : Bool :=
  o.ci == c && (match o.kind with | .zfillRt _ | .fold | .sfRebuild _ | .agentLoss _ _ _ => false | _ => true)

/-- Every unit reports the instance idle (R283 step 5, R284). -/
def State.instIdle (s : State) (c : Ci) : Bool :=
  (s.pss.all fun p => p.2.msgs.all fun m => m.req.ci != c) &&
  ([false, true].all fun e =>
    let t := s.te e
    (t.grps.all fun g => g.ci != c) && (t.runs.all fun u => u.req.ci != c) && (t.aopq.all fun r => r.ci != c) &&
      t.copies.all fun x => x.ci != c || (x.slots.length == x.asked && decide (x.limit ((s.inst c).gq e) ≤ x.asked))) &&
  (s.be.ops.all fun o => !o.ofInst c) &&
  s.slices.all fun p => (p.2.trk.all fun t => t.req.ci != c) && p.2.plb.all fun l => l.ci != c

/-- QUIESCED: the command that asked for it ends, or goes on (R283 step 6, R286, R408). -/
def State.quiesced (s : State) (c : Ci) : State :=
  let s := s.toPhase0.instTo c .quiesced
  (s.mc.longs.filter fun l => cCi l.cmd == c).foldl (fun s l => match l.job with
    | .quiesce => s.finish l.cmd .done
    | .clear r 0 zf ab => s.beginClear c l.cmd r zf ab
    | .twin _ => s.handoverGo c
    | _ => s) s

def execQuiesceIdle (ci : Ci) (s : State) : Res :=
  let st := (s.inst ci).st
  if (st != .draining && st != .aborting) || !s.instIdle ci then stay s else .next (s.quiesced ci)

/-- Counters of the sets that an instance holds. -/
def Inst.counts (i : Inst) (k : Nat) : Bool := i.csets.any fun j => decide (32 * j ≤ k) && decide (k < 32 * j + 32)

/-- A queue after a clear: disabled, its indices and error bits zero (R286 step 4). -/
def GQueue.clear (q : GQueue) : GQueue :=
  { GQueue.reset with dqBase := q.dqBase, dqSize := q.dqSize, dqMpid := q.dqMpid, sqBase := q.sqBase, sqSize := q.sqSize, sqMpid := q.sqMpid }

/-- R286 step 4. -/
def State.clearRest (s : State) (c : Ci) : State :=
  let i := s.inst c
  let s := { s with obs := { s.obs with cnt := s.obs.cnt.filter fun p => !i.counts p.1, pre := s.obs.pre.filter fun p => !i.counts p.1,
                                        incs := s.obs.incs.filter fun p => !i.counts p.1 } }
  let s := [false, true].foldl (fun s e => s.modTe e fun t => { t with copies := t.copies.filter fun x => x.ci != c }) s
  s.modInst c fun i => { i with viol := 0, q0 := i.q0.clear, q1 := i.q1.clear }

/-- `INST_REMOVE` returns what the instance drew and forgets its rules (R286). -/
def State.releaseInst (s : State) (c : Ci) : State :=
  let s := { s with irt := s.irt.filter (fun e => e.ci != c),
                    agents := s.agents.map fun (p : Nat × Agent) =>
                      if p.2.bind.any fun (b : Ci × BitVec 4) => b.1 == c then (p.1, ({ p.2 with bind := none } : Agent)) else p }
  s.modInst c fun i => { i with nreg := 0, rents := [], csets := [], evts := [], firnLog2 := 0, regions := [], members := [],
                                tkt0 := 0, tkt1 := 0, tktB := 0 }

/-- The stage that follows a finished stage of a clear; after the last, IDLE or FREE at the next phase 0. -/
def State.clearNext (s : State) (c : Ci) (w : BitVec 512) (remove zf abort : Bool) (step : Nat) : State :=
  if step = 1 then (s.setJob w (.clear remove 2 zf abort)).queueBulk false .zfillFirn c w
  else match (s.clearRanges c zf)[step - 2]? with
    | some r => (s.setJob w (.clear remove (step + 1) zf abort)).queueBulk false (.zfillCoh r.1 r.2 .coh) c w
    | none =>
      let s := (s.clearRest c).goTo (s.clk.tick + 1)
      let s := if remove then s.releaseInst c else s
      (s.instTo c (if remove then .free else .idle)).finish w .done

/-! ### The end of a bulk operation -/

/-- Marks older than a rebuild that has ended are dropped (R490). -/
def State.dropSusp (s : State) (t0 : Tick) : State :=
  { s with slices := s.slices.map fun (p : Nat × Slice) => (p.1, { p.2 with
      susp := p.2.susp.filter (fun m => tickReached m.2 t0), suspOver := p.2.suspOver.filter fun m => tickReached m t0 }) }

/-- The firn of an instance is suspect no longer (R98). -/
def State.dropSuspF (s : State) (c : Ci) : State :=
  { s with slices := s.slices.map fun (p : Nat × Slice) =>
      (p.1, { p.2 with suspF := p.2.suspF.filter (fun m => m.1 != c), suspFAll := p.2.suspFAll.filter (· != c) }) }

def State.rtDone (s : State) (m : Mpid) : State :=
  match tGet s.ports m.toNat with
  | some p => { s with ports := tPut s.ports m.toNat { p with rtReady := true } }
  | none => s

/-- What an operation that has run to its end leaves. -/
def State.opEffect (s : State) (o : BulkOp) : State :=
  match o.kind with
  | .zfillRt m => s.rtDone m
  | .sfRebuild t0 => s.dropSusp t0
  | .firnRebuild => s.dropSuspF o.ci
  | .walk => (s.modInst o.ci fun i => { i with twr := false, trp := 0 }).twinCause 5
  | .resync => ((if (s.inst o.ci).twin then s.twinRec beStop o.ci 9 0 0 else s)).twinCause 7
  | .drop407 => (s.goTo (s.clk.tick + 1)).instTo o.ci .idle
  | _ => s

/-- The command that an operation served goes on, or ends (R285, R306, R463, R465). -/
def State.opServed (s : State) (o : BulkOp) (st : Status) (l : LongCmd) : State :=
  let w := l.cmd
  let c := o.ci
  match l.job with
  | .rule => s.ruleNext c w st
  | .create =>
    let i := s.inst c
    if st = .done then s.finish w .done 3 (pack [(2, i.rents.headD 0), (1, i.csets.headD 0xFF)]) else s.finish w st
  | .clear r k zf ab => if st = .done then s.clearNext c w r zf ab k else (s.later 1 (.inst c .quiesced)).finish w st
  | .agentDisable rq left _ => if st = .done then s.disableNext w rq left else s.finish w st
  | .twin _ =>
    if st = .done && o.kind == .zfillFirn then s.queueBulk false .walk c w else s.finish w st
  | .fold _ => ({ s with fold := none } : State).finish w st
  | _ => s.finish w st

/-- A bulk operation has ended; the next of its queue may begin. -/
def execBulkOperationEnd (q : Nat) (s : State) : Res :=
  match s.be.ops.find? fun o => o.q == q && s.opDone o && !(o.kind == .fold && o.ended.isNone) with
  | none => stay s
  | some o =>
    let st := o.ended.getD .done
    let add (l : LongCmd) : LongCmd := if l.cmd == o.cmd then { l with done := l.done + o.done } else l
    let s := { s with be := { s.be with ops := s.be.ops.erase o }, mc := { s.mc with longs := s.mc.longs.map add } }
    let s := if st = .done then s.opEffect o else s
    let s := match s.mc.longs.find? fun l => l.cmd == o.cmd with
      | some l => s.opServed o st l
      | none => if o.kind == BKind.fold then { s with fold := none } else s
    .next s.engEnds.pump

end Sys2Proof.Machine
end

