-- ==== Sys2Proof/Machine/Dispatch.lean ====
section
/-!
DEFINITION. One arm for each command of spec/opcode_table.json: a direct call of its meaning.
-/

namespace Sys2Proof.Machine

open Sys2Proof

def exec (i : Instr) (s : State) : Host.Outcome State Fault Refusal :=
  match i with
  | .coldRstAssert => Sys2Proof.Machine.execColdRstAssert s
  | .coldRstRelease prof twin => Sys2Proof.Machine.execColdRstRelease prof twin s
  | .romWaitEntry => Sys2Proof.Machine.execRomWaitEntry s
  | .warmRstLow => Sys2Proof.Machine.execWarmRstLow s
  | .warmResetEffect => Sys2Proof.Machine.execWarmResetEffect s
  | .warmRstRelease prof twin => Sys2Proof.Machine.execWarmRstRelease prof twin s
  | .imgVerifyEnd => Sys2Proof.Machine.execImgVerifyEnd s
  | .autordyEntry => Sys2Proof.Machine.execAutordyEntry s
  | .readyAssert => Sys2Proof.Machine.execReadyAssert s
  | .mcWatchdogExpiry => Sys2Proof.Machine.execMcWatchdogExpiry s
  | .haltPostedLinePoison => Sys2Proof.Machine.execHaltPostedLinePoison s
  | .blockHalt => Sys2Proof.Machine.execBlockHalt s
  | .commandSlotWrite w fixes => Sys2Proof.Machine.execCommandSlotWrite w fixes s
  | .queueOverrun q => Sys2Proof.Machine.execQueueOverrun q s
  | .deferredCommandReread peerIdle peerDigest peerSlices => Sys2Proof.Machine.execDeferredCommandReread peerIdle peerDigest peerSlices s
  | .replyRingRoom n fixes ue => Sys2Proof.Machine.execReplyRingRoom n fixes ue s
  | .bootStatus w => Sys2Proof.Machine.execBootStatus w s
  | .imgBegin w => Sys2Proof.Machine.execImgBegin w s
  | .imgData w => Sys2Proof.Machine.execImgData w s
  | .imgEnd w => Sys2Proof.Machine.execImgEnd w s
  | .bootStart w => Sys2Proof.Machine.execBootStart w s
  | .cmdProgress w => Sys2Proof.Machine.execCmdProgress w s
  | .instCreate w => Sys2Proof.Machine.execInstCreate w s
  | .instEnable w => Sys2Proof.Machine.execInstEnable w s
  | .instQuiesce w => Sys2Proof.Machine.execInstQuiesce w s
  | .instReset w => Sys2Proof.Machine.execInstReset w s
  | .instRemove w => Sys2Proof.Machine.execInstRemove w s
  | .instQuota w => Sys2Proof.Machine.execInstQuota w s
  | .instStatus w => Sys2Proof.Machine.execInstStatus w s
  | .irtAdd w => Sys2Proof.Machine.execIrtAdd w s
  | .irtRemove w => Sys2Proof.Machine.execIrtRemove w s
  | .iwMask w => Sys2Proof.Machine.execIwMask w s
  | .regionSet w => Sys2Proof.Machine.execRegionSet w s
  | .regionClear w => Sys2Proof.Machine.execRegionClear w s
  | .leasePass w => Sys2Proof.Machine.execLeasePass w s
  | .regionRead w => Sys2Proof.Machine.execRegionRead w s
  | .portSet w => Sys2Proof.Machine.execPortSet w s
  | .portRead w => Sys2Proof.Machine.execPortRead w s
  | .agentAdd w => Sys2Proof.Machine.execAgentAdd w s
  | .agentRemove w => Sys2Proof.Machine.execAgentRemove w s
  | .agentBind w => Sys2Proof.Machine.execAgentBind w s
  | .agentUnbind w => Sys2Proof.Machine.execAgentUnbind w s
  | .agentDisable w => Sys2Proof.Machine.execAgentDisable w s
  | .agentEnable w => Sys2Proof.Machine.execAgentEnable w s
  | .agentReadmit w => Sys2Proof.Machine.execAgentReadmit w s
  | .agentRead w => Sys2Proof.Machine.execAgentRead w s
  | .agentGrace w => Sys2Proof.Machine.execAgentGrace w s
  | .snoopCfg w => Sys2Proof.Machine.execSnoopCfg w s
  | .calRead w => Sys2Proof.Machine.execCalRead w s
  | .calReset w => Sys2Proof.Machine.execCalReset w s
  | .pdFreeze w => Sys2Proof.Machine.execPdFreeze w s
  | .pdThaw w => Sys2Proof.Machine.execPdThaw w s
  | .pdStatus w => Sys2Proof.Machine.execPdStatus w s
  | .enginePark w => Sys2Proof.Machine.execEnginePark w s
  | .engineUnpark w => Sys2Proof.Machine.execEngineUnpark w s
  | .sliceFold w peerSlices => Sys2Proof.Machine.execSliceFold w peerSlices s
  | .pwrCfg w => Sys2Proof.Machine.execPwrCfg w s
  | .meshFence w => Sys2Proof.Machine.execMeshFence w s
  | .meshCfg w => Sys2Proof.Machine.execMeshCfg w s
  | .arbTickets w => Sys2Proof.Machine.execArbTickets w s
  | .arbSystkt w => Sys2Proof.Machine.execArbSystkt w s
  | .arbSeed w => Sys2Proof.Machine.execArbSeed w s
  | .arbMode w => Sys2Proof.Machine.execArbMode w s
  | .arbPreempt w => Sys2Proof.Machine.execArbPreempt w s
  | .arbHoldmax w => Sys2Proof.Machine.execArbHoldmax w s
  | .engDisable w => Sys2Proof.Machine.execEngDisable w s
  | .engEnable w => Sys2Proof.Machine.execEngEnable w s
  | .arbStatus w => Sys2Proof.Machine.execArbStatus w s
  | .firnRotate w => Sys2Proof.Machine.execFirnRotate w s
  | .firnRebuild w => Sys2Proof.Machine.execFirnRebuild w s
  | .churnCfg w => Sys2Proof.Machine.execChurnCfg w s
  | .sfRebuild w => Sys2Proof.Machine.execSfRebuild w s
  | .twinRole w peerIdle peerDigest => Sys2Proof.Machine.execTwinRole w peerIdle peerDigest s
  | .twinRelease w peerIdle => Sys2Proof.Machine.execTwinRelease w peerIdle s
  | .twinHandover w => Sys2Proof.Machine.execTwinHandover w s
  | .twinTakeover w => Sys2Proof.Machine.execTwinTakeover w s
  | .twinResync w => Sys2Proof.Machine.execTwinResync w s
  | .twinLevelRaise w => Sys2Proof.Machine.execTwinLevelRaise w s
  | .twinCfg w => Sys2Proof.Machine.execTwinCfg w s
  | .twinStatus w => Sys2Proof.Machine.execTwinStatus w s
  | .profileApply w => Sys2Proof.Machine.execProfileApply w s
  | .profileStage w => Sys2Proof.Machine.execProfileStage w s
  | .profileCapture w => Sys2Proof.Machine.execProfileCapture w s
  | .profileCommit w => Sys2Proof.Machine.execProfileCommit w s
  | .profileRead w => Sys2Proof.Machine.execProfileRead w s
  | .obsTraceCfg w => Sys2Proof.Machine.execObsTraceCfg w s
  | .obsTraceDump w => Sys2Proof.Machine.execObsTraceDump w s
  | .obsCntClear w => Sys2Proof.Machine.execObsCntClear w s
  | .obsSetEvents w => Sys2Proof.Machine.execObsSetEvents w s
  | .errRead w => Sys2Proof.Machine.execErrRead w s
  | .vlogRead w => Sys2Proof.Machine.execVlogRead w s
  | .errCfg w => Sys2Proof.Machine.execErrCfg w s
  | .ruleGenerationSwitch ci => Sys2Proof.Machine.execRuleGenerationSwitch ci s
  | .ruleChangeDrain ci => Sys2Proof.Machine.execRuleChangeDrain ci s
  | .quiesceIdle ci => Sys2Proof.Machine.execQuiesceIdle ci s
  | .bulkOperationEnd q => Sys2Proof.Machine.execBulkOperationEnd q s
  | .request ps w a b fixes => Sys2Proof.Machine.execRequest ps w a b fixes s
  | .requestReinject ps mid => Sys2Proof.Machine.execRequestReinject ps mid s
  | .retry k => Sys2Proof.Machine.execRetry k s
  | .wbcr k => Sys2Proof.Machine.execWbcr k s
  | .wradm k => Sys2Proof.Machine.execWradm k s
  | .rspack k => Sys2Proof.Machine.execRspack k s
  | .completionDelivery k => Sys2Proof.Machine.execCompletionDelivery k s
  | .snoopDelivery k => Sys2Proof.Machine.execSnoopDelivery k s
  | .snoopResponse ps w => Sys2Proof.Machine.execSnoopResponse ps w s
  | .snpbusy k => Sys2Proof.Machine.execSnpbusy k s
  | .pevDown ps lp => Sys2Proof.Machine.execPevDown ps lp s
  | .pevUp ps lp blk => Sys2Proof.Machine.execPevUp ps lp blk s
  | .pevReset ps lp => Sys2Proof.Machine.execPevReset ps lp s
  | .pevGone ps lp => Sys2Proof.Machine.execPevGone ps lp s
  | .graceTimerExpiry rq => Sys2Proof.Machine.execGraceTimerExpiry rq s
  | .sessionDrain rq => Sys2Proof.Machine.execSessionDrain rq s
  | .agentSweepEnd rq => Sys2Proof.Machine.execAgentSweepEnd rq s
  | .agentDisableDrain rq => Sys2Proof.Machine.execAgentDisableDrain rq s
  | .gpfReq ps => Sys2Proof.Machine.execGpfReq ps s
  | .doorbell a => Sys2Proof.Machine.execDoorbell a s
  | .deferredDoorbellTest ci q => Sys2Proof.Machine.execDeferredDoorbellTest ci q s
  | .queueEnable a => Sys2Proof.Machine.execQueueEnable a s
  | .queueDisable a => Sys2Proof.Machine.execQueueDisable a s
  | .placementWrite a => Sys2Proof.Machine.execPlacementWrite a s
  | .sqnConsWrite a => Sys2Proof.Machine.execSqnConsWrite a s
  | .wkick a => Sys2Proof.Machine.execWkick a s
  | .registerWrite a => Sys2Proof.Machine.execRegisterWrite a s
  | .requestAdmission a => Sys2Proof.Machine.execRequestAdmission a s
  | .mw k => Sys2Proof.Machine.execMw k s
  | .cln k => Sys2Proof.Machine.execCln k s
  | .bic k => Sys2Proof.Machine.execBic k s
  | .sliceSnoopResponse k => Sys2Proof.Machine.execSliceSnoopResponse k s
  | .snoopTimeout hs t c => Sys2Proof.Machine.execSnoopTimeout hs t c s
  | .holdWindowExpiry hs lix c => Sys2Proof.Machine.execHoldWindowExpiry hs lix c s
  | .memoryCompletion k => Sys2Proof.Machine.execMemoryCompletion k s
  | .firnLookupData k errs => Sys2Proof.Machine.execFirnLookupData k errs s
  | .overflowInstallRetry hs => Sys2Proof.Machine.execOverflowInstallRetry hs s
  | .victimBufferRetry hs t => Sys2Proof.Machine.execVictimBufferRetry hs t s
  | .plbRetry hs t => Sys2Proof.Machine.execPlbRetry hs t s
  | .internalEntryRetry hs n => Sys2Proof.Machine.execInternalEntryRetry hs n s
  | .postThrReport ms => Sys2Proof.Machine.execPostThrReport ms s
  | .lck k => Sys2Proof.Machine.execLck k s
  | .lckn k => Sys2Proof.Machine.execLckn k s
  | .grelw r => Sys2Proof.Machine.execGrelw r s
  | .grel k => Sys2Proof.Machine.execGrel k s
  | .grela k => Sys2Proof.Machine.execGrela k s
  | .memoryCommand k => Sys2Proof.Machine.execMemoryCommand k s
  | .memoryPortCompletion ms w d fixes => Sys2Proof.Machine.execMemoryPortCompletion ms w d fixes s
  | .atomicop k => Sys2Proof.Machine.execAtomicop k s
  | .atomicopStart te => Sys2Proof.Machine.execAtomicopStart te s
  | .nmaResult k => Sys2Proof.Machine.execNmaResult k s
  | .descriptorCopy te => Sys2Proof.Machine.execDescriptorCopy te s
  | .descriptorData k => Sys2Proof.Machine.execDescriptorData k s
  | .groupStart te => Sys2Proof.Machine.execGroupStart te s
  | .lact k => Sys2Proof.Machine.execLact k s
  | .lgnt k err => Sys2Proof.Machine.execLgnt k err s
  | .lnack k => Sys2Proof.Machine.execLnack k s
  | .statusRecordCmp k => Sys2Proof.Machine.execStatusRecordCmp k s
  | .lotteryDraw e => Sys2Proof.Machine.execLotteryDraw e s
  | .grantEnd e => Sys2Proof.Machine.execGrantEnd e s
  | .holdWatchdogExpiry e => Sys2Proof.Machine.execHoldWatchdogExpiry e s
  | .emergencyPreempt => Sys2Proof.Machine.execEmergencyPreempt s
  | .hintUpdate => Sys2Proof.Machine.execHintUpdate s
  | .bulkStepIssue => Sys2Proof.Machine.execBulkStepIssue s
  | .bulkStepComplete n => Sys2Proof.Machine.execBulkStepComplete n s
  | .setHandover hs set => Sys2Proof.Machine.execSetHandover hs set s
  | .movingEntryInstall k => Sys2Proof.Machine.execMovingEntryInstall k s
  | .fmark k => Sys2Proof.Machine.execFmark k s
  | .fmack k => Sys2Proof.Machine.execFmack k s
  | .forwardedRequest k => Sys2Proof.Machine.execForwardedRequest k s
  | .firnAgencyRequest k => Sys2Proof.Machine.execFirnAgencyRequest k s
  | .firnAgencyResult k => Sys2Proof.Machine.execFirnAgencyResult k s
  | .sliceMapEpochFlip => Sys2Proof.Machine.execSliceMapEpochFlip s
  | .sliceMapEpochDrain => Sys2Proof.Machine.execSliceMapEpochDrain s
  | .freezeFence d => Sys2Proof.Machine.execFreezeFence d s
  | .powerOffAck d => Sys2Proof.Machine.execPowerOffAck d s
  | .pgTimeoutExpiry d => Sys2Proof.Machine.execPgTimeoutExpiry d s
  | .frzDrainTmoExpiry d => Sys2Proof.Machine.execFrzDrainTmoExpiry d s
  | .nackFrozen k => Sys2Proof.Machine.execNackFrozen k s
  | .powerGood d => Sys2Proof.Machine.execPowerGood d s
  | .thawReady d => Sys2Proof.Machine.execThawReady d s
  | .pgoodLoss d => Sys2Proof.Machine.execPgoodLoss d s
  | .flitArrival k err => Sys2Proof.Machine.execFlitArrival k err s
  | .replay stop port => Sys2Proof.Machine.execReplay stop port s
  | .routerGrant stop port => Sys2Proof.Machine.execRouterGrant stop port s
  | .escapeFallback k => Sys2Proof.Machine.execEscapeFallback k s
  | .routeEpochFlip => Sys2Proof.Machine.execRouteEpochFlip s
  | .routeEpochDrained => Sys2Proof.Machine.execRouteEpochDrained s
  | .rteDrainTmoExpiry => Sys2Proof.Machine.execRteDrainTmoExpiry s
  | .calibrationWrite hs err => Sys2Proof.Machine.execCalibrationWrite hs err s
  | .sfScrub hs errs => Sys2Proof.Machine.execSfScrub hs errs s
  | .firnScrub hs => Sys2Proof.Machine.execFirnScrub hs s
  | .rotationMove hs ci => Sys2Proof.Machine.execRotationMove hs ci s
  | .telemetryEpoch => Sys2Proof.Machine.execTelemetryEpoch s
  | .bucketLeak => Sys2Proof.Machine.execBucketLeak s
  | .retirementProcedureEnd => Sys2Proof.Machine.execRetirementProcedureEnd s
  | .wayRetirementWalk hs => Sys2Proof.Machine.execWayRetirementWalk hs s
  | .thello cmin cmax lvl peps => Sys2Proof.Machine.execThello cmin cmax lvl peps s
  | .thbSend err => Sys2Proof.Machine.execThbSend err s
  | .twinPacket fix => Sys2Proof.Machine.execTwinPacket fix s
  | .twinLeaseLapse => Sys2Proof.Machine.execTwinLeaseLapse s
  | .twLupLow ue => Sys2Proof.Machine.execTwLupLow ue s
  | .mdir w => Sys2Proof.Machine.execMdir w s
  | .mline w d => Sys2Proof.Machine.execMline w d s
  | .mldone w => Sys2Proof.Machine.execMldone w s
  | .mgline w d => Sys2Proof.Machine.execMgline w d s
  | .mgend w => Sys2Proof.Machine.execMgend w s
  | .mrot w => Sys2Proof.Machine.execMrot w s
  | .mhold w => Sys2Proof.Machine.execMhold w s
  | .mrule w cmd => Sys2Proof.Machine.execMrule w cmd s
  | .msynce w => Sys2Proof.Machine.execMsynce w s
  | .mack ci rseq pepl => Sys2Proof.Machine.execMack ci rseq pepl s
  | .traceRecord stop => Sys2Proof.Machine.execTraceRecord stop s
  | .traceOutput ue fixes => Sys2Proof.Machine.execTraceOutput ue fixes s
  | .counterIncrement n => Sys2Proof.Machine.execCounterIncrement n s
  | .twinLinkUp => Sys2Proof.Machine.execTwinLinkUp s
  | .dpullData ps dst d m => Sys2Proof.Machine.execDpullData ps dst d m s
  | .uncAccessRetry k => Sys2Proof.Machine.execUncAccessRetry k s
  | .forwardedEntryFreed k => Sys2Proof.Machine.execForwardedEntryFreed k s
  | .profileMramWriteEnd => Sys2Proof.Machine.execProfileMramWriteEnd s
  | .unknownOpCommand w ue => Sys2Proof.Machine.execUnknownOpCommand w ue s
  | .refusedRegisterRead a => Sys2Proof.Machine.execRefusedRegisterRead a s

end Sys2Proof.Machine
end

