-- ==== Sys2Proof/Safety.lean ====
section
/-!
DEFINITION. What statements about whole runs are said in terms of: the part of the state that few commands write, the byte memories in
their canonical form, and the commands that may write that part.
-/

namespace Sys2Proof.Machine

open Sys2Proof

/-- The part of the state that only resets, the image and profile commands, the end of a verification and a register write may change:
the queue, the firmware image (R445), the profile store and its staging buffer (R470, R475), the straps as sampled (R443), the cold reset
pin, the levels and version of the image (R442) and the two FM requesters (R533). -/
structure Kept where
  pending : List Instr
  img : List Host.Cell
  imgLen : Nat
  store : List Host.Cell
  staging : List Host.Cell
  strapProf : BitVec 2
  strapTwin : Bool
  coldLow : Bool
  clevMin : BitVec 8
  clevMax : BitVec 8
  iver : BitVec 32
  fm0 : Rqid × Bool
  fm1 : Rqid × Bool
  deriving DecidableEq, Repr

def State.kept (s : State) : Kept :=
  { pending := s.pending, img := s.mc.img, imgLen := s.mc.imgLen, store := s.mc.store, staging := s.mc.staging, strapProf := s.strapProf,
    strapTwin := s.strapTwin, coldLow := s.coldLow, clevMin := s.mc.clevMin, clevMax := s.mc.clevMax, iver := s.mc.iver,
    fm0 := (s.regs.fmRq0, s.regs.fmV0), fm1 := (s.regs.fmRq1, s.regs.fmV1) }

/-- Every byte memory of the block is in its canonical form. -/
def State.ramOk (s : State) : Bool := Memory.wf s.mc.img && Memory.wf s.mc.store && Memory.wf s.mc.staging

/-- The MC reads the command packet `w`, whose opcode is `op`, from slot `i` and is then in state `t`: the format, the check sum and the
opcode pass, the command need not wait (R457), and the checks of R462 that look at state, tag and form pass. -/
structure Served (op : Nat) (w : BitVec 512) (s t : State) (i : Nat) : Prop where
  code : cOp w = op
  read : s.readSlot w = some (i, t)
  fmt : cFmt w = 1 ∨ (cFmt w = 2 ∧ w.extractLsb' 64 32 = crcPar w)
  now : t.mustDefer i w = false
  pass : ∃ r, opRow op = some r ∧ t.check w r = none

/-- What follows the effect of a command that the MC has executed: the count of R440, the slot done, the ring indices (R455, R457). -/
def State.closed (u : State) (i : Nat) : State := ((u.bump 0xE60).slotDone i).ringSettle

/-- The reply `DONE` with the result's fields, as (bytes, value). -/
def State.replyDone (u : State) (w : BitVec 512) (l : List (Nat × Nat)) : State := u.reply w .done ((l.map fun p => p.1).sum) (pack l)

/-- The packet in place `k` is `p`, and nothing keeps it from being ejected (R344, R357). -/
structure Arrives (s : State) (k : Nat) (p : Pkt) : Prop where
  pkt : s.mesh.pkts[k]? = some p
  free : canEject s.mesh.pkts k p = true

/-- The packet arrives at port station `n`, which works. -/
structure AtPs (s : State) (k : Nat) (p : Pkt) (n : Stn) : Prop where
  pkt : Arrives s k p
  dst : p.dst = psStop n
  up : s.psUp n = true

/-- The packet arrives at home slice `n`, which works. -/
structure AtHs (s : State) (k : Nat) (p : Pkt) (n : Hs) : Prop where
  pkt : Arrives s k p
  dst : p.dst = hsStop n
  up : s.hsUp n = true

/-- The packet arrives at a transaction engine, which works in a block that is not halted. -/
structure AtTe (s : State) (k : Nat) (p : Pkt) (e : Bool) : Prop where
  pkt : Arrives s k p
  dst : p.dst = teStop e
  up : s.works (teDom e) = true
  alive : ∀ d, s.halt ≠ .halted d

end Sys2Proof.Machine

namespace Sys2Proof

/-- The commands that may write a part of `Kept`. -/
def Instr.writesKept : Instr → Bool
  | .coldRstAssert => true
  | .coldRstRelease _ _ => true
  | .warmRstLow => true
  | .warmResetEffect => true
  | .warmRstRelease _ _ => true
  | .imgVerifyEnd => true
  | .deferredCommandReread _ _ _ => true
  | .imgBegin _ => true
  | .imgData _ => true
  | .profileStage _ => true
  | .profileCapture _ => true
  | .profileMramWriteEnd => true
  | .registerWrite _ => true
  | _ => false

end Sys2Proof
end

