-- ==== Sys2Proof/WellFormed.lean ====
section
/-!
DEFINITION. Which commands the block can be sent: the operands lie in the ranges that the manual's formats give them, and a word
carries the code of its row. A command that is not well-formed names another row's happening, or none.
-/

namespace Sys2Proof

/-- A command packet of a row: format 1 or 2 and the row's opcode (R459). -/
def packetOf (op : Nat) (w : BitVec 512) : Bool :=
  (w.extractLsb' 0 4 == 1 || w.extractLsb' 0 4 == 2) && (w.extractLsb' 4 12).toNat == op

/-- A twin record of a kind (R395). -/
def recordOf (kind : BitVec 4) (w : BitVec 256) : Bool := w.extractLsb' 0 4 == kind

/-- A domain of R362. -/
def domainOk (d : BitVec 7) : Bool := decide (d.toNat ≤ 84)

/-- A router (R15) and one of its input ports (R334). -/
def inputOk (stop : Stop) (port : BitVec 3) : Bool := decide (stop.toNat < 56) && decide (port.toNat ≤ 4)

/-- Words of a set, each named at most once, by way or by slot. A flit, a calibration word and a crossing word have no reserved
encoding (R11 names the stored entries). -/
def errsOk (l : List (Nat × EccErr)) : Bool := l.all (fun p => decide (p.1 < 16)) && (l.map fun p => p.1).Nodup

/-- The operands of a command lie in their ranges. -/
def Instr.wf : Instr → Bool
  | .coldRstAssert => true
  | .coldRstRelease _ _ => true
  | .romWaitEntry => true
  | .warmRstLow => true
  | .warmResetEffect => true
  | .warmRstRelease _ _ => true
  | .imgVerifyEnd => true
  | .autordyEntry => true
  | .readyAssert => true
  | .mcWatchdogExpiry => true
  | .haltPostedLinePoison => true
  | .blockHalt => true
  | .commandSlotWrite _ f => decide (f ≤ 8)
  | .queueOverrun _ => true
  | .deferredCommandReread _ _ peerSlices => decide (peerSlices ≤ 32)
  | .replyRingRoom n f _ => decide (1 ≤ n) && decide (n ≤ 256) && decide (f ≤ 8 * n)
  | .bootStatus w => packetOf 0x001 w
  | .imgBegin w => packetOf 0x002 w
  | .imgData w => packetOf 0x003 w
  | .imgEnd w => packetOf 0x004 w
  | .bootStart w => packetOf 0x005 w
  | .cmdProgress w => packetOf 0x006 w
  | .instCreate w => packetOf 0x101 w
  | .instEnable w => packetOf 0x102 w
  | .instQuiesce w => packetOf 0x103 w
  | .instReset w => packetOf 0x104 w
  | .instRemove w => packetOf 0x105 w
  | .instQuota w => packetOf 0x106 w
  | .instStatus w => packetOf 0x107 w
  | .irtAdd w => packetOf 0x108 w
  | .irtRemove w => packetOf 0x109 w
  | .iwMask w => packetOf 0x10A w
  | .regionSet w => packetOf 0x201 w
  | .regionClear w => packetOf 0x202 w
  | .leasePass w => packetOf 0x203 w
  | .regionRead w => packetOf 0x204 w
  | .portSet w => packetOf 0x210 w
  | .portRead w => packetOf 0x211 w
  | .agentAdd w => packetOf 0x301 w
  | .agentRemove w => packetOf 0x302 w
  | .agentBind w => packetOf 0x303 w
  | .agentUnbind w => packetOf 0x304 w
  | .agentDisable w => packetOf 0x305 w
  | .agentEnable w => packetOf 0x306 w
  | .agentReadmit w => packetOf 0x307 w
  | .agentRead w => packetOf 0x308 w
  | .agentGrace w => packetOf 0x309 w
  | .snoopCfg w => packetOf 0x30A w
  | .calRead w => packetOf 0x30B w
  | .calReset w => packetOf 0x30C w
  | .pdFreeze w => packetOf 0x401 w
  | .pdThaw w => packetOf 0x402 w
  | .pdStatus w => packetOf 0x403 w
  | .enginePark w => packetOf 0x404 w
  | .engineUnpark w => packetOf 0x405 w
  | .sliceFold w peerSlices => packetOf 0x406 w && decide (peerSlices ≤ 32)
  | .pwrCfg w => packetOf 0x407 w
  | .meshFence w => packetOf 0x408 w
  | .meshCfg w => packetOf 0x409 w
  | .arbTickets w => packetOf 0x501 w
  | .arbSystkt w => packetOf 0x502 w
  | .arbSeed w => packetOf 0x503 w
  | .arbMode w => packetOf 0x504 w
  | .arbPreempt w => packetOf 0x505 w
  | .arbHoldmax w => packetOf 0x506 w
  | .engDisable w => packetOf 0x507 w
  | .engEnable w => packetOf 0x508 w
  | .arbStatus w => packetOf 0x509 w
  | .firnRotate w => packetOf 0x50A w
  | .firnRebuild w => packetOf 0x50B w
  | .churnCfg w => packetOf 0x50C w
  | .sfRebuild w => packetOf 0x50D w
  | .twinRole w _ _ => packetOf 0x601 w
  | .twinRelease w _ => packetOf 0x602 w
  | .twinHandover w => packetOf 0x603 w
  | .twinTakeover w => packetOf 0x604 w
  | .twinResync w => packetOf 0x605 w
  | .twinLevelRaise w => packetOf 0x606 w
  | .twinCfg w => packetOf 0x607 w
  | .twinStatus w => packetOf 0x608 w
  | .profileApply w => packetOf 0x701 w
  | .profileStage w => packetOf 0x702 w
  | .profileCapture w => packetOf 0x703 w
  | .profileCommit w => packetOf 0x704 w
  | .profileRead w => packetOf 0x705 w
  | .obsTraceCfg w => packetOf 0x801 w
  | .obsTraceDump w => packetOf 0x802 w
  | .obsCntClear w => packetOf 0x803 w
  | .obsSetEvents w => packetOf 0x804 w
  | .errRead w => packetOf 0x901 w
  | .vlogRead w => packetOf 0x902 w
  | .errCfg w => packetOf 0x903 w
  | .ruleGenerationSwitch _ => true
  | .ruleChangeDrain _ => true
  | .quiesceIdle _ => true
  | .bulkOperationEnd q => decide (q ≤ 64)
  | .request _ w _ _ f =>
    (w.extractLsb' 0 4 == 1 || w.extractLsb' 0 4 == 0 || decide (6 ≤ (w.extractLsb' 0 4).toNat)) && decide (f.getD 0 ≤ 12)
  | .requestReinject _ _ => true
  | .retry _ => true
  | .wbcr _ => true
  | .wradm _ => true
  | .rspack _ => true
  | .completionDelivery _ => true
  | .snoopDelivery _ => true
  | .snoopResponse _ w => w.extractLsb' 0 4 == 2
  | .snpbusy _ => true
  | .pevDown _ _ => true
  | .pevUp _ _ _ => true
  | .pevReset _ _ => true
  | .pevGone _ _ => true
  | .graceTimerExpiry _ => true
  | .sessionDrain _ => true
  | .agentSweepEnd _ => true
  | .agentDisableDrain _ => true
  | .gpfReq _ => true
  | .doorbell _ => true
  | .deferredDoorbellTest _ _ => true
  | .queueEnable _ => true
  | .queueDisable _ => true
  | .placementWrite _ => true
  | .sqnConsWrite _ => true
  | .wkick _ => true
  | .registerWrite _ => true
  | .requestAdmission a => errsOk a.errs
  | .mw _ => true
  | .cln _ => true
  | .bic _ => true
  | .sliceSnoopResponse _ => true
  | .snoopTimeout _ _ _ => true
  | .holdWindowExpiry _ _ _ => true
  | .memoryCompletion _ => true
  | .firnLookupData _ errs => errsOk errs
  | .overflowInstallRetry _ => true
  | .victimBufferRetry _ _ => true
  | .plbRetry _ _ => true
  | .internalEntryRetry _ _ => true
  | .postThrReport _ => true
  | .lck _ => true
  | .lckn _ => true
  | .grelw _ => true
  | .grel _ => true
  | .grela _ => true
  | .memoryCommand _ => true
  | .memoryPortCompletion _ _ _ f => decide (f.fixes.getD 0 ≤ 12)
  | .atomicop _ => true
  | .atomicopStart _ => true
  | .nmaResult _ => true
  | .descriptorCopy _ => true
  | .descriptorData _ => true
  | .groupStart _ => true
  | .lact _ => true
  | .lgnt _ _ => true
  | .lnack _ => true
  | .statusRecordCmp _ => true
  | .lotteryDraw _ => true
  | .grantEnd _ => true
  | .holdWatchdogExpiry _ => true
  | .emergencyPreempt => true
  | .hintUpdate => true
  | .bulkStepIssue => true
  | .bulkStepComplete _ => true
  | .setHandover _ _ => true
  | .movingEntryInstall _ => true
  | .fmark _ => true
  | .fmack _ => true
  | .forwardedRequest _ => true
  | .firnAgencyRequest _ => true
  | .firnAgencyResult _ => true
  | .sliceMapEpochFlip => true
  | .sliceMapEpochDrain => true
  | .freezeFence d => domainOk d
  | .powerOffAck d => domainOk d
  | .pgTimeoutExpiry d => domainOk d
  | .frzDrainTmoExpiry d => domainOk d
  | .nackFrozen _ => true
  | .powerGood d => domainOk d
  | .thawReady d => domainOk d
  | .pgoodLoss d => domainOk d
  | .flitArrival _ err => err != .reserved
  | .replay stop port => inputOk stop (port.getD 0)
  | .routerGrant stop port => inputOk stop port
  | .escapeFallback _ => true
  | .routeEpochFlip => true
  | .routeEpochDrained => true
  | .rteDrainTmoExpiry => true
  | .calibrationWrite _ err => err != .reserved
  | .sfScrub _ errs => errsOk errs
  | .firnScrub _ => true
  | .rotationMove _ _ => true
  | .telemetryEpoch => true
  | .bucketLeak => true
  | .retirementProcedureEnd => true
  | .wayRetirementWalk _ => true
  | .thello cmin cmax _ peps => decide (cmax.toNat ≤ cmin.toNat + 1) && decide (cmin.toNat ≤ cmax.toNat) && (peps.map fun p => p.1).Nodup
  | .thbSend err => err != .reserved
  | .twinPacket _ => true
  | .twinLeaseLapse => true
  | .twLupLow _ => true
  | .mdir w => recordOf 1 w
  | .mline w _ => recordOf 2 w
  | .mldone w => recordOf 3 w
  | .mgline w _ => recordOf 4 w
  | .mgend w => recordOf 5 w
  | .mrot w => recordOf 6 w
  | .mhold w => recordOf 7 w
  | .mrule w _ => recordOf 8 w
  | .msynce w => recordOf 9 w
  | .mack _ _ _ => true
  | .traceRecord stop => decide (stop.toNat < 56)
  | .traceOutput _ f => decide (f ≤ 4)
  | .counterIncrement _ => true
  | .twinLinkUp => true
  | .dpullData _ _ _ _ => true
  | .uncAccessRetry _ => true
  | .forwardedEntryFreed _ => true
  | .profileMramWriteEnd => true
  | .unknownOpCommand _ _ => true
  | .refusedRegisterRead _ => true

end Sys2Proof
end

