-- ==== Sys2Proof/Certificates/Slice0/Obligations.lean ====
section
/-!
DEFINITION. The statements for the provers (OBLIGATIONS.json lists them). Each formalises the rules of spec/ that its docstring names.
-/

open Sys2Proof Sys2Proof.Machine

/-- The boot commands and CMD_PROGRESS, executed. Each command of group 0x0 that the MC serves answers the next state of its own effect:
BOOT_STATUS replies the boot registers; IMG_BEGIN starts an empty image; IMG_DATA stores 32 bytes at the end of the image, and after the
first 512 bytes an invalid header (R447) discards it; IMG_END starts the verification; BOOT_START enters READY, or waits for the thaws
of start-up; CMD_PROGRESS replies the steps of the long command it names. (R445, R446, R447, R448, R450, R463, R465) -/
def Obligations.BootAndProgressCommandsComplete : Prop :=
  ∀ (w : BitVec 512) (s t : State) (i : Nat),
    (Served 0x001 w s t i →
      exec (.bootStatus w) s = .next ((t.replyDone w [(1, t.mc.bstate.code), (1, t.mc.lstat.code.toNat), (1, t.strapProf.toNat),
        (1, t.mc.papp.toNat), (1, t.mc.pflt.toNat), (1, t.mc.clevMin.toNat), (1, t.mc.clevMax.toNat), (1, 0), (4, t.mc.iver.toNat)]).closed i)) ∧
    (Served 0x002 w s t i →
      exec (.imgBegin w) s = .next ((({ t with mc := { t.mc with bstate := .loading, img := [], imgLen := 0 } } : State).replyDone w []).closed i)) ∧
    (Served 0x003 w s t i → cPar w 0 4 = t.mc.imgLen → (t.mc.imgLen < 512 ∨ t.mc.imgLen + 32 ≤ memGetN t.mc.img 0xC 4) →
      (t.mc.imgLen + 32 ≠ 512 ∨ imgHeadOk (memSetN t.mc.img t.mc.imgLen 32 (cPar w 16 32)) = true) →
      exec (.imgData w) s = .next
        ((({ t with mc := { t.mc with img := memSetN t.mc.img t.mc.imgLen 32 (cPar w 16 32), imgLen := t.mc.imgLen + 32 } } : State).replyDone
          w [(4, t.mc.imgLen + 32)]).closed i)) ∧
    (Served 0x003 w s t i → cPar w 0 4 = 480 → t.mc.imgLen = 480 → imgHeadOk (memSetN t.mc.img 480 32 (cPar w 16 32)) = false →
      exec (.imgData w) s = .next
        ((({ t with mc := { t.mc with bstate := .romWait, lstat := .badFormat, img := [], imgLen := 0 } } : State).reply w .badFormat).closed i)) ∧
    (Served 0x004 w s t i → 512 ≤ t.mc.imgLen → memGetN t.mc.img 0xC 4 ≤ t.mc.imgLen →
      exec (.imgEnd w) s = .next ((({ t with mc := { t.mc with bstate := .verify } } : State).startLong w .imgEnd 0).closed i)) ∧
    (Served 0x005 w s t i → t.mc.seq = none → t.mayReady = true → exec (.bootStart w) s = .next (((t.reply w .done).enterReady).closed i)) ∧
    (Served 0x005 w s t i → t.mc.seq.isSome = true → exec (.bootStart w) s = .next ((t.hold w .bootStart).closed i)) ∧
    (∀ l, Served 0x006 w s t i →
      (t.mc.longs.find? fun l => l.long && (cTag l.cmd).toNat == cPar w 0 2 && cOp l.cmd == cPar w 2 2) = some l →
      exec (.cmdProgress w) s = .next ((t.replyDone w [(4, l.steps), (4, t.stepsDone l)]).closed i))

/-- Commands that create, enable, quiesce and clear an instance, executed. INST_CREATE with parameters in range on a FREE instance that
holds nothing, with resources left and a firn area that overlaps nothing and lies on its port, writes the instance, makes it IDLE at the
next phase 0 and begins the firn zero-fill; INST_ENABLE makes an IDLE or QUIESCED instance ACTIVE at the next phase 0; INST_QUIESCE
begins the drain of an ACTIVE instance; INST_RESET and INST_REMOVE begin the clear of an instance that may be cleared, after a quiesce
where it is ACTIVE. (R281, R283, R286, R254, R255, R65, R66, R391) -/
def Obligations.InstanceLifeCommandsComplete : Prop :=
  ∀ (w : BitVec 512) (s t : State) (i : Nat) (rents csets : List Nat) (x : Inst),
    (Served 0x101 w s t i → createOk w = true → (t.inst (cCi w)).st = .free → (t.inst (cCi w)).nreg = 0 →
      rents = lowestFree ((t.insts.filter fun p => p.2.nreg != 0).flatMap fun p => p.2.rents) 2048 (cPar w 1 1) →
      csets = lowestFree ((t.insts.filter fun p => p.2.nreg != 0).flatMap fun p => p.2.csets) 64 (cPar w 2 1) →
      x = createInst w rents csets → t.floors (cCi w) + x.trkMin ≤ 768 → rents.length = cPar w 1 1 → csets.length = cPar w 2 1 →
      (x.firnLog2 = 0 ∨
        (((t.insts.filter fun p => p.2.nreg != 0).map fun p => p.2.firnSets).sum + x.firnSets ≤ 2 ^ 28 ∧
          ((t.firnSpans ++ t.rtSpans ++ t.allRegions.map fun r => r.2.2.span).any fun r => Span.meets x.firnSpan r) = false ∧
          ∃ p, t.port x.firnMpid = some p ∧ Span.inside x.firnSpan p.span = true)) →
      exec (.instCreate w) s = .next (((((t.setInst (cCi w) x).later 1 (.inst (cCi w) .idle)).startLong w .create
        (((t.setInst (cCi w) x).later 1 (.inst (cCi w) .idle)).stepsOf .zfillFirn (cCi w))).queueBulk false .zfillFirn (cCi w) w).closed i)) ∧
    (Served 0x102 w s t i → (t.inst (cCi w)).st = .idle ∨ (t.inst (cCi w)).st = .quiesced → (t.inst (cCi w)).role ≠ .mirror →
      exec (.instEnable w) s = .next (((t.hold w .wait).later 1 (.inst (cCi w) .active)).closed i)) ∧
    (Served 0x103 w s t i → (t.inst (cCi w)).st = .active →
      exec (.instQuiesce w) s =
        .next (((t.startLong w .quiesce 0).later 1 (.inst (cCi w) (if cFlag w 0 then .aborting else .draining))).closed i)) ∧
    (Served 0x104 w s t i → (t.inst (cCi w)).clearable = true → exec (.instReset w) s = .next ((t.clearCmd w false).closed i)) ∧
    (Served 0x105 w s t i → (t.inst (cCi w)).clearable = true →
      (cFlag w 1 = true ∨ cFlag w 2 = true ∨ ((t.inst (cCi w)).regions.any fun r => r.2.kind == .coh) = false) →
      exec (.instRemove w) s = .next ((t.clearCmd w true).closed i))

/-- INST_QUOTA and INST_STATUS, executed. INST_QUOTA with values in range, on an instance that is not FREE, within the floors and the ways
that twins share, takes effect at the next phase 0; INST_STATUS replies the state, the quotas, the firn area, the rotation and the
denials of the instance. (R94, R255, R392, R463, R279) -/
def Obligations.InstanceQuotaAndStatusComplete : Prop :=
  ∀ (w : BitVec 512) (s t : State) (i : Nat) (x : Inst), x = t.inst (cCi w) →
    (Served 0x106 w s t i → quotaOk (cPar w 0 1) (cPar w 1 1) (cPar w 2 2) (cPar w 4 2) = true → x.st ≠ .free →
      t.floors (cCi w) + cPar w 2 2 ≤ 768 → (x.role = .none ∨ t.twinSfq (cCi w) + cPar w 0 1 ≤ 16) →
      exec (.instQuota w) s = .next (((t.hold w .wait).later 1
        (.quota (cCi w) (cPar w 0 1) (cPar w 1 1) (cPar w 2 2) (cPar w 4 2) (cPar w 6 1) (cFlag w 5) w)).closed i)) ∧
    (Served 0x107 w s t i →
      exec (.instStatus w) s = .next ((t.replyDone w [(1, x.st.code), (1, x.ruleg.toNat), (1, b2n x.mode 0), (1, x.sfq), (1, x.plbQ),
        (1, x.holdWin), (2, x.trkMin), (2, x.trkMax), (1, x.nreg), (1, x.csets.length), (1, x.firnLog2), (1, x.firnMpid.toNat),
        (4, x.firnBase.toNat), (4, x.rotStart), (4, x.rotGap), (4, x.viol.toNat)]).closed i))

/-- IRT and instance-window commands begin their rule change. IRT_ADD and IRT_REMOVE with a well-formed entry, IRT_ADD with one whose key is
in no entry, present or accepted and not yet in force, and whose set has room, and IW_MASK, begin the rule change of R272: the shadow
rule is held with the current generation until it switches. IRT_REMOVE of the last entry of a BI agent in the instance also asks for the
agent recall of R253. (R272, R273, R249, R250, R253) -/
def Obligations.RuleChangeCommandsBegin : Prop :=
  ∀ (w : BitVec 512) (s t : State) (i : Nat),
    (Served 0x108 w s t i → ((cIrt w).pv = true ∨ (cIrt w).pasid = 0) → (t.inst (cCi w)).st ≠ .free → (t.inst (cCi w)).mode = false →
      t.irtFind (cIrt w) = none → (t.pendIrt.any fun x => x.rqid == cRq w && x.pv == (cIrt w).pv && x.pasid == (cIrt w).pasid) = false →
      ((t.agent (cRq w)).any fun a => a.bind.isSome) = false → t.pendBind (cRq w) = false →
      ((t.irt ++ t.pendIrt).filter fun e => irtSet e == irtSet (cIrt w)).length < 8 →
      exec (.irtAdd w) s = .next ((t.startRule w (.addIrt (cIrt w)) .nothing 0).closed i)) ∧
    (∀ e, Served 0x109 w s t i → ((cIrt w).pv = true ∨ (cIrt w).pasid = 0) → (t.inst (cCi w)).st ≠ .free →
      t.irtFind (cIrt w) = some e → e.ci = cCi w →
      exec (.irtRemove w) s = .next ((t.startRule w (.removeIrt e) (if t.lastMember e.rqid (cCi w) e then t.leaving e.rqid else .nothing)
        (t.leaveSteps (cCi w) (if t.lastMember e.rqid (cCi w) e then t.leaving e.rqid else .nothing))).closed i)) ∧
    (Served 0x10A w s t i → (t.inst (cCi w)).st ≠ .free →
      exec (.iwMask w) s = .next ((t.startRule w (.iwMask (BitVec.ofNat 16 (cPar w 0 2))) .nothing 0).closed i))

/-- Region commands, executed. REGION_SET with an entry in range, REGION_CLEAR of an entry and LEASE_PASS of a LEASE entry begin the rule
change of R272 with the recall or zero-fill that the change asks for; REGION_READ replies the entry, all zero where none is valid.
(R261, R262, R263, R264, R274, R277, R67) -/
def Obligations.RegionCommandsComplete : Prop :=
  ∀ (w : BitVec 512) (s t : State) (i : Nat) (x : Inst) (o : Region), x = t.inst (cCi w) → x.st ≠ .free → cPar w 0 1 < x.nreg →
    (Served 0x201 w s t i → entryOk w = true →
      ((tGet x.regions (cPar w 0 1)).any fun r => r.kind != (cEntry w).kind || r.lhv != (cEntry w).lhv) = false →
      ((t.allRegions.filter fun r => !(r.1 == cCi w && r.2.1 == cPar w 0 1)).any fun r => Span.meets r.2.2.span (cEntry w).span) = false →
      ((t.firnSpans ++ t.rtSpans).any fun r => Span.meets r (cEntry w).span) = false → t.onPort262 (cEntry w) = true →
      ∀ r, r = (match tGet x.regions (cPar w 0 1) with | some q => q.removed (cEntry w) | none => Recall.nothing) →
      exec (.regionSet w) s = .next ((t.startRule w (.setRegion (cPar w 0 1) (cEntry w)) r (t.recallSteps (cCi w) r)).closed i)) ∧
    (Served 0x202 w s t i → tGet x.regions (cPar w 0 1) = some o →
      ∀ r, r = (if o.kind = .coh then Recall.range o.lo o.hi 1 0 (if cFlag w 1 then some (o.lo, o.hi, .coh) else none)
        else if cFlag w 1 then Recall.zero o.lo o.hi o.kind else Recall.nothing) →
      exec (.regionClear w) s = .next ((t.startRule w (.clearRegion (cPar w 0 1)) r (t.recallSteps (cCi w) r)).closed i)) ∧
    (Served 0x203 w s t i → tGet x.regions (cPar w 0 1) = some o → o.kind = .lease →
      ∀ r, r = (if cFlag w 1 then Recall.zero o.lo o.hi .lease else Recall.nothing) →
      exec (.leasePass w) s = .next ((t.startRule w
        (.setRegion (cPar w 0 1) { o with lhrq := BitVec.ofNat 12 (cPar w 2 2), lhv := cPar w 4 1 == 1 }) r (t.recallSteps (cCi w) r)).closed i)) ∧
    (Served 0x204 w s t i →
      exec (.regionRead w) s = .next ((t.replyDone w [(16, match tGet x.regions (cPar w 0 1) with | some r => r.encode | none => 0)]).closed i))

/-- PORT_SET and PORT_READ, executed. PORT_SET with a descriptor in range that no retirement, region, firn area or Rime Table forbids writes
the descriptor, gives NMA_EN and POST_THR effect at the next phase 0, and where the port becomes TABLE begins the zero-fill of its Rime
Table; PORT_READ replies the descriptor, of a port never set one of zeros with POST_THR 48. (R467, R468, R91, R67) -/
def Obligations.PortCommandsComplete : Prop :=
  ∀ (w : BitVec 512) (s t u : State) (i m : Nat), m = cPar w 0 1 →
    (Served 0x210 w s t i → (cPdesc w).inRange = true → t.ret.chans.contains { chk := 4, chn := BitVec.ofNat 12 m } = false →
      t.portFixed m (cPdesc w) = false → t.portClash m (cPdesc w) = false →
      u = ({ t with ports := tPut t.ports m ((cPdesc w).over (tGet t.ports m)) } : State).later 1
        (.port (BitVec.ofNat 8 m) (cPdesc w).nma (cPdesc w).thr) →
      (t.isLong w = false → exec (.portSet w) s = .next ((u.replyDone w []).closed i)) ∧
      (t.isLong w = true → exec (.portSet w) s =
        .next (((u.startLong w (.portFill (BitVec.ofNat 8 m)) (u.stepsOf (.zfillRt (BitVec.ofNat 8 m)) 0)).queueBulk true
          (.zfillRt (BitVec.ofNat 8 m)) 0 w).closed i))) ∧
    (Served 0x211 w s t i →
      exec (.portRead w) s = .next ((t.replyDone w [(16, ((tGet t.ports m).getD PortDesc.reset).encode)]).closed i))

/-- Commands of the Agent Table, executed. AGENT_ADD on a free entry and a path that is not retired writes a fresh entry, for class BI with
the CAX it names or, with ANY, the lowest free one, whose Calibration Table entry is reset at the next phase 0 and which joins the
instances that it is a member of, and replies the CAX; AGENT_REMOVE of an agent bound to nothing, without IRT entry, sweep or
outstanding message removes it, and the credits of its port are withheld no longer unless another agent or a retirement withholds them;
AGENT_ENABLE and AGENT_READMIT, of an agent that may be, take effect at the next phase 0; AGENT_READ replies the entry. (R311, R314,
R315, R321, R326, R327, R330, R424, R484) -/
def Obligations.AgentTableCommandsComplete : Prop :=
  ∀ (w : BitVec 512) (s t : State) (i : Nat) (a : Agent) (l : BitVec 10),
    (Served 0x301 w s t i → l = BitVec.ofNat 10 (cPar w 4 2) → t.agent (cRq w) = none →
      t.ret.chans.contains { chk := 3, chn := l.setWidth 12 } = false →
      (cPar w 2 1 = 1 ∨ cPar w 2 1 = 2 →
        exec (.agentAdd w) s = .next (((t.setAgent (cRq w) (Agent.fresh (aclassOf (cPar w 2 1)) none l)).replyDone w [(2, 0)]).closed i)) ∧
      (∀ c, cPar w 2 1 = 0 →
        ((cFlag w 4 = true ∧ t.freeCax = some c) ∨
          (cFlag w 4 = false ∧ c = BitVec.ofNat 10 (cPar w 6 2) ∧ t.caxAgent c = none)) →
        exec (.agentAdd w) s = .next (((((t.setAgent (cRq w) (Agent.fresh .bi (some c) l)).joinAll (cRq w) c).later 1 (.calReset c)).replyDone w
          [(2, c.toNat)]).closed i))) ∧
    (t.agent (cRq w) = some a →
      (∀ u, Served 0x302 w s t i → a.bind = none → t.pendBind (cRq w) = false → ((t.irt ++ t.pendIrt).any fun e => e.rqid == cRq w) = false → a.swp = false →
        t.msgOut (cRq w) a = false → u = ({ t with agents := tDel t.agents (cRq w).toNat } : State) →
        (a.lst ≠ .held → exec (.agentRemove w) s = .next ((u.replyDone w []).closed i)) ∧
        (a.lst = .held → exec (.agentRemove w) s = .next (((u.modLport a.lport fun p =>
          { p with held := (u.agents.any fun q => q.2.lport == a.lport && q.2.lst == .held) ||
            t.ret.chans.contains { chk := 3, chn := a.lport.setWidth 12 } }).replyDone w []).closed i))) ∧
      (Served 0x306 w s t i → a.retired = false →
        exec (.agentEnable w) s = .next ((((t.setAgent (cRq w) { a with en := true }).later 1 (.agentEn (cRq w) true)).replyDone w []).closed i)) ∧
      (Served 0x307 w s t i → a.retired = false → a.swp = false →
        (a.lst = .held → exec (.agentReadmit w) s =
          .next ((((t.setAgent (cRq w) { a with rdm := false }).later 1 (.credits (cRq w))).replyDone w []).closed i)) ∧
        (a.lst ≠ .held → exec (.agentReadmit w) s = .next (((t.setAgent (cRq w) { a with rdm := false }).replyDone w []).closed i))) ∧
      (Served 0x308 w s t i → exec (.agentRead w) s = .next ((t.replyDone w [(8, a.encode)]).closed i)))

/-- AGENT_BIND, AGENT_UNBIND and AGENT_DISABLE, executed. AGENT_BIND of an agent without binding or IRT entry to an instance in bound mode,
and AGENT_UNBIND of one bound to the instance, begin the rule change of R272, the second with the agent recall of R253; AGENT_DISABLE
clears EN, at the port stations from the next phase 0 on, and is a long command. (R247, R250, R253, R272, R329) -/
def Obligations.AgentMembershipCommandsBegin : Prop :=
  ∀ (w : BitVec 512) (s t : State) (i : Nat) (a : Agent), t.agent (cRq w) = some a →
    (Served 0x303 w s t i → (t.inst (cCi w)).st ≠ .free → (t.inst (cCi w)).mode = true → ((t.irt ++ t.pendIrt).any fun e => e.rqid == cRq w) = false →
      a.bind = none → t.pendBind (cRq w) = false →
      exec (.agentBind w) s = .next ((t.startRule w (.bind (cRq w) (BitVec.ofNat 4 (cPar w 2 1))) .nothing 0).closed i)) ∧
    (∀ g, Served 0x304 w s t i → (t.inst (cCi w)).st ≠ .free → a.bind = some (cCi w, g) →
      exec (.agentUnbind w) s =
        .next ((t.startRule w (.unbind (cRq w)) (t.leaving (cRq w)) (t.leaveSteps (cCi w) (t.leaving (cRq w)))).closed i)) ∧
    (Served 0x305 w s t i →
      exec (.agentDisable w) s = .next ((((t.setAgent (cRq w) { a with en := false }).later 1 (.agentEn (cRq w) false)).startLong w
        (.agentDisable (cRq w) [] false)
        (((if a.cax.isSome then t.memberOf (cRq w) else []).map fun c => t.stepsOf (.agentRecall (a.cax.getD 0)) c).sum)).closed i))

/-- AGENT_GRACE, SNOOP_CFG, CAL_READ and CAL_RESET, executed. AGENT_GRACE and SNOOP_CFG with values in range set the grace time at once and
the snoop limits from the next phase 0 on; CAL_READ replies the block summary of a CAX, CAL_RESET clears its entries at the next phase
0. (R318, R131, R425, R424) -/
def Obligations.SnoopAndCalibrationCommandsComplete : Prop :=
  ∀ (w : BitVec 512) (s t : State) (i : Nat),
    (Served 0x309 w s t i → 1250 ≤ cPar w 0 4 → cPar w 0 4 ≤ 125000000 →
      exec (.agentGrace w) s = .next ((({ t with params := { t.params with graceTmo := cPar w 0 4 } } : State).replyDone w []).closed i)) ∧
    (Served 0x30A w s t i → 16 ≤ cPar w 0 2 → 1024 ≤ cPar w 4 4 → cPar w 4 4 ≤ 1048575 → cPar w 0 2 ≤ cPar w 4 4 →
      cPar w 0 2 ≤ 65535 → cPar w 8 1 ≤ 7 →
      exec (.snoopCfg w) s = .next (((t.later 1 (.snoopCfg (cPar w 0 2) (cPar w 4 4) (cPar w 8 1))).replyDone w []).closed i)) ∧
    (Served 0x30B w s t i →
      exec (.calRead w) s = .next ((t.replyDone w (match tGet t.calSum (cPar w 0 2) with
        | some (a, b, c) => [(4, a), (4, b), (4, c), (1, 1)]
        | none => [(4, 0), (4, 0), (4, 0), (1, 0)])).closed i)) ∧
    (Served 0x30C w s t i →
      exec (.calReset w) s = .next (((t.later 1 (.calReset (BitVec.ofNat 10 (cPar w 0 2)))).replyDone w []).closed i))

/-- Commands of the power domains, executed. PD_FREEZE of a domain that is ON, in no sequence and not held by R374 begins its freeze (R369),
PD_THAW of one that is OFF and not retired its thaw (R373), joining a thaw under way; PD_STATUS replies the state of every domain;
ENGINE_PARK, where nothing forbids it, and ENGINE_UNPARK begin their sequence, the second joining an unpark of the MC; PWR_CFG sets the
two time-outs. (R369, R370, R373, R374, R375, R367, R365, R469, R484) -/
def Obligations.PowerCommandsComplete : Prop :=
  ∀ (w : BitVec 512) (s t : State) (i : Nat) (ds : List (BitVec 7)), ds = domPair (BitVec.ofNat 7 (cPar w 0 1)) →
    (Served 0x401 w s t i → cPar w 0 1 ≤ 84 → t.allIn ds .on = true → ds.any t.inSeq = false →
      t.freezeHeld (BitVec.ofNat 7 (cPar w 0 1)) = false →
      exec (.pdFreeze w) s = .next (((t.startLong w (.freeze ds) 0).startFreeze ds false (cFlag w 3)).closed i)) ∧
    (Served 0x402 w s t i → cPar w 0 1 ≤ 84 → t.domRetired (BitVec.ofNat 7 (cPar w 0 1)) = false → ds.any t.inSeq = false →
      ((t.allIn ds .thawing = true ∨ (t.allIn ds .off = true ∧ t.thawDue (BitVec.ofNat 7 (cPar w 0 1)) = true)) →
        exec (.pdThaw w) s = .next ((t.startLong w (.thaw ds) 0).closed i)) ∧
      (t.allIn ds .thawing = false → t.allIn ds .off = true → t.thawDue (BitVec.ofNat 7 (cPar w 0 1)) = false →
        exec (.pdThaw w) s = .next (((t.startLong w (.thaw ds) 0).startThaw ds).closed i))) ∧
    (Served 0x403 w s t i →
      exec (.pdStatus w) s =
        .next ((t.replyDone w [(22, ((List.range 85).map fun d => (t.dom (BitVec.ofNat 7 d)).st.code * 4 ^ d).sum)]).closed i)) ∧
    (Served 0x404 w s t i → t.mayPark = true →
      exec (.enginePark w) s = .next (((t.startLong w .seq 0).startSeq true (pickGroups t.parks parkOrder) (some w)).closed i)) ∧
    (Served 0x405 w s t i → t.mc.seq = none →
      exec (.engineUnpark w) s = .next (((t.startLong w .seq 0).startSeq false t.unparkGroups (some w)).closed i)) ∧
    (∀ q u, Served 0x405 w s t i → t.mc.seq = some q → q.freeze = false → q.cmd = none → t.mc.bstate = .ready →
      u = t.startLong w .seq 0 →
      exec (.engineUnpark w) s = .next (({ u with mc := { u.mc with seq := some { q with cmd := some w } } } : State).closed i)) ∧
    (Served 0x407 w s t i → 16 ≤ cPar w 0 2 → cPar w 0 2 ≤ 65535 → 1250 ≤ cPar w 4 4 → cPar w 4 4 ≤ 12500000 →
      exec (.pwrCfg w) s =
        .next ((({ t with params := { t.params with pgTmo := cPar w 0 2, frzTmo := cPar w 4 4 } } : State).replyDone w []).closed i))

/-- SLICE_FOLD, MESH_FENCE and MESH_CFG, executed. SLICE_FOLD to a map that halves or doubles the active slices begins: the slices of the
new map that are not ON thaw first, else the fold starts at once; MESH_FENCE of a router or link, with no swap under way, begins the
swap of the route tables, for a router after its unit has been taken out; MESH_CFG sets the drain time-out. (R376, R378, R393, R353,
R357, R487, R359, R469) -/
def Obligations.FoldAndMeshCommandsComplete : Prop :=
  ∀ (w : BitVec 512) (s t u : State) (i peer : Nat),
    (Served 0x406 w s t i → foldShape (t.smap.map fun h => h.toNat) (cSmap w) = true → t.fold = none → t.parked = false →
      t.mapClean (cSmap w) = true → (t.ret.doms.any fun d => decide (d.toNat < 64) && (cSmap w).contains (domHs d).toNat) = false →
      ((t.insts.any fun p => p.2.role == TRole.mirror) = false ∨ peer ≤ (cSmap w).eraseDups.length) →
      u = ({ t.startLong w (.fold []) sfSteps with
        fold := some { oldMap := t.smap, newMap := toHs (cSmap w), mp := 0, started := false, flipped := false, cmd := some w } } : State) →
      exec (.sliceFold w peer) s = .next ((if u.allIn (sliceDoms (mapLess (toHs (cSmap w)) t.smap)) .on then u.startFold
        else u.startThaw ((sliceDoms (mapLess (toHs (cSmap w)) t.smap)).filter fun d => (u.dom d).st == .off && !u.thawDue d)).closed i)) ∧
    (Served 0x408 w s t i → cPar w 0 1 ≤ 55 → cPar w 1 1 ≤ 3 → (cPar w 1 1 = 3 → (nbr (cPar w 0 1) (cPar w 2 1)).isSome = true) →
      BitVec.ofNat 6 (cPar w 0 1) ≠ mcStop → t.mesh.swap = none →
      u = t.startLong w (.fence (BitVec.ofNat 8 (cPar w 1 1)) (BitVec.ofNat 6 (cPar w 0 1)) (BitVec.ofNat 3 (cPar w 2 1))) 0 →
      exec (.meshFence w) s = .next ((if cPar w 1 1 = 1 ∨ cPar w 1 1 = 3 then
          u.fenceGo w (cPar w 1 1) (BitVec.ofNat 6 (cPar w 0 1)) (BitVec.ofNat 3 (cPar w 2 1))
        else u.fenceStep w (cPar w 1 1) (BitVec.ofNat 6 (cPar w 0 1)) (BitVec.ofNat 3 (cPar w 2 1))).closed i)) ∧
    (Served 0x409 w s t i → 1250 ≤ cPar w 0 4 → cPar w 0 4 ≤ 1250000 →
      exec (.meshCfg w) s = .next ((({ t with params := { t.params with rteTmo := cPar w 0 4 } } : State).replyDone w []).closed i))

/-- Commands of the arbiters and engines, executed. ARB_TICKETS, ARB_SYSTKT, ARB_SEED with a seed that is not zero, which the LFSR holds in
the next cycle, ARB_MODE with a mode from 1 to 3, ARB_HOLDMAX and ENG_ENABLE write what they name; ARB_PREEMPT in mode SERVICE cuts the
grant of the engine, which ends with this cycle, or does nothing where no grant is held; ENG_DISABLE, unless BE serves a sweep or the
emergency, ends copied and queued work with ENG_DISABLED and waits for the grant; ARB_STATUS replies mode, holder, estimate, LFSR and
enable. (R302, R291, R300, R298, R299, R296, R306, R303) -/
def Obligations.ArbiterCommandsComplete : Prop :=
  ∀ (w : BitVec 512) (s t : State) (i : Nat) (e : Eng),
    (Served 0x501 w s t i → (t.inst (cCi w)).st ≠ .free →
      exec (.arbTickets w) s =
        .next (((t.modInst (cCi w) fun x => { x with tkt0 := cPar w 0 2, tkt1 := cPar w 2 2, tktB := cPar w 4 2 }).replyDone w []).closed i)) ∧
    (Served 0x502 w s t i →
      exec (.arbSystkt w) s = .next ((({ t with params := { t.params with sysTkt := cPar w 0 2 } } : State).replyDone w []).closed i)) ∧
    (Served 0x504 w s t i → 1 ≤ cPar w 0 1 → cPar w 0 1 ≤ 3 →
      exec (.arbMode w) s = .next ((({ t with arbMode := if cPar w 0 1 = 1 then .service else if cPar w 0 1 = 2 then .test
        else .recovery } : State).replyDone w []).closed i)) ∧
    (engOf (cPar w 0 1) = some e →
      (Served 0x503 w s t i → cPar w 4 4 ≠ 0 →
        exec (.arbSeed w) s = .next (((t.modArb e fun a => { a with seed := some (BitVec.ofNat 32 (cPar w 4 4)) }).replyDone w []).closed i)) ∧
      (∀ q, Served 0x505 w s t i → t.arbMode = .service → (t.arb e).holder = some q →
        exec (.arbPreempt w) s = .next (((t.modArb e fun a => { a with cut := true, ending := true }).replyDone w []).closed i)) ∧
      (Served 0x505 w s t i → t.arbMode = .service → (t.arb e).holder = none →
        exec (.arbPreempt w) s = .next ((t.replyDone w []).closed i)) ∧
      (Served 0x506 w s t i →
        exec (.arbHoldmax w) s = .next ((({ t with params := (match e with
          | .te0 => { t.params with hm0 := cPar w 2 2 }
          | .te1 => { t.params with hm1 := cPar w 2 2 }
          | .be => { t.params with hmB := cPar w 2 2 }) } : State).replyDone w []).closed i)) ∧
      (∀ u, Served 0x507 w s t i → (e = .be → t.be.sweeps = [] ∧ t.arbB.holder ≠ some 65 ∧ t.arbB.won ≠ some 65) →
        u = (t.modArb e fun a => { a with en := false }).startLong w (.engDisable e) 0 →
        exec (.engDisable w) s = .next (((match e with
          | .te0 => u.teOff false
          | .te1 => u.teOff true
          | .be => u.beOff).pump.engEnds).closed i)) ∧
      (Served 0x508 w s t i →
        exec (.engEnable w) s = .next (((t.modArb e fun a => { a with en := true }).replyDone w []).closed i)) ∧
      (Served 0x509 w s t i →
        exec (.arbStatus w) s = .next ((t.replyDone w [(1, t.arbMode.code), (1, match (t.arb e).holder with | some q => q | none => 0xFF),
          (2, t.hestNow e), (4, (t.arb e).lfsr.toNat), (1, b2n (t.arb e).en 0)]).closed i)))

/-- FIRN_ROTATE, FIRN_REBUILD, CHURN_CFG and SF_REBUILD, executed. FIRN_ROTATE and FIRN_REBUILD on an instance that is neither FREE nor a
Mirror, and SF_REBUILD, begin their bulk operation; CHURN_CFG with values in range takes effect at the next phase 0. (R98, R309, R391,
R413, R490) -/
def Obligations.ChurnAndRebuildCommandsComplete : Prop :=
  ∀ (w : BitVec 512) (s t : State) (i : Nat),
    ((t.inst (cCi w)).st ≠ .free → (t.inst (cCi w)).role ≠ .mirror →
      (∀ n, Served 0x50A w s t i → n = (if (t.inst (cCi w)).firnLog2 = 0 then 0 else cPar w 0 4) →
        exec (.firnRotate w) s = .next (((t.startLong w .bulk n).queueBulk false .rotate (cCi w) w n).closed i)) ∧
      (Served 0x50B w s t i →
        exec (.firnRebuild w) s =
          .next (((t.startLong w .bulk (t.stepsOf .firnRebuild (cCi w))).queueBulk false .firnRebuild (cCi w) w).closed i))) ∧
    (Served 0x50C w s t i → 1 ≤ cPar w 0 1 → cPar w 0 1 ≤ 64 → 8 ≤ cPar w 1 1 → cPar w 1 1 ≤ 16 → 1 ≤ cPar w 2 2 → cPar w 2 2 ≤ 65535 →
      exec (.churnCfg w) s = .next (((t.later 1 (.churn (cPar w 0 1) (cPar w 1 1) (cPar w 2 2))).replyDone w []).closed i)) ∧
    (Served 0x50D w s t i →
      exec (.sfRebuild w) s = .next (((t.startLong w .bulk 0).queueBulk true (.sfRebuild t.clk.tick) 0 w).closed i))

/-- Commands of the twin pair, executed. TWIN_ROLE on an IDLE instance with the link UP, an idle partner, the ways of R392 and equal digests
makes it Primary, gives its record to the Mirror and ends; TWIN_RELEASE gives up the role; TWIN_HANDOVER of an ACTIVE Primary begins its
drain; TWIN_TAKEOVER of a Mirror whose partner is silent, or with FORCE, posts the lines of the Mirror Line Store and makes it Primary
with a higher PEP, ACTIVE at the next phase 0, at once where it is strict and exact, else after deleting its firn and queueing the
recall walk; TWIN_RESYNC begins the stream of R412; TWIN_LEVEL_RAISE, within both engines' levels, raises the level; TWIN_CFG sets both
times; TWIN_STATUS replies the link and the role. (R388, R389, R391, R392, R408, R409, R410, R412, R387, R404) -/
def Obligations.TwinCommandsComplete : Prop :=
  ∀ (w : BitVec 512) (s t u : State) (i : Nat) (x : Inst) (idle : Bool) (dig : BitVec 32), x = t.inst (cCi w) →
    (Served 0x601 w s t i → cPar w 0 1 ≤ 1 → x.st = .idle → x.role ≠ .mirror → idle = true → t.tw.linkUp = true →
      t.twinSfq (cCi w) + x.sfq ≤ 16 → x.digest = dig →
      u = (t.startLong w .wait 0).setInst (cCi w)
        { x with role := .primary, strict := cPar w 0 1 == 0, pep := 1, exact := false, twr := false, lapsed := false, alone := false, rseq := 0, acked := 0 } →
      exec (.twinRole w idle dig) s = .next (((u.mruleRec (cCi w) w).finish w .done).closed i)) ∧
    (Served 0x602 w s t i → x.st = .idle → idle = true → (x.role = .none ∨ t.tw.linkUp = true) →
      exec (.twinRelease w idle) s =
        .next ((((if x.role = .none then t else t.mruleRec (cCi w) w).roleNone (cCi w)).replyDone w []).closed i)) ∧
    (Served 0x603 w s t i → x.twin = true → x.st = .active → x.lapsed = false → t.tw.linkUp = true →
      exec (.twinHandover w) s = .next (((t.startLong w (.twin 0x603) 0).later 1 (.inst (cCi w) .draining)).closed i)) ∧
    (Served 0x604 w s t i → x.role = .mirror → (t.silent = true ∨ cFlag w 3 = true) →
      (x.strict = true → x.exact = true →
        u = ((t.startLong w (.twin 0x604) 0).modInst (cCi w) fun y =>
          { y with pep := y.pep + 1, role := .primary, alone := true, lapsed := false, rseq := 0, acked := 0 }).takeLines (cCi w) →
        exec (.twinTakeover w) s = .next ((((u.later 1 (.inst (cCi w) .active)).twinCause 5).finish w .done).closed i)) ∧
      (x.strict = false ∨ x.exact = false →
        u = ((t.startLong w (.twin 0x604) (t.stepsOf .zfillFirn (cCi w) + t.stepsOf .walk (cCi w))).modInst (cCi w) fun y =>
          { y with pep := y.pep + 1, role := .primary, alone := true, lapsed := false, rseq := 0, acked := 0 }).takeLines (cCi w) →
        exec (.twinTakeover w) s = .next (((((u.dropEntries (cCi w)).modInst (cCi w) fun y =>
          { y with twr := true, trp := (rangesAt x.cohRanges 0).getD (2 ^ 46) }).later 1 (.inst (cCi w) .active)).queueBulk false
            .zfillFirn (cCi w) w).closed i))) ∧
    (Served 0x605 w s t i → x.twin = true → t.tw.linkUp = true →
      exec (.twinResync w) s = .next (((t.startLong w (.twin 0x605) sfSteps).queueBulk true .resync (cCi w) w sfSteps).closed i)) ∧
    (Served 0x606 w s t i → t.tw.linkUp = true → t.tw.plev.toNat < t.mc.clevMax.toNat → t.tw.plev.toNat < t.tw.pMax.toNat →
      exec (.twinLevelRaise w) s = .next ((((({ t with tw := { t.tw with plev := BitVec.ofNat 8 (t.tw.plev.toNat + 1) } } : State).twinCause
        2).replyDone w [(1, t.tw.plev.toNat + 1)])).closed i)) ∧
    (Served 0x607 w s t i → 16 ≤ cPar w 0 2 → cPar w 0 2 ≤ 65535 → 1250 ≤ cPar w 4 4 → cPar w 4 4 ≤ 1250000 → 8 * cPar w 0 2 ≤ cPar w 4 4 →
      exec (.twinCfg w) s =
        .next ((({ t with params := { t.params with twHb := cPar w 0 2, twLease := cPar w 4 4 } } : State).replyDone w []).closed i)) ∧
    (∀ y, Served 0x608 w s t i → y = (if (cCi8 w).toNat < 64 then x else Inst.reset) →
      exec (.twinStatus w) s = .next ((t.replyDone w [(1, if t.tw.incompat then 2 else if t.tw.linkUp then 1 else 0), (1, t.tw.plev.toNat),
        (1, TRole.code y.role), (1, b2n (!y.strict) 0), (2, y.pep.toNat), (1, b2n y.exact 0), (1, b2n y.twr 0),
        (2, if y.role == TRole.primary then (y.rseq - y.acked).toNat else 0)]).closed i))

/-- Profile commands, executed. PROFILE_APPLY of a valid profile whose ports break no rule takes effect at the next phase 0; PROFILE_STAGE
writes 32 bytes at an aligned offset of the staging buffer; PROFILE_CAPTURE fills it from the present configuration; PROFILE_COMMIT of a
sound buffer begins its write, and the end of that write puts the new bytes into the store and replies; PROFILE_READ replies 32 bytes of
a stored profile. (R470, R471, R474, R475, R476, R67) -/
def Obligations.ProfileCommandsComplete : Prop :=
  ∀ (w : BitVec 512) (s t : State) (i k : Nat), k = cPar w 0 1 →
    (Served 0x701 w s t i → k ≤ 3 → (t.prof k).valid = true →
      ((t.prof k).ports.any fun e => t.portFixed e.1 e.2 || t.ret.chans.contains { chk := 4, chn := BitVec.ofNat 12 e.1 }) = false →
      portsApart ((t.portsAfter (t.prof k).ports).filter fun e => e.2.pv) = true →
      (((t.portsAfter (t.prof k).ports).filter fun e => e.2.pv).any fun e => t.rtMeets e.2) = false →
      exec (.profileApply w) s = .next (((t.hold w .wait).later 1 (.profile (t.prof k).params
        ((t.prof k).ports.map fun e => (e.1, e.2.over (tGet t.ports e.1))) w)).closed i)) ∧
    (Served 0x702 w s t i → cPar w 0 2 % 32 = 0 → cPar w 0 2 < 0x8000 →
      exec (.profileStage w) s = .next
        ((({ t with mc := { t.mc with staging := memSetN t.mc.staging (cPar w 0 2) 32 (cPar w 16 32) } } : State).replyDone w []).closed i)) ∧
    (Served 0x703 w s t i →
      exec (.profileCapture w) s = .next ((({ t with mc := { t.mc with staging := t.captured } } : State).replyDone w []).closed i)) ∧
    (Served 0x704 w s t i → k ≤ 3 → t.staged.sound = true →
      exec (.profileCommit w) s = .next ((t.startLong w (.commit k) 0).closed i)) ∧
    (Served 0x705 w s t i → k ≤ 3 → cPar w 2 2 + 32 ≤ 0x8000 →
      exec (.profileRead w) s = .next ((t.replyDone w [(32, (t.prof k).get (cPar w 2 2) 32)]).closed i)) ∧
    (s.mc.longs.findSome? LongCmd.commitOf = some (w, k) → s.mcUp = true →
      exec .profileMramWriteEnd s = .next (({ s with mc := { s.mc with store := s.committed k } } : State).finish w .done))

/-- Observation and log commands, executed. OBS_TRACE_CFG with fields in range writes the filter and arms the trigger; OBS_TRACE_DUMP begins
the dump; OBS_CNT_CLEAR clears a range of counters; OBS_SET_EVENTS of a set that the instance holds writes its events; ERR_READ and
VLOG_READ take the oldest record out of a log that is not empty and reply it; ERR_CFG sets the leaky bucket. (R431, R434, R435, R437,
R441, R483, R268, R481) -/
def Obligations.ObservationCommandsComplete : Prop :=
  ∀ (w : BitVec 512) (s t : State) (i : Nat),
    (Served 0x801 w s t i → traceCfgOk w = true →
      ∃ u : State, exec (.obsTraceCfg w) s = .next ((u.replyDone w []).closed i) ∧ u.obs.tkmask = BitVec.ofNat 8 (cPar w 0 1) ∧
        u.obs.vnmask = BitVec.ofNat 8 (cPar w 1 1) ∧ u.obs.ring = (cPar w 2 1 == 1) ∧ u.obs.trigSel = BitVec.ofNat 8 (cPar w 3 1) ∧
        u.obs.trigKind = BitVec.ofNat 8 (cPar w 4 1) ∧ u.obs.fci = BitVec.ofNat 8 (cPar w 6 1) ∧ u.obs.smask = BitVec.ofNat 64 (cPar w 8 8) ∧
        u.obs.flix = BitVec.ofNat 64 (cPar w 16 8) ∧ u.obs.flmask = BitVec.ofNat 64 (cPar w 24 8) ∧ u.obs.trPost = cPar w 32 4 ∧
        u.obs.trigLix = BitVec.ofNat 64 (cPar w 36 8) ∧ u.obs.stopIn = none ∧ u.obs.stopped = false ∧ u.obs.buf = t.obs.buf ∧
        u.obs.cnt = t.obs.cnt ∧ u.mc = t.mc ∧ u.insts = t.insts) ∧
    (Served 0x802 w s t i →
      exec (.obsTraceDump w) s = .next ((({ t with obs := { t.obs with dumping := true } } : State).startLong w .dump 0).closed i)) ∧
    (Served 0x803 w s t i → cPar w 0 2 < 4096 → cPar w 0 2 + cPar w 2 2 ≤ 4096 →
      ∀ c, c = (t.obs.cnt.filter fun p => !(decide (cPar w 0 2 ≤ p.1) && decide (p.1 < cPar w 0 2 + cPar w 2 2))) →
      exec (.obsCntClear w) s = .next ((({ t with obs := { t.obs with cnt := c } } : State).replyDone w []).closed i)) ∧
    (∀ x, Served 0x804 w s t i → x = t.inst (cCi w) → ((List.range 32).any fun k => decide (cPar w (2 + k) 1 > 0x11)) = false → x.st ≠ .free →
      x.csets.contains (cPar w 0 1) = true →
      ∀ l, l = (x.evts.filter fun p => p.1 / 32 != cPar w 0 1) ++
        ((List.range 32).map fun k => (32 * cPar w 0 1 + k, cPar w (2 + k) 1)).filter (fun p => p.2 != 0) →
      exec (.obsSetEvents w) s = .next (((t.setInst (cCi w) { x with evts := l }).replyDone w []).closed i)) ∧
    (∀ e r, Served 0x901 w s t i → t.errLog = e :: r →
      exec (.errRead w) s = .next ((({ t with errLog := r } : State).replyDone w [(2, r.length), (14, 0), (32, e.encode)]).closed i)) ∧
    (∀ v r, Served 0x902 w s t i → t.vlog = v :: r →
      exec (.vlogRead w) s =
        .next ((({ t with vlog := r } : State).replyDone w [(2, r.length), (4, t.vlogLost.toNat), (10, 0), (16, v.encode)]).closed i)) ∧
    (Served 0x903 w s t i → 1 ≤ cPar w 0 2 → cPar w 0 2 ≤ 255 → 1250 ≤ cPar w 4 4 → cPar w 4 4 ≤ 1250000000 → cPar w 0 2 ≤ cPar w 4 4 →
      exec (.errCfg w) s =
        .next ((({ t with params := { t.params with lbThr := cPar w 0 2, lbWin := cPar w 4 4 } } : State).replyDone w []).closed i))

/-- The reset pins. The cold reset low clears everything but the profile store (a commit cut short leaves its profile with a PCRC that
fails) and holds the block in reset; its release samples the straps. The warm reset low starts the drain of a running block, joins a
drain under way, or takes effect at once on a halted block; held low already it withdraws a release. The end of the drain takes the
reset; the release is taken at once by a running block, else recorded. (R516, R517, R443, R493, R494, R492) -/
def Obligations.ResetPinsComplete : Prop :=
  ∀ (s : State) (p : BitVec 2) (tw : Bool),
    exec .coldRstAssert s = .next { s.coldReset with coldLow := true } ∧
    (s.coldLow = true → exec (.coldRstRelease p tw) s = .next { s.coldReset with coldLow := false, strapProf := p, strapTwin := tw }) ∧
    (s.coldLow = false → s.warmLow = true → exec .warmRstLow s = .next { s with warmRel := none }) ∧
    (s.coldLow = false → s.warmLow = false →
      (s.halt = .running →
        exec .warmRstLow s = .next (({ s with warmLow := true, halt := .draining s.clk.tick true false false } : State).later 1 .readyLow)) ∧
      (∀ t0 v d q, s.halt = .draining t0 v d q → exec .warmRstLow s = .next { s with warmLow := true, halt := .draining t0 true d q }) ∧
      (∀ d, s.halt = .halted d → exec .warmRstLow s = .next ({ s with warmLow := true } : State).warmReset)) ∧
    (∀ t0 d q, s.halt = .draining t0 true d q →
      exec .warmResetEffect s = .next (if s.drainDone q then s.warmReset else (s.drainOut t0).warmReset)) ∧
    (s.warmLow = true → s.coldLow = false →
      (s.halt = .running → exec (.warmRstRelease p tw) s = .next { s with warmLow := false, strapProf := p, strapTwin := tw }) ∧
      (s.halt ≠ .running → exec (.warmRstRelease p tw) s = .next { s with warmRel := some (p, tw) }))

/-- Events of the boot and of a halt. The boot ROM ends its self-initialisation in ROM_WAIT; the end of a verification starts the image that
is authentic, with its levels, version and watchdog, and discards any other; AUTORDY enters READY; READY rises at phase 0 of its tick;
the watchdog, not kicked in time, is a fatal fault; a drain poisons its posted lines at its tick 501 and ends in the halt at tick 1,001.
(R444, R448, R449, R450, R451, R452, R492, R499) -/
def Obligations.BootAndHaltEventsComplete : Prop :=
  ∀ (s : State),
    (s.mc.bstate = .cold → s.inReset = false → s.halt = .running →
      exec .romWaitEntry s = .next { s with mc := { s.mc with bstate := .romWait } }) ∧
    (∀ l, (s.mc.longs.find? fun l => l.job == .imgEnd) = some l → s.mc.bstate = .verify → s.halt = .running →
      (Config.imageAuthentic s.mc.img s.mc.imgLen = true →
        ∃ t : State, exec .imgVerifyEnd s = .next t.startUp ∧ t.mc.bstate = .starting ∧ t.mc.lstat = .done ∧
          t.mc.clevMin = BitVec.ofNat 8 (memGetN s.mc.img 6 1) ∧ t.mc.clevMax = BitVec.ofNat 8 (memGetN s.mc.img 7 1) ∧
          t.mc.iver = BitVec.ofNat 32 (memGetN s.mc.img 8 4) ∧ t.mc.wdog = some (s.timer 1250000) ∧
          t.mc.replies = (s.finish l.cmd .done).mc.replies ∧ t.mc.longs = (s.finish l.cmd .done).mc.longs) ∧
      (Config.imageAuthentic s.mc.img s.mc.imgLen = false →
        ∃ t : State, exec .imgVerifyEnd s = .next t ∧ t.mc.bstate = .romWait ∧ t.mc.lstat = .authFail ∧ t.mc.img = [] ∧ t.mc.imgLen = 0 ∧
          t.mc.replies = (s.finish l.cmd .authFail).mc.replies ∧ t.mc.longs = (s.finish l.cmd .authFail).mc.longs)) ∧
    (s.mc.bstate = .starting → s.mc.autordy = true → s.mayReady = true → s.halt = .running → exec .autordyEntry s = .next s.enterReady) ∧
    (∀ e, (s.sched.find? fun e => e.2 == .readyHigh) = some e → exec .readyAssert s = .next (s.goTo e.1)) ∧
    (∀ d t, s.mc.wdog = some d → t = s.goTo d → t.mc.wdog = some d → t.halt = .running →
      exec .mcWatchdogExpiry s = .next (({ t with mc := { t.mc with wdog := none } } : State).fatal (noChan 0x10) mcStop 0x10 true).closeCycle) ∧
    (∀ t0 v d u, s.halt = .draining t0 v d false → u = ({ s.goTo (t0 + 501) with halt := .draining t0 v d true } : State) →
      exec .haltPostedLinePoison s = .next (u.postedLines.foldl (fun s p =>
        (s.addRime p.1 p.2.ci p.2.lix p.2.mpid .poison .plain).lineRec p.1 p.2 0x13) u)) ∧
    (∀ t0 d q, s.halt = .draining t0 false d q →
      exec .blockHalt s = .next ({ s.drainOut t0 with halt := .halted d } : State).gpfEnd)

/-- Events of the command and reply rings, and of commands that wait. The switch side writes a slot of a ring that has room; a queue overrun
is recorded; the MC reads a deferred command again when its wait is over; replies taken out make room, one that leaves with the error
marker sets RR_UE; corrected words are counted; a packet that no row of the tables serves is refused; the shadow rules of a rule change
become current, its drain is followed by the bulk work it needs, and an idle instance becomes QUIESCED. (R453, R527, R455, R457, R456,
R462, R529, R272, R283, R284) -/
def Obligations.RingEventsComplete : Prop :=
  ∀ (s : State) (w : BitVec 512) (n f : Nat) (ci : Ci),
    (s.inReset = false → (s.mc.crProd - s.mc.crRel).toNat < 256 → exec (.commandSlotWrite w f) s =
      .next (({ s with mc := { s.mc with crSlots := tPut s.mc.crSlots s.mc.crProd.toNat w, crProd := s.mc.crProd + 1 } } : State).qceAdd 0 f)) ∧
    (∀ idle dig peer i r b, s.mayRead = true → s.dueDeferred = some (i, w) → opRow (cOp w) = some r → mcBody w idle dig peer = some b →
      exec (.deferredCommandReread idle dig peer) s = .next ((s.execCmd w r b).slotDone i).ringSettle) ∧
    (∀ ue u, n ≤ s.mc.replies.length →
      u = ({ s with mc := { s.mc with replies := s.mc.replies.drop n, rrRp := s.mc.rrRp + BitVec.ofNat 12 (8 * n) } } : State) →
      exec (.replyRingRoom n f ue) s = .next ((if ue then u.ringErrBit 4 else u).qceAdd 1 f)) ∧
    (∀ i t, s.readSlot w = some (i, t) →
      (exec (.unknownOpCommand w true) s = .next (((t.ringErrBit 2).refuseCmd w .crcErr).slotDone i).ringSettle) ∧
      (cFmt w ≠ 1 → cFmt w ≠ 2 → exec (.unknownOpCommand w false) s = .next ((t.refuseCmd w .badFormat).slotDone i).ringSettle) ∧
      (cFmt w = 2 → w.extractLsb' 64 32 ≠ crcPar w → exec (.unknownOpCommand w false) s = .next ((t.refuseCmd w .crcErr).slotDone i).ringSettle) ∧
      (cFmt w = 1 → opRow (cOp w) = none → exec (.unknownOpCommand w false) s = .next ((t.refuseCmd w .unknownOp).slotDone i).ringSettle)) ∧
    (∀ r u, (s.inst ci).rule = some r → r.switched = false →
      u = (s.goTo (s.clk.tick + 1)).applyRule ci r.op (match r.rcl with | .agent _ => true | _ => false) →
      ∃ q : Option (BitVec 16), exec (.ruleGenerationSwitch ci) s =
        .next ((if ((s.goTo (s.clk.tick + 1)).inst ci).twin then u.mruleRec ci r.cmd else u).modInst ci fun x =>
          { x with rule := some { r with switched := true, mrule := q } })) ∧
    (∀ r, (s.inst ci).rule = some r → r.switched = true → r.running = false →
      (if r.gen.getLsbD 0 then (s.inst ci).genOdd else (s.inst ci).genEven) = 0 → exec (.ruleChangeDrain ci) s = .next (s.ruleGo ci r)) ∧
    ((s.inst ci).st = .draining ∨ (s.inst ci).st = .aborting → s.instIdle ci = true → exec (.quiesceIdle ci) s = .next (s.quiesced ci))

/-- Register writes and reads, executed. A write that is not refused does what its register says and is acknowledged: a doorbell stores
DB_INDEX and its requester and is tested where its queue is enabled and its instance ACTIVE; the enable bit enables a well-placed queue,
else sets the placement error, and cleared stops the copying until phase 0 of the next tick; a placement register of a disabled queue
without groups takes its value and clears the indices, of any other sets WIGN; the consumer index of the status queue takes a value that
passes its test; WKICK from the MC restarts the watchdog; any other register follows its access code. A read answers the register's
value. (R187, R189, R190, R215, R545, R546, R547, R549, R452, R12, R14, R242) -/
def Obligations.RegisterCommandsComplete : Prop :=
  ∀ (a : RegAcc) (s : State) (q : Bool), s.regUp a = true → s.refuseReg a = none →
    (a.qreg 0x20 = some q → a.hits 17 = true →
      ∀ u, u = (s.modGq a.ci q fun g => { g with db := (a.over (g.db.setWidth 64)).setWidth 17, dbWait := some a.rqid }) →
      exec (.doorbell a) s = .next ((if ((u.inst a.ci).gq q).en && (u.inst a.ci).st == .active then u.bellTest a.ci q a.rqid else u).emit (.regAck a))) ∧
    (a.qreg 0x18 = some q → a.hits 1 = true →
      (a.bits.getLsbD 0 = true →
        exec (.queueEnable a) s = .next ((if ((s.inst a.ci).gq q).en && !((s.inst a.ci).gq q).stopping then s
          else if (s.inst a.ci).placeOk ((s.inst a.ci).gq q) then s.modGq a.ci q fun g => { g with en := true, stopping := false }
          else (s.modGq a.ci q fun g => { g with en := false, stopping := false }).gqErr a.ci q 0).emit (.regAck a))) ∧
      (a.bits.getLsbD 0 = false → ((s.inst a.ci).gq q).en = true →
        exec (.queueDisable a) s =
          .next (((s.modGq a.ci q fun g => { g with stopping := true }).later 1 (.queueOff a.ci q)).emit (.regAck a)))) ∧
    (∀ off, (placeRegs.findSome? fun off => (a.qreg off).map fun q => (off, q)) = some (off, q) →
      a.hits (if off = 0x00 || off = 0x30 then 40 else 8) = true →
      (((s.inst a.ci).gq q).en = false → s.ngrp a.ci q = 0 →
        exec (.placementWrite a) s = .next ((s.modGq a.ci q fun g => g.place off a.over).emit (.regAck a))) ∧
      (((s.inst a.ci).gq q).en = true ∨ 0 < s.ngrp a.ci q →
        exec (.placementWrite a) s = .next ((s.gqErr a.ci q 2).emit (.regAck a)))) ∧
    (a.qreg 0x50 = some q → a.hits 16 = true →
      ∀ (g : GQueue) (v : BitVec 16), g = (s.inst a.ci).gq q → v = (a.over (g.scons.setWidth 64)).setWidth 16 →
      exec (.sqnConsWrite a) s = .next ((if (v - g.scons).toNat ≤ (g.prodAt s.clk - g.scons).toNat then s.modGq a.ci q fun g => { g with scons := v }
        else s.gqErr a.ci q 3).emit (.regAck a))) ∧
    (a.mw 0x18 = true → a.mc = true → a.hits 16 = true → a.bits.extractLsb' 0 16 = 0x5A5A → s.mc.wdog.isSome = true →
      exec (.wkick a) s = .next (({ s with mc := { s.mc with wdog := some (s.timer 1250000) } } : State).emit (.regAck a))) ∧
    (ownRow a = false → exec (.registerWrite a) s = .next ((s.plainWrite a).emit (.regAck a))) ∧
    exec (.refusedRegisterRead a) s = .next (s.emit (.regData a (s.regValue a)))

/-- Doorbells, the enable bit and the placement registers of a queue complete. A doorbell of an enabled queue of an ACTIVE instance, and a
stored one at the next phase 0, is tested: a value in range becomes the accepted index, any other is dropped and sets DB_OVR. A doorbell
of any other queue is stored. The enable bit enables a queue whose rings are well placed, and sets PLACE_ERR of any other; cleared, it
stops the copying until the bit falls at phase 0 of the next tick. A placement register of a disabled queue without groups takes the
value written, and that of a ring clears the ring's indices; of any other queue it sets WIGN and keeps its value. (R187, R215, R545,
R546, R547, R549) -/
def Obligations.StoredDoorbellTested : Prop :=
  ∀ (s : State) (ci : Ci) (q : Bool) (a : RegAcc) (g : GQueue),
    (∀ t rq, ((s.inst ci).gq q).dbWait = some rq → t = s.toPhase0 → ((t.inst ci).gq q).en = true → (t.inst ci).st = .active →
      exec (.deferredDoorbellTest ci q) s = .next (t.bellTest ci q rq) ∧ ∃ u : State, exec (.deferredDoorbellTest ci q) s = .next u ∧
        (g = (t.inst ci).gq q → (g.pacc - g.cons).toNat ≤ (g.db - g.cons).toNat → (g.db - g.cons).toNat ≤ 2 ^ g.dqSize.toNat →
          ((u.inst ci).gq q).pacc = g.db ∧ ((u.inst ci).gq q).db = g.db ∧ ((u.inst ci).gq q).dbWait = none) ∧
        (g = (t.inst ci).gq q → (g.db - g.cons).toNat < (g.pacc - g.cons).toNat ∨ 2 ^ g.dqSize.toNat < (g.db - g.cons).toNat →
          ((u.inst ci).gq q).pacc = g.pacc ∧ ((u.inst ci).gq q).db = g.pacc ∧ ((u.inst ci).gq q).dbWait = none ∧
            ((u.inst ci).gq q).dbOvr = true)) ∧
    (s.regUp a = true → s.refuseReg a = none → a.ci = ci → g = (s.inst ci).gq q →
      (∀ v, a.qreg 0x20 = some q → a.hits 17 = true → v = (a.over (g.db.setWidth 64)).setWidth 17 →
        ∃ u : State, exec (.doorbell a) s = .next (u.emit (.regAck a)) ∧
          (g.en = true → (s.inst ci).st = .active → (g.pacc - g.cons).toNat ≤ (v - g.cons).toNat → (v - g.cons).toNat ≤ 2 ^ g.dqSize.toNat →
            ((u.inst ci).gq q).pacc = v ∧ ((u.inst ci).gq q).db = v ∧ ((u.inst ci).gq q).dbWait = none) ∧
          (g.en = true → (s.inst ci).st = .active → (v - g.cons).toNat < (g.pacc - g.cons).toNat ∨ 2 ^ g.dqSize.toNat < (v - g.cons).toNat →
            ((u.inst ci).gq q).pacc = g.pacc ∧ ((u.inst ci).gq q).db = g.pacc ∧ ((u.inst ci).gq q).dbOvr = true) ∧
          (g.en = false ∨ (s.inst ci).st ≠ .active → (u.inst ci).gq q = { g with db := v, dbWait := some a.rqid })) ∧
      (a.qreg 0x18 = some q → a.hits 1 = true →
        (a.bits.getLsbD 0 = true → g.en = false → ∃ u : State, exec (.queueEnable a) s = .next (u.emit (.regAck a)) ∧
          ((s.inst ci).placeOk g = true → (u.inst ci).gq q = { g with en := true, stopping := false }) ∧
          ((s.inst ci).placeOk g = false → ((u.inst ci).gq q).en = false ∧ ((u.inst ci).gq q).placeErr = true)) ∧
        (a.bits.getLsbD 0 = false → g.en = true → ∃ u : State, exec (.queueDisable a) s = .next (u.emit (.regAck a)) ∧
          (u.inst ci).gq q = { g with stopping := true } ∧ u.sched = s.sched ++ [(s.clk.tick + 1, .queueOff ci q)] ∧
          ((u.apply (.queueOff ci q)).inst ci).gq q = { g with en := false, stopping := false })) ∧
      (∀ off, off ∈ placeRegs → a.qreg off = some q → a.hits (if off = 0x00 ∨ off = 0x30 then 40 else 8) = true →
        ∃ u : State, exec (.placementWrite a) s = .next (u.emit (.regAck a)) ∧
          (g.en = false → s.ngrp ci q = 0 →
            (off = 0x00 → (u.inst ci).gq q = { g with dqBase := (a.over (g.dqBase.setWidth 64)).setWidth 40, db := 0, cons := 0, pacc := 0, rungBy := [], dbWait := none }) ∧
            (off = 0x08 → (u.inst ci).gq q = { g with dqSize := (a.over (g.dqSize.setWidth 64)).setWidth 5, db := 0, cons := 0, pacc := 0, rungBy := [], dbWait := none }) ∧
            (off = 0x10 → (u.inst ci).gq q = { g with dqMpid := (a.over (g.dqMpid.setWidth 64)).setWidth 8 }) ∧
            (off = 0x30 → (u.inst ci).gq q = { g with sqBase := (a.over (g.sqBase.setWidth 64)).setWidth 40, prod := 0, scons := 0, sph := true, nextRec := 0, recDone := [], prodWas := none }) ∧
            (off = 0x38 → (u.inst ci).gq q = { g with sqSize := (a.over (g.sqSize.setWidth 64)).setWidth 4, prod := 0, scons := 0, sph := true, nextRec := 0, recDone := [], prodWas := none }) ∧
            (off = 0x40 → (u.inst ci).gq q = { g with sqMpid := (a.over (g.sqMpid.setWidth 64)).setWidth 8 })) ∧
          (g.en = true ∨ 0 < s.ngrp ci q → ((u.inst ci).gq q).wign = true ∧ ((u.inst ci).gq q).dqBase = g.dqBase ∧ ((u.inst ci).gq q).sqBase = g.sqBase)))

/-- Request words are taken at a working port station. A word of an agent that is not HELD, of an access whose other pieces are still to
come is kept; the last one brings the whole access, in ascending PIX. A word of an agent that is HELD only returns its DST. An access of
one piece of any other agent is accepted and put in line when its piece passes the checks, and refused with the status of the first
check that fails otherwise. A word of a reserved kind is counted, and refused when it names a DST. Corrected words are counted first; an
uncorrectable one is lost, and every logical port of the station is treated as under PEV_GONE. (R502, R503, R163, R228, R560, R24, R175,
R491, R529) -/
def Obligations.RequestWordsComplete : Prop :=
  ∀ (s v u : State) (n : Stn) (w : BitVec 160) (a b : BitVec 128) (f : Nat), s.psUp n = true →
    exec (.request n w a b none) s = .next (s.psWordLost n).pump ∧
    (v = s.bumpN (psCtr n 6) f → u = (v.modPs n fun p => { p with pieces := p.pieces.filter fun x => !(wRq x == wRq w && wLp x == wLp w) }) →
    (wKind w = 1 → (∀ ag, v.agent (wRq w) = some ag → ag.lst = .held →
      exec (.request n w a b (some f)) s = .next ((v.bump (psCtr n 1)).emit (.dord n (wDst w) .dfree false)))) ∧
    (wKind w = 1 → (∀ ag, v.agent (wRq w) = some ag → ag.lst ≠ .held) → ∀ mine, ((v.ps n).pieces.filter fun x => wRq x == wRq w && wLp x == wLp w) = mine →
      (mine.length + 1 < wPcnt w → exec (.request n w a b (some f)) s = .next (v.modPs n fun p => { p with pieces := p.pieces ++ [w] })) ∧
      (mine ≠ [] → wPcnt w ≤ mine.length + 1 → exec (.request n w a b (some f)) s = .next (u.access n (byPix (mine ++ [w])) a b)) ∧
      (mine = [] → wPcnt w ≤ 1 →
        (∀ k c, u.vet w = .inr (k, c) → (ropAop (wRop w) = true → (u.teFor (wLix w)).isSome = true) →
          exec (.request n w a b (some f)) s = .next ((u.accept n w a b k c (u.ps n).nextMid).pumpPort n)) ∧
        (∀ d, u.vet w = .inl d →
          exec (.request n w a b (some f)) s =
            .next ((match d.cause with | some x => u.denyRec n [w] w x d.ridx | none => u).refuseAll n [w] d.st)))) ∧
    (wKind w = 0 ∨ 6 ≤ (wKind w).toNat →
      (wDst w = 0 → exec (.request n w a b (some f)) s = .next (v.bump (psCtr n 1))) ∧
      (wDst w ≠ 0 → exec (.request n w a b (some f)) s = .next (v.refuseAll n [w] .unsupported))))

/-- What arrives at a port station, and what it injects again. A message with a refused request is injected again at its phase 0; a RETRY
makes the message wait for the next tick and returns its credit unless a fold had forwarded it, or gives up the message of a lost
session; WBCR returns a credit; WRADM releases what waits behind a write; RSPACK returns an answer's credit; a completion goes to the
agent, or only frees the DST of a lost session; a snoop is queued and delivered, or SNPBUSY when 32 wait for its port. (R103, R104,
R105, R135, R144, R156, R163, R164, R177, R271, R319) -/
def Obligations.PortArrivalsComplete : Prop :=
  ∀ (s : State) (k : Nat) (p : Pkt) (n : Stn),
    (∀ mid m due, ((s.ps n).msgs.find? fun m => m.req.mid == mid) = some m → m.st = .reinject due → s.psUp n = true →
      exec (.requestReinject n mid) s = .next (((s.goTo due).inject n m).pumpPort n)) ∧
    (AtPs s k p n → ∀ u, u = s.ejected k p →
      (∀ r m, s.body p = some (.retry r) → ((u.ps n).msgs.find? fun m => m.req.mid == r.mid) = some m →
        ∀ v, v = (if m.cred && !r.fwd then u.modPs n fun p => p.setCred m.dest m.req.wbc fun x => (false, x.2) else u) →
        (m.old = false →
          exec (.retry k) s = .next ((v.modPs n fun p => { p with
            msgs := updWhere (fun x => x.req.mid == r.mid) (fun x => { x with req := { r with fwd := false }, st := .reinject (v.clk.tick + 1), cred := false }) p.msgs }).pumpPort n)) ∧
        (m.old = true → ∀ v', v' = (v.freeMsg n r).retire n m →
          exec (.retry k) s = .next ((if r.cls = .aop then v'.genDec r.ci r.gen else v').pumpPort n))) ∧
      (∀ h x c, s.body p = some (.wbcr h x c) → exec (.wbcr k) s = .next ((u.credBack n h c).pumpPort n)) ∧
      (∀ h x mid, s.body p = some (.wradm h x mid) →
        exec (.wradm k) s = .next ((u.modPs n fun p => { p with
          msgs := updWhere (fun m => m.req.mid == mid) (fun m => { m with req := { m.req with rwr := false } }) p.msgs }).pumpPort n)) ∧
      (∀ h x c, s.body p = some (.rspack h x c) →
        exec (.rspack k) s = .next ((u.modPs n fun p => p.setCred h c fun x => (x.1, false)).pumpPort n)) ∧
      (∀ c m v, s.body p = some (.cpl c) → v = (match c.wbc, c.hs with | some w, some h => u.credBack n h w | _, _ => u) →
        ((v.ps n).msgs.find? fun m => m.req.mid == c.mid) = some m →
        (m.old = false → exec (.completionDelivery k) s = .next (((v.emit (.cpl { c with grant := v.grantFor c.rqid c.grant })).retire n m).pumpPort n)) ∧
        (m.old = true → ∀ d, c.dst = some d → c.ord ≠ .none →
          exec (.completionDelivery k) s = .next (((v.emit (.dord n d .dfree c.rgen)).retire n m).pumpPort n))) ∧
      (∀ x rq a, s.body p = some (.snp x) → u.caxAgent x.cax = some (rq, a) →
        ((((u.ps n).snq.filter fun q => q.lp == a.lport.setWidth 7 && q.given.isNone).length < 32 →
          exec (.snoopDelivery k) s = .next ((u.modPs n fun p => { p with
            snq := p.snq ++ [{ sn := x, lp := a.lport.setWidth 7, rqid := rq, sess := a.sess, nsmp := a.lst == .down, given := none, block := 0 }] }).deliverAll n)) ∧
        (32 ≤ ((u.ps n).snq.filter fun q => q.lp == a.lport.setWidth 7 && q.given.isNone).length →
          exec (.snoopDelivery k) s = .next ((u.bump (psCtr n 3)).send (psStop n) (hsStop x.hs) .rsp false (.snpBusy x))))))

/-- Snoop response words, SNPBUSY and a Global Persistent Flush. A response word that names a snoop delivered on its port answers its line,
or every line of its block that waits for its answer still, the block's other lines counted as answered late; one that answers none is
counted. SNPBUSY leaves the slice as it was. A Global Persistent Flush waits in line at its port station and its flag is set at the next
tick's phase 0. (R144, R152, R154, R322, R498, R499) -/
def Obligations.SnoopAnswersAndFlushComplete : Prop :=
  ∀ (s : State) (n : Stn) (w : BitVec 160) (k : Nat) (p : Pkt) (hs : Hs),
    (s.psUp n = true → wKind w = 2 → ∀ r blk, wRsp w = some (r, blk) →
      (∀ q, ((s.ps n).snq.find? fun q => q.named (wLp w) (w.extractLsb' 29 12) blk) = some q →
        (blk = false → exec (.snoopResponse n w) s = .next (((s.answerLine n r q).pumpPort n).deliverAll n)) ∧
        (blk = true → ∀ b l, b = q.sn.lix.toNat / max q.block 1 * max q.block 1 →
          l = ((s.ps n).snq.filter fun x =>
            x.given.isSome && x.lp == q.lp && x.block == q.block && x.rqid == q.rqid && x.sn.form == q.sn.form && x.sess == q.sess &&
              decide (b ≤ x.sn.lix.toNat) && decide (x.sn.lix.toNat < b + q.block)) →
          exec (.snoopResponse n w) s =
            .next (((l.foldl (fun s x => s.answerLine n r x) (s.bumpN (psCtr n 4) (q.block - l.length))).pumpPort n).deliverAll n))) ∧
      (((s.ps n).snq.find? fun q => q.named (wLp w) (w.extractLsb' 29 12) blk) = none →
        exec (.snoopResponse n w) s = .next (s.bump (psCtr n 4)))) ∧
    (AtHs s k p hs → ∀ x, s.body p = some (.snpBusy x) → exec (.snpbusy k) s = .next (s.ejected k p)) ∧
    (s.works (psDom n) = true →
      exec (.gpfReq n) s = .next ((({ s with gpfSeq := s.gpfSeq + 1 } : State).modPs n fun p => { p with gpf := p.gpf ++ [s.gpfSeq] }).later 1 (.gpfFlag s.gpfSeq)))

/-- Port events, the grace timer and the end of a lost session. A port event on a working station takes effect there, and on any other is
latched. The grace timer of an agent that is DOWN loses its session when it expires. A drained session is swept, or releases its agent
when it holds no lines; the end of the sweep releases it; a disabled agent whose messages are gone is swept instance by instance. (R316,
R317, R318, R319, R320, R321, R324, R326, R329, R375) -/
def Obligations.SessionEventsComplete : Prop :=
  ∀ (s : State) (n : Stn) (lp : Lp) (blk : Bool) (rq : Rqid),
    (s.works (psDom n) = true →
      exec (.pevDown n lp) s = .next (s.linkDown n lp) ∧
      exec (.pevUp n lp blk) s = .next (if (s.linkUp n lp blk).psUp n then (s.linkUp n lp blk).deliverAll n else s.linkUp n lp blk) ∧
      exec (.pevReset n lp) s = .next (s.linkReset n lp).pump ∧ exec (.pevGone n lp) s = .next (s.linkReset n lp).pump) ∧
    (s.works (psDom n) = false →
      exec (.pevDown n lp) s = .next (s.latch n (.pevDown n lp)) ∧ exec (.pevUp n lp blk) s = .next (s.latch n (.pevUp n lp blk)) ∧
      exec (.pevReset n lp) s = .next (s.latch n (.pevReset n lp)) ∧ exec (.pevGone n lp) s = .next (s.latch n (.pevGone n lp))) ∧
    (∀ a d, s.agent rq = some a → a.lst = .down → a.grace = some d → exec (.graceTimerExpiry rq) s = .next ((s.goTo d).loseSession rq true).pump.closeCycle) ∧
    (∀ a, s.agent rq = some a → a.swp = true → s.drained rq a = true → (s.be.sweeps.any fun o => o.q == 4096 + rq.toNat) = false →
      (∀ c, a.cax = some c → exec (.sessionDrain rq) s = .next (s.queueSweep rq c a.lostMem)) ∧
      (a.cax = none → exec (.sessionDrain rq) s = .next (s.release rq))) ∧
    (∀ o, (s.be.sweeps.find? fun o => o.q == 4096 + rq.toNat) = some o → s.opDone o = true →
      exec (.agentSweepEnd rq) s = .next ((({ s with be := { s.be with sweeps := s.be.sweeps.erase o } } : State).bump 0xE42).release rq)) ∧
    (∀ l a, (s.mc.longs.find? fun l => (match l.job with | .agentDisable r _ false => r == rq | _ => false)) = some l → s.agent rq = some a →
      s.generalOut rq a = false → a.enPs = false →
      exec (.agentDisableDrain rq) s = .next (s.disableNext l.cmd rq (if a.cax.isSome then s.memberOf rq else [])))

/-- Requests and writebacks arrive at a home slice. The check of its set first corrects or frees the ways that it finds in error. A general
request for a line that is at home here, and for which an entry is to be had, is counted, enters the line's chain and, where a write was
retried, releases what waits behind it; with no entry it is refused. One for a line whose set is being handed over is refused; one for a
line that has moved is forwarded while fewer than 32 are on their way, and refused otherwise. MW, CLN and BIC are admitted at the home
and forwarded from a slice whose set has moved. (R102, R103, R104, R105, R106, R107, R117, R134, R379, R380) -/
def Obligations.HomeRequestsComplete : Prop :=
  ∀ (s : State) (k : Nat) (p : Pkt) (n : Hs) (r : Req), AtHs s k p n →
    (s.body p = some (.req r) → ∀ errs u, u = (if r.kind = .coh then (s.ejected k p).checkSet n (lineSet r.lix) errs else s.ejected k p) →
      (u.foldAct n r.lix = .own →
        (∀ v, u.generalEntry n r.ci r.tries = some v → ∀ t, t = ((u.bump (hsCtr n 0)).bumpI r.ci 0x01).addTrk n v true r →
          (r.rwr = false → exec (.requestAdmission ⟨k, errs⟩) s = .next t.pump) ∧
          (r.rwr = true → ∀ q, r.src = .ps q → exec (.requestAdmission ⟨k, errs⟩) s = .next (t.sendPs n none r.lix q (.wradm n q r.mid)).pump)) ∧
        (u.generalEntry n r.ci r.tries = none → exec (.requestAdmission ⟨k, errs⟩) s = .next (u.refuseReq n r).pump)) ∧
      (u.foldAct n r.lix = .refuse → exec (.requestAdmission ⟨k, errs⟩) s = .next (u.refuseReq n r).pump) ∧
      (∀ d, u.foldAct n r.lix = .forward d → r.fwd = false →
        (u.fwdOut n < 32 →
          exec (.requestAdmission ⟨k, errs⟩) s = .next (u.send (hsStop n) (hsStop d) .req false (.fwd n d { r with fwd := true } false) (some (r.itk, r.urg))).pump) ∧
        (32 ≤ u.fwdOut n →
          exec (.requestAdmission ⟨k, errs⟩) s = .next (u.refuseReq n r).pump))) ∧
    (s.body p = some (.wbm r) → ∀ u, u = s.ejected k p →
      (u.wbAct n r.lix = none →
        (r.cls = .mw → exec (.mw k) s = .next (u.admitMw n r).pump) ∧
        (r.cls = .cln → exec (.cln k) s = .next (u.admitCln n r).pump) ∧
        (r.cls = .bic → exec (.bic k) s = .next (u.admitBic n r).pump)) ∧
      (∀ d, u.wbAct n r.lix = some d →
        (r.cls = .mw → exec (.mw k) s = .next (u.fwdWriteback n d r).pump) ∧
        (r.cls = .cln → exec (.cln k) s = .next (u.fwdWriteback n d r).pump) ∧
        (r.cls = .bic → exec (.bic k) s = .next (u.fwdWriteback n d r).pump)))

/-- A snoop answer at its slice, and a snoop that times out. An answer to a snoop that is outstanding, and that names no writeback or one
already admitted, is applied to its request; one that names a writeback not yet admitted is held until it is; any other is late. A
snoop's timeout counts, and the snoop is sent once more or its agent is declared failed. The end of a hold window sends what it held.
(R126, R131, R132, R133, R154, R155, R418) -/
def Obligations.SnoopAnswersReachTheSlice : Prop :=
  ∀ (s : State) (k : Nat) (p : Pkt) (n : Hs) (t : Nat) (c : Cax) (l : Lix),
    (AtHs s k p n → ∀ a u, s.body p = some (.sans a) → u = (s.ejected k p).sample n a →
      (u.trk n a.t = none → exec (.sliceSnoopResponse k) s = .next (u.lateRsp n a).pump) ∧
      (∀ x, u.trk n a.t = some x →
        ((x.snps.any fun o => o.cax == a.cax && o.sent && o.parked.isNone) = true →
          (a.wbw = false ∨ (u.slice n).admgOf a.ps a.wbc = a.wbg → exec (.sliceSnoopResponse k) s = .next (u.applyAns n a.t a).pump) ∧
          (a.wbw = true → (u.slice n).admgOf a.ps a.wbc ≠ a.wbg → exec (.sliceSnoopResponse k) s = .next (u.modTrk n a.t fun x =>
            { x with snps := x.snps.map fun (o : SnpOut) => if o.cax == a.cax then { o with parked := some a } else o }).pump)) ∧
        ((x.snps.any fun o => o.cax == a.cax && o.sent && o.parked.isNone) = false →
          exec (.sliceSnoopResponse k) s = .next (u.lateRsp n a).pump))) ∧
    (∀ x o u, s.trk n t = some x → (x.snps.find? fun o => o.cax == c) = some o → o.sent = true → o.parked = none → s.hsUp n = true →
      u = (((s.goTo o.deadline).bump (hsCtr n 3)).bumpI x.req.ci 0x04) →
      (o.att < u.params.biRetry → exec (.snoopTimeout n t c) s = .next (u.snoopOut n t x.req.ci x.req.lix { o with att := o.att + 1 }).pump.closeCycle) ∧
      (u.params.biRetry ≤ o.att → exec (.snoopTimeout n t c) s = .next (u.failAgent n c x.req.lix x.req.ci).pump.closeCycle)) ∧
    (∀ h, ((s.slice n).hold.find? fun h => h.lix == l && h.cax == c) = some h →
      exec (.holdWindowExpiry n l c) s = .next ((((s.goTo h.expiry).modSlice n fun x =>
        { x with hold := x.hold.filter fun y => !(y.lix == l && y.cax == c) }).flushHeld n).pump))

/-- Locks, and the releases of a transaction engine. LCK and LCKN join the line's chain at its home and are answered LNACK where the set is
handed over. GRELW posts its line, cleared of poison by a whole line and poisoned by poisoned data or by an uncorrectable error of the
line data that its record can still tell of, and frees the lock; where the poisoning of the line has to look into the firn first, the
lock is freed after it. GREL gives the reserved PLB line back and frees the lock, later where the lock still waits. GRELA issues MEMAOP
and keeps the lock. A release of a lock that is not there does nothing. (R169, R170, R172, R173, R174, R181, R209, R379) -/
def Obligations.LocksAndReleasesComplete : Prop :=
  ∀ (s : State) (k : Nat) (p : Pkt) (n : Hs) (l : Lk), AtHs s k p n → ∀ u, u = s.ejected k p →
    (s.body p = some (.lck l) →
      (u.foldAct n l.lix = .own →
        (l.noData = false → exec (.lck k) s = .next (u.addTrk n .engine true (l.req .lck) fun x => { x with lk := some l }).pump) ∧
        (l.noData = true → exec (.lckn k) s = .next (u.addTrk n .engine true (l.req .lckn) fun x => { x with lk := some l }).pump)) ∧
      (u.foldAct n l.lix ≠ .own → ∀ t, t = (u.send (hsStop n) (teStop l.te) .rsp false (.lnack l n)).pump →
        (l.noData = false → exec (.lck k) s = .next t) ∧ (l.noData = true → exec (.lckn k) s = .next t))) ∧
    (∀ x, u.lockOf n l = some x →
      (∀ err d psn whole g, s.body p = some (.grelw l d psn whole g) → ∀ v w q,
        v = (if err && u.recordOpen l then (u.markPw l).logBare (teStop l.te) 0x08 l.lix (some l.ci) l.rqid else u) →
        w = (if l.clears x whole && l.kind == .coh then (v.setDir n x.id l.ci l.lix Dir.inv).getD v else v) →
        q = w.postLine n (some x.id) l.ci l.lix l.mpid d (psn || (err && u.recordOpen l))
          (if l.clears x whole then some (v.clearRime n l) else none) true g →
        (psn = false → (err && u.recordOpen l) = false → exec (.grelw ⟨k, err⟩) s = .next (q.endTrk n x.id).gpfCheck.pump) ∧
        (psn = true ∨ (err && u.recordOpen l) = true →
          (q.firnPoison n l.ci l.kind l.lix (x.rime == some .clear) = true →
            exec (.grelw ⟨k, err⟩) s = .next (q.poisonLine n l.ci l.kind l.lix l.mpid (x.rime == some .clear) (some x.id)).gpfCheck.pump) ∧
          (q.firnPoison n l.ci l.kind l.lix (x.rime == some .clear) = false →
            exec (.grelw ⟨k, err⟩) s = .next ((q.poisonLine n l.ci l.kind l.lix l.mpid (x.rime == some .clear) none).endTrk n x.id).gpfCheck.pump))) ∧
      (s.body p = some (.grel l) →
        (x.active = true ∧ (x.ph = .snoop ∨ x.ph = .rime ∨ x.ph = .firn ∨ x.ph = .victim) →
          exec (.grel k) s = .next (u.modTrk n x.id fun y => { y with rel := true }).pump) ∧
        (¬(x.active = true ∧ (x.ph = .snoop ∨ x.ph = .rime ∨ x.ph = .firn ∨ x.ph = .victim)) →
          exec (.grel k) s = .next ((u.freeResv n x.id).endTrk n x.id).pump)) ∧
      (∀ r, s.body p = some (.grela l r) → exec (.grela k) s = .next ((u.setPh n x.id .memAop).memCmd n l.ci
        { mkCmd n .memaop l.mpid l.lix (.aop x.id) with aop := r.aop, aofs := r.ofs, alen := r.blen.setWidth 4, opA := r.opA, opB := r.opB }))) ∧
    (u.lockOf n l = none → s.body p = some (.grel l) → exec (.grel k) s = .next u)

/-- Memory completions at a home slice, and data that a write waits for. The completion of a request's read brings its data, that of its
metadata read its rime bits; a write's completion ends the write; the write of a posted line frees the line; a rime write answers its
queue; a firn line's write goes on with its access; MEMAOP's goes to the engine and frees the lock. A line of a firn set, with what its
check found, goes to the access that reads it. The data of a DPULL are posted, or merged. (R20, R84, R115, R120, R121, R159, R181, R235,
R513) -/
def Obligations.MemoryCompletionsReachTheSlice : Prop :=
  ∀ (s : State) (k : Nat) (p : Pkt) (n : Hs),
    (AtHs s k p n → ∀ u c mst rime d, u = s.ejected k p → s.body p = some (.mcpl c mst rime d) →
      (∀ t, c.purp = .trkRd t → exec (.memoryCompletion k) s = .next (u.readDone n t c.rgen mst rime d).pump) ∧
      (∀ t x, c.purp = .trkMd t → u.trk n t = some x → x.ph = .rime → exec (.memoryCompletion k) s = .next (u.resolveRime n t rime).pump) ∧
      (∀ t, c.purp = .trkWr t → exec (.memoryCompletion k) s = .next ((u.rimeTurn n c (u.cmdCi n c)).cmpWrite n t .none).pump) ∧
      (∀ q, c.purp = .plbWr q → exec (.memoryCompletion k) s = .next ((u.rimeTurn n c (u.cmdCi n c)).plbDone n q).pump) ∧
      (∀ q, c.purp = .rime q → exec (.memoryCompletion k) s = .next (u.rimeDone n q (u.cmdCi n c)).pump) ∧
      (∀ a, c.purp = .firnWr a → exec (.memoryCompletion k) s = .next (u.wroteLine n a).pump) ∧
      (∀ t x l, c.purp = .aop t → u.trk n t = some x → x.lk = some l →
        exec (.memoryCompletion k) s = .next ((u.send (hsStop n) (teStop l.te) .dat false (.nma l n (mst == 1) d)).endTrk n t).pump) ∧
      (∀ a j errs, c.purp = .firnRd a j → exec (.firnLookupData k errs) s = .next (u.gotLine n a j d errs).pump)) ∧
    (∀ (ps : Stn) dst x d m, s.dpullComing ps dst = false → s.pulling ps dst = some (n, x) →
      (x.ph = .pull → exec (.dpullData ps dst d m) s =
        .next (((((s.postLine n (some x.id) x.req.ci x.req.lix x.req.mpid d false x.wrime false []).markLine n x.id x.req.ci).cmpWrite n x.id
          .none).resume n x.req.lix).pump)) ∧
      (x.ph ≠ .pull → exec (.dpullData ps dst d m) s = .next ((s.modTrk n x.id fun y =>
        { y with pulled := true, mask := m, req := { y.req with data := d } }).mergeDone n x.id).pump))

/-- What a home slice tries again. The oldest overflow entry moves into its set when a way there can be freed; a request that waits for the
victim buffer or for a posted line, and a spill that waits for an internal entry, go on where there is room and wait on where there is
none; a memory station reports to every slice the ports whose queue, but for the station's own commands, is longer than POST_THR. (R59,
R60, R78, R121, R172, R233, R234) -/
def Obligations.SliceRetriesComplete : Prop :=
  ∀ (s : State) (n : Hs) (t : Nat), s.hsUp n = true →
    (∀ v u, ((s.slice n).vb.find? fun v => !v.dep) = some v →
      ((s.modSlice n fun x => { x with vb := x.vb.erase v }).toWay n v.set v.ent) = some (some u) →
      exec (.overflowInstallRetry n) s = .next u.pump) ∧
    (∀ x, s.trk n t = some x → x.ph = .victim →
      (x.finst = none → exec (.victimBufferRetry n t) s = .next (s.afterSnoops n t).pump) ∧
      (∀ f, x.finst = some f →
        (∀ u, s.allocate n x.req.lix (SfEnt.fresh x.req.lix x.req.ci x.dir f) = some u →
          exec (.victimBufferRetry n t) s = .next ((u.modTrk n t fun y => { y with finst := none }).rule117 n t x.dir).pump) ∧
        (s.allocate n x.req.lix (SfEnt.fresh x.req.lix x.req.ci x.dir f) = none →
          exec (.victimBufferRetry n t) s = .next (s.bump (hsCtr n 13))))) ∧
    (∀ x, s.trk n t = some x →
      (x.ph = .plb → exec (.plbRetry n t) s = .next (s.startMerge n t).pump) ∧
      (x.ph = .lockPlb → exec (.plbRetry n t) s = .next (s.lockStep n t).pump)) ∧
    (∀ a d u, ((s.slice n).facc.find? fun a => a.id == t) = some a → a.kind = .spill d → a.writing = false → a.got.length = 4 →
      s.accSpill n a d = some u → exec (.internalEntryRetry n t) s = .next u.pump) ∧
    (∀ (ms : Stn), s.works (msDom ms) = true →
      ∃ t : State, exec (.postThrReport ms) s = .next t ∧ ∀ h : Hs, (t.slice h).thr =
        ((s.slice h).thr.filter fun m => msOf m != ms) ++
          ((s.ports.filter fun p => p.2.pv && msOf (BitVec.ofNat 8 p.1) == ms &&
            decide ((((s.ms ms).cmds).filter fun c => c.cmd.mpid.toNat == p.1 && !c.cmd.own).length > p.2.thrLive)).map fun p => (BitVec.ofNat 8 p.1 : Mpid)))

/-- A memory station takes a command and its completion. A command that the station has room for is counted, enters its queue, has its Rime
Table bits served where it needs them, and goes to the port. A completion that reports a failed link reissues its command, unless the
path is retired, once more behind nothing, and the later commands of its line wait; any other completion answers its command and the
rime line that it brings or writes is used, but for the station's own write of a line of UNKNOWN. Rime bits of a META port that an error
has struck read UNKNOWN and raise a contained fault. Corrected crossing words are counted; an uncorrectable one is fatal. (R87, R88,
R89, R90, R113, R148, R233, R491, R512, R513, R529) -/
def Obligations.MemoryStationCommandsComplete : Prop :=
  ∀ (s : State) (k : Nat) (p : Pkt) (c : MCmd) (n : Stn) (w : BitVec 160) (d : Line) (f : Nat) (rerr : Bool),
    (Arrives s k p → s.body p = some (.mcmd c) → p.dst.setWidth 3 = n → s.msTakes n c = true → ∀ u, u = (s.ejected k p).bump (msCtr n (if c.isMeta then 1 else 0)) →
      exec (.memoryCommand k) s = .next (((u.modMs n fun x => { x with cmds := x.cmds ++ [MEnt.new c (u.tabled c)] }).rimeServe n (u.ms n).cmds.length false).msPump n)) ∧
    (s.works (msDom n) = true → exec (.memoryPortCompletion n w d ⟨none, rerr⟩) s = .next (s.fatal (noChan 0x0A) (msStop n) 0x0A)) ∧
    (∀ i e v, s.works (msDom n) = true → v = s.bumpN (msCtr n 5) f →
      ((v.ms n).cmds.findIdx? fun e => e.answeredBy w) = some i → (v.ms n).cmds[i]? = some e →
      (w.extractLsb' 80 2 = 2 → ∀ u, u = (if e.failed then v else v.faultEv 2 { chk := 4, chn := e.cmd.mpid.setWidth 12 } (msStop n) 0x17 (some e.cmd.lix)) →
        exec (.memoryPortCompletion n w d ⟨some f, rerr⟩) s =
          .next (if u.ret.chans.contains { chk := 4, chn := e.cmd.mpid.setWidth 12 } then u.modMs n fun x => { x with cmds := x.cmds.mapIdx fun j f => f.behind i j e }
            else (u.modMs n fun x => { x with cmds := x.cmds.mapIdx fun j f => f.behind i j e }).emit (.mem n { e.cmd with reiss := true }))) ∧
      (w.extractLsb' 80 2 ≠ 2 → ∀ v' u, v' = (if rerr && e.metaRime && !e.cmd.own then
          v.faultEv 3 { chk := 4, chn := e.cmd.mpid.setWidth 12 } (msStop n) 4 (some e.cmd.lix) else v) →
        u = (v'.modMs n fun x => { x with cmds := x.cmds.modify i fun f => f.answered w d rerr }) →
        (e.cmd.own = false → exec (.memoryPortCompletion n w d ⟨some f, rerr⟩) s = .next ((u.msPump n).pump)) ∧
        (e.cmd.own = true →
          (e.cmd.purp = .rtRead →
            exec (.memoryPortCompletion n w d ⟨some f, rerr⟩) s = .next (((u.rtArrived n e (w.extractLsb' 80 2 == 1) d).msPump n).pump)) ∧
          (e.cmd.purp = .rtWrite → e.cmd.rtpsn = true → exec (.memoryPortCompletion n w d ⟨some f, rerr⟩) s = .next ((u.msPump n).pump)) ∧
          (e.cmd.purp = .rtWrite → e.cmd.rtpsn = false → exec (.memoryPortCompletion n w d ⟨some f, rerr⟩) s = .next (((u.rtWritten n e).msPump n).pump)))))

/-- AtomicOps, and what a transaction engine hears of its locks. An AtomicOp that reaches a disabled engine is sent on to the other one
while that one takes work; at an enabled one it joins the queue of its instance while fewer than 16 wait there, and is sent back
otherwise; the holder's first waiting one takes a context and sends its lock. The original value from memory ends it. LACT and LGNT are
kept with the lock, and an LGNT without error lets the AtomicOp or the group go on; LNACK returns the credit and sends the lock to the
home that MP gives; a refused UNC access is sent again at the next tick's phase 0. (R177, R178, R181, R186, R198, R214, R217, R306,
R379) -/
def Obligations.AtomicOpsAndLockAnswersComplete : Prop :=
  ∀ (s : State) (k : Nat) (p : Pkt) (e : Bool),
    (AtTe s k p e → ∀ u, u = s.ejected k p →
      (∀ r, s.body p = some (.aop r) → (u.arb (Eng.ofTe e)).en = false → u.teUp (!e) = true →
        exec (.atomicop k) s = .next (u.send (teStop e) (teStop (!e)) .req false (.aop r) (some (r.itk, r.urg)))) ∧
      (∀ r q, s.body p = some (.aop r) → r.src = .ps q → (u.arb (Eng.ofTe e)).en = true → (u.inst r.ci).st = .active →
        (((u.te e).aopq.filter fun q => q.ci == r.ci).length < 16 →
          exec (.atomicop k) s = .next (u.modTe e fun t => { t with aopq := t.aopq ++ [r] })) ∧
        (16 ≤ ((u.te e).aopq.filter fun q => q.ci == r.ci).length →
          exec (.atomicop k) s = .next (u.send (teStop e) (psStop q) .rsp false (.retry { r with tries := r.tries + 1 })))) ∧
      (∀ l h psn d v, s.body p = some (.nma l h psn d) → ((u.te e).runs.find? fun u => u.id == l.run) = some v →
        exec (.nmaResult k) s = .next (((((u.bump (teCtr e 3)).bumpI v.req.ci 0x0F).dropRun e v.id).aopEnd e v.req .done psn d).pump)) ∧
      (∀ l h, s.body p = some (.lact l h) → exec (.lact k) s = .next ((u.modLock e l fun m => { m with act := true }).pump)) ∧
      (∀ l h psn plbh d v, s.body p = some (.lgnt l h psn plbh d) →
        v = (u.modLock e l fun m => { m with act := true, gnt := true, psn := psn, plbh := plbh, data := d }) →
        (((v.te e).runs.find? fun u => u.id == l.run) = none → exec (.lgnt k false) s = .next v.pump) ∧
        (∀ r, ((v.te e).runs.find? fun u => u.id == l.run) = some r →
          (r.nma = true ∧ r.lk.plbh = false ∧ r.lk.psn = false →
            exec (.lgnt k false) s = .next ((v.send (teStop e) (hsStop r.lk.hs) .snp false (.grela r.lk.lk r.req)).pump)) ∧
          (r.nma = false ∨ r.lk.plbh = true ∨ r.lk.psn = true → exec (.lgnt k false) s = .next ((v.modRun e r.id fun r => { r with nma := false }).pump)))) ∧
      (∀ l h v, s.body p = some (.lnack l h) → v = u.modTe e (fun t => t.give h) →
        exec (.lnack k) s = .next ((v.modLock e l fun m => { m with sent := false, cred := false, hs := v.teHome l.lix }).pump)) ∧
      (∀ x r v, s.body p = some (.uncRetry x r) → v = u.goTo (u.clk.tick + 1) →
        exec (.uncAccessRetry k) s = .next (v.send (teStop e) (hsStop (v.home r.lix)) .req false (.req { r with smep := v.smep }) (some (r.itk, r.urg))))) ∧
    (∀ c r t h lk, s.teHolder e = some c → ((s.te e).aopq.find? fun r => r.ci == c) = some r → t = s.te e → h = s.teHome r.lix →
      t.contexts < 64 → t.used h < 32 →
      lk = ({ te := e, run := t.nextId, opi := 0, ci := r.ci, lix := r.lix, mpid := r.mpid, kind := r.kind, noData := s.nmaOn r.mpid, writes := !s.nmaOn r.mpid, isAop := true, rqid := r.rqid } : Lk) →
      ∀ l, l = ({ lk := lk, hs := h, sent := true, act := false, gnt := false, refused := false, psn := false, plbh := false, data := 0, cred := true } : LkSt) →
      exec (.atomicopStart e) s = .next ((s.setTe e { t.take h with aopq := t.aopq.erase r, runs := t.runs ++ [({ id := t.nextId, req := r, lk := l, nma := s.nmaOn r.mpid, gate := none } : ARun)], nextId := t.nextId + 1 }).lockMsg e l))

/-- Copying descriptors, starting groups, writing status records. An engine goes on with a copy that may ask for more slots; with none, its
holder's enabled queue with a header to read, a record to spare and room in the buffer reserves the record and reads the header. A slot
that arrives is kept, and the descriptor taken when it is whole or broken; a copy of an instance that is ABORTING ends once its slots up
to PACC are in. The first group of the holder that has not started is denied with its first refused line, or stamped, given its context
and credits, and started. The Cmp of a record's upper line sends the line of PH; that of the line of PH ends the group and lets SQn_PROD
pass. (R186, R190, R194, R195, R196, R197, R211, R215, R217, R562) -/
def Obligations.DescriptorsAndGroupsComplete : Prop :=
  ∀ (s : State) (k : Nat) (p : Pkt) (e : Bool),
    (∀ c, s.copyNow e = some c → s.works (teDom e) = true →
      exec (.descriptorCopy e) s = .next (s.askSlots e c (c.limit ((s.inst c.ci).gq e)))) ∧
    (∀ c q, s.copyNow e = none → s.teHolder e = some c → q = (s.inst c).gq e → (s.inst c).st = .active →
      (s.arb (Eng.ofTe e)).en = true → q.en = true → q.stopping = false → q.cons ≠ q.pacc → q.recFree = true →
      (s.te e).buffered + (s.te e).copies.length < 64 → ((s.te e).copies.any fun x => x.ci == c) = false →
      exec (.descriptorCopy e) s = .next (((s.modGq c e fun q => { q with nextRec := q.nextRec + 1 }).modTe e fun t =>
        { t with copies := t.copies ++ [({ ci := c, base := q.cons, slots := [], asked := 1, len := 0, bad := false, recN := q.nextRec } : Copy)] }).uncSend
          e .urd c (q.slotLix q.cons) q.dqMpid 0 0 0)) ∧
    (AtTe s k p e → ∀ u, u = s.ejected k p →
      (∀ x r psn d c c' v br, s.body p = some (.unc x r psn d) → r.cls = .urd → ((u.te e).copies.find? fun c => c.ci == r.ci) = some c →
        br = (r.pix == 0 && (psn || !headOk d)) →
        c' = ({ c with slots := tPut c.slots r.pix d, bad := c.bad || psn || br, len := if br then ((u.inst c.ci).gq e).ahead else if r.pix == 0 then dNslot d else c.len } : Copy) →
        v = (u.modTe e fun t => { t with copies := updWhere (fun x => x.ci == c'.ci) (fun _ => c') t.copies }) →
        (br = true ∨ (c'.len ≠ 0 ∧ c'.slots.length = c'.len) → exec (.descriptorData k) s = .next (v.takeDesc e c' false)) ∧
        (¬(br = true ∨ (c'.len ≠ 0 ∧ c'.slots.length = c'.len)) →
          exec (.descriptorData k) s = .next (if (v.inst c'.ci).st = .aborting then v.cutCopies e c'.ci else v))) ∧
      (∀ x r psn d g v, s.body p = some (.unc x r psn d) → r.cls = .uwr → ((u.te e).grps.find? fun g => g.id == r.mid) = some g →
        (r.pix = 1 → v = u.modGroup e g.id (fun h => { h with st := .ph }) → exec (.statusRecordCmp k) s =
          .next (v.uncSend e .uwr g.ci (((u.inst g.ci).gq e).recLix g.recN 0) ((u.inst g.ci).gq e).sqMpid (g.line1 ((v.arb (Eng.ofTe e)).hints.getD g.ci.toNat 0)) g.id 0)) ∧
        (∀ z, r.pix ≠ 1 → v = (u.modTe e fun t => { t with grps := t.grps.filter fun h => h.id != g.id }) → z = (if g.stamped then v.genDec g.ci g.gen else v) →
          exec (.statusRecordCmp k) s = .next (z.modGq g.ci e fun q => q.recorded z.clk g.recN).pump))) ∧
    (∀ c g, s.teHolder e = some c → ((s.te e).grps.find? fun g => g.ci == c && g.st == .copied) = some g → g.stamped = false →
      (s.groupDenial g = none → (s.te e).contexts < 64 → (s.te e).credFor (s.groupLocks e g) = true →
        exec (.groupStart e) s = .next ((((s.setTe e ((s.groupLocks e g).foldl (fun t l => t.take l.hs) (s.te e))).genInc c (s.inst c).ruleg).modGroup e g.id
          fun h => { h with st := .locking, locks := s.groupLocks e g, gen := (s.inst c).ruleg, stamped := true }).pump)) ∧
      (∀ o cause ridx v, s.groupDenial g = some (o, cause, ridx) →
        v = s.violation { lix := o.lix, akind := 4, rqid := g.rq, ci := some c, ridx := ridx.map (BitVec.ofNat 6), cause := cause, tick := s.clk.tick } →
        exec (.groupStart e) s = .next (((if cause = 5 then v.logBare (teStop e) 0x0D o.lix (some c) g.rq else v).failGroup e g .denied).pump)))

/-- The lottery and the steps of the bulk engine. A draw, with no holder or in the last cycle of a grant, notes the queue drawn among those
that requested as the cycle began, but for the holder; its grant begins with the next cycle. A grant whose holder no longer asks, or was
cut, is in its last cycle. The hold watchdog of a holder whose grant is not ending counts, records the cut and, in SERVICE, cuts the
grant; its core cycle is over. A recovery sweep that waits cuts BE's grant and has the next. At phase 0 the hints of every instance on
every engine are computed. BE issues one step of its holder's operation in a tick while fewer than 8 are outstanding, and a step whose
work is over is done, or runs again. (R292, R294, R295, R297, R301, R303, R304, R305, R306, R308, R309) -/
def Obligations.LotteryAndBulkEventsComplete : Prop :=
  ∀ (s : State) (e : Eng),
    ((s.arb e).holder = none ∨ (s.arb e).ending = true → (s.arb e).won = none → (s.arb e).en = true → s.running = true → (e = .be → s.be.sweeps = []) →
      exec (.lotteryDraw e) s = .next (s.modArb e fun b => { b with won := s.draw e (s.arb e).holder })) ∧
    (∀ q, (s.arb e).holder = some q → q ≠ 65 → s.requests e q = false ∨ (s.arb e).cut = true →
      exec (.grantEnd e) s = .next (s.modArb e fun a => { a with ending := true })) ∧
    ((s.arb e).holder = none → exec (.grantEnd e) s = .next s.engEnds) ∧
    (∀ q d u v, (s.arb e).holder = some q → (s.arb e).dl = some d → u = s.goTo d → (u.arb e).holder = some q → (u.arb e).ending = false → q < 64 →
      v = ((u.modArb e fun a => { a with dl := none }).markCut (BitVec.ofNat 6 q) e).bump (Eng.cutCtr e) →
      (v.arbMode = .service → exec (.holdWatchdogExpiry e) s = .next (v.cutGrant e).closeCycle) ∧
      (v.arbMode ≠ .service → exec (.holdWatchdogExpiry e) s = .next v.closeCycle)) ∧
    (s.be.sweeps ≠ [] → s.running = true → (s.arbB.holder ≠ some 65 ∨ s.arbB.ending = true) →
      exec .emergencyPreempt s = .next ((s.cutGrant .be).modArb .be fun a => { a with won := some 65 })) ∧
    (∀ u, u = s.toPhase0 → exec .hintUpdate s = .next { u with arb0 := { u.arb0 with hints := u.hintsOf .te0 }, arb1 := { u.arb1 with hints := u.hintsOf .te1 }, arbB := { u.arbB with hints := u.hintsOf .be } }) ∧
    (∀ o t u, s.stepReady.isSome = true → u = s.toPhase0 → u.stepReady = some o → u.be.issued ≠ some u.clk.tick → u.beginStep o = some t →
      exec .bulkStepIssue s = .next ((({ t with be := { t.be with issued := some t.clk.tick } } : State).bump 0xE40).pump)) ∧
    (∀ n o b, s.nthStep n = some (o, b) → s.stepOver o b = true →
      (b.more = false → exec (.bulkStepComplete n) s = .next ((s.stepDone o b).modOp o.id fun p =>
        { p with outst := p.outst.filter fun c => c.pos != b.pos, done := p.done + 1 })) ∧
      (b.more = true → exec (.bulkStepComplete n) s = .next (s.modOp o.id fun p =>
        { p with outst := p.outst.filter fun c => c.pos != b.pos, again := if p.stopped then p.again else p.again ++ [b.pos] })))

/-- The events of a fold. A source hands a quiet set over to every destination. Moving entries are installed youngest first, with the set's
suspicion, and what finds no room waits and is tried again in the next tick. FMARK is answered by FMACK, which releases what waits for
it. A forwarded request or writeback is admitted where its set is installed, and waits there while entries of its set are still to come;
its end frees the source's entry, returns the credit and sends the next. The source serves the firn for the destination. At phase 0
after the last step the new map is current and the epoch bit toggles; when the old epoch has drained the departing slices freeze and the
command ends. (R378, R379, R380, R381, R382, R489) -/
def Obligations.FoldEventsComplete : Prop :=
  ∀ (s : State) (k : Nat) (p : Pkt) (n : Hs),
    (∀ f set, s.fold = some f → f.started = true → f.flipped = false → f.dests n ≠ [] → s.handing set = true →
      (s.slice n).moved.contains set = false → s.hsUp n = true → s.setQuiet f n set = true →
      exec (.setHandover n set) s = .next (((f.dests n).foldl (fun s d => s.handTo f n d set) s).modSlice n fun y => { y with moved := y.moved ++ [set] })) ∧
    (AtHs s k p n → ∀ u, u = s.ejected k p →
      (∀ src set es sp v, s.body p = some (.moving src set es sp) → v = (sp.elim u fun t => u.modSlice n fun x => x.markSet set t) →
        ((v.installAll n set (byAge es)).2 = [] → exec (.movingEntryInstall k) s = .next ((v.installAll n set (byAge es)).1.releaseEarly n).pump) ∧
        ((v.installAll n set (byAge es)).2 ≠ [] → exec (.movingEntryInstall k) s = .next (((v.installAll n set (byAge es)).1.modSlice n fun x =>
          { x with install := x.install ++ [(src, set, (v.installAll n set (byAge es)).2)] }).releaseEarly n).pump)) ∧
      (∀ d src set ps, s.body p = some (.fmack d src set ps) →
        exec (.fmack k) s = .next ((u.modSlice n fun y => { y with noAck := y.noAck.erase (src, set, ps) }).release379 n)) ∧
      (∀ x d r w, s.body p = some (.fwd x d r w) → u.coming n r.lix = true →
        exec (.forwardedRequest k) s = .next (u.modSlice n fun x => { x with early := x.early ++ [(r, w)] })) ∧
      (∀ x d r w, s.body p = some (.fwd x d r w) → u.coming n r.lix = false →
        (w = false → exec (.forwardedRequest k) s = .next (u.admitGeneral n r).pump) ∧
        (w = true → r.cls = .mw → exec (.forwardedRequest k) s = .next (u.admitMw n r).pump) ∧
        (w = true → r.cls = .cln → exec (.forwardedRequest k) s = .next (u.admitCln n r).pump) ∧
        (w = true → r.cls = .bic → exec (.forwardedRequest k) s = .next (u.admitBic n r).pump)) ∧
      (∀ y d r x v, s.body p = some (.fwdFreed y d r) →
        ((u.slice n).trk.find? fun x => x.req.fwd && x.resv == .writeback && x.req.station == r.station && x.req.wbc == r.wbc) = some x →
        v = (u.endTrk n x.id).send (hsStop n) (psStop r.station) .rsp true (.wbcr n r.station r.wbc) →
        ((v.slice n).fwdQ = [] → exec (.forwardedEntryFreed k) s = .next v.pump) ∧
        (∀ q rest, (v.slice n).fwdQ = q :: rest → exec (.forwardedEntryFreed k) s =
          .next ((v.modSlice n fun y => { y with fwdQ := rest }).send (hsStop n) (hsStop d) .req false (.fwd n d q true) (some (q.itk, q.urg))).pump)) ∧
      (∀ d x acc ci fl, s.body p = some (.agReq d x acc ci fl .read) → exec (.firnAgencyRequest k) s = .next (u.addAcc n ci fl 0 (.agency d acc)).pump) ∧
      (∀ d x acc ci fl j l a, s.body p = some (.agReq d x acc ci fl (.write j l)) →
        ((u.slice n).facc.find? fun a => a.kind == .agency d acc && a.ci == ci && a.fl == fl) = some a →
        exec (.firnAgencyRequest k) s = .next (u.firnWrite n a j l).pump) ∧
      (∀ d x acc ci fl a, s.body p = some (.agReq d x acc ci fl .done) →
        ((u.slice n).facc.find? fun a => a.kind == .agency d acc && a.ci == ci && a.fl == fl) = some a → a.dirty = [] →
        exec (.firnAgencyRequest k) s = .next (u.closeAcc n a.id).pump) ∧
      (∀ x y acc z fl ls, s.body p = some (.agRsp x y acc z fl ls) →
        (((u.slice n).facc.any fun a => a.id == acc) = false → exec (.firnAgencyResult k) s =
          .next (u.send (hsStop n) (hsStop x) .req false (.agReq n x acc z fl .done))) ∧
        (((u.slice n).facc.any fun a => a.id == acc) = true →
        (ls = [] → exec (.firnAgencyResult k) s = .next (u.wroteLine n acc).pump) ∧
        (ls ≠ [] → exec (.firnAgencyResult k) s =
          .next ((((List.range 4).zip ls).foldl (fun (s : State) (p : Nat × Line) => s.gotLine n acc p.1 p.2 []) u).pump))))) ∧
    (∀ q, AtPs s k p q → ∀ src dst set ps, s.body p = some (.fmark src dst set ps) →
      exec (.fmark k) s = .next ((s.ejected k p).send (psStop q) (hsStop dst) .rsp false (.fmack dst src set ps))) ∧
    (∀ f o u, s.fold = some f → s.foldOp = some o → f.flipped = false → u = s.toPhase0 →
      exec .sliceMapEpochFlip s = .next { u with smap := f.newMap, smep := !u.smep, fold := some { f with flipped := true }, be := { u.be with ops := u.be.ops.erase o } }) ∧
    (∀ f u gone, s.fold = some f → f.flipped = true → s.epochDrained = true → gone = sliceDoms (mapLess f.oldMap f.newMap) →
      u = ({ s.toPhase0 with fold := none, slices := s.toPhase0.slices.map fun (p : Nat × Slice) => (p.1, ({ p.2 with moved := [] } : Slice)) } : State).bump 0xEA2 →
      (f.cmd = none → exec .sliceMapEpochDrain s = .next (u.startFreeze gone false false)) ∧
      (∀ c, f.cmd = some c → gone = [] → exec .sliceMapEpochDrain s = .next (u.finish c .done)) ∧
      (∀ c, f.cmd = some c → gone ≠ [] → exec .sliceMapEpochDrain s = .next (({ u with mc := { u.mc with
        longs := u.mc.longs.map fun (l : LongCmd) => if l.cmd == c then { l with job := .fold gone } else l } } : State).startFreeze gone false false)))

/-- The steps of a freeze and of a thaw, their time limits, and a lost supply. At phase 0 the port of an idle unit closes, of both domains
of a slice together, PG_TIMEOUT starts and the signals change tick by tick; the power-off acknowledge, of both domains, brings OFF at
the next phase 0. PG_TIMEOUT fails a freeze, which stays FREEZING, or a thaw, which returns to OFF, with a fault and PWR_FAULT.
FRZ_DRAIN_TMO abandons a freeze that did not ask for force, with TIMEOUT, and forces any other. A packet for a forced freeze returns as
NACK-FROZEN and is sent again at its sender. Power good counts, and with both domains of a pair the isolation and retention are
released; the ready unit is ON at phase 0. A supply lost with work inside is fatal; without, the domain is OFF and its outputs change at
the next phase 0, and it is thawed again. (R369, R370, R371, R372, R373, R364, R480, R491) -/
def Obligations.PowerEventsComplete : Prop :=
  ∀ (s : State) (d : BitVec 7) (k : Nat),
    (∀ u, u = s.toPhase0 → ((domPair d).all fun e => (u.dom e).st == .freezing && !(u.dom e).fenced) = true → u.unitIdle d = true →
      u.noneTo (domStop d) = true → exec (.freezeFence d) s = .next ((domPair d).foldl State.fenceDom u)) ∧
    (∀ (u v : State) (x : Dom), v = u.setDom d { x with fenced := true, dl := some (u.clk.tick + 4 + BitVec.ofNat 48 u.params.pgTmo) } → x = u.dom d →
      u.fenceDom d = (if x.toRet then (v.later 1 (.domSig d (some true) none none)).later 2 (.domSig d none (some true) none)
        else v.later 1 (.domSig d (some true) none none)).later 3 (.domSig d none none (some false))) ∧
    (∀ u, (s.dom d).st = .freezing → (s.dom d).fenced = true → (s.dom d).req = false → (s.dom d).dl.isSome = true →
      u = s.setDom d { s.dom d with ack := false, good := false } →
      (((domPair d).all fun e => !(u.dom e).ack && !(u.dom e).good) = false → exec (.powerOffAck d) s = .next u) ∧
      (((domPair d).all fun e => !(u.dom e).ack && !(u.dom e).good) = true → exec (.powerOffAck d) s =
        .next ((domPair d).foldl (fun s e => (s.modDom e fun y => { y with dl := none }).later 1 (.dom e .off)) u))) ∧
    (∀ t u, (s.dom d).dl = some t → u = (s.goTo t).toPhase0 → (u.dom d).dl = some t →
      ((u.dom d).st = .freezing → exec (.pgTimeoutExpiry d) s =
        .next ((((domPair d).foldl (fun s e => s.modDom e fun x => { x with dl := none }) u).pdFault d).pdFail d .pwrFault).closeCycle) ∧
      ((u.dom d).st ≠ .freezing → exec (.pgTimeoutExpiry d) s = .next (((domPair d).foldl (fun s e => s.unitOff e)
        ((domPair d).foldl (fun s e => s.modDom e fun x => { x with dl := none, req := false, counted := false, st := .off }) (u.pdFault d))).pdFail d .pwrFault).closeCycle)) ∧
    (∀ u, (s.dom d).st = .freezing → (s.dom d).fenced = false → (s.dom d).forced = false → u = s.goTo ((s.dom d).t1 + BitVec.ofNat 48 s.params.frzTmo) →
      (u.dom d).st = .freezing → (u.dom d).fenced = false →
      ((s.dom d).force = true → exec (.frzDrainTmoExpiry d) s = .next ((domPair d).foldl (fun s e => s.modDom e fun y => { y with forced := true }) u).closeCycle) ∧
      ((s.dom d).force = false → exec (.frzDrainTmoExpiry d) s = .next (((domPair d).foldl (fun s e =>
        if (s.dom e).st == .freezing && !(s.dom e).fenced then s.later 1 (.dom e .on) else s) u).pdFail d .timeout).closeCycle)) ∧
    (∀ p : Pkt, Arrives s k p →
      (∀ m e, s.body p = some (.nack m) → stopDom (s.newDest m p.src) = some e → s.isOn e = true → exec (.nackFrozen k) s =
        .next ((s.ejected k p).send p.dst (s.newDest m p.src) m.net.1 m.net.2 m (some (s.itkOf p, BitVec.ofNat 3 (s.urgency p))))) ∧
      (∀ e m, s.body p = some m → (∀ x, m ≠ .nack x) → stopDom p.dst = some e → (s.dom e).st = .freezing → (s.dom e).forced = true →
        (s.dom e).fenced = false → exec (.nackFrozen k) s =
          .next ((s.ejected k p).send p.dst p.src .rsp false (.nack m) (some (s.itkOf p, BitVec.ofNat 3 (s.urgency p)))))) ∧
    (∀ u, (s.dom d).st = .thawing → (s.dom d).req = true → (s.dom d).counted = false → (s.dom d).dl.isSome = true →
      u = s.setDom d { s.dom d with counted := true, ack := true, good := true } →
      (((domPair d).all fun e => (u.dom e).counted) = false → exec (.powerGood d) s = .next u) ∧
      (((domPair d).all fun e => (u.dom e).counted) = true →
        exec (.powerGood d) s = .next ((domPair d).foldl (fun v e => ((v.modDom e fun y => { y with dl := none, t1 := v.clk.tick + (if (domPair d).any fun e => decide (32 ≤ e.toNat) && decide (e.toNat < 64) && !(u.dom e).ret then 1026 else 2) }).later
            1 (.domSig e none (some false) none)).later 2 (.domSig e (some false) none none)) u))) ∧
    (((domPair d).all fun e => (s.dom e).st == .thawing && (s.dom e).counted && (s.dom e).dl.isNone) = true →
      exec (.thawReady d) s = .next ((domPair d).reverse.foldl (fun s e => s.domTo e .on) (s.goTo ((s.dom d).t1 + 1)).toPhase0).pump) ∧
    (s.isOn d = true → (s.dom d).good = true →
      (d.toNat < 64 ∨ (72 ≤ d.toNat ∧ d.toNat ≤ 82) → s.holdsWork d = true →
        exec (.pgoodLoss d) s = .next (s.fatal { chk := 8, chn := d.setWidth 12 } (domStop d) 0x0F)) ∧
      (¬((d.toNat < 64 ∨ (72 ≤ d.toNat ∧ d.toNat ≤ 82)) ∧ s.holdsWork d = true) → ∀ u,
        u = (if 64 ≤ d.toNat ∧ d.toNat < 72 then (s.psLost (d.setWidth 3)).faultEv 3 { chk := 8, chn := d.setWidth 12 } (domStop d) 0x0F else s) →
        exec (.pgoodLoss d) s = .next (((domPair d).foldl (fun s e =>
          ((s.modDom e fun x => { x with good := false, ack := false }).later 1 (.domSig e (some true) (some false) (some false))).later 1
            (.dom e .off)) u).later 1 (.thaw (domPair d))).pump))

/-- The mesh from router to router, and route-epoch swaps. An output moves its best candidate one hop, or takes it to the unit at the
router, and remembers the queue granted. The flits of a link arrive in their order; one that arrives is taken, with a corrected bit
counted; one in error awaits the replay, which is counted as a transient fault of the link, or of the router whose queue erred. A packet
at the head of its queue that has found no adaptive credit for 8 cycles moves on through the escape channel where that has credit. The
route epoch flips four ticks after a swap began; when the old epoch's count is zero the held packets go, the command ends and the next
swap begins; when it is not RTE_DRAIN_TMO ticks after the flip, that is fatal. (R342, R346, R347, R348, R351, R356, R357, R358, R359,
R360, R361) -/
def Obligations.MeshEventsComplete : Prop :=
  ∀ (s : State) (k : Nat) (p : Pkt) (stop : Stop) (port : BitVec 3),
    (∀ u, s.bestOf (s.candidates stop.toNat port.toNat) = some (k, p) →
      ((∃ t, nbr stop.toNat port.toNat = some t ∧ u = s.hop k p stop.toNat port.toNat t p.esc) ∨ (nbr stop.toNat port.toNat = none ∧ u = s.eject k p)) →
      exec (.routerGrant stop port) s = .next ({ u with mesh := { u.mesh with
        rot := tPut u.mesh.rot (stop.toNat * 8 + port.toNat) (BitVec.ofNat 7 p.queue) } } : State).injectAll) ∧
    (∀ st q t esc, (s.hop k p st q t esc).mesh.pkts = s.mesh.pkts.set k { p with urg := BitVec.ofNat 3 (s.urgency p), link := true, esc := esc, at' := some (BitVec.ofNat 6 t, BitVec.ofNat 3 (oppPort q)), came := s.clk, qn := s.mesh.seq }) ∧
    (s.mesh.pkts[k]? = some p → p.at' = some (stop, port) → p.link = true → s.replaying stop port = false → s.firstOnLink p = true →
      ∀ u, u = ({ s with mesh := { s.mesh with pkts := s.mesh.pkts.set k { p with link := false, came := s.clk } } } : State) →
      exec (.flitArrival k .ok) s = .next u ∧ exec (.flitArrival k .corrected) s = .next (u.bump (0xF00 + 2 * stop.toNat)) ∧
      exec (.flitArrival k .uncorrectable) s = .next { s with mesh := { s.mesh with replays := s.mesh.replays ++ [(stop.toNat, port.toNat)] } }) ∧
    (s.replaying stop port = true → exec (.replay stop (some port)) s = .next
      ((({ s with mesh := { s.mesh with replays := s.mesh.replays.erase (stop.toNat, port.toNat) } } : State).bump (0xF01 + 2 * stop.toNat)).faultEv
        2 { chk := 6, chn := BitVec.ofNat 12 (4 * stop.toNat + port.toNat - 1) } stop 0x09)) ∧
    exec (.replay stop none) s = .next (s.faultEv 2 { chk := 5, chn := stop.setWidth 12 } stop 0x09) ∧
    (∀ e l t, s.mesh.pkts[k]? = some p → p.esc = false → s.atHead p = true → (s.mesh.bank p.rte).ports p.here.1 p.here.2 p.dst.toNat = e :: l →
      s.starved p p.here.1 (e :: l) = true → nbr p.here.1 e = some t → p.flits ≤ s.credit t (oppPort e) p.vnet true → s.outBusy p.here.1 e = false →
      exec (.escapeFallback k) s = .next (s.hop k p p.here.1 e t true).injectAll) ∧
    (∀ w u m, s.mesh.swap = some w → w.flipped = false → u = s.goTo (w.t0 + 4) →
      m = { u.mesh with rtep := !u.mesh.rtep, swap := some { w with flipped := true, flipTick := u.clk.tick } } → exec .routeEpochFlip s =
      .next { u with mesh := { m with pkts := m.pkts.map fun (p : Pkt) => if p.wait then { p with held := m.holds p.src p.dst p.ord } else p } }) ∧
    (∀ w u v, s.mesh.swap = some w → w.flipped = true → s.oldEpoch = false →
      u = ({ s.toPhase0 with mesh := { s.toPhase0.mesh with swap := none, pkts := s.toPhase0.mesh.pkts.map fun (p : Pkt) => { p with held := false } } } : State).injectAll.bump 0xEA1 →
      v = (w.cmd.elim u fun c => u.finish c .done) →
      (v.mesh.queued = [] → exec .routeEpochDrained s = .next v) ∧
      (∀ a st q c r, v.mesh.queued = (a, st, q, c) :: r →
        exec .routeEpochDrained s = .next (({ v with mesh := { v.mesh with queued := r } } : State).fence a st q c))) ∧
    (∀ w u, s.mesh.swap = some w → w.flipped = true → u = s.goTo (w.flipTick + BitVec.ofNat 48 s.params.rteTmo) →
      exec .rteDrainTmoExpiry s = .next (if u.oldEpoch then u.fatal (noChan 0x11) mcStop 0x11 else u))

/-- Calibration, scrubs, rotation, telemetry, buckets and retirement procedures. A task of the churn has the slots of its slice in the order
of R415. The oldest sample of a slice, with no bulk step before it, moves its requester's summary by R422. A scrub of the SF, one of the
firn and the telemetry of an epoch become ready and wait while a bulk step, a calibration write or a move is ready; with none they are
served, the two scrubs in turn, then the telemetry; in the exceptional slot they come first. A rotation move starts where its set is
homed. A leak of the buckets comes at its tick. The walk of a retired way lets one entry go a set and waits at a pinned one; the
firmware carries on every procedure and fence under way, and returns to SERVICE after the last procedure, unless it is still in START.
(R97, R98, R414, R415, R416, R420, R422, R425, R481, R484, R485, R488) -/
def Obligations.ChurnEventsComplete : Prop :=
  ∀ (s : State) (n : Hs),
    (∀ c x r, (s.slice n).calQ = (c, x) :: r → s.hsUp n = true → s.lastSlot = false → s.bulkReady n = false →
      (∀ err u e, err ≠ .uncorrectable → e = calSample (tGet (s.slice n).cal c.toNat) x →
        u = s.modSlice n (fun y => { y with calQ := r, cal := tPut y.cal c.toNat e }) →
        exec (.calibrationWrite n err) s = .next (((u.bump (hsCtr n 21)).tapCal n c x e.mean).churn n)) ∧
      (∀ u, u = (s.bump (hsCtr n 22)).modSlice n (fun y => { y with calQ := r, cal := tPut y.cal c.toNat (calSample none x) }) →
        exec (.calibrationWrite n .uncorrectable) s = .next (((u.bump (hsCtr n 21)).tapCal n c x x).churn n))) ∧
    (∀ errs, s.hsUp n = true → s.works (sfDom n) = true → (s.slice n).sfWait = none →
      exec (.sfScrub n errs) s = .next ((s.modSlice n fun x => { x with sfWait := some errs }).churn n)) ∧
    (s.hsUp n = true → (s.slice n).fsWait = false → (s.nextScrub n).isSome = true →
      exec (.firnScrub n) s = .next ((s.modSlice n fun x => { x with fsWait := true }).churn n)) ∧
    (∀ i, s.aheadOfScrub n = true → s.churnRun n i = s) ∧
    (∀ i, s.aheadOfScrub n = false → (s.slice n).waits = true → s.churnRun n (i + 1) = (s.scrubSlot n).churnRun n i) ∧
    (s.lastSlot = true → (s.slice n).waits = true → ∃ t : State, s.churn n = t ∧ ∀ u, u = (s.scrubSlot n).churnRun n 3 →
      t = (if (u.slice n).waits && !u.sched.any (fun e => e.2 == .churnSlot n) then u.later (64 - u.clk.tick.toNat % 64) (.churnSlot n) else u)) ∧
    (∀ errs, (s.slice n).sfWait = some errs → (s.slice n).fsWait = false ∨ (s.slice n).lastSf = false → ∃ t : State,
      s.scrubSlot n = t.sfScrub n errs ∧ (t.slice n).sfWait = none ∧ (t.slice n).lastSf = true) ∧
    (∀ c fl, (s.slice n).fsWait = true → s.nextScrub n = some (c, fl) → (s.slice n).sfWait = none ∨ (s.slice n).lastSf = true → ∃ t : State,
      s.scrubSlot n = t.firnScrub n c fl ∧ (t.slice n).fsWait = false ∧ (t.slice n).lastSf = false) ∧
    ((s.slice n).sfWait = none → (s.slice n).fsWait = false → (s.slice n).telWait = true → s.scrubSlot n = s.telSend n) ∧
    (∀ c, s.mayMove n c = true → s.lastSlot = false →
      (s.moveBulk c = true → exec (.rotationMove n c) s = .next ((s.addAcc n c (s.inst c).moveSet 0 .move).pump.churn n)) ∧
      (s.moveBulk c = false → (s.inst c).rotBusy = false → 0 < (s.inst c).rotPend → s.bulkReady n = false → (s.slice n).calQ = [] →
        exec (.rotationMove n c) s = .next
          (((s.setInst c { s.inst c with rotBusy := true, rotPend := (s.inst c).rotPend - 1 }).addAcc n c (s.inst c).moveSet 0 .move).pump.churn n))) ∧
    (∀ u v, u = s.toMultiple (2 ^ s.params.telLog2) → v = ({ u with
        calSeen := []
        slices := u.slices.map fun p => if u.works (BitVec.ofNat 7 p.1) then (p.1, { p.2 with telWait := true }) else p
        obs := { u.obs with incs := u.obs.incs ++ u.obs.pre, pre := [] } } : State) →
      exec .telemetryEpoch s = .next (v.slices.foldl (fun s p => s.churn (BitVec.ofNat 5 p.1)) v.imeans)) ∧
    (∀ u l, l = max 1 (s.params.lbWin / s.params.lbThr) →
      u = (if s.clk.phase = 0 && s.leak == some (s.clk.tick, true) then s.goTo (BitVec.ofNat 48 (s.clk.tick.toNat / l * l + l)) else s.toMultiple l) →
      (u.leak ≠ some (u.clk.tick, false) → exec .bucketLeak s =
        .next { u with buckets := (u.buckets.map fun b => (b.1, b.2 - 1)).filter (fun b => b.2 != 0), leak := some (u.clk.tick, true) }) ∧
      (u.leak = some (u.clk.tick, false) → exec .bucketLeak s = .next { u with leak := some (u.clk.tick, true) })) ∧
    (∀ w i, s.walking n = some w → (s.slice n).walk = some (w, i) → i < 16384 → s.hsUp n = true → ∀ key, key = wayKey (BitVec.ofNat 14 i) w.toNat →
      (tGet (s.slice n).sf key = none → exec (.wayRetirementWalk n) s = .next (s.modSlice n fun x => { x with walk := some (w, i + 1) })) ∧
      (∀ e, tGet (s.slice n).sf key = some e →
        ((s.slice n).pinned (e.lix (BitVec.ofNat 14 i)) = true → exec (.wayRetirementWalk n) s = .next (s.modSlice n fun x => { x with walk := some (w, i) })) ∧
        (∀ u, (s.slice n).pinned (e.lix (BitVec.ofNat 14 i)) = false → s.evict n key e = some u →
          exec (.wayRetirementWalk n) s = .next (u.modSlice n fun x => { x with walk := some (w, i + 1) }).pump))) ∧
    (∀ u, s.ret.running ≠ [] → s.running = true → s.mc.bstate = .starting ∨ s.mc.bstate = .ready →
      (s.ret.running.foldl State.retireOne s).fenceWaits = [] → u = s.ret.running.foldl State.retireOne s →
      exec .retirementProcedureEnd s = .next ((if u.ret.running.isEmpty && u.arbMode != .start then { u with arbMode := .service } else u).pump))

/-- Trace records, the trace output and counter increments. A tap injects its oldest records, two to a flit, when its unit has no other
packet waiting on that network; a record that arrives enters the buffer while OBS is ON and is dropped otherwise. A record leaves on the
trace output; its corrected words are counted; the last of a dump ends the dump. An increment is added to its counter while OBS is ON
and is discarded otherwise. (R430, R434, R435, R438, R522, R529) -/
def Obligations.TraceEventsComplete : Prop :=
  ∀ (s : State) (stop : Stop) (n f : Nat) (ue : Bool),
    (∀ u k p r v, u = (if (s.traceIdx stop).isSome then s else s.tapSend stop) → u.traceIdx stop = some k → Arrives u k p → u.body p = some (.trace r) →
      v = u.ejected k p →
      (v.isOn 84 = true → exec (.traceRecord stop) s = .next (v.capture r)) ∧ (v.isOn 84 = false → exec (.traceRecord stop) s = .next v)) ∧
    (∀ r rest, (tGet s.obs.taps stop.toNat).getD [] = r :: rest → (s.mesh.pkts.any fun p => p.wait && p.src == stop && p.vnet == .mgt) = false →
      ∃ q : Pkt, (s.tapSend stop).mesh.pkts = s.mesh.pkts ++ [q] ∧ q.src = stop ∧ q.dst = obsStop ∧ q.vnet = .mgt ∧
        q.bodies = (r :: rest.take 1).map Msg.trace) ∧
    (∀ r rest u, s.obs.ring = false ∨ s.obs.dumping = true → s.obs.buf = r :: rest →
      u = (({ s with obs := { s.obs with buf := rest } } : State).emit (.trace r.word ue)).qceAdd 2 f →
      (rest = [] ∧ s.obs.dumping = true → exec (.traceOutput ue f) s = .next u.dumpEnd) ∧
      (rest ≠ [] ∨ s.obs.dumping = false → exec (.traceOutput ue f) s = .next u)) ∧
    (∀ i v, s.obs.incs[n]? = some (i, v) →
      (s.isOn 84 = true → exec (.counterIncrement n) s = .next { s with obs := { s.obs with
        incs := s.obs.incs.eraseIdx n
        cnt := tPut s.obs.cnt i ((tGet s.obs.cnt i).getD 0 + BitVec.ofNat 64 v) } }) ∧
      (s.isOn 84 = false → exec (.counterIncrement n) s = .next { s with obs := { s.obs with incs := s.obs.incs.eraseIdx n } }))

/-- The twin link: its negotiation, heartbeats, leases, acknowledgements and forwarded rules. The rise of TW_LUP sends THELLO; a low sample,
or an uncorrectable word, loses the link. THELLO settles the pair level, or INCOMPAT, looks at the partner's roles and renews the lease.
THB goes out at its tick, and a word of it that is uncorrectable loses the link; any packet renews the lease; without one for the lease
time every Primary lapses. MACK moves the acknowledged number forward and lets what waited go. A forwarded rule, role or handover
changes the Mirror. (R386, R391, R394, R396, R397, R400, R403, R404, R405, R407, R408, R523) -/
def Obligations.TwinLinkEventsComplete : Prop :=
  ∀ (s : State) (c : Ci),
    (s.tw.linkUp = false → s.tw.incompat = false → ∀ u, u = ({ s with tw := { s.tw with lup := true } } : State) →
      exec .twinLinkUp s = .next (if u.twinIn then (u.twinCause 0).emit u.hello else u)) ∧
    (∀ ue, s.tw.held = false → s.works 83 = true →
      exec (.twLupLow ue) s = .next { s.twinLost with tw := { s.twinLost.tw with lup := ue && s.tw.lup } }) ∧
    (∀ cmin cmax lvl lev peps u v w, s.twinIn = true → lev = (if s.mc.clevMax.toNat ≤ cmax.toNat then s.mc.clevMax else cmax) →
      (s.mc.clevMin.toNat ≤ lev.toNat ∧ cmin.toNat ≤ lev.toNat → u = (if s.tw.plev != lev then s.twinCause 2 else s) →
        v = ({ u with tw := { u.tw with linkUp := true, incompat := false, pMin := cmin, pMax := cmax, plev := lev, nextHb := if u.tw.linkUp then u.tw.nextHb else u.timer u.params.twHb } } : State) →
        w = peps.foldl State.helloInst v →
        exec (.thello cmin cmax lvl peps) s = .next ((w.insts.foldl (fun (s : State) p => s.ungate (BitVec.ofNat 6 p.1)) w.renew).pump)) ∧
      (lev.toNat < s.mc.clevMin.toNat ∨ lev.toNat < cmin.toNat → u = (if s.tw.incompat then s else s.twinCause 1) →
        v = ({ u with tw := { u.tw with linkUp := false, incompat := true, pMin := cmin, pMax := cmax, nextHb := if u.tw.linkUp then u.tw.nextHb else u.timer u.params.twHb } } : State) →
        w = peps.foldl State.helloInst v →
        exec (.thello cmin cmax lvl peps) s = .next ((w.insts.foldl (fun (s : State) p => s.ungate (BitVec.ofNat 6 p.1)) w.renew).pump))) ∧
    (∀ u v, s.twinIn = true → s.tw.linkUp = true → u = s.goTo s.tw.nextHb →
      v = ({ u with tw := { u.tw with nextHb := u.timer u.params.twHb } } : State) →
      exec (.thbSend .ok) s = .next (v.emit .twinBeat) ∧ exec (.thbSend .corrected) s = .next ((v.qceAdd 4 1).emit .twinBeat) ∧
      exec (.thbSend .uncorrectable) s = .next v.twinLost) ∧
    (s.twinIn = true → exec (.twinPacket false) s = .next s.renew ∧ exec (.twinPacket true) s = .next (s.qceAdd 3 1).renew) ∧
    (∀ t u, s.tw.lastPkt = some t → s.strapTwin = true → s.inReset = false → (s.insts.any fun p => p.2.twin && !p.2.lapsed) = true →
      u = s.goTo (t + BitVec.ofNat 48 s.params.twLease) → exec .twinLeaseLapse s =
        .next (({ u with insts := u.insts.map fun (p : Nat × Inst) => if p.2.twin then (p.1, { p.2 with lapsed := true }) else p } : State).twinCause 3).closeCycle) ∧
    (∀ q pepl u, s.twinIn = true → s.tw.linkUp = true → u = s.renew → (u.inst c).pep.setWidth 8 = pepl → (u.inst c).role = .primary →
      (q + 1 - (u.inst c).acked).toNat < 2 ^ 15 →
      exec (.mack c q pepl) s = .next ((((u.setInst c { u.inst c with acked := q + 1 }).ungate c).handoverGo c).pump)) ∧
    (∀ w cmd u, s.twinIn = true → s.tw.linkUp = true → rKind w = 8 → rCi w = c → u = s.renew.bump 0xE81 →
      (cOp cmd = 0x601 → (u.inst c).st = .idle → (u.inst c).role ≠ .primary →
        exec (.mrule w cmd) s = .next (((u.setInst c { u.inst c with role := .mirror, strict := cPar cmd 0 1 == 0, pep := 1, exact := false, twr := false, lapsed := false, alone := false, rseq := rSeq w + 1, acked := rSeq w + 1 }).uncacheTwin c).emit
          (.twinMack c (rSeq w) 1))) ∧
      ((u.inst c).pep.setWidth 8 = rPepl w → (u.inst c).role = .mirror →
        (cOp cmd = 0x602 → exec (.mrule w cmd) s = .next (u.roleNone c)) ∧
        (cOp cmd = 0x603 → exec (.mrule w cmd) s = .next ((((u.setInst c { u.inst c with role := .primary, pep := (u.inst c).pep + 1, rseq := 0, acked := 0, lapsed := false, alone := false, twr := false }).dropStore c).twinCause 6).later
          1 (.inst c .active))) ∧
        (∀ op, cOp cmd ≠ 0x601 → cOp cmd ≠ 0x602 → cOp cmd ≠ 0x603 → u.mirRule c cmd = some op →
          exec (.mrule w cmd) s = .next ((u.applyRule c op false).took c (rSeq w) false))))

/-- The records that a Mirror applies. Over an up link a record of its own kind, for an instance whose Mirror this engine is and in the pair
epoch that it names, renews the lease, is counted, has its effect and is taken by number: a directory entry takes its state, a line
enters or leaves the store, a group's lines wait and are applied together, the rotation and a hold window are set, a resynchronisation
ends. Any other is discarded and counted. (R395, R396, R397, R401, R407, R411, R412) -/
def Obligations.MirrorRecordsComplete : Prop :=
  ∀ (s : State) (w : BitVec 256) (d : Line), s.twinIn = true → s.tw.linkUp = true → ∀ u i c, u = s.renew.bump 0xE81 → c = rCi w → i = u.inst c →
    (i.pep.setWidth 8 = rPepl w → i.role = .mirror →
      (rKind w = 1 → exec (.mdir w) s = .next ((u.mirDir w).took c (rSeq w) false)) ∧
      (rKind w = 2 → exec (.mline w d) s = .next (({ u with tw := { u.tw with
        store := putLine u.tw.store { ci := c, lix := rLix w, gid := none, ended := true, psn := w.getLsbD 86, data := d } } } : State).took c (rSeq w) false)) ∧
      (rKind w = 3 → exec (.mldone w) s = .next (({ u with tw := { u.tw with
        store := u.tw.store.filter fun y => !(y.ci == c && y.lix == rLix w && y.ended) } } : State).took c (rSeq w) false)) ∧
      (rKind w = 4 → exec (.mgline w d) s = .next (({ u with tw := { u.tw with
        store := u.tw.store ++ [{ ci := c, lix := rLix w, gid := some (rGid w), ended := false, psn := false, data := d }] } } : State).took c (rSeq w) false)) ∧
      (rKind w = 5 → ∀ mine : MirLine → Bool, (∀ y, mine y = (y.ci == c && y.gid == some (rGid w) && !y.ended)) →
        exec (.mgend w) s = .next (({ u with tw := { u.tw with
          store := (u.tw.store.filter mine).foldl (fun l y => putLine l { y with ended := true }) (u.tw.store.filter fun y => !mine y) } } : State).took c (rSeq w) false)) ∧
      (rKind w = 6 → exec (.mrot w) s = .next ((u.modInst c fun i =>
        { i with rotStart := (w.extractLsb' 86 26).toNat, rotGap := (w.extractLsb' 112 27).toNat }).took c (rSeq w) false)) ∧
      (rKind w = 7 → ∀ n l, n = u.homeNow (u.home (rLix w)) (rLix w) → l = ((u.slice n).hold.filter fun y => !(y.lix == rLix w && y.cax == w.extractLsb' 86 10)) →
        exec (.mhold w) s = .next ((u.setSlice n { u.slice n with hold := (if l.length < 128 then l else l.drop 1) ++ [{ lix := rLix w, cax := w.extractLsb' 86 10, expiry := u.timer (w.extractLsb' 96 8).toNat }] }).took
          c (rSeq w) false)) ∧
      (rKind w = 9 → exec (.msynce w) s = .next ((u.twinCause 7).took c (rSeq w) true))) ∧
    (i.pep.setWidth 8 ≠ rPepl w ∨ i.role ≠ .mirror → ∀ t, t = u.bump 0xE82 →
      (rKind w = 1 → exec (.mdir w) s = .next t) ∧ (rKind w = 2 → exec (.mline w d) s = .next t) ∧ (rKind w = 3 → exec (.mldone w) s = .next t) ∧
      (rKind w = 4 → exec (.mgline w d) s = .next t) ∧ (rKind w = 5 → exec (.mgend w) s = .next t) ∧ (rKind w = 6 → exec (.mrot w) s = .next t) ∧
      (rKind w = 7 → exec (.mhold w) s = .next t) ∧ (rKind w = 9 → exec (.msynce w) s = .next t))

/-- Queue overruns, and the end of a bulk operation. A write to a full queue sets its OVERRUN bit, and on an inbound queue is a transient
fault of the queue's channel. A bulk operation that has run to its end leaves its queue and has its effect; the command it served goes
on, or ends. (R527, R528, R283, R285, R306, R310, R463, R465) -/
def Obligations.QueueOverrunsAndBulkEndsComplete : Prop :=
  ∀ (s : State) (n : Stn) (j : BitVec 2) (lp : Lp) (m : Mpid),
    (s.inReset = false →
      exec (.queueOverrun (.psOut n j)) s = .next (s.psOvr n (4 + j.toNat)) ∧
      exec (.queueOverrun (.psIn n j lp)) s = .next ((s.psOvr n j.toNat).faultEv 2 { chk := 3, chn := (lportOf n lp).setWidth 12 } (psStop n) 0x18) ∧
      exec (.queueOverrun (.psDin n lp)) s = .next ((s.psOvr n 8).faultEv 2 { chk := 3, chn := (lportOf n lp).setWidth 12 } (psStop n) 0x18) ∧
      exec (.queueOverrun (.psDout n)) s = .next (s.psOvr n 9) ∧
      exec (.queueOverrun (.msCmd n j)) s = .next (s.msOvr n j.toNat) ∧
      exec (.queueOverrun (.msCpl n j m)) s = .next ((s.msOvr n (4 + j.toNat)).faultEv 2 { chk := 4, chn := m.setWidth 12 } (msStop n) 0x18) ∧
      exec (.queueOverrun (.msDout n)) s = .next (s.msOvr n 8) ∧
      exec (.queueOverrun (.msDin n m)) s = .next ((s.msOvr n 9).faultEv 2 { chk := 4, chn := m.setWidth 12 } (msStop n) 0x18) ∧
      exec (.queueOverrun .cmdRing) s = .next ((s.ringErrBit 1).faultEv 2 { chk := 9, chn := 0 } mcStop 0x18) ∧
      exec (.queueOverrun .replyRing) s = .next (s.ringErrBit 3) ∧
      exec (.queueOverrun .trace) s = .next (s.ringErrBit 5) ∧
      exec (.queueOverrun .twinIn) s = .next ((s.ringErrBit 6).faultEv 2 { chk := 10, chn := 0 } twStop 0x18) ∧
      exec (.queueOverrun .twinOut) s = .next (s.ringErrBit 7)) ∧
    (∀ q o u, (s.be.ops.find? fun o => o.q == q && s.opDone o && !(o.kind == .fold && o.ended.isNone)) = some o →
      u = ({ s with be := { s.be with ops := s.be.ops.erase o }, mc := { s.mc with longs := s.mc.longs.map fun (l : LongCmd) => if l.cmd == o.cmd then { l with done := l.done + o.done } else l } } : State) →
      ∀ v, v = (if o.ended.getD .done = .done then u.opEffect o else u) →
      (∀ l, (v.mc.longs.find? fun l => l.cmd == o.cmd) = some l → exec (.bulkOperationEnd q) s = .next (v.opServed o (o.ended.getD .done) l).engEnds.pump) ∧
      ((v.mc.longs.find? fun l => l.cmd == o.cmd) = none → o.kind ≠ .fold → exec (.bulkOperationEnd q) s = .next v.engEnds.pump))

/-- A step runs the command at the front of the queue. A step of a state whose queue begins with the command c is c's effect on that state
with the queue's rest. (R500) -/
def Obligations.StepRunsFrontCommand : Prop :=
  ∀ (c : Instr) (r : List Instr) (s : State), s.pending = c :: r → step s = exec c { s with pending := r }

/-- A step on an empty queue is one core cycle (the model's choice, log entry 2). With nothing to do one core cycle passes: nothing while
the cold reset is held; else the phase goes on, or the tick with its phase 0, where what is due takes effect, and every lottery's LFSR
advances once; what an earlier cycle left to this one acts first, and at the end the request lines are seen and local ports take what
waits. (R1, R29, R31, R291) -/
def Obligations.StepOnEmptyQueue : Prop :=
  ∀ s : State, s.pending = [] →
    (s.coldLow = true → step s = .next s) ∧
    (s.coldLow = false → s.clk.phase ≠ 15 → step s = .next (({ s with clk := { s.clk with phase := s.clk.phase + 1 } } : State).stepLfsr 1).turn.twArrive.seeReq.injectAll) ∧
    (s.coldLow = false → s.clk.phase = 15 → step s = .next (((({ s with clk := { tick := s.clk.tick + 1, phase := 0 } } : State).stepLfsr 1).turn.twArrive.countTicks 1).applyDue.seeReq.injectAll))

/-- The byte memories have their canonical form after reset. After a reset the image, the profile store and the staging buffer list no byte
(log entries 6 and 7), in rising order and with no zero byte listed. (R445, R470, R475) -/
def Obligations.ResetMeetsRamForm : Prop :=
  State.reset.ramOk = true ∧ State.reset.pending = []

/-- Every step keeps the canonical form of every byte memory. From every state whose firmware image, profile store and staging buffer list
their bytes in strictly rising order with no zero byte listed, a step, whatever the command and whatever its operands, leaves them so.
(R445, R446, R470, R475, R476, R493) -/
def Obligations.StepKeepsRamForm : Prop :=
  ∀ s t : State, s.ramOk = true → step s = .next t → t.ramOk = true

/-- No command touches the queue of waiting commands. The queue is the model's own (log entry 1): whatever a command does, the commands that
wait are as they were. (R500) -/
def Obligations.CommandsLeaveTheQueueAlone : Prop :=
  ∀ (c : Instr) (s t : State), exec c s = .next t → t.pending = s.pending

/-- No command ends in a fault or a refusal. The manual gives every row an effect, or lets it be turned away with a reply, a completion or a
record: whatever the command, its operands and the state, the block goes on. (R10, R23, R240, R462, R477) -/
def Obligations.EveryCommandAnswersNext : Prop :=
  ∀ (c : Instr) (s : State), ∃ t : State, exec c s = .next t

/-- Every byte of the block's memories, the straps, the levels and the FM requesters outlive every other command. Apart from resets, the
commands that write the image or the profiles, the end of a verification, a command that is read again, and a plain register write, no
command changes a byte of the firmware image, the profile store or the staging buffer, the image's length, the straps as sampled, the
cold reset pin, the levels and version of the image, or the requesters of MW_FM. (R442, R443, R445, R470, R475, R476, R493, R533, R539) -/
def Obligations.OnlyImageAndProfileCommandsWriteMemory : Prop :=
  ∀ (c : Instr) (s t : State), c.writesKept = false → exec c s = .next t →
    (∀ a : Nat, memGet t.mc.img a = memGet s.mc.img a ∧ memGet t.mc.store a = memGet s.mc.store a ∧ memGet t.mc.staging a = memGet s.mc.staging a) ∧
    t.mc.imgLen = s.mc.imgLen ∧ t.strapProf = s.strapProf ∧ t.strapTwin = s.strapTwin ∧ t.coldLow = s.coldLow ∧
    t.mc.clevMin = s.mc.clevMin ∧ t.mc.clevMax = s.mc.clevMax ∧ t.mc.iver = s.mc.iver ∧
    t.regs.fmRq0 = s.regs.fmRq0 ∧ t.regs.fmV0 = s.regs.fmV0 ∧ t.regs.fmRq1 = s.regs.fmRq1 ∧ t.regs.fmV1 = s.regs.fmV1

/-- A command that the MC refuses changes nothing but its ring and its counters. Whatever the row and its body: a command that the MC reads,
whose format passes and which need not wait, is refused by the first check of R462 that fails or by its body, and leaves every part of
the block but the MC's rings and replies and the observation counters as it was; the bytes of the image, the store and the staging
buffer too. (R455, R457, R462, R440) -/
def Obligations.RefusedCommandChangesNothing : Prop :=
  ∀ (op : Nat) (w : BitVec 512) (b : State → Except Status State) (s t : State) (i : Nat) (r : OpRow) (st : Status),
    cOp w = op → s.readSlot w = some (i, t) → (cFmt w = 1 ∨ (cFmt w = 2 ∧ w.extractLsb' 64 32 = crcPar w)) → opRow op = some r →
    (t.served r.opc && t.mustDefer i w) = false → (t.check w r = some st ∨ (t.check w r = none ∧ b t = .error st)) →
    ∃ u : State, mcRow op w b s = .next u ∧ u = { s with mc := u.mc, obs := u.obs } ∧ u.kept = s.kept ∧
      u.mc.bstate = s.mc.bstate ∧ u.mc.longs = s.mc.longs ∧ u.obs.buf = s.obs.buf ∧ u.obs.cnt = s.obs.cnt

/-- What IMG_DATA and PROFILE_STAGE store is what is read there, and nothing else changes. After an IMG_DATA that is taken, and after a
PROFILE_STAGE, byte j of the 32 stored reads as byte j of the command's data, and every other byte of that memory, and of the two
others, reads as before. (R446, R475) -/
def Obligations.ImageAndStagingBytesRead : Prop :=
  ∀ (w : BitVec 512) (s t : State) (i : Nat),
    (Served 0x003 w s t i → cPar w 0 4 = s.mc.imgLen → (s.mc.imgLen < 512 ∨ s.mc.imgLen + 32 ≤ memGetN s.mc.img 0xC 4) → s.mc.imgLen + 32 ≠ 512 →
      ∃ u : State, exec (.imgData w) s = .next u ∧ u.mc.imgLen = s.mc.imgLen + 32 ∧
        (∀ j, j < 32 → memGet u.mc.img (s.mc.imgLen + j) = w.extractLsb' (256 + 8 * j) 8) ∧
        (∀ a, a < s.mc.imgLen ∨ s.mc.imgLen + 32 ≤ a → memGet u.mc.img a = memGet s.mc.img a) ∧
        (∀ a, memGet u.mc.store a = memGet s.mc.store a ∧ memGet u.mc.staging a = memGet s.mc.staging a)) ∧
    (Served 0x702 w s t i → cPar w 0 2 % 32 = 0 → cPar w 0 2 < 0x8000 →
      ∃ u : State, exec (.profileStage w) s = .next u ∧
        (∀ j, j < 32 → memGet u.mc.staging (cPar w 0 2 + j) = w.extractLsb' (256 + 8 * j) 8) ∧
        (∀ a, a < cPar w 0 2 ∨ cPar w 0 2 + 32 ≤ a → memGet u.mc.staging a = memGet s.mc.staging a) ∧
        (∀ a, memGet u.mc.store a = memGet s.mc.store a ∧ memGet u.mc.img a = memGet s.mc.img a))

/-- Tag and set index name one line. The line index recovered from the tag and the set index of a line is that line, so that two lines with
the same tag and the same set index are one. (R42) -/
def Obligations.LineRecoveredFromTagAndSet : Prop :=
  (∀ l : Lix, lineOf (lineTag l) (lineSet l) = l) ∧
  (∀ (t : BitVec 32) (set : BitVec 14), lineOf t set = ((t.setWidth 46) <<< 14) ||| ((set ^^^ tagScramble t).setWidth 46)) ∧
  (∀ l m : Lix, lineTag l = lineTag m → lineSet l = lineSet m → l = m)

/-- The LFSR of a lottery after n core cycles is n single steps. However far the clock is brought on at once, each engine's LFSR then holds
what R291's step gives when it is made once for each core cycle, from a seed that was written in place of the first; the step is the one
of R291, with its worked example. (R291) -/
def Obligations.LfsrRunsCycleByCycle : Prop :=
  (∀ x : BitVec 32, lfsrStep x = if x.getLsbD 0 then (x >>> 1) ^^^ 0x80200003 else x >>> 1) ∧ lfsrStep 0x5EED0001 = 0xAF568003 ∧
  (∀ (n : Nat) (x : BitVec 32), n < 2 ^ 52 → lfsrAfter n x = Nat.iterate lfsrStep n x) ∧
  (∀ (a : Arb) (n : Nat), n < 2 ^ 52 → (a.seed = none → (a.run n).lfsr = Nat.iterate lfsrStep n a.lfsr) ∧
    (∀ v, a.seed = some v → (a.run n).lfsr = Nat.iterate lfsrStep (n - 1) v ∧ (a.run n).seed = none)) ∧
  (∀ (s : State) (n : Nat), (s.stepLfsr n).arb0 = s.arb0.run n ∧ (s.stepLfsr n).arb1 = s.arb1.run n ∧ (s.stepLfsr n).arbB = s.arbB.run n)

/-- Who may use the management window. An access to the management window is accepted from a requester that MW_FM lists, and from every
requester while neither entry is valid; any other is answered Unsupported Request, counted with its requester, makes no violation record
and has no other effect, whatever its size and alignment. An access from a listed requester that fails R240 is not counted. (R533) -/
def Obligations.ManagementWindowRequesters : Prop :=
  ∀ (a : RegAcc) (s : State), a.win = 0x40 → s.psUp a.ps = true → a.mc = false →
    (∀ v0 v1, v0 = (s.regs.fmV0 && s.regs.fmRq0 == a.rqid) → v1 = (s.regs.fmV1 && s.regs.fmRq1 == a.rqid) →
      ((s.regs.fmV0 = true ∨ s.regs.fmV1 = true) → v0 = false → v1 = false → ∀ t, t = ({ s with
          regs := { s.regs with denyCnt := s.regs.denyCnt + 1, denyRq := a.rqid }, out := s.out ++ [.regUr a] } : State) →
        exec (.refusedRegisterRead a) s = .next t ∧ exec (.registerWrite a) s = .next t) ∧
      ((s.regs.fmV0 = false ∧ s.regs.fmV1 = false) ∨ v0 = true ∨ v1 = true →
        (a.formOk 0x10000 = true → exec (.refusedRegisterRead a) s = .next (s.emit (.regData a (s.regValue a))) ∧
          (a.mw 0x18 = false → exec (.registerWrite a) s = .next ((s.plainWrite a).emit (.regAck a)))) ∧
        (a.formOk 0x10000 = false → exec (.refusedRegisterRead a) s = .next (s.emit (.regUr a)) ∧
          exec (.registerWrite a) s = .next (s.emit (.regUr a)))))

/-- MW_TICK. A read of MW_TICK returns the tick counter in bits 47 to 0, the phase in bits 51 to 48 and zero above, as they stand at the
read (or the half of it that 4 bytes name); a write to it does nothing; a block warm reset leaves the counter running. (R537) -/
def Obligations.TickRegisterReadsTheClock : Prop :=
  ∀ (a : RegAcc) (s : State), a.mw 0x08 = true → s.regUp a = true → s.refuseReg a = none →
    (∀ v : BitVec 64, v = BitVec.ofNat 64 (s.clk.tick.toNat + s.clk.phase.toNat * 2 ^ 48) →
      exec (.refusedRegisterRead a) s = .next (s.emit (.regData a (if a.eight then v else if a.off = 0x0C then v >>> 32 else v &&& 0xFFFFFFFF)))) ∧
    exec (.registerWrite a) s = .next (s.emit (.regAck a)) ∧ s.warmReset.clk = s.clk

/-- A write to SQn_CONS. A write whose value lies no further ahead than SQn_PROD, as it stood before the core cycle of the write, moves the
consumer index there, over a whole full ring too; any other leaves it and sets SCONS_ERR. A write of the reserved upper half alone does
nothing. (R548) -/
def Obligations.StatusConsumerRule : Prop :=
  ∀ (a : RegAcc) (s : State) (q : Bool) (v old prod : BitVec 16), a.qreg 0x50 = some q → s.regUp a = true → s.refuseReg a = none →
    v = a.data.setWidth 16 → old = ((s.inst a.ci).gq q).scons → prod = ((s.inst a.ci).gq q).prodAt s.clk →
    (a.off.getLsbD 2 = true → exec (.sqnConsWrite a) s = .next (s.emit (.regAck a))) ∧
    (a.off.getLsbD 2 = false → (v.toNat + 2 ^ 16 - old.toNat) % 2 ^ 16 ≤ (prod.toNat + 2 ^ 16 - old.toNat) % 2 ^ 16 →
      exec (.sqnConsWrite a) s = .next ((s.modGq a.ci q fun g => { g with scons := v }).emit (.regAck a))) ∧
    (a.off.getLsbD 2 = false → ¬(v.toNat + 2 ^ 16 - old.toNat) % 2 ^ 16 ≤ (prod.toNat + 2 ^ 16 - old.toNat) % 2 ^ 16 →
      exec (.sqnConsWrite a) s = .next ((s.gqErr a.ci q 3).emit (.regAck a)) ∧ (((s.gqErr a.ci q 3).inst a.ci).gq q).sconsErr = true) ∧
    (a.off.getLsbD 2 = false → v = prod → exec (.sqnConsWrite a) s = .next ((s.modGq a.ci q fun g => { g with scons := prod }).emit (.regAck a)))

/-- A write to MW_WDOG. 0x5A5A written by the MC restarts the running watchdog at 1,250,000 ticks; every other value, and every write
through a port station, does nothing. Its reserved bits, and WKICK itself, read zero. (R538) -/
def Obligations.WatchdogKick : Prop :=
  ∀ (a : RegAcc) (s : State), a.mw 0x18 = true → s.regUp a = true → s.refuseReg a = none →
    (a.mc = true → a.off = 0x18 → a.data.setWidth 16 = 0x5A5A → s.mc.wdog.isSome = true →
      exec (.wkick a) s = .next (({ s with mc := { s.mc with wdog := some (s.timer 1250000) } } : State).emit (.regAck a))) ∧
    (a.mc = false ∨ a.off = 0x1C ∨ a.data.setWidth 16 ≠ 0x5A5A → exec (.wkick a) s = .next (s.emit (.regAck a))) ∧
    exec (.refusedRegisterRead a) s = .next (s.emit (.regData a 0))

/-- Buckets and retirement. A transient or contained fault adds one to its channel's bucket, saturating at 255, and to no other, and in the
core cycle of a leak that is not made yet the buckets fall by one before; the event that brings it to LB_THR marks a channel that is not
yet retired in the map, starts its procedure and sets RECOVERY, but not while the mode is still START; below LB_THR it does not. A
corrected flit adds nothing to any bucket. (R478, R481, R484) -/
def Obligations.BucketsCountFaults : Prop :=
  (∀ (s : State) (cls : BitVec 4) (ch : Chan) (stop : Stop) (code : BitVec 8) (l : Option Lix) (c : Option Ci) (rq : Option Rqid) (n : Nat),
    n = min 255 ((tGet s.leakFirst.buckets (chanKey ch)).getD 0 + 1) →
    tGet (s.faultEv cls ch stop code l c rq).buckets (chanKey ch) = some n ∧
    (∀ k, k ≠ chanKey ch → tGet (s.faultEv cls ch stop code l c rq).buckets k = tGet s.leakFirst.buckets k) ∧
    (s.params.lbThr ≤ n → s.ret.chans.contains ch = false → (s.faultEv cls ch stop code l c rq).ret.chans = s.ret.chans ++ [ch] ∧
      (s.faultEv cls ch stop code l c rq).ret.running = s.ret.running ++ [ch] ∧ (s.faultEv cls ch stop code l c rq).arbMode = s.arbMode.recover) ∧
    (n < s.params.lbThr → (s.faultEv cls ch stop code l c rq).ret = s.ret ∧ (s.faultEv cls ch stop code l c rq).arbMode = s.arbMode)) ∧
  (∀ s : State, (s.clk.phase ≠ 0 ∨ s.clk.tick.toNat % max 1 (s.params.lbWin / s.params.lbThr) ≠ 0 ∨ (∃ r, s.leak = some (s.clk.tick, r)) → s.leakFirst = s) ∧
    (s.clk.phase = 0 → s.clk.tick.toNat % max 1 (s.params.lbWin / s.params.lbThr) = 0 → (∀ r, s.leak ≠ some (s.clk.tick, r)) →
      s.leakFirst.buckets = (s.buckets.map fun b => (b.1, b.2 - 1)).filter fun b => b.2 != 0)) ∧
  (∀ (s t : State) (k : Nat), exec (.flitArrival k .corrected) s = .next t → t.buckets = s.buckets)

/-- What the registers hold after reset. After a cold reset the block is in its cold boot state with the straps sampled, the clock at zero,
no cause on any interrupt line, the LFSRs at their seeds, every log empty, every bucket at zero and no channel retired, no requester in
MW_FM, every instance FREE, no agent, the bulk engine idle and the mesh empty. (R30, R279, R291, R442, R481, R516, R536, R541) -/
def Obligations.ResetRegisters : Prop :=
  State.reset.clk = { tick := 0, phase := 0 } ∧ State.reset.mc.bstate = .cold ∧ State.reset.mwId = 0 ∧ State.reset.irqOut = 0 ∧
    State.reset.arb0.lfsr = 0x5EED0001 ∧ State.reset.arb1.lfsr = 0x5EED0002 ∧ State.reset.arbB.lfsr = 0x5EED0003 ∧
    State.reset.errLog = [] ∧ State.reset.vlog = [] ∧ State.reset.buckets = [] ∧ State.reset.ret.chans = [] ∧
    State.reset.regs.fmV0 = false ∧ State.reset.regs.fmV1 = false ∧ (∀ c : Ci, (State.reset.inst c).st = .free) ∧ State.reset.agents = [] ∧
    State.reset.be.ops = [] ∧ State.reset.mesh.pkts = []

/-- What a block warm reset keeps. When a block warm reset takes effect, the tick counter, the retirement map, the error log and the
violation log are as they were, and so is the profile store but for the bytes of a commit cut short (log entry 33); the instances, the
agents, the IRT, the slices, the buckets, the MC's memory, its rings and the requesters of MW_FM are cleared, and nothing is in flight.
(R30, R470, R493, R535) -/
def Obligations.WarmResetKeeps : Prop :=
  ∀ s : State, (∀ r, s.mc.longs = [] → s.warmReset.mc.store = s.mc.store ∧ r ∉ s.warmReset.ret.running) ∧
    s.warmReset.clk = s.clk ∧ s.warmReset.ret.chans = s.ret.chans ∧ s.warmReset.errLog = s.errLog ∧ s.warmReset.errLost = s.errLost ∧
    s.warmReset.vlog = s.vlog ∧ s.warmReset.vlogLost = s.vlogLost ∧ s.warmReset.insts = [] ∧ s.warmReset.agents = [] ∧ s.warmReset.irt = [] ∧
    s.warmReset.slices = [] ∧ s.warmReset.buckets = [] ∧ s.warmReset.mc = { Mc.reset with store := s.warmReset.mc.store } ∧
    s.warmReset.regs.fmV0 = false ∧ s.warmReset.regs.fmV1 = false ∧ s.warmReset.mesh.pkts = [] ∧ s.warmReset.halt = .running
end

