-- ==== Sys2Proof/Laws/Kept.lean ====
section
/-!
SUPPORT. How a proof that an operation leaves `State.kept` alone is put together: by branches, by folds, by steps named with `let`, and for
operations that answer an `Option`, a pair, an `Except` or an outcome.
-/

namespace Sys2Proof.Machine

open Sys2Proof

@[simp ↓] theorem kept_mk : ∀ pending clk coldLow warmLow warmRel strapProf strapTwin ready halt sched soon mc params errLog errLost vlog vlogLost buckets leak ret arbMode regs insts irt agents lports ports pss slices mss arb0 arb1 arbB te0 te1 be obs tw mesh pd smap smep fold parked latched calSum calSeen gpfSeq out cuts, State.kept (State.mk pending clk coldLow warmLow warmRel strapProf strapTwin ready halt sched soon mc params errLog errLost vlog vlogLost buckets leak ret arbMode regs insts irt agents lports ports pss slices mss arb0 arb1 arbB te0 te1 be obs tw mesh pd smap smep fold parked latched calSum calSeen gpfSeq out cuts) = { pending := pending, img := mc.img, imgLen := mc.imgLen, store := mc.store, staging := mc.staging, strapProf := strapProf, strapTwin := strapTwin, coldLow := coldLow, clevMin := mc.clevMin, clevMax := mc.clevMax, iver := mc.iver, fm0 := (regs.fmRq0, regs.fmV0), fm1 := (regs.fmRq1, regs.fmV1) } := by intros; rfl

@[simp] theorem kept_fold (s : State) : ({ pending := s.pending, img := s.mc.img, imgLen := s.mc.imgLen, store := s.mc.store, staging := s.mc.staging, strapProf := s.strapProf, strapTwin := s.strapTwin, coldLow := s.coldLow, clevMin := s.mc.clevMin, clevMax := s.mc.clevMax, iver := s.mc.iver, fm0 := (s.regs.fmRq0, s.regs.fmV0), fm1 := (s.regs.fmRq1, s.regs.fmV1) } : Kept) = s.kept := rfl

theorem kept_cut {x y : State} {r : Kept} (h : x.kept = r) (k : x.kept = r → y.kept = r) : y.kept = r := k h

theorem kept_cutP {x : State} (r : Kept) {P : Prop} (h : x.kept = r) (k : x.kept = r → P) : P := k h

theorem kept_ite {c : Prop} [Decidable c] {a b : State} {r : Kept} (ha : a.kept = r) (hb : b.kept = r) : (if c then a else b).kept = r := by split <;> assumption

theorem kept_foldl {α : Type} {g : State → α → State} {l : List α} {s0 : State} {r : Kept}
    (h : ∀ s a, (g s a).kept = s.kept) (h0 : s0.kept = r) : (l.foldl g s0).kept = r := by
  induction l generalizing s0 with
  | nil => exact h0
  | cons a l ih => exact ih ((h s0 a).trans h0)

theorem kept_foldr {α : Type} {g : α → State → State} {l : List α} {s0 : State} {r : Kept}
    (h : ∀ a s, (g a s).kept = s.kept) (h0 : s0.kept = r) : (l.foldr g s0).kept = r := by
  induction l with
  | nil => exact h0
  | cons a l ih => exact (h a _).trans ih

theorem kept_foldl1 {α β : Type} {g : State × β → α → State × β} {l : List α} {p0 : State × β} {r : Kept}
    (h : ∀ p a, (g p a).1.kept = p.1.kept) (h0 : p0.1.kept = r) : (l.foldl g p0).1.kept = r := by
  induction l generalizing p0 with
  | nil => exact h0
  | cons a l ih => exact ih ((h p0 a).trans h0)

def KeptO (r : Kept) (o : Option State) : Prop := ∀ t, o = some t → t.kept = r

def KeptOO (r : Kept) (o : Option (Option State)) : Prop := ∀ t, o = some (some t) → t.kept = r

def KeptT {α β : Type} (r : Kept) (o : Option (α × β × State)) : Prop := ∀ a b t, o = some (a, b, t) → t.kept = r

def KeptN {α : Type} (r : Kept) (o : Option (α × State)) : Prop := ∀ a t, o = some (a, t) → t.kept = r

def KeptP {α : Type} (r : Kept) (o : State × α) : Prop := ∀ t a, o = (t, a) → t.kept = r

def KeptE (r : Kept) (o : Except Status State) : Prop := ∀ t, o = .ok t → t.kept = r

def KeptR (r : Kept) (o : Res) : Prop := ∀ t, o = .next t → t.kept = r

theorem KeptR.next {r : Kept} {t : State} (h : t.kept = r) : KeptR r (.next t) := by intro u hu; cases hu; exact h

theorem KeptR.stay (s : State) : KeptR s.kept (stay s) := KeptR.next rfl

theorem KeptE.ok {r : Kept} {t : State} (h : t.kept = r) : KeptE r (.ok t) := by intro u hu; cases hu; exact h

theorem KeptE.error {r : Kept} {e : Status} : KeptE r (.error e) := by intro u hu; cases hu

theorem KeptO.some {r : Kept} {t : State} (h : t.kept = r) : KeptO r (Option.some t) := by intro u hu; cases hu; exact h

theorem KeptO.none {r : Kept} : KeptO r Option.none := by intro u hu; cases hu

theorem KeptOO.some {r : Kept} {t : State} (h : t.kept = r) : KeptOO r (Option.some (Option.some t)) := by intro u hu; cases hu; exact h

theorem KeptOO.sn {r : Kept} : KeptOO r (Option.some Option.none) := by intro u hu; cases hu

theorem KeptOO.none {r : Kept} : KeptOO r Option.none := by intro u hu; cases hu

theorem KeptT.some {α β : Type} {r : Kept} {a : α} {b : β} {t : State} (h : t.kept = r) : KeptT r (Option.some (a, b, t)) := by intro x y u hu; cases hu; exact h

theorem KeptT.none {α β : Type} {r : Kept} : KeptT r (Option.none : Option (α × β × State)) := by intro x y u hu; cases hu

theorem KeptN.some {α : Type} {r : Kept} {a : α} {t : State} (h : t.kept = r) : KeptN r (Option.some (a, t)) := by intro x u hu; cases hu; exact h

theorem KeptN.none {α : Type} {r : Kept} : KeptN r (Option.none : Option (α × State)) := by intro x u hu; cases hu

theorem KeptO.of {x r : Kept} {o : Option State} (h : KeptO x o) (e : x = r) : KeptO r o := e ▸ h

theorem KeptOO.of {x r : Kept} {o : Option (Option State)} (h : KeptOO x o) (e : x = r) : KeptOO r o := e ▸ h

theorem KeptT.of {α β : Type} {x r : Kept} {o : Option (α × β × State)} (h : KeptT x o) (e : x = r) : KeptT r o := e ▸ h

theorem KeptN.of {α : Type} {x r : Kept} {o : Option (α × State)} (h : KeptN x o) (e : x = r) : KeptN r o := e ▸ h

theorem KeptP.of {α : Type} {x r : Kept} {o : State × α} (h : KeptP x o) (e : x = r) : KeptP r o := e ▸ h

theorem KeptE.of {x r : Kept} {o : Except Status State} (h : KeptE x o) (e : x = r) : KeptE r o := e ▸ h

theorem KeptR.of {x r : Kept} {o : Res} (h : KeptR x o) (e : x = r) : KeptR r o := e ▸ h

theorem KeptOO.map {r : Kept} {o : Option State} {f : State → State} (h : KeptO r o) (hf : ∀ t, (f t).kept = t.kept) : KeptOO r (Option.some (o.map f)) := by
  intro u hu; cases o with
  | none => simp at hu
  | some t => simp at hu; rw [← hu, hf]; exact h t rfl

theorem KeptO.map {r : Kept} {o : Option State} {f : State → State} (h : KeptO r o) (hf : ∀ t, (f t).kept = t.kept) : KeptO r (o.map f) := by
  intro u hu; cases o with
  | none => simp at hu
  | some t => simp at hu; rw [← hu, hf]; exact h t rfl

theorem KeptN.map {α : Type} {r : Kept} {o : Option State} {a : α} (h : KeptO r o) : KeptN r (o.map fun t => (a, t)) := by
  intro x u hu; cases o with
  | none => simp at hu
  | some t => simp at hu; rw [← hu.2]; exact h t rfl

theorem kept_getD {r : Kept} {o : Option State} {t : State} (h : KeptO r o) (e : t.kept = r) : (o.getD t).kept = r := by
  cases o with
  | none => exact e
  | some u => exact h u rfl

theorem KeptO.ite {c : Prop} [Decidable c] {x y : Option State} {r : Kept} (hx : KeptO r x) (hy : KeptO r y) : KeptO r (if c then x else y) := by split <;> assumption

theorem KeptOO.ite {c : Prop} [Decidable c] {x y : Option (Option State)} {r : Kept} (hx : KeptOO r x) (hy : KeptOO r y) : KeptOO r (if c then x else y) := by split <;> assumption

theorem KeptT.ite {α β : Type} {c : Prop} [Decidable c] {x y : Option (α × β × State)} {r : Kept} (hx : KeptT r x) (hy : KeptT r y) : KeptT r (if c then x else y) := by split <;> assumption

theorem KeptN.ite {α : Type} {c : Prop} [Decidable c] {x y : Option (α × State)} {r : Kept} (hx : KeptN r x) (hy : KeptN r y) : KeptN r (if c then x else y) := by split <;> assumption

theorem KeptP.ite {α : Type} {c : Prop} [Decidable c] {x y : State × α} {r : Kept} (hx : KeptP r x) (hy : KeptP r y) : KeptP r (if c then x else y) := by split <;> assumption

theorem KeptE.ite {c : Prop} [Decidable c] {x y : Except Status State} {r : Kept} (hx : KeptE r x) (hy : KeptE r y) : KeptE r (if c then x else y) := by split <;> assumption

theorem KeptR.ite {c : Prop} [Decidable c] {x y : Res} {r : Kept} (hx : KeptR r x) (hy : KeptR r y) : KeptR r (if c then x else y) := by split <;> assumption

theorem kept_cut1 {α : Type} {x : State × α} (r : Kept) {P : Prop} (h : x.1.kept = r) (k : x.1.kept = r → P) : P := k h

theorem kept_ite1 {α : Type} {c : Prop} [Decidable c] {a b : State × α} {r : Kept} (ha : a.1.kept = r) (hb : b.1.kept = r) : (if c then a else b).1.kept = r := by split <;> assumption

theorem KeptP.mk {α : Type} {r : Kept} {a : α} {t : State} (h : t.kept = r) : KeptP r (t, a) := by intro x u hu; cases hu; exact h

end Sys2Proof.Machine
end

