-- ==== Sys2Proof/Laws/KeptOps.lean ====
section
/-!
SUPPORT. `State.kept` is left alone by the shared operations: one lemma for each operation.
-/

set_option linter.unusedTactic false
set_option linter.unreachableTactic false
set_option linter.unusedSimpArgs false
set_option linter.unusedVariables false

namespace Sys2Proof.Machine

open Sys2Proof

@[simp ↓] theorem State.setInst_kept : ∀ a0 a1 a2, (State.setInst a0 a1 a2).kept = a0.kept := by
  intros; simp [State.setInst]
@[simp ↓] theorem State.modInst_kept : ∀ a0 a1 a2, (State.modInst a0 a1 a2).kept = a0.kept := by
  intros; simp [State.modInst]
@[simp ↓] theorem State.setSlice_kept : ∀ a0 a1 a2, (State.setSlice a0 a1 a2).kept = a0.kept := by
  intros; simp [State.setSlice]
@[simp ↓] theorem State.modSlice_kept : ∀ a0 a1 a2, (State.modSlice a0 a1 a2).kept = a0.kept := by
  intros; simp [State.modSlice]
@[simp ↓] theorem State.setPs_kept : ∀ a0 a1 a2, (State.setPs a0 a1 a2).kept = a0.kept := by
  intros; simp [State.setPs]
@[simp ↓] theorem State.modPs_kept : ∀ a0 a1 a2, (State.modPs a0 a1 a2).kept = a0.kept := by
  intros; simp [State.modPs]
@[simp ↓] theorem State.setMs_kept : ∀ a0 a1 a2, (State.setMs a0 a1 a2).kept = a0.kept := by
  intros; simp [State.setMs]
@[simp ↓] theorem State.setTe_kept : ∀ a0 a1 a2, (State.setTe a0 a1 a2).kept = a0.kept := by
  intros; unfold State.setTe; split <;> simp
@[simp ↓] theorem State.modTe_kept : ∀ a0 a1 a2, (State.modTe a0 a1 a2).kept = a0.kept := by
  intros; simp [State.modTe]
@[simp ↓] theorem State.setArb_kept : ∀ a0 a1 a2, (State.setArb a0 a1 a2).kept = a0.kept := by
  intros; unfold State.setArb; split <;> simp
@[simp ↓] theorem State.modArb_kept : ∀ a0 a1 a2, (State.modArb a0 a1 a2).kept = a0.kept := by
  intros; simp [State.modArb]
@[simp ↓] theorem State.setAgent_kept : ∀ a0 a1 a2, (State.setAgent a0 a1 a2).kept = a0.kept := by
  intros; simp [State.setAgent]
@[simp ↓] theorem State.modAgent_kept : ∀ a0 a1 a2, (State.modAgent a0 a1 a2).kept = a0.kept := by
  intros; unfold State.modAgent; split <;> simp
@[simp ↓] theorem State.modLport_kept : ∀ a0 a1 a2, (State.modLport a0 a1 a2).kept = a0.kept := by
  intros; simp [State.modLport]
@[simp ↓] theorem State.setDom_kept : ∀ a0 a1 a2, (State.setDom a0 a1 a2).kept = a0.kept := by
  intros; simp [State.setDom]
@[simp ↓] theorem State.modDom_kept : ∀ a0 a1 a2, (State.modDom a0 a1 a2).kept = a0.kept := by
  intros; simp [State.modDom]
@[simp ↓] theorem State.reply_kept : ∀ a0 a1 a2 a3 a4 a5, (State.reply a0 a1 a2 a3 a4 a5).kept = a0.kept := by
  intros; simp [State.reply]
@[simp ↓] theorem State.finish_kept : ∀ a0 a1 a2 a3 a4, (State.finish a0 a1 a2 a3 a4).kept = a0.kept := by
  intros; simp [State.finish]
@[simp ↓] theorem State.setJob_kept : ∀ a0 a1 a2, (State.setJob a0 a1 a2).kept = a0.kept := by
  intros; simp [State.setJob]
@[simp ↓] theorem State.bump_kept : ∀ a0 a1, (State.bump a0 a1).kept = a0.kept := by
  intro a0 a1
  unfold State.bump
  repeat'
    first
    | with_reducible rfl
    | with_reducible apply kept_ite
    | (simp [*]; done)
    | split
@[simp ↓] theorem State.bumpBy_kept : ∀ a0 a1 a2, (State.bumpBy a0 a1 a2).kept = a0.kept := by
  intros; simp [State.bumpBy]
@[simp ↓] theorem State.bumpN_kept : ∀ a0 a1 a2, (State.bumpN a0 a1 a2).kept = a0.kept := by
  intro a0 a1 a2
  fun_induction State.bumpN a0 a1 a2
  all_goals
    repeat'
      first
      | with_reducible rfl
      | with_reducible assumption
      | with_reducible apply kept_ite
      | with_reducible apply kept_ite1
      | (extract_lets +onlyGivenNames s1; first | (refine kept_cut (x := s1) ?_ ?_; (on_goal 1 => subst s1); (on_goal 2 => (intro h; clear_value s1))) | (refine kept_cut1 (State.kept a0) (x := s1) ?_ ?_; (on_goal 1 => subst s1); (on_goal 2 => (intro h; clear_value s1))) | (refine kept_cutP (State.kept a0) (x := s1) ?_ ?_; (on_goal 1 => subst s1); (on_goal 2 => (intro h; clear_value s1))) |  ((have _h : ∀ x, State.kept (s1 x) = State.kept (s1 x) := fun _ => rfl); clear _h; subst s1) | ((have _h : ∀ x y, State.kept (s1 x y) = State.kept (s1 x y) := fun _ _ => rfl); clear _h; subst s1) | ((have _h : ∀ x y z, State.kept (s1 x y z) = State.kept (s1 x y z) := fun _ _ _ => rfl); clear _h; subst s1) | ((have _h : ∀ x y z w, State.kept (s1 x y z w) = State.kept (s1 x y z w) := fun _ _ _ _ => rfl); clear _h; subst s1) | ((have _h : Mc := s1); clear _h; subst s1) | ((have _h : Regs := s1); clear _h; subst s1) | clear_value s1)
      | with_reducible apply kept_ite
      | (with_reducible refine kept_foldl (fun _ _ => ?_) ?_)
      | (with_reducible refine kept_foldl1 (fun _ _ => ?_) ?_)
      | (with_reducible refine kept_foldr (fun _ _ => ?_) ?_)
      | (with_reducible refine kept_getD ?_ ?_)
      | (simp +zetaDelta [*]; done)
      | split
      | (intros; simp only [↓kept_mk, kept_fold])
      | simp [*]
@[simp ↓] theorem State.bumpI_kept : ∀ a0 a1 a2, (State.bumpI a0 a1 a2).kept = a0.kept := by
  intro a0 a1 a2
  unfold State.bumpI
  repeat'
    first
    | with_reducible rfl
    | with_reducible apply kept_ite
    | (with_reducible refine kept_foldl (fun _ _ => ?_) ?_)
    | (simp [*]; done)
    | split
@[simp ↓] theorem State.setRace_kept : ∀ a0 a1 a2, (State.setRace a0 a1 a2).kept = a0.kept := by
  intros; simp [State.setRace]
@[simp ↓] theorem State.hwNote_kept : ∀ a0 a1 a2, (State.hwNote a0 a1 a2).kept = a0.kept := by
  intros; simp [State.hwNote]
@[simp ↓] theorem State.w1cNote_kept : ∀ a0 a1 a2, (State.w1cNote a0 a1 a2).kept = a0.kept := by
  intros; simp [State.w1cNote]
@[simp ↓] theorem State.twinCause_kept : ∀ a0 a1, (State.twinCause a0 a1).kept = a0.kept := by
  intros; simp [State.twinCause]
@[simp ↓] theorem State.obsCause_kept : ∀ a0 a1, (State.obsCause a0 a1).kept = a0.kept := by
  intros; simp [State.obsCause]
@[simp ↓] theorem State.ringErrBit_kept : ∀ a0 a1, (State.ringErrBit a0 a1).kept = a0.kept := by
  intros; simp [State.ringErrBit]
@[simp ↓] theorem State.qceAdd_kept : ∀ a0 a1 a2, (State.qceAdd a0 a1 a2).kept = a0.kept := by
  intros; unfold State.qceAdd; split <;> simp
@[simp ↓] theorem State.tap_kept : ∀ a0 a1 a2, (State.tap a0 a1 a2).kept = a0.kept := by
  intro a0 a1 a2
  unfold State.tap
  repeat'
    first
    | with_reducible rfl
    | with_reducible apply kept_ite
    | (simp [*]; done)
    | split
@[simp ↓] theorem State.tapPkt_kept : ∀ a0 a1 a2 a3, (State.tapPkt a0 a1 a2 a3).kept = a0.kept := by
  intro a0 a1 a2 a3
  unfold State.tapPkt
  repeat'
    first
    | with_reducible rfl
    | with_reducible apply kept_ite
    | (with_reducible refine kept_foldl (fun _ _ => ?_) ?_)
    | (simp [*]; done)
    | split
@[simp ↓] theorem State.injectAt_kept : ∀ a0 a1, (State.injectAt a0 a1).kept = a0.kept := by
  intro a0 a1
  unfold State.injectAt
  repeat'
    first
    | with_reducible rfl
    | with_reducible apply kept_ite
    | (simp [*]; done)
    | split
@[simp ↓] theorem State.injectAll_kept : ∀ a0, (State.injectAll a0).kept = a0.kept := by
  intro a0
  unfold State.injectAll
  repeat'
    first
    | with_reducible rfl
    | with_reducible apply kept_ite
    | (with_reducible refine kept_foldl (fun _ _ => ?_) ?_)
    | (simp [*]; done)
    | split
@[simp ↓] theorem State.send_kept : ∀ a0 a1 a2 a3 a4 a5 a6, (State.send a0 a1 a2 a3 a4 a5 a6).kept = a0.kept := by
  intros; unfold State.send; split <;> simp
@[simp ↓] theorem State.tapOut_kept : ∀ a0 a1, (State.tapOut a0 a1).kept = a0.kept := by
  intro a0 a1
  unfold State.tapOut
  repeat'
    first
    | with_reducible rfl
    | with_reducible apply kept_ite
    | (simp [*]; done)
    | split
@[simp ↓] theorem State.ejected_kept : ∀ a0 a1 a2, (State.ejected a0 a1 a2).kept = a0.kept := by
  intro a0 a1 a2
  unfold State.ejected
  repeat'
    first
    | with_reducible rfl
    | with_reducible apply kept_ite
    | (with_reducible refine kept_foldl (fun _ _ => ?_) ?_)
    | (simp [*]; done)
    | split
theorem State.recv_kept : ∀ a0 a1 a2 a3, KeptT a1.kept (@State.recv a0 a1 a2 a3) := by
  intro a0 a1 a2 a3
  unfold State.recv
  repeat'
    first
    | with_reducible rfl
    | with_reducible apply KeptT.ite
    | with_reducible exact KeptT.none
    | with_reducible apply KeptT.some
    | with_reducible apply kept_ite
    | (simp [*]; done)
    | split
@[simp ↓] theorem State.emit_kept : ∀ a0 a1, (State.emit a0 a1).kept = a0.kept := by
  intros; simp [State.emit]
@[simp ↓] theorem State.logErr_kept : ∀ a0 a1, (State.logErr a0 a1).kept = a0.kept := by
  intro a0 a1
  unfold State.logErr
  repeat'
    first
    | with_reducible rfl
    | with_reducible apply kept_ite
    | (simp [*]; done)
    | split
@[simp ↓] theorem State.logBare_kept : ∀ a0 a1 a2 a3 a4 a5, (State.logBare a0 a1 a2 a3 a4 a5).kept = a0.kept := by
  intros; simp [State.logBare]
@[simp ↓] theorem State.leakNow_kept : ∀ a0 a1, (State.leakNow a0 a1).kept = a0.kept := by
  intros; simp [State.leakNow]
@[simp ↓] theorem State.leakFirst_kept : ∀ a0, (State.leakFirst a0).kept = a0.kept := by
  intros; unfold State.leakFirst; split <;> simp
@[simp ↓] theorem State.faultEv_kept : ∀ a0 a1 a2 a3 a4 a5 a6 a7, (State.faultEv a0 a1 a2 a3 a4 a5 a6 a7).kept = a0.kept := by
  intro a0 a1 a2 a3 a4 a5 a6 a7
  unfold State.faultEv
  repeat'
    first
    | with_reducible rfl
    | with_reducible apply kept_ite
    | (with_reducible refine KeptE.of (arbMode_kept _ _) ?_)
    | (simp [*]; done)
    | split
@[simp ↓] theorem State.fatal_kept : ∀ a0 a1 a2 a3 a4, (State.fatal a0 a1 a2 a3 a4).kept = a0.kept := by
  intro a0 a1 a2 a3 a4
  unfold State.fatal
  repeat'
    first
    | with_reducible rfl
    | with_reducible apply kept_ite
    | (extract_lets +onlyGivenNames t; first | (refine kept_cut (x := t) ?_ ?_; (on_goal 1 => subst t); (on_goal 2 => (intro; clear_value t))) | clear_value t)
    | (simp [*]; done)
    | split
@[simp ↓] theorem State.violation_kept : ∀ a0 a1, (State.violation a0 a1).kept = a0.kept := by
  intro a0 a1
  unfold State.violation
  repeat'
    first
    | with_reducible rfl
    | with_reducible apply kept_ite
    | (simp [*]; done)
    | split
@[simp ↓] theorem State.stepLfsr_kept : ∀ a0 a1, (State.stepLfsr a0 a1).kept = a0.kept := by
  intros; simp [State.stepLfsr]
@[simp ↓] theorem State.gpfCheck_kept : ∀ a0, (State.gpfCheck a0).kept = a0.kept := by
  intro a0
  unfold State.gpfCheck
  repeat'
    first
    | with_reducible rfl
    | with_reducible apply kept_ite
    | (with_reducible refine kept_foldl (fun _ _ => ?_) ?_)
    | (simp [*]; done)
    | split
@[simp ↓] theorem State.later_kept : ∀ a0 a1 a2, (State.later a0 a1 a2).kept = a0.kept := by
  intros; simp [State.later]
@[simp ↓] theorem State.genInc_kept : ∀ a0 a1 a2, (State.genInc a0 a1 a2).kept = a0.kept := by
  intros; simp [State.genInc]
@[simp ↓] theorem State.genDec_kept : ∀ a0 a1 a2, (State.genDec a0 a1 a2).kept = a0.kept := by
  intros; simp [State.genDec]
theorem stay_kept : ∀ a0, KeptR a0.kept (stay a0) := by
  intro a0
  unfold stay
  repeat'
    first
    | with_reducible rfl
    | with_reducible apply KeptR.ite
    | with_reducible exact KeptR.stay _
    | with_reducible apply KeptR.next
    | with_reducible apply KeptE.ok
    | with_reducible exact KeptE.error
    | with_reducible apply kept_ite
    | (simp [*]; done)
    | split
@[simp ↓] theorem State.twinRec_kept : ∀ a0 a1 a2 a3 a4 a5 a6, (State.twinRec a0 a1 a2 a3 a4 a5 a6).kept = a0.kept := by
  intro a0 a1 a2 a3 a4 a5 a6
  unfold State.twinRec
  repeat'
    first
    | with_reducible rfl
    | with_reducible apply kept_ite
    | (simp [*]; done)
    | split
@[simp ↓] theorem State.mdir_kept : ∀ a0 a1 a2 a3 a4, (State.mdir a0 a1 a2 a3 a4).kept = a0.kept := by
  intros; unfold State.mdir; split <;> simp
@[simp ↓] theorem State.tapDir_kept : ∀ a0 a1 a2 a3 a4 a5, (State.tapDir a0 a1 a2 a3 a4 a5).kept = a0.kept := by
  intros; simp [State.tapDir]
@[simp ↓] theorem State.tapChurn_kept : ∀ a0 a1 a2 a3 a4 a5, (State.tapChurn a0 a1 a2 a3 a4 a5).kept = a0.kept := by
  intros; simp [State.tapChurn]
@[simp ↓] theorem State.vbSweep_kept : ∀ a0 a1, (State.vbSweep a0 a1).kept = a0.kept := by
  intro a0 a1
  unfold State.vbSweep
  repeat'
    first
    | with_reducible rfl
    | with_reducible apply kept_ite
    | (with_reducible refine kept_foldl (fun _ _ => ?_) ?_)
    | (simp [*]; done)
    | split
@[simp ↓] theorem State.dirWrite_kept : ∀ a0 a1 a2 a3 a4 a5, (State.dirWrite a0 a1 a2 a3 a4 a5).kept = a0.kept := by
  intro a0 a1 a2 a3 a4 a5
  unfold State.dirWrite
  repeat'
    first
    | with_reducible rfl
    | with_reducible apply kept_ite
    | (simp [*]; done)
    | split
@[simp ↓] theorem State.touch_kept : ∀ a0 a1 a2, (State.touch a0 a1 a2).kept = a0.kept := by
  intros; simp [State.touch]
@[simp ↓] theorem State.sendC_kept : ∀ a0 a1 a2 a3 a4 a5 a6, (State.sendC a0 a1 a2 a3 a4 a5 a6).kept = a0.kept := by
  intros; unfold State.sendC; split <;> simp
@[simp ↓] theorem State.sendPs_kept : ∀ a0 a1 a2 a3 a4 a5, (State.sendPs a0 a1 a2 a3 a4 a5).kept = a0.kept := by
  intro a0 a1 a2 a3 a4 a5
  unfold State.sendPs
  repeat'
    first
    | with_reducible rfl
    | with_reducible apply kept_ite
    | (simp [*]; done)
    | split
@[simp ↓] theorem State.memCmd_kept : ∀ a0 a1 a2 a3, (State.memCmd a0 a1 a2 a3).kept = a0.kept := by
  intros; unfold State.memCmd; split <;> simp
@[simp ↓] theorem State.issueAcc_kept : ∀ a0 a1 a2, (State.issueAcc a0 a1 a2).kept = a0.kept := by
  intro a0 a1 a2
  unfold State.issueAcc
  repeat'
    first
    | with_reducible rfl
    | with_reducible apply kept_ite
    | (extract_lets +onlyGivenNames t; first | (refine kept_cut (x := t) ?_ ?_; (on_goal 1 => subst t); (on_goal 2 => (intro; clear_value t))) | clear_value t)
    | (with_reducible refine kept_foldl (fun _ _ => ?_) ?_)
    | (simp [*]; done)
    | split
@[simp ↓] theorem State.addAcc_kept : ∀ a0 a1 a2 a3 a4 a5, (State.addAcc a0 a1 a2 a3 a4 a5).kept = a0.kept := by
  intro a0 a1 a2 a3 a4 a5
  unfold State.addAcc
  repeat'
    first
    | with_reducible rfl
    | with_reducible apply kept_ite
    | (simp [*]; done)
    | split
@[simp ↓] theorem State.accLine_kept : ∀ a0 a1 a2 a3 a4, (State.accLine a0 a1 a2 a3 a4).kept = a0.kept := by
  intros; simp [State.accLine]
@[simp ↓] theorem State.closeAcc_kept : ∀ a0 a1 a2, (State.closeAcc a0 a1 a2).kept = a0.kept := by
  intro a0 a1 a2
  unfold State.closeAcc
  repeat'
    first
    | with_reducible rfl
    | with_reducible apply kept_ite
    | (extract_lets +onlyGivenNames t; first | (refine kept_cut (x := t) ?_ ?_; (on_goal 1 => subst t); (on_goal 2 => (intro; clear_value t))) | clear_value t)
    | (with_reducible refine KeptE.of (State.done_kept _ _ _) ?_)
    | (simp [*]; done)
    | (simp [*, State.done_kept _ _ _ _ (by assumption : State.done _ _ _ = Except.ok _)]; done)
    | split
@[simp ↓] theorem State.countFirn_kept : ∀ a0 a1 a2, (State.countFirn a0 a1 a2).kept = a0.kept := by
  intro a0 a1 a2
  unfold State.countFirn
  repeat'
    first
    | with_reducible rfl
    | with_reducible apply kept_ite
    | (simp [*]; done)
    | split
@[simp ↓] theorem State.firnWrite_kept : ∀ a0 a1 a2 a3 a4, (State.firnWrite a0 a1 a2 a3 a4).kept = a0.kept := by
  intro a0 a1 a2 a3 a4
  unfold State.firnWrite
  repeat'
    first
    | with_reducible rfl
    | with_reducible assumption
    | with_reducible apply kept_ite
    | with_reducible apply kept_ite1
    | (extract_lets +onlyGivenNames s1; first | (refine kept_cut (x := s1) ?_ ?_; (on_goal 1 => subst s1); (on_goal 2 => (intro h; clear_value s1))) | (refine kept_cut1 (State.kept a0) (x := s1) ?_ ?_; (on_goal 1 => subst s1); (on_goal 2 => (intro h; clear_value s1))) | (refine kept_cutP (State.kept a0) (x := s1) ?_ ?_; (on_goal 1 => subst s1); (on_goal 2 => (intro h; clear_value s1))) |  ((have _h : ∀ x, State.kept (s1 x) = State.kept (s1 x) := fun _ => rfl); clear _h; subst s1) | ((have _h : ∀ x y, State.kept (s1 x y) = State.kept (s1 x y) := fun _ _ => rfl); clear _h; subst s1) | ((have _h : ∀ x y z, State.kept (s1 x y z) = State.kept (s1 x y z) := fun _ _ _ => rfl); clear _h; subst s1) | ((have _h : ∀ x y z w, State.kept (s1 x y z w) = State.kept (s1 x y z w) := fun _ _ _ _ => rfl); clear _h; subst s1) | ((have _h : Mc := s1); clear _h; subst s1) | ((have _h : Regs := s1); clear _h; subst s1) | clear_value s1)
    | with_reducible apply kept_ite
    | (with_reducible refine kept_foldl (fun _ _ => ?_) ?_)
    | (with_reducible refine kept_foldl1 (fun _ _ => ?_) ?_)
    | (with_reducible refine kept_foldr (fun _ _ => ?_) ?_)
    | (with_reducible refine kept_getD ?_ ?_)
    | (simp [*]; done)
    | split
    | (intros; simp only [↓kept_mk, kept_fold])
    | simp [*]
@[simp ↓] theorem State.issueRime_kept : ∀ a0 a1 a2 a3, (State.issueRime a0 a1 a2 a3).kept = a0.kept := by
  intros; unfold State.issueRime; split <;> simp
@[simp ↓] theorem State.addRime_kept : ∀ a0 a1 a2 a3 a4 a5 a6 a7, (State.addRime a0 a1 a2 a3 a4 a5 a6 a7).kept = a0.kept := by
  intro a0 a1 a2 a3 a4 a5 a6 a7
  unfold State.addRime
  repeat'
    first
    | with_reducible rfl
    | with_reducible apply kept_ite
    | (simp [*]; done)
    | split
@[simp ↓] theorem State.popRime_kept : ∀ a0 a1 a2 a3, (State.popRime a0 a1 a2 a3).kept = a0.kept := by
  intro a0 a1 a2 a3
  unfold State.popRime
  repeat'
    first
    | with_reducible rfl
    | with_reducible apply kept_ite
    | (extract_lets +onlyGivenNames t; first | (refine kept_cut (x := t) ?_ ?_; (on_goal 1 => subst t); (on_goal 2 => (intro; clear_value t))) | clear_value t)
    | (simp [*]; done)
    | split
@[simp ↓] theorem State.addTrk_kept : ∀ a0 a1 a2 a3 a4 a5, (State.addTrk a0 a1 a2 a3 a4 a5).kept = a0.kept := by
  intros; simp [State.addTrk]
@[simp ↓] theorem State.addJob_kept : ∀ a0 a1 a2 a3, (State.addJob a0 a1 a2 a3).kept = a0.kept := by
  intros; simp [State.addJob]
@[simp ↓] theorem State.calve_kept : ∀ a0 a1 a2 a3 a4 a5, (State.calve a0 a1 a2 a3 a4 a5).kept = a0.kept := by
  intros; simp [State.calve]
theorem State.evict_kept : ∀ a0 a1 a2 a3, KeptO a0.kept (State.evict a0 a1 a2 a3) := by
  intro a0 a1 a2 a3
  unfold State.evict
  repeat'
    first
    | with_reducible rfl
    | with_reducible apply KeptO.ite
    | with_reducible exact KeptO.none
    | with_reducible apply KeptO.some
    | with_reducible apply kept_ite
    | (simp [*]; done)
    | split
theorem State.toWay_kept : ∀ a0 a1 a2 a3, KeptOO a0.kept (State.toWay a0 a1 a2 a3) := by
  intro a0 a1 a2 a3
  unfold State.toWay
  repeat'
    first
    | with_reducible rfl
    | with_reducible assumption
    | with_reducible apply KeptOO.ite
    | with_reducible apply kept_ite
    | with_reducible apply kept_ite1
    | (extract_lets +onlyGivenNames s1; first | (refine kept_cut (x := s1) ?_ ?_; (on_goal 1 => subst s1); (on_goal 2 => (intro h; clear_value s1))) | (refine kept_cut1 (State.kept a0) (x := s1) ?_ ?_; (on_goal 1 => subst s1); (on_goal 2 => (intro h; clear_value s1))) | (refine kept_cutP (State.kept a0) (x := s1) ?_ ?_; (on_goal 1 => subst s1); (on_goal 2 => (intro h; clear_value s1))) |  ((have _h : ∀ x, State.kept (s1 x) = State.kept (s1 x) := fun _ => rfl); clear _h; subst s1) | ((have _h : ∀ x y, State.kept (s1 x y) = State.kept (s1 x y) := fun _ _ => rfl); clear _h; subst s1) | ((have _h : ∀ x y z, State.kept (s1 x y z) = State.kept (s1 x y z) := fun _ _ _ => rfl); clear _h; subst s1) | ((have _h : ∀ x y z w, State.kept (s1 x y z w) = State.kept (s1 x y z w) := fun _ _ _ _ => rfl); clear _h; subst s1) | ((have _h : Mc := s1); clear _h; subst s1) | ((have _h : Regs := s1); clear _h; subst s1) | clear_value s1)
    | with_reducible apply kept_ite
    | (with_reducible refine kept_foldl (fun _ _ => ?_) ?_)
    | (with_reducible refine kept_foldl1 (fun _ _ => ?_) ?_)
    | (with_reducible refine kept_foldr (fun _ _ => ?_) ?_)
    | with_reducible exact KeptOO.none
    | with_reducible exact KeptOO.sn
    | with_reducible apply KeptOO.some
    | (with_reducible refine KeptO.of (State.evict_kept _ _ _ _) ?_)
    | (with_reducible refine KeptOO.map ?_ (fun _ => ?_))
    | (with_reducible refine kept_getD ?_ ?_)
    | (simp [*]; done)
    | (simp [*, State.evict_kept _ _ _ _ _ (by assumption : Sys2Proof.Machine.State.evict _ _ _ _ = some _)]; done)
    | split
    | (intros; simp only [↓kept_mk, kept_fold])
    | simp [*]
theorem State.allocate_kept : ∀ a0 a1 a2 a3, KeptO a0.kept (State.allocate a0 a1 a2 a3) := by
  intro a0 a1 a2 a3
  unfold State.allocate
  repeat'
    first
    | with_reducible rfl
    | with_reducible apply KeptO.ite
    | with_reducible exact KeptO.none
    | with_reducible apply KeptO.some
    | with_reducible apply kept_ite
    | (extract_lets +onlyGivenNames t; first | (refine kept_cut (x := t) ?_ ?_; (on_goal 1 => subst t); (on_goal 2 => (intro; clear_value t))) | (refine kept_cutP (State.kept a0) (x := t) ?_ ?_; (on_goal 1 => subst t); (on_goal 2 => (intro; clear_value t))) | clear_value t)
    | (with_reducible refine KeptOO.of (State.toWay_kept _ _ _ _) ?_)
    | (simp [*]; done)
    | (simp [*, State.toWay_kept _ _ _ _ _ (by assumption : State.toWay _ _ _ _ = some (some _))]; done)
    | split
@[simp ↓] theorem State.checkWay_kept : ∀ a0 a1 a2 a3 a4, (State.checkWay a0 a1 a2 a3 a4).kept = a0.kept := by
  intro a0 a1 a2 a3 a4
  unfold State.checkWay
  repeat'
    first
    | with_reducible rfl
    | with_reducible assumption
    | with_reducible apply kept_ite
    | with_reducible apply kept_ite1
    | (extract_lets +onlyGivenNames s1; first | (refine kept_cut (x := s1) ?_ ?_; (on_goal 1 => subst s1); (on_goal 2 => (intro h; clear_value s1))) | (refine kept_cut1 (State.kept a0) (x := s1) ?_ ?_; (on_goal 1 => subst s1); (on_goal 2 => (intro h; clear_value s1))) | (refine kept_cutP (State.kept a0) (x := s1) ?_ ?_; (on_goal 1 => subst s1); (on_goal 2 => (intro h; clear_value s1))) |  ((have _h : ∀ x, State.kept (s1 x) = State.kept (s1 x) := fun _ => rfl); clear _h; subst s1) | ((have _h : ∀ x y, State.kept (s1 x y) = State.kept (s1 x y) := fun _ _ => rfl); clear _h; subst s1) | ((have _h : ∀ x y z, State.kept (s1 x y z) = State.kept (s1 x y z) := fun _ _ _ => rfl); clear _h; subst s1) | ((have _h : ∀ x y z w, State.kept (s1 x y z w) = State.kept (s1 x y z w) := fun _ _ _ _ => rfl); clear _h; subst s1) | ((have _h : Mc := s1); clear _h; subst s1) | ((have _h : Regs := s1); clear _h; subst s1) | clear_value s1)
    | with_reducible apply kept_ite
    | (with_reducible refine kept_foldl (fun _ _ => ?_) ?_)
    | (with_reducible refine kept_foldl1 (fun _ _ => ?_) ?_)
    | (with_reducible refine kept_foldr (fun _ _ => ?_) ?_)
    | (with_reducible refine kept_getD ?_ ?_)
    | (simp [*]; done)
    | split
    | (intros; simp only [↓kept_mk, kept_fold])
    | simp [*]
@[simp ↓] theorem State.checkSet_kept : ∀ a0 a1 a2 a3, (State.checkSet a0 a1 a2 a3).kept = a0.kept := by
  intro a0 a1 a2 a3
  unfold State.checkSet
  repeat'
    first
    | with_reducible rfl
    | with_reducible apply kept_ite
    | (with_reducible refine kept_foldl (fun _ _ => ?_) ?_)
    | (simp [*]; done)
    | split
@[simp ↓] theorem State.poisonLine_kept : ∀ a0 a1 a2 a3 a4 a5 a6 a7, (State.poisonLine a0 a1 a2 a3 a4 a5 a6 a7).kept = a0.kept := by
  intro a0 a1 a2 a3 a4 a5 a6 a7
  unfold State.poisonLine
  repeat'
    first
    | with_reducible rfl
    | with_reducible apply kept_ite
    | (extract_lets +onlyGivenNames t; first | (refine kept_cut (x := t) ?_ ?_; (on_goal 1 => subst t); (on_goal 2 => (intro; clear_value t))) | clear_value t)
    | (simp [*]; done)
    | split
@[simp ↓] theorem State.modGq_kept : ∀ a0 a1 a2 a3, (State.modGq a0 a1 a2 a3).kept = a0.kept := by
  intros; simp [State.modGq]
@[simp ↓] theorem State.modGroup_kept : ∀ a0 a1 a2 a3, (State.modGroup a0 a1 a2 a3).kept = a0.kept := by
  intros; simp [State.modGroup]
@[simp ↓] theorem State.modRun_kept : ∀ a0 a1 a2 a3, (State.modRun a0 a1 a2 a3).kept = a0.kept := by
  intros; simp [State.modRun]
@[simp ↓] theorem State.uncSend_kept : ∀ a0 a1 a2 a3 a4 a5 a6 a7 a8, (State.uncSend a0 a1 a2 a3 a4 a5 a6 a7 a8).kept = a0.kept := by
  intros; simp [State.uncSend]
@[simp ↓] theorem State.record_kept : ∀ a0 a1 a2 a3, (State.record a0 a1 a2 a3).kept = a0.kept := by
  intro a0 a1 a2 a3
  unfold State.record
  repeat'
    first
    | with_reducible rfl
    | with_reducible apply kept_ite
    | (with_reducible refine KeptE.of (State.done_kept _ _ _) ?_)
    | (simp [*]; done)
    | (simp [*, State.done_kept _ _ _ _ (by assumption : State.done _ _ _ = Except.ok _)]; done)
    | split
@[simp ↓] theorem State.lockMsg_kept : ∀ a0 a1 a2, (State.lockMsg a0 a1 a2).kept = a0.kept := by
  intros; simp [State.lockMsg]
@[simp ↓] theorem State.relAll_kept : ∀ a0 a1 a2, (State.relAll a0 a1 a2).kept = a0.kept := by
  intro a0 a1 a2
  unfold State.relAll
  repeat'
    first
    | with_reducible rfl
    | with_reducible apply kept_ite
    | (with_reducible refine kept_foldl (fun _ _ => ?_) ?_)
    | (simp [*]; done)
    | split
theorem State.mgLines_kept : ∀ a0 a1 a2 a3 a4, KeptP a0.kept (State.mgLines a0 a1 a2 a3 a4) := by
  intro a0 a1 a2 a3 a4
  unfold State.mgLines
  repeat'
    first
    | with_reducible rfl
    | with_reducible assumption
    | with_reducible apply KeptP.ite
    | with_reducible apply kept_ite
    | with_reducible apply kept_ite1
    | (extract_lets +onlyGivenNames s1; first | (refine kept_cut (x := s1) ?_ ?_; (on_goal 1 => subst s1); (on_goal 2 => (intro h; clear_value s1))) | (refine kept_cut1 (State.kept a0) (x := s1) ?_ ?_; (on_goal 1 => subst s1); (on_goal 2 => (intro h; clear_value s1))) | (refine kept_cutP (State.kept a0) (x := s1) ?_ ?_; (on_goal 1 => subst s1); (on_goal 2 => (intro h; clear_value s1))) |  ((have _h : ∀ x, State.kept (s1 x) = State.kept (s1 x) := fun _ => rfl); clear _h; subst s1) | ((have _h : ∀ x y, State.kept (s1 x y) = State.kept (s1 x y) := fun _ _ => rfl); clear _h; subst s1) | ((have _h : ∀ x y z, State.kept (s1 x y z) = State.kept (s1 x y z) := fun _ _ _ => rfl); clear _h; subst s1) | ((have _h : ∀ x y z w, State.kept (s1 x y z w) = State.kept (s1 x y z w) := fun _ _ _ _ => rfl); clear _h; subst s1) | ((have _h : Mc := s1); clear _h; subst s1) | ((have _h : Regs := s1); clear _h; subst s1) | clear_value s1)
    | with_reducible apply kept_ite
    | (with_reducible refine kept_foldl (fun _ _ => ?_) ?_)
    | (with_reducible refine kept_foldl1 (fun _ _ => ?_) ?_)
    | (with_reducible refine kept_foldr (fun _ _ => ?_) ?_)
    | with_reducible apply KeptP.mk
    | (with_reducible refine kept_getD ?_ ?_)
    | (simp [*]; done)
    | split
    | (intros; simp only [↓kept_mk, kept_fold])
    | simp [*]
@[simp ↓] theorem State.mgLines_kept1 : ∀ a0 a1 a2 a3 a4, (State.mgLines a0 a1 a2 a3 a4).1.kept = a0.kept := fun a0 a1 a2 a3 a4 => State.mgLines_kept a0 a1 a2 a3 a4 _ _ rfl
@[simp ↓] theorem State.commit_kept : ∀ a0 a1 a2, (State.commit a0 a1 a2).kept = a0.kept := by
  intro a0 a1 a2
  unfold State.commit
  repeat'
    first
    | with_reducible rfl
    | with_reducible apply kept_ite
    | (extract_lets +onlyGivenNames t; first | (refine kept_cut (x := t) ?_ ?_; (on_goal 1 => subst t); (on_goal 2 => (intro; clear_value t))) | clear_value t)
    | (with_reducible refine KeptE.of (State.done_kept _ _ _) ?_)
    | (with_reducible refine kept_foldl (fun _ _ => ?_) ?_)
    | (simp [*]; done)
    | (simp [*, State.done_kept _ _ _ _ (by assumption : State.done _ _ _ = Except.ok _)]; done)
    | split
@[simp ↓] theorem State.failGroup_kept : ∀ a0 a1 a2 a3, (State.failGroup a0 a1 a2 a3).kept = a0.kept := by
  intros; simp [State.failGroup]
@[simp ↓] theorem State.evaluate_kept : ∀ a0 a1 a2, (State.evaluate a0 a1 a2).kept = a0.kept := by
  intro a0 a1 a2
  unfold State.evaluate
  repeat'
    first
    | with_reducible rfl
    | with_reducible apply kept_ite
    | (extract_lets +onlyGivenNames t; first | (refine kept_cut (x := t) ?_ ?_; (on_goal 1 => subst t); (on_goal 2 => (intro; clear_value t))) | clear_value t)
    | (with_reducible refine KeptP.of (State.mgLines_kept _ _ _ _ _) ?_)
    | (with_reducible refine kept_foldl (fun _ _ => ?_) ?_)
    | (simp [*]; done)
    | (simp [*, State.mgLines_kept _ _ _ _ _ _ _ (by assumption : State.mgLines _ _ _ _ _ = (_, _))]; done)
    | split
@[simp ↓] theorem State.goGroup_kept : ∀ a0 a1 a2, (State.goGroup a0 a1 a2).kept = a0.kept := by
  intro a0 a1 a2
  unfold State.goGroup
  repeat'
    first
    | with_reducible rfl
    | with_reducible apply kept_ite
    | (simp [*]; done)
    | split
@[simp ↓] theorem State.aopEnd_kept : ∀ a0 a1 a2 a3 a4 a5, (State.aopEnd a0 a1 a2 a3 a4 a5).kept = a0.kept := by
  intros; simp [State.aopEnd]
@[simp ↓] theorem State.dropRun_kept : ∀ a0 a1 a2, (State.dropRun a0 a1 a2).kept = a0.kept := by
  intros; simp [State.dropRun]
@[simp ↓] theorem State.aopCommit_kept : ∀ a0 a1 a2 a3 a4, (State.aopCommit a0 a1 a2 a3 a4).kept = a0.kept := by
  intros; unfold State.aopCommit; split <;> simp
@[simp ↓] theorem State.goRun_kept : ∀ a0 a1 a2, (State.goRun a0 a1 a2).kept = a0.kept := by
  intro a0 a1 a2
  unfold State.goRun
  repeat'
    first
    | with_reducible rfl
    | with_reducible apply kept_ite
    | (with_reducible refine KeptP.of (State.mgLines_kept _ _ _ _ _) ?_)
    | (with_reducible refine KeptE.of (State.done_kept _ _ _) ?_)
    | (simp [*]; done)
    | (simp [*, State.mgLines_kept _ _ _ _ _ _ _ (by assumption : State.mgLines _ _ _ _ _ = (_, _))]; done)
    | (simp [*, State.done_kept _ _ _ _ (by assumption : State.done _ _ _ = Except.ok _)]; done)
    | split
@[simp ↓] theorem State.teRound_kept : ∀ a0 a1, (State.teRound a0 a1).kept = a0.kept := by
  intro a0 a1
  unfold State.teRound
  repeat'
    first
    | with_reducible rfl
    | with_reducible apply kept_ite
    | (with_reducible refine kept_foldl (fun _ _ => ?_) ?_)
    | (simp [*]; done)
    | split
@[simp ↓] theorem State.tePump_kept : ∀ a0 a1, (State.tePump a0 a1).kept = a0.kept := by
  intros; unfold State.tePump; split <;> simp
@[simp ↓] theorem State.preempt_kept : ∀ a0 a1 a2, (State.preempt a0 a1 a2).kept = a0.kept := by
  intro a0 a1 a2
  unfold State.preempt
  repeat'
    first
    | with_reducible rfl
    | with_reducible apply kept_ite
    | (with_reducible refine kept_foldl (fun _ _ => ?_) ?_)
    | (simp [*]; done)
    | split
@[simp ↓] theorem State.endCopied_kept : ∀ a0 a1 a2 a3, (State.endCopied a0 a1 a2 a3).kept = a0.kept := by
  intro a0 a1 a2 a3
  unfold State.endCopied
  repeat'
    first
    | with_reducible rfl
    | with_reducible apply kept_ite
    | (with_reducible refine kept_foldl (fun _ _ => ?_) ?_)
    | (simp [*]; done)
    | split
@[simp ↓] theorem State.abortTe_kept : ∀ a0 a1 a2, (State.abortTe a0 a1 a2).kept = a0.kept := by
  intro a0 a1 a2
  unfold State.abortTe
  repeat'
    first
    | with_reducible rfl
    | with_reducible apply kept_ite
    | (extract_lets +onlyGivenNames t; first | (refine kept_cut (x := t) ?_ ?_; (on_goal 1 => subst t); (on_goal 2 => (intro; clear_value t))) | clear_value t)
    | (with_reducible refine kept_foldl (fun _ _ => ?_) ?_)
    | (simp [*]; done)
    | split
@[simp ↓] theorem State.takeDesc_kept : ∀ a0 a1 a2 a3, (State.takeDesc a0 a1 a2 a3).kept = a0.kept := by
  intro a0 a1 a2 a3
  unfold State.takeDesc
  repeat'
    first
    | with_reducible rfl
    | with_reducible apply kept_ite
    | (extract_lets +onlyGivenNames t; first | (refine kept_cut (x := t) ?_ ?_; (on_goal 1 => subst t); (on_goal 2 => (intro; clear_value t))) | clear_value t)
    | (with_reducible refine KeptE.of (State.done_kept _ _ _) ?_)
    | (simp [*]; done)
    | (simp [*, State.done_kept _ _ _ _ (by assumption : State.done _ _ _ = Except.ok _)]; done)
    | split
@[simp ↓] theorem State.cutCopies_kept : ∀ a0 a1 a2, (State.cutCopies a0 a1 a2).kept = a0.kept := by
  intro a0 a1 a2
  unfold State.cutCopies
  repeat'
    first
    | with_reducible rfl
    | with_reducible apply kept_ite
    | (with_reducible refine kept_foldl (fun _ _ => ?_) ?_)
    | (simp [*]; done)
    | split

end Sys2Proof.Machine
end

