-- ==== Sys2Proof/Laws/KeptSlice.lean ====
section
/-!
SUPPORT. `State.kept` is left alone by the home slice, power, bulk work and time: one lemma for each operation.
-/

set_option linter.unusedTactic false
set_option linter.unreachableTactic false
set_option linter.unusedSimpArgs false
set_option linter.unusedVariables false

namespace Sys2Proof.Machine

open Sys2Proof

@[simp ↓] theorem State.modTrk_kept : ∀ a0 a1 a2 a3, (State.modTrk a0 a1 a2 a3).kept = a0.kept := by
  intros; simp [State.modTrk]
@[simp ↓] theorem State.setPh_kept : ∀ a0 a1 a2 a3, (State.setPh a0 a1 a2 a3).kept = a0.kept := by
  intros; simp [State.setPh]
@[simp ↓] theorem State.endTrk_kept : ∀ a0 a1 a2, (State.endTrk a0 a1 a2).kept = a0.kept := by
  intro a0 a1 a2
  unfold State.endTrk
  repeat'
    first
    | with_reducible rfl
    | with_reducible apply kept_ite
    | (extract_lets +onlyGivenNames t; first | (refine kept_cut (x := t) ?_ ?_; (on_goal 1 => subst t); (on_goal 2 => (intro; clear_value t))) | clear_value t)
    | (simp [*]; done)
    | split
@[simp ↓] theorem State.snoopOut_kept : ∀ a0 a1 a2 a3 a4 a5, (State.snoopOut a0 a1 a2 a3 a4 a5).kept = a0.kept := by
  intro a0 a1 a2 a3 a4 a5
  unfold State.snoopOut
  repeat'
    first
    | with_reducible rfl
    | with_reducible apply kept_ite
    | (extract_lets +onlyGivenNames t; first | (refine kept_cut (x := t) ?_ ?_; (on_goal 1 => subst t); (on_goal 2 => (intro; clear_value t))) | clear_value t)
    | (simp [*]; done)
    | split
@[simp ↓] theorem State.flushHeld_kept : ∀ a0 a1, (State.flushHeld a0 a1).kept = a0.kept := by
  intro a0 a1
  unfold State.flushHeld
  repeat'
    first
    | with_reducible rfl
    | with_reducible apply kept_ite
    | (with_reducible refine kept_foldl (fun _ _ => ?_) ?_)
    | (simp [*]; done)
    | split
@[simp ↓] theorem State.startHold_kept : ∀ a0 a1 a2 a3 a4, (State.startHold a0 a1 a2 a3 a4).kept = a0.kept := by
  intro a0 a1 a2 a3 a4
  unfold State.startHold
  repeat'
    first
    | with_reducible rfl
    | with_reducible apply kept_ite
    | (with_reducible refine kept_foldl (fun _ _ => ?_) ?_)
    | (simp [*]; done)
    | split
@[simp ↓] theorem State.emitCpl_kept : ∀ a0 a1 a2 a3, (State.emitCpl a0 a1 a2 a3).kept = a0.kept := by
  intro a0 a1 a2 a3
  unfold State.emitCpl
  repeat'
    first
    | with_reducible rfl
    | with_reducible apply kept_ite
    | (simp [*]; done)
    | split
@[simp ↓] theorem State.complete_kept : ∀ a0 a1 a2 a3, (State.complete a0 a1 a2 a3).kept = a0.kept := by
  intro a0 a1 a2 a3
  unfold State.complete
  repeat'
    first
    | with_reducible rfl
    | with_reducible apply kept_ite
    | (simp [*]; done)
    | split
@[simp ↓] theorem State.order_kept : ∀ a0 a1 a2 a3, (State.order a0 a1 a2 a3).kept = a0.kept := by
  intro a0 a1 a2 a3
  unfold State.order
  repeat'
    first
    | with_reducible rfl
    | with_reducible apply kept_ite
    | (simp [*]; done)
    | split
@[simp ↓] theorem State.refuse73_kept : ∀ a0 a1 a2, (State.refuse73 a0 a1 a2).kept = a0.kept := by
  intro a0 a1 a2
  unfold State.refuse73
  repeat'
    first
    | with_reducible rfl
    | with_reducible apply kept_ite
    | (simp [*]; done)
    | split
theorem State.setDir_kept : ∀ a0 a1 a2 a3 a4 a5, KeptO a0.kept (State.setDir a0 a1 a2 a3 a4 a5) := by
  intro a0 a1 a2 a3 a4 a5
  unfold State.setDir
  repeat'
    first
    | with_reducible rfl
    | with_reducible assumption
    | with_reducible apply KeptO.ite
    | with_reducible apply kept_ite
    | with_reducible apply kept_ite1
    | (extract_lets +onlyGivenNames s1; first | (refine kept_cut (x := s1) ?_ ?_; (on_goal 1 => subst s1); (on_goal 2 => (intro h; clear_value s1))) | (refine kept_cut1 (State.kept a0) (x := s1) ?_ ?_; (on_goal 1 => subst s1); (on_goal 2 => (intro h; clear_value s1))) | (refine kept_cutP (State.kept a0) (x := s1) ?_ ?_; (on_goal 1 => subst s1); (on_goal 2 => (intro h; clear_value s1))) |  ((have _h : ∀ x, State.kept (s1 x) = State.kept (s1 x) := fun _ => rfl); clear _h; subst s1) | ((have _h : ∀ x y, State.kept (s1 x y) = State.kept (s1 x y) := fun _ _ => rfl); clear _h; subst s1) | ((have _h : ∀ x y z, State.kept (s1 x y z) = State.kept (s1 x y z) := fun _ _ _ => rfl); clear _h; subst s1) | ((have _h : ∀ x y z w, State.kept (s1 x y z w) = State.kept (s1 x y z w) := fun _ _ _ _ => rfl); clear _h; subst s1) | ((have _h : Mc := s1); clear _h; subst s1) | ((have _h : Regs := s1); clear _h; subst s1) | clear_value s1)
    | with_reducible apply kept_ite
    | (with_reducible refine kept_foldl (fun _ _ => ?_) ?_)
    | (with_reducible refine kept_foldl1 (fun _ _ => ?_) ?_)
    | (with_reducible refine kept_foldr (fun _ _ => ?_) ?_)
    | with_reducible exact KeptO.none
    | with_reducible apply KeptO.some
    | (with_reducible refine KeptO.of (State.allocate_kept _ _ _ _) ?_)
    | (with_reducible refine KeptO.map ?_ (fun _ => ?_))
    | (with_reducible refine kept_getD ?_ ?_)
    | (simp [*]; done)
    | (simp [*, State.allocate_kept _ _ _ _ _ (by assumption : Sys2Proof.Machine.State.allocate _ _ _ _ = some _)]; done)
    | split
    | (intros; simp only [↓kept_mk, kept_fold])
    | simp [*]
@[simp ↓] theorem State.readCmd_kept : ∀ a0 a1 a2 a3, (State.readCmd a0 a1 a2 a3).kept = a0.kept := by
  intros; unfold State.readCmd; split <;> simp
@[simp ↓] theorem State.checkData_kept : ∀ a0 a1 a2, (State.checkData a0 a1 a2).kept = a0.kept := by
  intro a0 a1 a2
  unfold State.checkData
  repeat'
    first
    | with_reducible rfl
    | with_reducible apply kept_ite
    | (with_reducible refine KeptE.of (State.done_kept _ _ _) ?_)
    | (simp [*]; done)
    | (simp [*, State.done_kept _ _ _ _ (by assumption : State.done _ _ _ = Except.ok _)]; done)
    | split
theorem State.reservePlb_kept : ∀ a0 a1 a2 a3 a4 a5, KeptO a0.kept (State.reservePlb a0 a1 a2 a3 a4 a5) := by
  intro a0 a1 a2 a3 a4 a5
  unfold State.reservePlb
  repeat'
    first
    | with_reducible rfl
    | with_reducible apply KeptO.ite
    | with_reducible exact KeptO.none
    | with_reducible apply KeptO.some
    | with_reducible apply kept_ite
    | (simp [*]; done)
    | split
@[simp ↓] theorem State.freeResv_kept : ∀ a0 a1 a2, (State.freeResv a0 a1 a2).kept = a0.kept := by
  intros; simp [State.freeResv]
@[simp ↓] theorem State.plbWrite_kept : ∀ a0 a1 a2 a3, (State.plbWrite a0 a1 a2 a3).kept = a0.kept := by
  intro a0 a1 a2 a3
  unfold State.plbWrite
  repeat'
    first
    | with_reducible rfl
    | with_reducible apply kept_ite
    | (simp [*]; done)
    | split
@[simp ↓] theorem State.postLine_kept : ∀ a0 a1 a2 a3 a4 a5 a6 a7 a8 a9 a10, (State.postLine a0 a1 a2 a3 a4 a5 a6 a7 a8 a9 a10).kept = a0.kept := by
  intro a0 a1 a2 a3 a4 a5 a6 a7 a8 a9 a10
  unfold State.postLine
  repeat'
    first
    | with_reducible rfl
    | with_reducible apply kept_ite
    | (simp [*]; done)
    | split
@[simp ↓] theorem State.cmpWrite_kept : ∀ a0 a1 a2 a3, (State.cmpWrite a0 a1 a2 a3).kept = a0.kept := by
  intros; unfold State.cmpWrite; split <;> simp
@[simp ↓] theorem State.markLine_kept : ∀ a0 a1 a2 a3, (State.markLine a0 a1 a2 a3).kept = a0.kept := by
  intros; unfold State.markLine; split <;> simp
@[simp ↓] theorem State.doWrite_kept : ∀ a0 a1 a2, (State.doWrite a0 a1 a2).kept = a0.kept := by
  intro a0 a1 a2
  unfold State.doWrite
  repeat'
    first
    | with_reducible rfl
    | with_reducible assumption
    | with_reducible apply kept_ite
    | with_reducible apply kept_ite1
    | (extract_lets +onlyGivenNames s1; first | (refine kept_cut (x := s1) ?_ ?_; (on_goal 1 => subst s1); (on_goal 2 => (intro h; clear_value s1))) | (refine kept_cut1 (State.kept a0) (x := s1) ?_ ?_; (on_goal 1 => subst s1); (on_goal 2 => (intro h; clear_value s1))) | (refine kept_cutP (State.kept a0) (x := s1) ?_ ?_; (on_goal 1 => subst s1); (on_goal 2 => (intro h; clear_value s1))) |  ((have _h : ∀ x, State.kept (s1 x) = State.kept (s1 x) := fun _ => rfl); clear _h; subst s1) | ((have _h : ∀ x y, State.kept (s1 x y) = State.kept (s1 x y) := fun _ _ => rfl); clear _h; subst s1) | ((have _h : ∀ x y z, State.kept (s1 x y z) = State.kept (s1 x y z) := fun _ _ _ => rfl); clear _h; subst s1) | ((have _h : ∀ x y z w, State.kept (s1 x y z w) = State.kept (s1 x y z w) := fun _ _ _ _ => rfl); clear _h; subst s1) | ((have _h : Mc := s1); clear _h; subst s1) | ((have _h : Regs := s1); clear _h; subst s1) | clear_value s1)
    | with_reducible apply kept_ite
    | (with_reducible refine kept_foldl (fun _ _ => ?_) ?_)
    | (with_reducible refine kept_foldl1 (fun _ _ => ?_) ?_)
    | (with_reducible refine kept_foldr (fun _ _ => ?_) ?_)
    | (with_reducible refine KeptO.of (State.reservePlb_kept _ _ _ _ _ _) ?_)
    | (with_reducible refine kept_getD ?_ ?_)
    | (simp [*]; done)
    | (simp [*, State.reservePlb_kept _ _ _ _ _ _ _ (by assumption : Sys2Proof.Machine.State.reservePlb _ _ _ _ _ _ = some _)]; done)
    | split
    | (intros; simp only [↓kept_mk, kept_fold])
    | simp [*]
@[simp ↓] theorem State.mergeDone_kept : ∀ a0 a1 a2, (State.mergeDone a0 a1 a2).kept = a0.kept := by
  intro a0 a1 a2
  unfold State.mergeDone
  repeat'
    first
    | with_reducible rfl
    | with_reducible apply kept_ite
    | (simp [*]; done)
    | split
@[simp ↓] theorem State.startMerge_kept : ∀ a0 a1 a2, (State.startMerge a0 a1 a2).kept = a0.kept := by
  intro a0 a1 a2
  unfold State.startMerge
  repeat'
    first
    | with_reducible rfl
    | with_reducible apply kept_ite
    | (extract_lets +onlyGivenNames t; first | (refine kept_cut (x := t) ?_ ?_; (on_goal 1 => subst t); (on_goal 2 => (intro; clear_value t))) | clear_value t)
    | (with_reducible refine KeptO.of (State.reservePlb_kept _ _ _ _ _ _) ?_)
    | (simp [*]; done)
    | (simp [*, State.reservePlb_kept _ _ _ _ _ _ _ (by assumption : State.reservePlb _ _ _ _ _ _ = some _)]; done)
    | split
@[simp ↓] theorem State.grantLock_kept : ∀ a0 a1 a2, (State.grantLock a0 a1 a2).kept = a0.kept := by
  intro a0 a1 a2
  unfold State.grantLock
  repeat'
    first
    | with_reducible rfl
    | with_reducible assumption
    | with_reducible apply kept_ite
    | with_reducible apply kept_ite1
    | (extract_lets +onlyGivenNames s1; first | (refine kept_cut (x := s1) ?_ ?_; (on_goal 1 => subst s1); (on_goal 2 => (intro h; clear_value s1))) | (refine kept_cut1 (State.kept a0) (x := s1) ?_ ?_; (on_goal 1 => subst s1); (on_goal 2 => (intro h; clear_value s1))) | (refine kept_cutP (State.kept a0) (x := s1) ?_ ?_; (on_goal 1 => subst s1); (on_goal 2 => (intro h; clear_value s1))) |  ((have _h : ∀ x, State.kept (s1 x) = State.kept (s1 x) := fun _ => rfl); clear _h; subst s1) | ((have _h : ∀ x y, State.kept (s1 x y) = State.kept (s1 x y) := fun _ _ => rfl); clear _h; subst s1) | ((have _h : ∀ x y z, State.kept (s1 x y z) = State.kept (s1 x y z) := fun _ _ _ => rfl); clear _h; subst s1) | ((have _h : ∀ x y z w, State.kept (s1 x y z w) = State.kept (s1 x y z w) := fun _ _ _ _ => rfl); clear _h; subst s1) | ((have _h : Mc := s1); clear _h; subst s1) | ((have _h : Regs := s1); clear _h; subst s1) | clear_value s1)
    | with_reducible apply kept_ite
    | (with_reducible refine kept_foldl (fun _ _ => ?_) ?_)
    | (with_reducible refine kept_foldl1 (fun _ _ => ?_) ?_)
    | (with_reducible refine kept_foldr (fun _ _ => ?_) ?_)
    | (with_reducible refine KeptO.of (State.reservePlb_kept _ _ _ _ _ _) ?_)
    | (with_reducible refine kept_getD ?_ ?_)
    | (simp [*]; done)
    | (simp [*, State.reservePlb_kept _ _ _ _ _ _ _ (by assumption : Sys2Proof.Machine.State.reservePlb _ _ _ _ _ _ = some _)]; done)
    | split
    | (intros; simp only [↓kept_mk, kept_fold])
    | simp [*]
@[simp ↓] theorem State.lockStep_kept : ∀ a0 a1 a2, (State.lockStep a0 a1 a2).kept = a0.kept := by
  intro a0 a1 a2
  unfold State.lockStep
  split
  · rfl
  split
  · rfl
  with_reducible apply kept_ite
  · simp
  with_reducible apply kept_ite
  · simp
  split
  · simp
  rename_i s hs
  have e : s.kept = a0.kept := by
    split at hs
    · exact State.reservePlb_kept _ _ _ _ _ _ _ hs
    · cases hs; rfl
  repeat' (first | with_reducible apply kept_ite | (simp [e]; done))
@[simp ↓] theorem State.resume_kept : ∀ a0 a1 a2, (State.resume a0 a1 a2).kept = a0.kept := by
  intro a0 a1 a2
  unfold State.resume
  repeat'
    first
    | with_reducible rfl
    | with_reducible apply kept_ite
    | (with_reducible refine kept_foldl (fun _ _ => ?_) ?_)
    | (simp [*]; done)
    | split
@[simp ↓] theorem State.jobClear_kept : ∀ a0 a1 a2 a3, (State.jobClear a0 a1 a2 a3).kept = a0.kept := by
  intro a0 a1 a2 a3
  unfold State.jobClear
  repeat'
    first
    | with_reducible rfl
    | with_reducible apply kept_ite
    | (simp [*]; done)
    | split
@[simp ↓] theorem State.jobStep_kept : ∀ a0 a1 a2, (State.jobStep a0 a1 a2).kept = a0.kept := by
  intro a0 a1 a2
  unfold State.jobStep
  repeat'
    first
    | with_reducible rfl
    | with_reducible apply kept_ite
    | (extract_lets +onlyGivenNames t; first | (refine kept_cut (x := t) ?_ ?_; (on_goal 1 => subst t); (on_goal 2 => (intro; clear_value t))) | clear_value t)
    | (simp [*]; done)
    | split
@[simp ↓] theorem State.poisoned_kept : ∀ a0 a1 a2, (State.poisoned a0 a1 a2).kept = a0.kept := by
  intro a0 a1 a2
  unfold State.poisoned
  repeat'
    first
    | with_reducible rfl
    | with_reducible apply kept_ite
    | (simp [*]; done)
    | split
@[simp ↓] theorem State.proceed_kept : ∀ a0 a1 a2, (State.proceed a0 a1 a2).kept = a0.kept := by
  intro a0 a1 a2
  unfold State.proceed
  repeat'
    first
    | with_reducible rfl
    | with_reducible apply kept_ite
    | (with_reducible refine KeptE.of (State.done_kept _ _ _) ?_)
    | (simp [*]; done)
    | (simp [*, State.done_kept _ _ _ _ (by assumption : State.done _ _ _ = Except.ok _)]; done)
    | split
@[simp ↓] theorem State.afterSnoops_kept : ∀ a0 a1 a2, (State.afterSnoops a0 a1 a2).kept = a0.kept := by
  intro a0 a1 a2
  unfold State.afterSnoops
  repeat'
    first
    | with_reducible rfl
    | with_reducible assumption
    | with_reducible apply kept_ite
    | with_reducible apply kept_ite1
    | (extract_lets +onlyGivenNames s1; first | (refine kept_cut (x := s1) ?_ ?_; (on_goal 1 => subst s1); (on_goal 2 => (intro h; clear_value s1))) | (refine kept_cut1 (State.kept a0) (x := s1) ?_ ?_; (on_goal 1 => subst s1); (on_goal 2 => (intro h; clear_value s1))) | (refine kept_cutP (State.kept a0) (x := s1) ?_ ?_; (on_goal 1 => subst s1); (on_goal 2 => (intro h; clear_value s1))) |  ((have _h : ∀ x, State.kept (s1 x) = State.kept (s1 x) := fun _ => rfl); clear _h; subst s1) | ((have _h : ∀ x y, State.kept (s1 x y) = State.kept (s1 x y) := fun _ _ => rfl); clear _h; subst s1) | ((have _h : ∀ x y z, State.kept (s1 x y z) = State.kept (s1 x y z) := fun _ _ _ => rfl); clear _h; subst s1) | ((have _h : ∀ x y z w, State.kept (s1 x y z w) = State.kept (s1 x y z w) := fun _ _ _ _ => rfl); clear _h; subst s1) | ((have _h : Mc := s1); clear _h; subst s1) | ((have _h : Regs := s1); clear _h; subst s1) | clear_value s1)
    | with_reducible apply kept_ite
    | (with_reducible refine kept_foldl (fun _ _ => ?_) ?_)
    | (with_reducible refine kept_foldl1 (fun _ _ => ?_) ?_)
    | (with_reducible refine kept_foldr (fun _ _ => ?_) ?_)
    | (with_reducible refine KeptO.of (State.setDir_kept _ _ _ _ _ _) ?_)
    | (with_reducible refine kept_getD ?_ ?_)
    | (simp [*]; done)
    | (simp [*, State.setDir_kept _ _ _ _ _ _ _ (by assumption : Sys2Proof.Machine.State.setDir _ _ _ _ _ _ = some _)]; done)
    | split
    | (intros; simp only [↓kept_mk, kept_fold])
    | simp [*]
@[simp ↓] theorem State.startSnoops_kept : ∀ a0 a1 a2 a3 a4, (State.startSnoops a0 a1 a2 a3 a4).kept = a0.kept := by
  intro a0 a1 a2 a3 a4
  unfold State.startSnoops
  repeat'
    first
    | with_reducible rfl
    | with_reducible apply kept_ite
    | (with_reducible refine kept_foldl (fun _ _ => ?_) ?_)
    | (simp [*]; done)
    | split
@[simp ↓] theorem State.rule117_kept : ∀ a0 a1 a2 a3, (State.rule117 a0 a1 a2 a3).kept = a0.kept := by
  intros; unfold State.rule117; split <;> simp
@[simp ↓] theorem State.calveSnoops_kept : ∀ a0 a1 a2 a3 a4, (State.calveSnoops a0 a1 a2 a3 a4).kept = a0.kept := by
  intros; simp [State.calveSnoops]
@[simp ↓] theorem State.broadcast_kept : ∀ a0 a1 a2, (State.broadcast a0 a1 a2).kept = a0.kept := by
  intros; unfold State.broadcast; split <;> simp
@[simp ↓] theorem State.jobUnknown_kept : ∀ a0 a1 a2, (State.jobUnknown a0 a1 a2).kept = a0.kept := by
  intros; unfold State.jobUnknown; split <;> simp
@[simp ↓] theorem State.resolveRime_kept : ∀ a0 a1 a2 a3, (State.resolveRime a0 a1 a2 a3).kept = a0.kept := by
  intro a0 a1 a2 a3
  unfold State.resolveRime
  repeat'
    first
    | with_reducible rfl
    | with_reducible apply kept_ite
    | (simp [*]; done)
    | split
@[simp ↓] theorem State.activate_kept : ∀ a0 a1 a2 a3, (State.activate a0 a1 a2 a3).kept = a0.kept := by
  intro a0 a1 a2 a3
  unfold State.activate
  repeat'
    first
    | with_reducible rfl
    | with_reducible assumption
    | with_reducible apply kept_ite
    | with_reducible apply kept_ite1
    | (extract_lets +onlyGivenNames s1; first | (refine kept_cut (x := s1) ?_ ?_; (on_goal 1 => subst s1); (on_goal 2 => (intro h; clear_value s1))) | (refine kept_cut1 (State.kept a0) (x := s1) ?_ ?_; (on_goal 1 => subst s1); (on_goal 2 => (intro h; clear_value s1))) | (refine kept_cutP (State.kept a0) (x := s1) ?_ ?_; (on_goal 1 => subst s1); (on_goal 2 => (intro h; clear_value s1))) |  ((have _h : ∀ x, State.kept (s1 x) = State.kept (s1 x) := fun _ => rfl); clear _h; subst s1) | ((have _h : ∀ x y, State.kept (s1 x y) = State.kept (s1 x y) := fun _ _ => rfl); clear _h; subst s1) | ((have _h : ∀ x y z, State.kept (s1 x y z) = State.kept (s1 x y z) := fun _ _ _ => rfl); clear _h; subst s1) | ((have _h : ∀ x y z w, State.kept (s1 x y z w) = State.kept (s1 x y z w) := fun _ _ _ _ => rfl); clear _h; subst s1) | ((have _h : Mc := s1); clear _h; subst s1) | ((have _h : Regs := s1); clear _h; subst s1) | clear_value s1)
    | with_reducible apply kept_ite
    | (with_reducible refine kept_foldl (fun _ _ => ?_) ?_)
    | (with_reducible refine kept_foldl1 (fun _ _ => ?_) ?_)
    | (with_reducible refine kept_foldr (fun _ _ => ?_) ?_)
    | (with_reducible refine kept_getD ?_ ?_)
    | (simp [*]; done)
    | split
    | (intros; simp only [↓kept_mk, kept_fold])
    | simp [*]
@[simp ↓] theorem State.settle_kept : ∀ a0 a1 a2, (State.settle a0 a1 a2).kept = a0.kept := by
  intro a0 a1 a2
  fun_induction State.settle a0 a1 a2
  all_goals
    repeat'
      first
      | with_reducible rfl
      | with_reducible assumption
      | with_reducible apply kept_ite
      | with_reducible apply kept_ite1
      | (extract_lets +onlyGivenNames s1; first | (refine kept_cut (x := s1) ?_ ?_; (on_goal 1 => subst s1); (on_goal 2 => (intro h; clear_value s1))) | (refine kept_cut1 (State.kept a0) (x := s1) ?_ ?_; (on_goal 1 => subst s1); (on_goal 2 => (intro h; clear_value s1))) | (refine kept_cutP (State.kept a0) (x := s1) ?_ ?_; (on_goal 1 => subst s1); (on_goal 2 => (intro h; clear_value s1))) |  ((have _h : ∀ x, State.kept (s1 x) = State.kept (s1 x) := fun _ => rfl); clear _h; subst s1) | ((have _h : ∀ x y, State.kept (s1 x y) = State.kept (s1 x y) := fun _ _ => rfl); clear _h; subst s1) | ((have _h : ∀ x y z, State.kept (s1 x y z) = State.kept (s1 x y z) := fun _ _ _ => rfl); clear _h; subst s1) | ((have _h : ∀ x y z w, State.kept (s1 x y z w) = State.kept (s1 x y z w) := fun _ _ _ _ => rfl); clear _h; subst s1) | ((have _h : Mc := s1); clear _h; subst s1) | ((have _h : Regs := s1); clear _h; subst s1) | clear_value s1)
      | with_reducible apply kept_ite
      | (with_reducible refine kept_foldl (fun _ _ => ?_) ?_)
      | (with_reducible refine kept_foldl1 (fun _ _ => ?_) ?_)
      | (with_reducible refine kept_foldr (fun _ _ => ?_) ?_)
      | (with_reducible refine kept_getD ?_ ?_)
      | (simp +zetaDelta [*]; done)
      | split
      | (intros; simp only [↓kept_mk, kept_fold])
      | simp [*]
@[simp ↓] theorem State.beStart_kept : ∀ a0 a1, (State.beStart a0 a1).kept = a0.kept := by
  intros; simp [State.beStart]
@[simp ↓] theorem State.settleAll_kept : ∀ a0, (State.settleAll a0).kept = a0.kept := by
  intro a0
  unfold State.settleAll
  repeat'
    first
    | with_reducible rfl
    | with_reducible apply kept_ite
    | (with_reducible refine kept_foldl (fun _ _ => ?_) ?_)
    | (simp [*]; done)
    | split
@[simp ↓] theorem State.pumpN_kept : ∀ a0 a1, (State.pumpN a0 a1).kept = a0.kept := by
  intro a0 a1
  fun_induction State.pumpN a0 a1
  all_goals
    repeat'
      first
      | with_reducible rfl
      | with_reducible assumption
      | with_reducible apply kept_ite
      | with_reducible apply kept_ite1
      | (extract_lets +onlyGivenNames s1; first | (refine kept_cut (x := s1) ?_ ?_; (on_goal 1 => subst s1); (on_goal 2 => (intro h; clear_value s1))) | (refine kept_cut1 (State.kept a0) (x := s1) ?_ ?_; (on_goal 1 => subst s1); (on_goal 2 => (intro h; clear_value s1))) | (refine kept_cutP (State.kept a0) (x := s1) ?_ ?_; (on_goal 1 => subst s1); (on_goal 2 => (intro h; clear_value s1))) |  ((have _h : ∀ x, State.kept (s1 x) = State.kept (s1 x) := fun _ => rfl); clear _h; subst s1) | ((have _h : ∀ x y, State.kept (s1 x y) = State.kept (s1 x y) := fun _ _ => rfl); clear _h; subst s1) | ((have _h : ∀ x y z, State.kept (s1 x y z) = State.kept (s1 x y z) := fun _ _ _ => rfl); clear _h; subst s1) | ((have _h : ∀ x y z w, State.kept (s1 x y z w) = State.kept (s1 x y z w) := fun _ _ _ _ => rfl); clear _h; subst s1) | ((have _h : Mc := s1); clear _h; subst s1) | ((have _h : Regs := s1); clear _h; subst s1) | clear_value s1)
      | with_reducible apply kept_ite
      | (with_reducible refine kept_foldl (fun _ _ => ?_) ?_)
      | (with_reducible refine kept_foldl1 (fun _ _ => ?_) ?_)
      | (with_reducible refine kept_foldr (fun _ _ => ?_) ?_)
      | (with_reducible refine kept_getD ?_ ?_)
      | (simp +zetaDelta [*]; done)
      | split
      | (intros; simp only [↓kept_mk, kept_fold])
      | simp [*]
@[simp ↓] theorem State.pump_kept : ∀ a0, (State.pump a0).kept = a0.kept := by
  intros; simp [State.pump]
@[simp ↓] theorem State.wakeJobs_kept : ∀ a0 a1 a2, (State.wakeJobs a0 a1 a2).kept = a0.kept := by
  intro a0 a1 a2
  unfold State.wakeJobs
  repeat'
    first
    | with_reducible rfl
    | with_reducible apply kept_ite
    | (with_reducible refine kept_foldl (fun _ _ => ?_) ?_)
    | (simp [*]; done)
    | split
@[simp ↓] theorem State.accEffect_kept : ∀ a0 a1 a2, (State.accEffect a0 a1 a2).kept = a0.kept := by
  intro a0 a1 a2
  unfold State.accEffect
  repeat'
    first
    | with_reducible rfl
    | with_reducible apply kept_ite
    | (simp [*]; done)
    | split
@[simp ↓] theorem State.finishAcc_kept : ∀ a0 a1 a2, (State.finishAcc a0 a1 a2).kept = a0.kept := by
  intros; simp [State.finishAcc]
@[simp ↓] theorem State.flushAcc_kept : ∀ a0 a1 a2, (State.flushAcc a0 a1 a2).kept = a0.kept := by
  intro a0 a1 a2
  unfold State.flushAcc
  repeat'
    first
    | with_reducible rfl
    | with_reducible apply kept_ite
    | (simp [*]; done)
    | split
@[simp ↓] theorem State.install_kept : ∀ a0 a1 a2 a3 a4, (State.install a0 a1 a2 a3 a4).kept = a0.kept := by
  intro a0 a1 a2 a3 a4
  unfold State.install
  repeat'
    first
    | with_reducible rfl
    | with_reducible apply kept_ite
    | (with_reducible refine KeptO.of (State.allocate_kept _ _ _ _) ?_)
    | (simp [*]; done)
    | (simp [*, State.allocate_kept _ _ _ _ _ (by assumption : State.allocate _ _ _ _ = some _)]; done)
    | split
@[simp ↓] theorem State.accLookup_kept : ∀ a0 a1 a2 a3, (State.accLookup a0 a1 a2 a3).kept = a0.kept := by
  intro a0 a1 a2 a3
  unfold State.accLookup
  repeat'
    first
    | with_reducible rfl
    | with_reducible apply kept_ite
    | (simp [*]; done)
    | split
@[simp ↓] theorem State.clearF_kept : ∀ a0 a1 a2, (State.clearF a0 a1 a2).kept = a0.kept := by
  intro a0 a1 a2
  unfold State.clearF
  repeat'
    first
    | with_reducible rfl
    | with_reducible apply kept_ite
    | (simp [*]; done)
    | split
theorem State.accSpill_kept : ∀ a0 a1 a2 a3, KeptO a0.kept (State.accSpill a0 a1 a2 a3) := by
  intro a0 a1 a2 a3
  unfold State.accSpill
  repeat'
    first
    | with_reducible rfl
    | with_reducible apply KeptO.ite
    | with_reducible exact KeptO.none
    | with_reducible apply KeptO.some
    | with_reducible apply kept_ite
    | (extract_lets +onlyGivenNames t; first | (refine kept_cut (x := t) ?_ ?_; (on_goal 1 => subst t); (on_goal 2 => (intro; clear_value t))) | (refine kept_cutP (State.kept a0) (x := t) ?_ ?_; (on_goal 1 => subst t); (on_goal 2 => (intro; clear_value t))) | clear_value t)
    | (simp [*]; done)
    | split
@[simp ↓] theorem State.accDelete_kept : ∀ a0 a1 a2, (State.accDelete a0 a1 a2).kept = a0.kept := by
  intro a0 a1 a2
  unfold State.accDelete
  repeat'
    first
    | with_reducible rfl
    | with_reducible apply kept_ite
    | (simp [*]; done)
    | split
@[simp ↓] theorem State.accJob_kept : ∀ a0 a1 a2 a3, (State.accJob a0 a1 a2 a3).kept = a0.kept := by
  intro a0 a1 a2 a3
  unfold State.accJob
  repeat'
    first
    | with_reducible rfl
    | with_reducible apply kept_ite
    | (extract_lets +onlyGivenNames t; first | (refine kept_cut (x := t) ?_ ?_; (on_goal 1 => subst t); (on_goal 2 => (intro; clear_value t))) | clear_value t)
    | (with_reducible refine kept_foldl (fun _ _ => ?_) ?_)
    | (simp [*]; done)
    | split
@[simp ↓] theorem State.accBulk_kept : ∀ a0 a1 a2 a3 a4, (State.accBulk a0 a1 a2 a3 a4).kept = a0.kept := by
  intros; simp [State.accBulk]
@[simp ↓] theorem State.moveWrite_kept : ∀ a0 a1 a2 a3, (State.moveWrite a0 a1 a2 a3).kept = a0.kept := by
  intros; simp [State.moveWrite]
@[simp ↓] theorem State.accMove_kept : ∀ a0 a1 a2, (State.accMove a0 a1 a2).kept = a0.kept := by
  intro a0 a1 a2
  unfold State.accMove
  repeat'
    first
    | with_reducible rfl
    | with_reducible apply kept_ite
    | (simp [*]; done)
    | split
@[simp ↓] theorem State.publishMove_kept : ∀ a0 a1 a2, (State.publishMove a0 a1 a2).kept = a0.kept := by
  intro a0 a1 a2
  unfold State.publishMove
  repeat'
    first
    | with_reducible rfl
    | with_reducible apply kept_ite
    | (extract_lets +onlyGivenNames t; first | (refine kept_cut (x := t) ?_ ?_; (on_goal 1 => subst t); (on_goal 2 => (intro; clear_value t))) | clear_value t)
    | (simp [*]; done)
    | split
@[simp ↓] theorem State.accReady_kept : ∀ a0 a1 a2, (State.accReady a0 a1 a2).kept = a0.kept := by
  intro a0 a1 a2
  unfold State.accReady
  repeat'
    first
    | with_reducible rfl
    | with_reducible assumption
    | with_reducible apply kept_ite
    | with_reducible apply kept_ite1
    | (extract_lets +onlyGivenNames s1; first | (refine kept_cut (x := s1) ?_ ?_; (on_goal 1 => subst s1); (on_goal 2 => (intro h; clear_value s1))) | (refine kept_cut1 (State.kept a0) (x := s1) ?_ ?_; (on_goal 1 => subst s1); (on_goal 2 => (intro h; clear_value s1))) | (refine kept_cutP (State.kept a0) (x := s1) ?_ ?_; (on_goal 1 => subst s1); (on_goal 2 => (intro h; clear_value s1))) |  ((have _h : ∀ x, State.kept (s1 x) = State.kept (s1 x) := fun _ => rfl); clear _h; subst s1) | ((have _h : ∀ x y, State.kept (s1 x y) = State.kept (s1 x y) := fun _ _ => rfl); clear _h; subst s1) | ((have _h : ∀ x y z, State.kept (s1 x y z) = State.kept (s1 x y z) := fun _ _ _ => rfl); clear _h; subst s1) | ((have _h : ∀ x y z w, State.kept (s1 x y z w) = State.kept (s1 x y z w) := fun _ _ _ _ => rfl); clear _h; subst s1) | ((have _h : Mc := s1); clear _h; subst s1) | ((have _h : Regs := s1); clear _h; subst s1) | clear_value s1)
    | with_reducible apply kept_ite
    | (with_reducible refine kept_foldl (fun _ _ => ?_) ?_)
    | (with_reducible refine kept_foldl1 (fun _ _ => ?_) ?_)
    | (with_reducible refine kept_foldr (fun _ _ => ?_) ?_)
    | (with_reducible refine KeptO.of (State.accSpill_kept _ _ _ _) ?_)
    | (with_reducible refine kept_getD ?_ ?_)
    | (simp [*]; done)
    | (simp [*, State.accSpill_kept _ _ _ _ _ (by assumption : Sys2Proof.Machine.State.accSpill _ _ _ _ = some _)]; done)
    | split
    | (intros; simp only [↓kept_mk, kept_fold])
    | simp [*]
theorem State.emptySlot_kept : ∀ a0 a1 a2 a3 a4 a5, KeptP a0.kept (State.emptySlot a0 a1 a2 a3 a4 a5) := by
  intro a0 a1 a2 a3 a4 a5
  unfold State.emptySlot
  repeat'
    first
    | with_reducible rfl
    | with_reducible apply KeptP.ite
    | with_reducible apply KeptP.mk
    | with_reducible apply kept_ite
    | (simp [*]; done)
    | split
@[simp ↓] theorem State.emptySlot_kept1 : ∀ a0 a1 a2 a3 a4 a5, (State.emptySlot a0 a1 a2 a3 a4 a5).1.kept = a0.kept := fun a0 a1 a2 a3 a4 a5 => State.emptySlot_kept a0 a1 a2 a3 a4 a5 _ _ rfl
theorem State.checkSlot_kept : ∀ a0 a1 a2 a3 a4 a5 a6 a7, KeptP a0.kept (State.checkSlot a0 a1 a2 a3 a4 a5 a6 a7) := by
  intro a0 a1 a2 a3 a4 a5 a6 a7
  unfold State.checkSlot
  repeat'
    first
    | with_reducible rfl
    | with_reducible apply KeptP.ite
    | with_reducible apply KeptP.mk
    | with_reducible apply kept_ite
    | (extract_lets +onlyGivenNames t; first | (refine kept_cut (x := t) ?_ ?_; (on_goal 1 => subst t); (on_goal 2 => (intro; clear_value t))) | (refine kept_cutP (State.kept a0) (x := t) ?_ ?_; (on_goal 1 => subst t); (on_goal 2 => (intro; clear_value t))) | clear_value t)
    | (with_reducible refine KeptP.of (State.emptySlot_kept _ _ _ _ _ _) ?_)
    | (simp [*]; done)
    | (simp [*, State.emptySlot_kept _ _ _ _ _ _ _ _ (by assumption : State.emptySlot _ _ _ _ _ _ = (_, _))]; done)
    | split
@[simp ↓] theorem State.checkSlot_kept1 : ∀ a0 a1 a2 a3 a4 a5 a6 a7, (State.checkSlot a0 a1 a2 a3 a4 a5 a6 a7).1.kept = a0.kept := fun a0 a1 a2 a3 a4 a5 a6 a7 => State.checkSlot_kept a0 a1 a2 a3 a4 a5 a6 a7 _ _ rfl
@[simp ↓] theorem State.gotLine_kept : ∀ a0 a1 a2 a3 a4 a5, (State.gotLine a0 a1 a2 a3 a4 a5).kept = a0.kept := by
  intro a0 a1 a2 a3 a4 a5
  unfold State.gotLine
  repeat'
    first
    | with_reducible rfl
    | with_reducible assumption
    | with_reducible apply kept_ite
    | with_reducible apply kept_ite1
    | (extract_lets +onlyGivenNames s1; first | (refine kept_cut (x := s1) ?_ ?_; (on_goal 1 => subst s1); (on_goal 2 => (intro h; clear_value s1))) | (refine kept_cut1 (State.kept a0) (x := s1) ?_ ?_; (on_goal 1 => subst s1); (on_goal 2 => (intro h; clear_value s1))) | (refine kept_cutP (State.kept a0) (x := s1) ?_ ?_; (on_goal 1 => subst s1); (on_goal 2 => (intro h; clear_value s1))) |  ((have _h : ∀ x, State.kept (s1 x) = State.kept (s1 x) := fun _ => rfl); clear _h; subst s1) | ((have _h : ∀ x y, State.kept (s1 x y) = State.kept (s1 x y) := fun _ _ => rfl); clear _h; subst s1) | ((have _h : ∀ x y z, State.kept (s1 x y z) = State.kept (s1 x y z) := fun _ _ _ => rfl); clear _h; subst s1) | ((have _h : ∀ x y z w, State.kept (s1 x y z w) = State.kept (s1 x y z w) := fun _ _ _ _ => rfl); clear _h; subst s1) | ((have _h : Mc := s1); clear _h; subst s1) | ((have _h : Regs := s1); clear _h; subst s1) | clear_value s1)
    | with_reducible apply kept_ite
    | (with_reducible refine kept_foldl (fun _ _ => ?_) ?_)
    | (with_reducible refine kept_foldl1 (fun _ _ => ?_) ?_)
    | (with_reducible refine kept_foldr (fun _ _ => ?_) ?_)
    | (with_reducible refine KeptP.of (State.checkSlot_kept _ _ _ _ _ _ _ _) ?_)
    | (with_reducible refine kept_getD ?_ ?_)
    | (simp [*]; done)
    | (simp [*, State.checkSlot_kept _ _ _ _ _ _ _ _ _ _ (by assumption : Sys2Proof.Machine.State.checkSlot _ _ _ _ _ _ _ _ = (_, _))]; done)
    | split
    | (intros; simp only [↓kept_mk, kept_fold])
    | simp [*]
@[simp ↓] theorem State.wroteLine_kept : ∀ a0 a1 a2, (State.wroteLine a0 a1 a2).kept = a0.kept := by
  intro a0 a1 a2
  unfold State.wroteLine
  repeat'
    first
    | with_reducible rfl
    | with_reducible apply kept_ite
    | (extract_lets +onlyGivenNames t; first | (refine kept_cut (x := t) ?_ ?_; (on_goal 1 => subst t); (on_goal 2 => (intro; clear_value t))) | clear_value t)
    | (simp [*]; done)
    | split
@[simp ↓] theorem State.rimeDone_kept : ∀ a0 a1 a2 a3, (State.rimeDone a0 a1 a2 a3).kept = a0.kept := by
  intro a0 a1 a2 a3
  unfold State.rimeDone
  repeat'
    first
    | with_reducible rfl
    | with_reducible apply kept_ite
    | (simp [*]; done)
    | split
@[simp ↓] theorem State.rspAck_kept : ∀ a0 a1 a2, (State.rspAck a0 a1 a2).kept = a0.kept := by
  intros; unfold State.rspAck; split <;> simp
@[simp ↓] theorem State.lateRsp_kept : ∀ a0 a1 a2, (State.lateRsp a0 a1 a2).kept = a0.kept := by
  intros; simp [State.lateRsp]
@[simp ↓] theorem State.ifAnswered_kept : ∀ a0 a1 a2, (State.ifAnswered a0 a1 a2).kept = a0.kept := by
  intro a0 a1 a2
  unfold State.ifAnswered
  repeat'
    first
    | with_reducible rfl
    | with_reducible apply kept_ite
    | (simp [*]; done)
    | split
@[simp ↓] theorem State.applyAns_kept : ∀ a0 a1 a2 a3, (State.applyAns a0 a1 a2 a3).kept = a0.kept := by
  intro a0 a1 a2 a3
  unfold State.applyAns
  repeat'
    first
    | with_reducible rfl
    | with_reducible apply kept_ite
    | (extract_lets +onlyGivenNames t; first | (refine kept_cut (x := t) ?_ ?_; (on_goal 1 => subst t); (on_goal 2 => (intro; clear_value t))) | clear_value t)
    | (simp [*]; done)
    | split
@[simp ↓] theorem State.applyParked_kept : ∀ a0 a1 a2 a3 a4, (State.applyParked a0 a1 a2 a3 a4).kept = a0.kept := by
  intro a0 a1 a2 a3 a4
  unfold State.applyParked
  repeat'
    first
    | with_reducible rfl
    | with_reducible apply kept_ite
    | (with_reducible refine kept_foldl (fun _ _ => ?_) ?_)
    | (simp [*]; done)
    | split
@[simp ↓] theorem State.dropSnoop_kept : ∀ a0 a1 a2 a3, (State.dropSnoop a0 a1 a2 a3).kept = a0.kept := by
  intro a0 a1 a2 a3
  unfold State.dropSnoop
  repeat'
    first
    | with_reducible rfl
    | with_reducible assumption
    | with_reducible apply kept_ite
    | with_reducible apply kept_ite1
    | (extract_lets +onlyGivenNames s1; first | (refine kept_cut (x := s1) ?_ ?_; (on_goal 1 => subst s1); (on_goal 2 => (intro h; clear_value s1))) | (refine kept_cut1 (State.kept a0) (x := s1) ?_ ?_; (on_goal 1 => subst s1); (on_goal 2 => (intro h; clear_value s1))) | (refine kept_cutP (State.kept a0) (x := s1) ?_ ?_; (on_goal 1 => subst s1); (on_goal 2 => (intro h; clear_value s1))) |  ((have _h : ∀ x, State.kept (s1 x) = State.kept (s1 x) := fun _ => rfl); clear _h; subst s1) | ((have _h : ∀ x y, State.kept (s1 x y) = State.kept (s1 x y) := fun _ _ => rfl); clear _h; subst s1) | ((have _h : ∀ x y z, State.kept (s1 x y z) = State.kept (s1 x y z) := fun _ _ _ => rfl); clear _h; subst s1) | ((have _h : ∀ x y z w, State.kept (s1 x y z w) = State.kept (s1 x y z w) := fun _ _ _ _ => rfl); clear _h; subst s1) | ((have _h : Mc := s1); clear _h; subst s1) | ((have _h : Regs := s1); clear _h; subst s1) | clear_value s1)
    | with_reducible apply kept_ite
    | (with_reducible refine kept_foldl (fun _ _ => ?_) ?_)
    | (with_reducible refine kept_foldl1 (fun _ _ => ?_) ?_)
    | (with_reducible refine kept_foldr (fun _ _ => ?_) ?_)
    | (with_reducible refine kept_getD ?_ ?_)
    | (simp [*]; done)
    | split
    | (intros; simp only [↓kept_mk, kept_fold])
    | simp [*]
@[simp ↓] theorem State.dropAll_kept : ∀ a0 a1, (State.dropAll a0 a1).kept = a0.kept := by
  intro a0 a1
  unfold State.dropAll
  repeat'
    first
    | with_reducible rfl
    | with_reducible apply kept_ite
    | (with_reducible refine kept_foldl (fun _ _ => ?_) ?_)
    | (simp [*]; done)
    | split
@[simp ↓] theorem State.freeMsg_kept : ∀ a0 a1 a2, (State.freeMsg a0 a1 a2).kept = a0.kept := by
  intros; unfold State.freeMsg; split <;> simp
@[simp ↓] theorem State.dropMsgs_kept : ∀ a0 a1 a2, (State.dropMsgs a0 a1 a2).kept = a0.kept := by
  intro a0 a1 a2
  unfold State.dropMsgs
  repeat'
    first
    | with_reducible rfl
    | with_reducible apply kept_ite
    | (extract_lets +onlyGivenNames t; first | (refine kept_cut (x := t) ?_ ?_; (on_goal 1 => subst t); (on_goal 2 => (intro; clear_value t))) | clear_value t)
    | (with_reducible refine kept_foldl (fun _ _ => ?_) ?_)
    | (simp [*]; done)
    | split
@[simp ↓] theorem State.loseSession_kept : ∀ a0 a1 a2, (State.loseSession a0 a1 a2).kept = a0.kept := by
  intro a0 a1 a2
  unfold State.loseSession
  repeat'
    first
    | with_reducible rfl
    | with_reducible apply kept_ite
    | (simp [*]; done)
    | split
@[simp ↓] theorem State.failAgent_kept : ∀ a0 a1 a2 a3 a4, (State.failAgent a0 a1 a2 a3 a4).kept = a0.kept := by
  intros; unfold State.failAgent; split <;> simp
@[simp ↓] theorem State.refuseReq_kept : ∀ a0 a1 a2, (State.refuseReq a0 a1 a2).kept = a0.kept := by
  intro a0 a1 a2
  unfold State.refuseReq
  repeat'
    first
    | with_reducible rfl
    | with_reducible apply kept_ite
    | (extract_lets +onlyGivenNames t; first | (refine kept_cut (x := t) ?_ ?_; (on_goal 1 => subst t); (on_goal 2 => (intro; clear_value t))) | clear_value t)
    | (simp [*]; done)
    | split
@[simp ↓] theorem State.admitGeneral_kept : ∀ a0 a1 a2, (State.admitGeneral a0 a1 a2).kept = a0.kept := by
  intro a0 a1 a2
  unfold State.admitGeneral
  repeat'
    first
    | with_reducible rfl
    | with_reducible apply kept_ite
    | (simp [*]; done)
    | split
@[simp ↓] theorem State.setAdmg_kept : ∀ a0 a1 a2 a3 a4, (State.setAdmg a0 a1 a2 a3 a4).kept = a0.kept := by
  intros; simp [State.setAdmg]
@[simp ↓] theorem State.wbFree_kept : ∀ a0 a1 a2, (State.wbFree a0 a1 a2).kept = a0.kept := by
  intro a0 a1 a2
  unfold State.wbFree
  repeat'
    first
    | with_reducible rfl
    | with_reducible apply kept_ite
    | (simp [*]; done)
    | split
@[simp ↓] theorem State.admitted_kept : ∀ a0 a1 a2, (State.admitted a0 a1 a2).kept = a0.kept := by
  intros; unfold State.admitted; split <;> simp
@[simp ↓] theorem State.wbChange_kept : ∀ a0 a1 a2 a3 a4, (State.wbChange a0 a1 a2 a3 a4).kept = a0.kept := by
  intro a0 a1 a2 a3 a4
  unfold State.wbChange
  repeat'
    first
    | with_reducible rfl
    | with_reducible assumption
    | with_reducible apply kept_ite
    | with_reducible apply kept_ite1
    | (extract_lets +onlyGivenNames s1; first | (refine kept_cut (x := s1) ?_ ?_; (on_goal 1 => subst s1); (on_goal 2 => (intro h; clear_value s1))) | (refine kept_cut1 (State.kept a0) (x := s1) ?_ ?_; (on_goal 1 => subst s1); (on_goal 2 => (intro h; clear_value s1))) | (refine kept_cutP (State.kept a0) (x := s1) ?_ ?_; (on_goal 1 => subst s1); (on_goal 2 => (intro h; clear_value s1))) |  ((have _h : ∀ x, State.kept (s1 x) = State.kept (s1 x) := fun _ => rfl); clear _h; subst s1) | ((have _h : ∀ x y, State.kept (s1 x y) = State.kept (s1 x y) := fun _ _ => rfl); clear _h; subst s1) | ((have _h : ∀ x y z, State.kept (s1 x y z) = State.kept (s1 x y z) := fun _ _ _ => rfl); clear _h; subst s1) | ((have _h : ∀ x y z w, State.kept (s1 x y z w) = State.kept (s1 x y z w) := fun _ _ _ _ => rfl); clear _h; subst s1) | ((have _h : Mc := s1); clear _h; subst s1) | ((have _h : Regs := s1); clear _h; subst s1) | clear_value s1)
    | with_reducible apply kept_ite
    | (with_reducible refine kept_foldl (fun _ _ => ?_) ?_)
    | (with_reducible refine kept_foldl1 (fun _ _ => ?_) ?_)
    | (with_reducible refine kept_foldr (fun _ _ => ?_) ?_)
    | (with_reducible refine KeptO.of (State.setDir_kept _ _ _ _ _ _) ?_)
    | (with_reducible refine kept_getD ?_ ?_)
    | (simp [*]; done)
    | (simp [*, State.setDir_kept _ _ _ _ _ _ _ (by assumption : Sys2Proof.Machine.State.setDir _ _ _ _ _ _ = some _)]; done)
    | split
    | (intros; simp only [↓kept_mk, kept_fold])
    | simp [*]
@[simp ↓] theorem State.placeMw_kept : ∀ a0 a1 a2, (State.placeMw a0 a1 a2).kept = a0.kept := by
  intro a0 a1 a2
  unfold State.placeMw
  repeat'
    first
    | with_reducible rfl
    | with_reducible apply kept_ite
    | (simp [*]; done)
    | split
@[simp ↓] theorem State.admitMw_kept : ∀ a0 a1 a2, (State.admitMw a0 a1 a2).kept = a0.kept := by
  intro a0 a1 a2
  unfold State.admitMw
  repeat'
    first
    | with_reducible rfl
    | with_reducible apply kept_ite
    | (extract_lets +onlyGivenNames t; first | (refine kept_cut (x := t) ?_ ?_; (on_goal 1 => subst t); (on_goal 2 => (intro; clear_value t))) | clear_value t)
    | (simp [*]; done)
    | split
@[simp ↓] theorem State.admitCln_kept : ∀ a0 a1 a2, (State.admitCln a0 a1 a2).kept = a0.kept := by
  intro a0 a1 a2
  unfold State.admitCln
  repeat'
    first
    | with_reducible rfl
    | with_reducible apply kept_ite
    | (extract_lets +onlyGivenNames t; first | (refine kept_cut (x := t) ?_ ?_; (on_goal 1 => subst t); (on_goal 2 => (intro; clear_value t))) | clear_value t)
    | (simp [*]; done)
    | split
@[simp ↓] theorem State.admitBic_kept : ∀ a0 a1 a2, (State.admitBic a0 a1 a2).kept = a0.kept := by
  intro a0 a1 a2
  unfold State.admitBic
  repeat'
    first
    | with_reducible rfl
    | with_reducible apply kept_ite
    | (extract_lets +onlyGivenNames t; first | (refine kept_cut (x := t) ?_ ?_; (on_goal 1 => subst t); (on_goal 2 => (intro; clear_value t))) | clear_value t)
    | (with_reducible refine KeptE.of (State.done_kept _ _ _) ?_)
    | (simp [*]; done)
    | (simp [*, State.done_kept _ _ _ _ (by assumption : State.done _ _ _ = Except.ok _)]; done)
    | split
@[simp ↓] theorem State.fwdWriteback_kept : ∀ a0 a1 a2 a3, (State.fwdWriteback a0 a1 a2 a3).kept = a0.kept := by
  intro a0 a1 a2 a3
  unfold State.fwdWriteback
  repeat'
    first
    | with_reducible rfl
    | with_reducible assumption
    | with_reducible apply kept_ite
    | with_reducible apply kept_ite1
    | (extract_lets +onlyGivenNames s1; first | (refine kept_cut (x := s1) ?_ ?_; (on_goal 1 => subst s1); (on_goal 2 => (intro h; clear_value s1))) | (refine kept_cut1 (State.kept a0) (x := s1) ?_ ?_; (on_goal 1 => subst s1); (on_goal 2 => (intro h; clear_value s1))) | (refine kept_cutP (State.kept a0) (x := s1) ?_ ?_; (on_goal 1 => subst s1); (on_goal 2 => (intro h; clear_value s1))) |  ((have _h : ∀ x, State.kept (s1 x) = State.kept (s1 x) := fun _ => rfl); clear _h; subst s1) | ((have _h : ∀ x y, State.kept (s1 x y) = State.kept (s1 x y) := fun _ _ => rfl); clear _h; subst s1) | ((have _h : ∀ x y z, State.kept (s1 x y z) = State.kept (s1 x y z) := fun _ _ _ => rfl); clear _h; subst s1) | ((have _h : ∀ x y z w, State.kept (s1 x y z w) = State.kept (s1 x y z w) := fun _ _ _ _ => rfl); clear _h; subst s1) | ((have _h : Mc := s1); clear _h; subst s1) | ((have _h : Regs := s1); clear _h; subst s1) | clear_value s1)
    | with_reducible apply kept_ite
    | (with_reducible refine kept_foldl (fun _ _ => ?_) ?_)
    | (with_reducible refine kept_foldl1 (fun _ _ => ?_) ?_)
    | (with_reducible refine kept_foldr (fun _ _ => ?_) ?_)
    | (with_reducible refine kept_getD ?_ ?_)
    | (simp [*]; done)
    | split
    | (intros; simp only [↓kept_mk, kept_fold])
    | simp [*]
theorem State.recvHs_kept : ∀ a0 a1 a2 a3, KeptT a1.kept (@State.recvHs a0 a1 a2 a3) := by
  intro a0 a1 a2 a3
  unfold State.recvHs
  repeat'
    first
    | with_reducible rfl
    | with_reducible apply KeptT.ite
    | with_reducible exact KeptT.none
    | with_reducible apply KeptT.some
    | with_reducible apply kept_ite
    | (with_reducible refine KeptT.of (State.recv_kept _ _ _ _) ?_)
    | (simp [*]; done)
    | (simp [*, State.recv_kept _ _ _ _ _ _ _ (by assumption : @State.recv _ _ _ _ = some (_, _, _))]; done)
    | split
@[simp ↓] theorem State.startFreeze_kept : ∀ a0 a1 a2 a3, (State.startFreeze a0 a1 a2 a3).kept = a0.kept := by
  intro a0 a1 a2 a3
  unfold State.startFreeze
  repeat'
    first
    | with_reducible rfl
    | with_reducible apply kept_ite
    | (with_reducible refine kept_foldl (fun _ _ => ?_) ?_)
    | (simp [*]; done)
    | split
@[simp ↓] theorem State.startThaw_kept : ∀ a0 a1, (State.startThaw a0 a1).kept = a0.kept := by
  intro a0 a1
  unfold State.startThaw
  repeat'
    first
    | with_reducible rfl
    | with_reducible apply kept_ite
    | (with_reducible refine kept_foldl (fun _ _ => ?_) ?_)
    | (simp [*]; done)
    | split
@[simp ↓] theorem State.wakeBe_kept : ∀ a0, (State.wakeBe a0).kept = a0.kept := by
  intros; unfold State.wakeBe; split <;> simp
@[simp ↓] theorem State.grantTo_kept : ∀ a0 a1 a2, (State.grantTo a0 a1 a2).kept = a0.kept := by
  intros; simp [State.grantTo]
@[simp ↓] theorem State.cutWork_kept : ∀ a0 a1 a2, (State.cutWork a0 a1 a2).kept = a0.kept := by
  intro a0 a1 a2
  unfold State.cutWork
  repeat'
    first
    | with_reducible rfl
    | with_reducible apply kept_ite
    | (simp [*]; done)
    | split
@[simp ↓] theorem State.endGrant_kept : ∀ a0 a1, (State.endGrant a0 a1).kept = a0.kept := by
  intros; unfold State.endGrant; split <;> simp
@[simp ↓] theorem State.arbTurn_kept : ∀ a0 a1, (State.arbTurn a0 a1).kept = a0.kept := by
  intro a0 a1
  unfold State.arbTurn
  repeat'
    first
    | with_reducible rfl
    | with_reducible apply kept_ite
    | (extract_lets +onlyGivenNames t; first | (refine kept_cut (x := t) ?_ ?_; (on_goal 1 => subst t); (on_goal 2 => (intro; clear_value t))) | clear_value t)
    | (simp [*]; done)
    | split
@[simp ↓] theorem State.engEnds_kept : ∀ a0, (State.engEnds a0).kept = a0.kept := by
  intro a0
  unfold State.engEnds
  repeat'
    first
    | with_reducible rfl
    | with_reducible apply kept_ite
    | (with_reducible refine KeptE.of (State.done_kept _ _ _) ?_)
    | (with_reducible refine kept_foldl (fun _ _ => ?_) ?_)
    | (simp [*]; done)
    | (simp [*, State.done_kept _ _ _ _ (by assumption : State.done _ _ _ = Except.ok _)]; done)
    | split
@[simp ↓] theorem State.queueBulk_kept : ∀ a0 a1 a2 a3 a4 a5, (State.queueBulk a0 a1 a2 a3 a4 a5).kept = a0.kept := by
  intros; simp [State.queueBulk]
@[simp ↓] theorem State.queueSweep_kept : ∀ a0 a1 a2 a3, (State.queueSweep a0 a1 a2 a3).kept = a0.kept := by
  intros; simp [State.queueSweep]
@[simp ↓] theorem State.stopBulk_kept : ∀ a0 a1, (State.stopBulk a0 a1).kept = a0.kept := by
  intros; simp [State.stopBulk]
@[simp ↓] theorem State.sfScrub_kept : ∀ a0 a1 a2, (State.sfScrub a0 a1 a2).kept = a0.kept := by
  intro a0 a1 a2
  unfold State.sfScrub
  repeat'
    first
    | with_reducible rfl
    | with_reducible apply kept_ite
    | (extract_lets +onlyGivenNames t; first | (refine kept_cut (x := t) ?_ ?_; (on_goal 1 => subst t); (on_goal 2 => (intro; clear_value t))) | clear_value t)
    | (simp [*]; done)
    | split
@[simp ↓] theorem State.firnScrub_kept : ∀ a0 a1 a2 a3, (State.firnScrub a0 a1 a2 a3).kept = a0.kept := by
  intros; simp [State.firnScrub]
@[simp ↓] theorem State.imeans_kept : ∀ a0, (State.imeans a0).kept = a0.kept := by
  intros; simp [State.imeans]
@[simp ↓] theorem State.telSend_kept : ∀ a0 a1, (State.telSend a0 a1).kept = a0.kept := by
  intro a0 a1
  unfold State.telSend
  repeat'
    first
    | with_reducible rfl
    | with_reducible apply kept_ite
    | (extract_lets +onlyGivenNames t; first | (refine kept_cut (x := t) ?_ ?_; (on_goal 1 => subst t); (on_goal 2 => (intro; clear_value t))) | clear_value t)
    | (with_reducible refine kept_foldl (fun _ _ => ?_) ?_)
    | (simp [*]; done)
    | split
@[simp ↓] theorem State.scrubSlot_kept : ∀ a0 a1, (State.scrubSlot a0 a1).kept = a0.kept := by
  intro a0 a1
  unfold State.scrubSlot
  repeat'
    first
    | with_reducible rfl
    | with_reducible apply kept_ite
    | (extract_lets +onlyGivenNames t; first | (refine kept_cut (x := t) ?_ ?_; (on_goal 1 => subst t); (on_goal 2 => (intro; clear_value t))) | clear_value t)
    | (simp [*]; done)
    | split
@[simp ↓] theorem State.churnRun_kept : ∀ a0 a1 a2, (State.churnRun a0 a1 a2).kept = a0.kept := by
  intro a0 a1 a2
  fun_induction State.churnRun a0 a1 a2
  all_goals
    repeat'
      first
      | with_reducible rfl
      | with_reducible assumption
      | with_reducible apply kept_ite
      | with_reducible apply kept_ite1
      | (extract_lets +onlyGivenNames s1; first | (refine kept_cut (x := s1) ?_ ?_; (on_goal 1 => subst s1); (on_goal 2 => (intro h; clear_value s1))) | (refine kept_cut1 (State.kept a0) (x := s1) ?_ ?_; (on_goal 1 => subst s1); (on_goal 2 => (intro h; clear_value s1))) | (refine kept_cutP (State.kept a0) (x := s1) ?_ ?_; (on_goal 1 => subst s1); (on_goal 2 => (intro h; clear_value s1))) |  ((have _h : ∀ x, State.kept (s1 x) = State.kept (s1 x) := fun _ => rfl); clear _h; subst s1) | ((have _h : ∀ x y, State.kept (s1 x y) = State.kept (s1 x y) := fun _ _ => rfl); clear _h; subst s1) | ((have _h : ∀ x y z, State.kept (s1 x y z) = State.kept (s1 x y z) := fun _ _ _ => rfl); clear _h; subst s1) | ((have _h : ∀ x y z w, State.kept (s1 x y z w) = State.kept (s1 x y z w) := fun _ _ _ _ => rfl); clear _h; subst s1) | ((have _h : Mc := s1); clear _h; subst s1) | ((have _h : Regs := s1); clear _h; subst s1) | clear_value s1)
      | with_reducible apply kept_ite
      | (with_reducible refine kept_foldl (fun _ _ => ?_) ?_)
      | (with_reducible refine kept_foldl1 (fun _ _ => ?_) ?_)
      | (with_reducible refine kept_foldr (fun _ _ => ?_) ?_)
      | (with_reducible refine kept_getD ?_ ?_)
      | (simp +zetaDelta [*]; done)
      | split
      | (intros; simp only [↓kept_mk, kept_fold])
      | simp [*]
@[simp ↓] theorem State.churn_kept : ∀ a0 a1, (State.churn a0 a1).kept = a0.kept := by
  intro a0 a1
  unfold State.churn
  repeat'
    first
    | with_reducible rfl
    | with_reducible apply kept_ite
    | (simp [*]; done)
    | split
@[simp ↓] theorem State.churnLast_kept : ∀ a0 a1, (State.churnLast a0 a1).kept = a0.kept := by
  intros; unfold State.churnLast; split <;> simp
@[simp ↓] theorem State.linkDown_kept : ∀ a0 a1 a2, (State.linkDown a0 a1 a2).kept = a0.kept := by
  intro a0 a1 a2
  unfold State.linkDown
  repeat'
    first
    | with_reducible rfl
    | with_reducible apply kept_ite
    | (with_reducible refine kept_foldl (fun _ _ => ?_) ?_)
    | (simp [*]; done)
    | split
@[simp ↓] theorem State.linkUp_kept : ∀ a0 a1 a2 a3, (State.linkUp a0 a1 a2 a3).kept = a0.kept := by
  intro a0 a1 a2 a3
  unfold State.linkUp
  repeat'
    first
    | with_reducible rfl
    | with_reducible apply kept_ite
    | (with_reducible refine kept_foldl (fun _ _ => ?_) ?_)
    | (simp [*]; done)
    | split
@[simp ↓] theorem State.linkReset_kept : ∀ a0 a1 a2, (State.linkReset a0 a1 a2).kept = a0.kept := by
  intro a0 a1 a2
  unfold State.linkReset
  repeat'
    first
    | with_reducible rfl
    | with_reducible apply kept_ite
    | (with_reducible refine kept_foldl (fun _ _ => ?_) ?_)
    | (simp [*]; done)
    | split
@[simp ↓] theorem State.stationGone_kept : ∀ a0 a1, (State.stationGone a0 a1).kept = a0.kept := by
  intro a0 a1
  unfold State.stationGone
  repeat'
    first
    | with_reducible rfl
    | with_reducible apply kept_ite
    | (with_reducible refine kept_foldl (fun _ _ => ?_) ?_)
    | (simp [*]; done)
    | split
@[simp ↓] theorem State.portEvent_kept : ∀ a0 a1, (State.portEvent a0 a1).kept = a0.kept := by
  intros; unfold State.portEvent; split <;> simp
@[simp ↓] theorem State.enterReady_kept : ∀ a0, (State.enterReady a0).kept = a0.kept := by
  intros; simp [State.enterReady]
@[simp ↓] theorem State.bootEnd_kept : ∀ a0 a1, (State.bootEnd a0 a1).kept = a0.kept := by
  intros; unfold State.bootEnd; split <;> simp
@[simp ↓] theorem State.seqNext_kept : ∀ a0, (State.seqNext a0).kept = a0.kept := by
  intro a0
  unfold State.seqNext
  repeat'
    first
    | with_reducible rfl
    | with_reducible assumption
    | with_reducible apply kept_ite
    | with_reducible apply kept_ite1
    | (extract_lets +onlyGivenNames s1; first | (refine kept_cut (x := s1) ?_ ?_; (on_goal 1 => subst s1); (on_goal 2 => (intro h; clear_value s1))) | (refine kept_cut1 (State.kept a0) (x := s1) ?_ ?_; (on_goal 1 => subst s1); (on_goal 2 => (intro h; clear_value s1))) | (refine kept_cutP (State.kept a0) (x := s1) ?_ ?_; (on_goal 1 => subst s1); (on_goal 2 => (intro h; clear_value s1))) |  ((have _h : ∀ x, State.kept (s1 x) = State.kept (s1 x) := fun _ => rfl); clear _h; subst s1) | ((have _h : ∀ x y, State.kept (s1 x y) = State.kept (s1 x y) := fun _ _ => rfl); clear _h; subst s1) | ((have _h : ∀ x y z, State.kept (s1 x y z) = State.kept (s1 x y z) := fun _ _ _ => rfl); clear _h; subst s1) | ((have _h : ∀ x y z w, State.kept (s1 x y z w) = State.kept (s1 x y z w) := fun _ _ _ _ => rfl); clear _h; subst s1) | ((have _h : Mc := s1); clear _h; subst s1) | ((have _h : Regs := s1); clear _h; subst s1) | clear_value s1)
    | with_reducible apply kept_ite
    | (with_reducible refine kept_foldl (fun _ _ => ?_) ?_)
    | (with_reducible refine kept_foldl1 (fun _ _ => ?_) ?_)
    | (with_reducible refine kept_foldr (fun _ _ => ?_) ?_)
    | (with_reducible refine KeptE.of (State.done_kept _ _ _) ?_)
    | (with_reducible refine kept_getD ?_ ?_)
    | (simp [*]; done)
    | (simp [*, State.done_kept _ _ _ _ (by assumption : Sys2Proof.Machine.State.done _ _ _ = Except.ok _)]; done)
    | split
    | (intros; simp only [↓kept_mk, kept_fold])
    | simp [*]
@[simp ↓] theorem State.startSeq_kept : ∀ a0 a1 a2 a3, (State.startSeq a0 a1 a2 a3).kept = a0.kept := by
  intros; simp [State.startSeq]
@[simp ↓] theorem State.startFold_kept : ∀ a0, (State.startFold a0).kept = a0.kept := by
  intro a0
  unfold State.startFold
  repeat'
    first
    | with_reducible rfl
    | with_reducible apply kept_ite
    | (simp [*]; done)
    | split
@[simp ↓] theorem State.pdAdvance_kept : ∀ a0, (State.pdAdvance a0).kept = a0.kept := by
  intro a0
  unfold State.pdAdvance
  repeat'
    first
    | with_reducible rfl
    | with_reducible apply kept_ite
    | (extract_lets +onlyGivenNames t; first | (refine kept_cut (x := t) ?_ ?_; (on_goal 1 => subst t); (on_goal 2 => (intro; clear_value t))) | clear_value t)
    | (with_reducible refine KeptE.of (State.done_kept _ _ _) ?_)
    | (with_reducible refine kept_foldl (fun _ _ => ?_) ?_)
    | (simp [*]; done)
    | (simp [*, State.done_kept _ _ _ _ (by assumption : State.done _ _ _ = Except.ok _)]; done)
    | split
@[simp ↓] theorem State.unitOff_kept : ∀ a0 a1, (State.unitOff a0 a1).kept = a0.kept := by
  intro a0 a1
  unfold State.unitOff
  repeat'
    first
    | with_reducible rfl
    | with_reducible apply kept_ite
    | (simp [*]; done)
    | split
@[simp ↓] theorem State.unitOn_kept : ∀ a0 a1, (State.unitOn a0 a1).kept = a0.kept := by
  intro a0 a1
  unfold State.unitOn
  repeat'
    first
    | with_reducible rfl
    | with_reducible apply kept_ite
    | (with_reducible refine kept_foldl (fun _ _ => ?_) ?_)
    | (simp [*]; done)
    | split
@[simp ↓] theorem State.domTo_kept : ∀ a0 a1 a2, (State.domTo a0 a1 a2).kept = a0.kept := by
  intro a0 a1 a2
  unfold State.domTo
  repeat'
    first
    | with_reducible rfl
    | with_reducible apply kept_ite
    | (extract_lets +onlyGivenNames t; first | (refine kept_cut (x := t) ?_ ?_; (on_goal 1 => subst t); (on_goal 2 => (intro; clear_value t))) | clear_value t)
    | (simp [*]; done)
    | split
@[simp ↓] theorem State.instTo_kept : ∀ a0 a1 a2, (State.instTo a0 a1 a2).kept = a0.kept := by
  intro a0 a1 a2
  unfold State.instTo
  repeat'
    first
    | with_reducible rfl
    | with_reducible assumption
    | with_reducible apply kept_ite
    | with_reducible apply kept_ite1
    | (extract_lets +onlyGivenNames s1; first | (refine kept_cut (x := s1) ?_ ?_; (on_goal 1 => subst s1); (on_goal 2 => (intro h; clear_value s1))) | (refine kept_cut1 (State.kept a0) (x := s1) ?_ ?_; (on_goal 1 => subst s1); (on_goal 2 => (intro h; clear_value s1))) | (refine kept_cutP (State.kept a0) (x := s1) ?_ ?_; (on_goal 1 => subst s1); (on_goal 2 => (intro h; clear_value s1))) |  ((have _h : ∀ x, State.kept (s1 x) = State.kept (s1 x) := fun _ => rfl); clear _h; subst s1) | ((have _h : ∀ x y, State.kept (s1 x y) = State.kept (s1 x y) := fun _ _ => rfl); clear _h; subst s1) | ((have _h : ∀ x y z, State.kept (s1 x y z) = State.kept (s1 x y z) := fun _ _ _ => rfl); clear _h; subst s1) | ((have _h : ∀ x y z w, State.kept (s1 x y z w) = State.kept (s1 x y z w) := fun _ _ _ _ => rfl); clear _h; subst s1) | ((have _h : Mc := s1); clear _h; subst s1) | ((have _h : Regs := s1); clear _h; subst s1) | clear_value s1)
    | with_reducible apply kept_ite
    | (with_reducible refine kept_foldl (fun _ _ => ?_) ?_)
    | (with_reducible refine kept_foldl1 (fun _ _ => ?_) ?_)
    | (with_reducible refine kept_foldr (fun _ _ => ?_) ?_)
    | (with_reducible refine KeptE.of (State.done_kept _ _ _) ?_)
    | (with_reducible refine kept_getD ?_ ?_)
    | (simp [*]; done)
    | (simp [*, State.done_kept _ _ _ _ (by assumption : Sys2Proof.Machine.State.done _ _ _ = Except.ok _)]; done)
    | split
    | (intros; simp only [↓kept_mk, kept_fold])
    | simp [*]
@[simp ↓] theorem State.apply_kept : ∀ a0 a1, (State.apply a0 a1).kept = a0.kept := by
  intro a0 a1
  unfold State.apply
  repeat'
    first
    | with_reducible rfl
    | with_reducible assumption
    | with_reducible apply kept_ite
    | with_reducible apply kept_ite1
    | (extract_lets +onlyGivenNames s1; first | (refine kept_cut (x := s1) ?_ ?_; (on_goal 1 => subst s1); (on_goal 2 => (intro h; clear_value s1))) | (refine kept_cut1 (State.kept a0) (x := s1) ?_ ?_; (on_goal 1 => subst s1); (on_goal 2 => (intro h; clear_value s1))) | (refine kept_cutP (State.kept a0) (x := s1) ?_ ?_; (on_goal 1 => subst s1); (on_goal 2 => (intro h; clear_value s1))) |  ((have _h : ∀ x, State.kept (s1 x) = State.kept (s1 x) := fun _ => rfl); clear _h; subst s1) | ((have _h : ∀ x y, State.kept (s1 x y) = State.kept (s1 x y) := fun _ _ => rfl); clear _h; subst s1) | ((have _h : ∀ x y z, State.kept (s1 x y z) = State.kept (s1 x y z) := fun _ _ _ => rfl); clear _h; subst s1) | ((have _h : ∀ x y z w, State.kept (s1 x y z w) = State.kept (s1 x y z w) := fun _ _ _ _ => rfl); clear _h; subst s1) | ((have _h : Mc := s1); clear _h; subst s1) | ((have _h : Regs := s1); clear _h; subst s1) | clear_value s1)
    | with_reducible apply kept_ite
    | (with_reducible refine kept_foldl (fun _ _ => ?_) ?_)
    | (with_reducible refine kept_foldl1 (fun _ _ => ?_) ?_)
    | (with_reducible refine kept_foldr (fun _ _ => ?_) ?_)
    | (with_reducible refine KeptE.of (State.done_kept _ _ _) ?_)
    | (with_reducible refine KeptE.of (arbMode_kept _ _) ?_)
    | (with_reducible refine kept_getD ?_ ?_)
    | (simp [*]; done)
    | (simp [*, State.done_kept _ _ _ _ (by assumption : Sys2Proof.Machine.State.done _ _ _ = Except.ok _)]; done)
    | split
    | (intros; simp only [↓kept_mk, kept_fold])
    | simp [*]
@[simp ↓] theorem State.applyDue_kept : ∀ a0, (State.applyDue a0).kept = a0.kept := by
  intro a0
  unfold State.applyDue
  repeat'
    first
    | with_reducible rfl
    | with_reducible apply kept_ite
    | (with_reducible refine kept_foldl (fun _ _ => ?_) ?_)
    | (simp [*]; done)
    | split
@[simp ↓] theorem State.countTicks_kept : ∀ a0 a1, (State.countTicks a0 a1).kept = a0.kept := by
  intro a0 a1
  unfold State.countTicks
  repeat'
    first
    | with_reducible rfl
    | with_reducible apply kept_ite
    | (with_reducible refine kept_foldl (fun _ _ => ?_) ?_)
    | (simp [*]; done)
    | split
@[simp ↓] theorem State.injectOver_kept : ∀ a0 a1, (State.injectOver a0 a1).kept = a0.kept := by
  intro a0 a1
  fun_induction State.injectOver a0 a1
  all_goals
    repeat'
      first
      | with_reducible rfl
      | with_reducible assumption
      | with_reducible apply kept_ite
      | with_reducible apply kept_ite1
      | (extract_lets +onlyGivenNames s1; first | (refine kept_cut (x := s1) ?_ ?_; (on_goal 1 => subst s1); (on_goal 2 => (intro h; clear_value s1))) | (refine kept_cut1 (State.kept a0) (x := s1) ?_ ?_; (on_goal 1 => subst s1); (on_goal 2 => (intro h; clear_value s1))) | (refine kept_cutP (State.kept a0) (x := s1) ?_ ?_; (on_goal 1 => subst s1); (on_goal 2 => (intro h; clear_value s1))) |  ((have _h : ∀ x, State.kept (s1 x) = State.kept (s1 x) := fun _ => rfl); clear _h; subst s1) | ((have _h : ∀ x y, State.kept (s1 x y) = State.kept (s1 x y) := fun _ _ => rfl); clear _h; subst s1) | ((have _h : ∀ x y z, State.kept (s1 x y z) = State.kept (s1 x y z) := fun _ _ _ => rfl); clear _h; subst s1) | ((have _h : ∀ x y z w, State.kept (s1 x y z w) = State.kept (s1 x y z w) := fun _ _ _ _ => rfl); clear _h; subst s1) | ((have _h : Mc := s1); clear _h; subst s1) | ((have _h : Regs := s1); clear _h; subst s1) | clear_value s1)
      | with_reducible apply kept_ite
      | (with_reducible refine kept_foldl (fun _ _ => ?_) ?_)
      | (with_reducible refine kept_foldl1 (fun _ _ => ?_) ?_)
      | (with_reducible refine kept_foldr (fun _ _ => ?_) ?_)
      | (with_reducible refine kept_getD ?_ ?_)
      | (simp +zetaDelta [*]; done)
      | split
      | (intros; simp only [↓kept_mk, kept_fold])
      | simp [*]
@[simp ↓] theorem State.twArrive_kept : ∀ a0, (State.twArrive a0).kept = a0.kept := by
  intro a0
  unfold State.twArrive
  repeat'
    first
    | with_reducible rfl
    | with_reducible apply kept_ite
    | (with_reducible refine kept_foldl (fun _ _ => ?_) ?_)
    | (simp [*]; done)
    | split
@[simp ↓] theorem State.turn_kept : ∀ a0, (State.turn a0).kept = a0.kept := by
  intro a0
  unfold State.turn
  repeat'
    first
    | with_reducible rfl
    | with_reducible apply kept_ite
    | (extract_lets +onlyGivenNames t; first | (refine kept_cut (x := t) ?_ ?_; (on_goal 1 => subst t); (on_goal 2 => (intro; clear_value t))) | clear_value t)
    | (with_reducible refine kept_foldl (fun _ _ => ?_) ?_)
    | (simp [*]; done)
    | split
@[simp ↓] theorem State.seeReq_kept : ∀ a0, (State.seeReq a0).kept = a0.kept := by
  intros; simp [State.seeReq]
@[simp ↓] theorem State.cycle_kept : ∀ a0, (State.cycle a0).kept = a0.kept := by
  intro a0
  unfold State.cycle
  repeat'
    first
    | with_reducible rfl
    | with_reducible apply kept_ite
    | (extract_lets +onlyGivenNames t; first | (refine kept_cut (x := t) ?_ ?_; (on_goal 1 => subst t); (on_goal 2 => (intro; clear_value t))) | clear_value t)
    | (simp [*]; done)
    | split
@[simp ↓] theorem State.jump_kept : ∀ a0 a1, (State.jump a0 a1).kept = a0.kept := by
  intros; simp [State.jump]
@[simp ↓] theorem State.runTo_kept : ∀ a0 a1 a2, (State.runTo a0 a1 a2).kept = a0.kept := by
  intro a0 a1 a2
  fun_induction State.runTo a0 a1 a2
  all_goals
    repeat'
      first
      | with_reducible rfl
      | with_reducible assumption
      | with_reducible apply kept_ite
      | with_reducible apply kept_ite1
      | (extract_lets +onlyGivenNames s1; first | (refine kept_cut (x := s1) ?_ ?_; (on_goal 1 => subst s1); (on_goal 2 => (intro h; clear_value s1))) | (refine kept_cut1 (State.kept a0) (x := s1) ?_ ?_; (on_goal 1 => subst s1); (on_goal 2 => (intro h; clear_value s1))) | (refine kept_cutP (State.kept a0) (x := s1) ?_ ?_; (on_goal 1 => subst s1); (on_goal 2 => (intro h; clear_value s1))) |  ((have _h : ∀ x, State.kept (s1 x) = State.kept (s1 x) := fun _ => rfl); clear _h; subst s1) | ((have _h : ∀ x y, State.kept (s1 x y) = State.kept (s1 x y) := fun _ _ => rfl); clear _h; subst s1) | ((have _h : ∀ x y z, State.kept (s1 x y z) = State.kept (s1 x y z) := fun _ _ _ => rfl); clear _h; subst s1) | ((have _h : ∀ x y z w, State.kept (s1 x y z w) = State.kept (s1 x y z w) := fun _ _ _ _ => rfl); clear _h; subst s1) | ((have _h : Mc := s1); clear _h; subst s1) | ((have _h : Regs := s1); clear _h; subst s1) | clear_value s1)
      | with_reducible apply kept_ite
      | (with_reducible refine kept_foldl (fun _ _ => ?_) ?_)
      | (with_reducible refine kept_foldl1 (fun _ _ => ?_) ?_)
      | (with_reducible refine kept_foldr (fun _ _ => ?_) ?_)
      | (with_reducible refine kept_getD ?_ ?_)
      | (simp +zetaDelta [*]; done)
      | split
      | (intros; simp only [↓kept_mk, kept_fold])
      | simp [*]
@[simp ↓] theorem State.goTo_kept : ∀ a0 a1, (State.goTo a0 a1).kept = a0.kept := by
  intros; simp [State.goTo]
@[simp ↓] theorem State.closeCycle_kept : ∀ a0, (State.closeCycle a0).kept = a0.kept := by
  intros; simp [State.closeCycle]
@[simp ↓] theorem State.toPhase0_kept : ∀ a0, (State.toPhase0 a0).kept = a0.kept := by
  intros; unfold State.toPhase0; split <;> simp

end Sys2Proof.Machine
end

