-- ==== Sys2Proof/Laws/KeptCmds.lean ====
section
/-!
SUPPORT. `State.kept` is left alone by the commands of slices, ports, agents, engines, memory stations and registers: one lemma for each operation.
-/

set_option linter.unusedTactic false
set_option linter.unreachableTactic false
set_option linter.unusedSimpArgs false
set_option linter.unusedVariables false

namespace Sys2Proof.Machine

open Sys2Proof

theorem execRequestAdmission_kept : ∀ a0 a1, KeptR a1.kept (execRequestAdmission a0 a1) := by
  intro a0 a1
  unfold execRequestAdmission
  repeat'
    first
    | with_reducible rfl
    | with_reducible apply KeptR.ite
    | with_reducible exact KeptR.stay _
    | with_reducible apply KeptR.next
    | with_reducible apply KeptE.ok
    | with_reducible exact KeptE.error
    | with_reducible apply kept_ite
    | (with_reducible refine KeptR.of (stay_kept _) ?_)
    | (with_reducible refine KeptT.of (State.recvHs_kept _ _ _ _) ?_)
    | (simp [*]; done)
    | (simp [*, stay_kept _ _ (by assumption : stay _ = Host.Outcome.next _)]; done)
    | (simp [*, State.recvHs_kept _ _ _ _ _ _ _ (by assumption : @State.recvHs _ _ _ _ = some (_, _, _))]; done)
    | split
theorem execMw_kept : ∀ a0 a1, KeptR a1.kept (execMw a0 a1) := by
  intro a0 a1
  unfold execMw
  repeat'
    first
    | with_reducible rfl
    | with_reducible apply KeptR.ite
    | with_reducible exact KeptR.stay _
    | with_reducible apply KeptR.next
    | with_reducible apply KeptE.ok
    | with_reducible exact KeptE.error
    | with_reducible apply kept_ite
    | (with_reducible refine KeptR.of (stay_kept _) ?_)
    | (with_reducible refine KeptT.of (State.recvHs_kept _ _ _ _) ?_)
    | (simp [*]; done)
    | (simp [*, stay_kept _ _ (by assumption : stay _ = Host.Outcome.next _)]; done)
    | (simp [*, State.recvHs_kept _ _ _ _ _ _ _ (by assumption : @State.recvHs _ _ _ _ = some (_, _, _))]; done)
    | split
theorem execCln_kept : ∀ a0 a1, KeptR a1.kept (execCln a0 a1) := by
  intro a0 a1
  unfold execCln
  repeat'
    first
    | with_reducible rfl
    | with_reducible apply KeptR.ite
    | with_reducible exact KeptR.stay _
    | with_reducible apply KeptR.next
    | with_reducible apply KeptE.ok
    | with_reducible exact KeptE.error
    | with_reducible apply kept_ite
    | (with_reducible refine KeptR.of (stay_kept _) ?_)
    | (with_reducible refine KeptT.of (State.recvHs_kept _ _ _ _) ?_)
    | (simp [*]; done)
    | (simp [*, stay_kept _ _ (by assumption : stay _ = Host.Outcome.next _)]; done)
    | (simp [*, State.recvHs_kept _ _ _ _ _ _ _ (by assumption : @State.recvHs _ _ _ _ = some (_, _, _))]; done)
    | split
theorem execBic_kept : ∀ a0 a1, KeptR a1.kept (execBic a0 a1) := by
  intro a0 a1
  unfold execBic
  repeat'
    first
    | with_reducible rfl
    | with_reducible apply KeptR.ite
    | with_reducible exact KeptR.stay _
    | with_reducible apply KeptR.next
    | with_reducible apply KeptE.ok
    | with_reducible exact KeptE.error
    | with_reducible apply kept_ite
    | (with_reducible refine KeptR.of (stay_kept _) ?_)
    | (with_reducible refine KeptT.of (State.recvHs_kept _ _ _ _) ?_)
    | (simp [*]; done)
    | (simp [*, stay_kept _ _ (by assumption : stay _ = Host.Outcome.next _)]; done)
    | (simp [*, State.recvHs_kept _ _ _ _ _ _ _ (by assumption : @State.recvHs _ _ _ _ = some (_, _, _))]; done)
    | split
@[simp ↓] theorem State.sample_kept : ∀ a0 a1 a2, (State.sample a0 a1 a2).kept = a0.kept := by
  intro a0 a1 a2
  unfold State.sample
  repeat'
    first
    | with_reducible rfl
    | with_reducible apply kept_ite
    | (simp [*]; done)
    | split
theorem execSliceSnoopResponse_kept : ∀ a0 a1, KeptR a1.kept (execSliceSnoopResponse a0 a1) := by
  intro a0 a1
  unfold execSliceSnoopResponse
  repeat'
    first
    | with_reducible rfl
    | with_reducible apply KeptR.ite
    | with_reducible exact KeptR.stay _
    | with_reducible apply KeptR.next
    | with_reducible apply KeptE.ok
    | with_reducible exact KeptE.error
    | with_reducible apply kept_ite
    | (with_reducible refine KeptR.of (stay_kept _) ?_)
    | (with_reducible refine KeptT.of (State.recvHs_kept _ _ _ _) ?_)
    | (simp [*]; done)
    | (simp [*, stay_kept _ _ (by assumption : stay _ = Host.Outcome.next _)]; done)
    | (simp [*, State.recvHs_kept _ _ _ _ _ _ _ (by assumption : @State.recvHs _ _ _ _ = some (_, _, _))]; done)
    | split
theorem execSnoopTimeout_kept : ∀ a0 a1 a2 a3, KeptR a3.kept (execSnoopTimeout a0 a1 a2 a3) := by
  intro a0 a1 a2 a3
  unfold execSnoopTimeout
  repeat'
    first
    | with_reducible rfl
    | with_reducible apply KeptR.ite
    | with_reducible exact KeptR.stay _
    | with_reducible apply KeptR.next
    | with_reducible apply KeptE.ok
    | with_reducible exact KeptE.error
    | with_reducible apply kept_ite
    | (with_reducible refine KeptR.of (stay_kept _) ?_)
    | (simp [*]; done)
    | (simp [*, stay_kept _ _ (by assumption : stay _ = Host.Outcome.next _)]; done)
    | split
theorem execHoldWindowExpiry_kept : ∀ a0 a1 a2 a3, KeptR a3.kept (execHoldWindowExpiry a0 a1 a2 a3) := by
  intro a0 a1 a2 a3
  unfold execHoldWindowExpiry
  repeat'
    first
    | with_reducible rfl
    | with_reducible apply KeptR.ite
    | with_reducible exact KeptR.stay _
    | with_reducible apply KeptR.next
    | with_reducible apply KeptE.ok
    | with_reducible exact KeptE.error
    | with_reducible apply kept_ite
    | (with_reducible refine KeptR.of (stay_kept _) ?_)
    | (simp [*]; done)
    | (simp [*, stay_kept _ _ (by assumption : stay _ = Host.Outcome.next _)]; done)
    | split
@[simp ↓] theorem State.plbDone_kept : ∀ a0 a1 a2, (State.plbDone a0 a1 a2).kept = a0.kept := by
  intro a0 a1 a2
  unfold State.plbDone
  repeat'
    first
    | with_reducible rfl
    | with_reducible apply kept_ite
    | (extract_lets +onlyGivenNames t; first | (refine kept_cut (x := t) ?_ ?_; (on_goal 1 => subst t); (on_goal 2 => (intro; clear_value t))) | clear_value t)
    | (simp [*]; done)
    | split
@[simp ↓] theorem State.readDone_kept : ∀ a0 a1 a2 a3 a4 a5 a6, (State.readDone a0 a1 a2 a3 a4 a5 a6).kept = a0.kept := by
  intro a0 a1 a2 a3 a4 a5 a6
  unfold State.readDone
  repeat'
    first
    | with_reducible rfl
    | with_reducible apply kept_ite
    | (simp [*]; done)
    | split
@[simp ↓] theorem State.rimeTurn_kept : ∀ a0 a1 a2 a3, (State.rimeTurn a0 a1 a2 a3).kept = a0.kept := by
  intro a0 a1 a2 a3
  unfold State.rimeTurn
  repeat'
    first
    | with_reducible rfl
    | with_reducible apply kept_ite
    | (simp [*]; done)
    | split
theorem execMemoryCompletion_kept : ∀ a0 a1, KeptR a1.kept (execMemoryCompletion a0 a1) := by
  intro a0 a1
  unfold execMemoryCompletion
  repeat'
    first
    | with_reducible rfl
    | with_reducible apply KeptR.ite
    | with_reducible exact KeptR.stay _
    | with_reducible apply KeptR.next
    | with_reducible apply KeptE.ok
    | with_reducible exact KeptE.error
    | with_reducible apply kept_ite
    | (with_reducible refine KeptR.of (stay_kept _) ?_)
    | (with_reducible refine KeptT.of (State.recvHs_kept _ _ _ _) ?_)
    | (simp [*]; done)
    | (simp [*, stay_kept _ _ (by assumption : stay _ = Host.Outcome.next _)]; done)
    | (simp [*, State.recvHs_kept _ _ _ _ _ _ _ (by assumption : @State.recvHs _ _ _ _ = some (_, _, _))]; done)
    | split
theorem execFirnLookupData_kept : ∀ a0 a1 a2, KeptR a2.kept (execFirnLookupData a0 a1 a2) := by
  intro a0 a1 a2
  unfold execFirnLookupData
  repeat'
    first
    | with_reducible rfl
    | with_reducible apply KeptR.ite
    | with_reducible exact KeptR.stay _
    | with_reducible apply KeptR.next
    | with_reducible apply KeptE.ok
    | with_reducible exact KeptE.error
    | with_reducible apply kept_ite
    | (with_reducible refine KeptR.of (stay_kept _) ?_)
    | (with_reducible refine KeptT.of (State.recvHs_kept _ _ _ _) ?_)
    | (simp [*]; done)
    | (simp [*, stay_kept _ _ (by assumption : stay _ = Host.Outcome.next _)]; done)
    | (simp [*, State.recvHs_kept _ _ _ _ _ _ _ (by assumption : @State.recvHs _ _ _ _ = some (_, _, _))]; done)
    | split
theorem execOverflowInstallRetry_kept : ∀ a0 a1, KeptR a1.kept (execOverflowInstallRetry a0 a1) := by
  intro a0 a1
  unfold execOverflowInstallRetry
  repeat'
    first
    | with_reducible rfl
    | with_reducible apply KeptR.ite
    | with_reducible exact KeptR.stay _
    | with_reducible apply KeptR.next
    | with_reducible apply KeptE.ok
    | with_reducible exact KeptE.error
    | with_reducible apply kept_ite
    | (extract_lets +onlyGivenNames t; first | (refine kept_cut (x := t) ?_ ?_; (on_goal 1 => subst t); (on_goal 2 => (intro; clear_value t))) | (refine kept_cutP (State.kept a1) (x := t) ?_ ?_; (on_goal 1 => subst t); (on_goal 2 => (intro; clear_value t))) | clear_value t)
    | (with_reducible refine KeptR.of (stay_kept _) ?_)
    | (with_reducible refine KeptOO.of (State.toWay_kept _ _ _ _) ?_)
    | (simp [*]; done)
    | (simp [*, stay_kept _ _ (by assumption : stay _ = Host.Outcome.next _)]; done)
    | (simp [*, State.toWay_kept _ _ _ _ _ (by assumption : State.toWay _ _ _ _ = some (some _))]; done)
    | split
theorem execVictimBufferRetry_kept : ∀ a0 a1 a2, KeptR a2.kept (execVictimBufferRetry a0 a1 a2) := by
  intro a0 a1 a2
  unfold execVictimBufferRetry
  repeat'
    first
    | with_reducible rfl
    | with_reducible apply KeptR.ite
    | with_reducible exact KeptR.stay _
    | with_reducible apply KeptR.next
    | with_reducible apply KeptE.ok
    | with_reducible exact KeptE.error
    | with_reducible apply kept_ite
    | (with_reducible refine KeptR.of (stay_kept _) ?_)
    | (with_reducible refine KeptO.of (State.allocate_kept _ _ _ _) ?_)
    | (simp [*]; done)
    | (simp [*, stay_kept _ _ (by assumption : stay _ = Host.Outcome.next _)]; done)
    | (simp [*, State.allocate_kept _ _ _ _ _ (by assumption : State.allocate _ _ _ _ = some _)]; done)
    | split
theorem execPlbRetry_kept : ∀ a0 a1 a2, KeptR a2.kept (execPlbRetry a0 a1 a2) := by
  intro a0 a1 a2
  unfold execPlbRetry
  repeat'
    first
    | with_reducible rfl
    | with_reducible apply KeptR.ite
    | with_reducible exact KeptR.stay _
    | with_reducible apply KeptR.next
    | with_reducible apply KeptE.ok
    | with_reducible exact KeptE.error
    | with_reducible apply kept_ite
    | (with_reducible refine KeptR.of (stay_kept _) ?_)
    | (simp [*]; done)
    | (simp [*, stay_kept _ _ (by assumption : stay _ = Host.Outcome.next _)]; done)
    | split
theorem execInternalEntryRetry_kept : ∀ a0 a1 a2, KeptR a2.kept (execInternalEntryRetry a0 a1 a2) := by
  intro a0 a1 a2
  unfold execInternalEntryRetry
  repeat'
    first
    | with_reducible rfl
    | with_reducible apply KeptR.ite
    | with_reducible exact KeptR.stay _
    | with_reducible apply KeptR.next
    | with_reducible apply KeptE.ok
    | with_reducible exact KeptE.error
    | with_reducible apply kept_ite
    | (with_reducible refine KeptR.of (stay_kept _) ?_)
    | (with_reducible refine KeptO.of (State.accSpill_kept _ _ _ _) ?_)
    | (simp [*]; done)
    | (simp [*, stay_kept _ _ (by assumption : stay _ = Host.Outcome.next _)]; done)
    | (simp [*, State.accSpill_kept _ _ _ _ _ (by assumption : State.accSpill _ _ _ _ = some _)]; done)
    | split
theorem execPostThrReport_kept : ∀ a0 a1, KeptR a1.kept (execPostThrReport a0 a1) := by
  intro a0 a1
  unfold execPostThrReport
  repeat'
    first
    | with_reducible rfl
    | with_reducible apply KeptR.ite
    | with_reducible exact KeptR.stay _
    | with_reducible apply KeptR.next
    | with_reducible apply KeptE.ok
    | with_reducible exact KeptE.error
    | with_reducible apply kept_ite
    | (with_reducible refine KeptR.of (stay_kept _) ?_)
    | (with_reducible refine kept_foldl (fun _ _ => ?_) ?_)
    | (simp [*]; done)
    | (simp [*, stay_kept _ _ (by assumption : stay _ = Host.Outcome.next _)]; done)
    | split
@[simp ↓] theorem State.admitLock_kept : ∀ a0 a1 a2, (State.admitLock a0 a1 a2).kept = a0.kept := by
  intros; unfold State.admitLock; split <;> simp
theorem execLck_kept : ∀ a0 a1, KeptR a1.kept (execLck a0 a1) := by
  intro a0 a1
  unfold execLck
  repeat'
    first
    | with_reducible rfl
    | with_reducible apply KeptR.ite
    | with_reducible exact KeptR.stay _
    | with_reducible apply KeptR.next
    | with_reducible apply KeptE.ok
    | with_reducible exact KeptE.error
    | with_reducible apply kept_ite
    | (with_reducible refine KeptR.of (stay_kept _) ?_)
    | (with_reducible refine KeptT.of (State.recvHs_kept _ _ _ _) ?_)
    | (simp [*]; done)
    | (simp [*, stay_kept _ _ (by assumption : stay _ = Host.Outcome.next _)]; done)
    | (simp [*, State.recvHs_kept _ _ _ _ _ _ _ (by assumption : @State.recvHs _ _ _ _ = some (_, _, _))]; done)
    | split
theorem execLckn_kept : ∀ a0 a1, KeptR a1.kept (execLckn a0 a1) := by
  intro a0 a1
  unfold execLckn
  repeat'
    first
    | with_reducible rfl
    | with_reducible apply KeptR.ite
    | with_reducible exact KeptR.stay _
    | with_reducible apply KeptR.next
    | with_reducible apply KeptE.ok
    | with_reducible exact KeptE.error
    | with_reducible apply kept_ite
    | (with_reducible refine KeptR.of (stay_kept _) ?_)
    | (with_reducible refine KeptT.of (State.recvHs_kept _ _ _ _) ?_)
    | (simp [*]; done)
    | (simp [*, stay_kept _ _ (by assumption : stay _ = Host.Outcome.next _)]; done)
    | (simp [*, State.recvHs_kept _ _ _ _ _ _ _ (by assumption : @State.recvHs _ _ _ _ = some (_, _, _))]; done)
    | split
@[simp ↓] theorem State.markPw_kept : ∀ a0 a1, (State.markPw a0 a1).kept = a0.kept := by
  intros; simp [State.markPw]
theorem execGrelw_kept : ∀ a0 a1, KeptR a1.kept (execGrelw a0 a1) := by
  intro a0 a1
  unfold execGrelw
  repeat'
    first
    | with_reducible rfl
    | with_reducible assumption
    | with_reducible apply KeptR.ite
    | with_reducible apply kept_ite
    | with_reducible apply kept_ite1
    | (extract_lets +onlyGivenNames s1; first | (refine kept_cut (x := s1) ?_ ?_; (on_goal 1 => subst s1); (on_goal 2 => (intro h; clear_value s1))) | (refine kept_cut1 (State.kept a1) (x := s1) ?_ ?_; (on_goal 1 => subst s1); (on_goal 2 => (intro h; clear_value s1))) | (refine kept_cutP (State.kept a1) (x := s1) ?_ ?_; (on_goal 1 => subst s1); (on_goal 2 => (intro h; clear_value s1))) |  ((have _h : ∀ x, State.kept (s1 x) = State.kept (s1 x) := fun _ => rfl); clear _h; subst s1) | ((have _h : ∀ x y, State.kept (s1 x y) = State.kept (s1 x y) := fun _ _ => rfl); clear _h; subst s1) | ((have _h : ∀ x y z, State.kept (s1 x y z) = State.kept (s1 x y z) := fun _ _ _ => rfl); clear _h; subst s1) | ((have _h : ∀ x y z w, State.kept (s1 x y z w) = State.kept (s1 x y z w) := fun _ _ _ _ => rfl); clear _h; subst s1) | ((have _h : Mc := s1); clear _h; subst s1) | ((have _h : Regs := s1); clear _h; subst s1) | clear_value s1)
    | with_reducible apply kept_ite
    | (with_reducible refine kept_foldl (fun _ _ => ?_) ?_)
    | (with_reducible refine kept_foldl1 (fun _ _ => ?_) ?_)
    | (with_reducible refine kept_foldr (fun _ _ => ?_) ?_)
    | with_reducible exact KeptR.stay _
    | with_reducible apply KeptR.next
    | with_reducible apply KeptE.ok
    | with_reducible exact KeptE.error
    | (with_reducible refine KeptR.of (stay_kept _) ?_)
    | (with_reducible refine KeptO.of (State.setDir_kept _ _ _ _ _ _) ?_)
    | (with_reducible refine KeptT.of (State.recvHs_kept _ _ _ _) ?_)
    | (with_reducible refine kept_getD ?_ ?_)
    | (simp [*]; done)
    | (simp [*, stay_kept _ _ (by assumption : Sys2Proof.Machine.stay _ = Host.Outcome.next _)]; done)
    | (simp [*, State.setDir_kept _ _ _ _ _ _ _ (by assumption : Sys2Proof.Machine.State.setDir _ _ _ _ _ _ = some _)]; done)
    | (simp [*, State.recvHs_kept _ _ _ _ _ _ _ (by assumption : @Sys2Proof.Machine.State.recvHs _ _ _ _ = some (_, _, _))]; done)
    | split
    | (intros; simp only [↓kept_mk, kept_fold])
    | simp [*]
theorem execGrel_kept : ∀ a0 a1, KeptR a1.kept (execGrel a0 a1) := by
  intro a0 a1
  unfold execGrel
  repeat'
    first
    | with_reducible rfl
    | with_reducible apply KeptR.ite
    | with_reducible exact KeptR.stay _
    | with_reducible apply KeptR.next
    | with_reducible apply KeptE.ok
    | with_reducible exact KeptE.error
    | with_reducible apply kept_ite
    | (with_reducible refine KeptR.of (stay_kept _) ?_)
    | (with_reducible refine KeptT.of (State.recvHs_kept _ _ _ _) ?_)
    | (simp [*]; done)
    | (simp [*, stay_kept _ _ (by assumption : stay _ = Host.Outcome.next _)]; done)
    | (simp [*, State.recvHs_kept _ _ _ _ _ _ _ (by assumption : @State.recvHs _ _ _ _ = some (_, _, _))]; done)
    | split
theorem execGrela_kept : ∀ a0 a1, KeptR a1.kept (execGrela a0 a1) := by
  intro a0 a1
  unfold execGrela
  repeat'
    first
    | with_reducible rfl
    | with_reducible apply KeptR.ite
    | with_reducible exact KeptR.stay _
    | with_reducible apply KeptR.next
    | with_reducible apply KeptE.ok
    | with_reducible exact KeptE.error
    | with_reducible apply kept_ite
    | (with_reducible refine KeptR.of (stay_kept _) ?_)
    | (with_reducible refine KeptT.of (State.recvHs_kept _ _ _ _) ?_)
    | (simp [*]; done)
    | (simp [*, stay_kept _ _ (by assumption : stay _ = Host.Outcome.next _)]; done)
    | (simp [*, State.recvHs_kept _ _ _ _ _ _ _ (by assumption : @State.recvHs _ _ _ _ = some (_, _, _))]; done)
    | split
theorem execDpullData_kept : ∀ a0 a1 a2 a3 a4, KeptR a4.kept (execDpullData a0 a1 a2 a3 a4) := by
  intro a0 a1 a2 a3 a4
  unfold execDpullData
  repeat'
    first
    | with_reducible rfl
    | with_reducible apply KeptR.ite
    | with_reducible exact KeptR.stay _
    | with_reducible apply KeptR.next
    | with_reducible apply KeptE.ok
    | with_reducible exact KeptE.error
    | with_reducible apply kept_ite
    | (with_reducible refine KeptR.of (stay_kept _) ?_)
    | (simp [*]; done)
    | (simp [*, stay_kept _ _ (by assumption : stay _ = Host.Outcome.next _)]; done)
    | split
@[simp ↓] theorem State.admitFwd_kept : ∀ a0 a1 a2 a3, (State.admitFwd a0 a1 a2 a3).kept = a0.kept := by
  intro a0 a1 a2 a3
  unfold State.admitFwd
  repeat'
    first
    | with_reducible rfl
    | with_reducible apply kept_ite
    | (simp [*]; done)
    | split
@[simp ↓] theorem State.releaseEarly_kept : ∀ a0 a1, (State.releaseEarly a0 a1).kept = a0.kept := by
  intro a0 a1
  unfold State.releaseEarly
  repeat'
    first
    | with_reducible rfl
    | with_reducible apply kept_ite
    | (with_reducible refine kept_foldl (fun _ _ => ?_) ?_)
    | (simp [*]; done)
    | split
theorem execForwardedRequest_kept : ∀ a0 a1, KeptR a1.kept (execForwardedRequest a0 a1) := by
  intro a0 a1
  unfold execForwardedRequest
  repeat'
    first
    | with_reducible rfl
    | with_reducible apply KeptR.ite
    | with_reducible exact KeptR.stay _
    | with_reducible apply KeptR.next
    | with_reducible apply KeptE.ok
    | with_reducible exact KeptE.error
    | with_reducible apply kept_ite
    | (with_reducible refine KeptR.of (stay_kept _) ?_)
    | (with_reducible refine KeptT.of (State.recvHs_kept _ _ _ _) ?_)
    | (simp [*]; done)
    | (simp [*, stay_kept _ _ (by assumption : stay _ = Host.Outcome.next _)]; done)
    | (simp [*, State.recvHs_kept _ _ _ _ _ _ _ (by assumption : @State.recvHs _ _ _ _ = some (_, _, _))]; done)
    | split
theorem execForwardedEntryFreed_kept : ∀ a0 a1, KeptR a1.kept (execForwardedEntryFreed a0 a1) := by
  intro a0 a1
  unfold execForwardedEntryFreed
  repeat'
    first
    | with_reducible rfl
    | with_reducible apply KeptR.ite
    | with_reducible exact KeptR.stay _
    | with_reducible apply KeptR.next
    | with_reducible apply KeptE.ok
    | with_reducible exact KeptE.error
    | with_reducible apply kept_ite
    | (with_reducible refine KeptR.of (stay_kept _) ?_)
    | (with_reducible refine KeptT.of (State.recvHs_kept _ _ _ _) ?_)
    | (simp [*]; done)
    | (simp [*, stay_kept _ _ (by assumption : stay _ = Host.Outcome.next _)]; done)
    | (simp [*, State.recvHs_kept _ _ _ _ _ _ _ (by assumption : @State.recvHs _ _ _ _ = some (_, _, _))]; done)
    | split
@[simp ↓] theorem State.inject_kept : ∀ a0 a1 a2, (State.inject a0 a1 a2).kept = a0.kept := by
  intro a0 a1 a2
  unfold State.inject
  repeat'
    first
    | with_reducible rfl
    | with_reducible apply kept_ite
    | (simp [*]; done)
    | split
@[simp ↓] theorem State.sendAns_kept : ∀ a0 a1 a2, (State.sendAns a0 a1 a2).kept = a0.kept := by
  intro a0 a1 a2
  unfold State.sendAns
  repeat'
    first
    | with_reducible rfl
    | with_reducible apply kept_ite
    | (extract_lets +onlyGivenNames t; first | (refine kept_cut (x := t) ?_ ?_; (on_goal 1 => subst t); (on_goal 2 => (intro; clear_value t))) | clear_value t)
    | (simp [*]; done)
    | split
@[simp ↓] theorem State.pumpPs_kept : ∀ a0 a1 a2, (State.pumpPs a0 a1 a2).kept = a0.kept := by
  intro a0 a1 a2
  fun_induction State.pumpPs a0 a1 a2
  all_goals
    repeat'
      first
      | with_reducible rfl
      | with_reducible assumption
      | with_reducible apply kept_ite
      | with_reducible apply kept_ite1
      | (extract_lets +onlyGivenNames s1; first | (refine kept_cut (x := s1) ?_ ?_; (on_goal 1 => subst s1); (on_goal 2 => (intro h; clear_value s1))) | (refine kept_cut1 (State.kept a0) (x := s1) ?_ ?_; (on_goal 1 => subst s1); (on_goal 2 => (intro h; clear_value s1))) | (refine kept_cutP (State.kept a0) (x := s1) ?_ ?_; (on_goal 1 => subst s1); (on_goal 2 => (intro h; clear_value s1))) |  ((have _h : ∀ x, State.kept (s1 x) = State.kept (s1 x) := fun _ => rfl); clear _h; subst s1) | ((have _h : ∀ x y, State.kept (s1 x y) = State.kept (s1 x y) := fun _ _ => rfl); clear _h; subst s1) | ((have _h : ∀ x y z, State.kept (s1 x y z) = State.kept (s1 x y z) := fun _ _ _ => rfl); clear _h; subst s1) | ((have _h : ∀ x y z w, State.kept (s1 x y z w) = State.kept (s1 x y z w) := fun _ _ _ _ => rfl); clear _h; subst s1) | ((have _h : Mc := s1); clear _h; subst s1) | ((have _h : Regs := s1); clear _h; subst s1) | clear_value s1)
      | with_reducible apply kept_ite
      | (with_reducible refine kept_foldl (fun _ _ => ?_) ?_)
      | (with_reducible refine kept_foldl1 (fun _ _ => ?_) ?_)
      | (with_reducible refine kept_foldr (fun _ _ => ?_) ?_)
      | (with_reducible refine kept_getD ?_ ?_)
      | (simp +zetaDelta [*]; done)
      | split
      | (intros; simp only [↓kept_mk, kept_fold])
      | simp [*]
@[simp ↓] theorem State.pumpPort_kept : ∀ a0 a1, (State.pumpPort a0 a1).kept = a0.kept := by
  intros; simp [State.pumpPort]
@[simp ↓] theorem State.refuseAll_kept : ∀ a0 a1 a2 a3, (State.refuseAll a0 a1 a2 a3).kept = a0.kept := by
  intro a0 a1 a2 a3
  unfold State.refuseAll
  repeat'
    first
    | with_reducible rfl
    | with_reducible apply kept_ite
    | (with_reducible refine kept_foldl (fun _ _ => ?_) ?_)
    | (simp [*]; done)
    | split
@[simp ↓] theorem State.denyRec_kept : ∀ a0 a1 a2 a3 a4 a5, (State.denyRec a0 a1 a2 a3 a4 a5).kept = a0.kept := by
  intros; unfold State.denyRec; split <;> simp
@[simp ↓] theorem State.accept_kept : ∀ a0 a1 a2 a3 a4 a5 a6 a7, (State.accept a0 a1 a2 a3 a4 a5 a6 a7).kept = a0.kept := by
  intros; unfold State.accept; split <;> simp
@[simp ↓] theorem State.access_kept : ∀ a0 a1 a2 a3 a4, (State.access a0 a1 a2 a3 a4).kept = a0.kept := by
  intro a0 a1 a2 a3 a4
  unfold State.access
  repeat'
    first
    | with_reducible rfl
    | with_reducible apply kept_ite
    | (extract_lets +onlyGivenNames t; first | (refine kept_cut (x := t) ?_ ?_; (on_goal 1 => subst t); (on_goal 2 => (intro; clear_value t))) | clear_value t)
    | (with_reducible refine kept_foldl (fun _ _ => ?_) ?_)
    | (simp [*]; done)
    | split
theorem State.requestWord_kept : ∀ a0 a1 a2 a3 a4, KeptR a0.kept (State.requestWord a0 a1 a2 a3 a4) := by
  intro a0 a1 a2 a3 a4
  unfold State.requestWord
  repeat'
    first
    | with_reducible rfl
    | with_reducible apply KeptR.ite
    | with_reducible exact KeptR.stay _
    | with_reducible apply KeptR.next
    | with_reducible apply KeptE.ok
    | with_reducible exact KeptE.error
    | with_reducible apply kept_ite
    | (with_reducible refine KeptR.of (stay_kept _) ?_)
    | (simp [*]; done)
    | (simp [*, stay_kept _ _ (by assumption : stay _ = Host.Outcome.next _)]; done)
    | split
@[simp ↓] theorem State.psWordLost_kept : ∀ a0 a1, (State.psWordLost a0 a1).kept = a0.kept := by
  intros; simp [State.psWordLost]
theorem execRequest_kept : ∀ a0 a1 a2 a3 a4 a5, KeptR a5.kept (execRequest a0 a1 a2 a3 a4 a5) := by
  intro a0 a1 a2 a3 a4 a5
  unfold execRequest
  repeat'
    first
    | with_reducible rfl
    | with_reducible apply KeptR.ite
    | with_reducible exact KeptR.stay _
    | with_reducible apply KeptR.next
    | with_reducible apply KeptE.ok
    | with_reducible exact KeptE.error
    | with_reducible apply kept_ite
    | (with_reducible refine KeptR.of (stay_kept _) ?_)
    | (with_reducible refine KeptR.of (State.requestWord_kept _ _ _ _ _) ?_)
    | (simp [*]; done)
    | (simp [*, stay_kept _ _ (by assumption : stay _ = Host.Outcome.next _)]; done)
    | (simp [*, State.requestWord_kept _ _ _ _ _ _ (by assumption : State.requestWord _ _ _ _ _ = Host.Outcome.next _)]; done)
    | split
theorem execRequestReinject_kept : ∀ a0 a1 a2, KeptR a2.kept (execRequestReinject a0 a1 a2) := by
  intro a0 a1 a2
  unfold execRequestReinject
  repeat'
    first
    | with_reducible rfl
    | with_reducible apply KeptR.ite
    | with_reducible exact KeptR.stay _
    | with_reducible apply KeptR.next
    | with_reducible apply KeptE.ok
    | with_reducible exact KeptE.error
    | with_reducible apply kept_ite
    | (with_reducible refine KeptR.of (stay_kept _) ?_)
    | (simp [*]; done)
    | (simp [*, stay_kept _ _ (by assumption : stay _ = Host.Outcome.next _)]; done)
    | split
theorem State.recvPs_kept : ∀ a0 a1 a2 a3, KeptT a1.kept (@State.recvPs a0 a1 a2 a3) := by
  intro a0 a1 a2 a3
  unfold State.recvPs
  repeat'
    first
    | with_reducible rfl
    | with_reducible apply KeptT.ite
    | with_reducible exact KeptT.none
    | with_reducible apply KeptT.some
    | with_reducible apply kept_ite
    | (with_reducible refine KeptT.of (State.recv_kept _ _ _ _) ?_)
    | (simp [*]; done)
    | (simp [*, State.recv_kept _ _ _ _ _ _ _ (by assumption : @State.recv _ _ _ _ = some (_, _, _))]; done)
    | split
@[simp ↓] theorem State.retire_kept : ∀ a0 a1 a2, (State.retire a0 a1 a2).kept = a0.kept := by
  intros; unfold State.retire; split <;> simp
theorem execRetry_kept : ∀ a0 a1, KeptR a1.kept (execRetry a0 a1) := by
  intro a0 a1
  unfold execRetry
  repeat'
    first
    | with_reducible rfl
    | with_reducible apply KeptR.ite
    | with_reducible exact KeptR.stay _
    | with_reducible apply KeptR.next
    | with_reducible apply KeptE.ok
    | with_reducible exact KeptE.error
    | with_reducible apply kept_ite
    | (with_reducible refine KeptR.of (stay_kept _) ?_)
    | (with_reducible refine KeptT.of (State.recvPs_kept _ _ _ _) ?_)
    | (simp [*]; done)
    | (simp [*, stay_kept _ _ (by assumption : stay _ = Host.Outcome.next _)]; done)
    | (simp [*, State.recvPs_kept _ _ _ _ _ _ _ (by assumption : @State.recvPs _ _ _ _ = some (_, _, _))]; done)
    | split
@[simp ↓] theorem State.credBack_kept : ∀ a0 a1 a2 a3, (State.credBack a0 a1 a2 a3).kept = a0.kept := by
  intros; simp [State.credBack]
theorem execWbcr_kept : ∀ a0 a1, KeptR a1.kept (execWbcr a0 a1) := by
  intro a0 a1
  unfold execWbcr
  repeat'
    first
    | with_reducible rfl
    | with_reducible apply KeptR.ite
    | with_reducible exact KeptR.stay _
    | with_reducible apply KeptR.next
    | with_reducible apply KeptE.ok
    | with_reducible exact KeptE.error
    | with_reducible apply kept_ite
    | (with_reducible refine KeptR.of (stay_kept _) ?_)
    | (with_reducible refine KeptT.of (State.recvPs_kept _ _ _ _) ?_)
    | (simp [*]; done)
    | (simp [*, stay_kept _ _ (by assumption : stay _ = Host.Outcome.next _)]; done)
    | (simp [*, State.recvPs_kept _ _ _ _ _ _ _ (by assumption : @State.recvPs _ _ _ _ = some (_, _, _))]; done)
    | split
theorem execWradm_kept : ∀ a0 a1, KeptR a1.kept (execWradm a0 a1) := by
  intro a0 a1
  unfold execWradm
  repeat'
    first
    | with_reducible rfl
    | with_reducible apply KeptR.ite
    | with_reducible exact KeptR.stay _
    | with_reducible apply KeptR.next
    | with_reducible apply KeptE.ok
    | with_reducible exact KeptE.error
    | with_reducible apply kept_ite
    | (with_reducible refine KeptR.of (stay_kept _) ?_)
    | (with_reducible refine KeptT.of (State.recvPs_kept _ _ _ _) ?_)
    | (simp [*]; done)
    | (simp [*, stay_kept _ _ (by assumption : stay _ = Host.Outcome.next _)]; done)
    | (simp [*, State.recvPs_kept _ _ _ _ _ _ _ (by assumption : @State.recvPs _ _ _ _ = some (_, _, _))]; done)
    | split
theorem execRspack_kept : ∀ a0 a1, KeptR a1.kept (execRspack a0 a1) := by
  intro a0 a1
  unfold execRspack
  repeat'
    first
    | with_reducible rfl
    | with_reducible apply KeptR.ite
    | with_reducible exact KeptR.stay _
    | with_reducible apply KeptR.next
    | with_reducible apply KeptE.ok
    | with_reducible exact KeptE.error
    | with_reducible apply kept_ite
    | (with_reducible refine KeptR.of (stay_kept _) ?_)
    | (with_reducible refine KeptT.of (State.recvPs_kept _ _ _ _) ?_)
    | (simp [*]; done)
    | (simp [*, stay_kept _ _ (by assumption : stay _ = Host.Outcome.next _)]; done)
    | (simp [*, State.recvPs_kept _ _ _ _ _ _ _ (by assumption : @State.recvPs _ _ _ _ = some (_, _, _))]; done)
    | split
theorem execCompletionDelivery_kept : ∀ a0 a1, KeptR a1.kept (execCompletionDelivery a0 a1) := by
  intro a0 a1
  unfold execCompletionDelivery
  repeat'
    first
    | with_reducible rfl
    | with_reducible apply KeptR.ite
    | with_reducible exact KeptR.stay _
    | with_reducible apply KeptR.next
    | with_reducible apply KeptE.ok
    | with_reducible exact KeptE.error
    | with_reducible apply kept_ite
    | (extract_lets +onlyGivenNames t; first | (refine kept_cut (x := t) ?_ ?_; (on_goal 1 => subst t); (on_goal 2 => (intro; clear_value t))) | (refine kept_cutP (State.kept a1) (x := t) ?_ ?_; (on_goal 1 => subst t); (on_goal 2 => (intro; clear_value t))) | clear_value t)
    | (with_reducible refine KeptR.of (stay_kept _) ?_)
    | (with_reducible refine KeptT.of (State.recvPs_kept _ _ _ _) ?_)
    | (simp [*]; done)
    | (simp [*, stay_kept _ _ (by assumption : stay _ = Host.Outcome.next _)]; done)
    | (simp [*, State.recvPs_kept _ _ _ _ _ _ _ (by assumption : @State.recvPs _ _ _ _ = some (_, _, _))]; done)
    | split
theorem State.deliverOne_kept : ∀ a0 a1, KeptO a0.kept (State.deliverOne a0 a1) := by
  intro a0 a1
  unfold State.deliverOne
  repeat'
    first
    | with_reducible rfl
    | with_reducible apply KeptO.ite
    | with_reducible exact KeptO.none
    | with_reducible apply KeptO.some
    | with_reducible apply kept_ite
    | (extract_lets +onlyGivenNames t; first | (refine kept_cut (x := t) ?_ ?_; (on_goal 1 => subst t); (on_goal 2 => (intro; clear_value t))) | (refine kept_cutP (State.kept a0) (x := t) ?_ ?_; (on_goal 1 => subst t); (on_goal 2 => (intro; clear_value t))) | clear_value t)
    | (simp [*]; done)
    | split
@[simp ↓] theorem State.deliverSn_kept : ∀ a0 a1 a2, (State.deliverSn a0 a1 a2).kept = a0.kept := by
  intro a0 a1 a2
  fun_induction State.deliverSn a0 a1 a2
  all_goals
    repeat'
      first
      | with_reducible rfl
      | with_reducible assumption
      | with_reducible apply kept_ite
      | with_reducible apply kept_ite1
      | (extract_lets +onlyGivenNames s1; first | (refine kept_cut (x := s1) ?_ ?_; (on_goal 1 => subst s1); (on_goal 2 => (intro h; clear_value s1))) | (refine kept_cut1 (State.kept a0) (x := s1) ?_ ?_; (on_goal 1 => subst s1); (on_goal 2 => (intro h; clear_value s1))) | (refine kept_cutP (State.kept a0) (x := s1) ?_ ?_; (on_goal 1 => subst s1); (on_goal 2 => (intro h; clear_value s1))) |  ((have _h : ∀ x, State.kept (s1 x) = State.kept (s1 x) := fun _ => rfl); clear _h; subst s1) | ((have _h : ∀ x y, State.kept (s1 x y) = State.kept (s1 x y) := fun _ _ => rfl); clear _h; subst s1) | ((have _h : ∀ x y z, State.kept (s1 x y z) = State.kept (s1 x y z) := fun _ _ _ => rfl); clear _h; subst s1) | ((have _h : ∀ x y z w, State.kept (s1 x y z w) = State.kept (s1 x y z w) := fun _ _ _ _ => rfl); clear _h; subst s1) | ((have _h : Mc := s1); clear _h; subst s1) | ((have _h : Regs := s1); clear _h; subst s1) | clear_value s1)
      | with_reducible apply kept_ite
      | (with_reducible refine kept_foldl (fun _ _ => ?_) ?_)
      | (with_reducible refine kept_foldl1 (fun _ _ => ?_) ?_)
      | (with_reducible refine kept_foldr (fun _ _ => ?_) ?_)
      | (with_reducible refine KeptO.of (State.deliverOne_kept _ _) ?_)
      | (with_reducible refine kept_getD ?_ ?_)
      | (simp +zetaDelta [*]; done)
      | (simp [*, State.deliverOne_kept _ _ _ (by assumption : Sys2Proof.Machine.State.deliverOne _ _ = some _)]; done)
      | split
      | (intros; simp only [↓kept_mk, kept_fold])
      | simp [*]
@[simp ↓] theorem State.deliverAll_kept : ∀ a0 a1, (State.deliverAll a0 a1).kept = a0.kept := by
  intros; simp [State.deliverAll]
theorem execSnoopDelivery_kept : ∀ a0 a1, KeptR a1.kept (execSnoopDelivery a0 a1) := by
  intro a0 a1
  unfold execSnoopDelivery
  repeat'
    first
    | with_reducible rfl
    | with_reducible apply KeptR.ite
    | with_reducible exact KeptR.stay _
    | with_reducible apply KeptR.next
    | with_reducible apply KeptE.ok
    | with_reducible exact KeptE.error
    | with_reducible apply kept_ite
    | (with_reducible refine KeptR.of (stay_kept _) ?_)
    | (with_reducible refine KeptT.of (State.recvPs_kept _ _ _ _) ?_)
    | (simp [*]; done)
    | (simp [*, stay_kept _ _ (by assumption : stay _ = Host.Outcome.next _)]; done)
    | (simp [*, State.recvPs_kept _ _ _ _ _ _ _ (by assumption : @State.recvPs _ _ _ _ = some (_, _, _))]; done)
    | split
theorem execSnpbusy_kept : ∀ a0 a1, KeptR a1.kept (execSnpbusy a0 a1) := by
  intro a0 a1
  unfold execSnpbusy
  repeat'
    first
    | with_reducible rfl
    | with_reducible apply KeptR.ite
    | with_reducible exact KeptR.stay _
    | with_reducible apply KeptR.next
    | with_reducible apply KeptE.ok
    | with_reducible exact KeptE.error
    | with_reducible apply kept_ite
    | (with_reducible refine KeptR.of (stay_kept _) ?_)
    | (with_reducible refine KeptT.of (State.recvHs_kept _ _ _ _) ?_)
    | (simp [*]; done)
    | (simp [*, stay_kept _ _ (by assumption : stay _ = Host.Outcome.next _)]; done)
    | (simp [*, State.recvHs_kept _ _ _ _ _ _ _ (by assumption : @State.recvHs _ _ _ _ = some (_, _, _))]; done)
    | split
@[simp ↓] theorem State.answerLine_kept : ∀ a0 a1 a2 a3, (State.answerLine a0 a1 a2 a3).kept = a0.kept := by
  intro a0 a1 a2 a3
  unfold State.answerLine
  repeat'
    first
    | with_reducible rfl
    | with_reducible apply kept_ite
    | (extract_lets +onlyGivenNames t; first | (refine kept_cut (x := t) ?_ ?_; (on_goal 1 => subst t); (on_goal 2 => (intro; clear_value t))) | clear_value t)
    | (simp [*]; done)
    | split
theorem execSnoopResponse_kept : ∀ a0 a1 a2, KeptR a2.kept (execSnoopResponse a0 a1 a2) := by
  intro a0 a1 a2
  unfold execSnoopResponse
  repeat'
    first
    | with_reducible rfl
    | with_reducible assumption
    | with_reducible apply KeptR.ite
    | with_reducible apply kept_ite
    | with_reducible apply kept_ite1
    | (extract_lets +onlyGivenNames s1; first | (refine kept_cut (x := s1) ?_ ?_; (on_goal 1 => subst s1); (on_goal 2 => (intro h; clear_value s1))) | (refine kept_cut1 (State.kept a2) (x := s1) ?_ ?_; (on_goal 1 => subst s1); (on_goal 2 => (intro h; clear_value s1))) | (refine kept_cutP (State.kept a2) (x := s1) ?_ ?_; (on_goal 1 => subst s1); (on_goal 2 => (intro h; clear_value s1))) |  ((have _h : ∀ x, State.kept (s1 x) = State.kept (s1 x) := fun _ => rfl); clear _h; subst s1) | ((have _h : ∀ x y, State.kept (s1 x y) = State.kept (s1 x y) := fun _ _ => rfl); clear _h; subst s1) | ((have _h : ∀ x y z, State.kept (s1 x y z) = State.kept (s1 x y z) := fun _ _ _ => rfl); clear _h; subst s1) | ((have _h : ∀ x y z w, State.kept (s1 x y z w) = State.kept (s1 x y z w) := fun _ _ _ _ => rfl); clear _h; subst s1) | ((have _h : Mc := s1); clear _h; subst s1) | ((have _h : Regs := s1); clear _h; subst s1) | clear_value s1)
    | with_reducible apply kept_ite
    | (with_reducible refine kept_foldl (fun _ _ => ?_) ?_)
    | (with_reducible refine kept_foldl1 (fun _ _ => ?_) ?_)
    | (with_reducible refine kept_foldr (fun _ _ => ?_) ?_)
    | with_reducible exact KeptR.stay _
    | with_reducible apply KeptR.next
    | with_reducible apply KeptE.ok
    | with_reducible exact KeptE.error
    | (with_reducible refine KeptR.of (stay_kept _) ?_)
    | (with_reducible refine KeptE.of (State.named_kept _ _ _ (fun _ => ?_)) ?_)
    | (with_reducible refine kept_getD ?_ ?_)
    | (simp [*]; done)
    | (simp [*, stay_kept _ _ (by assumption : Sys2Proof.Machine.stay _ = Host.Outcome.next _)]; done)
    | split
    | (intros; simp only [↓kept_mk, kept_fold])
    | simp [*]
theorem execGpfReq_kept : ∀ a0 a1, KeptR a1.kept (execGpfReq a0 a1) := by
  intro a0 a1
  unfold execGpfReq
  repeat'
    first
    | with_reducible rfl
    | with_reducible apply KeptR.ite
    | with_reducible exact KeptR.stay _
    | with_reducible apply KeptR.next
    | with_reducible apply KeptE.ok
    | with_reducible exact KeptE.error
    | with_reducible apply kept_ite
    | (with_reducible refine KeptR.of (stay_kept _) ?_)
    | (simp [*]; done)
    | (simp [*, stay_kept _ _ (by assumption : stay _ = Host.Outcome.next _)]; done)
    | split
@[simp ↓] theorem State.latch_kept : ∀ a0 a1 a2, (State.latch a0 a1 a2).kept = a0.kept := by
  intro a0 a1 a2
  unfold State.latch
  repeat'
    first
    | with_reducible rfl
    | with_reducible apply kept_ite
    | (simp [*]; done)
    | split
theorem execPevDown_kept : ∀ a0 a1 a2, KeptR a2.kept (execPevDown a0 a1 a2) := by
  intro a0 a1 a2
  unfold execPevDown
  repeat'
    first
    | with_reducible rfl
    | with_reducible apply KeptR.ite
    | with_reducible exact KeptR.stay _
    | with_reducible apply KeptR.next
    | with_reducible apply KeptE.ok
    | with_reducible exact KeptE.error
    | with_reducible apply kept_ite
    | (simp [*]; done)
    | split
theorem execPevUp_kept : ∀ a0 a1 a2 a3, KeptR a3.kept (execPevUp a0 a1 a2 a3) := by
  intro a0 a1 a2 a3
  unfold execPevUp
  repeat'
    first
    | with_reducible rfl
    | with_reducible apply KeptR.ite
    | with_reducible exact KeptR.stay _
    | with_reducible apply KeptR.next
    | with_reducible apply KeptE.ok
    | with_reducible exact KeptE.error
    | with_reducible apply kept_ite
    | (simp [*]; done)
    | split
theorem execPevReset_kept : ∀ a0 a1 a2, KeptR a2.kept (execPevReset a0 a1 a2) := by
  intro a0 a1 a2
  unfold execPevReset
  repeat'
    first
    | with_reducible rfl
    | with_reducible apply KeptR.ite
    | with_reducible exact KeptR.stay _
    | with_reducible apply KeptR.next
    | with_reducible apply KeptE.ok
    | with_reducible exact KeptE.error
    | with_reducible apply kept_ite
    | (simp [*]; done)
    | split
theorem execPevGone_kept : ∀ a0 a1 a2, KeptR a2.kept (execPevGone a0 a1 a2) := by
  intro a0 a1 a2
  unfold execPevGone
  repeat'
    first
    | with_reducible rfl
    | with_reducible apply KeptR.ite
    | with_reducible exact KeptR.stay _
    | with_reducible apply KeptR.next
    | with_reducible apply KeptE.ok
    | with_reducible exact KeptE.error
    | with_reducible apply kept_ite
    | (simp [*]; done)
    | split
theorem execGraceTimerExpiry_kept : ∀ a0 a1, KeptR a1.kept (execGraceTimerExpiry a0 a1) := by
  intro a0 a1
  unfold execGraceTimerExpiry
  repeat'
    first
    | with_reducible rfl
    | with_reducible apply KeptR.ite
    | with_reducible exact KeptR.stay _
    | with_reducible apply KeptR.next
    | with_reducible apply KeptE.ok
    | with_reducible exact KeptE.error
    | with_reducible apply kept_ite
    | (with_reducible refine KeptR.of (stay_kept _) ?_)
    | (simp [*]; done)
    | (simp [*, stay_kept _ _ (by assumption : stay _ = Host.Outcome.next _)]; done)
    | split
@[simp ↓] theorem State.release_kept : ∀ a0 a1, (State.release a0 a1).kept = a0.kept := by
  intro a0 a1
  unfold State.release
  repeat'
    first
    | with_reducible rfl
    | with_reducible apply kept_ite
    | (simp [*]; done)
    | split
theorem execSessionDrain_kept : ∀ a0 a1, KeptR a1.kept (execSessionDrain a0 a1) := by
  intro a0 a1
  unfold execSessionDrain
  repeat'
    first
    | with_reducible rfl
    | with_reducible apply KeptR.ite
    | with_reducible exact KeptR.stay _
    | with_reducible apply KeptR.next
    | with_reducible apply KeptE.ok
    | with_reducible exact KeptE.error
    | with_reducible apply kept_ite
    | (with_reducible refine KeptR.of (stay_kept _) ?_)
    | (simp [*]; done)
    | (simp [*, stay_kept _ _ (by assumption : stay _ = Host.Outcome.next _)]; done)
    | split
theorem execAgentSweepEnd_kept : ∀ a0 a1, KeptR a1.kept (execAgentSweepEnd a0 a1) := by
  intro a0 a1
  unfold execAgentSweepEnd
  repeat'
    first
    | with_reducible rfl
    | with_reducible apply KeptR.ite
    | with_reducible exact KeptR.stay _
    | with_reducible apply KeptR.next
    | with_reducible apply KeptE.ok
    | with_reducible exact KeptE.error
    | with_reducible apply kept_ite
    | (with_reducible refine KeptR.of (stay_kept _) ?_)
    | (simp [*]; done)
    | (simp [*, stay_kept _ _ (by assumption : stay _ = Host.Outcome.next _)]; done)
    | split
@[simp ↓] theorem State.disableNext_kept : ∀ a0 a1 a2 a3, (State.disableNext a0 a1 a2 a3).kept = a0.kept := by
  intro a0 a1 a2 a3
  unfold State.disableNext
  repeat'
    first
    | with_reducible rfl
    | with_reducible apply kept_ite
    | (with_reducible refine KeptE.of (State.done_kept _ _ _) ?_)
    | (simp [*]; done)
    | (simp [*, State.done_kept _ _ _ _ (by assumption : State.done _ _ _ = Except.ok _)]; done)
    | split
theorem execAgentDisableDrain_kept : ∀ a0 a1, KeptR a1.kept (execAgentDisableDrain a0 a1) := by
  intro a0 a1
  unfold execAgentDisableDrain
  repeat'
    first
    | with_reducible rfl
    | with_reducible apply KeptR.ite
    | with_reducible exact KeptR.stay _
    | with_reducible apply KeptR.next
    | with_reducible apply KeptE.ok
    | with_reducible exact KeptE.error
    | with_reducible apply kept_ite
    | (with_reducible refine KeptR.of (stay_kept _) ?_)
    | (simp [*]; done)
    | (simp [*, stay_kept _ _ (by assumption : stay _ = Host.Outcome.next _)]; done)
    | split
theorem execLotteryDraw_kept : ∀ a0 a1, KeptR a1.kept (execLotteryDraw a0 a1) := by
  intro a0 a1
  unfold execLotteryDraw
  repeat'
    first
    | with_reducible rfl
    | with_reducible apply KeptR.ite
    | with_reducible exact KeptR.stay _
    | with_reducible apply KeptR.next
    | with_reducible apply KeptE.ok
    | with_reducible exact KeptE.error
    | with_reducible apply kept_ite
    | (with_reducible refine KeptR.of (stay_kept _) ?_)
    | (simp [*]; done)
    | (simp [*, stay_kept _ _ (by assumption : stay _ = Host.Outcome.next _)]; done)
    | split
theorem execGrantEnd_kept : ∀ a0 a1, KeptR a1.kept (execGrantEnd a0 a1) := by
  intro a0 a1
  unfold execGrantEnd
  repeat'
    first
    | with_reducible rfl
    | with_reducible apply KeptR.ite
    | with_reducible exact KeptR.stay _
    | with_reducible apply KeptR.next
    | with_reducible apply KeptE.ok
    | with_reducible exact KeptE.error
    | with_reducible apply kept_ite
    | (with_reducible refine KeptR.of (stay_kept _) ?_)
    | (simp [*]; done)
    | (simp [*, stay_kept _ _ (by assumption : stay _ = Host.Outcome.next _)]; done)
    | split
@[simp ↓] theorem State.cutGrant_kept : ∀ a0 a1, (State.cutGrant a0 a1).kept = a0.kept := by
  intros; simp [State.cutGrant]
@[simp ↓] theorem State.markCut_kept : ∀ a0 a1 a2, (State.markCut a0 a1 a2).kept = a0.kept := by
  intros; simp [State.markCut]
theorem execHoldWatchdogExpiry_kept : ∀ a0 a1, KeptR a1.kept (execHoldWatchdogExpiry a0 a1) := by
  intro a0 a1
  unfold execHoldWatchdogExpiry
  repeat'
    first
    | with_reducible rfl
    | with_reducible apply KeptR.ite
    | with_reducible exact KeptR.stay _
    | with_reducible apply KeptR.next
    | with_reducible apply KeptE.ok
    | with_reducible exact KeptE.error
    | with_reducible apply kept_ite
    | (with_reducible refine KeptR.of (stay_kept _) ?_)
    | (simp [*]; done)
    | (simp [*, stay_kept _ _ (by assumption : stay _ = Host.Outcome.next _)]; done)
    | split
theorem execEmergencyPreempt_kept : ∀ a0, KeptR a0.kept (execEmergencyPreempt a0) := by
  intro a0
  unfold execEmergencyPreempt
  repeat'
    first
    | with_reducible rfl
    | with_reducible apply KeptR.ite
    | with_reducible exact KeptR.stay _
    | with_reducible apply KeptR.next
    | with_reducible apply KeptE.ok
    | with_reducible exact KeptE.error
    | with_reducible apply kept_ite
    | (with_reducible refine KeptR.of (stay_kept _) ?_)
    | (simp [*]; done)
    | (simp [*, stay_kept _ _ (by assumption : stay _ = Host.Outcome.next _)]; done)
    | split
theorem execHintUpdate_kept : ∀ a0, KeptR a0.kept (execHintUpdate a0) := by
  intro a0
  unfold execHintUpdate
  repeat'
    first
    | with_reducible rfl
    | with_reducible apply KeptR.ite
    | with_reducible exact KeptR.stay _
    | with_reducible apply KeptR.next
    | with_reducible apply KeptE.ok
    | with_reducible exact KeptE.error
    | with_reducible apply kept_ite
    | (simp [*]; done)
    | split
@[simp ↓] theorem State.modOp_kept : ∀ a0 a1 a2, (State.modOp a0 a1 a2).kept = a0.kept := by
  intros; simp [State.modOp]
@[simp ↓] theorem State.fillStep_kept : ∀ a0 a1 a2 a3 a4, (State.fillStep a0 a1 a2 a3 a4).kept = a0.kept := by
  intro a0 a1 a2 a3 a4
  unfold State.fillStep
  repeat'
    first
    | with_reducible rfl
    | with_reducible apply kept_ite
    | (with_reducible refine kept_foldl (fun _ _ => ?_) ?_)
    | (simp [*]; done)
    | split
@[simp ↓] theorem State.resyncStep_kept : ∀ a0 a1 a2, (State.resyncStep a0 a1 a2).kept = a0.kept := by
  intro a0 a1 a2
  unfold State.resyncStep
  repeat'
    first
    | with_reducible rfl
    | with_reducible apply kept_ite
    | (with_reducible refine kept_foldl (fun _ _ => ?_) ?_)
    | (simp [*]; done)
    | split
@[simp ↓] theorem State.dropStep_kept : ∀ a0 a1 a2, (State.dropStep a0 a1 a2).kept = a0.kept := by
  intros; simp [State.dropStep]
@[simp ↓] theorem State.firnSweep_kept : ∀ a0 a1 a2 a3 a4, (State.firnSweep a0 a1 a2 a3 a4).kept = a0.kept := by
  intro a0 a1 a2 a3 a4
  unfold State.firnSweep
  repeat'
    first
    | with_reducible rfl
    | with_reducible apply kept_ite
    | (with_reducible refine kept_foldl (fun _ _ => ?_) ?_)
    | (simp [*]; done)
    | split
theorem State.beginStep_kept : ∀ a0 a1, KeptO a0.kept (State.beginStep a0 a1) := by
  intro a0 a1
  unfold State.beginStep
  repeat'
    first
    | with_reducible rfl
    | with_reducible apply KeptO.ite
    | with_reducible exact KeptO.none
    | with_reducible apply KeptO.some
    | with_reducible apply kept_ite
    | (simp [*]; done)
    | split
theorem execBulkStepIssue_kept : ∀ a0, KeptR a0.kept (execBulkStepIssue a0) := by
  intro a0
  unfold execBulkStepIssue
  repeat'
    first
    | with_reducible rfl
    | with_reducible apply KeptR.ite
    | with_reducible exact KeptR.stay _
    | with_reducible apply KeptR.next
    | with_reducible apply KeptE.ok
    | with_reducible exact KeptE.error
    | with_reducible apply kept_ite
    | (extract_lets +onlyGivenNames t; first | (refine kept_cut (x := t) ?_ ?_; (on_goal 1 => subst t); (on_goal 2 => (intro; clear_value t))) | (refine kept_cutP (State.kept a0) (x := t) ?_ ?_; (on_goal 1 => subst t); (on_goal 2 => (intro; clear_value t))) | clear_value t)
    | (with_reducible refine KeptR.of (stay_kept _) ?_)
    | (with_reducible refine KeptO.of (State.beginStep_kept _ _) ?_)
    | (simp [*]; done)
    | (simp [*, stay_kept _ _ (by assumption : stay _ = Host.Outcome.next _)]; done)
    | (simp [*, State.beginStep_kept _ _ _ (by assumption : State.beginStep _ _ = some _)]; done)
    | split
@[simp ↓] theorem State.stepDone_kept : ∀ a0 a1 a2, (State.stepDone a0 a1 a2).kept = a0.kept := by
  intros; unfold State.stepDone; split <;> simp
theorem execBulkStepComplete_kept : ∀ a0 a1, KeptR a1.kept (execBulkStepComplete a0 a1) := by
  intro a0 a1
  unfold execBulkStepComplete
  repeat'
    first
    | with_reducible rfl
    | with_reducible apply KeptR.ite
    | with_reducible exact KeptR.stay _
    | with_reducible apply KeptR.next
    | with_reducible apply KeptE.ok
    | with_reducible exact KeptE.error
    | with_reducible apply kept_ite
    | (with_reducible refine KeptR.of (stay_kept _) ?_)
    | (with_reducible refine KeptE.of (State.done_kept _ _ _) ?_)
    | (simp [*]; done)
    | (simp [*, stay_kept _ _ (by assumption : stay _ = Host.Outcome.next _)]; done)
    | (simp [*, State.done_kept _ _ _ _ (by assumption : State.done _ _ _ = Except.ok _)]; done)
    | split
@[simp ↓] theorem State.modMs_kept : ∀ a0 a1 a2, (State.modMs a0 a1 a2).kept = a0.kept := by
  intros; simp [State.modMs]
@[simp ↓] theorem State.msSend_kept : ∀ a0 a1, (State.msSend a0 a1).kept = a0.kept := by
  intro a0 a1
  unfold State.msSend
  repeat'
    first
    | with_reducible rfl
    | with_reducible apply kept_ite
    | (with_reducible refine kept_foldl (fun _ _ => ?_) ?_)
    | (simp [*]; done)
    | split
@[simp ↓] theorem State.rimeServe_kept : ∀ a0 a1 a2 a3, (State.rimeServe a0 a1 a2 a3).kept = a0.kept := by
  intro a0 a1 a2 a3
  unfold State.rimeServe
  repeat'
    first
    | with_reducible rfl
    | with_reducible apply kept_ite
    | (extract_lets +onlyGivenNames t; first | (refine kept_cut (x := t) ?_ ?_; (on_goal 1 => subst t); (on_goal 2 => (intro; clear_value t))) | clear_value t)
    | (with_reducible refine KeptE.of (State.done_kept _ _ _) ?_)
    | (simp [*]; done)
    | (simp [*, State.done_kept _ _ _ _ (by assumption : State.done _ _ _ = Except.ok _)]; done)
    | split
@[simp ↓] theorem State.rimeServeAll_kept : ∀ a0 a1 a2, (State.rimeServeAll a0 a1 a2).kept = a0.kept := by
  intro a0 a1 a2
  unfold State.rimeServeAll
  repeat'
    first
    | with_reducible rfl
    | with_reducible apply kept_ite
    | (with_reducible refine kept_foldl (fun _ _ => ?_) ?_)
    | (simp [*]; done)
    | split
@[simp ↓] theorem State.fillDone_kept : ∀ a0 a1 a2, (State.fillDone a0 a1 a2).kept = a0.kept := by
  intros; simp [State.fillDone]
@[simp ↓] theorem State.msAnswer_kept : ∀ a0 a1 a2, (State.msAnswer a0 a1 a2).kept = a0.kept := by
  intro a0 a1 a2
  unfold State.msAnswer
  repeat'
    first
    | with_reducible rfl
    | with_reducible apply kept_ite
    | (simp [*]; done)
    | split
@[simp ↓] theorem State.msFlush_kept : ∀ a0 a1, (State.msFlush a0 a1).kept = a0.kept := by
  intro a0 a1
  unfold State.msFlush
  repeat'
    first
    | with_reducible rfl
    | with_reducible apply kept_ite
    | (with_reducible refine kept_foldl (fun _ _ => ?_) ?_)
    | (simp [*]; done)
    | split
@[simp ↓] theorem State.msPump_kept : ∀ a0 a1, (State.msPump a0 a1).kept = a0.kept := by
  intros; simp [State.msPump]
theorem execMemoryCommand_kept : ∀ a0 a1, KeptR a1.kept (execMemoryCommand a0 a1) := by
  intro a0 a1
  unfold execMemoryCommand
  repeat'
    first
    | with_reducible rfl
    | with_reducible apply KeptR.ite
    | with_reducible exact KeptR.stay _
    | with_reducible apply KeptR.next
    | with_reducible apply KeptE.ok
    | with_reducible exact KeptE.error
    | with_reducible apply kept_ite
    | (with_reducible refine KeptT.of (State.recv_kept _ _ _ _) ?_)
    | (with_reducible refine KeptR.of (stay_kept _) ?_)
    | (simp [*]; done)
    | (simp [*, State.recv_kept _ _ _ _ _ _ _ (by assumption : @State.recv _ _ _ _ = some (_, _, _))]; done)
    | (simp [*, stay_kept _ _ (by assumption : stay _ = Host.Outcome.next _)]; done)
    | split
@[simp ↓] theorem State.rtArrived_kept : ∀ a0 a1 a2 a3 a4, (State.rtArrived a0 a1 a2 a3 a4).kept = a0.kept := by
  intros; unfold State.rtArrived; split <;> simp
@[simp ↓] theorem State.rtWritten_kept : ∀ a0 a1 a2, (State.rtWritten a0 a1 a2).kept = a0.kept := by
  intro a0 a1 a2
  unfold State.rtWritten
  repeat'
    first
    | with_reducible rfl
    | with_reducible apply kept_ite
    | (extract_lets +onlyGivenNames t; first | (refine kept_cut (x := t) ?_ ?_; (on_goal 1 => subst t); (on_goal 2 => (intro; clear_value t))) | clear_value t)
    | (with_reducible refine KeptE.of (State.done_kept _ _ _) ?_)
    | (simp [*]; done)
    | (simp [*, State.done_kept _ _ _ _ (by assumption : State.done _ _ _ = Except.ok _)]; done)
    | split
theorem State.completionWord_kept : ∀ a0 a1 a2 a3 a4, KeptR a0.kept (State.completionWord a0 a1 a2 a3 a4) := by
  intro a0 a1 a2 a3 a4
  unfold State.completionWord
  repeat'
    first
    | with_reducible rfl
    | with_reducible apply KeptR.ite
    | with_reducible exact KeptR.stay _
    | with_reducible apply KeptR.next
    | with_reducible apply KeptE.ok
    | with_reducible exact KeptE.error
    | with_reducible apply kept_ite
    | (with_reducible refine KeptR.of (stay_kept _) ?_)
    | (simp [*]; done)
    | (simp [*, stay_kept _ _ (by assumption : stay _ = Host.Outcome.next _)]; done)
    | split
theorem execMemoryPortCompletion_kept : ∀ a0 a1 a2 a3 a4, KeptR a4.kept (execMemoryPortCompletion a0 a1 a2 a3 a4) := by
  intro a0 a1 a2 a3 a4
  unfold execMemoryPortCompletion
  repeat'
    first
    | with_reducible rfl
    | with_reducible apply KeptR.ite
    | with_reducible exact KeptR.stay _
    | with_reducible apply KeptR.next
    | with_reducible apply KeptE.ok
    | with_reducible exact KeptE.error
    | with_reducible apply kept_ite
    | (with_reducible refine KeptR.of (stay_kept _) ?_)
    | (with_reducible refine KeptR.of (State.completionWord_kept _ _ _ _ _) ?_)
    | (simp [*]; done)
    | (simp [*, stay_kept _ _ (by assumption : stay _ = Host.Outcome.next _)]; done)
    | (simp [*, State.completionWord_kept _ _ _ _ _ _ (by assumption : State.completionWord _ _ _ _ _ = Host.Outcome.next _)]; done)
    | split
theorem State.recvTe_kept : ∀ a0 a1 a2 a3, KeptT a1.kept (@State.recvTe a0 a1 a2 a3) := by
  intro a0 a1 a2 a3
  unfold State.recvTe
  repeat'
    first
    | with_reducible rfl
    | with_reducible apply KeptT.ite
    | with_reducible exact KeptT.none
    | with_reducible apply KeptT.some
    | with_reducible apply kept_ite
    | (with_reducible refine KeptT.of (State.recv_kept _ _ _ _) ?_)
    | (simp [*]; done)
    | (simp [*, State.recv_kept _ _ _ _ _ _ _ (by assumption : @State.recv _ _ _ _ = some (_, _, _))]; done)
    | split
theorem execAtomicop_kept : ∀ a0 a1, KeptR a1.kept (execAtomicop a0 a1) := by
  intro a0 a1
  unfold execAtomicop
  repeat'
    first
    | with_reducible rfl
    | with_reducible apply KeptR.ite
    | with_reducible exact KeptR.stay _
    | with_reducible apply KeptR.next
    | with_reducible apply KeptE.ok
    | with_reducible exact KeptE.error
    | with_reducible apply kept_ite
    | (with_reducible refine KeptR.of (stay_kept _) ?_)
    | (with_reducible refine KeptT.of (State.recvTe_kept _ _ _ _) ?_)
    | (simp [*]; done)
    | (simp [*, stay_kept _ _ (by assumption : stay _ = Host.Outcome.next _)]; done)
    | (simp [*, State.recvTe_kept _ _ _ _ _ _ _ (by assumption : @State.recvTe _ _ _ _ = some (_, _, _))]; done)
    | split
theorem execAtomicopStart_kept : ∀ a0 a1, KeptR a1.kept (execAtomicopStart a0 a1) := by
  intro a0 a1
  unfold execAtomicopStart
  repeat'
    first
    | with_reducible rfl
    | with_reducible apply KeptR.ite
    | with_reducible exact KeptR.stay _
    | with_reducible apply KeptR.next
    | with_reducible apply KeptE.ok
    | with_reducible exact KeptE.error
    | with_reducible apply kept_ite
    | (with_reducible refine KeptR.of (stay_kept _) ?_)
    | (simp [*]; done)
    | (simp [*, stay_kept _ _ (by assumption : stay _ = Host.Outcome.next _)]; done)
    | split
theorem execNmaResult_kept : ∀ a0 a1, KeptR a1.kept (execNmaResult a0 a1) := by
  intro a0 a1
  unfold execNmaResult
  repeat'
    first
    | with_reducible rfl
    | with_reducible apply KeptR.ite
    | with_reducible exact KeptR.stay _
    | with_reducible apply KeptR.next
    | with_reducible apply KeptE.ok
    | with_reducible exact KeptE.error
    | with_reducible apply kept_ite
    | (with_reducible refine KeptR.of (stay_kept _) ?_)
    | (with_reducible refine KeptT.of (State.recvTe_kept _ _ _ _) ?_)
    | (with_reducible refine KeptE.of (State.done_kept _ _ _) ?_)
    | (simp [*]; done)
    | (simp [*, stay_kept _ _ (by assumption : stay _ = Host.Outcome.next _)]; done)
    | (simp [*, State.recvTe_kept _ _ _ _ _ _ _ (by assumption : @State.recvTe _ _ _ _ = some (_, _, _))]; done)
    | (simp [*, State.done_kept _ _ _ _ (by assumption : State.done _ _ _ = Except.ok _)]; done)
    | split
@[simp ↓] theorem State.askSlots_kept : ∀ a0 a1 a2 a3, (State.askSlots a0 a1 a2 a3).kept = a0.kept := by
  intro a0 a1 a2 a3
  unfold State.askSlots
  repeat'
    first
    | with_reducible rfl
    | with_reducible apply kept_ite
    | (extract_lets +onlyGivenNames t; first | (refine kept_cut (x := t) ?_ ?_; (on_goal 1 => subst t); (on_goal 2 => (intro; clear_value t))) | clear_value t)
    | (with_reducible refine kept_foldl (fun _ _ => ?_) ?_)
    | (simp [*]; done)
    | split
theorem execDescriptorCopy_kept : ∀ a0 a1, KeptR a1.kept (execDescriptorCopy a0 a1) := by
  intro a0 a1
  unfold execDescriptorCopy
  repeat'
    first
    | with_reducible rfl
    | with_reducible apply KeptR.ite
    | with_reducible exact KeptR.stay _
    | with_reducible apply KeptR.next
    | with_reducible apply KeptE.ok
    | with_reducible exact KeptE.error
    | with_reducible apply kept_ite
    | (extract_lets +onlyGivenNames t; first | (refine kept_cut (x := t) ?_ ?_; (on_goal 1 => subst t); (on_goal 2 => (intro; clear_value t))) | (refine kept_cutP (State.kept a1) (x := t) ?_ ?_; (on_goal 1 => subst t); (on_goal 2 => (intro; clear_value t))) | clear_value t)
    | (with_reducible refine KeptR.of (stay_kept _) ?_)
    | (simp [*]; done)
    | (simp [*, stay_kept _ _ (by assumption : stay _ = Host.Outcome.next _)]; done)
    | split
theorem execDescriptorData_kept : ∀ a0 a1, KeptR a1.kept (execDescriptorData a0 a1) := by
  intro a0 a1
  unfold execDescriptorData
  repeat'
    first
    | with_reducible rfl
    | with_reducible apply KeptR.ite
    | with_reducible exact KeptR.stay _
    | with_reducible apply KeptR.next
    | with_reducible apply KeptE.ok
    | with_reducible exact KeptE.error
    | with_reducible apply kept_ite
    | (with_reducible refine KeptR.of (stay_kept _) ?_)
    | (with_reducible refine KeptT.of (State.recvTe_kept _ _ _ _) ?_)
    | (simp [*]; done)
    | (simp [*, stay_kept _ _ (by assumption : stay _ = Host.Outcome.next _)]; done)
    | (simp [*, State.recvTe_kept _ _ _ _ _ _ _ (by assumption : @State.recvTe _ _ _ _ = some (_, _, _))]; done)
    | split
theorem execGroupStart_kept : ∀ a0 a1, KeptR a1.kept (execGroupStart a0 a1) := by
  intro a0 a1
  unfold execGroupStart
  repeat'
    first
    | with_reducible rfl
    | with_reducible apply KeptR.ite
    | with_reducible exact KeptR.stay _
    | with_reducible apply KeptR.next
    | with_reducible apply KeptE.ok
    | with_reducible exact KeptE.error
    | with_reducible apply kept_ite
    | (with_reducible refine KeptR.of (stay_kept _) ?_)
    | (with_reducible refine kept_foldl (fun _ _ => ?_) ?_)
    | (simp [*]; done)
    | (simp [*, stay_kept _ _ (by assumption : stay _ = Host.Outcome.next _)]; done)
    | split
@[simp ↓] theorem State.modLock_kept : ∀ a0 a1 a2 a3, (State.modLock a0 a1 a2 a3).kept = a0.kept := by
  intros; simp [State.modLock]
theorem execLact_kept : ∀ a0 a1, KeptR a1.kept (execLact a0 a1) := by
  intro a0 a1
  unfold execLact
  repeat'
    first
    | with_reducible rfl
    | with_reducible apply KeptR.ite
    | with_reducible exact KeptR.stay _
    | with_reducible apply KeptR.next
    | with_reducible apply KeptE.ok
    | with_reducible exact KeptE.error
    | with_reducible apply kept_ite
    | (with_reducible refine KeptR.of (stay_kept _) ?_)
    | (with_reducible refine KeptT.of (State.recvTe_kept _ _ _ _) ?_)
    | (simp [*]; done)
    | (simp [*, stay_kept _ _ (by assumption : stay _ = Host.Outcome.next _)]; done)
    | (simp [*, State.recvTe_kept _ _ _ _ _ _ _ (by assumption : @State.recvTe _ _ _ _ = some (_, _, _))]; done)
    | split
theorem execLgnt_kept : ∀ a0 a1 a2, KeptR a2.kept (execLgnt a0 a1 a2) := by
  intro a0 a1 a2
  unfold execLgnt
  repeat'
    first
    | with_reducible rfl
    | with_reducible apply KeptR.ite
    | with_reducible exact KeptR.stay _
    | with_reducible apply KeptR.next
    | with_reducible apply KeptE.ok
    | with_reducible exact KeptE.error
    | with_reducible apply kept_ite
    | (extract_lets +onlyGivenNames t; first | (refine kept_cut (x := t) ?_ ?_; (on_goal 1 => subst t); (on_goal 2 => (intro; clear_value t))) | (refine kept_cutP (State.kept a2) (x := t) ?_ ?_; (on_goal 1 => subst t); (on_goal 2 => (intro; clear_value t))) | clear_value t)
    | (with_reducible refine KeptR.of (stay_kept _) ?_)
    | (with_reducible refine KeptT.of (State.recvTe_kept _ _ _ _) ?_)
    | (simp [*]; done)
    | (simp [*, stay_kept _ _ (by assumption : stay _ = Host.Outcome.next _)]; done)
    | (simp [*, State.recvTe_kept _ _ _ _ _ _ _ (by assumption : @State.recvTe _ _ _ _ = some (_, _, _))]; done)
    | split
theorem execLnack_kept : ∀ a0 a1, KeptR a1.kept (execLnack a0 a1) := by
  intro a0 a1
  unfold execLnack
  repeat'
    first
    | with_reducible rfl
    | with_reducible apply KeptR.ite
    | with_reducible exact KeptR.stay _
    | with_reducible apply KeptR.next
    | with_reducible apply KeptE.ok
    | with_reducible exact KeptE.error
    | with_reducible apply kept_ite
    | (with_reducible refine KeptR.of (stay_kept _) ?_)
    | (with_reducible refine KeptT.of (State.recvTe_kept _ _ _ _) ?_)
    | (simp [*]; done)
    | (simp [*, stay_kept _ _ (by assumption : stay _ = Host.Outcome.next _)]; done)
    | (simp [*, State.recvTe_kept _ _ _ _ _ _ _ (by assumption : @State.recvTe _ _ _ _ = some (_, _, _))]; done)
    | split
theorem execStatusRecordCmp_kept : ∀ a0 a1, KeptR a1.kept (execStatusRecordCmp a0 a1) := by
  intro a0 a1
  unfold execStatusRecordCmp
  repeat'
    first
    | with_reducible rfl
    | with_reducible apply KeptR.ite
    | with_reducible exact KeptR.stay _
    | with_reducible apply KeptR.next
    | with_reducible apply KeptE.ok
    | with_reducible exact KeptE.error
    | with_reducible apply kept_ite
    | (with_reducible refine KeptR.of (stay_kept _) ?_)
    | (with_reducible refine KeptT.of (State.recvTe_kept _ _ _ _) ?_)
    | (simp [*]; done)
    | (simp [*, stay_kept _ _ (by assumption : stay _ = Host.Outcome.next _)]; done)
    | (simp [*, State.recvTe_kept _ _ _ _ _ _ _ (by assumption : @State.recvTe _ _ _ _ = some (_, _, _))]; done)
    | split
theorem execUncAccessRetry_kept : ∀ a0 a1, KeptR a1.kept (execUncAccessRetry a0 a1) := by
  intro a0 a1
  unfold execUncAccessRetry
  repeat'
    first
    | with_reducible rfl
    | with_reducible apply KeptR.ite
    | with_reducible exact KeptR.stay _
    | with_reducible apply KeptR.next
    | with_reducible apply KeptE.ok
    | with_reducible exact KeptE.error
    | with_reducible apply kept_ite
    | (with_reducible refine KeptR.of (stay_kept _) ?_)
    | (with_reducible refine KeptT.of (State.recvTe_kept _ _ _ _) ?_)
    | (simp [*]; done)
    | (simp [*, stay_kept _ _ (by assumption : stay _ = Host.Outcome.next _)]; done)
    | (simp [*, State.recvTe_kept _ _ _ _ _ _ _ (by assumption : @State.recvTe _ _ _ _ = some (_, _, _))]; done)
    | split
theorem State.refuseReg_kept : ∀ a0 a1, KeptO a0.kept (State.refuseReg a0 a1) := by
  intro a0 a1
  unfold State.refuseReg
  repeat'
    first
    | with_reducible rfl
    | with_reducible apply KeptO.ite
    | with_reducible exact KeptO.none
    | with_reducible apply KeptO.some
    | with_reducible apply kept_ite
    | (simp [*]; done)
    | split
theorem State.regWrite_kept : ∀ a0 a1 a2 (h0 : ∀ s, (a2 s).kept = s.kept), KeptR a0.kept (State.regWrite a0 a1 a2) := by
  intro a0 a1 a2 h0
  unfold State.regWrite
  repeat'
    first
    | with_reducible rfl
    | with_reducible apply KeptR.ite
    | with_reducible exact KeptR.stay _
    | with_reducible apply KeptR.next
    | with_reducible apply KeptE.ok
    | with_reducible exact KeptE.error
    | with_reducible apply kept_ite
    | (with_reducible refine KeptR.of (stay_kept _) ?_)
    | (with_reducible refine KeptO.of (State.refuseReg_kept _ _) ?_)
    | (simp [*]; done)
    | (simp [*, stay_kept _ _ (by assumption : stay _ = Host.Outcome.next _)]; done)
    | (simp [*, State.refuseReg_kept _ _ _ (by assumption : State.refuseReg _ _ = some _)]; done)
    | split
@[simp ↓] theorem State.gqErr_kept : ∀ a0 a1 a2 a3, (State.gqErr a0 a1 a2 a3).kept = a0.kept := by
  intros; simp [State.gqErr]
@[simp ↓] theorem State.bellTest_kept : ∀ a0 a1 a2 a3, (State.bellTest a0 a1 a2 a3).kept = a0.kept := by
  intro a0 a1 a2 a3
  unfold State.bellTest
  repeat'
    first
    | with_reducible rfl
    | with_reducible apply kept_ite
    | (simp [*]; done)
    | split
@[simp ↓] theorem State.ring_kept : ∀ a0 a1 a2, (State.ring a0 a1 a2).kept = a0.kept := by
  intro a0 a1 a2
  unfold State.ring
  repeat'
    first
    | with_reducible rfl
    | with_reducible apply kept_ite
    | (simp [*]; done)
    | split
theorem execDoorbell_kept : ∀ a0 a1, KeptR a1.kept (execDoorbell a0 a1) := by
  intro a0 a1
  unfold execDoorbell
  repeat'
    first
    | with_reducible rfl
    | with_reducible apply KeptR.ite
    | with_reducible exact KeptR.stay _
    | with_reducible apply KeptR.next
    | with_reducible apply KeptE.ok
    | with_reducible exact KeptE.error
    | with_reducible apply kept_ite
    | (with_reducible refine KeptR.of (stay_kept _) ?_)
    | (with_reducible refine KeptR.of (State.regWrite_kept _ _ _ (fun _ => ?_)) ?_)
    | (simp [*]; done)
    | (simp [*, stay_kept _ _ (by assumption : stay _ = Host.Outcome.next _)]; done)
    | split
theorem execDeferredDoorbellTest_kept : ∀ a0 a1 a2, KeptR a2.kept (execDeferredDoorbellTest a0 a1 a2) := by
  intro a0 a1 a2
  unfold execDeferredDoorbellTest
  repeat'
    first
    | with_reducible rfl
    | with_reducible apply KeptR.ite
    | with_reducible exact KeptR.stay _
    | with_reducible apply KeptR.next
    | with_reducible apply KeptE.ok
    | with_reducible exact KeptE.error
    | with_reducible apply kept_ite
    | (with_reducible refine KeptR.of (stay_kept _) ?_)
    | (simp [*]; done)
    | (simp [*, stay_kept _ _ (by assumption : stay _ = Host.Outcome.next _)]; done)
    | split
theorem execQueueEnable_kept : ∀ a0 a1, KeptR a1.kept (execQueueEnable a0 a1) := by
  intro a0 a1
  unfold execQueueEnable
  repeat'
    first
    | with_reducible rfl
    | with_reducible apply KeptR.ite
    | with_reducible exact KeptR.stay _
    | with_reducible apply KeptR.next
    | with_reducible apply KeptE.ok
    | with_reducible exact KeptE.error
    | with_reducible apply kept_ite
    | (with_reducible refine KeptR.of (stay_kept _) ?_)
    | (with_reducible refine KeptR.of (State.regWrite_kept _ _ _ (fun _ => ?_)) ?_)
    | (simp [*]; done)
    | (simp [*, stay_kept _ _ (by assumption : stay _ = Host.Outcome.next _)]; done)
    | split
theorem execQueueDisable_kept : ∀ a0 a1, KeptR a1.kept (execQueueDisable a0 a1) := by
  intro a0 a1
  unfold execQueueDisable
  repeat'
    first
    | with_reducible rfl
    | with_reducible apply KeptR.ite
    | with_reducible exact KeptR.stay _
    | with_reducible apply KeptR.next
    | with_reducible apply KeptE.ok
    | with_reducible exact KeptE.error
    | with_reducible apply kept_ite
    | (with_reducible refine KeptR.of (stay_kept _) ?_)
    | (with_reducible refine KeptR.of (State.regWrite_kept _ _ _ (fun _ => ?_)) ?_)
    | (simp [*]; done)
    | (simp [*, stay_kept _ _ (by assumption : stay _ = Host.Outcome.next _)]; done)
    | split
theorem execPlacementWrite_kept : ∀ a0 a1, KeptR a1.kept (execPlacementWrite a0 a1) := by
  intro a0 a1
  unfold execPlacementWrite
  repeat'
    first
    | with_reducible rfl
    | with_reducible apply KeptR.ite
    | with_reducible exact KeptR.stay _
    | with_reducible apply KeptR.next
    | with_reducible apply KeptE.ok
    | with_reducible exact KeptE.error
    | with_reducible apply kept_ite
    | (with_reducible refine KeptR.of (stay_kept _) ?_)
    | (with_reducible refine KeptR.of (State.regWrite_kept _ _ _ (fun _ => ?_)) ?_)
    | (simp [*]; done)
    | (simp [*, stay_kept _ _ (by assumption : stay _ = Host.Outcome.next _)]; done)
    | split
theorem execSqnConsWrite_kept : ∀ a0 a1, KeptR a1.kept (execSqnConsWrite a0 a1) := by
  intro a0 a1
  unfold execSqnConsWrite
  repeat'
    first
    | with_reducible rfl
    | with_reducible apply KeptR.ite
    | with_reducible exact KeptR.stay _
    | with_reducible apply KeptR.next
    | with_reducible apply KeptE.ok
    | with_reducible exact KeptE.error
    | with_reducible apply kept_ite
    | (with_reducible refine KeptR.of (stay_kept _) ?_)
    | (with_reducible refine KeptR.of (State.regWrite_kept _ _ _ (fun _ => ?_)) ?_)
    | (simp [*]; done)
    | (simp [*, stay_kept _ _ (by assumption : stay _ = Host.Outcome.next _)]; done)
    | split
theorem execWkick_kept : ∀ a0 a1, KeptR a1.kept (execWkick a0 a1) := by
  intro a0 a1
  unfold execWkick
  repeat'
    first
    | with_reducible rfl
    | with_reducible apply KeptR.ite
    | with_reducible exact KeptR.stay _
    | with_reducible apply KeptR.next
    | with_reducible apply KeptE.ok
    | with_reducible exact KeptE.error
    | with_reducible apply kept_ite
    | (with_reducible refine KeptR.of (stay_kept _) ?_)
    | (with_reducible refine KeptR.of (State.regWrite_kept _ _ _ (fun _ => ?_)) ?_)
    | (simp [*]; done)
    | (simp [*, stay_kept _ _ (by assumption : stay _ = Host.Outcome.next _)]; done)
    | split
theorem execRefusedRegisterRead_kept : ∀ a0 a1, KeptR a1.kept (execRefusedRegisterRead a0 a1) := by
  intro a0 a1
  unfold execRefusedRegisterRead
  repeat'
    first
    | with_reducible rfl
    | with_reducible apply KeptR.ite
    | with_reducible exact KeptR.stay _
    | with_reducible apply KeptR.next
    | with_reducible apply KeptE.ok
    | with_reducible exact KeptE.error
    | with_reducible apply kept_ite
    | (with_reducible refine KeptR.of (stay_kept _) ?_)
    | (with_reducible refine KeptO.of (State.refuseReg_kept _ _) ?_)
    | (simp [*]; done)
    | (simp [*, stay_kept _ _ (by assumption : stay _ = Host.Outcome.next _)]; done)
    | (simp [*, State.refuseReg_kept _ _ _ (by assumption : State.refuseReg _ _ = some _)]; done)
    | split

end Sys2Proof.Machine
end

