-- ==== Sys2Proof/Laws/KeptUnits.lean ====
section
/-!
SUPPORT. `State.kept` is left alone by folds, power domains, mesh, observation, faults: one lemma for each operation.
-/

set_option linter.unusedTactic false
set_option linter.unreachableTactic false
set_option linter.unusedSimpArgs false
set_option linter.unusedVariables false

namespace Sys2Proof.Machine

open Sys2Proof

@[simp ↓] theorem State.handTo_kept : ∀ a0 a1 a2 a3 a4, (State.handTo a0 a1 a2 a3 a4).kept = a0.kept := by
  intro a0 a1 a2 a3 a4
  unfold State.handTo
  repeat'
    first
    | with_reducible rfl
    | with_reducible apply kept_ite
    | (with_reducible refine kept_foldl (fun _ _ => ?_) ?_)
    | (simp [*]; done)
    | split
theorem execSetHandover_kept : ∀ a0 a1 a2, KeptR a2.kept (execSetHandover a0 a1 a2) := by
  intro a0 a1 a2
  unfold execSetHandover
  repeat'
    first
    | with_reducible rfl
    | with_reducible assumption
    | with_reducible apply KeptR.ite
    | with_reducible apply kept_ite
    | with_reducible apply kept_ite1
    | (extract_lets +onlyGivenNames s1; first | (refine kept_cut (x := s1) ?_ ?_; (on_goal 1 => subst s1); (on_goal 2 => (intro h; clear_value s1))) | (refine kept_cut1 (State.kept a2) (x := s1) ?_ ?_; (on_goal 1 => subst s1); (on_goal 2 => (intro h; clear_value s1))) | (refine kept_cutP (State.kept a2) (x := s1) ?_ ?_; (on_goal 1 => subst s1); (on_goal 2 => (intro h; clear_value s1))) |  ((have _h : ∀ x, State.kept (s1 x) = State.kept (s1 x) := fun _ => rfl); clear _h; subst s1) | ((have _h : ∀ x y, State.kept (s1 x y) = State.kept (s1 x y) := fun _ _ => rfl); clear _h; subst s1) | ((have _h : ∀ x y z, State.kept (s1 x y z) = State.kept (s1 x y z) := fun _ _ _ => rfl); clear _h; subst s1) | ((have _h : ∀ x y z w, State.kept (s1 x y z w) = State.kept (s1 x y z w) := fun _ _ _ _ => rfl); clear _h; subst s1) | ((have _h : Mc := s1); clear _h; subst s1) | ((have _h : Regs := s1); clear _h; subst s1) | clear_value s1)
    | with_reducible apply kept_ite
    | (with_reducible refine kept_foldl (fun _ _ => ?_) ?_)
    | (with_reducible refine kept_foldl1 (fun _ _ => ?_) ?_)
    | (with_reducible refine kept_foldr (fun _ _ => ?_) ?_)
    | with_reducible exact KeptR.stay _
    | with_reducible apply KeptR.next
    | with_reducible apply KeptE.ok
    | with_reducible exact KeptE.error
    | (with_reducible refine KeptR.of (stay_kept _) ?_)
    | (with_reducible refine kept_getD ?_ ?_)
    | (simp [*]; done)
    | (simp [*, stay_kept _ _ (by assumption : Sys2Proof.Machine.stay _ = Host.Outcome.next _)]; done)
    | split
    | (intros; simp only [↓kept_mk, kept_fold])
    | simp [*]
theorem State.installAll_kept : ∀ a0 a1 a2 a3, KeptP a0.kept (State.installAll a0 a1 a2 a3) := by
  intro a0 a1 a2 a3
  induction a3 generalizing a0 with
  | nil => exact KeptP.mk rfl
  | cons e r ih =>
    unfold State.installAll
    split
    · exact (ih _).of (State.toWay_kept _ _ _ _ _ (by assumption))
    · exact KeptP.mk rfl
    · split
      · exact (ih _).of (by simp)
      · exact KeptP.mk rfl
@[simp ↓] theorem State.installAll_kept1 : ∀ a0 a1 a2 a3, (State.installAll a0 a1 a2 a3).1.kept = a0.kept := fun a0 a1 a2 a3 => State.installAll_kept a0 a1 a2 a3 _ _ rfl
@[simp ↓] theorem State.reinstall_kept : ∀ a0 a1, (State.reinstall a0 a1).kept = a0.kept := by
  intro a0 a1
  unfold State.reinstall
  repeat'
    first
    | with_reducible rfl
    | with_reducible apply kept_ite
    | (with_reducible refine KeptP.of (State.installAll_kept _ _ _ _) ?_)
    | (with_reducible refine kept_foldl (fun _ _ => ?_) ?_)
    | (simp [*]; done)
    | (simp [*, State.installAll_kept _ _ _ _ _ _ (by assumption : State.installAll _ _ _ _ = (_, _))]; done)
    | split
theorem execMovingEntryInstall_kept : ∀ a0 a1, KeptR a1.kept (execMovingEntryInstall a0 a1) := by
  intro a0 a1
  unfold execMovingEntryInstall
  repeat'
    first
    | with_reducible rfl
    | with_reducible assumption
    | with_reducible apply KeptR.ite
    | with_reducible apply kept_ite
    | with_reducible apply kept_ite1
    | (extract_lets +onlyGivenNames s1; first | (refine kept_cut (x := s1) ?_ ?_; (on_goal 1 => subst s1); (on_goal 2 => (intro h; clear_value s1))) | (refine kept_cut1 (State.kept a1) (x := s1) ?_ ?_; (on_goal 1 => subst s1); (on_goal 2 => (intro h; clear_value s1))) | (refine kept_cutP (State.kept a1) (x := s1) ?_ ?_; (on_goal 1 => subst s1); (on_goal 2 => (intro h; clear_value s1))) |  ((have _h : ∀ x, State.kept (s1 x) = State.kept (s1 x) := fun _ => rfl); clear _h; subst s1) | ((have _h : ∀ x y, State.kept (s1 x y) = State.kept (s1 x y) := fun _ _ => rfl); clear _h; subst s1) | ((have _h : ∀ x y z, State.kept (s1 x y z) = State.kept (s1 x y z) := fun _ _ _ => rfl); clear _h; subst s1) | ((have _h : ∀ x y z w, State.kept (s1 x y z w) = State.kept (s1 x y z w) := fun _ _ _ _ => rfl); clear _h; subst s1) | ((have _h : Mc := s1); clear _h; subst s1) | ((have _h : Regs := s1); clear _h; subst s1) | clear_value s1)
    | with_reducible apply kept_ite
    | (with_reducible refine kept_foldl (fun _ _ => ?_) ?_)
    | (with_reducible refine kept_foldl1 (fun _ _ => ?_) ?_)
    | (with_reducible refine kept_foldr (fun _ _ => ?_) ?_)
    | with_reducible exact KeptR.stay _
    | with_reducible apply KeptR.next
    | with_reducible apply KeptE.ok
    | with_reducible exact KeptE.error
    | (with_reducible refine KeptR.of (stay_kept _) ?_)
    | (with_reducible refine KeptT.of (State.recvHs_kept _ _ _ _) ?_)
    | (with_reducible refine KeptP.of (State.installAll_kept _ _ _ _) ?_)
    | (with_reducible refine kept_getD ?_ ?_)
    | (simp [*]; done)
    | (simp [*, stay_kept _ _ (by assumption : Sys2Proof.Machine.stay _ = Host.Outcome.next _)]; done)
    | (simp [*, State.recvHs_kept _ _ _ _ _ _ _ (by assumption : @Sys2Proof.Machine.State.recvHs _ _ _ _ = some (_, _, _))]; done)
    | (simp [*, State.installAll_kept _ _ _ _ _ _ (by assumption : Sys2Proof.Machine.State.installAll _ _ _ _ = (_, _))]; done)
    | split
    | (intros; simp only [↓kept_mk, kept_fold])
    | simp [*]
theorem execFmark_kept : ∀ a0 a1, KeptR a1.kept (execFmark a0 a1) := by
  intro a0 a1
  unfold execFmark
  repeat'
    first
    | with_reducible rfl
    | with_reducible apply KeptR.ite
    | with_reducible exact KeptR.stay _
    | with_reducible apply KeptR.next
    | with_reducible apply KeptE.ok
    | with_reducible exact KeptE.error
    | with_reducible apply kept_ite
    | (with_reducible refine KeptR.of (stay_kept _) ?_)
    | (with_reducible refine KeptT.of (State.recvPs_kept _ _ _ _) ?_)
    | (simp [*]; done)
    | (simp [*, stay_kept _ _ (by assumption : stay _ = Host.Outcome.next _)]; done)
    | (simp [*, State.recvPs_kept _ _ _ _ _ _ _ (by assumption : @State.recvPs _ _ _ _ = some (_, _, _))]; done)
    | split
@[simp ↓] theorem State.release379_kept : ∀ a0 a1, (State.release379 a0 a1).kept = a0.kept := by
  intro a0 a1
  unfold State.release379
  repeat'
    first
    | with_reducible rfl
    | with_reducible apply kept_ite
    | (with_reducible refine kept_foldl (fun _ _ => ?_) ?_)
    | (simp [*]; done)
    | split
theorem execFmack_kept : ∀ a0 a1, KeptR a1.kept (execFmack a0 a1) := by
  intro a0 a1
  unfold execFmack
  repeat'
    first
    | with_reducible rfl
    | with_reducible apply KeptR.ite
    | with_reducible exact KeptR.stay _
    | with_reducible apply KeptR.next
    | with_reducible apply KeptE.ok
    | with_reducible exact KeptE.error
    | with_reducible apply kept_ite
    | (with_reducible refine KeptR.of (stay_kept _) ?_)
    | (with_reducible refine KeptT.of (State.recvHs_kept _ _ _ _) ?_)
    | (simp [*]; done)
    | (simp [*, stay_kept _ _ (by assumption : stay _ = Host.Outcome.next _)]; done)
    | (simp [*, State.recvHs_kept _ _ _ _ _ _ _ (by assumption : @State.recvHs _ _ _ _ = some (_, _, _))]; done)
    | split
theorem execFirnAgencyRequest_kept : ∀ a0 a1, KeptR a1.kept (execFirnAgencyRequest a0 a1) := by
  intro a0 a1
  unfold execFirnAgencyRequest
  repeat'
    first
    | with_reducible rfl
    | with_reducible apply KeptR.ite
    | with_reducible exact KeptR.stay _
    | with_reducible apply KeptR.next
    | with_reducible apply KeptE.ok
    | with_reducible exact KeptE.error
    | with_reducible apply kept_ite
    | (extract_lets +onlyGivenNames t; first | (refine kept_cut (x := t) ?_ ?_; (on_goal 1 => subst t); (on_goal 2 => (intro; clear_value t))) | (refine kept_cutP (State.kept a1) (x := t) ?_ ?_; (on_goal 1 => subst t); (on_goal 2 => (intro; clear_value t))) | clear_value t)
    | (with_reducible refine KeptR.of (stay_kept _) ?_)
    | (with_reducible refine KeptT.of (State.recvHs_kept _ _ _ _) ?_)
    | (with_reducible refine KeptE.of (State.done_kept _ _ _) ?_)
    | (simp [*]; done)
    | (simp [*, stay_kept _ _ (by assumption : stay _ = Host.Outcome.next _)]; done)
    | (simp [*, State.recvHs_kept _ _ _ _ _ _ _ (by assumption : @State.recvHs _ _ _ _ = some (_, _, _))]; done)
    | (simp [*, State.done_kept _ _ _ _ (by assumption : State.done _ _ _ = Except.ok _)]; done)
    | split
theorem execFirnAgencyResult_kept : ∀ a0 a1, KeptR a1.kept (execFirnAgencyResult a0 a1) := by
  intro a0 a1
  unfold execFirnAgencyResult
  repeat'
    first
    | with_reducible rfl
    | with_reducible assumption
    | with_reducible apply KeptR.ite
    | with_reducible apply kept_ite
    | with_reducible apply kept_ite1
    | (extract_lets +onlyGivenNames s1; first | (refine kept_cut (x := s1) ?_ ?_; (on_goal 1 => subst s1); (on_goal 2 => (intro h; clear_value s1))) | (refine kept_cut1 (State.kept a1) (x := s1) ?_ ?_; (on_goal 1 => subst s1); (on_goal 2 => (intro h; clear_value s1))) | (refine kept_cutP (State.kept a1) (x := s1) ?_ ?_; (on_goal 1 => subst s1); (on_goal 2 => (intro h; clear_value s1))) |  ((have _h : ∀ x, State.kept (s1 x) = State.kept (s1 x) := fun _ => rfl); clear _h; subst s1) | ((have _h : ∀ x y, State.kept (s1 x y) = State.kept (s1 x y) := fun _ _ => rfl); clear _h; subst s1) | ((have _h : ∀ x y z, State.kept (s1 x y z) = State.kept (s1 x y z) := fun _ _ _ => rfl); clear _h; subst s1) | ((have _h : ∀ x y z w, State.kept (s1 x y z w) = State.kept (s1 x y z w) := fun _ _ _ _ => rfl); clear _h; subst s1) | ((have _h : Mc := s1); clear _h; subst s1) | ((have _h : Regs := s1); clear _h; subst s1) | clear_value s1)
    | with_reducible apply kept_ite
    | (with_reducible refine kept_foldl (fun _ _ => ?_) ?_)
    | (with_reducible refine kept_foldl1 (fun _ _ => ?_) ?_)
    | (with_reducible refine kept_foldr (fun _ _ => ?_) ?_)
    | with_reducible exact KeptR.stay _
    | with_reducible apply KeptR.next
    | with_reducible apply KeptE.ok
    | with_reducible exact KeptE.error
    | (with_reducible refine KeptR.of (stay_kept _) ?_)
    | (with_reducible refine KeptT.of (State.recvHs_kept _ _ _ _) ?_)
    | (with_reducible refine KeptE.of (State.done_kept _ _ _) ?_)
    | (with_reducible refine kept_getD ?_ ?_)
    | (simp [*]; done)
    | (simp [*, stay_kept _ _ (by assumption : Sys2Proof.Machine.stay _ = Host.Outcome.next _)]; done)
    | (simp [*, State.recvHs_kept _ _ _ _ _ _ _ (by assumption : @Sys2Proof.Machine.State.recvHs _ _ _ _ = some (_, _, _))]; done)
    | (simp [*, State.done_kept _ _ _ _ (by assumption : Sys2Proof.Machine.State.done _ _ _ = Except.ok _)]; done)
    | split
    | (intros; simp only [↓kept_mk, kept_fold])
    | simp [*]
theorem execSliceMapEpochFlip_kept : ∀ a0, KeptR a0.kept (execSliceMapEpochFlip a0) := by
  intro a0
  unfold execSliceMapEpochFlip
  repeat'
    first
    | with_reducible rfl
    | with_reducible apply KeptR.ite
    | with_reducible exact KeptR.stay _
    | with_reducible apply KeptR.next
    | with_reducible apply KeptE.ok
    | with_reducible exact KeptE.error
    | with_reducible apply kept_ite
    | (with_reducible refine KeptR.of (stay_kept _) ?_)
    | (simp [*]; done)
    | (simp [*, stay_kept _ _ (by assumption : stay _ = Host.Outcome.next _)]; done)
    | split
theorem execSliceMapEpochDrain_kept : ∀ a0, KeptR a0.kept (execSliceMapEpochDrain a0) := by
  intro a0
  unfold execSliceMapEpochDrain
  repeat'
    first
    | with_reducible rfl
    | with_reducible apply KeptR.ite
    | with_reducible exact KeptR.stay _
    | with_reducible apply KeptR.next
    | with_reducible apply KeptE.ok
    | with_reducible exact KeptE.error
    | with_reducible apply kept_ite
    | (with_reducible refine KeptR.of (stay_kept _) ?_)
    | (with_reducible refine KeptE.of (State.done_kept _ _ _) ?_)
    | (simp [*]; done)
    | (simp [*, stay_kept _ _ (by assumption : stay _ = Host.Outcome.next _)]; done)
    | (simp [*, State.done_kept _ _ _ _ (by assumption : State.done _ _ _ = Except.ok _)]; done)
    | split
@[simp ↓] theorem State.pdFail_kept : ∀ a0 a1 a2, (State.pdFail a0 a1 a2).kept = a0.kept := by
  intro a0 a1 a2
  unfold State.pdFail
  repeat'
    first
    | with_reducible rfl
    | with_reducible assumption
    | with_reducible apply kept_ite
    | with_reducible apply kept_ite1
    | (extract_lets +onlyGivenNames s1; first | (refine kept_cut (x := s1) ?_ ?_; (on_goal 1 => subst s1); (on_goal 2 => (intro h; clear_value s1))) | (refine kept_cut1 (State.kept a0) (x := s1) ?_ ?_; (on_goal 1 => subst s1); (on_goal 2 => (intro h; clear_value s1))) | (refine kept_cutP (State.kept a0) (x := s1) ?_ ?_; (on_goal 1 => subst s1); (on_goal 2 => (intro h; clear_value s1))) |  ((have _h : ∀ x, State.kept (s1 x) = State.kept (s1 x) := fun _ => rfl); clear _h; subst s1) | ((have _h : ∀ x y, State.kept (s1 x y) = State.kept (s1 x y) := fun _ _ => rfl); clear _h; subst s1) | ((have _h : ∀ x y z, State.kept (s1 x y z) = State.kept (s1 x y z) := fun _ _ _ => rfl); clear _h; subst s1) | ((have _h : ∀ x y z w, State.kept (s1 x y z w) = State.kept (s1 x y z w) := fun _ _ _ _ => rfl); clear _h; subst s1) | ((have _h : Mc := s1); clear _h; subst s1) | ((have _h : Regs := s1); clear _h; subst s1) | clear_value s1)
    | with_reducible apply kept_ite
    | (with_reducible refine kept_foldl (fun _ _ => ?_) ?_)
    | (with_reducible refine kept_foldl1 (fun _ _ => ?_) ?_)
    | (with_reducible refine kept_foldr (fun _ _ => ?_) ?_)
    | (with_reducible refine kept_getD ?_ ?_)
    | (simp [*]; done)
    | split
    | (intros; simp only [↓kept_mk, kept_fold])
    | simp [*]
@[simp ↓] theorem State.pdFault_kept : ∀ a0 a1, (State.pdFault a0 a1).kept = a0.kept := by
  intros; simp [State.pdFault]
@[simp ↓] theorem State.fenceDom_kept : ∀ a0 a1, (State.fenceDom a0 a1).kept = a0.kept := by
  intro a0 a1
  unfold State.fenceDom
  repeat'
    first
    | with_reducible rfl
    | with_reducible apply kept_ite
    | (extract_lets +onlyGivenNames t; first | (refine kept_cut (x := t) ?_ ?_; (on_goal 1 => subst t); (on_goal 2 => (intro; clear_value t))) | clear_value t)
    | (simp [*]; done)
    | split
theorem execFreezeFence_kept : ∀ a0 a1, KeptR a1.kept (execFreezeFence a0 a1) := by
  intro a0 a1
  unfold execFreezeFence
  repeat'
    first
    | with_reducible rfl
    | with_reducible apply KeptR.ite
    | with_reducible exact KeptR.stay _
    | with_reducible apply KeptR.next
    | with_reducible apply KeptE.ok
    | with_reducible exact KeptE.error
    | with_reducible apply kept_ite
    | (with_reducible refine kept_foldl (fun _ _ => ?_) ?_)
    | (simp [*]; done)
    | split
theorem execPowerOffAck_kept : ∀ a0 a1, KeptR a1.kept (execPowerOffAck a0 a1) := by
  intro a0 a1
  unfold execPowerOffAck
  repeat'
    first
    | with_reducible rfl
    | with_reducible apply KeptR.ite
    | with_reducible exact KeptR.stay _
    | with_reducible apply KeptR.next
    | with_reducible apply KeptE.ok
    | with_reducible exact KeptE.error
    | with_reducible apply kept_ite
    | (with_reducible refine KeptR.of (stay_kept _) ?_)
    | (with_reducible refine kept_foldl (fun _ _ => ?_) ?_)
    | (simp [*]; done)
    | (simp [*, stay_kept _ _ (by assumption : stay _ = Host.Outcome.next _)]; done)
    | split
theorem execPgTimeoutExpiry_kept : ∀ a0 a1, KeptR a1.kept (execPgTimeoutExpiry a0 a1) := by
  intro a0 a1
  unfold execPgTimeoutExpiry
  repeat'
    first
    | with_reducible rfl
    | with_reducible assumption
    | with_reducible apply KeptR.ite
    | with_reducible apply kept_ite
    | with_reducible apply kept_ite1
    | (extract_lets +onlyGivenNames s1; first | (refine kept_cut (x := s1) ?_ ?_; (on_goal 1 => subst s1); (on_goal 2 => (intro h; clear_value s1))) | (refine kept_cut1 (State.kept a1) (x := s1) ?_ ?_; (on_goal 1 => subst s1); (on_goal 2 => (intro h; clear_value s1))) | (refine kept_cutP (State.kept a1) (x := s1) ?_ ?_; (on_goal 1 => subst s1); (on_goal 2 => (intro h; clear_value s1))) |  ((have _h : ∀ x, State.kept (s1 x) = State.kept (s1 x) := fun _ => rfl); clear _h; subst s1) | ((have _h : ∀ x y, State.kept (s1 x y) = State.kept (s1 x y) := fun _ _ => rfl); clear _h; subst s1) | ((have _h : ∀ x y z, State.kept (s1 x y z) = State.kept (s1 x y z) := fun _ _ _ => rfl); clear _h; subst s1) | ((have _h : ∀ x y z w, State.kept (s1 x y z w) = State.kept (s1 x y z w) := fun _ _ _ _ => rfl); clear _h; subst s1) | ((have _h : Mc := s1); clear _h; subst s1) | ((have _h : Regs := s1); clear _h; subst s1) | clear_value s1)
    | with_reducible apply kept_ite
    | (with_reducible refine kept_foldl (fun _ _ => ?_) ?_)
    | (with_reducible refine kept_foldl1 (fun _ _ => ?_) ?_)
    | (with_reducible refine kept_foldr (fun _ _ => ?_) ?_)
    | with_reducible exact KeptR.stay _
    | with_reducible apply KeptR.next
    | with_reducible apply KeptE.ok
    | with_reducible exact KeptE.error
    | (with_reducible refine KeptR.of (stay_kept _) ?_)
    | (with_reducible refine kept_getD ?_ ?_)
    | (simp [*]; done)
    | (simp [*, stay_kept _ _ (by assumption : Sys2Proof.Machine.stay _ = Host.Outcome.next _)]; done)
    | split
    | (intros; simp only [↓kept_mk, kept_fold])
    | simp [*]
theorem execFrzDrainTmoExpiry_kept : ∀ a0 a1, KeptR a1.kept (execFrzDrainTmoExpiry a0 a1) := by
  intro a0 a1
  unfold execFrzDrainTmoExpiry
  repeat'
    first
    | with_reducible rfl
    | with_reducible assumption
    | with_reducible apply KeptR.ite
    | with_reducible apply kept_ite
    | with_reducible apply kept_ite1
    | (extract_lets +onlyGivenNames s1; first | (refine kept_cut (x := s1) ?_ ?_; (on_goal 1 => subst s1); (on_goal 2 => (intro h; clear_value s1))) | (refine kept_cut1 (State.kept a1) (x := s1) ?_ ?_; (on_goal 1 => subst s1); (on_goal 2 => (intro h; clear_value s1))) | (refine kept_cutP (State.kept a1) (x := s1) ?_ ?_; (on_goal 1 => subst s1); (on_goal 2 => (intro h; clear_value s1))) |  ((have _h : ∀ x, State.kept (s1 x) = State.kept (s1 x) := fun _ => rfl); clear _h; subst s1) | ((have _h : ∀ x y, State.kept (s1 x y) = State.kept (s1 x y) := fun _ _ => rfl); clear _h; subst s1) | ((have _h : ∀ x y z, State.kept (s1 x y z) = State.kept (s1 x y z) := fun _ _ _ => rfl); clear _h; subst s1) | ((have _h : ∀ x y z w, State.kept (s1 x y z w) = State.kept (s1 x y z w) := fun _ _ _ _ => rfl); clear _h; subst s1) | ((have _h : Mc := s1); clear _h; subst s1) | ((have _h : Regs := s1); clear _h; subst s1) | clear_value s1)
    | with_reducible apply kept_ite
    | (with_reducible refine kept_foldl (fun _ _ => ?_) ?_)
    | (with_reducible refine kept_foldl1 (fun _ _ => ?_) ?_)
    | (with_reducible refine kept_foldr (fun _ _ => ?_) ?_)
    | with_reducible exact KeptR.stay _
    | with_reducible apply KeptR.next
    | with_reducible apply KeptE.ok
    | with_reducible exact KeptE.error
    | (with_reducible refine KeptR.of (stay_kept _) ?_)
    | (with_reducible refine kept_getD ?_ ?_)
    | (simp [*]; done)
    | (simp [*, stay_kept _ _ (by assumption : Sys2Proof.Machine.stay _ = Host.Outcome.next _)]; done)
    | split
    | (intros; simp only [↓kept_mk, kept_fold])
    | simp [*]
theorem execNackFrozen_kept : ∀ a0 a1, KeptR a1.kept (execNackFrozen a0 a1) := by
  intro a0 a1
  unfold execNackFrozen
  repeat'
    first
    | with_reducible rfl
    | with_reducible apply KeptR.ite
    | with_reducible exact KeptR.stay _
    | with_reducible apply KeptR.next
    | with_reducible apply KeptE.ok
    | with_reducible exact KeptE.error
    | with_reducible apply kept_ite
    | (with_reducible refine KeptT.of (State.recv_kept _ _ _ _) ?_)
    | (with_reducible refine KeptR.of (stay_kept _) ?_)
    | (simp [*]; done)
    | (simp [*, State.recv_kept _ _ _ _ _ _ _ (by assumption : @State.recv _ _ _ _ = some (_, _, _))]; done)
    | (simp [*, stay_kept _ _ (by assumption : stay _ = Host.Outcome.next _)]; done)
    | split
theorem execPowerGood_kept : ∀ a0 a1, KeptR a1.kept (execPowerGood a0 a1) := by
  intro a0 a1
  unfold execPowerGood
  repeat'
    first
    | with_reducible rfl
    | with_reducible apply KeptR.ite
    | with_reducible exact KeptR.stay _
    | with_reducible apply KeptR.next
    | with_reducible apply KeptE.ok
    | with_reducible exact KeptE.error
    | with_reducible apply kept_ite
    | (with_reducible refine KeptR.of (stay_kept _) ?_)
    | (with_reducible refine kept_foldl (fun _ _ => ?_) ?_)
    | (simp [*]; done)
    | (simp [*, stay_kept _ _ (by assumption : stay _ = Host.Outcome.next _)]; done)
    | split
theorem execThawReady_kept : ∀ a0 a1, KeptR a1.kept (execThawReady a0 a1) := by
  intro a0 a1
  unfold execThawReady
  repeat'
    first
    | with_reducible rfl
    | with_reducible assumption
    | with_reducible apply KeptR.ite
    | with_reducible apply kept_ite
    | with_reducible apply kept_ite1
    | (extract_lets +onlyGivenNames s1; first | (refine kept_cut (x := s1) ?_ ?_; (on_goal 1 => subst s1); (on_goal 2 => (intro h; clear_value s1))) | (refine kept_cut1 (State.kept a1) (x := s1) ?_ ?_; (on_goal 1 => subst s1); (on_goal 2 => (intro h; clear_value s1))) | (refine kept_cutP (State.kept a1) (x := s1) ?_ ?_; (on_goal 1 => subst s1); (on_goal 2 => (intro h; clear_value s1))) |  ((have _h : ∀ x, State.kept (s1 x) = State.kept (s1 x) := fun _ => rfl); clear _h; subst s1) | ((have _h : ∀ x y, State.kept (s1 x y) = State.kept (s1 x y) := fun _ _ => rfl); clear _h; subst s1) | ((have _h : ∀ x y z, State.kept (s1 x y z) = State.kept (s1 x y z) := fun _ _ _ => rfl); clear _h; subst s1) | ((have _h : ∀ x y z w, State.kept (s1 x y z w) = State.kept (s1 x y z w) := fun _ _ _ _ => rfl); clear _h; subst s1) | ((have _h : Mc := s1); clear _h; subst s1) | ((have _h : Regs := s1); clear _h; subst s1) | clear_value s1)
    | with_reducible apply kept_ite
    | (with_reducible refine kept_foldl (fun _ _ => ?_) ?_)
    | (with_reducible refine kept_foldl1 (fun _ _ => ?_) ?_)
    | (with_reducible refine kept_foldr (fun _ _ => ?_) ?_)
    | with_reducible exact KeptR.stay _
    | with_reducible apply KeptR.next
    | with_reducible apply KeptE.ok
    | with_reducible exact KeptE.error
    | (with_reducible refine KeptR.of (stay_kept _) ?_)
    | (with_reducible refine kept_getD ?_ ?_)
    | (simp [*]; done)
    | (simp [*, stay_kept _ _ (by assumption : Sys2Proof.Machine.stay _ = Host.Outcome.next _)]; done)
    | split
    | (intros; simp only [↓kept_mk, kept_fold])
    | simp [*]
@[simp ↓] theorem State.psLost_kept : ∀ a0 a1, (State.psLost a0 a1).kept = a0.kept := by
  intro a0 a1
  unfold State.psLost
  repeat'
    first
    | with_reducible rfl
    | with_reducible apply kept_ite
    | (extract_lets +onlyGivenNames t; first | (refine kept_cut (x := t) ?_ ?_; (on_goal 1 => subst t); (on_goal 2 => (intro; clear_value t))) | clear_value t)
    | (with_reducible refine kept_foldl (fun _ _ => ?_) ?_)
    | (simp [*]; done)
    | split
theorem execPgoodLoss_kept : ∀ a0 a1, KeptR a1.kept (execPgoodLoss a0 a1) := by
  intro a0 a1
  unfold execPgoodLoss
  repeat'
    first
    | with_reducible rfl
    | with_reducible assumption
    | with_reducible apply KeptR.ite
    | with_reducible apply kept_ite
    | with_reducible apply kept_ite1
    | (extract_lets +onlyGivenNames s1; first | (refine kept_cut (x := s1) ?_ ?_; (on_goal 1 => subst s1); (on_goal 2 => (intro h; clear_value s1))) | (refine kept_cut1 (State.kept a1) (x := s1) ?_ ?_; (on_goal 1 => subst s1); (on_goal 2 => (intro h; clear_value s1))) | (refine kept_cutP (State.kept a1) (x := s1) ?_ ?_; (on_goal 1 => subst s1); (on_goal 2 => (intro h; clear_value s1))) |  ((have _h : ∀ x, State.kept (s1 x) = State.kept (s1 x) := fun _ => rfl); clear _h; subst s1) | ((have _h : ∀ x y, State.kept (s1 x y) = State.kept (s1 x y) := fun _ _ => rfl); clear _h; subst s1) | ((have _h : ∀ x y z, State.kept (s1 x y z) = State.kept (s1 x y z) := fun _ _ _ => rfl); clear _h; subst s1) | ((have _h : ∀ x y z w, State.kept (s1 x y z w) = State.kept (s1 x y z w) := fun _ _ _ _ => rfl); clear _h; subst s1) | ((have _h : Mc := s1); clear _h; subst s1) | ((have _h : Regs := s1); clear _h; subst s1) | clear_value s1)
    | with_reducible apply kept_ite
    | (with_reducible refine kept_foldl (fun _ _ => ?_) ?_)
    | (with_reducible refine kept_foldl1 (fun _ _ => ?_) ?_)
    | (with_reducible refine kept_foldr (fun _ _ => ?_) ?_)
    | with_reducible exact KeptR.stay _
    | with_reducible apply KeptR.next
    | with_reducible apply KeptE.ok
    | with_reducible exact KeptE.error
    | (with_reducible refine KeptR.of (stay_kept _) ?_)
    | (with_reducible refine kept_getD ?_ ?_)
    | (simp [*]; done)
    | (simp [*, stay_kept _ _ (by assumption : Sys2Proof.Machine.stay _ = Host.Outcome.next _)]; done)
    | split
    | (intros; simp only [↓kept_mk, kept_fold])
    | simp [*]
@[simp ↓] theorem State.leaves_kept : ∀ a0 a1 a2 a3, (State.leaves a0 a1 a2 a3).kept = a0.kept := by
  intros; simp [State.leaves]
@[simp ↓] theorem State.hop_kept : ∀ a0 a1 a2 a3 a4 a5 a6, (State.hop a0 a1 a2 a3 a4 a5 a6).kept = a0.kept := by
  intro a0 a1 a2 a3 a4 a5 a6
  unfold State.hop
  repeat'
    first
    | with_reducible rfl
    | with_reducible apply kept_ite
    | (simp [*]; done)
    | split
@[simp ↓] theorem State.eject_kept : ∀ a0 a1 a2, (State.eject a0 a1 a2).kept = a0.kept := by
  intros; simp [State.eject]
theorem execRouterGrant_kept : ∀ a0 a1 a2, KeptR a2.kept (execRouterGrant a0 a1 a2) := by
  intro a0 a1 a2
  unfold execRouterGrant
  repeat'
    first
    | with_reducible rfl
    | with_reducible apply KeptR.ite
    | with_reducible exact KeptR.stay _
    | with_reducible apply KeptR.next
    | with_reducible apply KeptE.ok
    | with_reducible exact KeptE.error
    | with_reducible apply kept_ite
    | (with_reducible refine KeptR.of (stay_kept _) ?_)
    | (simp [*]; done)
    | (simp [*, stay_kept _ _ (by assumption : stay _ = Host.Outcome.next _)]; done)
    | split
theorem execFlitArrival_kept : ∀ a0 a1 a2, KeptR a2.kept (execFlitArrival a0 a1 a2) := by
  intro a0 a1 a2
  unfold execFlitArrival
  repeat'
    first
    | with_reducible rfl
    | with_reducible apply KeptR.ite
    | with_reducible exact KeptR.stay _
    | with_reducible apply KeptR.next
    | with_reducible apply KeptE.ok
    | with_reducible exact KeptE.error
    | with_reducible apply kept_ite
    | (with_reducible refine KeptR.of (stay_kept _) ?_)
    | (simp [*]; done)
    | (simp [*, stay_kept _ _ (by assumption : stay _ = Host.Outcome.next _)]; done)
    | split
theorem execReplay_kept : ∀ a0 a1 a2, KeptR a2.kept (execReplay a0 a1 a2) := by
  intro a0 a1 a2
  unfold execReplay
  repeat'
    first
    | with_reducible rfl
    | with_reducible apply KeptR.ite
    | with_reducible exact KeptR.stay _
    | with_reducible apply KeptR.next
    | with_reducible apply KeptE.ok
    | with_reducible exact KeptE.error
    | with_reducible apply kept_ite
    | (with_reducible refine KeptR.of (stay_kept _) ?_)
    | (simp [*]; done)
    | (simp [*, stay_kept _ _ (by assumption : stay _ = Host.Outcome.next _)]; done)
    | split
theorem execEscapeFallback_kept : ∀ a0 a1, KeptR a1.kept (execEscapeFallback a0 a1) := by
  intro a0 a1
  unfold execEscapeFallback
  repeat'
    first
    | with_reducible rfl
    | with_reducible apply KeptR.ite
    | with_reducible exact KeptR.stay _
    | with_reducible apply KeptR.next
    | with_reducible apply KeptE.ok
    | with_reducible exact KeptE.error
    | with_reducible apply kept_ite
    | (with_reducible refine KeptR.of (stay_kept _) ?_)
    | (simp [*]; done)
    | (simp [*, stay_kept _ _ (by assumption : stay _ = Host.Outcome.next _)]; done)
    | split
@[simp ↓] theorem State.startSwap_kept : ∀ a0 a1 a2 a3 a4 a5, (State.startSwap a0 a1 a2 a3 a4 a5).kept = a0.kept := by
  intro a0 a1 a2 a3 a4 a5
  unfold State.startSwap
  repeat'
    first
    | with_reducible rfl
    | with_reducible apply kept_ite
    | (simp [*]; done)
    | split
@[simp ↓] theorem State.fence_kept : ∀ a0 a1 a2 a3 a4, (State.fence a0 a1 a2 a3 a4).kept = a0.kept := by
  intros; unfold State.fence; split <;> simp
theorem execRouteEpochFlip_kept : ∀ a0, KeptR a0.kept (execRouteEpochFlip a0) := by
  intro a0
  unfold execRouteEpochFlip
  repeat'
    first
    | with_reducible rfl
    | with_reducible apply KeptR.ite
    | with_reducible exact KeptR.stay _
    | with_reducible apply KeptR.next
    | with_reducible apply KeptE.ok
    | with_reducible exact KeptE.error
    | with_reducible apply kept_ite
    | (with_reducible refine KeptR.of (stay_kept _) ?_)
    | (simp [*]; done)
    | (simp [*, stay_kept _ _ (by assumption : stay _ = Host.Outcome.next _)]; done)
    | split
theorem execRouteEpochDrained_kept : ∀ a0, KeptR a0.kept (execRouteEpochDrained a0) := by
  intro a0
  unfold execRouteEpochDrained
  repeat'
    first
    | with_reducible rfl
    | with_reducible apply KeptR.ite
    | with_reducible exact KeptR.stay _
    | with_reducible apply KeptR.next
    | with_reducible apply KeptE.ok
    | with_reducible exact KeptE.error
    | with_reducible apply kept_ite
    | (extract_lets +onlyGivenNames t; first | (refine kept_cut (x := t) ?_ ?_; (on_goal 1 => subst t); (on_goal 2 => (intro; clear_value t))) | (refine kept_cutP (State.kept a0) (x := t) ?_ ?_; (on_goal 1 => subst t); (on_goal 2 => (intro; clear_value t))) | clear_value t)
    | (with_reducible refine KeptR.of (stay_kept _) ?_)
    | (with_reducible refine KeptE.of (State.done_kept _ _ _) ?_)
    | (simp [*]; done)
    | (simp [*, stay_kept _ _ (by assumption : stay _ = Host.Outcome.next _)]; done)
    | (simp [*, State.done_kept _ _ _ _ (by assumption : State.done _ _ _ = Except.ok _)]; done)
    | split
theorem execRteDrainTmoExpiry_kept : ∀ a0, KeptR a0.kept (execRteDrainTmoExpiry a0) := by
  intro a0
  unfold execRteDrainTmoExpiry
  repeat'
    first
    | with_reducible rfl
    | with_reducible apply KeptR.ite
    | with_reducible exact KeptR.stay _
    | with_reducible apply KeptR.next
    | with_reducible apply KeptE.ok
    | with_reducible exact KeptE.error
    | with_reducible apply kept_ite
    | (with_reducible refine KeptR.of (stay_kept _) ?_)
    | (simp [*]; done)
    | (simp [*, stay_kept _ _ (by assumption : stay _ = Host.Outcome.next _)]; done)
    | split
@[simp ↓] theorem State.tapCal_kept : ∀ a0 a1 a2 a3 a4, (State.tapCal a0 a1 a2 a3 a4).kept = a0.kept := by
  intros; simp [State.tapCal]
theorem execCalibrationWrite_kept : ∀ a0 a1 a2, KeptR a2.kept (execCalibrationWrite a0 a1 a2) := by
  intro a0 a1 a2
  unfold execCalibrationWrite
  repeat'
    first
    | with_reducible rfl
    | with_reducible apply KeptR.ite
    | with_reducible exact KeptR.stay _
    | with_reducible apply KeptR.next
    | with_reducible apply KeptE.ok
    | with_reducible exact KeptE.error
    | with_reducible apply kept_ite
    | (with_reducible refine KeptR.of (stay_kept _) ?_)
    | (simp [*]; done)
    | (simp [*, stay_kept _ _ (by assumption : stay _ = Host.Outcome.next _)]; done)
    | split
theorem execSfScrub_kept : ∀ a0 a1 a2, KeptR a2.kept (execSfScrub a0 a1 a2) := by
  intro a0 a1 a2
  unfold execSfScrub
  repeat'
    first
    | with_reducible rfl
    | with_reducible assumption
    | with_reducible apply KeptR.ite
    | with_reducible apply kept_ite
    | with_reducible apply kept_ite1
    | (extract_lets +onlyGivenNames s1; first | (refine kept_cut (x := s1) ?_ ?_; (on_goal 1 => subst s1); (on_goal 2 => (intro h; clear_value s1))) | (refine kept_cut1 (State.kept a2) (x := s1) ?_ ?_; (on_goal 1 => subst s1); (on_goal 2 => (intro h; clear_value s1))) | (refine kept_cutP (State.kept a2) (x := s1) ?_ ?_; (on_goal 1 => subst s1); (on_goal 2 => (intro h; clear_value s1))) |  ((have _h : ∀ x, State.kept (s1 x) = State.kept (s1 x) := fun _ => rfl); clear _h; subst s1) | ((have _h : ∀ x y, State.kept (s1 x y) = State.kept (s1 x y) := fun _ _ => rfl); clear _h; subst s1) | ((have _h : ∀ x y z, State.kept (s1 x y z) = State.kept (s1 x y z) := fun _ _ _ => rfl); clear _h; subst s1) | ((have _h : ∀ x y z w, State.kept (s1 x y z w) = State.kept (s1 x y z w) := fun _ _ _ _ => rfl); clear _h; subst s1) | ((have _h : Mc := s1); clear _h; subst s1) | ((have _h : Regs := s1); clear _h; subst s1) | clear_value s1)
    | with_reducible apply kept_ite
    | (with_reducible refine kept_foldl (fun _ _ => ?_) ?_)
    | (with_reducible refine kept_foldl1 (fun _ _ => ?_) ?_)
    | (with_reducible refine kept_foldr (fun _ _ => ?_) ?_)
    | with_reducible exact KeptR.stay _
    | with_reducible apply KeptR.next
    | with_reducible apply KeptE.ok
    | with_reducible exact KeptE.error
    | (with_reducible refine KeptR.of (stay_kept _) ?_)
    | (with_reducible refine kept_getD ?_ ?_)
    | (simp [*]; done)
    | (simp [*, stay_kept _ _ (by assumption : Sys2Proof.Machine.stay _ = Host.Outcome.next _)]; done)
    | split
    | (intros; simp only [↓kept_mk, kept_fold])
    | simp [*]
theorem execFirnScrub_kept : ∀ a0 a1, KeptR a1.kept (execFirnScrub a0 a1) := by
  intro a0 a1
  unfold execFirnScrub
  repeat'
    first
    | with_reducible rfl
    | with_reducible apply KeptR.ite
    | with_reducible exact KeptR.stay _
    | with_reducible apply KeptR.next
    | with_reducible apply KeptE.ok
    | with_reducible exact KeptE.error
    | with_reducible apply kept_ite
    | (with_reducible refine KeptR.of (stay_kept _) ?_)
    | (simp [*]; done)
    | (simp [*, stay_kept _ _ (by assumption : stay _ = Host.Outcome.next _)]; done)
    | split
theorem execRotationMove_kept : ∀ a0 a1 a2, KeptR a2.kept (execRotationMove a0 a1 a2) := by
  intro a0 a1 a2
  unfold execRotationMove
  repeat'
    first
    | with_reducible rfl
    | with_reducible apply KeptR.ite
    | with_reducible exact KeptR.stay _
    | with_reducible apply KeptR.next
    | with_reducible apply KeptE.ok
    | with_reducible exact KeptE.error
    | with_reducible apply kept_ite
    | (with_reducible refine KeptR.of (stay_kept _) ?_)
    | (simp [*]; done)
    | (simp [*, stay_kept _ _ (by assumption : stay _ = Host.Outcome.next _)]; done)
    | split
@[simp ↓] theorem State.toMultiple_kept : ∀ a0 a1, (State.toMultiple a0 a1).kept = a0.kept := by
  intro a0 a1
  unfold State.toMultiple
  repeat'
    first
    | with_reducible rfl
    | with_reducible apply kept_ite
    | (simp [*]; done)
    | split
theorem execTelemetryEpoch_kept : ∀ a0, KeptR a0.kept (execTelemetryEpoch a0) := by
  intro a0
  unfold execTelemetryEpoch
  repeat'
    first
    | with_reducible rfl
    | with_reducible apply KeptR.ite
    | with_reducible exact KeptR.stay _
    | with_reducible apply KeptR.next
    | with_reducible apply KeptE.ok
    | with_reducible exact KeptE.error
    | with_reducible apply kept_ite
    | (with_reducible refine kept_foldl (fun _ _ => ?_) ?_)
    | (simp [*]; done)
    | split
theorem execCounterIncrement_kept : ∀ a0 a1, KeptR a1.kept (execCounterIncrement a0 a1) := by
  intro a0 a1
  unfold execCounterIncrement
  repeat'
    first
    | with_reducible rfl
    | with_reducible apply KeptR.ite
    | with_reducible exact KeptR.stay _
    | with_reducible apply KeptR.next
    | with_reducible apply KeptE.ok
    | with_reducible exact KeptE.error
    | with_reducible apply kept_ite
    | (with_reducible refine KeptR.of (stay_kept _) ?_)
    | (simp [*]; done)
    | (simp [*, stay_kept _ _ (by assumption : stay _ = Host.Outcome.next _)]; done)
    | split
@[simp ↓] theorem State.stopAt_kept : ∀ a0, (State.stopAt a0).kept = a0.kept := by
  intros; unfold State.stopAt; split <;> simp
@[simp ↓] theorem State.capture_kept : ∀ a0 a1, (State.capture a0 a1).kept = a0.kept := by
  intro a0 a1
  unfold State.capture
  repeat'
    first
    | with_reducible rfl
    | with_reducible apply kept_ite
    | (extract_lets +onlyGivenNames t; first | (refine kept_cut (x := t) ?_ ?_; (on_goal 1 => subst t); (on_goal 2 => (intro; clear_value t))) | clear_value t)
    | (simp [*]; done)
    | split
@[simp ↓] theorem State.tapSend_kept : ∀ a0 a1, (State.tapSend a0 a1).kept = a0.kept := by
  intro a0 a1
  unfold State.tapSend
  repeat'
    first
    | with_reducible rfl
    | with_reducible apply kept_ite
    | (simp [*]; done)
    | split
theorem execTraceRecord_kept : ∀ a0 a1, KeptR a1.kept (execTraceRecord a0 a1) := by
  intro a0 a1
  unfold execTraceRecord
  repeat'
    first
    | with_reducible rfl
    | with_reducible apply KeptR.ite
    | with_reducible exact KeptR.stay _
    | with_reducible apply KeptR.next
    | with_reducible apply KeptE.ok
    | with_reducible exact KeptE.error
    | with_reducible apply kept_ite
    | (extract_lets +onlyGivenNames t; first | (refine kept_cut (x := t) ?_ ?_; (on_goal 1 => subst t); (on_goal 2 => (intro; clear_value t))) | (refine kept_cutP (State.kept a1) (x := t) ?_ ?_; (on_goal 1 => subst t); (on_goal 2 => (intro; clear_value t))) | clear_value t)
    | (with_reducible refine KeptT.of (State.recv_kept _ _ _ _) ?_)
    | (with_reducible refine KeptR.of (stay_kept _) ?_)
    | (simp [*]; done)
    | (simp [*, State.recv_kept _ _ _ _ _ _ _ (by assumption : @State.recv _ _ _ _ = some (_, _, _))]; done)
    | (simp [*, stay_kept _ _ (by assumption : stay _ = Host.Outcome.next _)]; done)
    | split
@[simp ↓] theorem State.dumpEnd_kept : ∀ a0, (State.dumpEnd a0).kept = a0.kept := by
  intro a0
  unfold State.dumpEnd
  repeat'
    first
    | with_reducible rfl
    | with_reducible apply kept_ite
    | (with_reducible refine KeptE.of (State.done_kept _ _ _) ?_)
    | (with_reducible refine kept_foldl (fun _ _ => ?_) ?_)
    | (simp [*]; done)
    | (simp [*, State.done_kept _ _ _ _ (by assumption : State.done _ _ _ = Except.ok _)]; done)
    | split
theorem execTraceOutput_kept : ∀ a0 a1 a2, KeptR a2.kept (execTraceOutput a0 a1 a2) := by
  intro a0 a1 a2
  unfold execTraceOutput
  repeat'
    first
    | with_reducible rfl
    | with_reducible apply KeptR.ite
    | with_reducible exact KeptR.stay _
    | with_reducible apply KeptR.next
    | with_reducible apply KeptE.ok
    | with_reducible exact KeptE.error
    | with_reducible apply kept_ite
    | (with_reducible refine KeptR.of (stay_kept _) ?_)
    | (simp [*]; done)
    | (simp [*, stay_kept _ _ (by assumption : stay _ = Host.Outcome.next _)]; done)
    | split
@[simp ↓] theorem State.startUp_kept : ∀ a0, (State.startUp a0).kept = a0.kept := by
  intros; simp [State.startUp]
@[simp ↓] theorem State.gpfEnd_kept : ∀ a0, (State.gpfEnd a0).kept = a0.kept := by
  intro a0
  unfold State.gpfEnd
  repeat'
    first
    | with_reducible rfl
    | with_reducible apply kept_ite
    | (with_reducible refine kept_foldl (fun _ _ => ?_) ?_)
    | (simp [*]; done)
    | split
theorem execRomWaitEntry_kept : ∀ a0, KeptR a0.kept (execRomWaitEntry a0) := by
  intro a0
  unfold execRomWaitEntry
  repeat'
    first
    | with_reducible rfl
    | with_reducible apply KeptR.ite
    | with_reducible exact KeptR.stay _
    | with_reducible apply KeptR.next
    | with_reducible apply KeptE.ok
    | with_reducible exact KeptE.error
    | with_reducible apply kept_ite
    | (with_reducible refine KeptR.of (stay_kept _) ?_)
    | (simp [*]; done)
    | (simp [*, stay_kept _ _ (by assumption : stay _ = Host.Outcome.next _)]; done)
    | split
@[simp ↓] theorem State.lineRec_kept : ∀ a0 a1 a2 a3, (State.lineRec a0 a1 a2 a3).kept = a0.kept := by
  intros; simp [State.lineRec]
@[simp ↓] theorem State.haltPoison_kept : ∀ a0, (State.haltPoison a0).kept = a0.kept := by
  intro a0
  unfold State.haltPoison
  repeat'
    first
    | with_reducible rfl
    | with_reducible apply kept_ite
    | (with_reducible refine kept_foldl (fun _ _ => ?_) ?_)
    | (simp [*]; done)
    | split
theorem execHaltPostedLinePoison_kept : ∀ a0, KeptR a0.kept (execHaltPostedLinePoison a0) := by
  intro a0
  unfold execHaltPostedLinePoison
  repeat'
    first
    | with_reducible rfl
    | with_reducible apply KeptR.ite
    | with_reducible exact KeptR.stay _
    | with_reducible apply KeptR.next
    | with_reducible apply KeptE.ok
    | with_reducible exact KeptE.error
    | with_reducible apply kept_ite
    | (simp [*]; done)
    | split
@[simp ↓] theorem State.lostRecs_kept : ∀ a0, (State.lostRecs a0).kept = a0.kept := by
  intro a0
  unfold State.lostRecs
  repeat'
    first
    | with_reducible rfl
    | with_reducible apply kept_ite
    | (with_reducible refine kept_foldl (fun _ _ => ?_) ?_)
    | (simp [*]; done)
    | split
@[simp ↓] theorem State.drainOut_kept : ∀ a0 a1, (State.drainOut a0 a1).kept = a0.kept := by
  intros; simp [State.drainOut]
theorem execBlockHalt_kept : ∀ a0, KeptR a0.kept (execBlockHalt a0) := by
  intro a0
  unfold execBlockHalt
  repeat'
    first
    | with_reducible rfl
    | with_reducible apply KeptR.ite
    | with_reducible exact KeptR.stay _
    | with_reducible apply KeptR.next
    | with_reducible apply KeptE.ok
    | with_reducible exact KeptE.error
    | with_reducible apply kept_ite
    | (with_reducible refine KeptR.of (stay_kept _) ?_)
    | (simp [*]; done)
    | (simp [*, stay_kept _ _ (by assumption : stay _ = Host.Outcome.next _)]; done)
    | split
theorem execMcWatchdogExpiry_kept : ∀ a0, KeptR a0.kept (execMcWatchdogExpiry a0) := by
  intro a0
  unfold execMcWatchdogExpiry
  repeat'
    first
    | with_reducible rfl
    | with_reducible apply KeptR.ite
    | with_reducible exact KeptR.stay _
    | with_reducible apply KeptR.next
    | with_reducible apply KeptE.ok
    | with_reducible exact KeptE.error
    | with_reducible apply kept_ite
    | (with_reducible refine KeptR.of (stay_kept _) ?_)
    | (simp [*]; done)
    | (simp [*, stay_kept _ _ (by assumption : stay _ = Host.Outcome.next _)]; done)
    | split
theorem execAutordyEntry_kept : ∀ a0, KeptR a0.kept (execAutordyEntry a0) := by
  intro a0
  unfold execAutordyEntry
  repeat'
    first
    | with_reducible rfl
    | with_reducible apply KeptR.ite
    | with_reducible exact KeptR.stay _
    | with_reducible apply KeptR.next
    | with_reducible apply KeptE.ok
    | with_reducible exact KeptE.error
    | with_reducible apply kept_ite
    | (with_reducible refine KeptR.of (stay_kept _) ?_)
    | (simp [*]; done)
    | (simp [*, stay_kept _ _ (by assumption : stay _ = Host.Outcome.next _)]; done)
    | split
theorem execReadyAssert_kept : ∀ a0, KeptR a0.kept (execReadyAssert a0) := by
  intro a0
  unfold execReadyAssert
  repeat'
    first
    | with_reducible rfl
    | with_reducible apply KeptR.ite
    | with_reducible exact KeptR.stay _
    | with_reducible apply KeptR.next
    | with_reducible apply KeptE.ok
    | with_reducible exact KeptE.error
    | with_reducible apply kept_ite
    | (with_reducible refine KeptR.of (stay_kept _) ?_)
    | (simp [*]; done)
    | (simp [*, stay_kept _ _ (by assumption : stay _ = Host.Outcome.next _)]; done)
    | split
@[simp ↓] theorem State.psOvr_kept : ∀ a0 a1 a2, (State.psOvr a0 a1 a2).kept = a0.kept := by
  intros; simp [State.psOvr]
@[simp ↓] theorem State.msOvr_kept : ∀ a0 a1 a2, (State.msOvr a0 a1 a2).kept = a0.kept := by
  intros; simp [State.msOvr]
theorem execQueueOverrun_kept : ∀ a0 a1, KeptR a1.kept (execQueueOverrun a0 a1) := by
  intro a0 a1
  unfold execQueueOverrun
  repeat'
    first
    | with_reducible rfl
    | with_reducible apply KeptR.ite
    | with_reducible exact KeptR.stay _
    | with_reducible apply KeptR.next
    | with_reducible apply KeptE.ok
    | with_reducible exact KeptE.error
    | with_reducible apply kept_ite
    | (with_reducible refine KeptR.of (stay_kept _) ?_)
    | (simp [*]; done)
    | (simp [*, stay_kept _ _ (by assumption : stay _ = Host.Outcome.next _)]; done)
    | split
theorem execBucketLeak_kept : ∀ a0, KeptR a0.kept (execBucketLeak a0) := by
  intro a0
  unfold execBucketLeak
  repeat'
    first
    | with_reducible rfl
    | with_reducible apply KeptR.ite
    | with_reducible exact KeptR.stay _
    | with_reducible apply KeptR.next
    | with_reducible apply KeptE.ok
    | with_reducible exact KeptE.error
    | with_reducible apply kept_ite
    | (simp [*]; done)
    | split
@[simp ↓] theorem State.retireChan_kept : ∀ a0 a1 a2 a3, (State.retireChan a0 a1 a2 a3).kept = a0.kept := by
  intros; unfold State.retireChan; split <;> simp
theorem execWayRetirementWalk_kept : ∀ a0 a1, KeptR a1.kept (execWayRetirementWalk a0 a1) := by
  intro a0 a1
  unfold execWayRetirementWalk
  repeat'
    first
    | with_reducible rfl
    | with_reducible assumption
    | with_reducible apply KeptR.ite
    | with_reducible apply kept_ite
    | with_reducible apply kept_ite1
    | (extract_lets +onlyGivenNames s1; first | (refine kept_cut (x := s1) ?_ ?_; (on_goal 1 => subst s1); (on_goal 2 => (intro h; clear_value s1))) | (refine kept_cut1 (State.kept a1) (x := s1) ?_ ?_; (on_goal 1 => subst s1); (on_goal 2 => (intro h; clear_value s1))) | (refine kept_cutP (State.kept a1) (x := s1) ?_ ?_; (on_goal 1 => subst s1); (on_goal 2 => (intro h; clear_value s1))) |  ((have _h : ∀ x, State.kept (s1 x) = State.kept (s1 x) := fun _ => rfl); clear _h; subst s1) | ((have _h : ∀ x y, State.kept (s1 x y) = State.kept (s1 x y) := fun _ _ => rfl); clear _h; subst s1) | ((have _h : ∀ x y z, State.kept (s1 x y z) = State.kept (s1 x y z) := fun _ _ _ => rfl); clear _h; subst s1) | ((have _h : ∀ x y z w, State.kept (s1 x y z w) = State.kept (s1 x y z w) := fun _ _ _ _ => rfl); clear _h; subst s1) | ((have _h : Mc := s1); clear _h; subst s1) | ((have _h : Regs := s1); clear _h; subst s1) | clear_value s1)
    | with_reducible apply kept_ite
    | (with_reducible refine kept_foldl (fun _ _ => ?_) ?_)
    | (with_reducible refine kept_foldl1 (fun _ _ => ?_) ?_)
    | (with_reducible refine kept_foldr (fun _ _ => ?_) ?_)
    | with_reducible exact KeptR.stay _
    | with_reducible apply KeptR.next
    | with_reducible apply KeptE.ok
    | with_reducible exact KeptE.error
    | (with_reducible refine KeptR.of (stay_kept _) ?_)
    | (with_reducible refine KeptO.of (State.evict_kept _ _ _ _) ?_)
    | (with_reducible refine kept_getD ?_ ?_)
    | (simp [*]; done)
    | (simp [*, stay_kept _ _ (by assumption : Sys2Proof.Machine.stay _ = Host.Outcome.next _)]; done)
    | (simp [*, State.evict_kept _ _ _ _ _ (by assumption : Sys2Proof.Machine.State.evict _ _ _ _ = some _)]; done)
    | split
    | (intros; simp only [↓kept_mk, kept_fold])
    | simp [*]
theorem State.retireSlice_kept : ∀ a0 a1, KeptP a0.kept (State.retireSlice a0 a1) := by
  intro a0 a1
  unfold State.retireSlice
  repeat'
    first
    | with_reducible rfl
    | with_reducible apply KeptP.ite
    | with_reducible apply KeptP.mk
    | with_reducible apply kept_ite
    | (simp [*]; done)
    | split
@[simp ↓] theorem State.retireSlice_kept1 : ∀ a0 a1, (State.retireSlice a0 a1).1.kept = a0.kept := fun a0 a1 => State.retireSlice_kept a0 a1 _ _ rfl
theorem State.retireMem_kept : ∀ a0 a1, KeptP a0.kept (State.retireMem a0 a1) := by
  intro a0 a1
  unfold State.retireMem
  repeat'
    first
    | with_reducible rfl
    | with_reducible apply KeptP.ite
    | with_reducible apply KeptP.mk
    | with_reducible apply kept_ite
    | (simp [*]; done)
    | split
@[simp ↓] theorem State.retireMem_kept1 : ∀ a0 a1, (State.retireMem a0 a1).1.kept = a0.kept := fun a0 a1 => State.retireMem_kept a0 a1 _ _ rfl
@[simp ↓] theorem State.retirePaths_kept : ∀ a0 a1, (State.retirePaths a0 a1).kept = a0.kept := by
  intro a0 a1
  unfold State.retirePaths
  repeat'
    first
    | with_reducible rfl
    | with_reducible apply kept_ite
    | (with_reducible refine kept_foldl (fun _ _ => ?_) ?_)
    | (simp [*]; done)
    | split
theorem State.unitOut_kept : ∀ a0 a1, KeptP a0.kept (State.unitOut a0 a1) := by
  intro a0 a1
  unfold State.unitOut
  repeat'
    first
    | with_reducible rfl
    | with_reducible apply KeptP.ite
    | with_reducible apply KeptP.mk
    | with_reducible apply kept_ite
    | (with_reducible refine KeptP.of (State.retireSlice_kept _ _) ?_)
    | (with_reducible refine KeptP.of (State.retireMem_kept _ _) ?_)
    | (simp [*]; done)
    | (simp [*, State.retireSlice_kept _ _ _ _ (by assumption : State.retireSlice _ _ = (_, _))]; done)
    | (simp [*, State.retireMem_kept _ _ _ _ (by assumption : State.retireMem _ _ = (_, _))]; done)
    | split
@[simp ↓] theorem State.unitOut_kept1 : ∀ a0 a1, (State.unitOut a0 a1).1.kept = a0.kept := fun a0 a1 => State.unitOut_kept a0 a1 _ _ rfl
@[simp ↓] theorem State.twinLost_kept : ∀ a0, (State.twinLost a0).kept = a0.kept := by
  intros; unfold State.twinLost; split <;> simp
theorem State.retireStep_kept : ∀ a0 a1, KeptP a0.kept (State.retireStep a0 a1) := by
  intro a0 a1
  unfold State.retireStep
  repeat'
    first
    | with_reducible rfl
    | with_reducible apply KeptP.ite
    | with_reducible apply KeptP.mk
    | with_reducible apply kept_ite
    | (with_reducible refine KeptP.of (State.retireSlice_kept _ _) ?_)
    | (with_reducible refine KeptP.of (State.retireMem_kept _ _) ?_)
    | (with_reducible refine KeptP.of (State.unitOut_kept _ _) ?_)
    | (simp [*]; done)
    | (simp [*, State.retireSlice_kept _ _ _ _ (by assumption : State.retireSlice _ _ = (_, _))]; done)
    | (simp [*, State.retireMem_kept _ _ _ _ (by assumption : State.retireMem _ _ = (_, _))]; done)
    | (simp [*, State.unitOut_kept _ _ _ _ (by assumption : State.unitOut _ _ = (_, _))]; done)
    | split
@[simp ↓] theorem State.retireStep_kept1 : ∀ a0 a1, (State.retireStep a0 a1).1.kept = a0.kept := fun a0 a1 => State.retireStep_kept a0 a1 _ _ rfl
@[simp ↓] theorem State.retireOne_kept : ∀ a0 a1, (State.retireOne a0 a1).kept = a0.kept := by
  intro a0 a1
  unfold State.retireOne
  repeat'
    first
    | with_reducible rfl
    | with_reducible apply kept_ite
    | (with_reducible refine KeptP.of (State.retireStep_kept _ _) ?_)
    | (simp [*]; done)
    | (simp [*, State.retireStep_kept _ _ _ _ (by assumption : State.retireStep _ _ = (_, _))]; done)
    | split
@[simp ↓] theorem State.markRetired_kept : ∀ a0 a1 a2 a3, (State.markRetired a0 a1 a2 a3).kept = a0.kept := by
  intro a0 a1 a2 a3
  unfold State.markRetired
  repeat'
    first
    | with_reducible rfl
    | with_reducible apply kept_ite
    | (simp [*]; done)
    | split
@[simp ↓] theorem State.fenceGo_kept : ∀ a0 a1 a2 a3 a4, (State.fenceGo a0 a1 a2 a3 a4).kept = a0.kept := by
  intros; simp [State.fenceGo]
@[simp ↓] theorem State.fenceStep_kept : ∀ a0 a1 a2 a3 a4, (State.fenceStep a0 a1 a2 a3 a4).kept = a0.kept := by
  intro a0 a1 a2 a3 a4
  unfold State.fenceStep
  repeat'
    first
    | with_reducible rfl
    | with_reducible apply kept_ite
    | (with_reducible refine KeptP.of (State.unitOut_kept _ _) ?_)
    | (simp [*]; done)
    | (simp [*, State.unitOut_kept _ _ _ _ (by assumption : State.unitOut _ _ = (_, _))]; done)
    | split
theorem execRetirementProcedureEnd_kept : ∀ a0, KeptR a0.kept (execRetirementProcedureEnd a0) := by
  intro a0
  unfold execRetirementProcedureEnd
  repeat'
    first
    | with_reducible rfl
    | with_reducible assumption
    | with_reducible apply KeptR.ite
    | with_reducible apply kept_ite
    | with_reducible apply kept_ite1
    | (extract_lets +onlyGivenNames s1; first | (refine kept_cut (x := s1) ?_ ?_; (on_goal 1 => subst s1); (on_goal 2 => (intro h; clear_value s1))) | (refine kept_cut1 (State.kept a0) (x := s1) ?_ ?_; (on_goal 1 => subst s1); (on_goal 2 => (intro h; clear_value s1))) | (refine kept_cutP (State.kept a0) (x := s1) ?_ ?_; (on_goal 1 => subst s1); (on_goal 2 => (intro h; clear_value s1))) |  ((have _h : ∀ x, State.kept (s1 x) = State.kept (s1 x) := fun _ => rfl); clear _h; subst s1) | ((have _h : ∀ x y, State.kept (s1 x y) = State.kept (s1 x y) := fun _ _ => rfl); clear _h; subst s1) | ((have _h : ∀ x y z, State.kept (s1 x y z) = State.kept (s1 x y z) := fun _ _ _ => rfl); clear _h; subst s1) | ((have _h : ∀ x y z w, State.kept (s1 x y z w) = State.kept (s1 x y z w) := fun _ _ _ _ => rfl); clear _h; subst s1) | ((have _h : Mc := s1); clear _h; subst s1) | ((have _h : Regs := s1); clear _h; subst s1) | clear_value s1)
    | with_reducible apply kept_ite
    | (with_reducible refine kept_foldl (fun _ _ => ?_) ?_)
    | (with_reducible refine kept_foldl1 (fun _ _ => ?_) ?_)
    | (with_reducible refine kept_foldr (fun _ _ => ?_) ?_)
    | with_reducible exact KeptR.stay _
    | with_reducible apply KeptR.next
    | with_reducible apply KeptE.ok
    | with_reducible exact KeptE.error
    | (with_reducible refine KeptR.of (stay_kept _) ?_)
    | (with_reducible refine KeptE.of (arbMode_kept _ _) ?_)
    | (with_reducible refine kept_getD ?_ ?_)
    | (simp [*]; done)
    | (simp [*, stay_kept _ _ (by assumption : Sys2Proof.Machine.stay _ = Host.Outcome.next _)]; done)
    | split
    | (intros; simp only [↓kept_mk, kept_fold])
    | simp [*]

end Sys2Proof.Machine
end

