-- ==== Sys2Proof/Laws/KeptMc.lean ====
section
/-!
SUPPORT. `State.kept` is left alone by the management controller, the twin station and the rings: one lemma for each operation.
-/

set_option linter.unusedTactic false
set_option linter.unreachableTactic false
set_option linter.unusedSimpArgs false
set_option linter.unusedVariables false

namespace Sys2Proof.Machine

open Sys2Proof

@[simp ↓] theorem State.refuseCmd_kept : ∀ a0 a1 a2, (State.refuseCmd a0 a1 a2).kept = a0.kept := by
  intros; simp [State.refuseCmd]
theorem State.execCmd_kept : ∀ a0 a1 a2 a3 (h0 : ∀ s, KeptE s.kept (a3 s)), (State.execCmd a0 a1 a2 a3).kept = a0.kept := by
  intro a0 a1 a2 a3 h0
  unfold State.execCmd
  repeat'
    first
    | with_reducible rfl
    | with_reducible assumption
    | with_reducible apply kept_ite
    | with_reducible apply kept_ite1
    | (extract_lets +onlyGivenNames s1; first | (refine kept_cut (x := s1) ?_ ?_; (on_goal 1 => subst s1); (on_goal 2 => (intro h; clear_value s1))) | (refine kept_cut1 (State.kept a0) (x := s1) ?_ ?_; (on_goal 1 => subst s1); (on_goal 2 => (intro h; clear_value s1))) | (refine kept_cutP (State.kept a0) (x := s1) ?_ ?_; (on_goal 1 => subst s1); (on_goal 2 => (intro h; clear_value s1))) |  ((have _h : ∀ x, State.kept (s1 x) = State.kept (s1 x) := fun _ => rfl); clear _h; subst s1) | ((have _h : ∀ x y, State.kept (s1 x y) = State.kept (s1 x y) := fun _ _ => rfl); clear _h; subst s1) | ((have _h : ∀ x y z, State.kept (s1 x y z) = State.kept (s1 x y z) := fun _ _ _ => rfl); clear _h; subst s1) | ((have _h : ∀ x y z w, State.kept (s1 x y z w) = State.kept (s1 x y z w) := fun _ _ _ _ => rfl); clear _h; subst s1) | ((have _h : Mc := s1); clear _h; subst s1) | ((have _h : Regs := s1); clear _h; subst s1) | clear_value s1)
    | with_reducible apply kept_ite
    | (with_reducible refine kept_foldl (fun _ _ => ?_) ?_)
    | (with_reducible refine kept_foldl1 (fun _ _ => ?_) ?_)
    | (with_reducible refine kept_foldr (fun _ _ => ?_) ?_)
    | (with_reducible refine KeptE.of (h0 _) ?_)
    | (simp [*, h0 _ _ (by assumption)]; done)
    | (with_reducible refine kept_getD ?_ ?_)
    | (simp [*]; done)
    | split
    | (intros; simp only [↓kept_mk, kept_fold])
    | simp [*]
@[simp ↓] theorem State.slotDone_kept : ∀ a0 a1, (State.slotDone a0 a1).kept = a0.kept := by
  intros; simp [State.slotDone]
theorem State.serve_kept : ∀ a0 a1 a2 a3 (h0 : ∀ s, KeptE s.kept (a3 s)), (State.serve a0 a1 a2 a3).kept = a0.kept := by
  intro a0 a1 a2 a3 h0
  unfold State.serve
  repeat'
    first
    | with_reducible rfl
    | with_reducible assumption
    | with_reducible apply kept_ite
    | with_reducible apply kept_ite1
    | (extract_lets +onlyGivenNames s1; first | (refine kept_cut (x := s1) ?_ ?_; (on_goal 1 => subst s1); (on_goal 2 => (intro h; clear_value s1))) | (refine kept_cut1 (State.kept a0) (x := s1) ?_ ?_; (on_goal 1 => subst s1); (on_goal 2 => (intro h; clear_value s1))) | (refine kept_cutP (State.kept a0) (x := s1) ?_ ?_; (on_goal 1 => subst s1); (on_goal 2 => (intro h; clear_value s1))) |  ((have _h : ∀ x, State.kept (s1 x) = State.kept (s1 x) := fun _ => rfl); clear _h; subst s1) | ((have _h : ∀ x y, State.kept (s1 x y) = State.kept (s1 x y) := fun _ _ => rfl); clear _h; subst s1) | ((have _h : ∀ x y z, State.kept (s1 x y z) = State.kept (s1 x y z) := fun _ _ _ => rfl); clear _h; subst s1) | ((have _h : ∀ x y z w, State.kept (s1 x y z w) = State.kept (s1 x y z w) := fun _ _ _ _ => rfl); clear _h; subst s1) | ((have _h : Mc := s1); clear _h; subst s1) | ((have _h : Regs := s1); clear _h; subst s1) | clear_value s1)
    | with_reducible apply kept_ite
    | (with_reducible refine kept_foldl (fun _ _ => ?_) ?_)
    | (with_reducible refine kept_foldl1 (fun _ _ => ?_) ?_)
    | (with_reducible refine kept_foldr (fun _ _ => ?_) ?_)
    | (with_reducible refine (State.execCmd_kept _ _ _ _ (fun _ => ?_)).trans ?_)
    | (with_reducible refine KeptE.of (h0 _) ?_)
    | (simp [*, h0 _ _ (by assumption)]; done)
    | (with_reducible refine kept_getD ?_ ?_)
    | (simp [*]; done)
    | split
    | (intros; simp only [↓kept_mk, kept_fold])
    | simp [*]
@[simp ↓] theorem State.ringSettle_kept : ∀ a0, (State.ringSettle a0).kept = a0.kept := by
  intros; simp [State.ringSettle]
theorem State.readSlot_kept : ∀ a0 a1, KeptN a0.kept (State.readSlot a0 a1) := by
  intro a0 a1
  unfold State.readSlot
  repeat'
    first
    | with_reducible rfl
    | with_reducible apply KeptN.ite
    | with_reducible exact KeptN.none
    | with_reducible apply KeptN.some
    | with_reducible apply kept_ite
    | (simp [*]; done)
    | split
theorem mcRow_kept : ∀ a0 a1 a2 a3 (h0 : ∀ s, KeptE s.kept (a2 s)), KeptR a3.kept (mcRow a0 a1 a2 a3) := by
  intro a0 a1 a2 a3 h0
  unfold mcRow
  repeat'
    first
    | with_reducible rfl
    | with_reducible assumption
    | with_reducible apply KeptR.ite
    | with_reducible apply kept_ite
    | with_reducible apply kept_ite1
    | (extract_lets +onlyGivenNames s1; first | (refine kept_cut (x := s1) ?_ ?_; (on_goal 1 => subst s1); (on_goal 2 => (intro h; clear_value s1))) | (refine kept_cut1 (State.kept a3) (x := s1) ?_ ?_; (on_goal 1 => subst s1); (on_goal 2 => (intro h; clear_value s1))) | (refine kept_cutP (State.kept a3) (x := s1) ?_ ?_; (on_goal 1 => subst s1); (on_goal 2 => (intro h; clear_value s1))) |  ((have _h : ∀ x, State.kept (s1 x) = State.kept (s1 x) := fun _ => rfl); clear _h; subst s1) | ((have _h : ∀ x y, State.kept (s1 x y) = State.kept (s1 x y) := fun _ _ => rfl); clear _h; subst s1) | ((have _h : ∀ x y z, State.kept (s1 x y z) = State.kept (s1 x y z) := fun _ _ _ => rfl); clear _h; subst s1) | ((have _h : ∀ x y z w, State.kept (s1 x y z w) = State.kept (s1 x y z w) := fun _ _ _ _ => rfl); clear _h; subst s1) | ((have _h : Mc := s1); clear _h; subst s1) | ((have _h : Regs := s1); clear _h; subst s1) | clear_value s1)
    | with_reducible apply kept_ite
    | (with_reducible refine kept_foldl (fun _ _ => ?_) ?_)
    | (with_reducible refine kept_foldl1 (fun _ _ => ?_) ?_)
    | (with_reducible refine kept_foldr (fun _ _ => ?_) ?_)
    | with_reducible exact KeptR.stay _
    | with_reducible apply KeptR.next
    | with_reducible apply KeptE.ok
    | with_reducible exact KeptE.error
    | (with_reducible refine KeptR.of (stay_kept _) ?_)
    | (with_reducible refine KeptN.of (State.readSlot_kept _ _) ?_)
    | (with_reducible refine (State.serve_kept _ _ _ _ (fun _ => ?_)).trans ?_)
    | (with_reducible refine KeptE.of (h0 _) ?_)
    | (simp [*, h0 _ _ (by assumption)]; done)
    | (with_reducible refine kept_getD ?_ ?_)
    | (simp [*]; done)
    | (simp [*, stay_kept _ _ (by assumption : Sys2Proof.Machine.stay _ = Host.Outcome.next _)]; done)
    | (simp [*, State.readSlot_kept _ _ _ _ (by assumption : Sys2Proof.Machine.State.readSlot _ _ = some (_, _))]; done)
    | split
    | (intros; simp only [↓kept_mk, kept_fold])
    | simp [*]
theorem State.done_kept : ∀ a0 a1 a2, KeptE a0.kept (State.done a0 a1 a2) := by
  intro a0 a1 a2
  unfold State.done
  repeat'
    first
    | with_reducible rfl
    | with_reducible apply KeptE.ite
    | with_reducible apply KeptE.ok
    | with_reducible exact KeptE.error
    | with_reducible apply kept_ite
    | (simp [*]; done)
    | split
@[simp ↓] theorem State.startLong_kept : ∀ a0 a1 a2 a3, (State.startLong a0 a1 a2 a3).kept = a0.kept := by
  intros; simp [State.startLong]
@[simp ↓] theorem State.hold_kept : ∀ a0 a1 a2, (State.hold a0 a1 a2).kept = a0.kept := by
  intros; simp [State.hold]
theorem bootStatus_kept : ∀ a0 s, KeptE (State.kept s) (bootStatus a0 s) := by
  intro a0 s
  unfold bootStatus
  repeat'
    first
    | with_reducible rfl
    | with_reducible apply KeptE.ite
    | with_reducible apply KeptE.ok
    | with_reducible exact KeptE.error
    | with_reducible apply kept_ite
    | (with_reducible refine KeptE.of (State.done_kept _ _ _) ?_)
    | (simp [*]; done)
    | (simp [*, State.done_kept _ _ _ _ (by assumption : State.done _ _ _ = Except.ok _)]; done)
    | split
theorem imgEnd_kept : ∀ a0 s, KeptE (State.kept s) (imgEnd a0 s) := by
  intro a0 s
  unfold imgEnd
  repeat'
    first
    | with_reducible rfl
    | with_reducible apply KeptE.ite
    | with_reducible apply KeptE.ok
    | with_reducible exact KeptE.error
    | with_reducible apply kept_ite
    | (simp [*]; done)
    | split
theorem bootStart_kept : ∀ a0 s, KeptE (State.kept s) (bootStart a0 s) := by
  intro a0 s
  unfold bootStart
  repeat'
    first
    | with_reducible rfl
    | with_reducible apply KeptE.ite
    | with_reducible apply KeptE.ok
    | with_reducible exact KeptE.error
    | with_reducible apply kept_ite
    | (with_reducible refine KeptE.of (State.done_kept _ _ _) ?_)
    | (simp [*]; done)
    | (simp [*, State.done_kept _ _ _ _ (by assumption : State.done _ _ _ = Except.ok _)]; done)
    | split
theorem cmdProgress_kept : ∀ a0 s, KeptE (State.kept s) (cmdProgress a0 s) := by
  intro a0 s
  unfold cmdProgress
  repeat'
    first
    | with_reducible rfl
    | with_reducible apply KeptE.ite
    | with_reducible apply KeptE.ok
    | with_reducible exact KeptE.error
    | with_reducible apply kept_ite
    | (with_reducible refine KeptE.of (State.done_kept _ _ _) ?_)
    | (simp [*]; done)
    | (simp [*, State.done_kept _ _ _ _ (by assumption : State.done _ _ _ = Except.ok _)]; done)
    | split
theorem instCreate_kept : ∀ a0 s, KeptE (State.kept s) (instCreate a0 s) := by
  intro a0 s
  unfold instCreate
  repeat'
    first
    | with_reducible rfl
    | with_reducible apply KeptE.ite
    | with_reducible apply KeptE.ok
    | with_reducible exact KeptE.error
    | with_reducible apply kept_ite
    | (simp [*]; done)
    | split
theorem instEnable_kept : ∀ a0 s, KeptE (State.kept s) (instEnable a0 s) := by
  intro a0 s
  unfold instEnable
  repeat'
    first
    | with_reducible rfl
    | with_reducible apply KeptE.ite
    | with_reducible apply KeptE.ok
    | with_reducible exact KeptE.error
    | with_reducible apply kept_ite
    | (simp [*]; done)
    | split
@[simp ↓] theorem State.startQuiesce_kept : ∀ a0 a1 a2, (State.startQuiesce a0 a1 a2).kept = a0.kept := by
  intros; simp [State.startQuiesce]
theorem instQuiesce_kept : ∀ a0 s, KeptE (State.kept s) (instQuiesce a0 s) := by
  intro a0 s
  unfold instQuiesce
  repeat'
    first
    | with_reducible rfl
    | with_reducible apply KeptE.ite
    | with_reducible apply KeptE.ok
    | with_reducible exact KeptE.error
    | with_reducible apply kept_ite
    | (simp [*]; done)
    | split
@[simp ↓] theorem State.beginClear_kept : ∀ a0 a1 a2 a3 a4 a5, (State.beginClear a0 a1 a2 a3 a4 a5).kept = a0.kept := by
  intros; simp [State.beginClear]
@[simp ↓] theorem State.clearCmd_kept : ∀ a0 a1 a2, (State.clearCmd a0 a1 a2).kept = a0.kept := by
  intro a0 a1 a2
  unfold State.clearCmd
  repeat'
    first
    | with_reducible rfl
    | with_reducible apply kept_ite
    | (simp [*]; done)
    | split
theorem instReset_kept : ∀ a0 s, KeptE (State.kept s) (instReset a0 s) := by
  intro a0 s
  unfold instReset
  repeat'
    first
    | with_reducible rfl
    | with_reducible apply KeptE.ite
    | with_reducible apply KeptE.ok
    | with_reducible exact KeptE.error
    | with_reducible apply kept_ite
    | (simp [*]; done)
    | split
theorem instRemove_kept : ∀ a0 s, KeptE (State.kept s) (instRemove a0 s) := by
  intro a0 s
  unfold instRemove
  repeat'
    first
    | with_reducible rfl
    | with_reducible apply KeptE.ite
    | with_reducible apply KeptE.ok
    | with_reducible exact KeptE.error
    | with_reducible apply kept_ite
    | (simp [*]; done)
    | split
theorem instQuota_kept : ∀ a0 s, KeptE (State.kept s) (instQuota a0 s) := by
  intro a0 s
  unfold instQuota
  repeat'
    first
    | with_reducible rfl
    | with_reducible apply KeptE.ite
    | with_reducible apply KeptE.ok
    | with_reducible exact KeptE.error
    | with_reducible apply kept_ite
    | (simp [*]; done)
    | split
theorem instStatus_kept : ∀ a0 s, KeptE (State.kept s) (instStatus a0 s) := by
  intro a0 s
  unfold instStatus
  repeat'
    first
    | with_reducible rfl
    | with_reducible apply KeptE.ite
    | with_reducible apply KeptE.ok
    | with_reducible exact KeptE.error
    | with_reducible apply kept_ite
    | (with_reducible refine KeptE.of (State.done_kept _ _ _) ?_)
    | (simp [*]; done)
    | (simp [*, State.done_kept _ _ _ _ (by assumption : State.done _ _ _ = Except.ok _)]; done)
    | split
@[simp ↓] theorem State.startRule_kept : ∀ a0 a1 a2 a3 a4, (State.startRule a0 a1 a2 a3 a4).kept = a0.kept := by
  intro a0 a1 a2 a3 a4
  unfold State.startRule
  repeat'
    first
    | with_reducible rfl
    | with_reducible apply kept_ite
    | (simp [*]; done)
    | split
theorem irtAdd_kept : ∀ a0 s, KeptE (State.kept s) (irtAdd a0 s) := by
  intro a0 s
  unfold irtAdd
  repeat'
    first
    | with_reducible rfl
    | with_reducible apply KeptE.ite
    | with_reducible apply KeptE.ok
    | with_reducible exact KeptE.error
    | with_reducible apply kept_ite
    | (simp [*]; done)
    | split
theorem irtRemove_kept : ∀ a0 s, KeptE (State.kept s) (irtRemove a0 s) := by
  intro a0 s
  unfold irtRemove
  repeat'
    first
    | with_reducible rfl
    | with_reducible apply KeptE.ite
    | with_reducible apply KeptE.ok
    | with_reducible exact KeptE.error
    | with_reducible apply kept_ite
    | (simp [*]; done)
    | split
theorem iwMask_kept : ∀ a0 s, KeptE (State.kept s) (iwMask a0 s) := by
  intro a0 s
  unfold iwMask
  repeat'
    first
    | with_reducible rfl
    | with_reducible apply KeptE.ite
    | with_reducible apply KeptE.ok
    | with_reducible exact KeptE.error
    | with_reducible apply kept_ite
    | (simp [*]; done)
    | split
theorem regionSet_kept : ∀ a0 s, KeptE (State.kept s) (regionSet a0 s) := by
  intro a0 s
  unfold regionSet
  repeat'
    first
    | with_reducible rfl
    | with_reducible apply KeptE.ite
    | with_reducible apply KeptE.ok
    | with_reducible exact KeptE.error
    | with_reducible apply kept_ite
    | (simp [*]; done)
    | split
theorem regionClear_kept : ∀ a0 s, KeptE (State.kept s) (regionClear a0 s) := by
  intro a0 s
  unfold regionClear
  repeat'
    first
    | with_reducible rfl
    | with_reducible apply KeptE.ite
    | with_reducible apply KeptE.ok
    | with_reducible exact KeptE.error
    | with_reducible apply kept_ite
    | (simp [*]; done)
    | split
theorem leasePass_kept : ∀ a0 s, KeptE (State.kept s) (leasePass a0 s) := by
  intro a0 s
  unfold leasePass
  repeat'
    first
    | with_reducible rfl
    | with_reducible apply KeptE.ite
    | with_reducible apply KeptE.ok
    | with_reducible exact KeptE.error
    | with_reducible apply kept_ite
    | (simp [*]; done)
    | split
theorem regionRead_kept : ∀ a0 s, KeptE (State.kept s) (regionRead a0 s) := by
  intro a0 s
  unfold regionRead
  repeat'
    first
    | with_reducible rfl
    | with_reducible apply KeptE.ite
    | with_reducible apply KeptE.ok
    | with_reducible exact KeptE.error
    | with_reducible apply kept_ite
    | (with_reducible refine KeptE.of (State.done_kept _ _ _) ?_)
    | (simp [*]; done)
    | (simp [*, State.done_kept _ _ _ _ (by assumption : State.done _ _ _ = Except.ok _)]; done)
    | split
theorem portSet_kept : ∀ a0 s, KeptE (State.kept s) (portSet a0 s) := by
  intro a0 s
  unfold portSet
  repeat'
    first
    | with_reducible rfl
    | with_reducible apply KeptE.ite
    | with_reducible apply KeptE.ok
    | with_reducible exact KeptE.error
    | with_reducible apply kept_ite
    | (with_reducible refine KeptE.of (State.done_kept _ _ _) ?_)
    | (simp [*]; done)
    | (simp [*, State.done_kept _ _ _ _ (by assumption : State.done _ _ _ = Except.ok _)]; done)
    | split
theorem portRead_kept : ∀ a0 s, KeptE (State.kept s) (portRead a0 s) := by
  intro a0 s
  unfold portRead
  repeat'
    first
    | with_reducible rfl
    | with_reducible apply KeptE.ite
    | with_reducible apply KeptE.ok
    | with_reducible exact KeptE.error
    | with_reducible apply kept_ite
    | (with_reducible refine KeptE.of (State.done_kept _ _ _) ?_)
    | (simp [*]; done)
    | (simp [*, State.done_kept _ _ _ _ (by assumption : State.done _ _ _ = Except.ok _)]; done)
    | split
theorem execBootStatus_kept : ∀ a0 a1, KeptR a1.kept (execBootStatus a0 a1) := by
  intro a0 a1
  unfold execBootStatus
  repeat'
    first
    | with_reducible rfl
    | with_reducible apply KeptR.ite
    | with_reducible exact KeptR.stay _
    | with_reducible apply KeptR.next
    | with_reducible apply KeptE.ok
    | with_reducible exact KeptE.error
    | with_reducible apply kept_ite
    | (with_reducible refine KeptR.of (mcRow_kept _ _ _ _ (fun _ => ?_)) ?_)
    | (with_reducible refine KeptE.of (bootStatus_kept _ _) ?_)
    | (simp [*]; done)
    | split
theorem execImgEnd_kept : ∀ a0 a1, KeptR a1.kept (execImgEnd a0 a1) := by
  intro a0 a1
  unfold execImgEnd
  repeat'
    first
    | with_reducible rfl
    | with_reducible apply KeptR.ite
    | with_reducible exact KeptR.stay _
    | with_reducible apply KeptR.next
    | with_reducible apply KeptE.ok
    | with_reducible exact KeptE.error
    | with_reducible apply kept_ite
    | (with_reducible refine KeptR.of (mcRow_kept _ _ _ _ (fun _ => ?_)) ?_)
    | (with_reducible refine KeptE.of (imgEnd_kept _ _) ?_)
    | (simp [*]; done)
    | split
theorem execBootStart_kept : ∀ a0 a1, KeptR a1.kept (execBootStart a0 a1) := by
  intro a0 a1
  unfold execBootStart
  repeat'
    first
    | with_reducible rfl
    | with_reducible apply KeptR.ite
    | with_reducible exact KeptR.stay _
    | with_reducible apply KeptR.next
    | with_reducible apply KeptE.ok
    | with_reducible exact KeptE.error
    | with_reducible apply kept_ite
    | (with_reducible refine KeptR.of (mcRow_kept _ _ _ _ (fun _ => ?_)) ?_)
    | (with_reducible refine KeptE.of (bootStart_kept _ _) ?_)
    | (simp [*]; done)
    | split
theorem execCmdProgress_kept : ∀ a0 a1, KeptR a1.kept (execCmdProgress a0 a1) := by
  intro a0 a1
  unfold execCmdProgress
  repeat'
    first
    | with_reducible rfl
    | with_reducible apply KeptR.ite
    | with_reducible exact KeptR.stay _
    | with_reducible apply KeptR.next
    | with_reducible apply KeptE.ok
    | with_reducible exact KeptE.error
    | with_reducible apply kept_ite
    | (with_reducible refine KeptR.of (mcRow_kept _ _ _ _ (fun _ => ?_)) ?_)
    | (with_reducible refine KeptE.of (cmdProgress_kept _ _) ?_)
    | (simp [*]; done)
    | split
theorem execInstCreate_kept : ∀ a0 a1, KeptR a1.kept (execInstCreate a0 a1) := by
  intro a0 a1
  unfold execInstCreate
  repeat'
    first
    | with_reducible rfl
    | with_reducible apply KeptR.ite
    | with_reducible exact KeptR.stay _
    | with_reducible apply KeptR.next
    | with_reducible apply KeptE.ok
    | with_reducible exact KeptE.error
    | with_reducible apply kept_ite
    | (with_reducible refine KeptR.of (mcRow_kept _ _ _ _ (fun _ => ?_)) ?_)
    | (with_reducible refine KeptE.of (instCreate_kept _ _) ?_)
    | (simp [*]; done)
    | split
theorem execInstEnable_kept : ∀ a0 a1, KeptR a1.kept (execInstEnable a0 a1) := by
  intro a0 a1
  unfold execInstEnable
  repeat'
    first
    | with_reducible rfl
    | with_reducible apply KeptR.ite
    | with_reducible exact KeptR.stay _
    | with_reducible apply KeptR.next
    | with_reducible apply KeptE.ok
    | with_reducible exact KeptE.error
    | with_reducible apply kept_ite
    | (with_reducible refine KeptR.of (mcRow_kept _ _ _ _ (fun _ => ?_)) ?_)
    | (with_reducible refine KeptE.of (instEnable_kept _ _) ?_)
    | (simp [*]; done)
    | split
theorem execInstQuiesce_kept : ∀ a0 a1, KeptR a1.kept (execInstQuiesce a0 a1) := by
  intro a0 a1
  unfold execInstQuiesce
  repeat'
    first
    | with_reducible rfl
    | with_reducible apply KeptR.ite
    | with_reducible exact KeptR.stay _
    | with_reducible apply KeptR.next
    | with_reducible apply KeptE.ok
    | with_reducible exact KeptE.error
    | with_reducible apply kept_ite
    | (with_reducible refine KeptR.of (mcRow_kept _ _ _ _ (fun _ => ?_)) ?_)
    | (with_reducible refine KeptE.of (instQuiesce_kept _ _) ?_)
    | (simp [*]; done)
    | split
theorem execInstReset_kept : ∀ a0 a1, KeptR a1.kept (execInstReset a0 a1) := by
  intro a0 a1
  unfold execInstReset
  repeat'
    first
    | with_reducible rfl
    | with_reducible apply KeptR.ite
    | with_reducible exact KeptR.stay _
    | with_reducible apply KeptR.next
    | with_reducible apply KeptE.ok
    | with_reducible exact KeptE.error
    | with_reducible apply kept_ite
    | (with_reducible refine KeptR.of (mcRow_kept _ _ _ _ (fun _ => ?_)) ?_)
    | (with_reducible refine KeptE.of (instReset_kept _ _) ?_)
    | (simp [*]; done)
    | split
theorem execInstRemove_kept : ∀ a0 a1, KeptR a1.kept (execInstRemove a0 a1) := by
  intro a0 a1
  unfold execInstRemove
  repeat'
    first
    | with_reducible rfl
    | with_reducible apply KeptR.ite
    | with_reducible exact KeptR.stay _
    | with_reducible apply KeptR.next
    | with_reducible apply KeptE.ok
    | with_reducible exact KeptE.error
    | with_reducible apply kept_ite
    | (with_reducible refine KeptR.of (mcRow_kept _ _ _ _ (fun _ => ?_)) ?_)
    | (with_reducible refine KeptE.of (instRemove_kept _ _) ?_)
    | (simp [*]; done)
    | split
theorem execInstQuota_kept : ∀ a0 a1, KeptR a1.kept (execInstQuota a0 a1) := by
  intro a0 a1
  unfold execInstQuota
  repeat'
    first
    | with_reducible rfl
    | with_reducible apply KeptR.ite
    | with_reducible exact KeptR.stay _
    | with_reducible apply KeptR.next
    | with_reducible apply KeptE.ok
    | with_reducible exact KeptE.error
    | with_reducible apply kept_ite
    | (with_reducible refine KeptR.of (mcRow_kept _ _ _ _ (fun _ => ?_)) ?_)
    | (with_reducible refine KeptE.of (instQuota_kept _ _) ?_)
    | (simp [*]; done)
    | split
theorem execInstStatus_kept : ∀ a0 a1, KeptR a1.kept (execInstStatus a0 a1) := by
  intro a0 a1
  unfold execInstStatus
  repeat'
    first
    | with_reducible rfl
    | with_reducible apply KeptR.ite
    | with_reducible exact KeptR.stay _
    | with_reducible apply KeptR.next
    | with_reducible apply KeptE.ok
    | with_reducible exact KeptE.error
    | with_reducible apply kept_ite
    | (with_reducible refine KeptR.of (mcRow_kept _ _ _ _ (fun _ => ?_)) ?_)
    | (with_reducible refine KeptE.of (instStatus_kept _ _) ?_)
    | (simp [*]; done)
    | split
theorem execIrtAdd_kept : ∀ a0 a1, KeptR a1.kept (execIrtAdd a0 a1) := by
  intro a0 a1
  unfold execIrtAdd
  repeat'
    first
    | with_reducible rfl
    | with_reducible apply KeptR.ite
    | with_reducible exact KeptR.stay _
    | with_reducible apply KeptR.next
    | with_reducible apply KeptE.ok
    | with_reducible exact KeptE.error
    | with_reducible apply kept_ite
    | (with_reducible refine KeptR.of (mcRow_kept _ _ _ _ (fun _ => ?_)) ?_)
    | (with_reducible refine KeptE.of (irtAdd_kept _ _) ?_)
    | (simp [*]; done)
    | split
theorem execIrtRemove_kept : ∀ a0 a1, KeptR a1.kept (execIrtRemove a0 a1) := by
  intro a0 a1
  unfold execIrtRemove
  repeat'
    first
    | with_reducible rfl
    | with_reducible apply KeptR.ite
    | with_reducible exact KeptR.stay _
    | with_reducible apply KeptR.next
    | with_reducible apply KeptE.ok
    | with_reducible exact KeptE.error
    | with_reducible apply kept_ite
    | (with_reducible refine KeptR.of (mcRow_kept _ _ _ _ (fun _ => ?_)) ?_)
    | (with_reducible refine KeptE.of (irtRemove_kept _ _) ?_)
    | (simp [*]; done)
    | split
theorem execIwMask_kept : ∀ a0 a1, KeptR a1.kept (execIwMask a0 a1) := by
  intro a0 a1
  unfold execIwMask
  repeat'
    first
    | with_reducible rfl
    | with_reducible apply KeptR.ite
    | with_reducible exact KeptR.stay _
    | with_reducible apply KeptR.next
    | with_reducible apply KeptE.ok
    | with_reducible exact KeptE.error
    | with_reducible apply kept_ite
    | (with_reducible refine KeptR.of (mcRow_kept _ _ _ _ (fun _ => ?_)) ?_)
    | (with_reducible refine KeptE.of (iwMask_kept _ _) ?_)
    | (simp [*]; done)
    | split
theorem execRegionSet_kept : ∀ a0 a1, KeptR a1.kept (execRegionSet a0 a1) := by
  intro a0 a1
  unfold execRegionSet
  repeat'
    first
    | with_reducible rfl
    | with_reducible apply KeptR.ite
    | with_reducible exact KeptR.stay _
    | with_reducible apply KeptR.next
    | with_reducible apply KeptE.ok
    | with_reducible exact KeptE.error
    | with_reducible apply kept_ite
    | (with_reducible refine KeptR.of (mcRow_kept _ _ _ _ (fun _ => ?_)) ?_)
    | (with_reducible refine KeptE.of (regionSet_kept _ _) ?_)
    | (simp [*]; done)
    | split
theorem execRegionClear_kept : ∀ a0 a1, KeptR a1.kept (execRegionClear a0 a1) := by
  intro a0 a1
  unfold execRegionClear
  repeat'
    first
    | with_reducible rfl
    | with_reducible apply KeptR.ite
    | with_reducible exact KeptR.stay _
    | with_reducible apply KeptR.next
    | with_reducible apply KeptE.ok
    | with_reducible exact KeptE.error
    | with_reducible apply kept_ite
    | (with_reducible refine KeptR.of (mcRow_kept _ _ _ _ (fun _ => ?_)) ?_)
    | (with_reducible refine KeptE.of (regionClear_kept _ _) ?_)
    | (simp [*]; done)
    | split
theorem execLeasePass_kept : ∀ a0 a1, KeptR a1.kept (execLeasePass a0 a1) := by
  intro a0 a1
  unfold execLeasePass
  repeat'
    first
    | with_reducible rfl
    | with_reducible apply KeptR.ite
    | with_reducible exact KeptR.stay _
    | with_reducible apply KeptR.next
    | with_reducible apply KeptE.ok
    | with_reducible exact KeptE.error
    | with_reducible apply kept_ite
    | (with_reducible refine KeptR.of (mcRow_kept _ _ _ _ (fun _ => ?_)) ?_)
    | (with_reducible refine KeptE.of (leasePass_kept _ _) ?_)
    | (simp [*]; done)
    | split
theorem execRegionRead_kept : ∀ a0 a1, KeptR a1.kept (execRegionRead a0 a1) := by
  intro a0 a1
  unfold execRegionRead
  repeat'
    first
    | with_reducible rfl
    | with_reducible apply KeptR.ite
    | with_reducible exact KeptR.stay _
    | with_reducible apply KeptR.next
    | with_reducible apply KeptE.ok
    | with_reducible exact KeptE.error
    | with_reducible apply kept_ite
    | (with_reducible refine KeptR.of (mcRow_kept _ _ _ _ (fun _ => ?_)) ?_)
    | (with_reducible refine KeptE.of (regionRead_kept _ _) ?_)
    | (simp [*]; done)
    | split
theorem execPortSet_kept : ∀ a0 a1, KeptR a1.kept (execPortSet a0 a1) := by
  intro a0 a1
  unfold execPortSet
  repeat'
    first
    | with_reducible rfl
    | with_reducible apply KeptR.ite
    | with_reducible exact KeptR.stay _
    | with_reducible apply KeptR.next
    | with_reducible apply KeptE.ok
    | with_reducible exact KeptE.error
    | with_reducible apply kept_ite
    | (with_reducible refine KeptR.of (mcRow_kept _ _ _ _ (fun _ => ?_)) ?_)
    | (with_reducible refine KeptE.of (portSet_kept _ _) ?_)
    | (simp [*]; done)
    | split
theorem execPortRead_kept : ∀ a0 a1, KeptR a1.kept (execPortRead a0 a1) := by
  intro a0 a1
  unfold execPortRead
  repeat'
    first
    | with_reducible rfl
    | with_reducible apply KeptR.ite
    | with_reducible exact KeptR.stay _
    | with_reducible apply KeptR.next
    | with_reducible apply KeptE.ok
    | with_reducible exact KeptE.error
    | with_reducible apply kept_ite
    | (with_reducible refine KeptR.of (mcRow_kept _ _ _ _ (fun _ => ?_)) ?_)
    | (with_reducible refine KeptE.of (portRead_kept _ _) ?_)
    | (simp [*]; done)
    | split
@[simp ↓] theorem State.joinAll_kept : ∀ a0 a1 a2, (State.joinAll a0 a1 a2).kept = a0.kept := by
  intro a0 a1 a2
  unfold State.joinAll
  repeat'
    first
    | with_reducible rfl
    | with_reducible apply kept_ite
    | (with_reducible refine kept_foldl (fun _ _ => ?_) ?_)
    | (simp [*]; done)
    | split
theorem agentAdd_kept : ∀ a0 s, KeptE (State.kept s) (agentAdd a0 s) := by
  intro a0 s
  unfold agentAdd
  repeat'
    first
    | with_reducible rfl
    | with_reducible apply KeptE.ite
    | with_reducible apply KeptE.ok
    | with_reducible exact KeptE.error
    | with_reducible apply kept_ite
    | (with_reducible refine KeptE.of (State.done_kept _ _ _) ?_)
    | (simp [*]; done)
    | (simp [*, State.done_kept _ _ _ _ (by assumption : State.done _ _ _ = Except.ok _)]; done)
    | split
theorem State.named_kept : ∀ a0 a1 a2 (h0 : ∀ x, KeptE a0.kept (a2 x)), KeptE a0.kept (State.named a0 a1 a2) := by
  intro a0 a1 a2 h0
  unfold State.named
  repeat'
    first
    | with_reducible rfl
    | with_reducible apply KeptE.ite
    | with_reducible apply KeptE.ok
    | with_reducible exact KeptE.error
    | with_reducible apply kept_ite
    | (simp [*]; done)
    | split
theorem agentRemove_kept : ∀ a0 s, KeptE (State.kept s) (agentRemove a0 s) := by
  intro a0 s
  unfold agentRemove
  repeat'
    first
    | with_reducible rfl
    | with_reducible apply KeptE.ite
    | with_reducible apply KeptE.ok
    | with_reducible exact KeptE.error
    | with_reducible apply kept_ite
    | (with_reducible refine KeptE.of (State.done_kept _ _ _) ?_)
    | (with_reducible refine KeptE.of (State.named_kept _ _ _ (fun _ => ?_)) ?_)
    | (simp [*]; done)
    | (simp [*, State.done_kept _ _ _ _ (by assumption : State.done _ _ _ = Except.ok _)]; done)
    | split
theorem agentBind_kept : ∀ a0 s, KeptE (State.kept s) (agentBind a0 s) := by
  intro a0 s
  unfold agentBind
  repeat'
    first
    | with_reducible rfl
    | with_reducible apply KeptE.ite
    | with_reducible apply KeptE.ok
    | with_reducible exact KeptE.error
    | with_reducible apply kept_ite
    | (with_reducible refine KeptE.of (State.named_kept _ _ _ (fun _ => ?_)) ?_)
    | (simp [*]; done)
    | split
theorem agentUnbind_kept : ∀ a0 s, KeptE (State.kept s) (agentUnbind a0 s) := by
  intro a0 s
  unfold agentUnbind
  repeat'
    first
    | with_reducible rfl
    | with_reducible apply KeptE.ite
    | with_reducible apply KeptE.ok
    | with_reducible exact KeptE.error
    | with_reducible apply kept_ite
    | (with_reducible refine KeptE.of (State.named_kept _ _ _ (fun _ => ?_)) ?_)
    | (simp [*]; done)
    | split
theorem agentDisable_kept : ∀ a0 s, KeptE (State.kept s) (agentDisable a0 s) := by
  intro a0 s
  unfold agentDisable
  repeat'
    first
    | with_reducible rfl
    | with_reducible apply KeptE.ite
    | with_reducible apply KeptE.ok
    | with_reducible exact KeptE.error
    | with_reducible apply kept_ite
    | (with_reducible refine KeptE.of (State.named_kept _ _ _ (fun _ => ?_)) ?_)
    | (simp [*]; done)
    | split
theorem agentEnable_kept : ∀ a0 s, KeptE (State.kept s) (agentEnable a0 s) := by
  intro a0 s
  unfold agentEnable
  repeat'
    first
    | with_reducible rfl
    | with_reducible apply KeptE.ite
    | with_reducible apply KeptE.ok
    | with_reducible exact KeptE.error
    | with_reducible apply kept_ite
    | (with_reducible refine KeptE.of (State.done_kept _ _ _) ?_)
    | (with_reducible refine KeptE.of (State.named_kept _ _ _ (fun _ => ?_)) ?_)
    | (simp [*]; done)
    | (simp [*, State.done_kept _ _ _ _ (by assumption : State.done _ _ _ = Except.ok _)]; done)
    | split
theorem agentReadmit_kept : ∀ a0 s, KeptE (State.kept s) (agentReadmit a0 s) := by
  intro a0 s
  unfold agentReadmit
  repeat'
    first
    | with_reducible rfl
    | with_reducible apply KeptE.ite
    | with_reducible apply KeptE.ok
    | with_reducible exact KeptE.error
    | with_reducible apply kept_ite
    | (with_reducible refine KeptE.of (State.done_kept _ _ _) ?_)
    | (with_reducible refine KeptE.of (State.named_kept _ _ _ (fun _ => ?_)) ?_)
    | (simp [*]; done)
    | (simp [*, State.done_kept _ _ _ _ (by assumption : State.done _ _ _ = Except.ok _)]; done)
    | split
theorem agentRead_kept : ∀ a0 s, KeptE (State.kept s) (agentRead a0 s) := by
  intro a0 s
  unfold agentRead
  repeat'
    first
    | with_reducible rfl
    | with_reducible apply KeptE.ite
    | with_reducible apply KeptE.ok
    | with_reducible exact KeptE.error
    | with_reducible apply kept_ite
    | (with_reducible refine KeptE.of (State.done_kept _ _ _) ?_)
    | (with_reducible refine KeptE.of (State.named_kept _ _ _ (fun _ => ?_)) ?_)
    | (simp [*]; done)
    | (simp [*, State.done_kept _ _ _ _ (by assumption : State.done _ _ _ = Except.ok _)]; done)
    | split
theorem agentGrace_kept : ∀ a0 s, KeptE (State.kept s) (agentGrace a0 s) := by
  intro a0 s
  unfold agentGrace
  repeat'
    first
    | with_reducible rfl
    | with_reducible apply KeptE.ite
    | with_reducible apply KeptE.ok
    | with_reducible exact KeptE.error
    | with_reducible apply kept_ite
    | (with_reducible refine KeptE.of (State.done_kept _ _ _) ?_)
    | (simp [*]; done)
    | (simp [*, State.done_kept _ _ _ _ (by assumption : State.done _ _ _ = Except.ok _)]; done)
    | split
theorem snoopCfg_kept : ∀ a0 s, KeptE (State.kept s) (snoopCfg a0 s) := by
  intro a0 s
  unfold snoopCfg
  repeat'
    first
    | with_reducible rfl
    | with_reducible apply KeptE.ite
    | with_reducible apply KeptE.ok
    | with_reducible exact KeptE.error
    | with_reducible apply kept_ite
    | (with_reducible refine KeptE.of (State.done_kept _ _ _) ?_)
    | (simp [*]; done)
    | (simp [*, State.done_kept _ _ _ _ (by assumption : State.done _ _ _ = Except.ok _)]; done)
    | split
theorem calRead_kept : ∀ a0 s, KeptE (State.kept s) (calRead a0 s) := by
  intro a0 s
  unfold calRead
  repeat'
    first
    | with_reducible rfl
    | with_reducible apply KeptE.ite
    | with_reducible apply KeptE.ok
    | with_reducible exact KeptE.error
    | with_reducible apply kept_ite
    | (with_reducible refine KeptE.of (State.done_kept _ _ _) ?_)
    | (simp [*]; done)
    | (simp [*, State.done_kept _ _ _ _ (by assumption : State.done _ _ _ = Except.ok _)]; done)
    | split
theorem calReset_kept : ∀ a0 s, KeptE (State.kept s) (calReset a0 s) := by
  intro a0 s
  unfold calReset
  repeat'
    first
    | with_reducible rfl
    | with_reducible apply KeptE.ite
    | with_reducible apply KeptE.ok
    | with_reducible exact KeptE.error
    | with_reducible apply kept_ite
    | (with_reducible refine KeptE.of (State.done_kept _ _ _) ?_)
    | (simp [*]; done)
    | (simp [*, State.done_kept _ _ _ _ (by assumption : State.done _ _ _ = Except.ok _)]; done)
    | split
theorem execAgentAdd_kept : ∀ a0 a1, KeptR a1.kept (execAgentAdd a0 a1) := by
  intro a0 a1
  unfold execAgentAdd
  repeat'
    first
    | with_reducible rfl
    | with_reducible apply KeptR.ite
    | with_reducible exact KeptR.stay _
    | with_reducible apply KeptR.next
    | with_reducible apply KeptE.ok
    | with_reducible exact KeptE.error
    | with_reducible apply kept_ite
    | (with_reducible refine KeptR.of (mcRow_kept _ _ _ _ (fun _ => ?_)) ?_)
    | (with_reducible refine KeptE.of (agentAdd_kept _ _) ?_)
    | (simp [*]; done)
    | split
theorem execAgentRemove_kept : ∀ a0 a1, KeptR a1.kept (execAgentRemove a0 a1) := by
  intro a0 a1
  unfold execAgentRemove
  repeat'
    first
    | with_reducible rfl
    | with_reducible apply KeptR.ite
    | with_reducible exact KeptR.stay _
    | with_reducible apply KeptR.next
    | with_reducible apply KeptE.ok
    | with_reducible exact KeptE.error
    | with_reducible apply kept_ite
    | (with_reducible refine KeptR.of (mcRow_kept _ _ _ _ (fun _ => ?_)) ?_)
    | (with_reducible refine KeptE.of (agentRemove_kept _ _) ?_)
    | (simp [*]; done)
    | split
theorem execAgentBind_kept : ∀ a0 a1, KeptR a1.kept (execAgentBind a0 a1) := by
  intro a0 a1
  unfold execAgentBind
  repeat'
    first
    | with_reducible rfl
    | with_reducible apply KeptR.ite
    | with_reducible exact KeptR.stay _
    | with_reducible apply KeptR.next
    | with_reducible apply KeptE.ok
    | with_reducible exact KeptE.error
    | with_reducible apply kept_ite
    | (with_reducible refine KeptR.of (mcRow_kept _ _ _ _ (fun _ => ?_)) ?_)
    | (with_reducible refine KeptE.of (agentBind_kept _ _) ?_)
    | (simp [*]; done)
    | split
theorem execAgentUnbind_kept : ∀ a0 a1, KeptR a1.kept (execAgentUnbind a0 a1) := by
  intro a0 a1
  unfold execAgentUnbind
  repeat'
    first
    | with_reducible rfl
    | with_reducible apply KeptR.ite
    | with_reducible exact KeptR.stay _
    | with_reducible apply KeptR.next
    | with_reducible apply KeptE.ok
    | with_reducible exact KeptE.error
    | with_reducible apply kept_ite
    | (with_reducible refine KeptR.of (mcRow_kept _ _ _ _ (fun _ => ?_)) ?_)
    | (with_reducible refine KeptE.of (agentUnbind_kept _ _) ?_)
    | (simp [*]; done)
    | split
theorem execAgentDisable_kept : ∀ a0 a1, KeptR a1.kept (execAgentDisable a0 a1) := by
  intro a0 a1
  unfold execAgentDisable
  repeat'
    first
    | with_reducible rfl
    | with_reducible apply KeptR.ite
    | with_reducible exact KeptR.stay _
    | with_reducible apply KeptR.next
    | with_reducible apply KeptE.ok
    | with_reducible exact KeptE.error
    | with_reducible apply kept_ite
    | (with_reducible refine KeptR.of (mcRow_kept _ _ _ _ (fun _ => ?_)) ?_)
    | (with_reducible refine KeptE.of (agentDisable_kept _ _) ?_)
    | (simp [*]; done)
    | split
theorem execAgentEnable_kept : ∀ a0 a1, KeptR a1.kept (execAgentEnable a0 a1) := by
  intro a0 a1
  unfold execAgentEnable
  repeat'
    first
    | with_reducible rfl
    | with_reducible apply KeptR.ite
    | with_reducible exact KeptR.stay _
    | with_reducible apply KeptR.next
    | with_reducible apply KeptE.ok
    | with_reducible exact KeptE.error
    | with_reducible apply kept_ite
    | (with_reducible refine KeptR.of (mcRow_kept _ _ _ _ (fun _ => ?_)) ?_)
    | (with_reducible refine KeptE.of (agentEnable_kept _ _) ?_)
    | (simp [*]; done)
    | split
theorem execAgentReadmit_kept : ∀ a0 a1, KeptR a1.kept (execAgentReadmit a0 a1) := by
  intro a0 a1
  unfold execAgentReadmit
  repeat'
    first
    | with_reducible rfl
    | with_reducible apply KeptR.ite
    | with_reducible exact KeptR.stay _
    | with_reducible apply KeptR.next
    | with_reducible apply KeptE.ok
    | with_reducible exact KeptE.error
    | with_reducible apply kept_ite
    | (with_reducible refine KeptR.of (mcRow_kept _ _ _ _ (fun _ => ?_)) ?_)
    | (with_reducible refine KeptE.of (agentReadmit_kept _ _) ?_)
    | (simp [*]; done)
    | split
theorem execAgentRead_kept : ∀ a0 a1, KeptR a1.kept (execAgentRead a0 a1) := by
  intro a0 a1
  unfold execAgentRead
  repeat'
    first
    | with_reducible rfl
    | with_reducible apply KeptR.ite
    | with_reducible exact KeptR.stay _
    | with_reducible apply KeptR.next
    | with_reducible apply KeptE.ok
    | with_reducible exact KeptE.error
    | with_reducible apply kept_ite
    | (with_reducible refine KeptR.of (mcRow_kept _ _ _ _ (fun _ => ?_)) ?_)
    | (with_reducible refine KeptE.of (agentRead_kept _ _) ?_)
    | (simp [*]; done)
    | split
theorem execAgentGrace_kept : ∀ a0 a1, KeptR a1.kept (execAgentGrace a0 a1) := by
  intro a0 a1
  unfold execAgentGrace
  repeat'
    first
    | with_reducible rfl
    | with_reducible apply KeptR.ite
    | with_reducible exact KeptR.stay _
    | with_reducible apply KeptR.next
    | with_reducible apply KeptE.ok
    | with_reducible exact KeptE.error
    | with_reducible apply kept_ite
    | (with_reducible refine KeptR.of (mcRow_kept _ _ _ _ (fun _ => ?_)) ?_)
    | (with_reducible refine KeptE.of (agentGrace_kept _ _) ?_)
    | (simp [*]; done)
    | split
theorem execSnoopCfg_kept : ∀ a0 a1, KeptR a1.kept (execSnoopCfg a0 a1) := by
  intro a0 a1
  unfold execSnoopCfg
  repeat'
    first
    | with_reducible rfl
    | with_reducible apply KeptR.ite
    | with_reducible exact KeptR.stay _
    | with_reducible apply KeptR.next
    | with_reducible apply KeptE.ok
    | with_reducible exact KeptE.error
    | with_reducible apply kept_ite
    | (with_reducible refine KeptR.of (mcRow_kept _ _ _ _ (fun _ => ?_)) ?_)
    | (with_reducible refine KeptE.of (snoopCfg_kept _ _) ?_)
    | (simp [*]; done)
    | split
theorem execCalRead_kept : ∀ a0 a1, KeptR a1.kept (execCalRead a0 a1) := by
  intro a0 a1
  unfold execCalRead
  repeat'
    first
    | with_reducible rfl
    | with_reducible apply KeptR.ite
    | with_reducible exact KeptR.stay _
    | with_reducible apply KeptR.next
    | with_reducible apply KeptE.ok
    | with_reducible exact KeptE.error
    | with_reducible apply kept_ite
    | (with_reducible refine KeptR.of (mcRow_kept _ _ _ _ (fun _ => ?_)) ?_)
    | (with_reducible refine KeptE.of (calRead_kept _ _) ?_)
    | (simp [*]; done)
    | split
theorem execCalReset_kept : ∀ a0 a1, KeptR a1.kept (execCalReset a0 a1) := by
  intro a0 a1
  unfold execCalReset
  repeat'
    first
    | with_reducible rfl
    | with_reducible apply KeptR.ite
    | with_reducible exact KeptR.stay _
    | with_reducible apply KeptR.next
    | with_reducible apply KeptE.ok
    | with_reducible exact KeptE.error
    | with_reducible apply kept_ite
    | (with_reducible refine KeptR.of (mcRow_kept _ _ _ _ (fun _ => ?_)) ?_)
    | (with_reducible refine KeptE.of (calReset_kept _ _) ?_)
    | (simp [*]; done)
    | split
theorem pdFreeze_kept : ∀ a0 s, KeptE (State.kept s) (pdFreeze a0 s) := by
  intro a0 s
  unfold pdFreeze
  repeat'
    first
    | with_reducible rfl
    | with_reducible apply KeptE.ite
    | with_reducible apply KeptE.ok
    | with_reducible exact KeptE.error
    | with_reducible apply kept_ite
    | (simp [*]; done)
    | split
theorem pdThaw_kept : ∀ a0 s, KeptE (State.kept s) (pdThaw a0 s) := by
  intro a0 s
  unfold pdThaw
  repeat'
    first
    | with_reducible rfl
    | with_reducible apply KeptE.ite
    | with_reducible apply KeptE.ok
    | with_reducible exact KeptE.error
    | with_reducible apply kept_ite
    | (simp [*]; done)
    | split
theorem pdStatus_kept : ∀ a0 s, KeptE (State.kept s) (pdStatus a0 s) := by
  intro a0 s
  unfold pdStatus
  repeat'
    first
    | with_reducible rfl
    | with_reducible apply KeptE.ite
    | with_reducible apply KeptE.ok
    | with_reducible exact KeptE.error
    | with_reducible apply kept_ite
    | (with_reducible refine KeptE.of (State.done_kept _ _ _) ?_)
    | (simp [*]; done)
    | (simp [*, State.done_kept _ _ _ _ (by assumption : State.done _ _ _ = Except.ok _)]; done)
    | split
theorem enginePark_kept : ∀ a0 s, KeptE (State.kept s) (enginePark a0 s) := by
  intro a0 s
  unfold enginePark
  repeat'
    first
    | with_reducible rfl
    | with_reducible apply KeptE.ite
    | with_reducible apply KeptE.ok
    | with_reducible exact KeptE.error
    | with_reducible apply kept_ite
    | (simp [*]; done)
    | split
theorem engineUnpark_kept : ∀ a0 s, KeptE (State.kept s) (engineUnpark a0 s) := by
  intro a0 s
  unfold engineUnpark
  repeat'
    first
    | with_reducible rfl
    | with_reducible apply KeptE.ite
    | with_reducible apply KeptE.ok
    | with_reducible exact KeptE.error
    | with_reducible apply kept_ite
    | (simp [*]; done)
    | split
theorem sliceFold_kept : ∀ a0 a1 s, KeptE (State.kept s) (sliceFold a0 a1 s) := by
  intro a0 a1 s
  unfold sliceFold
  repeat'
    first
    | with_reducible rfl
    | with_reducible apply KeptE.ite
    | with_reducible apply KeptE.ok
    | with_reducible exact KeptE.error
    | with_reducible apply kept_ite
    | (simp [*]; done)
    | split
theorem pwrCfg_kept : ∀ a0 s, KeptE (State.kept s) (pwrCfg a0 s) := by
  intro a0 s
  unfold pwrCfg
  repeat'
    first
    | with_reducible rfl
    | with_reducible apply KeptE.ite
    | with_reducible apply KeptE.ok
    | with_reducible exact KeptE.error
    | with_reducible apply kept_ite
    | (with_reducible refine KeptE.of (State.done_kept _ _ _) ?_)
    | (simp [*]; done)
    | (simp [*, State.done_kept _ _ _ _ (by assumption : State.done _ _ _ = Except.ok _)]; done)
    | split
theorem meshFence_kept : ∀ a0 s, KeptE (State.kept s) (meshFence a0 s) := by
  intro a0 s
  unfold meshFence
  repeat'
    first
    | with_reducible rfl
    | with_reducible apply KeptE.ite
    | with_reducible apply KeptE.ok
    | with_reducible exact KeptE.error
    | with_reducible apply kept_ite
    | (simp [*]; done)
    | split
theorem meshCfg_kept : ∀ a0 s, KeptE (State.kept s) (meshCfg a0 s) := by
  intro a0 s
  unfold meshCfg
  repeat'
    first
    | with_reducible rfl
    | with_reducible apply KeptE.ite
    | with_reducible apply KeptE.ok
    | with_reducible exact KeptE.error
    | with_reducible apply kept_ite
    | (with_reducible refine KeptE.of (State.done_kept _ _ _) ?_)
    | (simp [*]; done)
    | (simp [*, State.done_kept _ _ _ _ (by assumption : State.done _ _ _ = Except.ok _)]; done)
    | split
theorem withEng_kept : ∀ (r : Kept) a0 a1 (h0 : ∀ x, KeptE r (a1 x)), KeptE r (withEng a0 a1) := by
  intro r a0 a1 h0
  unfold withEng
  repeat'
    first
    | with_reducible rfl
    | with_reducible apply KeptE.ite
    | with_reducible apply KeptE.ok
    | with_reducible exact KeptE.error
    | with_reducible apply kept_ite
    | (simp [*]; done)
    | split
theorem arbTickets_kept : ∀ a0 s, KeptE (State.kept s) (arbTickets a0 s) := by
  intro a0 s
  unfold arbTickets
  repeat'
    first
    | with_reducible rfl
    | with_reducible apply KeptE.ite
    | with_reducible apply KeptE.ok
    | with_reducible exact KeptE.error
    | with_reducible apply kept_ite
    | (with_reducible refine KeptE.of (State.done_kept _ _ _) ?_)
    | (simp [*]; done)
    | (simp [*, State.done_kept _ _ _ _ (by assumption : State.done _ _ _ = Except.ok _)]; done)
    | split
theorem arbSystkt_kept : ∀ a0 s, KeptE (State.kept s) (arbSystkt a0 s) := by
  intro a0 s
  unfold arbSystkt
  repeat'
    first
    | with_reducible rfl
    | with_reducible apply KeptE.ite
    | with_reducible apply KeptE.ok
    | with_reducible exact KeptE.error
    | with_reducible apply kept_ite
    | (with_reducible refine KeptE.of (State.done_kept _ _ _) ?_)
    | (simp [*]; done)
    | (simp [*, State.done_kept _ _ _ _ (by assumption : State.done _ _ _ = Except.ok _)]; done)
    | split
theorem arbSeed_kept : ∀ a0 s, KeptE (State.kept s) (arbSeed a0 s) := by
  intro a0 s
  unfold arbSeed
  repeat'
    first
    | with_reducible rfl
    | with_reducible apply KeptE.ite
    | with_reducible apply KeptE.ok
    | with_reducible exact KeptE.error
    | with_reducible apply kept_ite
    | (with_reducible refine KeptE.of (State.done_kept _ _ _) ?_)
    | (with_reducible refine withEng_kept _ _ _ (fun _ => ?_))
    | (simp [*]; done)
    | (simp [*, State.done_kept _ _ _ _ (by assumption : State.done _ _ _ = Except.ok _)]; done)
    | split
theorem arbMode_kept : ∀ a0 s, KeptE (State.kept s) (arbMode a0 s) := by
  intro a0 s
  unfold arbMode
  repeat'
    first
    | with_reducible rfl
    | with_reducible apply KeptE.ite
    | with_reducible apply KeptE.ok
    | with_reducible exact KeptE.error
    | with_reducible apply kept_ite
    | (with_reducible refine KeptE.of (State.done_kept _ _ _) ?_)
    | (simp [*]; done)
    | (simp [*, State.done_kept _ _ _ _ (by assumption : State.done _ _ _ = Except.ok _)]; done)
    | split
theorem arbPreempt_kept : ∀ a0 s, KeptE (State.kept s) (arbPreempt a0 s) := by
  intro a0 s
  unfold arbPreempt
  repeat'
    first
    | with_reducible rfl
    | with_reducible apply KeptE.ite
    | with_reducible apply KeptE.ok
    | with_reducible exact KeptE.error
    | with_reducible apply kept_ite
    | (with_reducible refine KeptE.of (State.done_kept _ _ _) ?_)
    | (with_reducible refine withEng_kept _ _ _ (fun _ => ?_))
    | (simp [*]; done)
    | (simp [*, State.done_kept _ _ _ _ (by assumption : State.done _ _ _ = Except.ok _)]; done)
    | split
theorem arbHoldmax_kept : ∀ a0 s, KeptE (State.kept s) (arbHoldmax a0 s) := by
  intro a0 s
  unfold arbHoldmax
  repeat'
    first
    | with_reducible rfl
    | with_reducible apply KeptE.ite
    | with_reducible apply KeptE.ok
    | with_reducible exact KeptE.error
    | with_reducible apply kept_ite
    | (with_reducible refine KeptE.of (State.done_kept _ _ _) ?_)
    | (with_reducible refine withEng_kept _ _ _ (fun _ => ?_))
    | (simp [*]; done)
    | (simp [*, State.done_kept _ _ _ _ (by assumption : State.done _ _ _ = Except.ok _)]; done)
    | split
@[simp ↓] theorem State.beOff_kept : ∀ a0, (State.beOff a0).kept = a0.kept := by
  intros; simp [State.beOff]
@[simp ↓] theorem State.teOff_kept : ∀ a0 a1, (State.teOff a0 a1).kept = a0.kept := by
  intro a0 a1
  unfold State.teOff
  repeat'
    first
    | with_reducible rfl
    | with_reducible apply kept_ite
    | (extract_lets +onlyGivenNames t; first | (refine kept_cut (x := t) ?_ ?_; (on_goal 1 => subst t); (on_goal 2 => (intro; clear_value t))) | clear_value t)
    | (with_reducible refine kept_foldl (fun _ _ => ?_) ?_)
    | (simp [*]; done)
    | split
theorem engDisable_kept : ∀ a0 s, KeptE (State.kept s) (engDisable a0 s) := by
  intro a0 s
  unfold engDisable
  repeat'
    first
    | with_reducible rfl
    | with_reducible apply KeptE.ite
    | with_reducible apply KeptE.ok
    | with_reducible exact KeptE.error
    | with_reducible apply kept_ite
    | (with_reducible refine withEng_kept _ _ _ (fun _ => ?_))
    | (simp [*]; done)
    | split
theorem engEnable_kept : ∀ a0 s, KeptE (State.kept s) (engEnable a0 s) := by
  intro a0 s
  unfold engEnable
  repeat'
    first
    | with_reducible rfl
    | with_reducible apply KeptE.ite
    | with_reducible apply KeptE.ok
    | with_reducible exact KeptE.error
    | with_reducible apply kept_ite
    | (with_reducible refine KeptE.of (State.done_kept _ _ _) ?_)
    | (with_reducible refine withEng_kept _ _ _ (fun _ => ?_))
    | (simp [*]; done)
    | (simp [*, State.done_kept _ _ _ _ (by assumption : State.done _ _ _ = Except.ok _)]; done)
    | split
theorem arbStatus_kept : ∀ a0 s, KeptE (State.kept s) (arbStatus a0 s) := by
  intro a0 s
  unfold arbStatus
  repeat'
    first
    | with_reducible rfl
    | with_reducible apply KeptE.ite
    | with_reducible apply KeptE.ok
    | with_reducible exact KeptE.error
    | with_reducible apply kept_ite
    | (with_reducible refine KeptE.of (State.done_kept _ _ _) ?_)
    | (with_reducible refine withEng_kept _ _ _ (fun _ => ?_))
    | (simp [*]; done)
    | (simp [*, State.done_kept _ _ _ _ (by assumption : State.done _ _ _ = Except.ok _)]; done)
    | split
theorem firnRotate_kept : ∀ a0 s, KeptE (State.kept s) (firnRotate a0 s) := by
  intro a0 s
  unfold firnRotate
  repeat'
    first
    | with_reducible rfl
    | with_reducible apply KeptE.ite
    | with_reducible apply KeptE.ok
    | with_reducible exact KeptE.error
    | with_reducible apply kept_ite
    | (simp [*]; done)
    | split
theorem firnRebuild_kept : ∀ a0 s, KeptE (State.kept s) (firnRebuild a0 s) := by
  intro a0 s
  unfold firnRebuild
  repeat'
    first
    | with_reducible rfl
    | with_reducible apply KeptE.ite
    | with_reducible apply KeptE.ok
    | with_reducible exact KeptE.error
    | with_reducible apply kept_ite
    | (simp [*]; done)
    | split
theorem churnCfg_kept : ∀ a0 s, KeptE (State.kept s) (churnCfg a0 s) := by
  intro a0 s
  unfold churnCfg
  repeat'
    first
    | with_reducible rfl
    | with_reducible apply KeptE.ite
    | with_reducible apply KeptE.ok
    | with_reducible exact KeptE.error
    | with_reducible apply kept_ite
    | (with_reducible refine KeptE.of (State.done_kept _ _ _) ?_)
    | (simp [*]; done)
    | (simp [*, State.done_kept _ _ _ _ (by assumption : State.done _ _ _ = Except.ok _)]; done)
    | split
theorem sfRebuild_kept : ∀ a0 s, KeptE (State.kept s) (sfRebuild a0 s) := by
  intro a0 s
  unfold sfRebuild
  repeat'
    first
    | with_reducible rfl
    | with_reducible apply KeptE.ite
    | with_reducible apply KeptE.ok
    | with_reducible exact KeptE.error
    | with_reducible apply kept_ite
    | (simp [*]; done)
    | split
theorem execPdFreeze_kept : ∀ a0 a1, KeptR a1.kept (execPdFreeze a0 a1) := by
  intro a0 a1
  unfold execPdFreeze
  repeat'
    first
    | with_reducible rfl
    | with_reducible apply KeptR.ite
    | with_reducible exact KeptR.stay _
    | with_reducible apply KeptR.next
    | with_reducible apply KeptE.ok
    | with_reducible exact KeptE.error
    | with_reducible apply kept_ite
    | (with_reducible refine KeptR.of (mcRow_kept _ _ _ _ (fun _ => ?_)) ?_)
    | (with_reducible refine KeptE.of (pdFreeze_kept _ _) ?_)
    | (simp [*]; done)
    | split
theorem execPdThaw_kept : ∀ a0 a1, KeptR a1.kept (execPdThaw a0 a1) := by
  intro a0 a1
  unfold execPdThaw
  repeat'
    first
    | with_reducible rfl
    | with_reducible apply KeptR.ite
    | with_reducible exact KeptR.stay _
    | with_reducible apply KeptR.next
    | with_reducible apply KeptE.ok
    | with_reducible exact KeptE.error
    | with_reducible apply kept_ite
    | (with_reducible refine KeptR.of (mcRow_kept _ _ _ _ (fun _ => ?_)) ?_)
    | (with_reducible refine KeptE.of (pdThaw_kept _ _) ?_)
    | (simp [*]; done)
    | split
theorem execPdStatus_kept : ∀ a0 a1, KeptR a1.kept (execPdStatus a0 a1) := by
  intro a0 a1
  unfold execPdStatus
  repeat'
    first
    | with_reducible rfl
    | with_reducible apply KeptR.ite
    | with_reducible exact KeptR.stay _
    | with_reducible apply KeptR.next
    | with_reducible apply KeptE.ok
    | with_reducible exact KeptE.error
    | with_reducible apply kept_ite
    | (with_reducible refine KeptR.of (mcRow_kept _ _ _ _ (fun _ => ?_)) ?_)
    | (with_reducible refine KeptE.of (pdStatus_kept _ _) ?_)
    | (simp [*]; done)
    | split
theorem execEnginePark_kept : ∀ a0 a1, KeptR a1.kept (execEnginePark a0 a1) := by
  intro a0 a1
  unfold execEnginePark
  repeat'
    first
    | with_reducible rfl
    | with_reducible apply KeptR.ite
    | with_reducible exact KeptR.stay _
    | with_reducible apply KeptR.next
    | with_reducible apply KeptE.ok
    | with_reducible exact KeptE.error
    | with_reducible apply kept_ite
    | (with_reducible refine KeptR.of (mcRow_kept _ _ _ _ (fun _ => ?_)) ?_)
    | (with_reducible refine KeptE.of (enginePark_kept _ _) ?_)
    | (simp [*]; done)
    | split
theorem execEngineUnpark_kept : ∀ a0 a1, KeptR a1.kept (execEngineUnpark a0 a1) := by
  intro a0 a1
  unfold execEngineUnpark
  repeat'
    first
    | with_reducible rfl
    | with_reducible apply KeptR.ite
    | with_reducible exact KeptR.stay _
    | with_reducible apply KeptR.next
    | with_reducible apply KeptE.ok
    | with_reducible exact KeptE.error
    | with_reducible apply kept_ite
    | (with_reducible refine KeptR.of (mcRow_kept _ _ _ _ (fun _ => ?_)) ?_)
    | (with_reducible refine KeptE.of (engineUnpark_kept _ _) ?_)
    | (simp [*]; done)
    | split
theorem execSliceFold_kept : ∀ a0 a1 a2, KeptR a2.kept (execSliceFold a0 a1 a2) := by
  intro a0 a1 a2
  unfold execSliceFold
  repeat'
    first
    | with_reducible rfl
    | with_reducible apply KeptR.ite
    | with_reducible exact KeptR.stay _
    | with_reducible apply KeptR.next
    | with_reducible apply KeptE.ok
    | with_reducible exact KeptE.error
    | with_reducible apply kept_ite
    | (with_reducible refine KeptR.of (mcRow_kept _ _ _ _ (fun _ => ?_)) ?_)
    | (with_reducible refine KeptE.of (sliceFold_kept _ _ _) ?_)
    | (simp [*]; done)
    | split
theorem execPwrCfg_kept : ∀ a0 a1, KeptR a1.kept (execPwrCfg a0 a1) := by
  intro a0 a1
  unfold execPwrCfg
  repeat'
    first
    | with_reducible rfl
    | with_reducible apply KeptR.ite
    | with_reducible exact KeptR.stay _
    | with_reducible apply KeptR.next
    | with_reducible apply KeptE.ok
    | with_reducible exact KeptE.error
    | with_reducible apply kept_ite
    | (with_reducible refine KeptR.of (mcRow_kept _ _ _ _ (fun _ => ?_)) ?_)
    | (with_reducible refine KeptE.of (pwrCfg_kept _ _) ?_)
    | (simp [*]; done)
    | split
theorem execMeshFence_kept : ∀ a0 a1, KeptR a1.kept (execMeshFence a0 a1) := by
  intro a0 a1
  unfold execMeshFence
  repeat'
    first
    | with_reducible rfl
    | with_reducible apply KeptR.ite
    | with_reducible exact KeptR.stay _
    | with_reducible apply KeptR.next
    | with_reducible apply KeptE.ok
    | with_reducible exact KeptE.error
    | with_reducible apply kept_ite
    | (with_reducible refine KeptR.of (mcRow_kept _ _ _ _ (fun _ => ?_)) ?_)
    | (with_reducible refine KeptE.of (meshFence_kept _ _) ?_)
    | (simp [*]; done)
    | split
theorem execMeshCfg_kept : ∀ a0 a1, KeptR a1.kept (execMeshCfg a0 a1) := by
  intro a0 a1
  unfold execMeshCfg
  repeat'
    first
    | with_reducible rfl
    | with_reducible apply KeptR.ite
    | with_reducible exact KeptR.stay _
    | with_reducible apply KeptR.next
    | with_reducible apply KeptE.ok
    | with_reducible exact KeptE.error
    | with_reducible apply kept_ite
    | (with_reducible refine KeptR.of (mcRow_kept _ _ _ _ (fun _ => ?_)) ?_)
    | (with_reducible refine KeptE.of (meshCfg_kept _ _) ?_)
    | (simp [*]; done)
    | split
theorem execArbTickets_kept : ∀ a0 a1, KeptR a1.kept (execArbTickets a0 a1) := by
  intro a0 a1
  unfold execArbTickets
  repeat'
    first
    | with_reducible rfl
    | with_reducible apply KeptR.ite
    | with_reducible exact KeptR.stay _
    | with_reducible apply KeptR.next
    | with_reducible apply KeptE.ok
    | with_reducible exact KeptE.error
    | with_reducible apply kept_ite
    | (with_reducible refine KeptR.of (mcRow_kept _ _ _ _ (fun _ => ?_)) ?_)
    | (with_reducible refine KeptE.of (arbTickets_kept _ _) ?_)
    | (simp [*]; done)
    | split
theorem execArbSystkt_kept : ∀ a0 a1, KeptR a1.kept (execArbSystkt a0 a1) := by
  intro a0 a1
  unfold execArbSystkt
  repeat'
    first
    | with_reducible rfl
    | with_reducible apply KeptR.ite
    | with_reducible exact KeptR.stay _
    | with_reducible apply KeptR.next
    | with_reducible apply KeptE.ok
    | with_reducible exact KeptE.error
    | with_reducible apply kept_ite
    | (with_reducible refine KeptR.of (mcRow_kept _ _ _ _ (fun _ => ?_)) ?_)
    | (with_reducible refine KeptE.of (arbSystkt_kept _ _) ?_)
    | (simp [*]; done)
    | split
theorem execArbSeed_kept : ∀ a0 a1, KeptR a1.kept (execArbSeed a0 a1) := by
  intro a0 a1
  unfold execArbSeed
  repeat'
    first
    | with_reducible rfl
    | with_reducible apply KeptR.ite
    | with_reducible exact KeptR.stay _
    | with_reducible apply KeptR.next
    | with_reducible apply KeptE.ok
    | with_reducible exact KeptE.error
    | with_reducible apply kept_ite
    | (with_reducible refine KeptR.of (mcRow_kept _ _ _ _ (fun _ => ?_)) ?_)
    | (with_reducible refine KeptE.of (arbSeed_kept _ _) ?_)
    | (simp [*]; done)
    | split
theorem execArbMode_kept : ∀ a0 a1, KeptR a1.kept (execArbMode a0 a1) := by
  intro a0 a1
  unfold execArbMode
  repeat'
    first
    | with_reducible rfl
    | with_reducible apply KeptR.ite
    | with_reducible exact KeptR.stay _
    | with_reducible apply KeptR.next
    | with_reducible apply KeptE.ok
    | with_reducible exact KeptE.error
    | with_reducible apply kept_ite
    | (with_reducible refine KeptR.of (mcRow_kept _ _ _ _ (fun _ => ?_)) ?_)
    | (with_reducible refine KeptE.of (arbMode_kept _ _) ?_)
    | (simp [*]; done)
    | split
theorem execArbPreempt_kept : ∀ a0 a1, KeptR a1.kept (execArbPreempt a0 a1) := by
  intro a0 a1
  unfold execArbPreempt
  repeat'
    first
    | with_reducible rfl
    | with_reducible apply KeptR.ite
    | with_reducible exact KeptR.stay _
    | with_reducible apply KeptR.next
    | with_reducible apply KeptE.ok
    | with_reducible exact KeptE.error
    | with_reducible apply kept_ite
    | (with_reducible refine KeptR.of (mcRow_kept _ _ _ _ (fun _ => ?_)) ?_)
    | (with_reducible refine KeptE.of (arbPreempt_kept _ _) ?_)
    | (simp [*]; done)
    | split
theorem execArbHoldmax_kept : ∀ a0 a1, KeptR a1.kept (execArbHoldmax a0 a1) := by
  intro a0 a1
  unfold execArbHoldmax
  repeat'
    first
    | with_reducible rfl
    | with_reducible apply KeptR.ite
    | with_reducible exact KeptR.stay _
    | with_reducible apply KeptR.next
    | with_reducible apply KeptE.ok
    | with_reducible exact KeptE.error
    | with_reducible apply kept_ite
    | (with_reducible refine KeptR.of (mcRow_kept _ _ _ _ (fun _ => ?_)) ?_)
    | (with_reducible refine KeptE.of (arbHoldmax_kept _ _) ?_)
    | (simp [*]; done)
    | split
theorem execEngDisable_kept : ∀ a0 a1, KeptR a1.kept (execEngDisable a0 a1) := by
  intro a0 a1
  unfold execEngDisable
  repeat'
    first
    | with_reducible rfl
    | with_reducible apply KeptR.ite
    | with_reducible exact KeptR.stay _
    | with_reducible apply KeptR.next
    | with_reducible apply KeptE.ok
    | with_reducible exact KeptE.error
    | with_reducible apply kept_ite
    | (with_reducible refine KeptR.of (mcRow_kept _ _ _ _ (fun _ => ?_)) ?_)
    | (with_reducible refine KeptE.of (engDisable_kept _ _) ?_)
    | (simp [*]; done)
    | split
theorem execEngEnable_kept : ∀ a0 a1, KeptR a1.kept (execEngEnable a0 a1) := by
  intro a0 a1
  unfold execEngEnable
  repeat'
    first
    | with_reducible rfl
    | with_reducible apply KeptR.ite
    | with_reducible exact KeptR.stay _
    | with_reducible apply KeptR.next
    | with_reducible apply KeptE.ok
    | with_reducible exact KeptE.error
    | with_reducible apply kept_ite
    | (with_reducible refine KeptR.of (mcRow_kept _ _ _ _ (fun _ => ?_)) ?_)
    | (with_reducible refine KeptE.of (engEnable_kept _ _) ?_)
    | (simp [*]; done)
    | split
theorem execArbStatus_kept : ∀ a0 a1, KeptR a1.kept (execArbStatus a0 a1) := by
  intro a0 a1
  unfold execArbStatus
  repeat'
    first
    | with_reducible rfl
    | with_reducible apply KeptR.ite
    | with_reducible exact KeptR.stay _
    | with_reducible apply KeptR.next
    | with_reducible apply KeptE.ok
    | with_reducible exact KeptE.error
    | with_reducible apply kept_ite
    | (with_reducible refine KeptR.of (mcRow_kept _ _ _ _ (fun _ => ?_)) ?_)
    | (with_reducible refine KeptE.of (arbStatus_kept _ _) ?_)
    | (simp [*]; done)
    | split
theorem execFirnRotate_kept : ∀ a0 a1, KeptR a1.kept (execFirnRotate a0 a1) := by
  intro a0 a1
  unfold execFirnRotate
  repeat'
    first
    | with_reducible rfl
    | with_reducible apply KeptR.ite
    | with_reducible exact KeptR.stay _
    | with_reducible apply KeptR.next
    | with_reducible apply KeptE.ok
    | with_reducible exact KeptE.error
    | with_reducible apply kept_ite
    | (with_reducible refine KeptR.of (mcRow_kept _ _ _ _ (fun _ => ?_)) ?_)
    | (with_reducible refine KeptE.of (firnRotate_kept _ _) ?_)
    | (simp [*]; done)
    | split
theorem execFirnRebuild_kept : ∀ a0 a1, KeptR a1.kept (execFirnRebuild a0 a1) := by
  intro a0 a1
  unfold execFirnRebuild
  repeat'
    first
    | with_reducible rfl
    | with_reducible apply KeptR.ite
    | with_reducible exact KeptR.stay _
    | with_reducible apply KeptR.next
    | with_reducible apply KeptE.ok
    | with_reducible exact KeptE.error
    | with_reducible apply kept_ite
    | (with_reducible refine KeptR.of (mcRow_kept _ _ _ _ (fun _ => ?_)) ?_)
    | (with_reducible refine KeptE.of (firnRebuild_kept _ _) ?_)
    | (simp [*]; done)
    | split
theorem execChurnCfg_kept : ∀ a0 a1, KeptR a1.kept (execChurnCfg a0 a1) := by
  intro a0 a1
  unfold execChurnCfg
  repeat'
    first
    | with_reducible rfl
    | with_reducible apply KeptR.ite
    | with_reducible exact KeptR.stay _
    | with_reducible apply KeptR.next
    | with_reducible apply KeptE.ok
    | with_reducible exact KeptE.error
    | with_reducible apply kept_ite
    | (with_reducible refine KeptR.of (mcRow_kept _ _ _ _ (fun _ => ?_)) ?_)
    | (with_reducible refine KeptE.of (churnCfg_kept _ _) ?_)
    | (simp [*]; done)
    | split
theorem execSfRebuild_kept : ∀ a0 a1, KeptR a1.kept (execSfRebuild a0 a1) := by
  intro a0 a1
  unfold execSfRebuild
  repeat'
    first
    | with_reducible rfl
    | with_reducible apply KeptR.ite
    | with_reducible exact KeptR.stay _
    | with_reducible apply KeptR.next
    | with_reducible apply KeptE.ok
    | with_reducible exact KeptE.error
    | with_reducible apply kept_ite
    | (with_reducible refine KeptR.of (mcRow_kept _ _ _ _ (fun _ => ?_)) ?_)
    | (with_reducible refine KeptE.of (sfRebuild_kept _ _) ?_)
    | (simp [*]; done)
    | split
theorem profileApply_kept : ∀ a0 s, KeptE (State.kept s) (profileApply a0 s) := by
  intro a0 s
  unfold profileApply
  repeat'
    first
    | with_reducible rfl
    | with_reducible apply KeptE.ite
    | with_reducible apply KeptE.ok
    | with_reducible exact KeptE.error
    | with_reducible apply kept_ite
    | (simp [*]; done)
    | split
theorem profileCommit_kept : ∀ a0 s, KeptE (State.kept s) (profileCommit a0 s) := by
  intro a0 s
  unfold profileCommit
  repeat'
    first
    | with_reducible rfl
    | with_reducible apply KeptE.ite
    | with_reducible apply KeptE.ok
    | with_reducible exact KeptE.error
    | with_reducible apply kept_ite
    | (simp [*]; done)
    | split
theorem profileRead_kept : ∀ a0 s, KeptE (State.kept s) (profileRead a0 s) := by
  intro a0 s
  unfold profileRead
  repeat'
    first
    | with_reducible rfl
    | with_reducible apply KeptE.ite
    | with_reducible apply KeptE.ok
    | with_reducible exact KeptE.error
    | with_reducible apply kept_ite
    | (with_reducible refine KeptE.of (State.done_kept _ _ _) ?_)
    | (simp [*]; done)
    | (simp [*, State.done_kept _ _ _ _ (by assumption : State.done _ _ _ = Except.ok _)]; done)
    | split
theorem obsTraceCfg_kept : ∀ a0 s, KeptE (State.kept s) (obsTraceCfg a0 s) := by
  intro a0 s
  unfold obsTraceCfg
  repeat'
    first
    | with_reducible rfl
    | with_reducible apply KeptE.ite
    | with_reducible apply KeptE.ok
    | with_reducible exact KeptE.error
    | with_reducible apply kept_ite
    | (with_reducible refine KeptE.of (State.done_kept _ _ _) ?_)
    | (simp [*]; done)
    | (simp [*, State.done_kept _ _ _ _ (by assumption : State.done _ _ _ = Except.ok _)]; done)
    | split
theorem obsTraceDump_kept : ∀ a0 s, KeptE (State.kept s) (obsTraceDump a0 s) := by
  intro a0 s
  unfold obsTraceDump
  repeat'
    first
    | with_reducible rfl
    | with_reducible apply KeptE.ite
    | with_reducible apply KeptE.ok
    | with_reducible exact KeptE.error
    | with_reducible apply kept_ite
    | (simp [*]; done)
    | split
theorem obsCntClear_kept : ∀ a0 s, KeptE (State.kept s) (obsCntClear a0 s) := by
  intro a0 s
  unfold obsCntClear
  repeat'
    first
    | with_reducible rfl
    | with_reducible apply KeptE.ite
    | with_reducible apply KeptE.ok
    | with_reducible exact KeptE.error
    | with_reducible apply kept_ite
    | (with_reducible refine KeptE.of (State.done_kept _ _ _) ?_)
    | (simp [*]; done)
    | (simp [*, State.done_kept _ _ _ _ (by assumption : State.done _ _ _ = Except.ok _)]; done)
    | split
theorem obsSetEvents_kept : ∀ a0 s, KeptE (State.kept s) (obsSetEvents a0 s) := by
  intro a0 s
  unfold obsSetEvents
  repeat'
    first
    | with_reducible rfl
    | with_reducible apply KeptE.ite
    | with_reducible apply KeptE.ok
    | with_reducible exact KeptE.error
    | with_reducible apply kept_ite
    | (with_reducible refine KeptE.of (State.done_kept _ _ _) ?_)
    | (simp [*]; done)
    | (simp [*, State.done_kept _ _ _ _ (by assumption : State.done _ _ _ = Except.ok _)]; done)
    | split
theorem errRead_kept : ∀ a0 s, KeptE (State.kept s) (errRead a0 s) := by
  intro a0 s
  unfold errRead
  repeat'
    first
    | with_reducible rfl
    | with_reducible apply KeptE.ite
    | with_reducible apply KeptE.ok
    | with_reducible exact KeptE.error
    | with_reducible apply kept_ite
    | (with_reducible refine KeptE.of (State.done_kept _ _ _) ?_)
    | (simp [*]; done)
    | (simp [*, State.done_kept _ _ _ _ (by assumption : State.done _ _ _ = Except.ok _)]; done)
    | split
theorem vlogRead_kept : ∀ a0 s, KeptE (State.kept s) (vlogRead a0 s) := by
  intro a0 s
  unfold vlogRead
  repeat'
    first
    | with_reducible rfl
    | with_reducible apply KeptE.ite
    | with_reducible apply KeptE.ok
    | with_reducible exact KeptE.error
    | with_reducible apply kept_ite
    | (with_reducible refine KeptE.of (State.done_kept _ _ _) ?_)
    | (simp [*]; done)
    | (simp [*, State.done_kept _ _ _ _ (by assumption : State.done _ _ _ = Except.ok _)]; done)
    | split
theorem errCfg_kept : ∀ a0 s, KeptE (State.kept s) (errCfg a0 s) := by
  intro a0 s
  unfold errCfg
  repeat'
    first
    | with_reducible rfl
    | with_reducible apply KeptE.ite
    | with_reducible apply KeptE.ok
    | with_reducible exact KeptE.error
    | with_reducible apply kept_ite
    | (with_reducible refine KeptE.of (State.done_kept _ _ _) ?_)
    | (simp [*]; done)
    | (simp [*, State.done_kept _ _ _ _ (by assumption : State.done _ _ _ = Except.ok _)]; done)
    | split
theorem execProfileApply_kept : ∀ a0 a1, KeptR a1.kept (execProfileApply a0 a1) := by
  intro a0 a1
  unfold execProfileApply
  repeat'
    first
    | with_reducible rfl
    | with_reducible apply KeptR.ite
    | with_reducible exact KeptR.stay _
    | with_reducible apply KeptR.next
    | with_reducible apply KeptE.ok
    | with_reducible exact KeptE.error
    | with_reducible apply kept_ite
    | (with_reducible refine KeptR.of (mcRow_kept _ _ _ _ (fun _ => ?_)) ?_)
    | (with_reducible refine KeptE.of (profileApply_kept _ _) ?_)
    | (simp [*]; done)
    | split
theorem execProfileCommit_kept : ∀ a0 a1, KeptR a1.kept (execProfileCommit a0 a1) := by
  intro a0 a1
  unfold execProfileCommit
  repeat'
    first
    | with_reducible rfl
    | with_reducible apply KeptR.ite
    | with_reducible exact KeptR.stay _
    | with_reducible apply KeptR.next
    | with_reducible apply KeptE.ok
    | with_reducible exact KeptE.error
    | with_reducible apply kept_ite
    | (with_reducible refine KeptR.of (mcRow_kept _ _ _ _ (fun _ => ?_)) ?_)
    | (with_reducible refine KeptE.of (profileCommit_kept _ _) ?_)
    | (simp [*]; done)
    | split
theorem execProfileRead_kept : ∀ a0 a1, KeptR a1.kept (execProfileRead a0 a1) := by
  intro a0 a1
  unfold execProfileRead
  repeat'
    first
    | with_reducible rfl
    | with_reducible apply KeptR.ite
    | with_reducible exact KeptR.stay _
    | with_reducible apply KeptR.next
    | with_reducible apply KeptE.ok
    | with_reducible exact KeptE.error
    | with_reducible apply kept_ite
    | (with_reducible refine KeptR.of (mcRow_kept _ _ _ _ (fun _ => ?_)) ?_)
    | (with_reducible refine KeptE.of (profileRead_kept _ _) ?_)
    | (simp [*]; done)
    | split
theorem execObsTraceCfg_kept : ∀ a0 a1, KeptR a1.kept (execObsTraceCfg a0 a1) := by
  intro a0 a1
  unfold execObsTraceCfg
  repeat'
    first
    | with_reducible rfl
    | with_reducible apply KeptR.ite
    | with_reducible exact KeptR.stay _
    | with_reducible apply KeptR.next
    | with_reducible apply KeptE.ok
    | with_reducible exact KeptE.error
    | with_reducible apply kept_ite
    | (with_reducible refine KeptR.of (mcRow_kept _ _ _ _ (fun _ => ?_)) ?_)
    | (with_reducible refine KeptE.of (obsTraceCfg_kept _ _) ?_)
    | (simp [*]; done)
    | split
theorem execObsTraceDump_kept : ∀ a0 a1, KeptR a1.kept (execObsTraceDump a0 a1) := by
  intro a0 a1
  unfold execObsTraceDump
  repeat'
    first
    | with_reducible rfl
    | with_reducible apply KeptR.ite
    | with_reducible exact KeptR.stay _
    | with_reducible apply KeptR.next
    | with_reducible apply KeptE.ok
    | with_reducible exact KeptE.error
    | with_reducible apply kept_ite
    | (with_reducible refine KeptR.of (mcRow_kept _ _ _ _ (fun _ => ?_)) ?_)
    | (with_reducible refine KeptE.of (obsTraceDump_kept _ _) ?_)
    | (simp [*]; done)
    | split
theorem execObsCntClear_kept : ∀ a0 a1, KeptR a1.kept (execObsCntClear a0 a1) := by
  intro a0 a1
  unfold execObsCntClear
  repeat'
    first
    | with_reducible rfl
    | with_reducible apply KeptR.ite
    | with_reducible exact KeptR.stay _
    | with_reducible apply KeptR.next
    | with_reducible apply KeptE.ok
    | with_reducible exact KeptE.error
    | with_reducible apply kept_ite
    | (with_reducible refine KeptR.of (mcRow_kept _ _ _ _ (fun _ => ?_)) ?_)
    | (with_reducible refine KeptE.of (obsCntClear_kept _ _) ?_)
    | (simp [*]; done)
    | split
theorem execObsSetEvents_kept : ∀ a0 a1, KeptR a1.kept (execObsSetEvents a0 a1) := by
  intro a0 a1
  unfold execObsSetEvents
  repeat'
    first
    | with_reducible rfl
    | with_reducible apply KeptR.ite
    | with_reducible exact KeptR.stay _
    | with_reducible apply KeptR.next
    | with_reducible apply KeptE.ok
    | with_reducible exact KeptE.error
    | with_reducible apply kept_ite
    | (with_reducible refine KeptR.of (mcRow_kept _ _ _ _ (fun _ => ?_)) ?_)
    | (with_reducible refine KeptE.of (obsSetEvents_kept _ _) ?_)
    | (simp [*]; done)
    | split
theorem execErrRead_kept : ∀ a0 a1, KeptR a1.kept (execErrRead a0 a1) := by
  intro a0 a1
  unfold execErrRead
  repeat'
    first
    | with_reducible rfl
    | with_reducible apply KeptR.ite
    | with_reducible exact KeptR.stay _
    | with_reducible apply KeptR.next
    | with_reducible apply KeptE.ok
    | with_reducible exact KeptE.error
    | with_reducible apply kept_ite
    | (with_reducible refine KeptR.of (mcRow_kept _ _ _ _ (fun _ => ?_)) ?_)
    | (with_reducible refine KeptE.of (errRead_kept _ _) ?_)
    | (simp [*]; done)
    | split
theorem execVlogRead_kept : ∀ a0 a1, KeptR a1.kept (execVlogRead a0 a1) := by
  intro a0 a1
  unfold execVlogRead
  repeat'
    first
    | with_reducible rfl
    | with_reducible apply KeptR.ite
    | with_reducible exact KeptR.stay _
    | with_reducible apply KeptR.next
    | with_reducible apply KeptE.ok
    | with_reducible exact KeptE.error
    | with_reducible apply kept_ite
    | (with_reducible refine KeptR.of (mcRow_kept _ _ _ _ (fun _ => ?_)) ?_)
    | (with_reducible refine KeptE.of (vlogRead_kept _ _) ?_)
    | (simp [*]; done)
    | split
theorem execErrCfg_kept : ∀ a0 a1, KeptR a1.kept (execErrCfg a0 a1) := by
  intro a0 a1
  unfold execErrCfg
  repeat'
    first
    | with_reducible rfl
    | with_reducible apply KeptR.ite
    | with_reducible exact KeptR.stay _
    | with_reducible apply KeptR.next
    | with_reducible apply KeptE.ok
    | with_reducible exact KeptE.error
    | with_reducible apply kept_ite
    | (with_reducible refine KeptR.of (mcRow_kept _ _ _ _ (fun _ => ?_)) ?_)
    | (with_reducible refine KeptE.of (errCfg_kept _ _) ?_)
    | (simp [*]; done)
    | split
@[simp ↓] theorem State.mruleRec_kept : ∀ a0 a1 a2, (State.mruleRec a0 a1 a2).kept = a0.kept := by
  intro a0 a1 a2
  unfold State.mruleRec
  repeat'
    first
    | with_reducible rfl
    | with_reducible apply kept_ite
    | (simp [*]; done)
    | split
@[simp ↓] theorem State.ungate_kept : ∀ a0 a1, (State.ungate a0 a1).kept = a0.kept := by
  intro a0 a1
  unfold State.ungate
  repeat'
    first
    | with_reducible rfl
    | with_reducible apply kept_ite
    | (with_reducible refine kept_foldl (fun _ _ => ?_) ?_)
    | (simp [*]; done)
    | split
@[simp ↓] theorem State.regain_kept : ∀ a0, (State.regain a0).kept = a0.kept := by
  intro a0
  unfold State.regain
  repeat'
    first
    | with_reducible rfl
    | with_reducible assumption
    | with_reducible apply kept_ite
    | with_reducible apply kept_ite1
    | (extract_lets +onlyGivenNames s1; first | (refine kept_cut (x := s1) ?_ ?_; (on_goal 1 => subst s1); (on_goal 2 => (intro h; clear_value s1))) | (refine kept_cut1 (State.kept a0) (x := s1) ?_ ?_; (on_goal 1 => subst s1); (on_goal 2 => (intro h; clear_value s1))) | (refine kept_cutP (State.kept a0) (x := s1) ?_ ?_; (on_goal 1 => subst s1); (on_goal 2 => (intro h; clear_value s1))) |  ((have _h : ∀ x, State.kept (s1 x) = State.kept (s1 x) := fun _ => rfl); clear _h; subst s1) | ((have _h : ∀ x y, State.kept (s1 x y) = State.kept (s1 x y) := fun _ _ => rfl); clear _h; subst s1) | ((have _h : ∀ x y z, State.kept (s1 x y z) = State.kept (s1 x y z) := fun _ _ _ => rfl); clear _h; subst s1) | ((have _h : ∀ x y z w, State.kept (s1 x y z w) = State.kept (s1 x y z w) := fun _ _ _ _ => rfl); clear _h; subst s1) | ((have _h : Mc := s1); clear _h; subst s1) | ((have _h : Regs := s1); clear _h; subst s1) | clear_value s1)
    | with_reducible apply kept_ite
    | (with_reducible refine kept_foldl (fun _ _ => ?_) ?_)
    | (with_reducible refine kept_foldl1 (fun _ _ => ?_) ?_)
    | (with_reducible refine kept_foldr (fun _ _ => ?_) ?_)
    | (with_reducible refine kept_getD ?_ ?_)
    | (simp [*]; done)
    | split
    | (intros; simp only [↓kept_mk, kept_fold])
    | simp [*]
@[simp ↓] theorem State.renew_kept : ∀ a0, (State.renew a0).kept = a0.kept := by
  intros; simp [State.renew]
theorem execTwinLinkUp_kept : ∀ a0, KeptR a0.kept (execTwinLinkUp a0) := by
  intro a0
  unfold execTwinLinkUp
  repeat'
    first
    | with_reducible rfl
    | with_reducible apply KeptR.ite
    | with_reducible exact KeptR.stay _
    | with_reducible apply KeptR.next
    | with_reducible apply KeptE.ok
    | with_reducible exact KeptE.error
    | with_reducible apply kept_ite
    | (with_reducible refine KeptR.of (stay_kept _) ?_)
    | (simp [*]; done)
    | (simp [*, stay_kept _ _ (by assumption : stay _ = Host.Outcome.next _)]; done)
    | split
theorem execTwLupLow_kept : ∀ a0 a1, KeptR a1.kept (execTwLupLow a0 a1) := by
  intro a0 a1
  unfold execTwLupLow
  repeat'
    first
    | with_reducible rfl
    | with_reducible apply KeptR.ite
    | with_reducible exact KeptR.stay _
    | with_reducible apply KeptR.next
    | with_reducible apply KeptE.ok
    | with_reducible exact KeptE.error
    | with_reducible apply kept_ite
    | (simp [*]; done)
    | split
theorem execThbSend_kept : ∀ a0 a1, KeptR a1.kept (execThbSend a0 a1) := by
  intro a0 a1
  unfold execThbSend
  repeat'
    first
    | with_reducible rfl
    | with_reducible apply KeptR.ite
    | with_reducible exact KeptR.stay _
    | with_reducible apply KeptR.next
    | with_reducible apply KeptE.ok
    | with_reducible exact KeptE.error
    | with_reducible apply kept_ite
    | (with_reducible refine KeptR.of (stay_kept _) ?_)
    | (simp [*]; done)
    | (simp [*, stay_kept _ _ (by assumption : stay _ = Host.Outcome.next _)]; done)
    | split
theorem execTwinPacket_kept : ∀ a0 a1, KeptR a1.kept (execTwinPacket a0 a1) := by
  intro a0 a1
  unfold execTwinPacket
  repeat'
    first
    | with_reducible rfl
    | with_reducible apply KeptR.ite
    | with_reducible exact KeptR.stay _
    | with_reducible apply KeptR.next
    | with_reducible apply KeptE.ok
    | with_reducible exact KeptE.error
    | with_reducible apply kept_ite
    | (with_reducible refine KeptR.of (stay_kept _) ?_)
    | (simp [*]; done)
    | (simp [*, stay_kept _ _ (by assumption : stay _ = Host.Outcome.next _)]; done)
    | split
theorem execTwinLeaseLapse_kept : ∀ a0, KeptR a0.kept (execTwinLeaseLapse a0) := by
  intro a0
  unfold execTwinLeaseLapse
  repeat'
    first
    | with_reducible rfl
    | with_reducible apply KeptR.ite
    | with_reducible exact KeptR.stay _
    | with_reducible apply KeptR.next
    | with_reducible apply KeptE.ok
    | with_reducible exact KeptE.error
    | with_reducible apply kept_ite
    | (with_reducible refine KeptR.of (stay_kept _) ?_)
    | (simp [*]; done)
    | (simp [*, stay_kept _ _ (by assumption : stay _ = Host.Outcome.next _)]; done)
    | split
@[simp ↓] theorem State.uncacheTwin_kept : ∀ a0 a1, (State.uncacheTwin a0 a1).kept = a0.kept := by
  intros; simp [State.uncacheTwin]
@[simp ↓] theorem State.dropEntries_kept : ∀ a0 a1, (State.dropEntries a0 a1).kept = a0.kept := by
  intros; simp [State.dropEntries]
@[simp ↓] theorem State.dropStore_kept : ∀ a0 a1, (State.dropStore a0 a1).kept = a0.kept := by
  intros; simp [State.dropStore]
@[simp ↓] theorem State.roleNone_kept : ∀ a0 a1, (State.roleNone a0 a1).kept = a0.kept := by
  intros; unfold State.roleNone; split <;> simp
@[simp ↓] theorem State.supersede_kept : ∀ a0 a1, (State.supersede a0 a1).kept = a0.kept := by
  intro a0 a1
  unfold State.supersede
  repeat'
    first
    | with_reducible rfl
    | with_reducible apply kept_ite
    | (extract_lets +onlyGivenNames t; first | (refine kept_cut (x := t) ?_ ?_; (on_goal 1 => subst t); (on_goal 2 => (intro; clear_value t))) | clear_value t)
    | (with_reducible refine kept_foldl (fun _ _ => ?_) ?_)
    | (simp [*]; done)
    | split
@[simp ↓] theorem State.helloInst_kept : ∀ a0 a1, (State.helloInst a0 a1).kept = a0.kept := by
  intro a0 a1
  unfold State.helloInst
  repeat'
    first
    | with_reducible rfl
    | with_reducible apply kept_ite
    | (simp [*]; done)
    | split
theorem execThello_kept : ∀ a0 a1 a2 a3 a4, KeptR a4.kept (execThello a0 a1 a2 a3 a4) := by
  intro a0 a1 a2 a3 a4
  unfold execThello
  repeat'
    first
    | with_reducible rfl
    | with_reducible assumption
    | with_reducible apply KeptR.ite
    | with_reducible apply kept_ite
    | with_reducible apply kept_ite1
    | (extract_lets +onlyGivenNames s1; first | (refine kept_cut (x := s1) ?_ ?_; (on_goal 1 => subst s1); (on_goal 2 => (intro h; clear_value s1))) | (refine kept_cut1 (State.kept a4) (x := s1) ?_ ?_; (on_goal 1 => subst s1); (on_goal 2 => (intro h; clear_value s1))) | (refine kept_cutP (State.kept a4) (x := s1) ?_ ?_; (on_goal 1 => subst s1); (on_goal 2 => (intro h; clear_value s1))) |  ((have _h : ∀ x, State.kept (s1 x) = State.kept (s1 x) := fun _ => rfl); clear _h; subst s1) | ((have _h : ∀ x y, State.kept (s1 x y) = State.kept (s1 x y) := fun _ _ => rfl); clear _h; subst s1) | ((have _h : ∀ x y z, State.kept (s1 x y z) = State.kept (s1 x y z) := fun _ _ _ => rfl); clear _h; subst s1) | ((have _h : ∀ x y z w, State.kept (s1 x y z w) = State.kept (s1 x y z w) := fun _ _ _ _ => rfl); clear _h; subst s1) | ((have _h : Mc := s1); clear _h; subst s1) | ((have _h : Regs := s1); clear _h; subst s1) | clear_value s1)
    | with_reducible apply kept_ite
    | (with_reducible refine kept_foldl (fun _ _ => ?_) ?_)
    | (with_reducible refine kept_foldl1 (fun _ _ => ?_) ?_)
    | (with_reducible refine kept_foldr (fun _ _ => ?_) ?_)
    | with_reducible exact KeptR.stay _
    | with_reducible apply KeptR.next
    | with_reducible apply KeptE.ok
    | with_reducible exact KeptE.error
    | (with_reducible refine KeptR.of (stay_kept _) ?_)
    | (with_reducible refine kept_getD ?_ ?_)
    | (simp [*]; done)
    | (simp [*, stay_kept _ _ (by assumption : Sys2Proof.Machine.stay _ = Host.Outcome.next _)]; done)
    | split
    | (intros; simp only [↓kept_mk, kept_fold])
    | simp [*]
@[simp ↓] theorem State.took_kept : ∀ a0 a1 a2 a3, (State.took a0 a1 a2 a3).kept = a0.kept := by
  intro a0 a1 a2 a3
  unfold State.took
  repeat'
    first
    | with_reducible rfl
    | with_reducible apply kept_ite
    | (simp [*]; done)
    | split
theorem mirRow_kept : ∀ a0 a1 a2 a3 (h0 : ∀ s, (a2 s).kept = s.kept), KeptR a3.kept (mirRow a0 a1 a2 a3) := by
  intro a0 a1 a2 a3 h0
  unfold mirRow
  repeat'
    first
    | with_reducible rfl
    | with_reducible apply KeptR.ite
    | with_reducible exact KeptR.stay _
    | with_reducible apply KeptR.next
    | with_reducible apply KeptE.ok
    | with_reducible exact KeptE.error
    | with_reducible apply kept_ite
    | (with_reducible refine KeptR.of (stay_kept _) ?_)
    | (simp [*]; done)
    | (simp [*, stay_kept _ _ (by assumption : stay _ = Host.Outcome.next _)]; done)
    | split
@[simp ↓] theorem State.mirPlace_kept : ∀ a0 a1 a2 a3, (State.mirPlace a0 a1 a2 a3).kept = a0.kept := by
  intro a0 a1 a2 a3
  unfold State.mirPlace
  repeat'
    first
    | with_reducible rfl
    | with_reducible apply kept_ite
    | (with_reducible refine KeptOO.of (State.toWay_kept _ _ _ _) ?_)
    | (simp [*]; done)
    | (simp [*, State.toWay_kept _ _ _ _ _ (by assumption : State.toWay _ _ _ _ = some (some _))]; done)
    | split
@[simp ↓] theorem State.mirDir_kept : ∀ a0 a1, (State.mirDir a0 a1).kept = a0.kept := by
  intro a0 a1
  unfold State.mirDir
  repeat'
    first
    | with_reducible rfl
    | with_reducible apply kept_ite
    | (extract_lets +onlyGivenNames t; first | (refine kept_cut (x := t) ?_ ?_; (on_goal 1 => subst t); (on_goal 2 => (intro; clear_value t))) | clear_value t)
    | (simp [*]; done)
    | split
theorem execMdir_kept : ∀ a0 a1, KeptR a1.kept (execMdir a0 a1) := by
  intro a0 a1
  unfold execMdir
  repeat'
    first
    | with_reducible rfl
    | with_reducible apply KeptR.ite
    | with_reducible exact KeptR.stay _
    | with_reducible apply KeptR.next
    | with_reducible apply KeptE.ok
    | with_reducible exact KeptE.error
    | with_reducible apply kept_ite
    | (with_reducible refine KeptR.of (mirRow_kept _ _ _ _ (fun _ => ?_)) ?_)
    | (simp [*]; done)
    | split
theorem execMline_kept : ∀ a0 a1 a2, KeptR a2.kept (execMline a0 a1 a2) := by
  intro a0 a1 a2
  unfold execMline
  repeat'
    first
    | with_reducible rfl
    | with_reducible apply KeptR.ite
    | with_reducible exact KeptR.stay _
    | with_reducible apply KeptR.next
    | with_reducible apply KeptE.ok
    | with_reducible exact KeptE.error
    | with_reducible apply kept_ite
    | (with_reducible refine KeptR.of (mirRow_kept _ _ _ _ (fun _ => ?_)) ?_)
    | (simp [*]; done)
    | split
theorem execMldone_kept : ∀ a0 a1, KeptR a1.kept (execMldone a0 a1) := by
  intro a0 a1
  unfold execMldone
  repeat'
    first
    | with_reducible rfl
    | with_reducible apply KeptR.ite
    | with_reducible exact KeptR.stay _
    | with_reducible apply KeptR.next
    | with_reducible apply KeptE.ok
    | with_reducible exact KeptE.error
    | with_reducible apply kept_ite
    | (with_reducible refine KeptR.of (mirRow_kept _ _ _ _ (fun _ => ?_)) ?_)
    | (simp [*]; done)
    | split
theorem execMgline_kept : ∀ a0 a1 a2, KeptR a2.kept (execMgline a0 a1 a2) := by
  intro a0 a1 a2
  unfold execMgline
  repeat'
    first
    | with_reducible rfl
    | with_reducible apply KeptR.ite
    | with_reducible exact KeptR.stay _
    | with_reducible apply KeptR.next
    | with_reducible apply KeptE.ok
    | with_reducible exact KeptE.error
    | with_reducible apply kept_ite
    | (with_reducible refine KeptR.of (mirRow_kept _ _ _ _ (fun _ => ?_)) ?_)
    | (simp [*]; done)
    | split
theorem execMgend_kept : ∀ a0 a1, KeptR a1.kept (execMgend a0 a1) := by
  intro a0 a1
  unfold execMgend
  repeat'
    first
    | with_reducible rfl
    | with_reducible apply KeptR.ite
    | with_reducible exact KeptR.stay _
    | with_reducible apply KeptR.next
    | with_reducible apply KeptE.ok
    | with_reducible exact KeptE.error
    | with_reducible apply kept_ite
    | (with_reducible refine KeptR.of (mirRow_kept _ _ _ _ (fun _ => ?_)) ?_)
    | (with_reducible refine kept_foldl (fun _ _ => ?_) ?_)
    | (simp [*]; done)
    | split
theorem execMrot_kept : ∀ a0 a1, KeptR a1.kept (execMrot a0 a1) := by
  intro a0 a1
  unfold execMrot
  repeat'
    first
    | with_reducible rfl
    | with_reducible apply KeptR.ite
    | with_reducible exact KeptR.stay _
    | with_reducible apply KeptR.next
    | with_reducible apply KeptE.ok
    | with_reducible exact KeptE.error
    | with_reducible apply kept_ite
    | (with_reducible refine KeptR.of (mirRow_kept _ _ _ _ (fun _ => ?_)) ?_)
    | (simp [*]; done)
    | split
theorem execMhold_kept : ∀ a0 a1, KeptR a1.kept (execMhold a0 a1) := by
  intro a0 a1
  unfold execMhold
  repeat'
    first
    | with_reducible rfl
    | with_reducible apply KeptR.ite
    | with_reducible exact KeptR.stay _
    | with_reducible apply KeptR.next
    | with_reducible apply KeptE.ok
    | with_reducible exact KeptE.error
    | with_reducible apply kept_ite
    | (with_reducible refine KeptR.of (mirRow_kept _ _ _ _ (fun _ => ?_)) ?_)
    | (simp [*]; done)
    | split
theorem execMsynce_kept : ∀ a0 a1, KeptR a1.kept (execMsynce a0 a1) := by
  intro a0 a1
  unfold execMsynce
  repeat'
    first
    | with_reducible rfl
    | with_reducible apply KeptR.ite
    | with_reducible exact KeptR.stay _
    | with_reducible apply KeptR.next
    | with_reducible apply KeptE.ok
    | with_reducible exact KeptE.error
    | with_reducible apply kept_ite
    | (with_reducible refine KeptR.of (mirRow_kept _ _ _ _ (fun _ => ?_)) ?_)
    | (simp [*]; done)
    | split
@[simp ↓] theorem State.joinMember_kept : ∀ a0 a1 a2, (State.joinMember a0 a1 a2).kept = a0.kept := by
  intros; unfold State.joinMember; split <;> simp
@[simp ↓] theorem State.leaveMember_kept : ∀ a0 a1 a2 a3, (State.leaveMember a0 a1 a2 a3).kept = a0.kept := by
  intro a0 a1 a2 a3
  unfold State.leaveMember
  repeat'
    first
    | with_reducible rfl
    | with_reducible apply kept_ite
    | (simp [*]; done)
    | split
@[simp ↓] theorem State.applyRule_kept : ∀ a0 a1 a2 a3, (State.applyRule a0 a1 a2 a3).kept = a0.kept := by
  intros; unfold State.applyRule; split <;> simp
theorem execMrule_kept : ∀ a0 a1 a2, KeptR a2.kept (execMrule a0 a1 a2) := by
  intro a0 a1 a2
  unfold execMrule
  repeat'
    first
    | with_reducible rfl
    | with_reducible apply KeptR.ite
    | with_reducible exact KeptR.stay _
    | with_reducible apply KeptR.next
    | with_reducible apply KeptE.ok
    | with_reducible exact KeptE.error
    | with_reducible apply kept_ite
    | (with_reducible refine KeptR.of (stay_kept _) ?_)
    | (simp [*]; done)
    | (simp [*, stay_kept _ _ (by assumption : stay _ = Host.Outcome.next _)]; done)
    | split
@[simp ↓] theorem State.handoverGo_kept : ∀ a0 a1, (State.handoverGo a0 a1).kept = a0.kept := by
  intro a0 a1
  unfold State.handoverGo
  repeat'
    first
    | with_reducible rfl
    | with_reducible apply kept_ite
    | (with_reducible refine KeptE.of (State.done_kept _ _ _) ?_)
    | (simp [*]; done)
    | (simp [*, State.done_kept _ _ _ _ (by assumption : State.done _ _ _ = Except.ok _)]; done)
    | split
theorem execMack_kept : ∀ a0 a1 a2 a3, KeptR a3.kept (execMack a0 a1 a2 a3) := by
  intro a0 a1 a2 a3
  unfold execMack
  repeat'
    first
    | with_reducible rfl
    | with_reducible apply KeptR.ite
    | with_reducible exact KeptR.stay _
    | with_reducible apply KeptR.next
    | with_reducible apply KeptE.ok
    | with_reducible exact KeptE.error
    | with_reducible apply kept_ite
    | (with_reducible refine KeptR.of (stay_kept _) ?_)
    | (simp [*]; done)
    | (simp [*, stay_kept _ _ (by assumption : stay _ = Host.Outcome.next _)]; done)
    | split
theorem twinRole_kept : ∀ a0 a1 a2 s, KeptE (State.kept s) (twinRole a0 a1 a2 s) := by
  intro a0 a1 a2 s
  unfold twinRole
  repeat'
    first
    | with_reducible rfl
    | with_reducible apply KeptE.ite
    | with_reducible apply KeptE.ok
    | with_reducible exact KeptE.error
    | with_reducible apply kept_ite
    | (with_reducible refine KeptE.of (State.done_kept _ _ _) ?_)
    | (simp [*]; done)
    | (simp [*, State.done_kept _ _ _ _ (by assumption : State.done _ _ _ = Except.ok _)]; done)
    | split
theorem twinRelease_kept : ∀ a0 a1 s, KeptE (State.kept s) (twinRelease a0 a1 s) := by
  intro a0 a1 s
  unfold twinRelease
  repeat'
    first
    | with_reducible rfl
    | with_reducible apply KeptE.ite
    | with_reducible apply KeptE.ok
    | with_reducible exact KeptE.error
    | with_reducible apply kept_ite
    | (with_reducible refine KeptE.of (State.done_kept _ _ _) ?_)
    | (simp [*]; done)
    | (simp [*, State.done_kept _ _ _ _ (by assumption : State.done _ _ _ = Except.ok _)]; done)
    | split
theorem twinHandover_kept : ∀ a0 s, KeptE (State.kept s) (twinHandover a0 s) := by
  intro a0 s
  unfold twinHandover
  repeat'
    first
    | with_reducible rfl
    | with_reducible apply KeptE.ite
    | with_reducible apply KeptE.ok
    | with_reducible exact KeptE.error
    | with_reducible apply kept_ite
    | (simp [*]; done)
    | split
@[simp ↓] theorem State.takeLines_kept : ∀ a0 a1, (State.takeLines a0 a1).kept = a0.kept := by
  intro a0 a1
  unfold State.takeLines
  repeat'
    first
    | with_reducible rfl
    | with_reducible apply kept_ite
    | (with_reducible refine kept_foldl (fun _ _ => ?_) ?_)
    | (simp [*]; done)
    | split
theorem twinTakeover_kept : ∀ a0 s, KeptE (State.kept s) (twinTakeover a0 s) := by
  intro a0 s
  unfold twinTakeover
  repeat'
    first
    | with_reducible rfl
    | with_reducible apply KeptE.ite
    | with_reducible apply KeptE.ok
    | with_reducible exact KeptE.error
    | with_reducible apply kept_ite
    | (with_reducible refine KeptE.of (State.done_kept _ _ _) ?_)
    | (simp [*]; done)
    | (simp [*, State.done_kept _ _ _ _ (by assumption : State.done _ _ _ = Except.ok _)]; done)
    | split
theorem twinResync_kept : ∀ a0 s, KeptE (State.kept s) (twinResync a0 s) := by
  intro a0 s
  unfold twinResync
  repeat'
    first
    | with_reducible rfl
    | with_reducible apply KeptE.ite
    | with_reducible apply KeptE.ok
    | with_reducible exact KeptE.error
    | with_reducible apply kept_ite
    | (simp [*]; done)
    | split
theorem twinLevelRaise_kept : ∀ a0 s, KeptE (State.kept s) (twinLevelRaise a0 s) := by
  intro a0 s
  unfold twinLevelRaise
  repeat'
    first
    | with_reducible rfl
    | with_reducible apply KeptE.ite
    | with_reducible apply KeptE.ok
    | with_reducible exact KeptE.error
    | with_reducible apply kept_ite
    | (with_reducible refine KeptE.of (State.done_kept _ _ _) ?_)
    | (simp [*]; done)
    | (simp [*, State.done_kept _ _ _ _ (by assumption : State.done _ _ _ = Except.ok _)]; done)
    | split
theorem twinCfg_kept : ∀ a0 s, KeptE (State.kept s) (twinCfg a0 s) := by
  intro a0 s
  unfold twinCfg
  repeat'
    first
    | with_reducible rfl
    | with_reducible apply KeptE.ite
    | with_reducible apply KeptE.ok
    | with_reducible exact KeptE.error
    | with_reducible apply kept_ite
    | (with_reducible refine KeptE.of (State.done_kept _ _ _) ?_)
    | (simp [*]; done)
    | (simp [*, State.done_kept _ _ _ _ (by assumption : State.done _ _ _ = Except.ok _)]; done)
    | split
theorem twinStatus_kept : ∀ a0 s, KeptE (State.kept s) (twinStatus a0 s) := by
  intro a0 s
  unfold twinStatus
  repeat'
    first
    | with_reducible rfl
    | with_reducible apply KeptE.ite
    | with_reducible apply KeptE.ok
    | with_reducible exact KeptE.error
    | with_reducible apply kept_ite
    | (with_reducible refine KeptE.of (State.done_kept _ _ _) ?_)
    | (simp [*]; done)
    | (simp [*, State.done_kept _ _ _ _ (by assumption : State.done _ _ _ = Except.ok _)]; done)
    | split
theorem execTwinRole_kept : ∀ a0 a1 a2 a3, KeptR a3.kept (execTwinRole a0 a1 a2 a3) := by
  intro a0 a1 a2 a3
  unfold execTwinRole
  repeat'
    first
    | with_reducible rfl
    | with_reducible apply KeptR.ite
    | with_reducible exact KeptR.stay _
    | with_reducible apply KeptR.next
    | with_reducible apply KeptE.ok
    | with_reducible exact KeptE.error
    | with_reducible apply kept_ite
    | (with_reducible refine KeptR.of (mcRow_kept _ _ _ _ (fun _ => ?_)) ?_)
    | (with_reducible refine KeptE.of (twinRole_kept _ _ _ _) ?_)
    | (simp [*]; done)
    | split
theorem execTwinRelease_kept : ∀ a0 a1 a2, KeptR a2.kept (execTwinRelease a0 a1 a2) := by
  intro a0 a1 a2
  unfold execTwinRelease
  repeat'
    first
    | with_reducible rfl
    | with_reducible apply KeptR.ite
    | with_reducible exact KeptR.stay _
    | with_reducible apply KeptR.next
    | with_reducible apply KeptE.ok
    | with_reducible exact KeptE.error
    | with_reducible apply kept_ite
    | (with_reducible refine KeptR.of (mcRow_kept _ _ _ _ (fun _ => ?_)) ?_)
    | (with_reducible refine KeptE.of (twinRelease_kept _ _ _) ?_)
    | (simp [*]; done)
    | split
theorem execTwinHandover_kept : ∀ a0 a1, KeptR a1.kept (execTwinHandover a0 a1) := by
  intro a0 a1
  unfold execTwinHandover
  repeat'
    first
    | with_reducible rfl
    | with_reducible apply KeptR.ite
    | with_reducible exact KeptR.stay _
    | with_reducible apply KeptR.next
    | with_reducible apply KeptE.ok
    | with_reducible exact KeptE.error
    | with_reducible apply kept_ite
    | (with_reducible refine KeptR.of (mcRow_kept _ _ _ _ (fun _ => ?_)) ?_)
    | (with_reducible refine KeptE.of (twinHandover_kept _ _) ?_)
    | (simp [*]; done)
    | split
theorem execTwinTakeover_kept : ∀ a0 a1, KeptR a1.kept (execTwinTakeover a0 a1) := by
  intro a0 a1
  unfold execTwinTakeover
  repeat'
    first
    | with_reducible rfl
    | with_reducible apply KeptR.ite
    | with_reducible exact KeptR.stay _
    | with_reducible apply KeptR.next
    | with_reducible apply KeptE.ok
    | with_reducible exact KeptE.error
    | with_reducible apply kept_ite
    | (with_reducible refine KeptR.of (mcRow_kept _ _ _ _ (fun _ => ?_)) ?_)
    | (with_reducible refine KeptE.of (twinTakeover_kept _ _) ?_)
    | (simp [*]; done)
    | split
theorem execTwinResync_kept : ∀ a0 a1, KeptR a1.kept (execTwinResync a0 a1) := by
  intro a0 a1
  unfold execTwinResync
  repeat'
    first
    | with_reducible rfl
    | with_reducible apply KeptR.ite
    | with_reducible exact KeptR.stay _
    | with_reducible apply KeptR.next
    | with_reducible apply KeptE.ok
    | with_reducible exact KeptE.error
    | with_reducible apply kept_ite
    | (with_reducible refine KeptR.of (mcRow_kept _ _ _ _ (fun _ => ?_)) ?_)
    | (with_reducible refine KeptE.of (twinResync_kept _ _) ?_)
    | (simp [*]; done)
    | split
theorem execTwinLevelRaise_kept : ∀ a0 a1, KeptR a1.kept (execTwinLevelRaise a0 a1) := by
  intro a0 a1
  unfold execTwinLevelRaise
  repeat'
    first
    | with_reducible rfl
    | with_reducible apply KeptR.ite
    | with_reducible exact KeptR.stay _
    | with_reducible apply KeptR.next
    | with_reducible apply KeptE.ok
    | with_reducible exact KeptE.error
    | with_reducible apply kept_ite
    | (with_reducible refine KeptR.of (mcRow_kept _ _ _ _ (fun _ => ?_)) ?_)
    | (with_reducible refine KeptE.of (twinLevelRaise_kept _ _) ?_)
    | (simp [*]; done)
    | split
theorem execTwinCfg_kept : ∀ a0 a1, KeptR a1.kept (execTwinCfg a0 a1) := by
  intro a0 a1
  unfold execTwinCfg
  repeat'
    first
    | with_reducible rfl
    | with_reducible apply KeptR.ite
    | with_reducible exact KeptR.stay _
    | with_reducible apply KeptR.next
    | with_reducible apply KeptE.ok
    | with_reducible exact KeptE.error
    | with_reducible apply kept_ite
    | (with_reducible refine KeptR.of (mcRow_kept _ _ _ _ (fun _ => ?_)) ?_)
    | (with_reducible refine KeptE.of (twinCfg_kept _ _) ?_)
    | (simp [*]; done)
    | split
theorem execTwinStatus_kept : ∀ a0 a1, KeptR a1.kept (execTwinStatus a0 a1) := by
  intro a0 a1
  unfold execTwinStatus
  repeat'
    first
    | with_reducible rfl
    | with_reducible apply KeptR.ite
    | with_reducible exact KeptR.stay _
    | with_reducible apply KeptR.next
    | with_reducible apply KeptE.ok
    | with_reducible exact KeptE.error
    | with_reducible apply kept_ite
    | (with_reducible refine KeptR.of (mcRow_kept _ _ _ _ (fun _ => ?_)) ?_)
    | (with_reducible refine KeptE.of (twinStatus_kept _ _) ?_)
    | (simp [*]; done)
    | split
theorem execCommandSlotWrite_kept : ∀ a0 a1 a2, KeptR a2.kept (execCommandSlotWrite a0 a1 a2) := by
  intro a0 a1 a2
  unfold execCommandSlotWrite
  repeat'
    first
    | with_reducible rfl
    | with_reducible apply KeptR.ite
    | with_reducible exact KeptR.stay _
    | with_reducible apply KeptR.next
    | with_reducible apply KeptE.ok
    | with_reducible exact KeptE.error
    | with_reducible apply kept_ite
    | (with_reducible refine KeptR.of (stay_kept _) ?_)
    | (with_reducible refine KeptR.of (execQueueOverrun_kept _ _) ?_)
    | (simp [*]; done)
    | (simp [*, stay_kept _ _ (by assumption : stay _ = Host.Outcome.next _)]; done)
    | (simp [*, execQueueOverrun_kept _ _ _ (by assumption : execQueueOverrun _ _ = Host.Outcome.next _)]; done)
    | split
theorem execReplyRingRoom_kept : ∀ a0 a1 a2 a3, KeptR a3.kept (execReplyRingRoom a0 a1 a2 a3) := by
  intro a0 a1 a2 a3
  unfold execReplyRingRoom
  repeat'
    first
    | with_reducible rfl
    | with_reducible apply KeptR.ite
    | with_reducible exact KeptR.stay _
    | with_reducible apply KeptR.next
    | with_reducible apply KeptE.ok
    | with_reducible exact KeptE.error
    | with_reducible apply kept_ite
    | (with_reducible refine KeptR.of (stay_kept _) ?_)
    | (simp [*]; done)
    | (simp [*, stay_kept _ _ (by assumption : stay _ = Host.Outcome.next _)]; done)
    | split
theorem execUnknownOpCommand_kept : ∀ a0 a1 a2, KeptR a2.kept (execUnknownOpCommand a0 a1 a2) := by
  intro a0 a1 a2
  unfold execUnknownOpCommand
  repeat'
    first
    | with_reducible rfl
    | with_reducible assumption
    | with_reducible apply KeptR.ite
    | with_reducible apply kept_ite
    | with_reducible apply kept_ite1
    | (extract_lets +onlyGivenNames s1; first | (refine kept_cut (x := s1) ?_ ?_; (on_goal 1 => subst s1); (on_goal 2 => (intro h; clear_value s1))) | (refine kept_cut1 (State.kept a2) (x := s1) ?_ ?_; (on_goal 1 => subst s1); (on_goal 2 => (intro h; clear_value s1))) | (refine kept_cutP (State.kept a2) (x := s1) ?_ ?_; (on_goal 1 => subst s1); (on_goal 2 => (intro h; clear_value s1))) |  ((have _h : ∀ x, State.kept (s1 x) = State.kept (s1 x) := fun _ => rfl); clear _h; subst s1) | ((have _h : ∀ x y, State.kept (s1 x y) = State.kept (s1 x y) := fun _ _ => rfl); clear _h; subst s1) | ((have _h : ∀ x y z, State.kept (s1 x y z) = State.kept (s1 x y z) := fun _ _ _ => rfl); clear _h; subst s1) | ((have _h : ∀ x y z w, State.kept (s1 x y z w) = State.kept (s1 x y z w) := fun _ _ _ _ => rfl); clear _h; subst s1) | ((have _h : Mc := s1); clear _h; subst s1) | ((have _h : Regs := s1); clear _h; subst s1) | clear_value s1)
    | with_reducible apply kept_ite
    | (with_reducible refine kept_foldl (fun _ _ => ?_) ?_)
    | (with_reducible refine kept_foldl1 (fun _ _ => ?_) ?_)
    | (with_reducible refine kept_foldr (fun _ _ => ?_) ?_)
    | with_reducible exact KeptR.stay _
    | with_reducible apply KeptR.next
    | with_reducible apply KeptE.ok
    | with_reducible exact KeptE.error
    | (with_reducible refine KeptR.of (stay_kept _) ?_)
    | (with_reducible refine KeptN.of (State.readSlot_kept _ _) ?_)
    | (with_reducible refine (State.serve_kept _ _ _ _ (fun _ => ?_)).trans ?_)
    | (with_reducible refine kept_getD ?_ ?_)
    | (simp [*]; done)
    | (simp [*, stay_kept _ _ (by assumption : Sys2Proof.Machine.stay _ = Host.Outcome.next _)]; done)
    | (simp [*, State.readSlot_kept _ _ _ _ (by assumption : Sys2Proof.Machine.State.readSlot _ _ = some (_, _))]; done)
    | split
    | (intros; simp only [↓kept_mk, kept_fold])
    | simp [*]
theorem execRuleGenerationSwitch_kept : ∀ a0 a1, KeptR a1.kept (execRuleGenerationSwitch a0 a1) := by
  intro a0 a1
  unfold execRuleGenerationSwitch
  repeat'
    first
    | with_reducible rfl
    | with_reducible apply KeptR.ite
    | with_reducible exact KeptR.stay _
    | with_reducible apply KeptR.next
    | with_reducible apply KeptE.ok
    | with_reducible exact KeptE.error
    | with_reducible apply kept_ite
    | (with_reducible refine KeptR.of (stay_kept _) ?_)
    | (simp [*]; done)
    | (simp [*, stay_kept _ _ (by assumption : stay _ = Host.Outcome.next _)]; done)
    | split
@[simp ↓] theorem State.ruleEnd_kept : ∀ a0 a1 a2 a3, (State.ruleEnd a0 a1 a2 a3).kept = a0.kept := by
  intros; simp [State.ruleEnd]
@[simp ↓] theorem State.ruleGo_kept : ∀ a0 a1 a2, (State.ruleGo a0 a1 a2).kept = a0.kept := by
  intro a0 a1 a2
  unfold State.ruleGo
  repeat'
    first
    | with_reducible rfl
    | with_reducible apply kept_ite
    | (with_reducible refine KeptE.of (State.done_kept _ _ _) ?_)
    | (simp [*]; done)
    | (simp [*, State.done_kept _ _ _ _ (by assumption : State.done _ _ _ = Except.ok _)]; done)
    | split
theorem execRuleChangeDrain_kept : ∀ a0 a1, KeptR a1.kept (execRuleChangeDrain a0 a1) := by
  intro a0 a1
  unfold execRuleChangeDrain
  repeat'
    first
    | with_reducible rfl
    | with_reducible apply KeptR.ite
    | with_reducible exact KeptR.stay _
    | with_reducible apply KeptR.next
    | with_reducible apply KeptE.ok
    | with_reducible exact KeptE.error
    | with_reducible apply kept_ite
    | (extract_lets +onlyGivenNames t; first | (refine kept_cut (x := t) ?_ ?_; (on_goal 1 => subst t); (on_goal 2 => (intro; clear_value t))) | (refine kept_cutP (State.kept a1) (x := t) ?_ ?_; (on_goal 1 => subst t); (on_goal 2 => (intro; clear_value t))) | clear_value t)
    | (with_reducible refine KeptR.of (stay_kept _) ?_)
    | (simp [*]; done)
    | (simp [*, stay_kept _ _ (by assumption : stay _ = Host.Outcome.next _)]; done)
    | split
@[simp ↓] theorem State.ruleNext_kept : ∀ a0 a1 a2 a3, (State.ruleNext a0 a1 a2 a3).kept = a0.kept := by
  intro a0 a1 a2 a3
  unfold State.ruleNext
  repeat'
    first
    | with_reducible rfl
    | with_reducible apply kept_ite
    | (with_reducible refine KeptE.of (State.done_kept _ _ _) ?_)
    | (simp [*]; done)
    | (simp [*, State.done_kept _ _ _ _ (by assumption : State.done _ _ _ = Except.ok _)]; done)
    | split
@[simp ↓] theorem State.quiesced_kept : ∀ a0 a1, (State.quiesced a0 a1).kept = a0.kept := by
  intro a0 a1
  unfold State.quiesced
  repeat'
    first
    | with_reducible rfl
    | with_reducible apply kept_ite
    | (with_reducible refine KeptE.of (State.done_kept _ _ _) ?_)
    | (with_reducible refine kept_foldl (fun _ _ => ?_) ?_)
    | (simp [*]; done)
    | (simp [*, State.done_kept _ _ _ _ (by assumption : State.done _ _ _ = Except.ok _)]; done)
    | split
theorem execQuiesceIdle_kept : ∀ a0 a1, KeptR a1.kept (execQuiesceIdle a0 a1) := by
  intro a0 a1
  unfold execQuiesceIdle
  repeat'
    first
    | with_reducible rfl
    | with_reducible apply KeptR.ite
    | with_reducible exact KeptR.stay _
    | with_reducible apply KeptR.next
    | with_reducible apply KeptE.ok
    | with_reducible exact KeptE.error
    | with_reducible apply kept_ite
    | (with_reducible refine KeptR.of (stay_kept _) ?_)
    | (simp [*]; done)
    | (simp [*, stay_kept _ _ (by assumption : stay _ = Host.Outcome.next _)]; done)
    | split
@[simp ↓] theorem State.clearRest_kept : ∀ a0 a1, (State.clearRest a0 a1).kept = a0.kept := by
  intros; simp [State.clearRest]
@[simp ↓] theorem State.releaseInst_kept : ∀ a0 a1, (State.releaseInst a0 a1).kept = a0.kept := by
  intros; simp [State.releaseInst]
@[simp ↓] theorem State.clearNext_kept : ∀ a0 a1 a2 a3 a4 a5 a6, (State.clearNext a0 a1 a2 a3 a4 a5 a6).kept = a0.kept := by
  intro a0 a1 a2 a3 a4 a5 a6
  unfold State.clearNext
  repeat'
    first
    | with_reducible rfl
    | with_reducible apply kept_ite
    | (with_reducible refine KeptE.of (State.done_kept _ _ _) ?_)
    | (simp [*]; done)
    | (simp [*, State.done_kept _ _ _ _ (by assumption : State.done _ _ _ = Except.ok _)]; done)
    | split
@[simp ↓] theorem State.dropSusp_kept : ∀ a0 a1, (State.dropSusp a0 a1).kept = a0.kept := by
  intros; simp [State.dropSusp]
@[simp ↓] theorem State.dropSuspF_kept : ∀ a0 a1, (State.dropSuspF a0 a1).kept = a0.kept := by
  intros; simp [State.dropSuspF]
@[simp ↓] theorem State.rtDone_kept : ∀ a0 a1, (State.rtDone a0 a1).kept = a0.kept := by
  intros; unfold State.rtDone; split <;> simp
@[simp ↓] theorem State.opEffect_kept : ∀ a0 a1, (State.opEffect a0 a1).kept = a0.kept := by
  intro a0 a1
  unfold State.opEffect
  generalize a1.kind = k
  cases k
  case resync =>
    have h : (if (a0.inst a1.ci).twin = true then a0.twinRec beStop a1.ci 9 0 0 else a0).kept = a0.kept := by split <;> simp
    simp only [↓State.twinCause_kept, h]
  all_goals simp
@[simp ↓] theorem State.opServed_kept : ∀ a0 a1 a2 a3, (State.opServed a0 a1 a2 a3).kept = a0.kept := by
  intro a0 a1 a2 a3
  unfold State.opServed
  repeat'
    first
    | with_reducible rfl
    | with_reducible apply kept_ite
    | (with_reducible refine KeptE.of (State.done_kept _ _ _) ?_)
    | (simp [*]; done)
    | (simp [*, State.done_kept _ _ _ _ (by assumption : State.done _ _ _ = Except.ok _)]; done)
    | split
theorem execBulkOperationEnd_kept : ∀ a0 a1, KeptR a1.kept (execBulkOperationEnd a0 a1) := by
  intro a0 a1
  unfold execBulkOperationEnd
  repeat'
    first
    | with_reducible rfl
    | with_reducible apply KeptR.ite
    | with_reducible exact KeptR.stay _
    | with_reducible apply KeptR.next
    | with_reducible apply KeptE.ok
    | with_reducible exact KeptE.error
    | with_reducible apply kept_ite
    | (with_reducible refine KeptR.of (stay_kept _) ?_)
    | (with_reducible refine KeptE.of (State.done_kept _ _ _) ?_)
    | (simp [*]; done)
    | (simp [*, stay_kept _ _ (by assumption : stay _ = Host.Outcome.next _)]; done)
    | (simp [*, State.done_kept _ _ _ _ (by assumption : State.done _ _ _ = Except.ok _)]; done)
    | split

end Sys2Proof.Machine
end

