-- ==== Sys2Proof/Laws/Memory.lean ====
section
/-!
SUPPORT. The laws of sparse tables and of byte memories: a read after a write gives what was written, other places are left alone,
and every operation keeps the canonical form.
-/

namespace Sys2Proof.Machine

open Sys2Proof

/-! ### Tables with rising keys -/

@[simp] theorem tGet_nil {α : Type} (k : Nat) : tGet ([] : List (Nat × α)) k = none := rfl

theorem tGet_tPut_same {α : Type} (m : List (Nat × α)) (k : Nat) (v : α) : tGet (tPut m k v) k = some v := by
  induction m with
  | nil => simp [tPut, tGet]
  | cons p m ih =>
    obtain ⟨j, w⟩ := p
    simp only [tPut]
    split
    · simp [tGet]
    · split
      · simp [tGet]
      · simp only [tGet]; split
        · omega
        · exact ih

theorem tGet_tPut_other {α : Type} (m : List (Nat × α)) {k j : Nat} (v : α) (h : j ≠ k) : tGet (tPut m k v) j = tGet m j := by
  induction m with
  | nil => simp [tPut, tGet, Ne.symm h]
  | cons p m ih =>
    obtain ⟨i, w⟩ := p
    simp only [tPut]
    split
    · simp [tGet, Ne.symm h]
    · split
      · rename_i e; subst e; simp [tGet, Ne.symm h]
      · simp only [tGet, ih]

theorem tGet_tDel_same {α : Type} (m : List (Nat × α)) (k : Nat) : tGet (tDel m k) k = none := by
  induction m with
  | nil => rfl
  | cons p m ih =>
    obtain ⟨j, w⟩ := p
    by_cases e : j = k
    · simpa [tDel, e] using ih
    · have : tDel ((j, w) :: m) k = (j, w) :: tDel m k := by simp [tDel, e]
      simp [this, tGet, e, ih]

theorem tGet_tDel_other {α : Type} (m : List (Nat × α)) {k j : Nat} (h : j ≠ k) : tGet (tDel m k) j = tGet m j := by
  induction m with
  | nil => rfl
  | cons p m ih =>
    obtain ⟨i, w⟩ := p
    by_cases e : i = k
    · subst e
      have : tDel ((i, w) :: m) i = tDel m i := by simp [tDel]
      simp [this, tGet, Ne.symm h, ih]
    · have : tDel ((i, w) :: m) k = (i, w) :: tDel m k := by simp [tDel, e]
      simp [this, tGet, ih]

/-- Rising keys as pairwise order. -/
theorem tSorted_iff {α : Type} (m : List (Nat × α)) : tSorted m = true ↔ m.Pairwise fun a b => a.1 < b.1 := by
  induction m with
  | nil => simp [tSorted]
  | cons a m ih =>
    cases m with
    | nil => simp [tSorted]
    | cons b m =>
      simp only [tSorted, Bool.and_eq_true, decide_eq_true_eq, ih]
      constructor
      · rintro ⟨h, p⟩
        refine List.pairwise_cons.2 ⟨fun x hx => ?_, p⟩
        rcases List.mem_cons.1 hx with rfl | hx
        · exact h
        · exact h.trans (List.rel_of_pairwise_cons p hx)
      · intro p
        exact ⟨List.rel_of_pairwise_cons p (List.mem_cons_self ..), p.of_cons⟩

theorem mem_tPut {α : Type} {m : List (Nat × α)} {k : Nat} {v : α} {x : Nat × α} (h : x ∈ tPut m k v) : x = (k, v) ∨ x ∈ m := by
  induction m with
  | nil => simpa [tPut] using h
  | cons p m ih =>
    obtain ⟨j, w⟩ := p
    simp only [tPut] at h
    split at h
    · rcases List.mem_cons.1 h with h | h
      · exact .inl h
      · exact .inr h
    · split at h
      · rcases List.mem_cons.1 h with h | h
        · exact .inl h
        · exact .inr (List.mem_cons_of_mem _ h)
      · rcases List.mem_cons.1 h with h | h
        · exact .inr (h ▸ List.mem_cons_self ..)
        · rcases ih h with h | h
          · exact .inl h
          · exact .inr (List.mem_cons_of_mem _ h)

theorem tPut_pairwise {α : Type} {m : List (Nat × α)} (k : Nat) (v : α) (h : m.Pairwise fun a b => a.1 < b.1) :
    (tPut m k v).Pairwise fun a b => a.1 < b.1 := by
  induction m with
  | nil => simp [tPut]
  | cons p m ih =>
    obtain ⟨j, w⟩ := p
    obtain ⟨hj, hm⟩ := List.pairwise_cons.1 h
    simp only [tPut]
    split
    · rename_i hk
      refine List.pairwise_cons.2 ⟨fun x hx => ?_, h⟩
      rcases List.mem_cons.1 hx with rfl | hx
      · exact hk
      · exact hk.trans (hj x hx)
    · split
      · rename_i e; subst e
        exact List.pairwise_cons.2 ⟨hj, hm⟩
      · refine List.pairwise_cons.2 ⟨fun x hx => ?_, ih hm⟩
        rcases mem_tPut hx with rfl | hx
        · show j < k; omega
        · exact hj x hx

theorem tPut_sorted {α : Type} {m : List (Nat × α)} (k : Nat) (v : α) (h : tSorted m = true) : tSorted (tPut m k v) = true :=
  (tSorted_iff _).2 (tPut_pairwise k v ((tSorted_iff _).1 h))

theorem filter_sorted {α : Type} {m : List (Nat × α)} (f : Nat × α → Bool) (h : tSorted m = true) : tSorted (m.filter f) = true :=
  (tSorted_iff _).2 (((tSorted_iff _).1 h).filter f)

theorem tDel_sorted {α : Type} {m : List (Nat × α)} (k : Nat) (h : tSorted m = true) : tSorted (tDel m k) = true := filter_sorted _ h

/-! ### Byte memories -/

@[simp] theorem memGet_memSet_same (m : List Host.Cell) (a : Nat) (b : BitVec 8) : memGet (memSet m a b) a = b := by
  unfold memGet memSet
  split
  · rename_i e; simp [tGet_tDel_same, e]
  · simp [tGet_tPut_same]

theorem memGet_memSet_other (m : List Host.Cell) {a c : Nat} (b : BitVec 8) (h : c ≠ a) : memGet (memSet m a b) c = memGet m c := by
  unfold memGet memSet
  split
  · rw [tGet_tDel_other m h]
  · rw [tGet_tPut_other m b h]

theorem Memory.wf_nil : Memory.wf [] = true := rfl

theorem Memory.wf_iff (m : List Host.Cell) : Memory.wf m = true ↔ tSorted m = true ∧ ∀ c ∈ m, c.2 ≠ memDefault := by
  simp [Memory.wf, List.all_eq_true]

theorem Memory.wf_filter {m : List Host.Cell} (f : Host.Cell → Bool) (h : Memory.wf m = true) : Memory.wf (m.filter f) = true := by
  obtain ⟨h1, h2⟩ := (Memory.wf_iff m).1 h
  exact (Memory.wf_iff _).2 ⟨filter_sorted f h1, fun c hc => h2 c (List.mem_of_mem_filter hc)⟩

theorem memSet_wf {m : List Host.Cell} (a : Nat) (b : BitVec 8) (h : Memory.wf m = true) : Memory.wf (memSet m a b) = true := by
  unfold memSet
  split
  · exact Memory.wf_filter _ h
  · rename_i e
    obtain ⟨h1, h2⟩ := (Memory.wf_iff m).1 h
    refine (Memory.wf_iff _).2 ⟨tPut_sorted a b h1, fun c hc => ?_⟩
    rcases mem_tPut hc with rfl | hc
    · exact e
    · exact h2 c hc

theorem memSetN_wf {m : List Host.Cell} (a n v : Nat) (h : Memory.wf m = true) : Memory.wf (memSetN m a n v) = true := by
  induction n generalizing m a v with
  | zero => exact h
  | succ n ih => exact ih _ _ (memSet_wf _ _ h)

theorem memGet_memSetN_other (m : List Host.Cell) (a n v c : Nat) (h : c < a ∨ a + n ≤ c) : memGet (memSetN m a n v) c = memGet m c := by
  induction n generalizing m a v with
  | zero => rfl
  | succ n ih =>
    rw [memSetN, ih _ _ _ (by omega), memGet_memSet_other _ _ (by omega)]

theorem memGet_memSetN_same (m : List Host.Cell) (a n v i : Nat) (h : i < n) :
    memGet (memSetN m a n v) (a + i) = BitVec.ofNat 8 (v / 256 ^ i) := by
  induction n generalizing m a v i with
  | zero => omega
  | succ n ih =>
    rw [memSetN]
    cases i with
    | zero =>
      rw [memGet_memSetN_other _ _ _ _ _ (by omega)]
      simp only [Nat.add_zero, memGet_memSet_same]
      apply BitVec.eq_of_toNat_eq; simp
    | succ i =>
      have : a + (i + 1) = (a + 1) + i := by omega
      rw [this, ih _ _ _ _ (by omega)]
      congr 1
      rw [Nat.div_div_eq_div_mul, Nat.pow_succ, Nat.mul_comm]

theorem foldl_wf {α : Type} (f : List Host.Cell → α → List Host.Cell) (hf : ∀ m x, Memory.wf m = true → Memory.wf (f m x) = true)
    (l : List α) {m : List Host.Cell} (h : Memory.wf m = true) : Memory.wf (l.foldl f m) = true := by
  induction l generalizing m with
  | nil => exact h
  | cons x l ih => exact ih (hf _ _ h)

theorem memClear_wf {m : List Host.Cell} (a n : Nat) (h : Memory.wf m = true) : Memory.wf (memClear m a n) = true := Memory.wf_filter _ h

theorem memLoad_wf {m : List Host.Cell} (a : Nat) (src : List Host.Cell) (h : Memory.wf m = true) : Memory.wf (memLoad m a src) = true :=
  foldl_wf _ (fun _ _ h => memSet_wf _ _ h) src h

/-! ### The byte memories of the MC -/

theorem State.captured_wf (s : State) : Memory.wf s.captured = true := by
  unfold State.captured
  exact foldl_wf _ (fun _ _ h => memSetN_wf _ _ _ h) _ (foldl_wf _ (fun _ _ h => memSetN_wf _ _ _ h) _
    (foldl_wf _ (fun _ _ h => memSetN_wf _ _ _ h) _ Memory.wf_nil))

theorem State.committed_wf {s : State} (k : Nat) (h : Memory.wf s.mc.store = true) : Memory.wf (s.committed k) = true :=
  memLoad_wf _ _ (memClear_wf _ _ h)

theorem cutCommit_wf {m : List Host.Cell} (n k : Nat) (h : Memory.wf m = true) : Memory.wf (cutCommit n m k) = true :=
  memSetN_wf _ _ _ (foldl_wf _ (fun _ _ h => memSet_wf _ _ h) _ h)

theorem State.storeKept_wf {s : State} (h : Memory.wf s.mc.store = true) : Memory.wf s.storeKept = true := by
  refine foldl_wf _ (fun m l h => ?_) _ h
  split
  · exact cutCommit_wf _ _ h
  · exact h

theorem State.ramOk_iff (s : State) :
    s.ramOk = true ↔ Memory.wf s.mc.img = true ∧ Memory.wf s.mc.store = true ∧ Memory.wf s.mc.staging = true := by
  simp [State.ramOk, and_assoc]

/-- An operation that leaves `Kept` alone keeps the canonical forms. -/
theorem State.ramOk_of_kept {s t : State} (e : t.kept = s.kept) (h : s.ramOk = true) : t.ramOk = true := by
  have hi : t.mc.img = s.mc.img := congrArg Kept.img e
  have hs : t.mc.store = s.mc.store := congrArg Kept.store e
  have hg : t.mc.staging = s.mc.staging := congrArg Kept.staging e
  simpa only [State.ramOk, hi, hs, hg] using h

end Sys2Proof.Machine
end

