-- ==== Sys2Proof/Laws/Ram.lean ====
section
/-!
SUPPORT. The operations that do write a part of `State.kept`: each leaves the queue alone and keeps the canonical form of the byte
memories.
-/

namespace Sys2Proof.Machine

open Sys2Proof

/-- The queue stands, and the byte memories stay in their canonical form. -/
structure Tidy (s t : State) : Prop where
  pending : t.pending = s.pending
  ram : s.ramOk = true → t.ramOk = true

theorem Tidy.refl (s : State) : Tidy s s := ⟨rfl, id⟩

theorem Tidy.trans {s t u : State} (h : Tidy s t) (k : Tidy t u) : Tidy s u := ⟨k.pending.trans h.pending, fun x => k.ram (h.ram x)⟩

theorem Tidy.of_kept {s t : State} (e : t.kept = s.kept) : Tidy s t := ⟨congrArg Kept.pending e, State.ramOk_of_kept e⟩

/-- The same of every next state of an outcome, and of every new state that a body answers. -/
def TidyR (s : State) (o : Res) : Prop := ∀ t, o = .next t → Tidy s t

def TidyE (s : State) (o : Except Status State) : Prop := ∀ t, o = .ok t → Tidy s t

theorem TidyR.of_kept {s : State} {o : Res} (h : KeptR s.kept o) : TidyR s o := fun t e => Tidy.of_kept (h t e)

theorem TidyE.of_kept {s : State} {o : Except Status State} (h : KeptE s.kept o) : TidyE s o := fun t e => Tidy.of_kept (h t e)

theorem TidyR.next {s t : State} (h : Tidy s t) : TidyR s (.next t) := by intro u e; cases e; exact h

theorem TidyE.ok {s t : State} (h : Tidy s t) : TidyE s (.ok t) := by intro u e; cases e; exact h

theorem TidyE.error {s : State} {e : Status} : TidyE s (.error e) := by intro u h; cases h

theorem TidyR.ite {s : State} {c : Prop} [Decidable c] {a b : Res} (ha : TidyR s a) (hb : TidyR s b) : TidyR s (if c then a else b) := by
  split <;> assumption

theorem TidyE.ite {s : State} {c : Prop} [Decidable c] {a b : Except Status State} (ha : TidyE s a) (hb : TidyE s b) :
    TidyE s (if c then a else b) := by split <;> assumption

theorem TidyR.stay (s : State) : TidyR s (stay s) := TidyR.next (Tidy.refl s)

/-! ### Resets -/

theorem State.coldReset_tidy (s : State) : Tidy s s.coldReset := by
  refine ⟨rfl, fun h => ?_⟩
  have := ((State.ramOk_iff s).1 h).2.1
  exact (State.ramOk_iff _).2 ⟨Memory.wf_nil, State.storeKept_wf this, Memory.wf_nil⟩

theorem State.warmClear_tidy (s : State) : Tidy s s.warmClear := by
  have e := State.gpfEnd_kept s
  refine ⟨congrArg Kept.pending e, fun h => ?_⟩
  have h' := State.ramOk_of_kept e h
  have := ((State.ramOk_iff _).1 h').2.1
  exact (State.ramOk_iff _).2 ⟨Memory.wf_nil, State.storeKept_wf this, Memory.wf_nil⟩

theorem State.warmReset_tidy (s : State) : Tidy s s.warmReset := by
  unfold State.warmReset
  split
  · exact ⟨(State.warmClear_tidy s).pending, fun h => (State.warmClear_tidy s).ram h⟩
  · exact State.warmClear_tidy s

theorem execColdRstAssert_tidy (s : State) : TidyR s (execColdRstAssert s) :=
  TidyR.next ⟨rfl, (State.coldReset_tidy s).ram⟩

theorem execColdRstRelease_tidy (p : BitVec 2) (t : Bool) (s : State) : TidyR s (execColdRstRelease p t s) :=
  TidyR.ite (TidyR.stay s) (TidyR.next ⟨rfl, (State.coldReset_tidy s).ram⟩)

theorem execWarmRstLow_tidy (s : State) : TidyR s (execWarmRstLow s) := by
  unfold execWarmRstLow
  refine TidyR.ite (TidyR.stay s) (TidyR.ite (TidyR.next ⟨rfl, id⟩) ?_)
  dsimp only
  split
  · exact TidyR.next (Tidy.trans (t := { s with warmLow := true }) ⟨rfl, id⟩ (State.warmReset_tidy _))
  · exact TidyR.next ⟨rfl, id⟩
  · exact TidyR.next ⟨rfl, id⟩

theorem execWarmResetEffect_tidy (s : State) : TidyR s (execWarmResetEffect s) := by
  unfold execWarmResetEffect
  split
  · refine TidyR.next ?_
    split
    · exact State.warmReset_tidy s
    · exact (Tidy.of_kept (State.drainOut_kept s _)).trans (State.warmReset_tidy _)
  · exact TidyR.stay s

theorem execWarmRstRelease_tidy (p : BitVec 2) (t : Bool) (s : State) : TidyR s (execWarmRstRelease p t s) :=
  TidyR.ite (TidyR.stay s) (TidyR.ite (TidyR.next ⟨rfl, id⟩) (TidyR.next ⟨rfl, id⟩))

/-! ### Image and profile store -/

theorem State.reply_tidy (s : State) (w : BitVec 512) (st : Status) (a b c : Nat) : Tidy s (s.reply w st a b c) :=
  Tidy.of_kept (State.reply_kept s w st a b c)

theorem State.done_tidy (s : State) (w : BitVec 512) (l : List (Nat × Nat)) : TidyE s (s.done w l) := TidyE.of_kept (State.done_kept s w l)

/-- A state whose image alone is another one, in canonical form. -/
theorem Tidy.img {s : State} (b : BState) (l : Status) (m : List Host.Cell) (n : Nat) (h : s.ramOk = true → Memory.wf m = true) :
    Tidy s { s with mc := { s.mc with bstate := b, lstat := l, img := m, imgLen := n } } :=
  ⟨rfl, fun x => (State.ramOk_iff _).2 ⟨h x, ((State.ramOk_iff s).1 x).2⟩⟩

theorem Tidy.staging {s : State} (m : List Host.Cell) (h : s.ramOk = true → Memory.wf m = true) :
    Tidy s { s with mc := { s.mc with staging := m } } :=
  ⟨rfl, fun x => (State.ramOk_iff _).2 ⟨((State.ramOk_iff s).1 x).1, ((State.ramOk_iff s).1 x).2.1, h x⟩⟩

theorem Tidy.store {s : State} (m : List Host.Cell) (h : s.ramOk = true → Memory.wf m = true) :
    Tidy s { s with mc := { s.mc with store := m } } :=
  ⟨rfl, fun x => (State.ramOk_iff _).2 ⟨((State.ramOk_iff s).1 x).1, h x, ((State.ramOk_iff s).1 x).2.2⟩⟩

theorem TidyE.trans {s t : State} {o : Except Status State} (h : Tidy s t) (k : TidyE t o) : TidyE s o := fun u e => h.trans (k u e)

theorem imgBegin_tidy (w : BitVec 512) (s : State) : TidyE s (imgBegin w s) :=
  TidyE.trans (Tidy.img _ _ [] 0 fun _ => Memory.wf_nil) (State.done_tidy _ w _)

theorem imgData_tidy (w : BitVec 512) (s : State) : TidyE s (imgData w s) := by
  have wf : s.ramOk = true → Memory.wf (memSetN s.mc.img (cPar w 0 4) 32 (cPar w 16 32)) = true := fun h =>
    memSetN_wf _ _ _ ((State.ramOk_iff s).1 h).1
  unfold imgData
  refine TidyE.ite TidyE.error (TidyE.ite (TidyE.ok ?_) ?_)
  · exact (Tidy.img _ _ [] 0 fun _ => Memory.wf_nil).trans (State.reply_tidy _ _ _ _ _ _)
  · exact TidyE.trans (Tidy.img s.mc.bstate s.mc.lstat _ _ wf) (State.done_tidy _ w _)

theorem profileStage_tidy (w : BitVec 512) (s : State) : TidyE s (profileStage w s) := by
  unfold profileStage
  refine TidyE.ite TidyE.error (TidyE.trans (Tidy.staging _ fun h => ?_) (State.done_tidy _ w _))
  exact memSetN_wf _ _ _ ((State.ramOk_iff s).1 h).2.2

theorem profileCapture_tidy (w : BitVec 512) (s : State) : TidyE s (profileCapture w s) :=
  TidyE.trans (Tidy.staging _ fun _ => State.captured_wf s) (State.done_tidy _ w _)

theorem execProfileMramWriteEnd_tidy (s : State) : TidyR s (execProfileMramWriteEnd s) := by
  unfold execProfileMramWriteEnd
  split
  · exact TidyR.stay s
  · refine TidyR.ite (TidyR.stay s) (TidyR.next ?_)
    exact (Tidy.store _ fun h => State.committed_wf _ ((State.ramOk_iff s).1 h).2.1).trans (Tidy.of_kept (State.finish_kept _ _ _ _ _))

theorem execImgVerifyEnd_tidy (s : State) : TidyR s (execImgVerifyEnd s) := by
  unfold execImgVerifyEnd
  split
  · exact TidyR.stay s
  · rename_i l _
    have f (st : Status) := Tidy.of_kept (State.finish_kept s l.cmd st 0 0)
    refine TidyR.ite (TidyR.stay s) (TidyR.ite (TidyR.next ?_) (TidyR.next ?_))
    · refine ((f .done).trans ?_).trans (Tidy.of_kept (State.startUp_kept _))
      exact ⟨rfl, id⟩
    · exact (f .authFail).trans (Tidy.img _ _ [] 0 fun _ => Memory.wf_nil)

/-! ### Commands of the MC -/

theorem State.execCmd_tidy (s : State) (w : BitVec 512) (r : OpRow) (b : Body) (h : ∀ s, TidyE s (b s)) : Tidy s (s.execCmd w r b) := by
  unfold State.execCmd
  split
  · exact Tidy.of_kept (State.refuseCmd_kept _ _ _)
  · split
    · exact Tidy.of_kept (State.refuseCmd_kept _ _ _)
    · rename_i t e
      exact (h s t e).trans (Tidy.of_kept (State.bump_kept _ _))

theorem State.serve_tidy (s : State) (i : Nat) (w : BitVec 512) (b : Body) (h : ∀ s, TidyE s (b s)) : Tidy s (s.serve i w b) := by
  unfold State.serve
  split
  · exact Tidy.of_kept (by simp)
  · split
    · exact Tidy.of_kept (by simp)
    · split
      · exact Tidy.of_kept (by simp)
      · split
        · split
          · exact Tidy.refl s
          · exact ⟨rfl, id⟩
        · exact (State.execCmd_tidy s w _ b h).trans (Tidy.of_kept (State.slotDone_kept _ _))

theorem mcRow_tidy (o : Nat) (w : BitVec 512) (b : Body) (s : State) (h : ∀ s, TidyE s (b s)) : TidyR s (mcRow o w b s) := by
  unfold mcRow
  refine TidyR.ite (TidyR.stay s) ?_
  split
  · exact TidyR.stay s
  · rename_i i t e
    refine TidyR.next (Tidy.trans (Tidy.of_kept (State.readSlot_kept s w i t e)) ?_)
    exact (State.serve_tidy t i w b h).trans (Tidy.of_kept (State.ringSettle_kept _))

/-! ### The bodies of every command of the MC -/

theorem mcBody0_tidy (w : BitVec 512) (b : Body) (h : mcBody0 w = some b) (s : State) : TidyE s (b s) := by
  unfold mcBody0 at h
  split at h
  · cases h; exact TidyE.of_kept (bootStatus_kept _ s)
  · cases h; exact imgBegin_tidy w s
  · cases h; exact imgData_tidy w s
  · cases h; exact TidyE.of_kept (imgEnd_kept _ s)
  · cases h; exact TidyE.of_kept (bootStart_kept _ s)
  · cases h; exact TidyE.of_kept (cmdProgress_kept _ s)
  · cases h

theorem mcBody1_tidy (w : BitVec 512) (b : Body) (h : mcBody1 w = some b) (s : State) : TidyE s (b s) := by
  unfold mcBody1 at h
  split at h
  · cases h; exact TidyE.of_kept (instCreate_kept _ s)
  · cases h; exact TidyE.of_kept (instEnable_kept _ s)
  · cases h; exact TidyE.of_kept (instQuiesce_kept _ s)
  · cases h; exact TidyE.of_kept (instReset_kept _ s)
  · cases h; exact TidyE.of_kept (instRemove_kept _ s)
  · cases h; exact TidyE.of_kept (instQuota_kept _ s)
  · cases h; exact TidyE.of_kept (instStatus_kept _ s)
  · cases h; exact TidyE.of_kept (irtAdd_kept _ s)
  · cases h; exact TidyE.of_kept (irtRemove_kept _ s)
  · cases h; exact TidyE.of_kept (iwMask_kept _ s)
  · cases h

theorem mcBody2_tidy (w : BitVec 512) (b : Body) (h : mcBody2 w = some b) (s : State) : TidyE s (b s) := by
  unfold mcBody2 at h
  split at h
  · cases h; exact TidyE.of_kept (regionSet_kept _ s)
  · cases h; exact TidyE.of_kept (regionClear_kept _ s)
  · cases h; exact TidyE.of_kept (leasePass_kept _ s)
  · cases h; exact TidyE.of_kept (regionRead_kept _ s)
  · cases h; exact TidyE.of_kept (portSet_kept _ s)
  · cases h; exact TidyE.of_kept (portRead_kept _ s)
  · cases h

theorem mcBody3_tidy (w : BitVec 512) (b : Body) (h : mcBody3 w = some b) (s : State) : TidyE s (b s) := by
  unfold mcBody3 at h
  split at h
  · cases h; exact TidyE.of_kept (agentAdd_kept _ s)
  · cases h; exact TidyE.of_kept (agentRemove_kept _ s)
  · cases h; exact TidyE.of_kept (agentBind_kept _ s)
  · cases h; exact TidyE.of_kept (agentUnbind_kept _ s)
  · cases h; exact TidyE.of_kept (agentDisable_kept _ s)
  · cases h; exact TidyE.of_kept (agentEnable_kept _ s)
  · cases h; exact TidyE.of_kept (agentReadmit_kept _ s)
  · cases h; exact TidyE.of_kept (agentRead_kept _ s)
  · cases h; exact TidyE.of_kept (agentGrace_kept _ s)
  · cases h; exact TidyE.of_kept (snoopCfg_kept _ s)
  · cases h; exact TidyE.of_kept (calRead_kept _ s)
  · cases h; exact TidyE.of_kept (calReset_kept _ s)
  · cases h

theorem mcBody4_tidy (w : BitVec 512) (peerSlices : Nat) (b : Body) (h : mcBody4 w peerSlices = some b) (s : State) : TidyE s (b s) := by
  unfold mcBody4 at h
  split at h
  · cases h; exact TidyE.of_kept (pdFreeze_kept _ s)
  · cases h; exact TidyE.of_kept (pdThaw_kept _ s)
  · cases h; exact TidyE.of_kept (pdStatus_kept _ s)
  · cases h; exact TidyE.of_kept (enginePark_kept _ s)
  · cases h; exact TidyE.of_kept (engineUnpark_kept _ s)
  · cases h; exact TidyE.of_kept (sliceFold_kept _ _ s)
  · cases h; exact TidyE.of_kept (pwrCfg_kept _ s)
  · cases h; exact TidyE.of_kept (meshFence_kept _ s)
  · cases h; exact TidyE.of_kept (meshCfg_kept _ s)
  · cases h

theorem mcBody5_tidy (w : BitVec 512) (b : Body) (h : mcBody5 w = some b) (s : State) : TidyE s (b s) := by
  unfold mcBody5 at h
  split at h
  · cases h; exact TidyE.of_kept (arbTickets_kept _ s)
  · cases h; exact TidyE.of_kept (arbSystkt_kept _ s)
  · cases h; exact TidyE.of_kept (arbSeed_kept _ s)
  · cases h; exact TidyE.of_kept (arbMode_kept _ s)
  · cases h; exact TidyE.of_kept (arbPreempt_kept _ s)
  · cases h; exact TidyE.of_kept (arbHoldmax_kept _ s)
  · cases h; exact TidyE.of_kept (engDisable_kept _ s)
  · cases h; exact TidyE.of_kept (engEnable_kept _ s)
  · cases h; exact TidyE.of_kept (arbStatus_kept _ s)
  · cases h; exact TidyE.of_kept (firnRotate_kept _ s)
  · cases h; exact TidyE.of_kept (firnRebuild_kept _ s)
  · cases h; exact TidyE.of_kept (churnCfg_kept _ s)
  · cases h; exact TidyE.of_kept (sfRebuild_kept _ s)
  · cases h

theorem mcBody6_tidy (w : BitVec 512) (peerIdle : Bool) (peerDigest : BitVec 32) (b : Body) (h : mcBody6 w peerIdle peerDigest = some b) (s : State) : TidyE s (b s) := by
  unfold mcBody6 at h
  split at h
  · cases h; exact TidyE.of_kept (twinRole_kept _ _ _ s)
  · cases h; exact TidyE.of_kept (twinRelease_kept _ _ s)
  · cases h; exact TidyE.of_kept (twinHandover_kept _ s)
  · cases h; exact TidyE.of_kept (twinTakeover_kept _ s)
  · cases h; exact TidyE.of_kept (twinResync_kept _ s)
  · cases h; exact TidyE.of_kept (twinLevelRaise_kept _ s)
  · cases h; exact TidyE.of_kept (twinCfg_kept _ s)
  · cases h; exact TidyE.of_kept (twinStatus_kept _ s)
  · cases h

theorem mcBody7_tidy (w : BitVec 512) (b : Body) (h : mcBody7 w = some b) (s : State) : TidyE s (b s) := by
  unfold mcBody7 at h
  split at h
  · cases h; exact TidyE.of_kept (profileApply_kept _ s)
  · cases h; exact profileStage_tidy w s
  · cases h; exact profileCapture_tidy w s
  · cases h; exact TidyE.of_kept (profileCommit_kept _ s)
  · cases h; exact TidyE.of_kept (profileRead_kept _ s)
  · cases h

theorem mcBody8_tidy (w : BitVec 512) (b : Body) (h : mcBody8 w = some b) (s : State) : TidyE s (b s) := by
  unfold mcBody8 at h
  split at h
  · cases h; exact TidyE.of_kept (obsTraceCfg_kept _ s)
  · cases h; exact TidyE.of_kept (obsTraceDump_kept _ s)
  · cases h; exact TidyE.of_kept (obsCntClear_kept _ s)
  · cases h; exact TidyE.of_kept (obsSetEvents_kept _ s)
  · cases h

theorem mcBody9_tidy (w : BitVec 512) (b : Body) (h : mcBody9 w = some b) (s : State) : TidyE s (b s) := by
  unfold mcBody9 at h
  split at h
  · cases h; exact TidyE.of_kept (errRead_kept _ s)
  · cases h; exact TidyE.of_kept (vlogRead_kept _ s)
  · cases h; exact TidyE.of_kept (errCfg_kept _ s)
  · cases h

theorem mcBody_tidy (w : BitVec 512) (i : Bool) (d : BitVec 32) (n : Nat) (b : Body) (h : mcBody w i d n = some b) (s : State) :
    TidyE s (b s) := by
  unfold mcBody at h
  split at h
  · exact mcBody0_tidy w b h s
  · exact mcBody1_tidy w b h s
  · exact mcBody2_tidy w b h s
  · exact mcBody3_tidy w b h s
  · exact mcBody4_tidy w n b h s
  · exact mcBody5_tidy w b h s
  · exact mcBody6_tidy w i d b h s
  · exact mcBody7_tidy w b h s
  · exact mcBody8_tidy w b h s
  · exact mcBody9_tidy w b h s
  · cases h

theorem execDeferredCommandReread_tidy (i : Bool) (d : BitVec 32) (n : Nat) (s : State) : TidyR s (execDeferredCommandReread i d n s) := by
  unfold execDeferredCommandReread
  refine TidyR.ite (TidyR.stay s) ?_
  split
  · exact TidyR.stay s
  · split
    · rename_i j w _ _ _ r b _ hb
      refine TidyR.next (Tidy.trans (State.execCmd_tidy s w r b fun s => mcBody_tidy _ _ _ _ b hb s) (Tidy.of_kept ?_))
      simp
    · exact TidyR.stay s

/-! ### Register writes -/

theorem State.plainWrite_tidy (s : State) (a : RegAcc) : Tidy s (s.plainWrite a) := by
  unfold State.plainWrite
  dsimp only
  repeat' split
  all_goals first
    | exact Tidy.refl s
    | exact ⟨rfl, id⟩

theorem execRegisterWrite_tidy (a : RegAcc) (s : State) : TidyR s (execRegisterWrite a s) := by
  unfold execRegisterWrite
  refine TidyR.ite (TidyR.stay s) ?_
  unfold State.regWrite
  refine TidyR.ite (TidyR.stay s) ?_
  split
  · rename_i t e
    exact TidyR.next (Tidy.of_kept (State.refuseReg_kept s a t e))
  · exact TidyR.next ((State.plainWrite_tidy s a).trans (Tidy.of_kept (State.emit_kept _ _)))

end Sys2Proof.Machine
end

