-- ==== Sys2Proof/Laws/State.lean ====
section
/-!
SUPPORT. What each update of one part of the state leaves alone: one lemma for each field, so that no proof unfolds a record update.
-/

namespace Sys2Proof.Machine

open Sys2Proof

/-! ### What an update reads as -/

@[simp] theorem State.inst_setInst (s : State) (c : Ci) (i : Inst) : (s.setInst c i).inst c = i := by
  simp [State.inst, State.setInst, tGet_tPut_same]

theorem State.inst_setInst_other (s : State) (c d : Ci) (i : Inst) (h : d ≠ c) : (s.setInst c i).inst d = s.inst d := by
  have : d.toNat ≠ c.toNat := fun e => h (BitVec.eq_of_toNat_eq e)
  simp [State.inst, State.setInst, tGet_tPut_other _ _ this]

@[simp] theorem State.slice_setSlice (s : State) (c : Hs) (i : Slice) : (s.setSlice c i).slice c = i := by
  simp [State.slice, State.setSlice, tGet_tPut_same]

theorem State.slice_setSlice_other (s : State) (c d : Hs) (i : Slice) (h : d ≠ c) : (s.setSlice c i).slice d = s.slice d := by
  have : d.toNat ≠ c.toNat := fun e => h (BitVec.eq_of_toNat_eq e)
  simp [State.slice, State.setSlice, tGet_tPut_other _ _ this]

@[simp] theorem State.ps_setPs (s : State) (c : Stn) (i : PSt) : (s.setPs c i).ps c = i := by
  simp [State.ps, State.setPs, tGet_tPut_same]

theorem State.ps_setPs_other (s : State) (c d : Stn) (i : PSt) (h : d ≠ c) : (s.setPs c i).ps d = s.ps d := by
  have : d.toNat ≠ c.toNat := fun e => h (BitVec.eq_of_toNat_eq e)
  simp [State.ps, State.setPs, tGet_tPut_other _ _ this]

@[simp] theorem State.ms_setMs (s : State) (c : Stn) (i : MSt) : (s.setMs c i).ms c = i := by
  simp [State.ms, State.setMs, tGet_tPut_same]

theorem State.ms_setMs_other (s : State) (c d : Stn) (i : MSt) (h : d ≠ c) : (s.setMs c i).ms d = s.ms d := by
  have : d.toNat ≠ c.toNat := fun e => h (BitVec.eq_of_toNat_eq e)
  simp [State.ms, State.setMs, tGet_tPut_other _ _ this]

@[simp] theorem State.dom_setDom (s : State) (c : BitVec 7) (i : Dom) : (s.setDom c i).dom c = i := by
  simp [State.dom, State.setDom, tGet_tPut_same]

theorem State.dom_setDom_other (s : State) (c d : BitVec 7) (i : Dom) (h : d ≠ c) : (s.setDom c i).dom d = s.dom d := by
  have : d.toNat ≠ c.toNat := fun e => h (BitVec.eq_of_toNat_eq e)
  simp [State.dom, State.setDom, tGet_tPut_other _ _ this]

@[simp] theorem State.agent_setAgent (s : State) (r : Rqid) (a : Agent) : (s.setAgent r a).agent r = some a := by
  simp [State.agent, State.setAgent, tGet_tPut_same]

@[simp] theorem State.arb_setArb (s : State) (e : Eng) (a : Arb) : (s.setArb e a).arb e = a := by cases e <;> rfl

theorem State.arb_setArb_other (s : State) (e f : Eng) (a : Arb) (h : f ≠ e) : (s.setArb e a).arb f = s.arb f := by
  cases e <;> cases f <;> first | rfl | exact absurd rfl h

@[simp] theorem State.te_setTe (s : State) (e : Bool) (t : Te) : (s.setTe e t).te e = t := by cases e <;> rfl

theorem State.te_setTe_other (s : State) (e : Bool) (t : Te) : (s.setTe e t).te (!e) = s.te (!e) := by cases e <;> rfl

@[simp] theorem Inst.gq_setGq (i : Inst) (e : Bool) (g : GQueue) : (i.setGq e g).gq e = g := by cases e <;> rfl

@[simp] theorem State.gq_modGq (s : State) (c : Ci) (e : Bool) (f : GQueue → GQueue) :
    ((s.modGq c e f).inst c).gq e = f ((s.inst c).gq e) := by
  simp [State.modGq, State.modInst]

/-- A bit that hardware sets stands, whatever a write of the same cycle named (R13). -/
theorem State.hwSet_bit (s : State) (r : W1c) (v : BitVec 64) (b rep : Nat) (h : b < 64) : (s.hwSet r v b rep).getLsbD b = true := by
  simp only [State.hwSet, BitVec.getLsbD_or, Bool.or_eq_true]
  refine .inl (.inr ?_)
  have : (BitVec.ofNat 64 (2 ^ b) : BitVec 64) = BitVec.twoPow 64 b := by
    apply BitVec.eq_of_toNat_eq; simp [BitVec.toNat_twoPow]
  rw [this]; simp [h]

@[simp] theorem State.gq_gqErr (s : State) (c : Ci) (q : Bool) (b : Nat) :
    ((s.gqErr c q b).inst c).gq q = ((s.inst c).gq q).setErr (s.hwSet (.qerr c q) ((s.inst c).gq q).err b 15) := by
  show ((s.modGq c q fun g => g.setErr (s.hwSet (.qerr c q) ((s.inst c).gq q).err b 15)).inst c).gq q = _
  simp

/-! ### `State.setInst` -/

@[simp] theorem State.setInst_pending (s : State) (c : Ci) (i : Inst) : (s.setInst c i).pending = s.pending := rfl
@[simp] theorem State.setInst_clk (s : State) (c : Ci) (i : Inst) : (s.setInst c i).clk = s.clk := rfl
@[simp] theorem State.setInst_coldLow (s : State) (c : Ci) (i : Inst) : (s.setInst c i).coldLow = s.coldLow := rfl
@[simp] theorem State.setInst_warmLow (s : State) (c : Ci) (i : Inst) : (s.setInst c i).warmLow = s.warmLow := rfl
@[simp] theorem State.setInst_warmRel (s : State) (c : Ci) (i : Inst) : (s.setInst c i).warmRel = s.warmRel := rfl
@[simp] theorem State.setInst_strapProf (s : State) (c : Ci) (i : Inst) : (s.setInst c i).strapProf = s.strapProf := rfl
@[simp] theorem State.setInst_strapTwin (s : State) (c : Ci) (i : Inst) : (s.setInst c i).strapTwin = s.strapTwin := rfl
@[simp] theorem State.setInst_ready (s : State) (c : Ci) (i : Inst) : (s.setInst c i).ready = s.ready := rfl
@[simp] theorem State.setInst_halt (s : State) (c : Ci) (i : Inst) : (s.setInst c i).halt = s.halt := rfl
@[simp] theorem State.setInst_sched (s : State) (c : Ci) (i : Inst) : (s.setInst c i).sched = s.sched := rfl
@[simp] theorem State.setInst_soon (s : State) (c : Ci) (i : Inst) : (s.setInst c i).soon = s.soon := rfl
@[simp] theorem State.setInst_mc (s : State) (c : Ci) (i : Inst) : (s.setInst c i).mc = s.mc := rfl
@[simp] theorem State.setInst_params (s : State) (c : Ci) (i : Inst) : (s.setInst c i).params = s.params := rfl
@[simp] theorem State.setInst_errLog (s : State) (c : Ci) (i : Inst) : (s.setInst c i).errLog = s.errLog := rfl
@[simp] theorem State.setInst_errLost (s : State) (c : Ci) (i : Inst) : (s.setInst c i).errLost = s.errLost := rfl
@[simp] theorem State.setInst_vlog (s : State) (c : Ci) (i : Inst) : (s.setInst c i).vlog = s.vlog := rfl
@[simp] theorem State.setInst_vlogLost (s : State) (c : Ci) (i : Inst) : (s.setInst c i).vlogLost = s.vlogLost := rfl
@[simp] theorem State.setInst_buckets (s : State) (c : Ci) (i : Inst) : (s.setInst c i).buckets = s.buckets := rfl
@[simp] theorem State.setInst_leak (s : State) (c : Ci) (i : Inst) : (s.setInst c i).leak = s.leak := rfl
@[simp] theorem State.setInst_ret (s : State) (c : Ci) (i : Inst) : (s.setInst c i).ret = s.ret := rfl
@[simp] theorem State.setInst_arbMode (s : State) (c : Ci) (i : Inst) : (s.setInst c i).arbMode = s.arbMode := rfl
@[simp] theorem State.setInst_regs (s : State) (c : Ci) (i : Inst) : (s.setInst c i).regs = s.regs := rfl
@[simp] theorem State.setInst_irt (s : State) (c : Ci) (i : Inst) : (s.setInst c i).irt = s.irt := rfl
@[simp] theorem State.setInst_agents (s : State) (c : Ci) (i : Inst) : (s.setInst c i).agents = s.agents := rfl
@[simp] theorem State.setInst_lports (s : State) (c : Ci) (i : Inst) : (s.setInst c i).lports = s.lports := rfl
@[simp] theorem State.setInst_ports (s : State) (c : Ci) (i : Inst) : (s.setInst c i).ports = s.ports := rfl
@[simp] theorem State.setInst_pss (s : State) (c : Ci) (i : Inst) : (s.setInst c i).pss = s.pss := rfl
@[simp] theorem State.setInst_slices (s : State) (c : Ci) (i : Inst) : (s.setInst c i).slices = s.slices := rfl
@[simp] theorem State.setInst_mss (s : State) (c : Ci) (i : Inst) : (s.setInst c i).mss = s.mss := rfl
@[simp] theorem State.setInst_arb0 (s : State) (c : Ci) (i : Inst) : (s.setInst c i).arb0 = s.arb0 := rfl
@[simp] theorem State.setInst_arb1 (s : State) (c : Ci) (i : Inst) : (s.setInst c i).arb1 = s.arb1 := rfl
@[simp] theorem State.setInst_arbB (s : State) (c : Ci) (i : Inst) : (s.setInst c i).arbB = s.arbB := rfl
@[simp] theorem State.setInst_te0 (s : State) (c : Ci) (i : Inst) : (s.setInst c i).te0 = s.te0 := rfl
@[simp] theorem State.setInst_te1 (s : State) (c : Ci) (i : Inst) : (s.setInst c i).te1 = s.te1 := rfl
@[simp] theorem State.setInst_be (s : State) (c : Ci) (i : Inst) : (s.setInst c i).be = s.be := rfl
@[simp] theorem State.setInst_obs (s : State) (c : Ci) (i : Inst) : (s.setInst c i).obs = s.obs := rfl
@[simp] theorem State.setInst_tw (s : State) (c : Ci) (i : Inst) : (s.setInst c i).tw = s.tw := rfl
@[simp] theorem State.setInst_mesh (s : State) (c : Ci) (i : Inst) : (s.setInst c i).mesh = s.mesh := rfl
@[simp] theorem State.setInst_pd (s : State) (c : Ci) (i : Inst) : (s.setInst c i).pd = s.pd := rfl
@[simp] theorem State.setInst_smap (s : State) (c : Ci) (i : Inst) : (s.setInst c i).smap = s.smap := rfl
@[simp] theorem State.setInst_smep (s : State) (c : Ci) (i : Inst) : (s.setInst c i).smep = s.smep := rfl
@[simp] theorem State.setInst_fold (s : State) (c : Ci) (i : Inst) : (s.setInst c i).fold = s.fold := rfl
@[simp] theorem State.setInst_parked (s : State) (c : Ci) (i : Inst) : (s.setInst c i).parked = s.parked := rfl
@[simp] theorem State.setInst_latched (s : State) (c : Ci) (i : Inst) : (s.setInst c i).latched = s.latched := rfl
@[simp] theorem State.setInst_calSum (s : State) (c : Ci) (i : Inst) : (s.setInst c i).calSum = s.calSum := rfl
@[simp] theorem State.setInst_calSeen (s : State) (c : Ci) (i : Inst) : (s.setInst c i).calSeen = s.calSeen := rfl
@[simp] theorem State.setInst_gpfSeq (s : State) (c : Ci) (i : Inst) : (s.setInst c i).gpfSeq = s.gpfSeq := rfl
@[simp] theorem State.setInst_out (s : State) (c : Ci) (i : Inst) : (s.setInst c i).out = s.out := rfl
@[simp] theorem State.setInst_cuts (s : State) (c : Ci) (i : Inst) : (s.setInst c i).cuts = s.cuts := rfl

/-! ### `State.modInst` -/

@[simp] theorem State.modInst_pending (s : State) (c : Ci) (f : Inst → Inst) : (s.modInst c f).pending = s.pending := rfl
@[simp] theorem State.modInst_clk (s : State) (c : Ci) (f : Inst → Inst) : (s.modInst c f).clk = s.clk := rfl
@[simp] theorem State.modInst_coldLow (s : State) (c : Ci) (f : Inst → Inst) : (s.modInst c f).coldLow = s.coldLow := rfl
@[simp] theorem State.modInst_warmLow (s : State) (c : Ci) (f : Inst → Inst) : (s.modInst c f).warmLow = s.warmLow := rfl
@[simp] theorem State.modInst_warmRel (s : State) (c : Ci) (f : Inst → Inst) : (s.modInst c f).warmRel = s.warmRel := rfl
@[simp] theorem State.modInst_strapProf (s : State) (c : Ci) (f : Inst → Inst) : (s.modInst c f).strapProf = s.strapProf := rfl
@[simp] theorem State.modInst_strapTwin (s : State) (c : Ci) (f : Inst → Inst) : (s.modInst c f).strapTwin = s.strapTwin := rfl
@[simp] theorem State.modInst_ready (s : State) (c : Ci) (f : Inst → Inst) : (s.modInst c f).ready = s.ready := rfl
@[simp] theorem State.modInst_halt (s : State) (c : Ci) (f : Inst → Inst) : (s.modInst c f).halt = s.halt := rfl
@[simp] theorem State.modInst_sched (s : State) (c : Ci) (f : Inst → Inst) : (s.modInst c f).sched = s.sched := rfl
@[simp] theorem State.modInst_soon (s : State) (c : Ci) (f : Inst → Inst) : (s.modInst c f).soon = s.soon := rfl
@[simp] theorem State.modInst_mc (s : State) (c : Ci) (f : Inst → Inst) : (s.modInst c f).mc = s.mc := rfl
@[simp] theorem State.modInst_params (s : State) (c : Ci) (f : Inst → Inst) : (s.modInst c f).params = s.params := rfl
@[simp] theorem State.modInst_errLog (s : State) (c : Ci) (f : Inst → Inst) : (s.modInst c f).errLog = s.errLog := rfl
@[simp] theorem State.modInst_errLost (s : State) (c : Ci) (f : Inst → Inst) : (s.modInst c f).errLost = s.errLost := rfl
@[simp] theorem State.modInst_vlog (s : State) (c : Ci) (f : Inst → Inst) : (s.modInst c f).vlog = s.vlog := rfl
@[simp] theorem State.modInst_vlogLost (s : State) (c : Ci) (f : Inst → Inst) : (s.modInst c f).vlogLost = s.vlogLost := rfl
@[simp] theorem State.modInst_buckets (s : State) (c : Ci) (f : Inst → Inst) : (s.modInst c f).buckets = s.buckets := rfl
@[simp] theorem State.modInst_leak (s : State) (c : Ci) (f : Inst → Inst) : (s.modInst c f).leak = s.leak := rfl
@[simp] theorem State.modInst_ret (s : State) (c : Ci) (f : Inst → Inst) : (s.modInst c f).ret = s.ret := rfl
@[simp] theorem State.modInst_arbMode (s : State) (c : Ci) (f : Inst → Inst) : (s.modInst c f).arbMode = s.arbMode := rfl
@[simp] theorem State.modInst_regs (s : State) (c : Ci) (f : Inst → Inst) : (s.modInst c f).regs = s.regs := rfl
@[simp] theorem State.modInst_irt (s : State) (c : Ci) (f : Inst → Inst) : (s.modInst c f).irt = s.irt := rfl
@[simp] theorem State.modInst_agents (s : State) (c : Ci) (f : Inst → Inst) : (s.modInst c f).agents = s.agents := rfl
@[simp] theorem State.modInst_lports (s : State) (c : Ci) (f : Inst → Inst) : (s.modInst c f).lports = s.lports := rfl
@[simp] theorem State.modInst_ports (s : State) (c : Ci) (f : Inst → Inst) : (s.modInst c f).ports = s.ports := rfl
@[simp] theorem State.modInst_pss (s : State) (c : Ci) (f : Inst → Inst) : (s.modInst c f).pss = s.pss := rfl
@[simp] theorem State.modInst_slices (s : State) (c : Ci) (f : Inst → Inst) : (s.modInst c f).slices = s.slices := rfl
@[simp] theorem State.modInst_mss (s : State) (c : Ci) (f : Inst → Inst) : (s.modInst c f).mss = s.mss := rfl
@[simp] theorem State.modInst_arb0 (s : State) (c : Ci) (f : Inst → Inst) : (s.modInst c f).arb0 = s.arb0 := rfl
@[simp] theorem State.modInst_arb1 (s : State) (c : Ci) (f : Inst → Inst) : (s.modInst c f).arb1 = s.arb1 := rfl
@[simp] theorem State.modInst_arbB (s : State) (c : Ci) (f : Inst → Inst) : (s.modInst c f).arbB = s.arbB := rfl
@[simp] theorem State.modInst_te0 (s : State) (c : Ci) (f : Inst → Inst) : (s.modInst c f).te0 = s.te0 := rfl
@[simp] theorem State.modInst_te1 (s : State) (c : Ci) (f : Inst → Inst) : (s.modInst c f).te1 = s.te1 := rfl
@[simp] theorem State.modInst_be (s : State) (c : Ci) (f : Inst → Inst) : (s.modInst c f).be = s.be := rfl
@[simp] theorem State.modInst_obs (s : State) (c : Ci) (f : Inst → Inst) : (s.modInst c f).obs = s.obs := rfl
@[simp] theorem State.modInst_tw (s : State) (c : Ci) (f : Inst → Inst) : (s.modInst c f).tw = s.tw := rfl
@[simp] theorem State.modInst_mesh (s : State) (c : Ci) (f : Inst → Inst) : (s.modInst c f).mesh = s.mesh := rfl
@[simp] theorem State.modInst_pd (s : State) (c : Ci) (f : Inst → Inst) : (s.modInst c f).pd = s.pd := rfl
@[simp] theorem State.modInst_smap (s : State) (c : Ci) (f : Inst → Inst) : (s.modInst c f).smap = s.smap := rfl
@[simp] theorem State.modInst_smep (s : State) (c : Ci) (f : Inst → Inst) : (s.modInst c f).smep = s.smep := rfl
@[simp] theorem State.modInst_fold (s : State) (c : Ci) (f : Inst → Inst) : (s.modInst c f).fold = s.fold := rfl
@[simp] theorem State.modInst_parked (s : State) (c : Ci) (f : Inst → Inst) : (s.modInst c f).parked = s.parked := rfl
@[simp] theorem State.modInst_latched (s : State) (c : Ci) (f : Inst → Inst) : (s.modInst c f).latched = s.latched := rfl
@[simp] theorem State.modInst_calSum (s : State) (c : Ci) (f : Inst → Inst) : (s.modInst c f).calSum = s.calSum := rfl
@[simp] theorem State.modInst_calSeen (s : State) (c : Ci) (f : Inst → Inst) : (s.modInst c f).calSeen = s.calSeen := rfl
@[simp] theorem State.modInst_gpfSeq (s : State) (c : Ci) (f : Inst → Inst) : (s.modInst c f).gpfSeq = s.gpfSeq := rfl
@[simp] theorem State.modInst_out (s : State) (c : Ci) (f : Inst → Inst) : (s.modInst c f).out = s.out := rfl
@[simp] theorem State.modInst_cuts (s : State) (c : Ci) (f : Inst → Inst) : (s.modInst c f).cuts = s.cuts := rfl

/-! ### `State.setSlice` -/

@[simp] theorem State.setSlice_pending (s : State) (n : Hs) (x : Slice) : (s.setSlice n x).pending = s.pending := rfl
@[simp] theorem State.setSlice_clk (s : State) (n : Hs) (x : Slice) : (s.setSlice n x).clk = s.clk := rfl
@[simp] theorem State.setSlice_coldLow (s : State) (n : Hs) (x : Slice) : (s.setSlice n x).coldLow = s.coldLow := rfl
@[simp] theorem State.setSlice_warmLow (s : State) (n : Hs) (x : Slice) : (s.setSlice n x).warmLow = s.warmLow := rfl
@[simp] theorem State.setSlice_warmRel (s : State) (n : Hs) (x : Slice) : (s.setSlice n x).warmRel = s.warmRel := rfl
@[simp] theorem State.setSlice_strapProf (s : State) (n : Hs) (x : Slice) : (s.setSlice n x).strapProf = s.strapProf := rfl
@[simp] theorem State.setSlice_strapTwin (s : State) (n : Hs) (x : Slice) : (s.setSlice n x).strapTwin = s.strapTwin := rfl
@[simp] theorem State.setSlice_ready (s : State) (n : Hs) (x : Slice) : (s.setSlice n x).ready = s.ready := rfl
@[simp] theorem State.setSlice_halt (s : State) (n : Hs) (x : Slice) : (s.setSlice n x).halt = s.halt := rfl
@[simp] theorem State.setSlice_sched (s : State) (n : Hs) (x : Slice) : (s.setSlice n x).sched = s.sched := rfl
@[simp] theorem State.setSlice_soon (s : State) (n : Hs) (x : Slice) : (s.setSlice n x).soon = s.soon := rfl
@[simp] theorem State.setSlice_mc (s : State) (n : Hs) (x : Slice) : (s.setSlice n x).mc = s.mc := rfl
@[simp] theorem State.setSlice_params (s : State) (n : Hs) (x : Slice) : (s.setSlice n x).params = s.params := rfl
@[simp] theorem State.setSlice_errLog (s : State) (n : Hs) (x : Slice) : (s.setSlice n x).errLog = s.errLog := rfl
@[simp] theorem State.setSlice_errLost (s : State) (n : Hs) (x : Slice) : (s.setSlice n x).errLost = s.errLost := rfl
@[simp] theorem State.setSlice_vlog (s : State) (n : Hs) (x : Slice) : (s.setSlice n x).vlog = s.vlog := rfl
@[simp] theorem State.setSlice_vlogLost (s : State) (n : Hs) (x : Slice) : (s.setSlice n x).vlogLost = s.vlogLost := rfl
@[simp] theorem State.setSlice_buckets (s : State) (n : Hs) (x : Slice) : (s.setSlice n x).buckets = s.buckets := rfl
@[simp] theorem State.setSlice_leak (s : State) (n : Hs) (x : Slice) : (s.setSlice n x).leak = s.leak := rfl
@[simp] theorem State.setSlice_ret (s : State) (n : Hs) (x : Slice) : (s.setSlice n x).ret = s.ret := rfl
@[simp] theorem State.setSlice_arbMode (s : State) (n : Hs) (x : Slice) : (s.setSlice n x).arbMode = s.arbMode := rfl
@[simp] theorem State.setSlice_regs (s : State) (n : Hs) (x : Slice) : (s.setSlice n x).regs = s.regs := rfl
@[simp] theorem State.setSlice_insts (s : State) (n : Hs) (x : Slice) : (s.setSlice n x).insts = s.insts := rfl
@[simp] theorem State.setSlice_irt (s : State) (n : Hs) (x : Slice) : (s.setSlice n x).irt = s.irt := rfl
@[simp] theorem State.setSlice_agents (s : State) (n : Hs) (x : Slice) : (s.setSlice n x).agents = s.agents := rfl
@[simp] theorem State.setSlice_lports (s : State) (n : Hs) (x : Slice) : (s.setSlice n x).lports = s.lports := rfl
@[simp] theorem State.setSlice_ports (s : State) (n : Hs) (x : Slice) : (s.setSlice n x).ports = s.ports := rfl
@[simp] theorem State.setSlice_pss (s : State) (n : Hs) (x : Slice) : (s.setSlice n x).pss = s.pss := rfl
@[simp] theorem State.setSlice_mss (s : State) (n : Hs) (x : Slice) : (s.setSlice n x).mss = s.mss := rfl
@[simp] theorem State.setSlice_arb0 (s : State) (n : Hs) (x : Slice) : (s.setSlice n x).arb0 = s.arb0 := rfl
@[simp] theorem State.setSlice_arb1 (s : State) (n : Hs) (x : Slice) : (s.setSlice n x).arb1 = s.arb1 := rfl
@[simp] theorem State.setSlice_arbB (s : State) (n : Hs) (x : Slice) : (s.setSlice n x).arbB = s.arbB := rfl
@[simp] theorem State.setSlice_te0 (s : State) (n : Hs) (x : Slice) : (s.setSlice n x).te0 = s.te0 := rfl
@[simp] theorem State.setSlice_te1 (s : State) (n : Hs) (x : Slice) : (s.setSlice n x).te1 = s.te1 := rfl
@[simp] theorem State.setSlice_be (s : State) (n : Hs) (x : Slice) : (s.setSlice n x).be = s.be := rfl
@[simp] theorem State.setSlice_obs (s : State) (n : Hs) (x : Slice) : (s.setSlice n x).obs = s.obs := rfl
@[simp] theorem State.setSlice_tw (s : State) (n : Hs) (x : Slice) : (s.setSlice n x).tw = s.tw := rfl
@[simp] theorem State.setSlice_mesh (s : State) (n : Hs) (x : Slice) : (s.setSlice n x).mesh = s.mesh := rfl
@[simp] theorem State.setSlice_pd (s : State) (n : Hs) (x : Slice) : (s.setSlice n x).pd = s.pd := rfl
@[simp] theorem State.setSlice_smap (s : State) (n : Hs) (x : Slice) : (s.setSlice n x).smap = s.smap := rfl
@[simp] theorem State.setSlice_smep (s : State) (n : Hs) (x : Slice) : (s.setSlice n x).smep = s.smep := rfl
@[simp] theorem State.setSlice_fold (s : State) (n : Hs) (x : Slice) : (s.setSlice n x).fold = s.fold := rfl
@[simp] theorem State.setSlice_parked (s : State) (n : Hs) (x : Slice) : (s.setSlice n x).parked = s.parked := rfl
@[simp] theorem State.setSlice_latched (s : State) (n : Hs) (x : Slice) : (s.setSlice n x).latched = s.latched := rfl
@[simp] theorem State.setSlice_calSum (s : State) (n : Hs) (x : Slice) : (s.setSlice n x).calSum = s.calSum := rfl
@[simp] theorem State.setSlice_calSeen (s : State) (n : Hs) (x : Slice) : (s.setSlice n x).calSeen = s.calSeen := rfl
@[simp] theorem State.setSlice_gpfSeq (s : State) (n : Hs) (x : Slice) : (s.setSlice n x).gpfSeq = s.gpfSeq := rfl
@[simp] theorem State.setSlice_out (s : State) (n : Hs) (x : Slice) : (s.setSlice n x).out = s.out := rfl
@[simp] theorem State.setSlice_cuts (s : State) (n : Hs) (x : Slice) : (s.setSlice n x).cuts = s.cuts := rfl

/-! ### `State.modSlice` -/

@[simp] theorem State.modSlice_pending (s : State) (n : Hs) (f : Slice → Slice) : (s.modSlice n f).pending = s.pending := rfl
@[simp] theorem State.modSlice_clk (s : State) (n : Hs) (f : Slice → Slice) : (s.modSlice n f).clk = s.clk := rfl
@[simp] theorem State.modSlice_coldLow (s : State) (n : Hs) (f : Slice → Slice) : (s.modSlice n f).coldLow = s.coldLow := rfl
@[simp] theorem State.modSlice_warmLow (s : State) (n : Hs) (f : Slice → Slice) : (s.modSlice n f).warmLow = s.warmLow := rfl
@[simp] theorem State.modSlice_warmRel (s : State) (n : Hs) (f : Slice → Slice) : (s.modSlice n f).warmRel = s.warmRel := rfl
@[simp] theorem State.modSlice_strapProf (s : State) (n : Hs) (f : Slice → Slice) : (s.modSlice n f).strapProf = s.strapProf := rfl
@[simp] theorem State.modSlice_strapTwin (s : State) (n : Hs) (f : Slice → Slice) : (s.modSlice n f).strapTwin = s.strapTwin := rfl
@[simp] theorem State.modSlice_ready (s : State) (n : Hs) (f : Slice → Slice) : (s.modSlice n f).ready = s.ready := rfl
@[simp] theorem State.modSlice_halt (s : State) (n : Hs) (f : Slice → Slice) : (s.modSlice n f).halt = s.halt := rfl
@[simp] theorem State.modSlice_sched (s : State) (n : Hs) (f : Slice → Slice) : (s.modSlice n f).sched = s.sched := rfl
@[simp] theorem State.modSlice_soon (s : State) (n : Hs) (f : Slice → Slice) : (s.modSlice n f).soon = s.soon := rfl
@[simp] theorem State.modSlice_mc (s : State) (n : Hs) (f : Slice → Slice) : (s.modSlice n f).mc = s.mc := rfl
@[simp] theorem State.modSlice_params (s : State) (n : Hs) (f : Slice → Slice) : (s.modSlice n f).params = s.params := rfl
@[simp] theorem State.modSlice_errLog (s : State) (n : Hs) (f : Slice → Slice) : (s.modSlice n f).errLog = s.errLog := rfl
@[simp] theorem State.modSlice_errLost (s : State) (n : Hs) (f : Slice → Slice) : (s.modSlice n f).errLost = s.errLost := rfl
@[simp] theorem State.modSlice_vlog (s : State) (n : Hs) (f : Slice → Slice) : (s.modSlice n f).vlog = s.vlog := rfl
@[simp] theorem State.modSlice_vlogLost (s : State) (n : Hs) (f : Slice → Slice) : (s.modSlice n f).vlogLost = s.vlogLost := rfl
@[simp] theorem State.modSlice_buckets (s : State) (n : Hs) (f : Slice → Slice) : (s.modSlice n f).buckets = s.buckets := rfl
@[simp] theorem State.modSlice_leak (s : State) (n : Hs) (f : Slice → Slice) : (s.modSlice n f).leak = s.leak := rfl
@[simp] theorem State.modSlice_ret (s : State) (n : Hs) (f : Slice → Slice) : (s.modSlice n f).ret = s.ret := rfl
@[simp] theorem State.modSlice_arbMode (s : State) (n : Hs) (f : Slice → Slice) : (s.modSlice n f).arbMode = s.arbMode := rfl
@[simp] theorem State.modSlice_regs (s : State) (n : Hs) (f : Slice → Slice) : (s.modSlice n f).regs = s.regs := rfl
@[simp] theorem State.modSlice_insts (s : State) (n : Hs) (f : Slice → Slice) : (s.modSlice n f).insts = s.insts := rfl
@[simp] theorem State.modSlice_irt (s : State) (n : Hs) (f : Slice → Slice) : (s.modSlice n f).irt = s.irt := rfl
@[simp] theorem State.modSlice_agents (s : State) (n : Hs) (f : Slice → Slice) : (s.modSlice n f).agents = s.agents := rfl
@[simp] theorem State.modSlice_lports (s : State) (n : Hs) (f : Slice → Slice) : (s.modSlice n f).lports = s.lports := rfl
@[simp] theorem State.modSlice_ports (s : State) (n : Hs) (f : Slice → Slice) : (s.modSlice n f).ports = s.ports := rfl
@[simp] theorem State.modSlice_pss (s : State) (n : Hs) (f : Slice → Slice) : (s.modSlice n f).pss = s.pss := rfl
@[simp] theorem State.modSlice_mss (s : State) (n : Hs) (f : Slice → Slice) : (s.modSlice n f).mss = s.mss := rfl
@[simp] theorem State.modSlice_arb0 (s : State) (n : Hs) (f : Slice → Slice) : (s.modSlice n f).arb0 = s.arb0 := rfl
@[simp] theorem State.modSlice_arb1 (s : State) (n : Hs) (f : Slice → Slice) : (s.modSlice n f).arb1 = s.arb1 := rfl
@[simp] theorem State.modSlice_arbB (s : State) (n : Hs) (f : Slice → Slice) : (s.modSlice n f).arbB = s.arbB := rfl
@[simp] theorem State.modSlice_te0 (s : State) (n : Hs) (f : Slice → Slice) : (s.modSlice n f).te0 = s.te0 := rfl
@[simp] theorem State.modSlice_te1 (s : State) (n : Hs) (f : Slice → Slice) : (s.modSlice n f).te1 = s.te1 := rfl
@[simp] theorem State.modSlice_be (s : State) (n : Hs) (f : Slice → Slice) : (s.modSlice n f).be = s.be := rfl
@[simp] theorem State.modSlice_obs (s : State) (n : Hs) (f : Slice → Slice) : (s.modSlice n f).obs = s.obs := rfl
@[simp] theorem State.modSlice_tw (s : State) (n : Hs) (f : Slice → Slice) : (s.modSlice n f).tw = s.tw := rfl
@[simp] theorem State.modSlice_mesh (s : State) (n : Hs) (f : Slice → Slice) : (s.modSlice n f).mesh = s.mesh := rfl
@[simp] theorem State.modSlice_pd (s : State) (n : Hs) (f : Slice → Slice) : (s.modSlice n f).pd = s.pd := rfl
@[simp] theorem State.modSlice_smap (s : State) (n : Hs) (f : Slice → Slice) : (s.modSlice n f).smap = s.smap := rfl
@[simp] theorem State.modSlice_smep (s : State) (n : Hs) (f : Slice → Slice) : (s.modSlice n f).smep = s.smep := rfl
@[simp] theorem State.modSlice_fold (s : State) (n : Hs) (f : Slice → Slice) : (s.modSlice n f).fold = s.fold := rfl
@[simp] theorem State.modSlice_parked (s : State) (n : Hs) (f : Slice → Slice) : (s.modSlice n f).parked = s.parked := rfl
@[simp] theorem State.modSlice_latched (s : State) (n : Hs) (f : Slice → Slice) : (s.modSlice n f).latched = s.latched := rfl
@[simp] theorem State.modSlice_calSum (s : State) (n : Hs) (f : Slice → Slice) : (s.modSlice n f).calSum = s.calSum := rfl
@[simp] theorem State.modSlice_calSeen (s : State) (n : Hs) (f : Slice → Slice) : (s.modSlice n f).calSeen = s.calSeen := rfl
@[simp] theorem State.modSlice_gpfSeq (s : State) (n : Hs) (f : Slice → Slice) : (s.modSlice n f).gpfSeq = s.gpfSeq := rfl
@[simp] theorem State.modSlice_out (s : State) (n : Hs) (f : Slice → Slice) : (s.modSlice n f).out = s.out := rfl
@[simp] theorem State.modSlice_cuts (s : State) (n : Hs) (f : Slice → Slice) : (s.modSlice n f).cuts = s.cuts := rfl

/-! ### `State.setPs` -/

@[simp] theorem State.setPs_pending (s : State) (n : Stn) (x : PSt) : (s.setPs n x).pending = s.pending := rfl
@[simp] theorem State.setPs_clk (s : State) (n : Stn) (x : PSt) : (s.setPs n x).clk = s.clk := rfl
@[simp] theorem State.setPs_coldLow (s : State) (n : Stn) (x : PSt) : (s.setPs n x).coldLow = s.coldLow := rfl
@[simp] theorem State.setPs_warmLow (s : State) (n : Stn) (x : PSt) : (s.setPs n x).warmLow = s.warmLow := rfl
@[simp] theorem State.setPs_warmRel (s : State) (n : Stn) (x : PSt) : (s.setPs n x).warmRel = s.warmRel := rfl
@[simp] theorem State.setPs_strapProf (s : State) (n : Stn) (x : PSt) : (s.setPs n x).strapProf = s.strapProf := rfl
@[simp] theorem State.setPs_strapTwin (s : State) (n : Stn) (x : PSt) : (s.setPs n x).strapTwin = s.strapTwin := rfl
@[simp] theorem State.setPs_ready (s : State) (n : Stn) (x : PSt) : (s.setPs n x).ready = s.ready := rfl
@[simp] theorem State.setPs_halt (s : State) (n : Stn) (x : PSt) : (s.setPs n x).halt = s.halt := rfl
@[simp] theorem State.setPs_sched (s : State) (n : Stn) (x : PSt) : (s.setPs n x).sched = s.sched := rfl
@[simp] theorem State.setPs_soon (s : State) (n : Stn) (x : PSt) : (s.setPs n x).soon = s.soon := rfl
@[simp] theorem State.setPs_mc (s : State) (n : Stn) (x : PSt) : (s.setPs n x).mc = s.mc := rfl
@[simp] theorem State.setPs_params (s : State) (n : Stn) (x : PSt) : (s.setPs n x).params = s.params := rfl
@[simp] theorem State.setPs_errLog (s : State) (n : Stn) (x : PSt) : (s.setPs n x).errLog = s.errLog := rfl
@[simp] theorem State.setPs_errLost (s : State) (n : Stn) (x : PSt) : (s.setPs n x).errLost = s.errLost := rfl
@[simp] theorem State.setPs_vlog (s : State) (n : Stn) (x : PSt) : (s.setPs n x).vlog = s.vlog := rfl
@[simp] theorem State.setPs_vlogLost (s : State) (n : Stn) (x : PSt) : (s.setPs n x).vlogLost = s.vlogLost := rfl
@[simp] theorem State.setPs_buckets (s : State) (n : Stn) (x : PSt) : (s.setPs n x).buckets = s.buckets := rfl
@[simp] theorem State.setPs_leak (s : State) (n : Stn) (x : PSt) : (s.setPs n x).leak = s.leak := rfl
@[simp] theorem State.setPs_ret (s : State) (n : Stn) (x : PSt) : (s.setPs n x).ret = s.ret := rfl
@[simp] theorem State.setPs_arbMode (s : State) (n : Stn) (x : PSt) : (s.setPs n x).arbMode = s.arbMode := rfl
@[simp] theorem State.setPs_regs (s : State) (n : Stn) (x : PSt) : (s.setPs n x).regs = s.regs := rfl
@[simp] theorem State.setPs_insts (s : State) (n : Stn) (x : PSt) : (s.setPs n x).insts = s.insts := rfl
@[simp] theorem State.setPs_irt (s : State) (n : Stn) (x : PSt) : (s.setPs n x).irt = s.irt := rfl
@[simp] theorem State.setPs_agents (s : State) (n : Stn) (x : PSt) : (s.setPs n x).agents = s.agents := rfl
@[simp] theorem State.setPs_lports (s : State) (n : Stn) (x : PSt) : (s.setPs n x).lports = s.lports := rfl
@[simp] theorem State.setPs_ports (s : State) (n : Stn) (x : PSt) : (s.setPs n x).ports = s.ports := rfl
@[simp] theorem State.setPs_slices (s : State) (n : Stn) (x : PSt) : (s.setPs n x).slices = s.slices := rfl
@[simp] theorem State.setPs_mss (s : State) (n : Stn) (x : PSt) : (s.setPs n x).mss = s.mss := rfl
@[simp] theorem State.setPs_arb0 (s : State) (n : Stn) (x : PSt) : (s.setPs n x).arb0 = s.arb0 := rfl
@[simp] theorem State.setPs_arb1 (s : State) (n : Stn) (x : PSt) : (s.setPs n x).arb1 = s.arb1 := rfl
@[simp] theorem State.setPs_arbB (s : State) (n : Stn) (x : PSt) : (s.setPs n x).arbB = s.arbB := rfl
@[simp] theorem State.setPs_te0 (s : State) (n : Stn) (x : PSt) : (s.setPs n x).te0 = s.te0 := rfl
@[simp] theorem State.setPs_te1 (s : State) (n : Stn) (x : PSt) : (s.setPs n x).te1 = s.te1 := rfl
@[simp] theorem State.setPs_be (s : State) (n : Stn) (x : PSt) : (s.setPs n x).be = s.be := rfl
@[simp] theorem State.setPs_obs (s : State) (n : Stn) (x : PSt) : (s.setPs n x).obs = s.obs := rfl
@[simp] theorem State.setPs_tw (s : State) (n : Stn) (x : PSt) : (s.setPs n x).tw = s.tw := rfl
@[simp] theorem State.setPs_mesh (s : State) (n : Stn) (x : PSt) : (s.setPs n x).mesh = s.mesh := rfl
@[simp] theorem State.setPs_pd (s : State) (n : Stn) (x : PSt) : (s.setPs n x).pd = s.pd := rfl
@[simp] theorem State.setPs_smap (s : State) (n : Stn) (x : PSt) : (s.setPs n x).smap = s.smap := rfl
@[simp] theorem State.setPs_smep (s : State) (n : Stn) (x : PSt) : (s.setPs n x).smep = s.smep := rfl
@[simp] theorem State.setPs_fold (s : State) (n : Stn) (x : PSt) : (s.setPs n x).fold = s.fold := rfl
@[simp] theorem State.setPs_parked (s : State) (n : Stn) (x : PSt) : (s.setPs n x).parked = s.parked := rfl
@[simp] theorem State.setPs_latched (s : State) (n : Stn) (x : PSt) : (s.setPs n x).latched = s.latched := rfl
@[simp] theorem State.setPs_calSum (s : State) (n : Stn) (x : PSt) : (s.setPs n x).calSum = s.calSum := rfl
@[simp] theorem State.setPs_calSeen (s : State) (n : Stn) (x : PSt) : (s.setPs n x).calSeen = s.calSeen := rfl
@[simp] theorem State.setPs_gpfSeq (s : State) (n : Stn) (x : PSt) : (s.setPs n x).gpfSeq = s.gpfSeq := rfl
@[simp] theorem State.setPs_out (s : State) (n : Stn) (x : PSt) : (s.setPs n x).out = s.out := rfl
@[simp] theorem State.setPs_cuts (s : State) (n : Stn) (x : PSt) : (s.setPs n x).cuts = s.cuts := rfl

/-! ### `State.modPs` -/

@[simp] theorem State.modPs_pending (s : State) (n : Stn) (f : PSt → PSt) : (s.modPs n f).pending = s.pending := rfl
@[simp] theorem State.modPs_clk (s : State) (n : Stn) (f : PSt → PSt) : (s.modPs n f).clk = s.clk := rfl
@[simp] theorem State.modPs_coldLow (s : State) (n : Stn) (f : PSt → PSt) : (s.modPs n f).coldLow = s.coldLow := rfl
@[simp] theorem State.modPs_warmLow (s : State) (n : Stn) (f : PSt → PSt) : (s.modPs n f).warmLow = s.warmLow := rfl
@[simp] theorem State.modPs_warmRel (s : State) (n : Stn) (f : PSt → PSt) : (s.modPs n f).warmRel = s.warmRel := rfl
@[simp] theorem State.modPs_strapProf (s : State) (n : Stn) (f : PSt → PSt) : (s.modPs n f).strapProf = s.strapProf := rfl
@[simp] theorem State.modPs_strapTwin (s : State) (n : Stn) (f : PSt → PSt) : (s.modPs n f).strapTwin = s.strapTwin := rfl
@[simp] theorem State.modPs_ready (s : State) (n : Stn) (f : PSt → PSt) : (s.modPs n f).ready = s.ready := rfl
@[simp] theorem State.modPs_halt (s : State) (n : Stn) (f : PSt → PSt) : (s.modPs n f).halt = s.halt := rfl
@[simp] theorem State.modPs_sched (s : State) (n : Stn) (f : PSt → PSt) : (s.modPs n f).sched = s.sched := rfl
@[simp] theorem State.modPs_soon (s : State) (n : Stn) (f : PSt → PSt) : (s.modPs n f).soon = s.soon := rfl
@[simp] theorem State.modPs_mc (s : State) (n : Stn) (f : PSt → PSt) : (s.modPs n f).mc = s.mc := rfl
@[simp] theorem State.modPs_params (s : State) (n : Stn) (f : PSt → PSt) : (s.modPs n f).params = s.params := rfl
@[simp] theorem State.modPs_errLog (s : State) (n : Stn) (f : PSt → PSt) : (s.modPs n f).errLog = s.errLog := rfl
@[simp] theorem State.modPs_errLost (s : State) (n : Stn) (f : PSt → PSt) : (s.modPs n f).errLost = s.errLost := rfl
@[simp] theorem State.modPs_vlog (s : State) (n : Stn) (f : PSt → PSt) : (s.modPs n f).vlog = s.vlog := rfl
@[simp] theorem State.modPs_vlogLost (s : State) (n : Stn) (f : PSt → PSt) : (s.modPs n f).vlogLost = s.vlogLost := rfl
@[simp] theorem State.modPs_buckets (s : State) (n : Stn) (f : PSt → PSt) : (s.modPs n f).buckets = s.buckets := rfl
@[simp] theorem State.modPs_leak (s : State) (n : Stn) (f : PSt → PSt) : (s.modPs n f).leak = s.leak := rfl
@[simp] theorem State.modPs_ret (s : State) (n : Stn) (f : PSt → PSt) : (s.modPs n f).ret = s.ret := rfl
@[simp] theorem State.modPs_arbMode (s : State) (n : Stn) (f : PSt → PSt) : (s.modPs n f).arbMode = s.arbMode := rfl
@[simp] theorem State.modPs_regs (s : State) (n : Stn) (f : PSt → PSt) : (s.modPs n f).regs = s.regs := rfl
@[simp] theorem State.modPs_insts (s : State) (n : Stn) (f : PSt → PSt) : (s.modPs n f).insts = s.insts := rfl
@[simp] theorem State.modPs_irt (s : State) (n : Stn) (f : PSt → PSt) : (s.modPs n f).irt = s.irt := rfl
@[simp] theorem State.modPs_agents (s : State) (n : Stn) (f : PSt → PSt) : (s.modPs n f).agents = s.agents := rfl
@[simp] theorem State.modPs_lports (s : State) (n : Stn) (f : PSt → PSt) : (s.modPs n f).lports = s.lports := rfl
@[simp] theorem State.modPs_ports (s : State) (n : Stn) (f : PSt → PSt) : (s.modPs n f).ports = s.ports := rfl
@[simp] theorem State.modPs_slices (s : State) (n : Stn) (f : PSt → PSt) : (s.modPs n f).slices = s.slices := rfl
@[simp] theorem State.modPs_mss (s : State) (n : Stn) (f : PSt → PSt) : (s.modPs n f).mss = s.mss := rfl
@[simp] theorem State.modPs_arb0 (s : State) (n : Stn) (f : PSt → PSt) : (s.modPs n f).arb0 = s.arb0 := rfl
@[simp] theorem State.modPs_arb1 (s : State) (n : Stn) (f : PSt → PSt) : (s.modPs n f).arb1 = s.arb1 := rfl
@[simp] theorem State.modPs_arbB (s : State) (n : Stn) (f : PSt → PSt) : (s.modPs n f).arbB = s.arbB := rfl
@[simp] theorem State.modPs_te0 (s : State) (n : Stn) (f : PSt → PSt) : (s.modPs n f).te0 = s.te0 := rfl
@[simp] theorem State.modPs_te1 (s : State) (n : Stn) (f : PSt → PSt) : (s.modPs n f).te1 = s.te1 := rfl
@[simp] theorem State.modPs_be (s : State) (n : Stn) (f : PSt → PSt) : (s.modPs n f).be = s.be := rfl
@[simp] theorem State.modPs_obs (s : State) (n : Stn) (f : PSt → PSt) : (s.modPs n f).obs = s.obs := rfl
@[simp] theorem State.modPs_tw (s : State) (n : Stn) (f : PSt → PSt) : (s.modPs n f).tw = s.tw := rfl
@[simp] theorem State.modPs_mesh (s : State) (n : Stn) (f : PSt → PSt) : (s.modPs n f).mesh = s.mesh := rfl
@[simp] theorem State.modPs_pd (s : State) (n : Stn) (f : PSt → PSt) : (s.modPs n f).pd = s.pd := rfl
@[simp] theorem State.modPs_smap (s : State) (n : Stn) (f : PSt → PSt) : (s.modPs n f).smap = s.smap := rfl
@[simp] theorem State.modPs_smep (s : State) (n : Stn) (f : PSt → PSt) : (s.modPs n f).smep = s.smep := rfl
@[simp] theorem State.modPs_fold (s : State) (n : Stn) (f : PSt → PSt) : (s.modPs n f).fold = s.fold := rfl
@[simp] theorem State.modPs_parked (s : State) (n : Stn) (f : PSt → PSt) : (s.modPs n f).parked = s.parked := rfl
@[simp] theorem State.modPs_latched (s : State) (n : Stn) (f : PSt → PSt) : (s.modPs n f).latched = s.latched := rfl
@[simp] theorem State.modPs_calSum (s : State) (n : Stn) (f : PSt → PSt) : (s.modPs n f).calSum = s.calSum := rfl
@[simp] theorem State.modPs_calSeen (s : State) (n : Stn) (f : PSt → PSt) : (s.modPs n f).calSeen = s.calSeen := rfl
@[simp] theorem State.modPs_gpfSeq (s : State) (n : Stn) (f : PSt → PSt) : (s.modPs n f).gpfSeq = s.gpfSeq := rfl
@[simp] theorem State.modPs_out (s : State) (n : Stn) (f : PSt → PSt) : (s.modPs n f).out = s.out := rfl
@[simp] theorem State.modPs_cuts (s : State) (n : Stn) (f : PSt → PSt) : (s.modPs n f).cuts = s.cuts := rfl

/-! ### `State.setMs` -/

@[simp] theorem State.setMs_pending (s : State) (n : Stn) (x : MSt) : (s.setMs n x).pending = s.pending := rfl
@[simp] theorem State.setMs_clk (s : State) (n : Stn) (x : MSt) : (s.setMs n x).clk = s.clk := rfl
@[simp] theorem State.setMs_coldLow (s : State) (n : Stn) (x : MSt) : (s.setMs n x).coldLow = s.coldLow := rfl
@[simp] theorem State.setMs_warmLow (s : State) (n : Stn) (x : MSt) : (s.setMs n x).warmLow = s.warmLow := rfl
@[simp] theorem State.setMs_warmRel (s : State) (n : Stn) (x : MSt) : (s.setMs n x).warmRel = s.warmRel := rfl
@[simp] theorem State.setMs_strapProf (s : State) (n : Stn) (x : MSt) : (s.setMs n x).strapProf = s.strapProf := rfl
@[simp] theorem State.setMs_strapTwin (s : State) (n : Stn) (x : MSt) : (s.setMs n x).strapTwin = s.strapTwin := rfl
@[simp] theorem State.setMs_ready (s : State) (n : Stn) (x : MSt) : (s.setMs n x).ready = s.ready := rfl
@[simp] theorem State.setMs_halt (s : State) (n : Stn) (x : MSt) : (s.setMs n x).halt = s.halt := rfl
@[simp] theorem State.setMs_sched (s : State) (n : Stn) (x : MSt) : (s.setMs n x).sched = s.sched := rfl
@[simp] theorem State.setMs_soon (s : State) (n : Stn) (x : MSt) : (s.setMs n x).soon = s.soon := rfl
@[simp] theorem State.setMs_mc (s : State) (n : Stn) (x : MSt) : (s.setMs n x).mc = s.mc := rfl
@[simp] theorem State.setMs_params (s : State) (n : Stn) (x : MSt) : (s.setMs n x).params = s.params := rfl
@[simp] theorem State.setMs_errLog (s : State) (n : Stn) (x : MSt) : (s.setMs n x).errLog = s.errLog := rfl
@[simp] theorem State.setMs_errLost (s : State) (n : Stn) (x : MSt) : (s.setMs n x).errLost = s.errLost := rfl
@[simp] theorem State.setMs_vlog (s : State) (n : Stn) (x : MSt) : (s.setMs n x).vlog = s.vlog := rfl
@[simp] theorem State.setMs_vlogLost (s : State) (n : Stn) (x : MSt) : (s.setMs n x).vlogLost = s.vlogLost := rfl
@[simp] theorem State.setMs_buckets (s : State) (n : Stn) (x : MSt) : (s.setMs n x).buckets = s.buckets := rfl
@[simp] theorem State.setMs_leak (s : State) (n : Stn) (x : MSt) : (s.setMs n x).leak = s.leak := rfl
@[simp] theorem State.setMs_ret (s : State) (n : Stn) (x : MSt) : (s.setMs n x).ret = s.ret := rfl
@[simp] theorem State.setMs_arbMode (s : State) (n : Stn) (x : MSt) : (s.setMs n x).arbMode = s.arbMode := rfl
@[simp] theorem State.setMs_regs (s : State) (n : Stn) (x : MSt) : (s.setMs n x).regs = s.regs := rfl
@[simp] theorem State.setMs_insts (s : State) (n : Stn) (x : MSt) : (s.setMs n x).insts = s.insts := rfl
@[simp] theorem State.setMs_irt (s : State) (n : Stn) (x : MSt) : (s.setMs n x).irt = s.irt := rfl
@[simp] theorem State.setMs_agents (s : State) (n : Stn) (x : MSt) : (s.setMs n x).agents = s.agents := rfl
@[simp] theorem State.setMs_lports (s : State) (n : Stn) (x : MSt) : (s.setMs n x).lports = s.lports := rfl
@[simp] theorem State.setMs_ports (s : State) (n : Stn) (x : MSt) : (s.setMs n x).ports = s.ports := rfl
@[simp] theorem State.setMs_pss (s : State) (n : Stn) (x : MSt) : (s.setMs n x).pss = s.pss := rfl
@[simp] theorem State.setMs_slices (s : State) (n : Stn) (x : MSt) : (s.setMs n x).slices = s.slices := rfl
@[simp] theorem State.setMs_arb0 (s : State) (n : Stn) (x : MSt) : (s.setMs n x).arb0 = s.arb0 := rfl
@[simp] theorem State.setMs_arb1 (s : State) (n : Stn) (x : MSt) : (s.setMs n x).arb1 = s.arb1 := rfl
@[simp] theorem State.setMs_arbB (s : State) (n : Stn) (x : MSt) : (s.setMs n x).arbB = s.arbB := rfl
@[simp] theorem State.setMs_te0 (s : State) (n : Stn) (x : MSt) : (s.setMs n x).te0 = s.te0 := rfl
@[simp] theorem State.setMs_te1 (s : State) (n : Stn) (x : MSt) : (s.setMs n x).te1 = s.te1 := rfl
@[simp] theorem State.setMs_be (s : State) (n : Stn) (x : MSt) : (s.setMs n x).be = s.be := rfl
@[simp] theorem State.setMs_obs (s : State) (n : Stn) (x : MSt) : (s.setMs n x).obs = s.obs := rfl
@[simp] theorem State.setMs_tw (s : State) (n : Stn) (x : MSt) : (s.setMs n x).tw = s.tw := rfl
@[simp] theorem State.setMs_mesh (s : State) (n : Stn) (x : MSt) : (s.setMs n x).mesh = s.mesh := rfl
@[simp] theorem State.setMs_pd (s : State) (n : Stn) (x : MSt) : (s.setMs n x).pd = s.pd := rfl
@[simp] theorem State.setMs_smap (s : State) (n : Stn) (x : MSt) : (s.setMs n x).smap = s.smap := rfl
@[simp] theorem State.setMs_smep (s : State) (n : Stn) (x : MSt) : (s.setMs n x).smep = s.smep := rfl
@[simp] theorem State.setMs_fold (s : State) (n : Stn) (x : MSt) : (s.setMs n x).fold = s.fold := rfl
@[simp] theorem State.setMs_parked (s : State) (n : Stn) (x : MSt) : (s.setMs n x).parked = s.parked := rfl
@[simp] theorem State.setMs_latched (s : State) (n : Stn) (x : MSt) : (s.setMs n x).latched = s.latched := rfl
@[simp] theorem State.setMs_calSum (s : State) (n : Stn) (x : MSt) : (s.setMs n x).calSum = s.calSum := rfl
@[simp] theorem State.setMs_calSeen (s : State) (n : Stn) (x : MSt) : (s.setMs n x).calSeen = s.calSeen := rfl
@[simp] theorem State.setMs_gpfSeq (s : State) (n : Stn) (x : MSt) : (s.setMs n x).gpfSeq = s.gpfSeq := rfl
@[simp] theorem State.setMs_out (s : State) (n : Stn) (x : MSt) : (s.setMs n x).out = s.out := rfl
@[simp] theorem State.setMs_cuts (s : State) (n : Stn) (x : MSt) : (s.setMs n x).cuts = s.cuts := rfl

/-! ### `State.setAgent` -/

@[simp] theorem State.setAgent_pending (s : State) (r : Rqid) (a : Agent) : (s.setAgent r a).pending = s.pending := rfl
@[simp] theorem State.setAgent_clk (s : State) (r : Rqid) (a : Agent) : (s.setAgent r a).clk = s.clk := rfl
@[simp] theorem State.setAgent_coldLow (s : State) (r : Rqid) (a : Agent) : (s.setAgent r a).coldLow = s.coldLow := rfl
@[simp] theorem State.setAgent_warmLow (s : State) (r : Rqid) (a : Agent) : (s.setAgent r a).warmLow = s.warmLow := rfl
@[simp] theorem State.setAgent_warmRel (s : State) (r : Rqid) (a : Agent) : (s.setAgent r a).warmRel = s.warmRel := rfl
@[simp] theorem State.setAgent_strapProf (s : State) (r : Rqid) (a : Agent) : (s.setAgent r a).strapProf = s.strapProf := rfl
@[simp] theorem State.setAgent_strapTwin (s : State) (r : Rqid) (a : Agent) : (s.setAgent r a).strapTwin = s.strapTwin := rfl
@[simp] theorem State.setAgent_ready (s : State) (r : Rqid) (a : Agent) : (s.setAgent r a).ready = s.ready := rfl
@[simp] theorem State.setAgent_halt (s : State) (r : Rqid) (a : Agent) : (s.setAgent r a).halt = s.halt := rfl
@[simp] theorem State.setAgent_sched (s : State) (r : Rqid) (a : Agent) : (s.setAgent r a).sched = s.sched := rfl
@[simp] theorem State.setAgent_soon (s : State) (r : Rqid) (a : Agent) : (s.setAgent r a).soon = s.soon := rfl
@[simp] theorem State.setAgent_mc (s : State) (r : Rqid) (a : Agent) : (s.setAgent r a).mc = s.mc := rfl
@[simp] theorem State.setAgent_params (s : State) (r : Rqid) (a : Agent) : (s.setAgent r a).params = s.params := rfl
@[simp] theorem State.setAgent_errLog (s : State) (r : Rqid) (a : Agent) : (s.setAgent r a).errLog = s.errLog := rfl
@[simp] theorem State.setAgent_errLost (s : State) (r : Rqid) (a : Agent) : (s.setAgent r a).errLost = s.errLost := rfl
@[simp] theorem State.setAgent_vlog (s : State) (r : Rqid) (a : Agent) : (s.setAgent r a).vlog = s.vlog := rfl
@[simp] theorem State.setAgent_vlogLost (s : State) (r : Rqid) (a : Agent) : (s.setAgent r a).vlogLost = s.vlogLost := rfl
@[simp] theorem State.setAgent_buckets (s : State) (r : Rqid) (a : Agent) : (s.setAgent r a).buckets = s.buckets := rfl
@[simp] theorem State.setAgent_leak (s : State) (r : Rqid) (a : Agent) : (s.setAgent r a).leak = s.leak := rfl
@[simp] theorem State.setAgent_ret (s : State) (r : Rqid) (a : Agent) : (s.setAgent r a).ret = s.ret := rfl
@[simp] theorem State.setAgent_arbMode (s : State) (r : Rqid) (a : Agent) : (s.setAgent r a).arbMode = s.arbMode := rfl
@[simp] theorem State.setAgent_regs (s : State) (r : Rqid) (a : Agent) : (s.setAgent r a).regs = s.regs := rfl
@[simp] theorem State.setAgent_insts (s : State) (r : Rqid) (a : Agent) : (s.setAgent r a).insts = s.insts := rfl
@[simp] theorem State.setAgent_irt (s : State) (r : Rqid) (a : Agent) : (s.setAgent r a).irt = s.irt := rfl
@[simp] theorem State.setAgent_lports (s : State) (r : Rqid) (a : Agent) : (s.setAgent r a).lports = s.lports := rfl
@[simp] theorem State.setAgent_ports (s : State) (r : Rqid) (a : Agent) : (s.setAgent r a).ports = s.ports := rfl
@[simp] theorem State.setAgent_pss (s : State) (r : Rqid) (a : Agent) : (s.setAgent r a).pss = s.pss := rfl
@[simp] theorem State.setAgent_slices (s : State) (r : Rqid) (a : Agent) : (s.setAgent r a).slices = s.slices := rfl
@[simp] theorem State.setAgent_mss (s : State) (r : Rqid) (a : Agent) : (s.setAgent r a).mss = s.mss := rfl
@[simp] theorem State.setAgent_arb0 (s : State) (r : Rqid) (a : Agent) : (s.setAgent r a).arb0 = s.arb0 := rfl
@[simp] theorem State.setAgent_arb1 (s : State) (r : Rqid) (a : Agent) : (s.setAgent r a).arb1 = s.arb1 := rfl
@[simp] theorem State.setAgent_arbB (s : State) (r : Rqid) (a : Agent) : (s.setAgent r a).arbB = s.arbB := rfl
@[simp] theorem State.setAgent_te0 (s : State) (r : Rqid) (a : Agent) : (s.setAgent r a).te0 = s.te0 := rfl
@[simp] theorem State.setAgent_te1 (s : State) (r : Rqid) (a : Agent) : (s.setAgent r a).te1 = s.te1 := rfl
@[simp] theorem State.setAgent_be (s : State) (r : Rqid) (a : Agent) : (s.setAgent r a).be = s.be := rfl
@[simp] theorem State.setAgent_obs (s : State) (r : Rqid) (a : Agent) : (s.setAgent r a).obs = s.obs := rfl
@[simp] theorem State.setAgent_tw (s : State) (r : Rqid) (a : Agent) : (s.setAgent r a).tw = s.tw := rfl
@[simp] theorem State.setAgent_mesh (s : State) (r : Rqid) (a : Agent) : (s.setAgent r a).mesh = s.mesh := rfl
@[simp] theorem State.setAgent_pd (s : State) (r : Rqid) (a : Agent) : (s.setAgent r a).pd = s.pd := rfl
@[simp] theorem State.setAgent_smap (s : State) (r : Rqid) (a : Agent) : (s.setAgent r a).smap = s.smap := rfl
@[simp] theorem State.setAgent_smep (s : State) (r : Rqid) (a : Agent) : (s.setAgent r a).smep = s.smep := rfl
@[simp] theorem State.setAgent_fold (s : State) (r : Rqid) (a : Agent) : (s.setAgent r a).fold = s.fold := rfl
@[simp] theorem State.setAgent_parked (s : State) (r : Rqid) (a : Agent) : (s.setAgent r a).parked = s.parked := rfl
@[simp] theorem State.setAgent_latched (s : State) (r : Rqid) (a : Agent) : (s.setAgent r a).latched = s.latched := rfl
@[simp] theorem State.setAgent_calSum (s : State) (r : Rqid) (a : Agent) : (s.setAgent r a).calSum = s.calSum := rfl
@[simp] theorem State.setAgent_calSeen (s : State) (r : Rqid) (a : Agent) : (s.setAgent r a).calSeen = s.calSeen := rfl
@[simp] theorem State.setAgent_gpfSeq (s : State) (r : Rqid) (a : Agent) : (s.setAgent r a).gpfSeq = s.gpfSeq := rfl
@[simp] theorem State.setAgent_out (s : State) (r : Rqid) (a : Agent) : (s.setAgent r a).out = s.out := rfl
@[simp] theorem State.setAgent_cuts (s : State) (r : Rqid) (a : Agent) : (s.setAgent r a).cuts = s.cuts := rfl

/-! ### `State.modLport` -/

@[simp] theorem State.modLport_pending (s : State) (l : BitVec 10) (f : LPort → LPort) : (s.modLport l f).pending = s.pending := rfl
@[simp] theorem State.modLport_clk (s : State) (l : BitVec 10) (f : LPort → LPort) : (s.modLport l f).clk = s.clk := rfl
@[simp] theorem State.modLport_coldLow (s : State) (l : BitVec 10) (f : LPort → LPort) : (s.modLport l f).coldLow = s.coldLow := rfl
@[simp] theorem State.modLport_warmLow (s : State) (l : BitVec 10) (f : LPort → LPort) : (s.modLport l f).warmLow = s.warmLow := rfl
@[simp] theorem State.modLport_warmRel (s : State) (l : BitVec 10) (f : LPort → LPort) : (s.modLport l f).warmRel = s.warmRel := rfl
@[simp] theorem State.modLport_strapProf (s : State) (l : BitVec 10) (f : LPort → LPort) : (s.modLport l f).strapProf = s.strapProf := rfl
@[simp] theorem State.modLport_strapTwin (s : State) (l : BitVec 10) (f : LPort → LPort) : (s.modLport l f).strapTwin = s.strapTwin := rfl
@[simp] theorem State.modLport_ready (s : State) (l : BitVec 10) (f : LPort → LPort) : (s.modLport l f).ready = s.ready := rfl
@[simp] theorem State.modLport_halt (s : State) (l : BitVec 10) (f : LPort → LPort) : (s.modLport l f).halt = s.halt := rfl
@[simp] theorem State.modLport_sched (s : State) (l : BitVec 10) (f : LPort → LPort) : (s.modLport l f).sched = s.sched := rfl
@[simp] theorem State.modLport_soon (s : State) (l : BitVec 10) (f : LPort → LPort) : (s.modLport l f).soon = s.soon := rfl
@[simp] theorem State.modLport_mc (s : State) (l : BitVec 10) (f : LPort → LPort) : (s.modLport l f).mc = s.mc := rfl
@[simp] theorem State.modLport_params (s : State) (l : BitVec 10) (f : LPort → LPort) : (s.modLport l f).params = s.params := rfl
@[simp] theorem State.modLport_errLog (s : State) (l : BitVec 10) (f : LPort → LPort) : (s.modLport l f).errLog = s.errLog := rfl
@[simp] theorem State.modLport_errLost (s : State) (l : BitVec 10) (f : LPort → LPort) : (s.modLport l f).errLost = s.errLost := rfl
@[simp] theorem State.modLport_vlog (s : State) (l : BitVec 10) (f : LPort → LPort) : (s.modLport l f).vlog = s.vlog := rfl
@[simp] theorem State.modLport_vlogLost (s : State) (l : BitVec 10) (f : LPort → LPort) : (s.modLport l f).vlogLost = s.vlogLost := rfl
@[simp] theorem State.modLport_buckets (s : State) (l : BitVec 10) (f : LPort → LPort) : (s.modLport l f).buckets = s.buckets := rfl
@[simp] theorem State.modLport_leak (s : State) (l : BitVec 10) (f : LPort → LPort) : (s.modLport l f).leak = s.leak := rfl
@[simp] theorem State.modLport_ret (s : State) (l : BitVec 10) (f : LPort → LPort) : (s.modLport l f).ret = s.ret := rfl
@[simp] theorem State.modLport_arbMode (s : State) (l : BitVec 10) (f : LPort → LPort) : (s.modLport l f).arbMode = s.arbMode := rfl
@[simp] theorem State.modLport_regs (s : State) (l : BitVec 10) (f : LPort → LPort) : (s.modLport l f).regs = s.regs := rfl
@[simp] theorem State.modLport_insts (s : State) (l : BitVec 10) (f : LPort → LPort) : (s.modLport l f).insts = s.insts := rfl
@[simp] theorem State.modLport_irt (s : State) (l : BitVec 10) (f : LPort → LPort) : (s.modLport l f).irt = s.irt := rfl
@[simp] theorem State.modLport_agents (s : State) (l : BitVec 10) (f : LPort → LPort) : (s.modLport l f).agents = s.agents := rfl
@[simp] theorem State.modLport_ports (s : State) (l : BitVec 10) (f : LPort → LPort) : (s.modLport l f).ports = s.ports := rfl
@[simp] theorem State.modLport_pss (s : State) (l : BitVec 10) (f : LPort → LPort) : (s.modLport l f).pss = s.pss := rfl
@[simp] theorem State.modLport_slices (s : State) (l : BitVec 10) (f : LPort → LPort) : (s.modLport l f).slices = s.slices := rfl
@[simp] theorem State.modLport_mss (s : State) (l : BitVec 10) (f : LPort → LPort) : (s.modLport l f).mss = s.mss := rfl
@[simp] theorem State.modLport_arb0 (s : State) (l : BitVec 10) (f : LPort → LPort) : (s.modLport l f).arb0 = s.arb0 := rfl
@[simp] theorem State.modLport_arb1 (s : State) (l : BitVec 10) (f : LPort → LPort) : (s.modLport l f).arb1 = s.arb1 := rfl
@[simp] theorem State.modLport_arbB (s : State) (l : BitVec 10) (f : LPort → LPort) : (s.modLport l f).arbB = s.arbB := rfl
@[simp] theorem State.modLport_te0 (s : State) (l : BitVec 10) (f : LPort → LPort) : (s.modLport l f).te0 = s.te0 := rfl
@[simp] theorem State.modLport_te1 (s : State) (l : BitVec 10) (f : LPort → LPort) : (s.modLport l f).te1 = s.te1 := rfl
@[simp] theorem State.modLport_be (s : State) (l : BitVec 10) (f : LPort → LPort) : (s.modLport l f).be = s.be := rfl
@[simp] theorem State.modLport_obs (s : State) (l : BitVec 10) (f : LPort → LPort) : (s.modLport l f).obs = s.obs := rfl
@[simp] theorem State.modLport_tw (s : State) (l : BitVec 10) (f : LPort → LPort) : (s.modLport l f).tw = s.tw := rfl
@[simp] theorem State.modLport_mesh (s : State) (l : BitVec 10) (f : LPort → LPort) : (s.modLport l f).mesh = s.mesh := rfl
@[simp] theorem State.modLport_pd (s : State) (l : BitVec 10) (f : LPort → LPort) : (s.modLport l f).pd = s.pd := rfl
@[simp] theorem State.modLport_smap (s : State) (l : BitVec 10) (f : LPort → LPort) : (s.modLport l f).smap = s.smap := rfl
@[simp] theorem State.modLport_smep (s : State) (l : BitVec 10) (f : LPort → LPort) : (s.modLport l f).smep = s.smep := rfl
@[simp] theorem State.modLport_fold (s : State) (l : BitVec 10) (f : LPort → LPort) : (s.modLport l f).fold = s.fold := rfl
@[simp] theorem State.modLport_parked (s : State) (l : BitVec 10) (f : LPort → LPort) : (s.modLport l f).parked = s.parked := rfl
@[simp] theorem State.modLport_latched (s : State) (l : BitVec 10) (f : LPort → LPort) : (s.modLport l f).latched = s.latched := rfl
@[simp] theorem State.modLport_calSum (s : State) (l : BitVec 10) (f : LPort → LPort) : (s.modLport l f).calSum = s.calSum := rfl
@[simp] theorem State.modLport_calSeen (s : State) (l : BitVec 10) (f : LPort → LPort) : (s.modLport l f).calSeen = s.calSeen := rfl
@[simp] theorem State.modLport_gpfSeq (s : State) (l : BitVec 10) (f : LPort → LPort) : (s.modLport l f).gpfSeq = s.gpfSeq := rfl
@[simp] theorem State.modLport_out (s : State) (l : BitVec 10) (f : LPort → LPort) : (s.modLport l f).out = s.out := rfl
@[simp] theorem State.modLport_cuts (s : State) (l : BitVec 10) (f : LPort → LPort) : (s.modLport l f).cuts = s.cuts := rfl

/-! ### `State.setDom` -/

@[simp] theorem State.setDom_pending (s : State) (d : BitVec 7) (x : Dom) : (s.setDom d x).pending = s.pending := rfl
@[simp] theorem State.setDom_clk (s : State) (d : BitVec 7) (x : Dom) : (s.setDom d x).clk = s.clk := rfl
@[simp] theorem State.setDom_coldLow (s : State) (d : BitVec 7) (x : Dom) : (s.setDom d x).coldLow = s.coldLow := rfl
@[simp] theorem State.setDom_warmLow (s : State) (d : BitVec 7) (x : Dom) : (s.setDom d x).warmLow = s.warmLow := rfl
@[simp] theorem State.setDom_warmRel (s : State) (d : BitVec 7) (x : Dom) : (s.setDom d x).warmRel = s.warmRel := rfl
@[simp] theorem State.setDom_strapProf (s : State) (d : BitVec 7) (x : Dom) : (s.setDom d x).strapProf = s.strapProf := rfl
@[simp] theorem State.setDom_strapTwin (s : State) (d : BitVec 7) (x : Dom) : (s.setDom d x).strapTwin = s.strapTwin := rfl
@[simp] theorem State.setDom_ready (s : State) (d : BitVec 7) (x : Dom) : (s.setDom d x).ready = s.ready := rfl
@[simp] theorem State.setDom_halt (s : State) (d : BitVec 7) (x : Dom) : (s.setDom d x).halt = s.halt := rfl
@[simp] theorem State.setDom_sched (s : State) (d : BitVec 7) (x : Dom) : (s.setDom d x).sched = s.sched := rfl
@[simp] theorem State.setDom_soon (s : State) (d : BitVec 7) (x : Dom) : (s.setDom d x).soon = s.soon := rfl
@[simp] theorem State.setDom_mc (s : State) (d : BitVec 7) (x : Dom) : (s.setDom d x).mc = s.mc := rfl
@[simp] theorem State.setDom_params (s : State) (d : BitVec 7) (x : Dom) : (s.setDom d x).params = s.params := rfl
@[simp] theorem State.setDom_errLog (s : State) (d : BitVec 7) (x : Dom) : (s.setDom d x).errLog = s.errLog := rfl
@[simp] theorem State.setDom_errLost (s : State) (d : BitVec 7) (x : Dom) : (s.setDom d x).errLost = s.errLost := rfl
@[simp] theorem State.setDom_vlog (s : State) (d : BitVec 7) (x : Dom) : (s.setDom d x).vlog = s.vlog := rfl
@[simp] theorem State.setDom_vlogLost (s : State) (d : BitVec 7) (x : Dom) : (s.setDom d x).vlogLost = s.vlogLost := rfl
@[simp] theorem State.setDom_buckets (s : State) (d : BitVec 7) (x : Dom) : (s.setDom d x).buckets = s.buckets := rfl
@[simp] theorem State.setDom_leak (s : State) (d : BitVec 7) (x : Dom) : (s.setDom d x).leak = s.leak := rfl
@[simp] theorem State.setDom_ret (s : State) (d : BitVec 7) (x : Dom) : (s.setDom d x).ret = s.ret := rfl
@[simp] theorem State.setDom_arbMode (s : State) (d : BitVec 7) (x : Dom) : (s.setDom d x).arbMode = s.arbMode := rfl
@[simp] theorem State.setDom_regs (s : State) (d : BitVec 7) (x : Dom) : (s.setDom d x).regs = s.regs := rfl
@[simp] theorem State.setDom_insts (s : State) (d : BitVec 7) (x : Dom) : (s.setDom d x).insts = s.insts := rfl
@[simp] theorem State.setDom_irt (s : State) (d : BitVec 7) (x : Dom) : (s.setDom d x).irt = s.irt := rfl
@[simp] theorem State.setDom_agents (s : State) (d : BitVec 7) (x : Dom) : (s.setDom d x).agents = s.agents := rfl
@[simp] theorem State.setDom_lports (s : State) (d : BitVec 7) (x : Dom) : (s.setDom d x).lports = s.lports := rfl
@[simp] theorem State.setDom_ports (s : State) (d : BitVec 7) (x : Dom) : (s.setDom d x).ports = s.ports := rfl
@[simp] theorem State.setDom_pss (s : State) (d : BitVec 7) (x : Dom) : (s.setDom d x).pss = s.pss := rfl
@[simp] theorem State.setDom_slices (s : State) (d : BitVec 7) (x : Dom) : (s.setDom d x).slices = s.slices := rfl
@[simp] theorem State.setDom_mss (s : State) (d : BitVec 7) (x : Dom) : (s.setDom d x).mss = s.mss := rfl
@[simp] theorem State.setDom_arb0 (s : State) (d : BitVec 7) (x : Dom) : (s.setDom d x).arb0 = s.arb0 := rfl
@[simp] theorem State.setDom_arb1 (s : State) (d : BitVec 7) (x : Dom) : (s.setDom d x).arb1 = s.arb1 := rfl
@[simp] theorem State.setDom_arbB (s : State) (d : BitVec 7) (x : Dom) : (s.setDom d x).arbB = s.arbB := rfl
@[simp] theorem State.setDom_te0 (s : State) (d : BitVec 7) (x : Dom) : (s.setDom d x).te0 = s.te0 := rfl
@[simp] theorem State.setDom_te1 (s : State) (d : BitVec 7) (x : Dom) : (s.setDom d x).te1 = s.te1 := rfl
@[simp] theorem State.setDom_be (s : State) (d : BitVec 7) (x : Dom) : (s.setDom d x).be = s.be := rfl
@[simp] theorem State.setDom_obs (s : State) (d : BitVec 7) (x : Dom) : (s.setDom d x).obs = s.obs := rfl
@[simp] theorem State.setDom_tw (s : State) (d : BitVec 7) (x : Dom) : (s.setDom d x).tw = s.tw := rfl
@[simp] theorem State.setDom_mesh (s : State) (d : BitVec 7) (x : Dom) : (s.setDom d x).mesh = s.mesh := rfl
@[simp] theorem State.setDom_smap (s : State) (d : BitVec 7) (x : Dom) : (s.setDom d x).smap = s.smap := rfl
@[simp] theorem State.setDom_smep (s : State) (d : BitVec 7) (x : Dom) : (s.setDom d x).smep = s.smep := rfl
@[simp] theorem State.setDom_fold (s : State) (d : BitVec 7) (x : Dom) : (s.setDom d x).fold = s.fold := rfl
@[simp] theorem State.setDom_parked (s : State) (d : BitVec 7) (x : Dom) : (s.setDom d x).parked = s.parked := rfl
@[simp] theorem State.setDom_latched (s : State) (d : BitVec 7) (x : Dom) : (s.setDom d x).latched = s.latched := rfl
@[simp] theorem State.setDom_calSum (s : State) (d : BitVec 7) (x : Dom) : (s.setDom d x).calSum = s.calSum := rfl
@[simp] theorem State.setDom_calSeen (s : State) (d : BitVec 7) (x : Dom) : (s.setDom d x).calSeen = s.calSeen := rfl
@[simp] theorem State.setDom_gpfSeq (s : State) (d : BitVec 7) (x : Dom) : (s.setDom d x).gpfSeq = s.gpfSeq := rfl
@[simp] theorem State.setDom_out (s : State) (d : BitVec 7) (x : Dom) : (s.setDom d x).out = s.out := rfl
@[simp] theorem State.setDom_cuts (s : State) (d : BitVec 7) (x : Dom) : (s.setDom d x).cuts = s.cuts := rfl

/-! ### `State.modDom` -/

@[simp] theorem State.modDom_pending (s : State) (d : BitVec 7) (f : Dom → Dom) : (s.modDom d f).pending = s.pending := rfl
@[simp] theorem State.modDom_clk (s : State) (d : BitVec 7) (f : Dom → Dom) : (s.modDom d f).clk = s.clk := rfl
@[simp] theorem State.modDom_coldLow (s : State) (d : BitVec 7) (f : Dom → Dom) : (s.modDom d f).coldLow = s.coldLow := rfl
@[simp] theorem State.modDom_warmLow (s : State) (d : BitVec 7) (f : Dom → Dom) : (s.modDom d f).warmLow = s.warmLow := rfl
@[simp] theorem State.modDom_warmRel (s : State) (d : BitVec 7) (f : Dom → Dom) : (s.modDom d f).warmRel = s.warmRel := rfl
@[simp] theorem State.modDom_strapProf (s : State) (d : BitVec 7) (f : Dom → Dom) : (s.modDom d f).strapProf = s.strapProf := rfl
@[simp] theorem State.modDom_strapTwin (s : State) (d : BitVec 7) (f : Dom → Dom) : (s.modDom d f).strapTwin = s.strapTwin := rfl
@[simp] theorem State.modDom_ready (s : State) (d : BitVec 7) (f : Dom → Dom) : (s.modDom d f).ready = s.ready := rfl
@[simp] theorem State.modDom_halt (s : State) (d : BitVec 7) (f : Dom → Dom) : (s.modDom d f).halt = s.halt := rfl
@[simp] theorem State.modDom_sched (s : State) (d : BitVec 7) (f : Dom → Dom) : (s.modDom d f).sched = s.sched := rfl
@[simp] theorem State.modDom_soon (s : State) (d : BitVec 7) (f : Dom → Dom) : (s.modDom d f).soon = s.soon := rfl
@[simp] theorem State.modDom_mc (s : State) (d : BitVec 7) (f : Dom → Dom) : (s.modDom d f).mc = s.mc := rfl
@[simp] theorem State.modDom_params (s : State) (d : BitVec 7) (f : Dom → Dom) : (s.modDom d f).params = s.params := rfl
@[simp] theorem State.modDom_errLog (s : State) (d : BitVec 7) (f : Dom → Dom) : (s.modDom d f).errLog = s.errLog := rfl
@[simp] theorem State.modDom_errLost (s : State) (d : BitVec 7) (f : Dom → Dom) : (s.modDom d f).errLost = s.errLost := rfl
@[simp] theorem State.modDom_vlog (s : State) (d : BitVec 7) (f : Dom → Dom) : (s.modDom d f).vlog = s.vlog := rfl
@[simp] theorem State.modDom_vlogLost (s : State) (d : BitVec 7) (f : Dom → Dom) : (s.modDom d f).vlogLost = s.vlogLost := rfl
@[simp] theorem State.modDom_buckets (s : State) (d : BitVec 7) (f : Dom → Dom) : (s.modDom d f).buckets = s.buckets := rfl
@[simp] theorem State.modDom_leak (s : State) (d : BitVec 7) (f : Dom → Dom) : (s.modDom d f).leak = s.leak := rfl
@[simp] theorem State.modDom_ret (s : State) (d : BitVec 7) (f : Dom → Dom) : (s.modDom d f).ret = s.ret := rfl
@[simp] theorem State.modDom_arbMode (s : State) (d : BitVec 7) (f : Dom → Dom) : (s.modDom d f).arbMode = s.arbMode := rfl
@[simp] theorem State.modDom_regs (s : State) (d : BitVec 7) (f : Dom → Dom) : (s.modDom d f).regs = s.regs := rfl
@[simp] theorem State.modDom_insts (s : State) (d : BitVec 7) (f : Dom → Dom) : (s.modDom d f).insts = s.insts := rfl
@[simp] theorem State.modDom_irt (s : State) (d : BitVec 7) (f : Dom → Dom) : (s.modDom d f).irt = s.irt := rfl
@[simp] theorem State.modDom_agents (s : State) (d : BitVec 7) (f : Dom → Dom) : (s.modDom d f).agents = s.agents := rfl
@[simp] theorem State.modDom_lports (s : State) (d : BitVec 7) (f : Dom → Dom) : (s.modDom d f).lports = s.lports := rfl
@[simp] theorem State.modDom_ports (s : State) (d : BitVec 7) (f : Dom → Dom) : (s.modDom d f).ports = s.ports := rfl
@[simp] theorem State.modDom_pss (s : State) (d : BitVec 7) (f : Dom → Dom) : (s.modDom d f).pss = s.pss := rfl
@[simp] theorem State.modDom_slices (s : State) (d : BitVec 7) (f : Dom → Dom) : (s.modDom d f).slices = s.slices := rfl
@[simp] theorem State.modDom_mss (s : State) (d : BitVec 7) (f : Dom → Dom) : (s.modDom d f).mss = s.mss := rfl
@[simp] theorem State.modDom_arb0 (s : State) (d : BitVec 7) (f : Dom → Dom) : (s.modDom d f).arb0 = s.arb0 := rfl
@[simp] theorem State.modDom_arb1 (s : State) (d : BitVec 7) (f : Dom → Dom) : (s.modDom d f).arb1 = s.arb1 := rfl
@[simp] theorem State.modDom_arbB (s : State) (d : BitVec 7) (f : Dom → Dom) : (s.modDom d f).arbB = s.arbB := rfl
@[simp] theorem State.modDom_te0 (s : State) (d : BitVec 7) (f : Dom → Dom) : (s.modDom d f).te0 = s.te0 := rfl
@[simp] theorem State.modDom_te1 (s : State) (d : BitVec 7) (f : Dom → Dom) : (s.modDom d f).te1 = s.te1 := rfl
@[simp] theorem State.modDom_be (s : State) (d : BitVec 7) (f : Dom → Dom) : (s.modDom d f).be = s.be := rfl
@[simp] theorem State.modDom_obs (s : State) (d : BitVec 7) (f : Dom → Dom) : (s.modDom d f).obs = s.obs := rfl
@[simp] theorem State.modDom_tw (s : State) (d : BitVec 7) (f : Dom → Dom) : (s.modDom d f).tw = s.tw := rfl
@[simp] theorem State.modDom_mesh (s : State) (d : BitVec 7) (f : Dom → Dom) : (s.modDom d f).mesh = s.mesh := rfl
@[simp] theorem State.modDom_smap (s : State) (d : BitVec 7) (f : Dom → Dom) : (s.modDom d f).smap = s.smap := rfl
@[simp] theorem State.modDom_smep (s : State) (d : BitVec 7) (f : Dom → Dom) : (s.modDom d f).smep = s.smep := rfl
@[simp] theorem State.modDom_fold (s : State) (d : BitVec 7) (f : Dom → Dom) : (s.modDom d f).fold = s.fold := rfl
@[simp] theorem State.modDom_parked (s : State) (d : BitVec 7) (f : Dom → Dom) : (s.modDom d f).parked = s.parked := rfl
@[simp] theorem State.modDom_latched (s : State) (d : BitVec 7) (f : Dom → Dom) : (s.modDom d f).latched = s.latched := rfl
@[simp] theorem State.modDom_calSum (s : State) (d : BitVec 7) (f : Dom → Dom) : (s.modDom d f).calSum = s.calSum := rfl
@[simp] theorem State.modDom_calSeen (s : State) (d : BitVec 7) (f : Dom → Dom) : (s.modDom d f).calSeen = s.calSeen := rfl
@[simp] theorem State.modDom_gpfSeq (s : State) (d : BitVec 7) (f : Dom → Dom) : (s.modDom d f).gpfSeq = s.gpfSeq := rfl
@[simp] theorem State.modDom_out (s : State) (d : BitVec 7) (f : Dom → Dom) : (s.modDom d f).out = s.out := rfl
@[simp] theorem State.modDom_cuts (s : State) (d : BitVec 7) (f : Dom → Dom) : (s.modDom d f).cuts = s.cuts := rfl

/-! ### `State.reply` -/

@[simp] theorem State.reply_pending (s : State) (w : BitVec 512) (st : Status) (n v k : Nat) : (s.reply w st n v k).pending = s.pending := rfl
@[simp] theorem State.reply_clk (s : State) (w : BitVec 512) (st : Status) (n v k : Nat) : (s.reply w st n v k).clk = s.clk := rfl
@[simp] theorem State.reply_coldLow (s : State) (w : BitVec 512) (st : Status) (n v k : Nat) : (s.reply w st n v k).coldLow = s.coldLow := rfl
@[simp] theorem State.reply_warmLow (s : State) (w : BitVec 512) (st : Status) (n v k : Nat) : (s.reply w st n v k).warmLow = s.warmLow := rfl
@[simp] theorem State.reply_warmRel (s : State) (w : BitVec 512) (st : Status) (n v k : Nat) : (s.reply w st n v k).warmRel = s.warmRel := rfl
@[simp] theorem State.reply_strapProf (s : State) (w : BitVec 512) (st : Status) (n v k : Nat) : (s.reply w st n v k).strapProf = s.strapProf := rfl
@[simp] theorem State.reply_strapTwin (s : State) (w : BitVec 512) (st : Status) (n v k : Nat) : (s.reply w st n v k).strapTwin = s.strapTwin := rfl
@[simp] theorem State.reply_ready (s : State) (w : BitVec 512) (st : Status) (n v k : Nat) : (s.reply w st n v k).ready = s.ready := rfl
@[simp] theorem State.reply_halt (s : State) (w : BitVec 512) (st : Status) (n v k : Nat) : (s.reply w st n v k).halt = s.halt := rfl
@[simp] theorem State.reply_sched (s : State) (w : BitVec 512) (st : Status) (n v k : Nat) : (s.reply w st n v k).sched = s.sched := rfl
@[simp] theorem State.reply_soon (s : State) (w : BitVec 512) (st : Status) (n v k : Nat) : (s.reply w st n v k).soon = s.soon := rfl
@[simp] theorem State.reply_params (s : State) (w : BitVec 512) (st : Status) (n v k : Nat) : (s.reply w st n v k).params = s.params := rfl
@[simp] theorem State.reply_errLog (s : State) (w : BitVec 512) (st : Status) (n v k : Nat) : (s.reply w st n v k).errLog = s.errLog := rfl
@[simp] theorem State.reply_errLost (s : State) (w : BitVec 512) (st : Status) (n v k : Nat) : (s.reply w st n v k).errLost = s.errLost := rfl
@[simp] theorem State.reply_vlog (s : State) (w : BitVec 512) (st : Status) (n v k : Nat) : (s.reply w st n v k).vlog = s.vlog := rfl
@[simp] theorem State.reply_vlogLost (s : State) (w : BitVec 512) (st : Status) (n v k : Nat) : (s.reply w st n v k).vlogLost = s.vlogLost := rfl
@[simp] theorem State.reply_buckets (s : State) (w : BitVec 512) (st : Status) (n v k : Nat) : (s.reply w st n v k).buckets = s.buckets := rfl
@[simp] theorem State.reply_leak (s : State) (w : BitVec 512) (st : Status) (n v k : Nat) : (s.reply w st n v k).leak = s.leak := rfl
@[simp] theorem State.reply_ret (s : State) (w : BitVec 512) (st : Status) (n v k : Nat) : (s.reply w st n v k).ret = s.ret := rfl
@[simp] theorem State.reply_arbMode (s : State) (w : BitVec 512) (st : Status) (n v k : Nat) : (s.reply w st n v k).arbMode = s.arbMode := rfl
@[simp] theorem State.reply_regs (s : State) (w : BitVec 512) (st : Status) (n v k : Nat) : (s.reply w st n v k).regs = s.regs := rfl
@[simp] theorem State.reply_insts (s : State) (w : BitVec 512) (st : Status) (n v k : Nat) : (s.reply w st n v k).insts = s.insts := rfl
@[simp] theorem State.reply_irt (s : State) (w : BitVec 512) (st : Status) (n v k : Nat) : (s.reply w st n v k).irt = s.irt := rfl
@[simp] theorem State.reply_agents (s : State) (w : BitVec 512) (st : Status) (n v k : Nat) : (s.reply w st n v k).agents = s.agents := rfl
@[simp] theorem State.reply_lports (s : State) (w : BitVec 512) (st : Status) (n v k : Nat) : (s.reply w st n v k).lports = s.lports := rfl
@[simp] theorem State.reply_ports (s : State) (w : BitVec 512) (st : Status) (n v k : Nat) : (s.reply w st n v k).ports = s.ports := rfl
@[simp] theorem State.reply_pss (s : State) (w : BitVec 512) (st : Status) (n v k : Nat) : (s.reply w st n v k).pss = s.pss := rfl
@[simp] theorem State.reply_slices (s : State) (w : BitVec 512) (st : Status) (n v k : Nat) : (s.reply w st n v k).slices = s.slices := rfl
@[simp] theorem State.reply_mss (s : State) (w : BitVec 512) (st : Status) (n v k : Nat) : (s.reply w st n v k).mss = s.mss := rfl
@[simp] theorem State.reply_arb0 (s : State) (w : BitVec 512) (st : Status) (n v k : Nat) : (s.reply w st n v k).arb0 = s.arb0 := rfl
@[simp] theorem State.reply_arb1 (s : State) (w : BitVec 512) (st : Status) (n v k : Nat) : (s.reply w st n v k).arb1 = s.arb1 := rfl
@[simp] theorem State.reply_arbB (s : State) (w : BitVec 512) (st : Status) (n v k : Nat) : (s.reply w st n v k).arbB = s.arbB := rfl
@[simp] theorem State.reply_te0 (s : State) (w : BitVec 512) (st : Status) (n v k : Nat) : (s.reply w st n v k).te0 = s.te0 := rfl
@[simp] theorem State.reply_te1 (s : State) (w : BitVec 512) (st : Status) (n v k : Nat) : (s.reply w st n v k).te1 = s.te1 := rfl
@[simp] theorem State.reply_be (s : State) (w : BitVec 512) (st : Status) (n v k : Nat) : (s.reply w st n v k).be = s.be := rfl
@[simp] theorem State.reply_obs (s : State) (w : BitVec 512) (st : Status) (n v k : Nat) : (s.reply w st n v k).obs = s.obs := rfl
@[simp] theorem State.reply_tw (s : State) (w : BitVec 512) (st : Status) (n v k : Nat) : (s.reply w st n v k).tw = s.tw := rfl
@[simp] theorem State.reply_mesh (s : State) (w : BitVec 512) (st : Status) (n v k : Nat) : (s.reply w st n v k).mesh = s.mesh := rfl
@[simp] theorem State.reply_pd (s : State) (w : BitVec 512) (st : Status) (n v k : Nat) : (s.reply w st n v k).pd = s.pd := rfl
@[simp] theorem State.reply_smap (s : State) (w : BitVec 512) (st : Status) (n v k : Nat) : (s.reply w st n v k).smap = s.smap := rfl
@[simp] theorem State.reply_smep (s : State) (w : BitVec 512) (st : Status) (n v k : Nat) : (s.reply w st n v k).smep = s.smep := rfl
@[simp] theorem State.reply_fold (s : State) (w : BitVec 512) (st : Status) (n v k : Nat) : (s.reply w st n v k).fold = s.fold := rfl
@[simp] theorem State.reply_parked (s : State) (w : BitVec 512) (st : Status) (n v k : Nat) : (s.reply w st n v k).parked = s.parked := rfl
@[simp] theorem State.reply_latched (s : State) (w : BitVec 512) (st : Status) (n v k : Nat) : (s.reply w st n v k).latched = s.latched := rfl
@[simp] theorem State.reply_calSum (s : State) (w : BitVec 512) (st : Status) (n v k : Nat) : (s.reply w st n v k).calSum = s.calSum := rfl
@[simp] theorem State.reply_calSeen (s : State) (w : BitVec 512) (st : Status) (n v k : Nat) : (s.reply w st n v k).calSeen = s.calSeen := rfl
@[simp] theorem State.reply_gpfSeq (s : State) (w : BitVec 512) (st : Status) (n v k : Nat) : (s.reply w st n v k).gpfSeq = s.gpfSeq := rfl
@[simp] theorem State.reply_out (s : State) (w : BitVec 512) (st : Status) (n v k : Nat) : (s.reply w st n v k).out = s.out := rfl
@[simp] theorem State.reply_cuts (s : State) (w : BitVec 512) (st : Status) (n v k : Nat) : (s.reply w st n v k).cuts = s.cuts := rfl

/-! ### `State.finish` -/

@[simp] theorem State.finish_pending (s : State) (w : BitVec 512) (st : Status) (n v : Nat) : (s.finish w st n v).pending = s.pending := rfl
@[simp] theorem State.finish_clk (s : State) (w : BitVec 512) (st : Status) (n v : Nat) : (s.finish w st n v).clk = s.clk := rfl
@[simp] theorem State.finish_coldLow (s : State) (w : BitVec 512) (st : Status) (n v : Nat) : (s.finish w st n v).coldLow = s.coldLow := rfl
@[simp] theorem State.finish_warmLow (s : State) (w : BitVec 512) (st : Status) (n v : Nat) : (s.finish w st n v).warmLow = s.warmLow := rfl
@[simp] theorem State.finish_warmRel (s : State) (w : BitVec 512) (st : Status) (n v : Nat) : (s.finish w st n v).warmRel = s.warmRel := rfl
@[simp] theorem State.finish_strapProf (s : State) (w : BitVec 512) (st : Status) (n v : Nat) : (s.finish w st n v).strapProf = s.strapProf := rfl
@[simp] theorem State.finish_strapTwin (s : State) (w : BitVec 512) (st : Status) (n v : Nat) : (s.finish w st n v).strapTwin = s.strapTwin := rfl
@[simp] theorem State.finish_ready (s : State) (w : BitVec 512) (st : Status) (n v : Nat) : (s.finish w st n v).ready = s.ready := rfl
@[simp] theorem State.finish_halt (s : State) (w : BitVec 512) (st : Status) (n v : Nat) : (s.finish w st n v).halt = s.halt := rfl
@[simp] theorem State.finish_sched (s : State) (w : BitVec 512) (st : Status) (n v : Nat) : (s.finish w st n v).sched = s.sched := rfl
@[simp] theorem State.finish_soon (s : State) (w : BitVec 512) (st : Status) (n v : Nat) : (s.finish w st n v).soon = s.soon := rfl
@[simp] theorem State.finish_params (s : State) (w : BitVec 512) (st : Status) (n v : Nat) : (s.finish w st n v).params = s.params := rfl
@[simp] theorem State.finish_errLog (s : State) (w : BitVec 512) (st : Status) (n v : Nat) : (s.finish w st n v).errLog = s.errLog := rfl
@[simp] theorem State.finish_errLost (s : State) (w : BitVec 512) (st : Status) (n v : Nat) : (s.finish w st n v).errLost = s.errLost := rfl
@[simp] theorem State.finish_vlog (s : State) (w : BitVec 512) (st : Status) (n v : Nat) : (s.finish w st n v).vlog = s.vlog := rfl
@[simp] theorem State.finish_vlogLost (s : State) (w : BitVec 512) (st : Status) (n v : Nat) : (s.finish w st n v).vlogLost = s.vlogLost := rfl
@[simp] theorem State.finish_buckets (s : State) (w : BitVec 512) (st : Status) (n v : Nat) : (s.finish w st n v).buckets = s.buckets := rfl
@[simp] theorem State.finish_leak (s : State) (w : BitVec 512) (st : Status) (n v : Nat) : (s.finish w st n v).leak = s.leak := rfl
@[simp] theorem State.finish_ret (s : State) (w : BitVec 512) (st : Status) (n v : Nat) : (s.finish w st n v).ret = s.ret := rfl
@[simp] theorem State.finish_arbMode (s : State) (w : BitVec 512) (st : Status) (n v : Nat) : (s.finish w st n v).arbMode = s.arbMode := rfl
@[simp] theorem State.finish_regs (s : State) (w : BitVec 512) (st : Status) (n v : Nat) : (s.finish w st n v).regs = s.regs := rfl
@[simp] theorem State.finish_insts (s : State) (w : BitVec 512) (st : Status) (n v : Nat) : (s.finish w st n v).insts = s.insts := rfl
@[simp] theorem State.finish_irt (s : State) (w : BitVec 512) (st : Status) (n v : Nat) : (s.finish w st n v).irt = s.irt := rfl
@[simp] theorem State.finish_agents (s : State) (w : BitVec 512) (st : Status) (n v : Nat) : (s.finish w st n v).agents = s.agents := rfl
@[simp] theorem State.finish_lports (s : State) (w : BitVec 512) (st : Status) (n v : Nat) : (s.finish w st n v).lports = s.lports := rfl
@[simp] theorem State.finish_ports (s : State) (w : BitVec 512) (st : Status) (n v : Nat) : (s.finish w st n v).ports = s.ports := rfl
@[simp] theorem State.finish_pss (s : State) (w : BitVec 512) (st : Status) (n v : Nat) : (s.finish w st n v).pss = s.pss := rfl
@[simp] theorem State.finish_slices (s : State) (w : BitVec 512) (st : Status) (n v : Nat) : (s.finish w st n v).slices = s.slices := rfl
@[simp] theorem State.finish_mss (s : State) (w : BitVec 512) (st : Status) (n v : Nat) : (s.finish w st n v).mss = s.mss := rfl
@[simp] theorem State.finish_arb0 (s : State) (w : BitVec 512) (st : Status) (n v : Nat) : (s.finish w st n v).arb0 = s.arb0 := rfl
@[simp] theorem State.finish_arb1 (s : State) (w : BitVec 512) (st : Status) (n v : Nat) : (s.finish w st n v).arb1 = s.arb1 := rfl
@[simp] theorem State.finish_arbB (s : State) (w : BitVec 512) (st : Status) (n v : Nat) : (s.finish w st n v).arbB = s.arbB := rfl
@[simp] theorem State.finish_te0 (s : State) (w : BitVec 512) (st : Status) (n v : Nat) : (s.finish w st n v).te0 = s.te0 := rfl
@[simp] theorem State.finish_te1 (s : State) (w : BitVec 512) (st : Status) (n v : Nat) : (s.finish w st n v).te1 = s.te1 := rfl
@[simp] theorem State.finish_be (s : State) (w : BitVec 512) (st : Status) (n v : Nat) : (s.finish w st n v).be = s.be := rfl
@[simp] theorem State.finish_obs (s : State) (w : BitVec 512) (st : Status) (n v : Nat) : (s.finish w st n v).obs = s.obs := rfl
@[simp] theorem State.finish_tw (s : State) (w : BitVec 512) (st : Status) (n v : Nat) : (s.finish w st n v).tw = s.tw := rfl
@[simp] theorem State.finish_mesh (s : State) (w : BitVec 512) (st : Status) (n v : Nat) : (s.finish w st n v).mesh = s.mesh := rfl
@[simp] theorem State.finish_pd (s : State) (w : BitVec 512) (st : Status) (n v : Nat) : (s.finish w st n v).pd = s.pd := rfl
@[simp] theorem State.finish_smap (s : State) (w : BitVec 512) (st : Status) (n v : Nat) : (s.finish w st n v).smap = s.smap := rfl
@[simp] theorem State.finish_smep (s : State) (w : BitVec 512) (st : Status) (n v : Nat) : (s.finish w st n v).smep = s.smep := rfl
@[simp] theorem State.finish_fold (s : State) (w : BitVec 512) (st : Status) (n v : Nat) : (s.finish w st n v).fold = s.fold := rfl
@[simp] theorem State.finish_parked (s : State) (w : BitVec 512) (st : Status) (n v : Nat) : (s.finish w st n v).parked = s.parked := rfl
@[simp] theorem State.finish_latched (s : State) (w : BitVec 512) (st : Status) (n v : Nat) : (s.finish w st n v).latched = s.latched := rfl
@[simp] theorem State.finish_calSum (s : State) (w : BitVec 512) (st : Status) (n v : Nat) : (s.finish w st n v).calSum = s.calSum := rfl
@[simp] theorem State.finish_calSeen (s : State) (w : BitVec 512) (st : Status) (n v : Nat) : (s.finish w st n v).calSeen = s.calSeen := rfl
@[simp] theorem State.finish_gpfSeq (s : State) (w : BitVec 512) (st : Status) (n v : Nat) : (s.finish w st n v).gpfSeq = s.gpfSeq := rfl
@[simp] theorem State.finish_out (s : State) (w : BitVec 512) (st : Status) (n v : Nat) : (s.finish w st n v).out = s.out := rfl
@[simp] theorem State.finish_cuts (s : State) (w : BitVec 512) (st : Status) (n v : Nat) : (s.finish w st n v).cuts = s.cuts := rfl

/-! ### `State.setJob` -/

@[simp] theorem State.setJob_pending (s : State) (w : BitVec 512) (j : Job) : (s.setJob w j).pending = s.pending := rfl
@[simp] theorem State.setJob_clk (s : State) (w : BitVec 512) (j : Job) : (s.setJob w j).clk = s.clk := rfl
@[simp] theorem State.setJob_coldLow (s : State) (w : BitVec 512) (j : Job) : (s.setJob w j).coldLow = s.coldLow := rfl
@[simp] theorem State.setJob_warmLow (s : State) (w : BitVec 512) (j : Job) : (s.setJob w j).warmLow = s.warmLow := rfl
@[simp] theorem State.setJob_warmRel (s : State) (w : BitVec 512) (j : Job) : (s.setJob w j).warmRel = s.warmRel := rfl
@[simp] theorem State.setJob_strapProf (s : State) (w : BitVec 512) (j : Job) : (s.setJob w j).strapProf = s.strapProf := rfl
@[simp] theorem State.setJob_strapTwin (s : State) (w : BitVec 512) (j : Job) : (s.setJob w j).strapTwin = s.strapTwin := rfl
@[simp] theorem State.setJob_ready (s : State) (w : BitVec 512) (j : Job) : (s.setJob w j).ready = s.ready := rfl
@[simp] theorem State.setJob_halt (s : State) (w : BitVec 512) (j : Job) : (s.setJob w j).halt = s.halt := rfl
@[simp] theorem State.setJob_sched (s : State) (w : BitVec 512) (j : Job) : (s.setJob w j).sched = s.sched := rfl
@[simp] theorem State.setJob_soon (s : State) (w : BitVec 512) (j : Job) : (s.setJob w j).soon = s.soon := rfl
@[simp] theorem State.setJob_params (s : State) (w : BitVec 512) (j : Job) : (s.setJob w j).params = s.params := rfl
@[simp] theorem State.setJob_errLog (s : State) (w : BitVec 512) (j : Job) : (s.setJob w j).errLog = s.errLog := rfl
@[simp] theorem State.setJob_errLost (s : State) (w : BitVec 512) (j : Job) : (s.setJob w j).errLost = s.errLost := rfl
@[simp] theorem State.setJob_vlog (s : State) (w : BitVec 512) (j : Job) : (s.setJob w j).vlog = s.vlog := rfl
@[simp] theorem State.setJob_vlogLost (s : State) (w : BitVec 512) (j : Job) : (s.setJob w j).vlogLost = s.vlogLost := rfl
@[simp] theorem State.setJob_buckets (s : State) (w : BitVec 512) (j : Job) : (s.setJob w j).buckets = s.buckets := rfl
@[simp] theorem State.setJob_leak (s : State) (w : BitVec 512) (j : Job) : (s.setJob w j).leak = s.leak := rfl
@[simp] theorem State.setJob_ret (s : State) (w : BitVec 512) (j : Job) : (s.setJob w j).ret = s.ret := rfl
@[simp] theorem State.setJob_arbMode (s : State) (w : BitVec 512) (j : Job) : (s.setJob w j).arbMode = s.arbMode := rfl
@[simp] theorem State.setJob_regs (s : State) (w : BitVec 512) (j : Job) : (s.setJob w j).regs = s.regs := rfl
@[simp] theorem State.setJob_insts (s : State) (w : BitVec 512) (j : Job) : (s.setJob w j).insts = s.insts := rfl
@[simp] theorem State.setJob_irt (s : State) (w : BitVec 512) (j : Job) : (s.setJob w j).irt = s.irt := rfl
@[simp] theorem State.setJob_agents (s : State) (w : BitVec 512) (j : Job) : (s.setJob w j).agents = s.agents := rfl
@[simp] theorem State.setJob_lports (s : State) (w : BitVec 512) (j : Job) : (s.setJob w j).lports = s.lports := rfl
@[simp] theorem State.setJob_ports (s : State) (w : BitVec 512) (j : Job) : (s.setJob w j).ports = s.ports := rfl
@[simp] theorem State.setJob_pss (s : State) (w : BitVec 512) (j : Job) : (s.setJob w j).pss = s.pss := rfl
@[simp] theorem State.setJob_slices (s : State) (w : BitVec 512) (j : Job) : (s.setJob w j).slices = s.slices := rfl
@[simp] theorem State.setJob_mss (s : State) (w : BitVec 512) (j : Job) : (s.setJob w j).mss = s.mss := rfl
@[simp] theorem State.setJob_arb0 (s : State) (w : BitVec 512) (j : Job) : (s.setJob w j).arb0 = s.arb0 := rfl
@[simp] theorem State.setJob_arb1 (s : State) (w : BitVec 512) (j : Job) : (s.setJob w j).arb1 = s.arb1 := rfl
@[simp] theorem State.setJob_arbB (s : State) (w : BitVec 512) (j : Job) : (s.setJob w j).arbB = s.arbB := rfl
@[simp] theorem State.setJob_te0 (s : State) (w : BitVec 512) (j : Job) : (s.setJob w j).te0 = s.te0 := rfl
@[simp] theorem State.setJob_te1 (s : State) (w : BitVec 512) (j : Job) : (s.setJob w j).te1 = s.te1 := rfl
@[simp] theorem State.setJob_be (s : State) (w : BitVec 512) (j : Job) : (s.setJob w j).be = s.be := rfl
@[simp] theorem State.setJob_obs (s : State) (w : BitVec 512) (j : Job) : (s.setJob w j).obs = s.obs := rfl
@[simp] theorem State.setJob_tw (s : State) (w : BitVec 512) (j : Job) : (s.setJob w j).tw = s.tw := rfl
@[simp] theorem State.setJob_mesh (s : State) (w : BitVec 512) (j : Job) : (s.setJob w j).mesh = s.mesh := rfl
@[simp] theorem State.setJob_pd (s : State) (w : BitVec 512) (j : Job) : (s.setJob w j).pd = s.pd := rfl
@[simp] theorem State.setJob_smap (s : State) (w : BitVec 512) (j : Job) : (s.setJob w j).smap = s.smap := rfl
@[simp] theorem State.setJob_smep (s : State) (w : BitVec 512) (j : Job) : (s.setJob w j).smep = s.smep := rfl
@[simp] theorem State.setJob_fold (s : State) (w : BitVec 512) (j : Job) : (s.setJob w j).fold = s.fold := rfl
@[simp] theorem State.setJob_parked (s : State) (w : BitVec 512) (j : Job) : (s.setJob w j).parked = s.parked := rfl
@[simp] theorem State.setJob_latched (s : State) (w : BitVec 512) (j : Job) : (s.setJob w j).latched = s.latched := rfl
@[simp] theorem State.setJob_calSum (s : State) (w : BitVec 512) (j : Job) : (s.setJob w j).calSum = s.calSum := rfl
@[simp] theorem State.setJob_calSeen (s : State) (w : BitVec 512) (j : Job) : (s.setJob w j).calSeen = s.calSeen := rfl
@[simp] theorem State.setJob_gpfSeq (s : State) (w : BitVec 512) (j : Job) : (s.setJob w j).gpfSeq = s.gpfSeq := rfl
@[simp] theorem State.setJob_out (s : State) (w : BitVec 512) (j : Job) : (s.setJob w j).out = s.out := rfl
@[simp] theorem State.setJob_cuts (s : State) (w : BitVec 512) (j : Job) : (s.setJob w j).cuts = s.cuts := rfl

/-! ### `State.hold` -/

@[simp] theorem State.hold_pending (s : State) (w : BitVec 512) (j : Job) : (s.hold w j).pending = s.pending := rfl
@[simp] theorem State.hold_clk (s : State) (w : BitVec 512) (j : Job) : (s.hold w j).clk = s.clk := rfl
@[simp] theorem State.hold_coldLow (s : State) (w : BitVec 512) (j : Job) : (s.hold w j).coldLow = s.coldLow := rfl
@[simp] theorem State.hold_warmLow (s : State) (w : BitVec 512) (j : Job) : (s.hold w j).warmLow = s.warmLow := rfl
@[simp] theorem State.hold_warmRel (s : State) (w : BitVec 512) (j : Job) : (s.hold w j).warmRel = s.warmRel := rfl
@[simp] theorem State.hold_strapProf (s : State) (w : BitVec 512) (j : Job) : (s.hold w j).strapProf = s.strapProf := rfl
@[simp] theorem State.hold_strapTwin (s : State) (w : BitVec 512) (j : Job) : (s.hold w j).strapTwin = s.strapTwin := rfl
@[simp] theorem State.hold_ready (s : State) (w : BitVec 512) (j : Job) : (s.hold w j).ready = s.ready := rfl
@[simp] theorem State.hold_halt (s : State) (w : BitVec 512) (j : Job) : (s.hold w j).halt = s.halt := rfl
@[simp] theorem State.hold_sched (s : State) (w : BitVec 512) (j : Job) : (s.hold w j).sched = s.sched := rfl
@[simp] theorem State.hold_soon (s : State) (w : BitVec 512) (j : Job) : (s.hold w j).soon = s.soon := rfl
@[simp] theorem State.hold_params (s : State) (w : BitVec 512) (j : Job) : (s.hold w j).params = s.params := rfl
@[simp] theorem State.hold_errLog (s : State) (w : BitVec 512) (j : Job) : (s.hold w j).errLog = s.errLog := rfl
@[simp] theorem State.hold_errLost (s : State) (w : BitVec 512) (j : Job) : (s.hold w j).errLost = s.errLost := rfl
@[simp] theorem State.hold_vlog (s : State) (w : BitVec 512) (j : Job) : (s.hold w j).vlog = s.vlog := rfl
@[simp] theorem State.hold_vlogLost (s : State) (w : BitVec 512) (j : Job) : (s.hold w j).vlogLost = s.vlogLost := rfl
@[simp] theorem State.hold_buckets (s : State) (w : BitVec 512) (j : Job) : (s.hold w j).buckets = s.buckets := rfl
@[simp] theorem State.hold_leak (s : State) (w : BitVec 512) (j : Job) : (s.hold w j).leak = s.leak := rfl
@[simp] theorem State.hold_ret (s : State) (w : BitVec 512) (j : Job) : (s.hold w j).ret = s.ret := rfl
@[simp] theorem State.hold_arbMode (s : State) (w : BitVec 512) (j : Job) : (s.hold w j).arbMode = s.arbMode := rfl
@[simp] theorem State.hold_regs (s : State) (w : BitVec 512) (j : Job) : (s.hold w j).regs = s.regs := rfl
@[simp] theorem State.hold_insts (s : State) (w : BitVec 512) (j : Job) : (s.hold w j).insts = s.insts := rfl
@[simp] theorem State.hold_irt (s : State) (w : BitVec 512) (j : Job) : (s.hold w j).irt = s.irt := rfl
@[simp] theorem State.hold_agents (s : State) (w : BitVec 512) (j : Job) : (s.hold w j).agents = s.agents := rfl
@[simp] theorem State.hold_lports (s : State) (w : BitVec 512) (j : Job) : (s.hold w j).lports = s.lports := rfl
@[simp] theorem State.hold_ports (s : State) (w : BitVec 512) (j : Job) : (s.hold w j).ports = s.ports := rfl
@[simp] theorem State.hold_pss (s : State) (w : BitVec 512) (j : Job) : (s.hold w j).pss = s.pss := rfl
@[simp] theorem State.hold_slices (s : State) (w : BitVec 512) (j : Job) : (s.hold w j).slices = s.slices := rfl
@[simp] theorem State.hold_mss (s : State) (w : BitVec 512) (j : Job) : (s.hold w j).mss = s.mss := rfl
@[simp] theorem State.hold_arb0 (s : State) (w : BitVec 512) (j : Job) : (s.hold w j).arb0 = s.arb0 := rfl
@[simp] theorem State.hold_arb1 (s : State) (w : BitVec 512) (j : Job) : (s.hold w j).arb1 = s.arb1 := rfl
@[simp] theorem State.hold_arbB (s : State) (w : BitVec 512) (j : Job) : (s.hold w j).arbB = s.arbB := rfl
@[simp] theorem State.hold_te0 (s : State) (w : BitVec 512) (j : Job) : (s.hold w j).te0 = s.te0 := rfl
@[simp] theorem State.hold_te1 (s : State) (w : BitVec 512) (j : Job) : (s.hold w j).te1 = s.te1 := rfl
@[simp] theorem State.hold_be (s : State) (w : BitVec 512) (j : Job) : (s.hold w j).be = s.be := rfl
@[simp] theorem State.hold_obs (s : State) (w : BitVec 512) (j : Job) : (s.hold w j).obs = s.obs := rfl
@[simp] theorem State.hold_tw (s : State) (w : BitVec 512) (j : Job) : (s.hold w j).tw = s.tw := rfl
@[simp] theorem State.hold_mesh (s : State) (w : BitVec 512) (j : Job) : (s.hold w j).mesh = s.mesh := rfl
@[simp] theorem State.hold_pd (s : State) (w : BitVec 512) (j : Job) : (s.hold w j).pd = s.pd := rfl
@[simp] theorem State.hold_smap (s : State) (w : BitVec 512) (j : Job) : (s.hold w j).smap = s.smap := rfl
@[simp] theorem State.hold_smep (s : State) (w : BitVec 512) (j : Job) : (s.hold w j).smep = s.smep := rfl
@[simp] theorem State.hold_fold (s : State) (w : BitVec 512) (j : Job) : (s.hold w j).fold = s.fold := rfl
@[simp] theorem State.hold_parked (s : State) (w : BitVec 512) (j : Job) : (s.hold w j).parked = s.parked := rfl
@[simp] theorem State.hold_latched (s : State) (w : BitVec 512) (j : Job) : (s.hold w j).latched = s.latched := rfl
@[simp] theorem State.hold_calSum (s : State) (w : BitVec 512) (j : Job) : (s.hold w j).calSum = s.calSum := rfl
@[simp] theorem State.hold_calSeen (s : State) (w : BitVec 512) (j : Job) : (s.hold w j).calSeen = s.calSeen := rfl
@[simp] theorem State.hold_gpfSeq (s : State) (w : BitVec 512) (j : Job) : (s.hold w j).gpfSeq = s.gpfSeq := rfl
@[simp] theorem State.hold_out (s : State) (w : BitVec 512) (j : Job) : (s.hold w j).out = s.out := rfl
@[simp] theorem State.hold_cuts (s : State) (w : BitVec 512) (j : Job) : (s.hold w j).cuts = s.cuts := rfl

/-! ### `State.startLong` -/

@[simp] theorem State.startLong_pending (s : State) (w : BitVec 512) (j : Job) (n : Nat) : (s.startLong w j n).pending = s.pending := rfl
@[simp] theorem State.startLong_clk (s : State) (w : BitVec 512) (j : Job) (n : Nat) : (s.startLong w j n).clk = s.clk := rfl
@[simp] theorem State.startLong_coldLow (s : State) (w : BitVec 512) (j : Job) (n : Nat) : (s.startLong w j n).coldLow = s.coldLow := rfl
@[simp] theorem State.startLong_warmLow (s : State) (w : BitVec 512) (j : Job) (n : Nat) : (s.startLong w j n).warmLow = s.warmLow := rfl
@[simp] theorem State.startLong_warmRel (s : State) (w : BitVec 512) (j : Job) (n : Nat) : (s.startLong w j n).warmRel = s.warmRel := rfl
@[simp] theorem State.startLong_strapProf (s : State) (w : BitVec 512) (j : Job) (n : Nat) : (s.startLong w j n).strapProf = s.strapProf := rfl
@[simp] theorem State.startLong_strapTwin (s : State) (w : BitVec 512) (j : Job) (n : Nat) : (s.startLong w j n).strapTwin = s.strapTwin := rfl
@[simp] theorem State.startLong_ready (s : State) (w : BitVec 512) (j : Job) (n : Nat) : (s.startLong w j n).ready = s.ready := rfl
@[simp] theorem State.startLong_halt (s : State) (w : BitVec 512) (j : Job) (n : Nat) : (s.startLong w j n).halt = s.halt := rfl
@[simp] theorem State.startLong_sched (s : State) (w : BitVec 512) (j : Job) (n : Nat) : (s.startLong w j n).sched = s.sched := rfl
@[simp] theorem State.startLong_soon (s : State) (w : BitVec 512) (j : Job) (n : Nat) : (s.startLong w j n).soon = s.soon := rfl
@[simp] theorem State.startLong_params (s : State) (w : BitVec 512) (j : Job) (n : Nat) : (s.startLong w j n).params = s.params := rfl
@[simp] theorem State.startLong_errLog (s : State) (w : BitVec 512) (j : Job) (n : Nat) : (s.startLong w j n).errLog = s.errLog := rfl
@[simp] theorem State.startLong_errLost (s : State) (w : BitVec 512) (j : Job) (n : Nat) : (s.startLong w j n).errLost = s.errLost := rfl
@[simp] theorem State.startLong_vlog (s : State) (w : BitVec 512) (j : Job) (n : Nat) : (s.startLong w j n).vlog = s.vlog := rfl
@[simp] theorem State.startLong_vlogLost (s : State) (w : BitVec 512) (j : Job) (n : Nat) : (s.startLong w j n).vlogLost = s.vlogLost := rfl
@[simp] theorem State.startLong_buckets (s : State) (w : BitVec 512) (j : Job) (n : Nat) : (s.startLong w j n).buckets = s.buckets := rfl
@[simp] theorem State.startLong_leak (s : State) (w : BitVec 512) (j : Job) (n : Nat) : (s.startLong w j n).leak = s.leak := rfl
@[simp] theorem State.startLong_ret (s : State) (w : BitVec 512) (j : Job) (n : Nat) : (s.startLong w j n).ret = s.ret := rfl
@[simp] theorem State.startLong_arbMode (s : State) (w : BitVec 512) (j : Job) (n : Nat) : (s.startLong w j n).arbMode = s.arbMode := rfl
@[simp] theorem State.startLong_regs (s : State) (w : BitVec 512) (j : Job) (n : Nat) : (s.startLong w j n).regs = s.regs := rfl
@[simp] theorem State.startLong_insts (s : State) (w : BitVec 512) (j : Job) (n : Nat) : (s.startLong w j n).insts = s.insts := rfl
@[simp] theorem State.startLong_irt (s : State) (w : BitVec 512) (j : Job) (n : Nat) : (s.startLong w j n).irt = s.irt := rfl
@[simp] theorem State.startLong_agents (s : State) (w : BitVec 512) (j : Job) (n : Nat) : (s.startLong w j n).agents = s.agents := rfl
@[simp] theorem State.startLong_lports (s : State) (w : BitVec 512) (j : Job) (n : Nat) : (s.startLong w j n).lports = s.lports := rfl
@[simp] theorem State.startLong_ports (s : State) (w : BitVec 512) (j : Job) (n : Nat) : (s.startLong w j n).ports = s.ports := rfl
@[simp] theorem State.startLong_pss (s : State) (w : BitVec 512) (j : Job) (n : Nat) : (s.startLong w j n).pss = s.pss := rfl
@[simp] theorem State.startLong_slices (s : State) (w : BitVec 512) (j : Job) (n : Nat) : (s.startLong w j n).slices = s.slices := rfl
@[simp] theorem State.startLong_mss (s : State) (w : BitVec 512) (j : Job) (n : Nat) : (s.startLong w j n).mss = s.mss := rfl
@[simp] theorem State.startLong_arb0 (s : State) (w : BitVec 512) (j : Job) (n : Nat) : (s.startLong w j n).arb0 = s.arb0 := rfl
@[simp] theorem State.startLong_arb1 (s : State) (w : BitVec 512) (j : Job) (n : Nat) : (s.startLong w j n).arb1 = s.arb1 := rfl
@[simp] theorem State.startLong_arbB (s : State) (w : BitVec 512) (j : Job) (n : Nat) : (s.startLong w j n).arbB = s.arbB := rfl
@[simp] theorem State.startLong_te0 (s : State) (w : BitVec 512) (j : Job) (n : Nat) : (s.startLong w j n).te0 = s.te0 := rfl
@[simp] theorem State.startLong_te1 (s : State) (w : BitVec 512) (j : Job) (n : Nat) : (s.startLong w j n).te1 = s.te1 := rfl
@[simp] theorem State.startLong_be (s : State) (w : BitVec 512) (j : Job) (n : Nat) : (s.startLong w j n).be = s.be := rfl
@[simp] theorem State.startLong_obs (s : State) (w : BitVec 512) (j : Job) (n : Nat) : (s.startLong w j n).obs = s.obs := rfl
@[simp] theorem State.startLong_tw (s : State) (w : BitVec 512) (j : Job) (n : Nat) : (s.startLong w j n).tw = s.tw := rfl
@[simp] theorem State.startLong_mesh (s : State) (w : BitVec 512) (j : Job) (n : Nat) : (s.startLong w j n).mesh = s.mesh := rfl
@[simp] theorem State.startLong_pd (s : State) (w : BitVec 512) (j : Job) (n : Nat) : (s.startLong w j n).pd = s.pd := rfl
@[simp] theorem State.startLong_smap (s : State) (w : BitVec 512) (j : Job) (n : Nat) : (s.startLong w j n).smap = s.smap := rfl
@[simp] theorem State.startLong_smep (s : State) (w : BitVec 512) (j : Job) (n : Nat) : (s.startLong w j n).smep = s.smep := rfl
@[simp] theorem State.startLong_fold (s : State) (w : BitVec 512) (j : Job) (n : Nat) : (s.startLong w j n).fold = s.fold := rfl
@[simp] theorem State.startLong_parked (s : State) (w : BitVec 512) (j : Job) (n : Nat) : (s.startLong w j n).parked = s.parked := rfl
@[simp] theorem State.startLong_latched (s : State) (w : BitVec 512) (j : Job) (n : Nat) : (s.startLong w j n).latched = s.latched := rfl
@[simp] theorem State.startLong_calSum (s : State) (w : BitVec 512) (j : Job) (n : Nat) : (s.startLong w j n).calSum = s.calSum := rfl
@[simp] theorem State.startLong_calSeen (s : State) (w : BitVec 512) (j : Job) (n : Nat) : (s.startLong w j n).calSeen = s.calSeen := rfl
@[simp] theorem State.startLong_gpfSeq (s : State) (w : BitVec 512) (j : Job) (n : Nat) : (s.startLong w j n).gpfSeq = s.gpfSeq := rfl
@[simp] theorem State.startLong_out (s : State) (w : BitVec 512) (j : Job) (n : Nat) : (s.startLong w j n).out = s.out := rfl
@[simp] theorem State.startLong_cuts (s : State) (w : BitVec 512) (j : Job) (n : Nat) : (s.startLong w j n).cuts = s.cuts := rfl

/-! ### `State.slotDone` -/

@[simp] theorem State.slotDone_pending (s : State) (i : Nat) : (s.slotDone i).pending = s.pending := rfl
@[simp] theorem State.slotDone_clk (s : State) (i : Nat) : (s.slotDone i).clk = s.clk := rfl
@[simp] theorem State.slotDone_coldLow (s : State) (i : Nat) : (s.slotDone i).coldLow = s.coldLow := rfl
@[simp] theorem State.slotDone_warmLow (s : State) (i : Nat) : (s.slotDone i).warmLow = s.warmLow := rfl
@[simp] theorem State.slotDone_warmRel (s : State) (i : Nat) : (s.slotDone i).warmRel = s.warmRel := rfl
@[simp] theorem State.slotDone_strapProf (s : State) (i : Nat) : (s.slotDone i).strapProf = s.strapProf := rfl
@[simp] theorem State.slotDone_strapTwin (s : State) (i : Nat) : (s.slotDone i).strapTwin = s.strapTwin := rfl
@[simp] theorem State.slotDone_ready (s : State) (i : Nat) : (s.slotDone i).ready = s.ready := rfl
@[simp] theorem State.slotDone_halt (s : State) (i : Nat) : (s.slotDone i).halt = s.halt := rfl
@[simp] theorem State.slotDone_sched (s : State) (i : Nat) : (s.slotDone i).sched = s.sched := rfl
@[simp] theorem State.slotDone_soon (s : State) (i : Nat) : (s.slotDone i).soon = s.soon := rfl
@[simp] theorem State.slotDone_params (s : State) (i : Nat) : (s.slotDone i).params = s.params := rfl
@[simp] theorem State.slotDone_errLog (s : State) (i : Nat) : (s.slotDone i).errLog = s.errLog := rfl
@[simp] theorem State.slotDone_errLost (s : State) (i : Nat) : (s.slotDone i).errLost = s.errLost := rfl
@[simp] theorem State.slotDone_vlog (s : State) (i : Nat) : (s.slotDone i).vlog = s.vlog := rfl
@[simp] theorem State.slotDone_vlogLost (s : State) (i : Nat) : (s.slotDone i).vlogLost = s.vlogLost := rfl
@[simp] theorem State.slotDone_buckets (s : State) (i : Nat) : (s.slotDone i).buckets = s.buckets := rfl
@[simp] theorem State.slotDone_leak (s : State) (i : Nat) : (s.slotDone i).leak = s.leak := rfl
@[simp] theorem State.slotDone_ret (s : State) (i : Nat) : (s.slotDone i).ret = s.ret := rfl
@[simp] theorem State.slotDone_arbMode (s : State) (i : Nat) : (s.slotDone i).arbMode = s.arbMode := rfl
@[simp] theorem State.slotDone_regs (s : State) (i : Nat) : (s.slotDone i).regs = s.regs := rfl
@[simp] theorem State.slotDone_insts (s : State) (i : Nat) : (s.slotDone i).insts = s.insts := rfl
@[simp] theorem State.slotDone_irt (s : State) (i : Nat) : (s.slotDone i).irt = s.irt := rfl
@[simp] theorem State.slotDone_agents (s : State) (i : Nat) : (s.slotDone i).agents = s.agents := rfl
@[simp] theorem State.slotDone_lports (s : State) (i : Nat) : (s.slotDone i).lports = s.lports := rfl
@[simp] theorem State.slotDone_ports (s : State) (i : Nat) : (s.slotDone i).ports = s.ports := rfl
@[simp] theorem State.slotDone_pss (s : State) (i : Nat) : (s.slotDone i).pss = s.pss := rfl
@[simp] theorem State.slotDone_slices (s : State) (i : Nat) : (s.slotDone i).slices = s.slices := rfl
@[simp] theorem State.slotDone_mss (s : State) (i : Nat) : (s.slotDone i).mss = s.mss := rfl
@[simp] theorem State.slotDone_arb0 (s : State) (i : Nat) : (s.slotDone i).arb0 = s.arb0 := rfl
@[simp] theorem State.slotDone_arb1 (s : State) (i : Nat) : (s.slotDone i).arb1 = s.arb1 := rfl
@[simp] theorem State.slotDone_arbB (s : State) (i : Nat) : (s.slotDone i).arbB = s.arbB := rfl
@[simp] theorem State.slotDone_te0 (s : State) (i : Nat) : (s.slotDone i).te0 = s.te0 := rfl
@[simp] theorem State.slotDone_te1 (s : State) (i : Nat) : (s.slotDone i).te1 = s.te1 := rfl
@[simp] theorem State.slotDone_be (s : State) (i : Nat) : (s.slotDone i).be = s.be := rfl
@[simp] theorem State.slotDone_obs (s : State) (i : Nat) : (s.slotDone i).obs = s.obs := rfl
@[simp] theorem State.slotDone_tw (s : State) (i : Nat) : (s.slotDone i).tw = s.tw := rfl
@[simp] theorem State.slotDone_mesh (s : State) (i : Nat) : (s.slotDone i).mesh = s.mesh := rfl
@[simp] theorem State.slotDone_pd (s : State) (i : Nat) : (s.slotDone i).pd = s.pd := rfl
@[simp] theorem State.slotDone_smap (s : State) (i : Nat) : (s.slotDone i).smap = s.smap := rfl
@[simp] theorem State.slotDone_smep (s : State) (i : Nat) : (s.slotDone i).smep = s.smep := rfl
@[simp] theorem State.slotDone_fold (s : State) (i : Nat) : (s.slotDone i).fold = s.fold := rfl
@[simp] theorem State.slotDone_parked (s : State) (i : Nat) : (s.slotDone i).parked = s.parked := rfl
@[simp] theorem State.slotDone_latched (s : State) (i : Nat) : (s.slotDone i).latched = s.latched := rfl
@[simp] theorem State.slotDone_calSum (s : State) (i : Nat) : (s.slotDone i).calSum = s.calSum := rfl
@[simp] theorem State.slotDone_calSeen (s : State) (i : Nat) : (s.slotDone i).calSeen = s.calSeen := rfl
@[simp] theorem State.slotDone_gpfSeq (s : State) (i : Nat) : (s.slotDone i).gpfSeq = s.gpfSeq := rfl
@[simp] theorem State.slotDone_out (s : State) (i : Nat) : (s.slotDone i).out = s.out := rfl
@[simp] theorem State.slotDone_cuts (s : State) (i : Nat) : (s.slotDone i).cuts = s.cuts := rfl

/-! ### `State.ringSettle` -/

@[simp] theorem State.ringSettle_pending (s : State) : (s.ringSettle).pending = s.pending := rfl
@[simp] theorem State.ringSettle_clk (s : State) : (s.ringSettle).clk = s.clk := rfl
@[simp] theorem State.ringSettle_coldLow (s : State) : (s.ringSettle).coldLow = s.coldLow := rfl
@[simp] theorem State.ringSettle_warmLow (s : State) : (s.ringSettle).warmLow = s.warmLow := rfl
@[simp] theorem State.ringSettle_warmRel (s : State) : (s.ringSettle).warmRel = s.warmRel := rfl
@[simp] theorem State.ringSettle_strapProf (s : State) : (s.ringSettle).strapProf = s.strapProf := rfl
@[simp] theorem State.ringSettle_strapTwin (s : State) : (s.ringSettle).strapTwin = s.strapTwin := rfl
@[simp] theorem State.ringSettle_ready (s : State) : (s.ringSettle).ready = s.ready := rfl
@[simp] theorem State.ringSettle_halt (s : State) : (s.ringSettle).halt = s.halt := rfl
@[simp] theorem State.ringSettle_sched (s : State) : (s.ringSettle).sched = s.sched := rfl
@[simp] theorem State.ringSettle_soon (s : State) : (s.ringSettle).soon = s.soon := rfl
@[simp] theorem State.ringSettle_params (s : State) : (s.ringSettle).params = s.params := rfl
@[simp] theorem State.ringSettle_errLog (s : State) : (s.ringSettle).errLog = s.errLog := rfl
@[simp] theorem State.ringSettle_errLost (s : State) : (s.ringSettle).errLost = s.errLost := rfl
@[simp] theorem State.ringSettle_vlog (s : State) : (s.ringSettle).vlog = s.vlog := rfl
@[simp] theorem State.ringSettle_vlogLost (s : State) : (s.ringSettle).vlogLost = s.vlogLost := rfl
@[simp] theorem State.ringSettle_buckets (s : State) : (s.ringSettle).buckets = s.buckets := rfl
@[simp] theorem State.ringSettle_leak (s : State) : (s.ringSettle).leak = s.leak := rfl
@[simp] theorem State.ringSettle_ret (s : State) : (s.ringSettle).ret = s.ret := rfl
@[simp] theorem State.ringSettle_arbMode (s : State) : (s.ringSettle).arbMode = s.arbMode := rfl
@[simp] theorem State.ringSettle_regs (s : State) : (s.ringSettle).regs = s.regs := rfl
@[simp] theorem State.ringSettle_insts (s : State) : (s.ringSettle).insts = s.insts := rfl
@[simp] theorem State.ringSettle_irt (s : State) : (s.ringSettle).irt = s.irt := rfl
@[simp] theorem State.ringSettle_agents (s : State) : (s.ringSettle).agents = s.agents := rfl
@[simp] theorem State.ringSettle_lports (s : State) : (s.ringSettle).lports = s.lports := rfl
@[simp] theorem State.ringSettle_ports (s : State) : (s.ringSettle).ports = s.ports := rfl
@[simp] theorem State.ringSettle_pss (s : State) : (s.ringSettle).pss = s.pss := rfl
@[simp] theorem State.ringSettle_slices (s : State) : (s.ringSettle).slices = s.slices := rfl
@[simp] theorem State.ringSettle_mss (s : State) : (s.ringSettle).mss = s.mss := rfl
@[simp] theorem State.ringSettle_arb0 (s : State) : (s.ringSettle).arb0 = s.arb0 := rfl
@[simp] theorem State.ringSettle_arb1 (s : State) : (s.ringSettle).arb1 = s.arb1 := rfl
@[simp] theorem State.ringSettle_arbB (s : State) : (s.ringSettle).arbB = s.arbB := rfl
@[simp] theorem State.ringSettle_te0 (s : State) : (s.ringSettle).te0 = s.te0 := rfl
@[simp] theorem State.ringSettle_te1 (s : State) : (s.ringSettle).te1 = s.te1 := rfl
@[simp] theorem State.ringSettle_be (s : State) : (s.ringSettle).be = s.be := rfl
@[simp] theorem State.ringSettle_obs (s : State) : (s.ringSettle).obs = s.obs := rfl
@[simp] theorem State.ringSettle_tw (s : State) : (s.ringSettle).tw = s.tw := rfl
@[simp] theorem State.ringSettle_mesh (s : State) : (s.ringSettle).mesh = s.mesh := rfl
@[simp] theorem State.ringSettle_pd (s : State) : (s.ringSettle).pd = s.pd := rfl
@[simp] theorem State.ringSettle_smap (s : State) : (s.ringSettle).smap = s.smap := rfl
@[simp] theorem State.ringSettle_smep (s : State) : (s.ringSettle).smep = s.smep := rfl
@[simp] theorem State.ringSettle_fold (s : State) : (s.ringSettle).fold = s.fold := rfl
@[simp] theorem State.ringSettle_parked (s : State) : (s.ringSettle).parked = s.parked := rfl
@[simp] theorem State.ringSettle_latched (s : State) : (s.ringSettle).latched = s.latched := rfl
@[simp] theorem State.ringSettle_calSum (s : State) : (s.ringSettle).calSum = s.calSum := rfl
@[simp] theorem State.ringSettle_calSeen (s : State) : (s.ringSettle).calSeen = s.calSeen := rfl
@[simp] theorem State.ringSettle_gpfSeq (s : State) : (s.ringSettle).gpfSeq = s.gpfSeq := rfl
@[simp] theorem State.ringSettle_out (s : State) : (s.ringSettle).out = s.out := rfl
@[simp] theorem State.ringSettle_cuts (s : State) : (s.ringSettle).cuts = s.cuts := rfl

/-! ### `State.emit` -/

@[simp] theorem State.emit_pending (s : State) (o : Out) : (s.emit o).pending = s.pending := rfl
@[simp] theorem State.emit_clk (s : State) (o : Out) : (s.emit o).clk = s.clk := rfl
@[simp] theorem State.emit_coldLow (s : State) (o : Out) : (s.emit o).coldLow = s.coldLow := rfl
@[simp] theorem State.emit_warmLow (s : State) (o : Out) : (s.emit o).warmLow = s.warmLow := rfl
@[simp] theorem State.emit_warmRel (s : State) (o : Out) : (s.emit o).warmRel = s.warmRel := rfl
@[simp] theorem State.emit_strapProf (s : State) (o : Out) : (s.emit o).strapProf = s.strapProf := rfl
@[simp] theorem State.emit_strapTwin (s : State) (o : Out) : (s.emit o).strapTwin = s.strapTwin := rfl
@[simp] theorem State.emit_ready (s : State) (o : Out) : (s.emit o).ready = s.ready := rfl
@[simp] theorem State.emit_halt (s : State) (o : Out) : (s.emit o).halt = s.halt := rfl
@[simp] theorem State.emit_sched (s : State) (o : Out) : (s.emit o).sched = s.sched := rfl
@[simp] theorem State.emit_soon (s : State) (o : Out) : (s.emit o).soon = s.soon := rfl
@[simp] theorem State.emit_mc (s : State) (o : Out) : (s.emit o).mc = s.mc := rfl
@[simp] theorem State.emit_params (s : State) (o : Out) : (s.emit o).params = s.params := rfl
@[simp] theorem State.emit_errLog (s : State) (o : Out) : (s.emit o).errLog = s.errLog := rfl
@[simp] theorem State.emit_errLost (s : State) (o : Out) : (s.emit o).errLost = s.errLost := rfl
@[simp] theorem State.emit_vlog (s : State) (o : Out) : (s.emit o).vlog = s.vlog := rfl
@[simp] theorem State.emit_vlogLost (s : State) (o : Out) : (s.emit o).vlogLost = s.vlogLost := rfl
@[simp] theorem State.emit_buckets (s : State) (o : Out) : (s.emit o).buckets = s.buckets := rfl
@[simp] theorem State.emit_leak (s : State) (o : Out) : (s.emit o).leak = s.leak := rfl
@[simp] theorem State.emit_ret (s : State) (o : Out) : (s.emit o).ret = s.ret := rfl
@[simp] theorem State.emit_arbMode (s : State) (o : Out) : (s.emit o).arbMode = s.arbMode := rfl
@[simp] theorem State.emit_regs (s : State) (o : Out) : (s.emit o).regs = s.regs := rfl
@[simp] theorem State.emit_insts (s : State) (o : Out) : (s.emit o).insts = s.insts := rfl
@[simp] theorem State.emit_irt (s : State) (o : Out) : (s.emit o).irt = s.irt := rfl
@[simp] theorem State.emit_agents (s : State) (o : Out) : (s.emit o).agents = s.agents := rfl
@[simp] theorem State.emit_lports (s : State) (o : Out) : (s.emit o).lports = s.lports := rfl
@[simp] theorem State.emit_ports (s : State) (o : Out) : (s.emit o).ports = s.ports := rfl
@[simp] theorem State.emit_pss (s : State) (o : Out) : (s.emit o).pss = s.pss := rfl
@[simp] theorem State.emit_slices (s : State) (o : Out) : (s.emit o).slices = s.slices := rfl
@[simp] theorem State.emit_mss (s : State) (o : Out) : (s.emit o).mss = s.mss := rfl
@[simp] theorem State.emit_arb0 (s : State) (o : Out) : (s.emit o).arb0 = s.arb0 := rfl
@[simp] theorem State.emit_arb1 (s : State) (o : Out) : (s.emit o).arb1 = s.arb1 := rfl
@[simp] theorem State.emit_arbB (s : State) (o : Out) : (s.emit o).arbB = s.arbB := rfl
@[simp] theorem State.emit_te0 (s : State) (o : Out) : (s.emit o).te0 = s.te0 := rfl
@[simp] theorem State.emit_te1 (s : State) (o : Out) : (s.emit o).te1 = s.te1 := rfl
@[simp] theorem State.emit_be (s : State) (o : Out) : (s.emit o).be = s.be := rfl
@[simp] theorem State.emit_obs (s : State) (o : Out) : (s.emit o).obs = s.obs := rfl
@[simp] theorem State.emit_tw (s : State) (o : Out) : (s.emit o).tw = s.tw := rfl
@[simp] theorem State.emit_mesh (s : State) (o : Out) : (s.emit o).mesh = s.mesh := rfl
@[simp] theorem State.emit_pd (s : State) (o : Out) : (s.emit o).pd = s.pd := rfl
@[simp] theorem State.emit_smap (s : State) (o : Out) : (s.emit o).smap = s.smap := rfl
@[simp] theorem State.emit_smep (s : State) (o : Out) : (s.emit o).smep = s.smep := rfl
@[simp] theorem State.emit_fold (s : State) (o : Out) : (s.emit o).fold = s.fold := rfl
@[simp] theorem State.emit_parked (s : State) (o : Out) : (s.emit o).parked = s.parked := rfl
@[simp] theorem State.emit_latched (s : State) (o : Out) : (s.emit o).latched = s.latched := rfl
@[simp] theorem State.emit_calSum (s : State) (o : Out) : (s.emit o).calSum = s.calSum := rfl
@[simp] theorem State.emit_calSeen (s : State) (o : Out) : (s.emit o).calSeen = s.calSeen := rfl
@[simp] theorem State.emit_gpfSeq (s : State) (o : Out) : (s.emit o).gpfSeq = s.gpfSeq := rfl
@[simp] theorem State.emit_cuts (s : State) (o : Out) : (s.emit o).cuts = s.cuts := rfl

/-! ### `State.later` -/

@[simp] theorem State.later_pending (s : State) (n : Nat) (e : Eff) : (s.later n e).pending = s.pending := rfl
@[simp] theorem State.later_clk (s : State) (n : Nat) (e : Eff) : (s.later n e).clk = s.clk := rfl
@[simp] theorem State.later_coldLow (s : State) (n : Nat) (e : Eff) : (s.later n e).coldLow = s.coldLow := rfl
@[simp] theorem State.later_warmLow (s : State) (n : Nat) (e : Eff) : (s.later n e).warmLow = s.warmLow := rfl
@[simp] theorem State.later_warmRel (s : State) (n : Nat) (e : Eff) : (s.later n e).warmRel = s.warmRel := rfl
@[simp] theorem State.later_strapProf (s : State) (n : Nat) (e : Eff) : (s.later n e).strapProf = s.strapProf := rfl
@[simp] theorem State.later_strapTwin (s : State) (n : Nat) (e : Eff) : (s.later n e).strapTwin = s.strapTwin := rfl
@[simp] theorem State.later_ready (s : State) (n : Nat) (e : Eff) : (s.later n e).ready = s.ready := rfl
@[simp] theorem State.later_halt (s : State) (n : Nat) (e : Eff) : (s.later n e).halt = s.halt := rfl
@[simp] theorem State.later_soon (s : State) (n : Nat) (e : Eff) : (s.later n e).soon = s.soon := rfl
@[simp] theorem State.later_mc (s : State) (n : Nat) (e : Eff) : (s.later n e).mc = s.mc := rfl
@[simp] theorem State.later_params (s : State) (n : Nat) (e : Eff) : (s.later n e).params = s.params := rfl
@[simp] theorem State.later_errLog (s : State) (n : Nat) (e : Eff) : (s.later n e).errLog = s.errLog := rfl
@[simp] theorem State.later_errLost (s : State) (n : Nat) (e : Eff) : (s.later n e).errLost = s.errLost := rfl
@[simp] theorem State.later_vlog (s : State) (n : Nat) (e : Eff) : (s.later n e).vlog = s.vlog := rfl
@[simp] theorem State.later_vlogLost (s : State) (n : Nat) (e : Eff) : (s.later n e).vlogLost = s.vlogLost := rfl
@[simp] theorem State.later_buckets (s : State) (n : Nat) (e : Eff) : (s.later n e).buckets = s.buckets := rfl
@[simp] theorem State.later_leak (s : State) (n : Nat) (e : Eff) : (s.later n e).leak = s.leak := rfl
@[simp] theorem State.later_ret (s : State) (n : Nat) (e : Eff) : (s.later n e).ret = s.ret := rfl
@[simp] theorem State.later_arbMode (s : State) (n : Nat) (e : Eff) : (s.later n e).arbMode = s.arbMode := rfl
@[simp] theorem State.later_regs (s : State) (n : Nat) (e : Eff) : (s.later n e).regs = s.regs := rfl
@[simp] theorem State.later_insts (s : State) (n : Nat) (e : Eff) : (s.later n e).insts = s.insts := rfl
@[simp] theorem State.later_irt (s : State) (n : Nat) (e : Eff) : (s.later n e).irt = s.irt := rfl
@[simp] theorem State.later_agents (s : State) (n : Nat) (e : Eff) : (s.later n e).agents = s.agents := rfl
@[simp] theorem State.later_lports (s : State) (n : Nat) (e : Eff) : (s.later n e).lports = s.lports := rfl
@[simp] theorem State.later_ports (s : State) (n : Nat) (e : Eff) : (s.later n e).ports = s.ports := rfl
@[simp] theorem State.later_pss (s : State) (n : Nat) (e : Eff) : (s.later n e).pss = s.pss := rfl
@[simp] theorem State.later_slices (s : State) (n : Nat) (e : Eff) : (s.later n e).slices = s.slices := rfl
@[simp] theorem State.later_mss (s : State) (n : Nat) (e : Eff) : (s.later n e).mss = s.mss := rfl
@[simp] theorem State.later_arb0 (s : State) (n : Nat) (e : Eff) : (s.later n e).arb0 = s.arb0 := rfl
@[simp] theorem State.later_arb1 (s : State) (n : Nat) (e : Eff) : (s.later n e).arb1 = s.arb1 := rfl
@[simp] theorem State.later_arbB (s : State) (n : Nat) (e : Eff) : (s.later n e).arbB = s.arbB := rfl
@[simp] theorem State.later_te0 (s : State) (n : Nat) (e : Eff) : (s.later n e).te0 = s.te0 := rfl
@[simp] theorem State.later_te1 (s : State) (n : Nat) (e : Eff) : (s.later n e).te1 = s.te1 := rfl
@[simp] theorem State.later_be (s : State) (n : Nat) (e : Eff) : (s.later n e).be = s.be := rfl
@[simp] theorem State.later_obs (s : State) (n : Nat) (e : Eff) : (s.later n e).obs = s.obs := rfl
@[simp] theorem State.later_tw (s : State) (n : Nat) (e : Eff) : (s.later n e).tw = s.tw := rfl
@[simp] theorem State.later_mesh (s : State) (n : Nat) (e : Eff) : (s.later n e).mesh = s.mesh := rfl
@[simp] theorem State.later_pd (s : State) (n : Nat) (e : Eff) : (s.later n e).pd = s.pd := rfl
@[simp] theorem State.later_smap (s : State) (n : Nat) (e : Eff) : (s.later n e).smap = s.smap := rfl
@[simp] theorem State.later_smep (s : State) (n : Nat) (e : Eff) : (s.later n e).smep = s.smep := rfl
@[simp] theorem State.later_fold (s : State) (n : Nat) (e : Eff) : (s.later n e).fold = s.fold := rfl
@[simp] theorem State.later_parked (s : State) (n : Nat) (e : Eff) : (s.later n e).parked = s.parked := rfl
@[simp] theorem State.later_latched (s : State) (n : Nat) (e : Eff) : (s.later n e).latched = s.latched := rfl
@[simp] theorem State.later_calSum (s : State) (n : Nat) (e : Eff) : (s.later n e).calSum = s.calSum := rfl
@[simp] theorem State.later_calSeen (s : State) (n : Nat) (e : Eff) : (s.later n e).calSeen = s.calSeen := rfl
@[simp] theorem State.later_gpfSeq (s : State) (n : Nat) (e : Eff) : (s.later n e).gpfSeq = s.gpfSeq := rfl
@[simp] theorem State.later_out (s : State) (n : Nat) (e : Eff) : (s.later n e).out = s.out := rfl
@[simp] theorem State.later_cuts (s : State) (n : Nat) (e : Eff) : (s.later n e).cuts = s.cuts := rfl

/-! ### `State.twinCause` -/

@[simp] theorem State.twinCause_pending (s : State) (b : Nat) : (s.twinCause b).pending = s.pending := rfl
@[simp] theorem State.twinCause_clk (s : State) (b : Nat) : (s.twinCause b).clk = s.clk := rfl
@[simp] theorem State.twinCause_coldLow (s : State) (b : Nat) : (s.twinCause b).coldLow = s.coldLow := rfl
@[simp] theorem State.twinCause_warmLow (s : State) (b : Nat) : (s.twinCause b).warmLow = s.warmLow := rfl
@[simp] theorem State.twinCause_warmRel (s : State) (b : Nat) : (s.twinCause b).warmRel = s.warmRel := rfl
@[simp] theorem State.twinCause_strapProf (s : State) (b : Nat) : (s.twinCause b).strapProf = s.strapProf := rfl
@[simp] theorem State.twinCause_strapTwin (s : State) (b : Nat) : (s.twinCause b).strapTwin = s.strapTwin := rfl
@[simp] theorem State.twinCause_ready (s : State) (b : Nat) : (s.twinCause b).ready = s.ready := rfl
@[simp] theorem State.twinCause_halt (s : State) (b : Nat) : (s.twinCause b).halt = s.halt := rfl
@[simp] theorem State.twinCause_sched (s : State) (b : Nat) : (s.twinCause b).sched = s.sched := rfl
@[simp] theorem State.twinCause_soon (s : State) (b : Nat) : (s.twinCause b).soon = s.soon := rfl
@[simp] theorem State.twinCause_mc (s : State) (b : Nat) : (s.twinCause b).mc = s.mc := rfl
@[simp] theorem State.twinCause_params (s : State) (b : Nat) : (s.twinCause b).params = s.params := rfl
@[simp] theorem State.twinCause_errLog (s : State) (b : Nat) : (s.twinCause b).errLog = s.errLog := rfl
@[simp] theorem State.twinCause_errLost (s : State) (b : Nat) : (s.twinCause b).errLost = s.errLost := rfl
@[simp] theorem State.twinCause_vlog (s : State) (b : Nat) : (s.twinCause b).vlog = s.vlog := rfl
@[simp] theorem State.twinCause_vlogLost (s : State) (b : Nat) : (s.twinCause b).vlogLost = s.vlogLost := rfl
@[simp] theorem State.twinCause_buckets (s : State) (b : Nat) : (s.twinCause b).buckets = s.buckets := rfl
@[simp] theorem State.twinCause_leak (s : State) (b : Nat) : (s.twinCause b).leak = s.leak := rfl
@[simp] theorem State.twinCause_ret (s : State) (b : Nat) : (s.twinCause b).ret = s.ret := rfl
@[simp] theorem State.twinCause_arbMode (s : State) (b : Nat) : (s.twinCause b).arbMode = s.arbMode := rfl
@[simp] theorem State.twinCause_insts (s : State) (b : Nat) : (s.twinCause b).insts = s.insts := rfl
@[simp] theorem State.twinCause_irt (s : State) (b : Nat) : (s.twinCause b).irt = s.irt := rfl
@[simp] theorem State.twinCause_agents (s : State) (b : Nat) : (s.twinCause b).agents = s.agents := rfl
@[simp] theorem State.twinCause_lports (s : State) (b : Nat) : (s.twinCause b).lports = s.lports := rfl
@[simp] theorem State.twinCause_ports (s : State) (b : Nat) : (s.twinCause b).ports = s.ports := rfl
@[simp] theorem State.twinCause_pss (s : State) (b : Nat) : (s.twinCause b).pss = s.pss := rfl
@[simp] theorem State.twinCause_slices (s : State) (b : Nat) : (s.twinCause b).slices = s.slices := rfl
@[simp] theorem State.twinCause_mss (s : State) (b : Nat) : (s.twinCause b).mss = s.mss := rfl
@[simp] theorem State.twinCause_arb0 (s : State) (b : Nat) : (s.twinCause b).arb0 = s.arb0 := rfl
@[simp] theorem State.twinCause_arb1 (s : State) (b : Nat) : (s.twinCause b).arb1 = s.arb1 := rfl
@[simp] theorem State.twinCause_arbB (s : State) (b : Nat) : (s.twinCause b).arbB = s.arbB := rfl
@[simp] theorem State.twinCause_te0 (s : State) (b : Nat) : (s.twinCause b).te0 = s.te0 := rfl
@[simp] theorem State.twinCause_te1 (s : State) (b : Nat) : (s.twinCause b).te1 = s.te1 := rfl
@[simp] theorem State.twinCause_be (s : State) (b : Nat) : (s.twinCause b).be = s.be := rfl
@[simp] theorem State.twinCause_obs (s : State) (b : Nat) : (s.twinCause b).obs = s.obs := rfl
@[simp] theorem State.twinCause_tw (s : State) (b : Nat) : (s.twinCause b).tw = s.tw := rfl
@[simp] theorem State.twinCause_mesh (s : State) (b : Nat) : (s.twinCause b).mesh = s.mesh := rfl
@[simp] theorem State.twinCause_pd (s : State) (b : Nat) : (s.twinCause b).pd = s.pd := rfl
@[simp] theorem State.twinCause_smap (s : State) (b : Nat) : (s.twinCause b).smap = s.smap := rfl
@[simp] theorem State.twinCause_smep (s : State) (b : Nat) : (s.twinCause b).smep = s.smep := rfl
@[simp] theorem State.twinCause_fold (s : State) (b : Nat) : (s.twinCause b).fold = s.fold := rfl
@[simp] theorem State.twinCause_parked (s : State) (b : Nat) : (s.twinCause b).parked = s.parked := rfl
@[simp] theorem State.twinCause_latched (s : State) (b : Nat) : (s.twinCause b).latched = s.latched := rfl
@[simp] theorem State.twinCause_calSum (s : State) (b : Nat) : (s.twinCause b).calSum = s.calSum := rfl
@[simp] theorem State.twinCause_calSeen (s : State) (b : Nat) : (s.twinCause b).calSeen = s.calSeen := rfl
@[simp] theorem State.twinCause_gpfSeq (s : State) (b : Nat) : (s.twinCause b).gpfSeq = s.gpfSeq := rfl
@[simp] theorem State.twinCause_out (s : State) (b : Nat) : (s.twinCause b).out = s.out := rfl
@[simp] theorem State.twinCause_cuts (s : State) (b : Nat) : (s.twinCause b).cuts = s.cuts := rfl

/-! ### `State.obsCause` -/

@[simp] theorem State.obsCause_pending (s : State) (b : Nat) : (s.obsCause b).pending = s.pending := rfl
@[simp] theorem State.obsCause_clk (s : State) (b : Nat) : (s.obsCause b).clk = s.clk := rfl
@[simp] theorem State.obsCause_coldLow (s : State) (b : Nat) : (s.obsCause b).coldLow = s.coldLow := rfl
@[simp] theorem State.obsCause_warmLow (s : State) (b : Nat) : (s.obsCause b).warmLow = s.warmLow := rfl
@[simp] theorem State.obsCause_warmRel (s : State) (b : Nat) : (s.obsCause b).warmRel = s.warmRel := rfl
@[simp] theorem State.obsCause_strapProf (s : State) (b : Nat) : (s.obsCause b).strapProf = s.strapProf := rfl
@[simp] theorem State.obsCause_strapTwin (s : State) (b : Nat) : (s.obsCause b).strapTwin = s.strapTwin := rfl
@[simp] theorem State.obsCause_ready (s : State) (b : Nat) : (s.obsCause b).ready = s.ready := rfl
@[simp] theorem State.obsCause_halt (s : State) (b : Nat) : (s.obsCause b).halt = s.halt := rfl
@[simp] theorem State.obsCause_sched (s : State) (b : Nat) : (s.obsCause b).sched = s.sched := rfl
@[simp] theorem State.obsCause_soon (s : State) (b : Nat) : (s.obsCause b).soon = s.soon := rfl
@[simp] theorem State.obsCause_mc (s : State) (b : Nat) : (s.obsCause b).mc = s.mc := rfl
@[simp] theorem State.obsCause_params (s : State) (b : Nat) : (s.obsCause b).params = s.params := rfl
@[simp] theorem State.obsCause_errLog (s : State) (b : Nat) : (s.obsCause b).errLog = s.errLog := rfl
@[simp] theorem State.obsCause_errLost (s : State) (b : Nat) : (s.obsCause b).errLost = s.errLost := rfl
@[simp] theorem State.obsCause_vlog (s : State) (b : Nat) : (s.obsCause b).vlog = s.vlog := rfl
@[simp] theorem State.obsCause_vlogLost (s : State) (b : Nat) : (s.obsCause b).vlogLost = s.vlogLost := rfl
@[simp] theorem State.obsCause_buckets (s : State) (b : Nat) : (s.obsCause b).buckets = s.buckets := rfl
@[simp] theorem State.obsCause_leak (s : State) (b : Nat) : (s.obsCause b).leak = s.leak := rfl
@[simp] theorem State.obsCause_ret (s : State) (b : Nat) : (s.obsCause b).ret = s.ret := rfl
@[simp] theorem State.obsCause_arbMode (s : State) (b : Nat) : (s.obsCause b).arbMode = s.arbMode := rfl
@[simp] theorem State.obsCause_insts (s : State) (b : Nat) : (s.obsCause b).insts = s.insts := rfl
@[simp] theorem State.obsCause_irt (s : State) (b : Nat) : (s.obsCause b).irt = s.irt := rfl
@[simp] theorem State.obsCause_agents (s : State) (b : Nat) : (s.obsCause b).agents = s.agents := rfl
@[simp] theorem State.obsCause_lports (s : State) (b : Nat) : (s.obsCause b).lports = s.lports := rfl
@[simp] theorem State.obsCause_ports (s : State) (b : Nat) : (s.obsCause b).ports = s.ports := rfl
@[simp] theorem State.obsCause_pss (s : State) (b : Nat) : (s.obsCause b).pss = s.pss := rfl
@[simp] theorem State.obsCause_slices (s : State) (b : Nat) : (s.obsCause b).slices = s.slices := rfl
@[simp] theorem State.obsCause_mss (s : State) (b : Nat) : (s.obsCause b).mss = s.mss := rfl
@[simp] theorem State.obsCause_arb0 (s : State) (b : Nat) : (s.obsCause b).arb0 = s.arb0 := rfl
@[simp] theorem State.obsCause_arb1 (s : State) (b : Nat) : (s.obsCause b).arb1 = s.arb1 := rfl
@[simp] theorem State.obsCause_arbB (s : State) (b : Nat) : (s.obsCause b).arbB = s.arbB := rfl
@[simp] theorem State.obsCause_te0 (s : State) (b : Nat) : (s.obsCause b).te0 = s.te0 := rfl
@[simp] theorem State.obsCause_te1 (s : State) (b : Nat) : (s.obsCause b).te1 = s.te1 := rfl
@[simp] theorem State.obsCause_be (s : State) (b : Nat) : (s.obsCause b).be = s.be := rfl
@[simp] theorem State.obsCause_obs (s : State) (b : Nat) : (s.obsCause b).obs = s.obs := rfl
@[simp] theorem State.obsCause_tw (s : State) (b : Nat) : (s.obsCause b).tw = s.tw := rfl
@[simp] theorem State.obsCause_mesh (s : State) (b : Nat) : (s.obsCause b).mesh = s.mesh := rfl
@[simp] theorem State.obsCause_pd (s : State) (b : Nat) : (s.obsCause b).pd = s.pd := rfl
@[simp] theorem State.obsCause_smap (s : State) (b : Nat) : (s.obsCause b).smap = s.smap := rfl
@[simp] theorem State.obsCause_smep (s : State) (b : Nat) : (s.obsCause b).smep = s.smep := rfl
@[simp] theorem State.obsCause_fold (s : State) (b : Nat) : (s.obsCause b).fold = s.fold := rfl
@[simp] theorem State.obsCause_parked (s : State) (b : Nat) : (s.obsCause b).parked = s.parked := rfl
@[simp] theorem State.obsCause_latched (s : State) (b : Nat) : (s.obsCause b).latched = s.latched := rfl
@[simp] theorem State.obsCause_calSum (s : State) (b : Nat) : (s.obsCause b).calSum = s.calSum := rfl
@[simp] theorem State.obsCause_calSeen (s : State) (b : Nat) : (s.obsCause b).calSeen = s.calSeen := rfl
@[simp] theorem State.obsCause_gpfSeq (s : State) (b : Nat) : (s.obsCause b).gpfSeq = s.gpfSeq := rfl
@[simp] theorem State.obsCause_out (s : State) (b : Nat) : (s.obsCause b).out = s.out := rfl
@[simp] theorem State.obsCause_cuts (s : State) (b : Nat) : (s.obsCause b).cuts = s.cuts := rfl

/-! ### `State.ringErrBit` -/

@[simp] theorem State.ringErrBit_pending (s : State) (b : Nat) : (s.ringErrBit b).pending = s.pending := rfl
@[simp] theorem State.ringErrBit_clk (s : State) (b : Nat) : (s.ringErrBit b).clk = s.clk := rfl
@[simp] theorem State.ringErrBit_coldLow (s : State) (b : Nat) : (s.ringErrBit b).coldLow = s.coldLow := rfl
@[simp] theorem State.ringErrBit_warmLow (s : State) (b : Nat) : (s.ringErrBit b).warmLow = s.warmLow := rfl
@[simp] theorem State.ringErrBit_warmRel (s : State) (b : Nat) : (s.ringErrBit b).warmRel = s.warmRel := rfl
@[simp] theorem State.ringErrBit_strapProf (s : State) (b : Nat) : (s.ringErrBit b).strapProf = s.strapProf := rfl
@[simp] theorem State.ringErrBit_strapTwin (s : State) (b : Nat) : (s.ringErrBit b).strapTwin = s.strapTwin := rfl
@[simp] theorem State.ringErrBit_ready (s : State) (b : Nat) : (s.ringErrBit b).ready = s.ready := rfl
@[simp] theorem State.ringErrBit_halt (s : State) (b : Nat) : (s.ringErrBit b).halt = s.halt := rfl
@[simp] theorem State.ringErrBit_sched (s : State) (b : Nat) : (s.ringErrBit b).sched = s.sched := rfl
@[simp] theorem State.ringErrBit_soon (s : State) (b : Nat) : (s.ringErrBit b).soon = s.soon := rfl
@[simp] theorem State.ringErrBit_mc (s : State) (b : Nat) : (s.ringErrBit b).mc = s.mc := rfl
@[simp] theorem State.ringErrBit_params (s : State) (b : Nat) : (s.ringErrBit b).params = s.params := rfl
@[simp] theorem State.ringErrBit_errLog (s : State) (b : Nat) : (s.ringErrBit b).errLog = s.errLog := rfl
@[simp] theorem State.ringErrBit_errLost (s : State) (b : Nat) : (s.ringErrBit b).errLost = s.errLost := rfl
@[simp] theorem State.ringErrBit_vlog (s : State) (b : Nat) : (s.ringErrBit b).vlog = s.vlog := rfl
@[simp] theorem State.ringErrBit_vlogLost (s : State) (b : Nat) : (s.ringErrBit b).vlogLost = s.vlogLost := rfl
@[simp] theorem State.ringErrBit_buckets (s : State) (b : Nat) : (s.ringErrBit b).buckets = s.buckets := rfl
@[simp] theorem State.ringErrBit_leak (s : State) (b : Nat) : (s.ringErrBit b).leak = s.leak := rfl
@[simp] theorem State.ringErrBit_ret (s : State) (b : Nat) : (s.ringErrBit b).ret = s.ret := rfl
@[simp] theorem State.ringErrBit_arbMode (s : State) (b : Nat) : (s.ringErrBit b).arbMode = s.arbMode := rfl
@[simp] theorem State.ringErrBit_insts (s : State) (b : Nat) : (s.ringErrBit b).insts = s.insts := rfl
@[simp] theorem State.ringErrBit_irt (s : State) (b : Nat) : (s.ringErrBit b).irt = s.irt := rfl
@[simp] theorem State.ringErrBit_agents (s : State) (b : Nat) : (s.ringErrBit b).agents = s.agents := rfl
@[simp] theorem State.ringErrBit_lports (s : State) (b : Nat) : (s.ringErrBit b).lports = s.lports := rfl
@[simp] theorem State.ringErrBit_ports (s : State) (b : Nat) : (s.ringErrBit b).ports = s.ports := rfl
@[simp] theorem State.ringErrBit_pss (s : State) (b : Nat) : (s.ringErrBit b).pss = s.pss := rfl
@[simp] theorem State.ringErrBit_slices (s : State) (b : Nat) : (s.ringErrBit b).slices = s.slices := rfl
@[simp] theorem State.ringErrBit_mss (s : State) (b : Nat) : (s.ringErrBit b).mss = s.mss := rfl
@[simp] theorem State.ringErrBit_arb0 (s : State) (b : Nat) : (s.ringErrBit b).arb0 = s.arb0 := rfl
@[simp] theorem State.ringErrBit_arb1 (s : State) (b : Nat) : (s.ringErrBit b).arb1 = s.arb1 := rfl
@[simp] theorem State.ringErrBit_arbB (s : State) (b : Nat) : (s.ringErrBit b).arbB = s.arbB := rfl
@[simp] theorem State.ringErrBit_te0 (s : State) (b : Nat) : (s.ringErrBit b).te0 = s.te0 := rfl
@[simp] theorem State.ringErrBit_te1 (s : State) (b : Nat) : (s.ringErrBit b).te1 = s.te1 := rfl
@[simp] theorem State.ringErrBit_be (s : State) (b : Nat) : (s.ringErrBit b).be = s.be := rfl
@[simp] theorem State.ringErrBit_obs (s : State) (b : Nat) : (s.ringErrBit b).obs = s.obs := rfl
@[simp] theorem State.ringErrBit_tw (s : State) (b : Nat) : (s.ringErrBit b).tw = s.tw := rfl
@[simp] theorem State.ringErrBit_mesh (s : State) (b : Nat) : (s.ringErrBit b).mesh = s.mesh := rfl
@[simp] theorem State.ringErrBit_pd (s : State) (b : Nat) : (s.ringErrBit b).pd = s.pd := rfl
@[simp] theorem State.ringErrBit_smap (s : State) (b : Nat) : (s.ringErrBit b).smap = s.smap := rfl
@[simp] theorem State.ringErrBit_smep (s : State) (b : Nat) : (s.ringErrBit b).smep = s.smep := rfl
@[simp] theorem State.ringErrBit_fold (s : State) (b : Nat) : (s.ringErrBit b).fold = s.fold := rfl
@[simp] theorem State.ringErrBit_parked (s : State) (b : Nat) : (s.ringErrBit b).parked = s.parked := rfl
@[simp] theorem State.ringErrBit_latched (s : State) (b : Nat) : (s.ringErrBit b).latched = s.latched := rfl
@[simp] theorem State.ringErrBit_calSum (s : State) (b : Nat) : (s.ringErrBit b).calSum = s.calSum := rfl
@[simp] theorem State.ringErrBit_calSeen (s : State) (b : Nat) : (s.ringErrBit b).calSeen = s.calSeen := rfl
@[simp] theorem State.ringErrBit_gpfSeq (s : State) (b : Nat) : (s.ringErrBit b).gpfSeq = s.gpfSeq := rfl
@[simp] theorem State.ringErrBit_out (s : State) (b : Nat) : (s.ringErrBit b).out = s.out := rfl
@[simp] theorem State.ringErrBit_cuts (s : State) (b : Nat) : (s.ringErrBit b).cuts = s.cuts := rfl

end Sys2Proof.Machine
end

