-- ==== Sys2Proof/Laws/Arrive.lean ====
section
/-!
SUPPORT. What a unit receives when a packet for it arrives.
-/

namespace Sys2Proof.Machine

open Sys2Proof

theorem recv_at {α : Type} {s : State} {k : Nat} {p : Pkt} {sel : Msg → Option α} {a : α} (h : Arrives s k p) (e : (s.body p).bind sel = some a) :
    s.recv k sel = some (a, p, s.ejected k p) := by
  unfold State.recv
  simp only [h.pkt, e, h.free, if_true]

theorem psStop_back (n : Stn) : (psStop n).toNat < 8 ∧ (psStop n).setWidth 3 = n := by
  revert n; decide

theorem hsStop_back (n : Hs) : 8 ≤ (hsStop n).toNat ∧ (hsStop n).toNat < 40 ∧ stopHs (hsStop n) = n := by
  revert n; decide

theorem recvPs_at {α : Type} {s : State} {k : Nat} {p : Pkt} {n : Stn} {sel : Msg → Option α} {a : α} (h : AtPs s k p n)
    (e : (s.body p).bind sel = some a) : s.recvPs k sel = some (a, n, s.ejected k p) := by
  unfold State.recvPs
  simp only [recv_at h.pkt e, h.dst, (psStop_back n).1, (psStop_back n).2, h.up, decide_true, Bool.and_self, if_true]

theorem recvHs_at {α : Type} {s : State} {k : Nat} {p : Pkt} {n : Hs} {sel : Msg → Option α} {a : α} (h : AtHs s k p n)
    (e : (s.body p).bind sel = some a) : s.recvHs k sel = some (a, n, s.ejected k p) := by
  unfold State.recvHs
  simp only [recv_at h.pkt e, h.dst, (hsStop_back n).1, (hsStop_back n).2, h.up, decide_true, Bool.and_self, if_true]

theorem recvTe_at {α : Type} {s : State} {k : Nat} {p : Pkt} {n : Bool} {sel : Msg → Option α} {a : α} (h : AtTe s k p n)
    (e : (s.body p).bind sel = some a) : s.recvTe k sel = some (a, n, s.ejected k p) := by
  unfold State.recvTe
  simp only [recv_at h.pkt e, h.dst]
  have hh : (match s.halt with | .halted _ => false | _ => true) = true := by
    have := h.alive
    cases hs : s.halt <;> simp_all
  cases n
  · simp only [show (teStop false == teStop true) = false by decide, show (teStop false == teStop false) = true by decide, h.up]
    simp only [Bool.false_or, Bool.true_and]
    exact if_pos hh
  · simp only [show (teStop true == teStop true) = true by decide, h.up]
    simp only [Bool.true_or, Bool.true_and]
    exact if_pos hh

end Sys2Proof.Machine
end

