-- ==== Sys2Proof/Laws/Mc.lean ====
section
/-!
SUPPORT. A command of the MC that passes the checks of R462: what its row answers, given what its body answers.
-/

namespace Sys2Proof.Machine

open Sys2Proof

/-- A body that answers a new state: the row answers that state, closed. -/
theorem mcRow_served {op : Nat} {w : BitVec 512} {s t u : State} {i : Nat} {b : Body} (h : Served op w s t i) (hb : b t = .ok u) :
    mcRow op w b s = .next (u.closed i) := by
  obtain ⟨rfl, hr, hf, hn, r, hrow, hc⟩ := h
  have f1 : ¬((cFmt w != 1 && cFmt w != 2) = true) := by rcases hf with h | ⟨h, _⟩ <;> simp [h]
  have f2 : ¬((cFmt w == 2 && w.extractLsb' 64 32 != crcPar w) = true) := by
    rcases hf with h | ⟨_, h⟩
    · simp [h]
    · simp [h]
  have f0 : ¬((cOp w != cOp w) = true) := by simp
  simp only [mcRow, if_neg f0, hr, State.serve, if_neg f1, if_neg f2, hrow, hn, Bool.and_false, State.execCmd, hc, hb, State.closed, Bool.false_eq_true, if_false]

/-- A body that refuses: its reply, and the count of R440. -/
theorem mcRow_refused {op : Nat} {w : BitVec 512} {s t : State} {i : Nat} {b : Body} {st : Status} (h : Served op w s t i)
    (hb : b t = .error st) : mcRow op w b s = .next (((t.refuseCmd w st).slotDone i).ringSettle) := by
  obtain ⟨rfl, hr, hf, hn, r, hrow, hc⟩ := h
  have f1 : ¬((cFmt w != 1 && cFmt w != 2) = true) := by rcases hf with h | ⟨h, _⟩ <;> simp [h]
  have f2 : ¬((cFmt w == 2 && w.extractLsb' 64 32 != crcPar w) = true) := by
    rcases hf with h | ⟨_, h⟩
    · simp [h]
    · simp [h]
  have f0 : ¬((cOp w != cOp w) = true) := by simp
  simp only [mcRow, if_neg f0, hr, State.serve, if_neg f1, if_neg f2, hrow, hn, Bool.and_false, State.execCmd, hc, hb, Bool.false_eq_true, if_false]

theorem State.done_eq (u : State) (w : BitVec 512) (l : List (Nat × Nat)) : u.done w l = .ok (u.replyDone w l) := rfl

end Sys2Proof.Machine
end

