-- ==== Sys2Proof/Laws/Port.lean ====
section
/-!
SUPPORT. What the port station does with an access whose one piece has arrived (R560).
-/

namespace Sys2Proof.Machine

open Sys2Proof

theorem access_accepted {u : State} {n : Stn} {w : BitVec 160} {a b : BitVec 128} {k : RKind} {c : Cls}
    (h : ∀ ag, u.agent (wRq w) = some ag → ag.lst ≠ .held) (hv : u.vet w = .inr (k, c))
    (ha : ropAop (wRop w) = true → (u.teFor (wLix w)).isSome = true) :
    u.access n [w] a b = (u.accept n w a b k c (u.ps n).nextMid).pumpPort n := by
  have hz : (ropAop (wRop w) && (u.teFor (wLix w)).isNone) = false := by
    cases hq : ropAop (wRop w) with
    | false => rfl
    | true =>
      have := ha hq
      cases hy : u.teFor (wLix w) with
      | none => rw [hy] at this; cases this
      | some _ => rfl
  cases hg : u.agent (wRq w) with
  | none => simp only [State.access, hg, firstDenial, List.findSome?_cons, List.findSome?_nil, hv, hz, List.foldl_cons, List.foldl_nil, Bool.false_eq_true, if_false]
  | some ag =>
    have hh : (ag.lst == LSt.held) = false := by simpa using h ag hg
    simp only [State.access, hg, hh, firstDenial, List.findSome?_cons, List.findSome?_nil, hv, hz, List.foldl_cons, List.foldl_nil, Bool.false_eq_true, if_false]

theorem access_refused {u : State} {n : Stn} {w : BitVec 160} {a b : BitVec 128} {d : Denial}
    (h : ∀ ag, u.agent (wRq w) = some ag → ag.lst ≠ .held) (hv : u.vet w = .inl d) :
    u.access n [w] a b = (match d.cause with | some x => u.denyRec n [w] w x d.ridx | none => u).refuseAll n [w] d.st := by
  cases hg : u.agent (wRq w) with
  | none => simp only [State.access, hg, firstDenial, List.findSome?_cons, hv, Bool.false_eq_true, if_false] <;>
      (cases d.cause <;> rfl)
  | some ag =>
    have hh : (ag.lst == LSt.held) = false := by simpa using h ag hg
    simp only [State.access, hg, hh, firstDenial, List.findSome?_cons, hv, Bool.false_eq_true, if_false] <;>
      (cases d.cause <;> rfl)

end Sys2Proof.Machine
end

