-- ==== Sys2Proof/Tests/Slice0.lean ====
section
/-!
SUPPORT. Tests. For each statement with hypotheses a concrete state and operands that meet them, clause by clause, with what the command
then does, worked out from the rules; a command that is not well-formed for each check of WellFormed.
-/

namespace Sys2Proof.Tests

set_option Elab.async false

open Sys2Proof Sys2Proof.Machine

/-! ### Helpers -/

/-- The outcome goes on, to a state that meets a condition. -/
def goes (r : Res) (f : State → Bool) : Bool := match r with | .next t => f t | _ => false

/-- Every clause holds. -/
def each (l : List Bool) : Bool := l.all id

/-- A command packet of format 1: opcode, instance, flags, parameters as (bytes, value). -/
def pk (op ci flags : Nat) (par : List (Nat × Nat)) : BitVec 512 :=
  BitVec.ofNat 512 (1 + op * 2 ^ 4 + ci * 2 ^ 32 + flags * 2 ^ 40 + (par.map fun p => p.1).sum * 2 ^ 48 + pack par * 2 ^ 128)

/-- The state once the MC has read the packet. -/
def after (s : State) (w : BitVec 512) : State := ((s.readSlot w).getD (0, s)).2

def servedB (op : Nat) (w : BitVec 512) (s : State) : Bool :=
  cOp w == op && cFmt w == 1 && (s.readSlot w).any (fun p => p.1 == 0) && !(after s w).mustDefer 0 w &&
    (opRow op).any fun r => (after s w).check w r == none

theorem served_of {op : Nat} {w : BitVec 512} {s : State} (h : servedB op w s = true) : Served op w s (after s w) 0 := by
  simp only [servedB, Bool.and_eq_true, beq_iff_eq, Bool.not_eq_true', Option.any_eq_true] at h
  obtain ⟨⟨⟨⟨h1, h2⟩, ⟨x, h3, h4⟩⟩, h5⟩, ⟨r, h6, h7⟩⟩ := h
  refine ⟨h1, ?_, .inl h2, h5, r, h6, h7⟩
  rw [h3]; obtain ⟨a, b⟩ := x; simp only at h4; subst h4; simp [after, h3]

/-- A packet is `Served` in a state, a condition holds once it is read, and its row answers a state that meets another. -/
def runs (op : Nat) (w : BitVec 512) (c : BitVec 512 → Instr) (s : State) (hyp : State → Bool) (res : State → Bool) : Bool :=
  servedB op w s && hyp (after s w) && goes (exec (c w) s) res

/-- The status of the last reply. -/
def said (t : State) (st : Status) : Bool := (t.mc.replies.getLast?).any fun r => r.status == st

/-- The result of the last reply. -/
def result (t : State) (v : Nat) : Bool := (t.mc.replies.getLast?).any fun r => r.result.toNat == v

def done (t : State) : Bool := said t .done
def begun (t : State) : Bool := said t .inProgress

/-- The MC in a boot state; `rdy`: in READY and mode SERVICE. -/
def boot (b : BState) : State := { State.reset with mc := { Mc.reset with bstate := b } }
def rdy : State := { boot .ready with arbMode := .service }

def onDom : Dom := { Dom.reset with st := .on, req := true, ack := true, good := true, iso := false }

/-- With domains ON, in rising order. -/
def onDoms (ds : List Nat) (s : State) : State := { s with pd := ds.map fun d => (d, onDom) }
def allOn (s : State) : State := onDoms (List.range 85) s

/-- With an instance 0. -/
def withI (i : Inst) (s : State) : State := { s with insts := [(0, i)] }
def aLong (op : Nat) (j : Job) : LongCmd := { cmd := pk op 0xFF 0 [], job := j, steps := 5, done := 2, long := true }
def withL (l : LongCmd) (s : State) : State := { s with mc := { s.mc with longs := [l] } }

/-- Instance 0 in a state, with 2 entries. -/
def inst (st : ISt) : Inst := { Inst.reset with st := st, nreg := 2, rents := [0, 1], csets := [3], sfq := 1, plbQ := 2, trkMax := 16 }

def tw (s : State) : State := { s with strapTwin := true, tw := { s.tw with lup := true, linkUp := true, plev := 1, pMax := 2 }, mc := { s.mc with clevMax := 2 } }
def role (r : TRole) (st : ISt) : State := withI { inst st with role := r, pep := 1 } (tw rdy)

def err (n : Nat) : ErrRec :=
  { ecls := 2, chk := 1, chn := BitVec.ofNat 12 n, estop := 8, ecode := 1, elix := none, eci := none, erq := none, bkt := 1, etick := 0 }
def vio : VRec := { lix := 0, akind := 0, rqid := 0, ci := none, ridx := none, cause := 1, tick := 0 }

def rg (k : RKind) : Region :=
  { base := 4, limit := 7, kind := k, rd := true, wr := true, at' := true, gr := true, amask := 1, lhrq := 0, lhv := false }

def withA (a : Agent) (s : State) : State := { s with agents := [(5, a)] }
def agent (c : AClass) : Agent := Agent.fresh c (if c == .bi then some 3 else none) 2

/-- A port of `n` MiB from address 0. -/
def prt (n : Nat) : PortDesc :=
  { base := 0, size := BitVec.ofNat 32 n, rtBase := 0, table := false, nma := false, thr := 0, pv := true, nmaLive := false, thrLive := 0, rtReady := false }

/-- Agent 5, of class BI and UP, in instance 0, which is ACTIVE with one COH region; slice 0 and every unit's first station are ON. -/
def live : State :=
  withA { agent .bi with lst := .up } (withI { inst .active with regions := [(1, rg .coh)], members := [3] } (onDoms [0, 32, 64, 72, 80, 81, 82, 83, 84]
    { rdy with irt := [{ rqid := 5, pasid := 0, pv := false, ci := 0, agrp := 0 }], ports := [(0, prt 16)], lports := [(2, { LPort.reset with up := true })] }))

/-- A request of agent 5 for line 264, which slice 0 serves. -/
def rq0 (c : Cls) : Req :=
  { src := .ps 0, rqid := 5, cax := some 3, ci := 0, cls := c, kind := .coh, mval := .s, lix := 264, ofs := 0, blen := 63, dst := some 9, mpid := 0, pcnt := 1,
    pix := 0, lp := 2, sess := 0, gen := 0, smep := false, wbc := 1, wbg := true, rwr := false, tries := 0, mid := 0, aop := .fetchAdd, opA := 0, opB := 0,
    data := 0, fwd := false, itk := 0, urg := 0 }

def pkt (dst : Stop) (m : Msg) : Pkt :=
  { Pkt.new 9 dst .rsp false m with wait := false }

/-- With the one packet in flight. -/
def put (p : Pkt) (s : State) : State := { s with mesh := { s.mesh with pkts := [p] } }

theorem arrives_put (dst : Stop) (m : Msg) (s : State) : Arrives (put (pkt dst m) s) 0 (pkt dst m) := ⟨rfl, rfl⟩

def ps0 (p : PSt) (s : State) : State := { s with pss := [(0, p)] }
def hs0 (x : Slice) (s : State) : State := { s with slices := [(0, x)] }

/-! ### Commands of the MC (R442 to R469) -/

def img (len : Nat) (b : List (Nat × Nat)) (s : State) : State :=
  { s with mc := { s.mc with imgLen := len, img := b.map fun p => (p.1, BitVec.ofNat 8 p.2) } }

/-- A header by R447, of an image of 0x240 bytes at levels 1 to 2, but for its last 32 bytes. -/
def head : List (Nat × Nat) :=
  [(0, 0x4F), (1, 0x48), (2, 0x45), (3, 0x46), (4, 1), (6, 1), (7, 2), (12, 0x40), (13, 0x02), (17, 0x02), (64, 4)]

theorem test_bootStatus : each [
    runs 0x001 (pk 0x001 0xFF 0 []) .bootStatus (boot .romWait) (fun _ => true)
    (fun t => done t && result t (1 + 0xFF * 2 ^ 24))] = true := by decide +kernel

theorem test_imgBegin : each [
    runs 0x002 (pk 0x002 0xFF 0 []) .imgBegin (img 32 [(1, 9)] (boot .loading)) (fun _ => true)
    (fun t => done t && t.mc.bstate == .loading && t.mc.img == [] && t.mc.imgLen == 0)] = true := by decide +kernel

/-- The first 32 bytes, the last 32 that the size field allows, and the 512th byte under a valid and under an invalid header. -/
theorem test_imgData : each [
    runs 0x003 (pk 0x003 0xFF 0 [(4, 0), (12, 0), (32, 0x0102)]) .imgData (boot .loading) (fun t => t.mc.imgLen == 0)
      (fun t => done t && t.mc.imgLen == 32 && t.mc.img == [(0, 2), (1, 1)]),
    runs 0x003 (pk 0x003 0xFF 0 [(4, 512), (12, 0), (32, 7)]) .imgData (img 512 [(12, 0x20), (13, 0x02)] (boot .loading))
      (fun t => memGetN t.mc.img 0xC 4 == 544) (fun t => done t && t.mc.imgLen == 544 && memGet t.mc.img 512 == 7),
    runs 0x003 (pk 0x003 0xFF 0 [(4, 480), (12, 0), (32, 0)]) .imgData (img 480 head (boot .loading))
      (fun t => imgHeadOk (memSetN t.mc.img 480 32 0)) (fun t => done t && t.mc.imgLen == 512),
    runs 0x003 (pk 0x003 0xFF 0 [(4, 480), (12, 0), (32, 0)]) .imgData (img 480 [(0, 1)] (boot .loading))
      (fun t => !imgHeadOk (memSetN t.mc.img 480 32 0)) (fun t => said t .badFormat && t.mc.bstate == .romWait && t.mc.img == [])] = true := by decide +kernel

theorem test_imgEnd : each [
    runs 0x004 (pk 0x004 0xFF 0 []) .imgEnd (img 512 [(13, 2)] (boot .loading)) (fun t => memGetN t.mc.img 0xC 4 == 512)
    (fun t => begun t && t.mc.bstate == .verify)] = true := by decide +kernel

/-- BOOT_START enters READY, or waits for the thaws of start-up. -/
theorem test_bootStart : each [
    runs 0x005 (pk 0x005 0xFF 0 []) .bootStart (allOn (boot .starting)) (fun t => t.mc.seq == none && t.mayReady)
      (fun t => done t && t.mc.bstate == .ready && !t.ready),
    runs 0x005 (pk 0x005 0xFF 0 []) .bootStart { boot .starting with mc := { (boot .starting).mc with seq := some { freeze := false, cur := [0], left := [], cmd := none } } }
      (fun t => t.mc.seq.isSome) (fun t => t.mc.replies == [] && t.mc.longs.length == 1)] = true := by decide +kernel

theorem test_cmdProgress : each [
    runs 0x006 (pk 0x006 0xFF 0 [(2, 0), (2, 0x50D)]) .cmdProgress (withL (aLong 0x50D .bulk) rdy)
    (fun t => (t.mc.longs.find? fun l => l.long && (cTag l.cmd).toNat == 0 && cOp l.cmd == 0x50D) == some (aLong 0x50D .bulk))
    (fun t => done t && result t (5 + 2 * 2 ^ 32))] = true := by decide +kernel

/-- INST_CREATE at the least values and with a firn at the end of its port (2^12 sets of 256 B in units of 4 KiB). -/
theorem test_instCreate : each [
    runs 0x101 (pk 0x101 0 0 [(1, 0), (1, 1), (1, 0), (1, 0), (4, 0), (1, 0), (1, 0), (2, 0), (1, 1), (1, 2), (2, 0), (2, 16), (2, 1), (2, 0), (2, 0)]) .instCreate rdy
      (fun t => (t.inst 0).st == .free && (t.inst 0).nreg == 0) (fun t => begun t && (t.inst 0).nreg == 1 && t.be.ops.length == 1 &&
        t.sched.contains (1, .inst 0 .idle)),
    runs 0x101 (pk 0x101 0 0 [(1, 1), (1, 64), (1, 4), (1, 12), (4, 0), (1, 0), (1, 24), (2, 64), (1, 16), (1, 64), (2, 256), (2, 768), (2, 0), (2, 0), (2, 9)]) .instCreate
      { rdy with ports := [(0, { base := 0, size := 16, rtBase := 0, table := false, nma := false, thr := 0, pv := true, nmaLive := false, thrLive := 0, rtReady := false })] }
      (fun t => t.floors 0 == 0) (fun t => begun t && (t.inst 0).mode && (t.inst 0).csets == [0, 1, 2, 3] && (t.inst 0).rotGap == 4096)] = true := by decide +kernel

theorem test_instEnable : each [
    runs 0x102 (pk 0x102 0 0 []) .instEnable (withI (inst .idle) rdy) (fun t => (t.inst 0).role == .none) (fun t => t.sched == [(1, .inst 0 .active)]),
    runs 0x102 (pk 0x102 0 0 []) .instEnable (withI (inst .quiesced) rdy) (fun t => (t.inst 0).st == .quiesced) (fun t => t.mc.replies == [])] = true := by decide +kernel

/-- INST_QUIESCE without and with ABORT. -/
theorem test_instQuiesce : each [
    runs 0x103 (pk 0x103 0 0 []) .instQuiesce (withI (inst .active) rdy) (fun _ => true) (fun t => begun t && t.sched == [(1, .inst 0 .draining)]),
    runs 0x103 (pk 0x103 0 1 []) .instQuiesce (withI (inst .active) rdy) (fun _ => true) (fun t => begun t && t.sched == [(1, .inst 0 .aborting)])] = true := by decide +kernel

theorem test_instReset_instRemove : each [
    runs 0x104 (pk 0x104 0 0 []) .instReset (withI (inst .quiesced) rdy) (fun t => (t.inst 0).clearable) begun,
    runs 0x105 (pk 0x105 0 0 []) .instRemove (withI (inst .idle) rdy) (fun t => (t.inst 0).clearable && (t.inst 0).regions == []) begun,
    runs 0x105 (pk 0x105 0 2 []) .instRemove (withI { inst .quiesced with regions := [(0, { base := 0, limit := 0, kind := .coh, rd := true, wr := true, at' := false, gr := false, amask := 0, lhrq := 0, lhv := false })] } rdy)
      (fun t => (t.inst 0).clearable) begun] = true := by decide +kernel

theorem test_instQuota_instStatus : each [
    runs 0x106 (pk 0x106 0 0 [(1, 16), (1, 64), (2, 256), (2, 768), (1, 9)]) .instQuota (withI (inst .idle) rdy)
      (fun t => quotaOk 16 64 256 768 && decide (t.floors 0 + 256 ≤ 768)) (fun t => t.sched.length == 1 && t.mc.replies == []),
    runs 0x107 (pk 0x107 0 0 []) .instStatus (withI { inst .idle with viol := 2 } rdy) (fun _ => true)
      (fun t => done t && result t (pack [(1, 1), (1, 0), (1, 0), (1, 1), (1, 2), (1, 24), (2, 0), (2, 16), (1, 2), (1, 1), (1, 0), (1, 0), (4, 0), (4, 0), (4, 0), (4, 2)]))] = true := by decide +kernel
/-! ### Rule changes, regions, ports, agents -/

def ent : IrtEnt := { rqid := 5, pasid := 0, pv := false, ci := 0, agrp := 0 }
def rule (t : State) (op : RuleOp) (r : Recall) : Bool := (t.inst 0).rule.any fun c => c.op == op && c.rcl == r && !c.switched

/-- IRT_ADD for the highest access group, with a PASID and without; IRT_REMOVE of a BI agent's last entry and of an entry of another. -/
theorem test_irt : each [
    runs 0x108 (pk 0x108 0 0 [(2, 5), (4, 0), (1, 0), (1, 15)]) .irtAdd (withI (inst .idle) rdy) (fun t => t.irtFind ent == none)
      (fun t => rule t (.addIrt { ent with agrp := 15 }) .nothing),
    runs 0x108 (pk 0x108 0 0 [(2, 5), (4, 0xFFFFF), (1, 1), (1, 0)]) .irtAdd (withI (inst .active) rdy) (fun t => t.irt == [])
      (fun t => rule t (.addIrt { ent with pasid := 0xFFFFF, pv := true }) .nothing),
    runs 0x109 (pk 0x109 0 0 [(2, 5), (4, 0), (1, 0)]) .irtRemove (withA (agent .bi) (withI (inst .idle) { rdy with irt := [ent] }))
      (fun t => t.lastMember 5 0 ent && t.leaving 5 == .agent 3) (fun t => rule t (.removeIrt ent) (.agent 3)),
    runs 0x109 (pk 0x109 0 0 [(2, 5), (4, 0), (1, 0)]) .irtRemove (withA (agent .io) (withI (inst .idle) { rdy with irt := [ent] }))
      (fun t => t.irtFind ent == some ent) (fun t => rule t (.removeIrt ent) .nothing)] = true := by decide +kernel

theorem test_iwMask : each [
    runs 0x10A (pk 0x10A 0 0 [(2, 0x8001)]) .iwMask (withI (inst .idle) rdy) (fun _ => true) (fun t => rule t (.iwMask 0x8001) .nothing)] = true := by
  decide +kernel

def rset (r : Region) : BitVec 512 := pk 0x201 0 0 [(1, 1), (7, 0), (16, r.encode)]
def withR (k : RKind) (s : State) : State := withI { inst .active with regions := [(1, rg k)] } { s with ports := [(0, prt 16)] }

/-- REGION_SET of a new entry at the end of its port, and of one that cuts both ends of a COH region. -/
theorem test_regionSet : each [
    runs 0x201 (rset { rg .unc with base := 0, limit := 4095 }) .regionSet (withI (inst .idle) { rdy with ports := [(0, prt 16)] })
      (fun t => entryOk (rset { rg .unc with base := 0, limit := 4095 }) && t.onPort262 { rg .unc with base := 0, limit := 4095 })
      (fun t => rule t (.setRegion 1 { rg .unc with base := 0, limit := 4095 }) .nothing),
    runs 0x201 (rset { rg .coh with base := 5, limit := 6 }) .regionSet (withR .coh rdy)
      (fun t => !((tGet (t.inst 0).regions 1).any fun r => r.kind != .coh))
      (fun t => begun t && rule t (.setRegion 1 { rg .coh with base := 5, limit := 6 }) ((rg .coh).removed { rg .coh with base := 5, limit := 6 }))] = true := by
  decide +kernel

/-- REGION_CLEAR of a COH region, of another with ZFILL and of another without; LEASE_PASS with ZFILL and without. -/
theorem test_regionClear_leasePass : each [
    runs 0x202 (pk 0x202 0 0 [(1, 1)]) .regionClear (withR .coh rdy) (fun t => tGet (t.inst 0).regions 1 == some (rg .coh))
      (fun t => rule t (.clearRegion 1) (.range 256 511 1 0 none)),
    runs 0x202 (pk 0x202 0 2 [(1, 1)]) .regionClear (withR .unc rdy) (fun _ => true) (fun t => rule t (.clearRegion 1) (.zero 256 511 .unc)),
    runs 0x202 (pk 0x202 0 0 [(1, 1)]) .regionClear (withR .lease rdy) (fun _ => true) (fun t => rule t (.clearRegion 1) .nothing),
    runs 0x203 (pk 0x203 0 2 [(1, 1), (1, 0), (2, 9), (1, 1)]) .leasePass (withR .lease rdy) (fun _ => true)
      (fun t => rule t (.setRegion 1 { rg .lease with lhrq := 9, lhv := true }) (.zero 256 511 .lease)),
    runs 0x203 (pk 0x203 0 0 [(1, 1), (1, 0), (2, 0), (1, 0)]) .leasePass (withR .lease rdy) (fun _ => true)
      (fun t => rule t (.setRegion 1 (rg .lease)) .nothing)] = true := by decide +kernel

theorem test_regionRead : each [
    runs 0x204 (pk 0x204 0 0 [(1, 0)]) .regionRead (withR .coh rdy) (fun t => decide (0 < (t.inst 0).nreg)) (fun t => done t && result t 0),
    runs 0x204 (pk 0x204 0 0 [(1, 1)]) .regionRead (withR .coh rdy) (fun _ => true)
      (fun t => result t (4 + 7 * 2 ^ 40 + 2 ^ 80 + 15 * 2 ^ 83 + 1 * 2 ^ 88))] = true := by decide +kernel

def pset (m : Nat) (p : PortDesc) : BitVec 512 := pk 0x210 0xFF 0 [(1, m), (7, 0), (16, p.encode)]

/-- PORT_SET at the top of the address space and with the largest POST_THR; of a port that becomes TABLE; PORT_READ. -/
theorem test_ports : each [
    runs 0x210 (pset 63 { prt 1 with base := 0xFFFFFFFF, thr := 64, nma := true }) .portSet rdy
      (fun t => (cPdesc (pset 63 { prt 1 with base := 0xFFFFFFFF, thr := 64, nma := true })).inRange &&
        !t.isLong (pset 63 { prt 1 with base := 0xFFFFFFFF, thr := 64, nma := true }))
      (fun t => done t && (t.ports.map fun p => p.1) == [63] && t.sched == [(1, .port 63 true 64)]),
    runs 0x210 (pset 0 { prt 256 with table := true }) .portSet rdy (fun t => t.isLong (pset 0 { prt 256 with table := true }))
      (fun t => begun t && t.be.ops.length == 1),
    runs 0x211 (pk 0x211 0xFF 0 [(1, 0)]) .portRead { rdy with ports := [(0, prt 16)] } (fun _ => true)
      (fun t => done t && result t (16 * 2 ^ 32 + 2 ^ 113))] = true := by decide +kernel

theorem test_agentAdd : each [
    runs 0x301 (pk 0x301 0xFF 0 [(2, 5), (1, 1), (1, 0), (2, 1023), (2, 0)]) .agentAdd rdy (fun t => t.agent 5 == none)
      (fun t => done t && t.agent 5 == some (Agent.fresh .lease none 1023)),
    runs 0x301 (pk 0x301 0xFF 0x10 [(2, 5), (1, 0), (1, 0), (2, 0), (2, 0)]) .agentAdd rdy (fun t => t.freeCax == some 0)
      (fun t => t.agent 5 == some (Agent.fresh .bi (some 0) 0) && t.sched == [(1, .calReset 0)]),
    runs 0x301 (pk 0x301 0xFF 0 [(2, 5), (1, 0), (1, 0), (2, 0), (2, 1023)]) .agentAdd rdy (fun t => t.caxAgent 1023 == none)
      (fun t => result t 1023)] = true := by decide +kernel

theorem test_agentRemove : each [
    runs 0x302 (pk 0x302 0xFF 0 [(2, 5)]) .agentRemove (withA (agent .bi) rdy) (fun t => (t.agent 5).any fun a => !t.msgOut 5 a && a.lst != .held)
      (fun t => done t && t.agents == []),
    runs 0x302 (pk 0x302 0xFF 0 [(2, 5)]) .agentRemove (withA { agent .io with lst := .held } { rdy with lports := [(2, { LPort.reset with held := true })] })
      (fun t => (t.agent 5).any fun a => a.lst == .held) (fun t => done t && !(t.lport 2).held)] = true := by decide +kernel

theorem test_agentEnable_agentReadmit_agentRead : each [
    runs 0x306 (pk 0x306 0xFF 0 [(2, 5)]) .agentEnable (withA { agent .bi with en := false } rdy) (fun _ => true)
      (fun t => done t && t.sched == [(1, .agentEn 5 true)]),
    runs 0x307 (pk 0x307 0xFF 0 [(2, 5)]) .agentReadmit (withA { agent .bi with lst := .held, rdm := true } rdy) (fun _ => true)
      (fun t => done t && t.sched == [(1, .credits 5)]),
    runs 0x307 (pk 0x307 0xFF 0 [(2, 5)]) .agentReadmit (withA { agent .bi with rdm := true } rdy) (fun _ => true)
      (fun t => done t && t.sched == [] && ((t.agent 5).any fun a => !a.rdm)),
    runs 0x308 (pk 0x308 0xFF 0 [(2, 5)]) .agentRead (withA (agent .bi) rdy) (fun _ => true) done] = true := by decide +kernel

/-- AGENT_BIND to the highest group, AGENT_UNBIND, AGENT_DISABLE. -/
theorem test_agentBind_agentUnbind_agentDisable : each [
    runs 0x303 (pk 0x303 0 0 [(2, 5), (1, 15)]) .agentBind (withA (agent .bi) (withI { inst .idle with mode := true } rdy)) (fun t => t.irt == [])
      (fun t => rule t (.bind 5 15) .nothing),
    runs 0x304 (pk 0x304 0 0 [(2, 5)]) .agentUnbind (withA { agent .bi with bind := some (0, 2) } (withI { inst .idle with mode := true } rdy)) (fun _ => true)
      (fun t => rule t (.unbind 5) (.agent 3)),
    runs 0x305 (pk 0x305 0xFF 0 [(2, 5)]) .agentDisable (withA (agent .bi) rdy) (fun _ => true)
      (fun t => begun t && t.sched == [(1, .agentEn 5 false)])] = true := by decide +kernel

/-- AGENT_GRACE and SNOOP_CFG at both ends of their ranges; CAL_READ of an invalid and of a valid block. -/
theorem test_agentGrace_snoopCfg : each [
    runs 0x309 (pk 0x309 0xFF 0 [(4, 1250)]) .agentGrace rdy (fun _ => true) (fun t => done t && t.params.graceTmo == 1250),
    runs 0x309 (pk 0x309 0xFF 0 [(4, 125000000)]) .agentGrace rdy (fun _ => true) done,
    runs 0x30A (pk 0x30A 0xFF 0 [(2, 16), (2, 0), (4, 1024), (1, 0)]) .snoopCfg rdy (fun _ => true) (fun t => t.sched == [(1, .snoopCfg 16 1024 0)]),
    runs 0x30A (pk 0x30A 0xFF 0 [(2, 65535), (2, 0), (4, 1048575), (1, 7)]) .snoopCfg rdy (fun _ => true) done] = true := by decide +kernel

theorem test_calRead_calReset : each [
    runs 0x30B (pk 0x30B 0xFF 0 [(2, 3)]) .calRead rdy (fun _ => true) (fun t => done t && result t 0),
    runs 0x30B (pk 0x30B 0xFF 0 [(2, 3)]) .calRead { rdy with calSum := [(3, (7, 8, 9))] } (fun _ => true)
      (fun t => result t (7 + 8 * 2 ^ 32 + 9 * 2 ^ 64 + 2 ^ 96)),
    runs 0x30C (pk 0x30C 0xFF 0 [(2, 1023)]) .calReset rdy (fun _ => true) (fun t => done t && t.sched == [(1, .calReset 1023)])] = true := by decide +kernel
/-! ### Power, fold, mesh, arbiters, churn -/

/-- Domain 84 (OBS), the highest; a slice's pair that is in no map. -/
theorem test_pdFreeze : each [
    runs 0x401 (pk 0x401 0xFF 0 [(1, 84)]) .pdFreeze (onDoms [84] rdy) (fun t => t.allIn [84] .on && !t.freezeHeld 84) begun,
    runs 0x401 (pk 0x401 0xFF 8 [(1, 63)]) .pdFreeze (onDoms [31, 63] { rdy with smap := List.replicate 32 0 })
      (fun t => t.allIn (domPair 63) .on && !t.freezeHeld 63) begun] = true := by decide +kernel

/-- PD_THAW of a domain that is OFF, of one whose thaw is placed at the next tick, and of one in THAWING. -/
theorem test_pdThaw : each [
    runs 0x402 (pk 0x402 0xFF 0 [(1, 84)]) .pdThaw rdy (fun t => t.allIn [84] .off && !t.thawDue 84)
      (fun t => begun t && t.sched.contains (1, .dom 84 .thawing)),
    runs 0x402 (pk 0x402 0xFF 0 [(1, 84)]) .pdThaw { rdy with sched := [(1, .dom 84 .thawing)] } (fun t => t.allIn [84] .off && t.thawDue 84)
      (fun t => begun t && t.sched.length == 1),
    runs 0x402 (pk 0x402 0xFF 0 [(1, 0)]) .pdThaw { rdy with pd := [(0, { Dom.reset with st := .thawing }), (32, { Dom.reset with st := .thawing })] }
      (fun t => t.allIn (domPair 0) .thawing) begun] = true := by decide +kernel

theorem test_pdStatus : each [
    runs 0x403 (pk 0x403 0xFF 0 []) .pdStatus (onDoms [1] rdy) (fun _ => true) (fun t => done t && result t (3 * 4))] = true := by decide +kernel

/-- ENGINE_PARK; ENGINE_UNPARK alone and joining the MC's own. -/
theorem test_park : each [
    runs 0x404 (pk 0x404 0xFF 0 []) .enginePark (onDoms [84] rdy) (fun t => t.mayPark) begun,
    runs 0x405 (pk 0x405 0xFF 0 []) .engineUnpark rdy (fun t => t.mc.seq == none) done,
    runs 0x405 (pk 0x405 0xFF 0 []) .engineUnpark { rdy with mc := { rdy.mc with seq := some { freeze := false, cur := [84], left := [], cmd := none } } }
      (fun t => t.mc.seq.isSome) (fun t => begun t && t.mc.seq.any fun q => q.cmd.isSome)] = true := by decide +kernel

theorem test_pwrCfg_meshCfg : each [
    runs 0x407 (pk 0x407 0xFF 0 [(2, 16), (2, 0), (4, 1250)]) .pwrCfg rdy (fun _ => true) (fun t => t.params.pgTmo == 16 && t.params.frzTmo == 1250),
    runs 0x407 (pk 0x407 0xFF 0 [(2, 65535), (2, 0), (4, 12500000)]) .pwrCfg rdy (fun _ => true) done,
    runs 0x409 (pk 0x409 0xFF 0 [(4, 1250)]) .meshCfg rdy (fun _ => true) (fun t => t.params.rteTmo == 1250),
    runs 0x409 (pk 0x409 0xFF 0 [(4, 1250000)]) .meshCfg rdy (fun _ => true) done] = true := by decide +kernel

def foldW (f : Nat → Nat) : BitVec 512 := pk 0x406 0xFF 0 ((List.range 32).map fun i => (1, f i))

/-- A fold to half of the slices, and an unfold whose slices must thaw first, with a partner of as many slices. -/
theorem test_sliceFold : each [
    runs 0x406 (foldW (· % 16)) (fun w => .sliceFold w 32) (allOn rdy) (fun t => foldShape (t.smap.map fun h => h.toNat) (cSmap (foldW (· % 16))) &&
      t.mapClean (cSmap (foldW (· % 16)))) (fun t => begun t && t.fold.any fun f => f.started),
    runs 0x406 (foldW id) (fun w => .sliceFold w 32) (withI { inst .active with role := .mirror } { rdy with smap := (List.range 32).map fun i => BitVec.ofNat 5 (i % 16) })
      (fun t => foldShape (t.smap.map fun h => h.toNat) (cSmap (foldW id))) (fun t => begun t && t.fold.any fun f => !f.started)] = true := by decide +kernel

/-- MESH_FENCE: taken out and put back (ACT 0 and 1), a router for good (2), a link (3). -/
theorem test_meshFence : each [
    runs 0x408 (pk 0x408 0xFF 0 [(1, 55), (1, 0), (1, 0)]) .meshFence { rdy with smap := List.replicate 32 0 }
      (fun t => t.mesh.swap == none && BitVec.ofNat 6 55 != mcStop) (fun _ => true),
    runs 0x408 (pk 0x408 0xFF 0 [(1, 20), (1, 3), (1, 1)]) .meshFence rdy (fun t => t.mesh.swap == none && (nbr 20 1).isSome)
      (fun _ => true),
    runs 0x408 (pk 0x408 0xFF 0 [(1, 3), (1, 1), (1, 0)]) .meshFence rdy (fun t => t.mesh.swap == none) (fun _ => true)] = true := by
  decide +kernel

theorem test_arbTickets_arbSystkt_arbMode : each [
    runs 0x501 (pk 0x501 0 0 [(2, 65535), (2, 0), (2, 7)]) .arbTickets (withI (inst .idle) rdy) (fun _ => true)
      (fun t => done t && (t.inst 0).tkt0 == 65535 && (t.inst 0).tktB == 7),
    runs 0x502 (pk 0x502 0xFF 0 [(2, 9)]) .arbSystkt rdy (fun _ => true) (fun t => t.params.sysTkt == 9),
    runs 0x504 (pk 0x504 0xFF 0 [(1, 1)]) .arbMode { rdy with arbMode := .test } (fun _ => true) (fun t => t.arbMode == .service),
    runs 0x504 (pk 0x504 0xFF 0 [(1, 3)]) .arbMode rdy (fun _ => true) (fun t => t.arbMode == .recovery)] = true := by decide +kernel

def held (q : Nat) (s : State) : State := { s with arb0 := { s.arb0 with holder := some q } }

theorem test_arbSeed_arbPreempt_arbHoldmax : each [
    runs 0x503 (pk 0x503 0xFF 0 [(1, 0), (3, 0), (4, 1)]) .arbSeed rdy (fun _ => engOf 0 == some .te0) (fun t => t.arb0.seed == some 1),
    runs 0x505 (pk 0x505 0xFF 0 [(1, 0)]) .arbPreempt (held 7 rdy) (fun t => (t.arb .te0).holder == some 7) done,
    runs 0x505 (pk 0x505 0xFF 0 [(1, 2)]) .arbPreempt rdy (fun t => (t.arb .be).holder == none && engOf 2 == some .be) done,
    runs 0x506 (pk 0x506 0xFF 0 [(1, 2), (1, 0), (2, 65535)]) .arbHoldmax rdy (fun _ => true) (fun t => done t && t.params.hmB == 65535)] = true := by
  decide +kernel

theorem test_engDisable_engEnable_arbStatus : each [
    runs 0x507 (pk 0x507 0xFF 0 [(1, 2)]) .engDisable rdy (fun t => t.be.sweeps == [] && t.arbB.holder != some 65) (fun t => done t && !t.arbB.en),
    runs 0x507 (pk 0x507 0xFF 0 [(1, 0)]) .engDisable (held 7 rdy) (fun _ => true) (fun t => !t.arb0.en),
    runs 0x508 (pk 0x508 0xFF 0 [(1, 1)]) .engEnable { rdy with arb1 := { rdy.arb1 with en := false } } (fun _ => engOf 1 == some .te1)
      (fun t => done t && t.arb1.en),
    runs 0x509 (pk 0x509 0xFF 0 [(1, 0)]) .arbStatus rdy (fun _ => true) (fun t => result t (1 + 0xFF * 2 ^ 8 + 0x5EED0001 * 2 ^ 32 + 2 ^ 64))] = true := by
  decide +kernel

/-- FIRN_ROTATE without a firn and with one; CHURN_CFG at both ends of its ranges. -/
theorem test_churn : each [
    runs 0x50A (pk 0x50A 0 0 [(4, 9)]) .firnRotate (withI (inst .idle) rdy) (fun t => (t.inst 0).role != .mirror)
      (fun t => begun t && (t.be.ops.map fun o => o.total) == [0]),
    runs 0x50A (pk 0x50A 0 0 [(4, 9)]) .firnRotate (withI { inst .active with firnLog2 := 12 } rdy) (fun _ => true) (fun t => (t.be.ops.map fun o => o.total) == [9]),
    runs 0x50B (pk 0x50B 0 0 []) .firnRebuild (withI (inst .active) rdy) (fun _ => true) (fun t => begun t && t.be.ops.length == 1),
    runs 0x50C (pk 0x50C 0xFF 0 [(1, 1), (1, 8), (2, 1)]) .churnCfg rdy (fun _ => true) (fun t => done t && t.sched == [(1, .churn 1 8 1)]),
    runs 0x50C (pk 0x50C 0xFF 0 [(1, 64), (1, 16), (2, 65535)]) .churnCfg rdy (fun _ => true) done,
    runs 0x50D (pk 0x50D 0xFF 0 []) .sfRebuild rdy (fun _ => true) (fun t => begun t && (t.be.ops.map fun o => o.kind) == [.sfRebuild 0])] = true := by
  decide +kernel

/-! ### Twin commands (R387 to R412) -/


/-- TWIN_ROLE's digest is free (log entry 10): the row's premise `x.digest = dig` is met by the digest itself. -/
theorem test_twinRole : servedB 0x601 (pk 0x601 0 0 [(1, 1)]) (role .none .idle) = true ∧ (after (role .none .idle) (pk 0x601 0 0 [(1, 1)])).twinSfq 0 + 1 ≤ 16 := by
  decide +kernel

theorem test_twinRelease_twinHandover : each [
    runs 0x602 (pk 0x602 0 0 []) (fun w => .twinRelease w true) (role .primary .idle) (fun t => t.tw.linkUp) (fun t => done t && (t.inst 0).role == .none),
    runs 0x602 (pk 0x602 0 0 []) (fun w => .twinRelease w true) (withI (inst .idle) { tw rdy with tw := Tw.reset }) (fun t => (t.inst 0).role == .none) done,
    runs 0x603 (pk 0x603 0 0 []) .twinHandover (role .primary .active) (fun t => (t.inst 0).twin) (fun t => begun t && t.sched == [(1, .inst 0 .draining)])] = true := by
  decide +kernel

/-- TWIN_TAKEOVER after silence, strict and exact; with FORCE, not exact. -/
theorem test_twinTakeover : each [
    runs 0x604 (pk 0x604 0 0 []) .twinTakeover (withI { inst .idle with role := .mirror, pep := 1, strict := true, exact := true } { tw rdy with clk := { tick := 25000, phase := 0 }, tw := { (tw rdy).tw with lastPkt := some 0 } })
      (fun t => t.silent) (fun t => done t && (t.inst 0).role == .primary && (t.inst 0).pep == 2),
    runs 0x604 (pk 0x604 0 8 []) .twinTakeover (withI { inst .idle with role := .mirror, pep := 1, exact := false } { tw rdy with tw := { (tw rdy).tw with lastPkt := some 0 } })
      (fun t => !t.silent) (fun t => begun t && (t.inst 0).twr && t.be.ops.length == 1)] = true := by decide +kernel

theorem test_twinResync_twinLevelRaise : each [
    runs 0x605 (pk 0x605 0 0 []) .twinResync (role .primary .active) (fun t => (t.inst 0).twin && t.tw.linkUp) (fun t => begun t && t.be.ops.length == 1),
    runs 0x606 (pk 0x606 0xFF 0 []) .twinLevelRaise (tw rdy) (fun t => decide (t.tw.plev.toNat < t.mc.clevMax.toNat) && decide (t.tw.plev.toNat < t.tw.pMax.toNat))
      (fun t => done t && result t 2 && t.tw.plev == 2)] = true := by decide +kernel

/-- TWIN_CFG at both ends; TWIN_STATUS of an instance and, with CI 0xFF, of the pair. -/
theorem test_twinCfg_twinStatus : each [
    runs 0x607 (pk 0x607 0xFF 0 [(2, 16), (2, 0), (4, 1250)]) .twinCfg (tw rdy) (fun _ => true) (fun t => done t && t.params.twHb == 16),
    runs 0x607 (pk 0x607 0xFF 0 [(2, 65535), (2, 0), (4, 1250000)]) .twinCfg (tw rdy) (fun _ => true) done,
    runs 0x608 (pk 0x608 0 0 []) .twinStatus (role .primary .idle) (fun _ => true) (fun t => done t && result t (pack [(1, 1), (1, 1), (1, 1), (1, 0), (2, 1), (1, 0), (1, 0), (2, 0)])),
    runs 0x608 (pk 0x608 0xFF 0 []) .twinStatus (role .primary .idle) (fun t => decide (64 ≤ (cCi8 (pk 0x608 0xFF 0 [])).toNat) && t.tw.linkUp) (fun t => result t (pack [(1, 1), (1, 1)]))] = true := by
  decide +kernel
/-! ### Profiles (R470 to R476) -/

/-- The header and the parameters of a profile that selects the defaults, with the Slice Map of R472 and no port. -/
def prof0 : List Host.Cell :=
  memSetN (memSetN (memSetN (memSetN (memSetN (memSetN (memSetN (memSetN [] 0 4 0x464F5250) 4 2 1) 0x40 4 (4 + 12 * 2 ^ 8 + 1024 * 2 ^ 16))
    0x44 8 (1250 + 64 * 2 ^ 16 + 500000 * 2 ^ 32)) 0x4C 12 (12500 + 12500000 * 2 ^ 32 + 125000 * 2 ^ 64)) 0x58 16
    (2 + 4096 * 2 ^ 16 + 125 * 2 ^ 80 + 12500 * 2 ^ 96)) 0x68 8 (16 + 125000000 * 2 ^ 32)) 0xC0 32 (pack ((List.range 32).map fun i => (1, i)))

theorem memGetN_above (m : List Host.Cell) (n : Nat) : ∀ a, (∀ c ∈ m, c.1 < a) → memGetN m a n = 0 := by
  have g : ∀ (l : List Host.Cell) (a : Nat), (∀ c ∈ l, c.1 < a) → tGet l a = none := by
    intro l a h
    induction l with
    | nil => rfl
    | cons c l ih =>
      have h1 := h c (by simp)
      simp only [tGet]
      rw [if_neg (by omega)]
      exact ih fun x hx => h x (by simp [hx])
  induction n with
  | zero => intro a _; rfl
  | succ n ih =>
    intro a h
    have hz : memGet m a = 0 := by unfold memGet; rw [g m a h]; rfl
    rw [memGetN, hz, ih (a + 1) fun c hc => Nat.lt_succ_of_lt (h c hc)]
    rfl

/-- A byte memory as a profile. -/
def asProf (m : List Host.Cell) : Prof := { mem := m, base := 0 }

theorem no_port : (PortDesc.decode (BitVec.ofNat 128 0)).pv = false := by decide +kernel

theorem get_above (m : List Host.Cell) (k : Nat) (h : ∀ c ∈ m, c.1 < 0x200) : (asProf m).get (0x200 + 16 * k) 16 = 0 :=
  memGetN_above m 16 (0 + (0x200 + 16 * k)) fun c hc => Nat.lt_of_lt_of_le (h c hc) (by omega)

theorem ports_above (m : List Host.Cell) (h : ∀ c ∈ m, c.1 < 0x200) : (asProf m).ports = [] := by
  unfold Prof.ports
  rw [List.filterMap_eq_nil_iff]
  intro k _
  simp only [get_above m k h, no_port, Bool.false_eq_true, if_false]

/-- A profile once its PCRC is set. -/
def sealed (m : List Host.Cell) : Prof := asProf (memSetN m 8 4 (asProf m).crc)

theorem get_set (m : List Host.Cell) (v off n : Nat) (h : 12 ≤ off ∨ off + n ≤ 8) : (asProf (memSetN m 8 4 v)).get off n = (asProf m).get off n := by
  show memGetN (memSetN m 8 4 v) (0 + off) n = memGetN m (0 + off) n
  rw [Nat.zero_add]
  induction n generalizing off with
  | zero => rfl
  | succ n ih =>
    rw [memGetN, memGetN, memGet_memSetN_other _ _ _ _ _ (by omega)]
    cases n with
    | zero => rfl
    | succ n => rw [ih (off + 1) (by omega)]

theorem sealed_get (m : List Host.Cell) (off n : Nat) (h : 12 ≤ off ∨ off + n ≤ 8) : (sealed m).get off n = (asProf m).get off n := get_set m _ off n h

theorem sealed_ports (m : List Host.Cell) : (sealed m).ports = (asProf m).ports := by
  have e : ∀ k, (sealed m).get (0x200 + 16 * k) 16 = (asProf m).get (0x200 + 16 * k) 16 := fun k => sealed_get m _ _ (by omega)
  unfold Prof.ports
  simp only [e]

theorem sealed_sound (m : List Host.Cell) : (sealed m).sound = (asProf m).sound := by
  have hm : (sealed m).smap = (asProf m).smap := by
    have e : ∀ i, (sealed m).get (0xC0 + i) 1 = (asProf m).get (0xC0 + i) 1 := fun i => sealed_get m _ _ (by omega)
    unfold Prof.smap
    simp only [e]
  unfold Prof.sound
  rw [sealed_ports, hm]
  unfold Prof.params
  simp (disch := omega) only [sealed_get]

theorem sealed_crc (m : List Host.Cell) : (sealed m).crc = (asProf m).crc := by
  unfold Prof.crc
  congr 2
  funext i
  unfold sealed
  simp only [asProf]
  exact memGet_memSetN_other _ _ _ _ _ (by omega)

theorem sealed_valid (m : List Host.Cell) (h : (asProf m).sound = true) : (sealed m).valid = true := by
  unfold Prof.valid
  rw [sealed_sound, h, sealed_crc]
  have hb : (asProf m).crc < 2 ^ 32 := by unfold Prof.crc; exact BitVec.isLt _
  have g : ∀ i, i < 4 → memGet (sealed m).mem (8 + i) = BitVec.ofNat 8 ((asProf m).crc / 256 ^ i) := fun i hi => memGet_memSetN_same _ _ _ _ _ hi
  have g0 := g 0 (by omega)
  have g1 := g 1 (by omega)
  have g2 := g 2 (by omega)
  have g3 := g 3 (by omega)
  have hz : (sealed m).base = 0 := rfl
  revert hb g0 g1 g2 g3
  generalize (asProf m).crc = c
  intro hb g0 g1 g2 g3
  simp only [Nat.add_zero, Nat.reduceAdd] at g0 g1 g2 g3
  simp only [Prof.get, hz, memGetN, Nat.zero_add, Nat.reduceAdd, g0, g1, g2, g3, BitVec.toNat_ofNat, Bool.true_and, beq_iff_eq]
  omega

theorem prof0_ports : (asProf prof0).ports = [] := ports_above prof0 (by
  have : (prof0.all fun c => decide (c.1 < 0x200)) = true := by decide +kernel
  simpa only [List.all_eq_true, decide_eq_true_eq] using this)

/-- A buffer that PROFILE_COMMIT takes. -/
theorem test_profileSound : (asProf prof0).sound = true := by
  unfold Prof.sound; rw [prof0_ports]; decide +kernel

theorem test_profileCommit : (servedB 0x704 (pk 0x704 0xFF 0 [(1, 3)]) rdy && decide (cPar (pk 0x704 0xFF 0 [(1, 3)]) 0 1 ≤ 3)) = true ∧
    ({ rdy with mc := { rdy.mc with staging := prof0 } } : State).staged.sound = true :=
  ⟨by decide +kernel, test_profileSound⟩

theorem prof_sealed {s : State} {m : List Host.Cell} (h : s.mc.store = (sealed m).mem) : s.prof 0 = sealed m := by
  unfold State.prof; rw [h]; rfl

/-- A profile that PROFILE_APPLY takes; it has no port, so that none breaks a rule. -/
theorem test_profileApply : servedB 0x701 (pk 0x701 0xFF 0 [(1, 0)]) rdy = true ∧
    ∀ s : State, s.mc.store = (sealed prof0).mem → (s.prof 0).valid = true ∧ (s.prof 0).ports = [] := by
  refine ⟨by decide +kernel, fun s h => ?_⟩
  rw [prof_sealed h]
  exact ⟨sealed_valid prof0 test_profileSound, (sealed_ports prof0).trans prof0_ports⟩

/-- The highest offsets of the buffer and of a profile; the end of a commit's write. -/
theorem test_profiles : each [
    runs 0x702 (pk 0x702 0xFF 0 [(2, 0x7FE0), (14, 0), (32, 5)]) .profileStage rdy (fun _ => true)
      (fun t => done t && t.mc.staging == [(0x7FE0, 5)]),
    runs 0x703 (pk 0x703 0xFF 0 []) .profileCapture rdy (fun _ => true) done,
    runs 0x705 (pk 0x705 0xFF 0 [(1, 3), (1, 0), (2, 0x7FE0)]) .profileRead { rdy with mc := { rdy.mc with store := [(0x1FFE0, 9)] } }
      (fun _ => true) (fun t => done t && result t 9),
    (withL (aLong 0x704 (.commit 3)) rdy).mcUp && (withL (aLong 0x704 (.commit 3)) rdy).mc.longs.findSome? LongCmd.commitOf == some (pk 0x704 0xFF 0 [], 3) &&
      goes (exec .profileMramWriteEnd (withL (aLong 0x704 (.commit 3)) rdy)) done] = true := by decide +kernel

/-! ### Observation and logs -/


/-- OBS_TRACE_CFG at the ends of its ranges; OBS_CNT_CLEAR to the last counter. -/
theorem test_obs : each [
    runs 0x801 (pk 0x801 0xFF 0 [(1, 255), (1, 31), (1, 1), (1, 1), (1, 5), (1, 0), (1, 63), (1, 0), (8, 2 ^ 56 - 1), (8, 1), (8, 2), (4, 131071), (8, 3)]) .obsTraceCfg
      { rdy with obs := { Obs.reset with stopped := true, stopIn := some 3 } } (fun _ => true)
      (fun t => done t && t.obs.ring && t.obs.fci == 63 && t.obs.trPost == 131071 && t.obs.stopIn == none && !t.obs.stopped),
    runs 0x802 (pk 0x802 0xFF 0 []) .obsTraceDump rdy (fun _ => true) (fun t => begun t && t.obs.dumping),
    runs 0x803 (pk 0x803 0xFF 0 [(2, 4094), (2, 2)]) .obsCntClear { rdy with obs := { Obs.reset with cnt := [(4093, 1), (4094, 2), (4095, 3)] } } (fun _ => true)
      (fun t => done t && t.obs.cnt == [(4093, 1)]),
    runs 0x804 (pk 0x804 0 0 ((1, 3) :: (1, 0) :: (1, 0x11) :: List.replicate 31 (1, 0))) .obsSetEvents (withI (inst .idle) rdy) (fun _ => true)
      (fun t => done t && (t.inst 0).evts == [(96, 0x11)])] = true := by decide +kernel

theorem test_logs : each [
    runs 0x901 (pk 0x901 0xFF 0 []) .errRead { rdy with errLog := [err 1, err 2] } (fun _ => true) (fun t => done t && t.errLog == [err 2]),
    runs 0x902 (pk 0x902 0xFF 0 []) .vlogRead { rdy with vlog := [vio] } (fun _ => true) (fun t => done t && t.vlog == []),
    runs 0x903 (pk 0x903 0xFF 0 [(2, 1), (2, 0), (4, 1250)]) .errCfg rdy (fun _ => true) (fun t => done t && t.params.lbThr == 1),
    runs 0x903 (pk 0x903 0xFF 0 [(2, 255), (2, 0), (4, 1250000000)]) .errCfg rdy (fun _ => true) done] = true := by decide +kernel
/-! ### Resets, boot, halt, rings (R442 to R457, R492 to R495, R516, R517) -/

def draining (w : Bool) (s : State) : State := { s with halt := .draining 0 w false false }

theorem test_pins : each [
    goes (exec .coldRstAssert { rdy with mc := { rdy.mc with store := [(1, 2)] } }) fun t => t.coldLow && t.mc.store == [(1, 2)] && t.mc.bstate == .cold,
    goes (exec (.coldRstRelease 2 true) { rdy with coldLow := true }) fun t => !t.coldLow && t.strapProf == 2 && t.strapTwin,
    goes (exec .warmRstLow { draining true rdy with warmLow := true, warmRel := some (1, true) }) fun t => t.warmRel == none,
    goes (exec .warmRstLow rdy) fun t => t.warmLow && t.halt == .draining 0 true false false && t.sched == [(1, .readyLow)],
    goes (exec .warmRstLow (draining false rdy)) fun t => t.warmLow && t.halt == .draining 0 true false false,
    goes (exec .warmRstLow { rdy with halt := .halted false, errLog := [err 1] }) fun t => t.warmLow && t.halt == .running && t.mc.bstate == .cold && t.errLog == [err 1],
    goes (exec .warmResetEffect (draining true rdy)) fun t => t.halt == .running,
    goes (exec (.warmRstRelease 1 true) { rdy with warmLow := true }) fun t => !t.warmLow && t.strapProf == 1,
    goes (exec (.warmRstRelease 1 true) { draining true rdy with warmLow := true }) fun t => t.warmLow && t.warmRel == some (1, true)] = true := by decide +kernel

/-- IMG_VERIFY_END needs a verification that runs; whether the image is authentic is free (log entry 9). -/
theorem test_boot_events : each [
    goes (exec .romWaitEntry (boot .cold)) fun t => t.mc.bstate == .romWait,
    (withL (aLong 4 .imgEnd) (boot .verify)).mc.longs.any fun l => l.job == .imgEnd,
    goes (exec .autordyEntry (allOn { boot .starting with mc := { (boot .starting).mc with autordy := true } })) fun t => t.mc.bstate == .ready,
    goes (exec .readyAssert { rdy with sched := [(1, .readyHigh)] }) fun t => t.ready && t.clk.tick == 1,
    goes (exec .mcWatchdogExpiry { rdy with mc := { rdy.mc with wdog := some 9 } }) fun t => t.mc.wdog == none && t.halt == .draining 9 false true false] = true := by
  decide +kernel

def posted (s : State) : State :=
  { s with slices := [(0, { Slice.reset with plb := [{ lix := 5, ci := 0, mpid := 0, posted := true, resv := [], data := 0, psn := false, seq := 0, gpf := [], byGrel := false }] })] }

theorem test_halt_events : each [
    goes (exec .haltPostedLinePoison (posted (draining false rdy))) fun t => t.clk.tick == 501 && t.errLog.length == 1 && t.halt == .draining 0 false false true,
    goes (exec .blockHalt (posted (draining false rdy))) fun t => t.clk.tick == 1001 && t.halt == .halted false && t.errLog.length == 2] = true := by decide +kernel

def slots (n : Nat) (s : State) : State := { s with mc := { s.mc with crProd := BitVec.ofNat 9 n } }
def deferred (w : BitVec 512) (s : State) : State := { s with mc := { s.mc with crSlots := [(0, w)], crProd := 1, crRd := 1, crDefer := [0] } }

/-- The 256th slot, a deferred command whose subject is free, and packets that no row serves. -/
theorem test_ring : each [
    goes (exec (.commandSlotWrite 7 1) (slots 255 rdy)) fun t => t.mc.crProd == 256 && t.mc.crSlots == [(255, 7)] && t.regs.qce == [(0, 1)],
    (deferred (pk 0x104 0 0 []) (withI (inst .quiesced) rdy)).dueDeferred == some (0, pk 0x104 0 0 []),
    goes (exec (.deferredCommandReread true 0 32) (deferred (pk 0x104 0 0 []) (withI (inst .quiesced) rdy))) fun t => begun t && t.mc.crDefer == [] && t.mc.crMark == 1,
    goes (exec (.replyRingRoom 1 0 true) { rdy with mc := { rdy.mc with replies := [{ cmd := 0, status := .done, rlen := 0, steps := 0, result := 0 }] } })
      fun t => t.mc.replies == [] && t.mc.rrRp == 8,
    goes (exec (.unknownOpCommand 0 true) rdy) fun t => said t .crcErr && t.regs.ringErr == 4,
    goes (exec (.unknownOpCommand 3 false) rdy) fun t => said t .badFormat,
    goes (exec (.unknownOpCommand (pk 0x001 0xFF 0 [] + 1) false) rdy) fun t => said t .crcErr,
    goes (exec (.unknownOpCommand (pk 0xFFF 0xFF 0 []) false) rdy) fun t => said t .unknownOp] = true := by decide +kernel

def ruled (op : RuleOp) (sw : Bool) (i : Inst) : State :=
  withI { i with rule := some { op := op, switched := sw, gen := 0, rcl := .nothing, running := false, cmd := 9, long := false, mrule := none } } rdy

/-- A rule change of an IDLE instance and of a Primary; its drain; the end of a quiesce. -/
theorem test_rules : each [
    goes (exec (.ruleGenerationSwitch 0) (ruled (.iwMask 3) false (inst .idle))) fun t => (t.inst 0).iwAmask == 3 && (t.inst 0).ruleg == 1 && t.clk.tick == 1,
    goes (exec (.ruleGenerationSwitch 0) { ruled (.iwMask 3) false { inst .active with role := .primary, pep := 1 } with strapTwin := true, tw := (tw rdy).tw })
      fun t => (t.inst 0).iwAmask == 3 && ((t.inst 0).rule.any fun r => r.switched && r.mrule.isSome),
    goes (exec (.ruleChangeDrain 0) (ruled (.iwMask 3) true (inst .idle))) fun t => (t.inst 0).rule == none && done t,
    goes (exec (.quiesceIdle 0) (withI (inst .draining) rdy)) fun t => (t.inst 0).st == .quiesced,
    (withI (inst .aborting) rdy).instIdle 0] = true := by decide +kernel
/-! ### Registers (R187 to R190, R240, R452, R533 to R549) -/

def acc (win : BitVec 7) (off : BitVec 20) (data : BitVec 64) : RegAcc :=
  { mc := true, ps := 0, rqid := 1, win := win, off := off, eight := true, data := data }
def withQ (g : GQueue) (st : ISt) : State := withI { inst st with q0 := g, regions := [(0, { rg .unc with base := 0, limit := 1000 })] } rdy
def gq : GQueue := { GQueue.reset with dqSize := 6, sqSize := 4, sqBase := 1 }

/-- The access is taken, and the row's write meets a condition. -/
def wrote (a : RegAcc) (c : RegAcc → Instr) (s : State) (f : GQueue → Bool) : Bool :=
  s.regUp a && s.refuseReg a == none && goes (exec (c a) s) fun t => f (t.inst 0).q0 && t.out == [.regAck a]

/-- A doorbell one whole ring ahead, one too far, and one of a queue that is off; its test at phase 0. -/
theorem test_doorbell : each [
    wrote (acc 0 0x120 64) .doorbell (withQ { gq with en := true } .active) fun g => g.pacc == 64 && !g.dbOvr,
    wrote (acc 0 0x120 65) .doorbell (withQ { gq with en := true } .active) fun g => g.pacc == 0 && g.dbOvr,
    wrote (acc 0 0x120 3) .doorbell (withQ gq .active) fun g => g.db == 3 && g.dbWait == some 1 && g.pacc == 0,
    goes (exec (.deferredDoorbellTest 0 false) (withQ { gq with en := true, db := 3, dbWait := some 1 } .active)) fun t => ((t.inst 0).q0.pacc == 3) && t.clk.phase == 0,
    goes (exec (.deferredDoorbellTest 0 false) (withQ { gq with en := true, db := 65, dbWait := some 1 } .active)) fun t =>
      (t.inst 0).q0.pacc == 0 && (t.inst 0).q0.db == 0 && (t.inst 0).q0.dbOvr,
    wrote (acc 0 0x120 3) .doorbell (withQ { gq with en := true } .idle) fun g => g.db == 3 && g.dbWait == some 1 && g.pacc == 0] = true := by
  decide +kernel

theorem test_queueEnable_queueDisable : each [
    wrote (acc 0 0x118 1) .queueEnable (withQ gq .idle) fun g => g.en && !g.placeErr,
    wrote (acc 0 0x118 1) .queueEnable (withQ { gq with dqSize := 5 } .idle) fun g => !g.en && g.placeErr,
    wrote (acc 0 0x118 0) .queueDisable (withQ { gq with en := true } .idle) fun g => g.en && g.stopping] = true := by decide +kernel

theorem test_placementWrite : each [
    wrote (acc 0 0x100 (2 ^ 40 - 1)) .placementWrite (withQ { gq with pacc := 4 } .idle) fun g => g.dqBase == 2 ^ 40 - 1 && g.pacc == 0,
    wrote (acc 0 0x108 20) .placementWrite (withQ { gq with pacc := 4, db := 4 } .idle) fun g => g.dqSize == 20 && g.pacc == 0 && g.db == 0,
    wrote (acc 0 0x110 63) .placementWrite (withQ { gq with pacc := 4 } .idle) fun g => g.dqMpid == 63 && g.pacc == 4,
    wrote (acc 0 0x130 9) .placementWrite (withQ { gq with prod := 4, sph := false } .idle) fun g => g.sqBase == 9 && g.prod == 0 && g.sph,
    wrote (acc 0 0x138 15) .placementWrite (withQ { gq with scons := 4 } .idle) fun g => g.sqSize == 15 && g.scons == 0,
    wrote (acc 0 0x140 1) .placementWrite (withQ { gq with prod := 4 } .idle) fun g => g.sqMpid == 1 && g.prod == 4,
    wrote (acc 0 0x100 7) .placementWrite (withQ { gq with en := true } .idle) fun g => g.dqBase == 0 && g.wign] = true := by decide +kernel

/-- Up to SQn_PROD, one beyond, a whole full ring over the wrap; the upper half. -/
theorem test_sqnConsWrite : each [
    wrote (acc 0 0x150 9) .sqnConsWrite (withQ { gq with prod := 9 } .active) fun g => g.scons == 9 && !g.sconsErr,
    wrote (acc 0 0x150 10) .sqnConsWrite (withQ { gq with prod := 9 } .active) fun g => g.scons == 0 && g.sconsErr,
    wrote (acc 0 0x150 8) .sqnConsWrite (withQ { gq with prod := 8, scons := 65528 } .active) fun g => g.scons == 8 && !g.sconsErr,
    wrote { acc 0 0x154 5 with eight := false } .sqnConsWrite (withQ { gq with prod := 9 } .active) fun g => g.scons == 0 && !g.sconsErr] = true := by decide +kernel

def dog (s : State) : State := { s with mc := { s.mc with wdog := some 5 } }

theorem test_wkick : each [
    goes (exec (.wkick (acc 0x40 0x18 0x5A5A)) (dog rdy)) fun t => t.mc.wdog == some 1250000,
    goes (exec (.wkick (acc 0x40 0x18 0x5A5B)) (dog rdy)) fun t => t.mc.wdog == some 5 && t.out.length == 1,
    goes (exec (.wkick { acc 0x40 0x1C 0x5A5A with eight := false }) (dog rdy)) fun t => t.mc.wdog == some 5 && t.out.length == 1,
    goes (exec (.wkick { acc 0x40 0x18 0x5A5A with mc := false }) (dog (onDoms [64] rdy))) fun t => t.mc.wdog == some 5 && t.out.length == 1,
    goes (exec (.refusedRegisterRead (acc 0x40 0x18 0)) (dog rdy)) fun t => t.out == [.regData (acc 0x40 0x18 0) 0]] = true := by decide +kernel

def fm (s : State) : State := { s with regs := { s.regs with fmRq0 := 1, fmV0 := true } }
def other (a : RegAcc) (rq : Rqid) : RegAcc := { a with mc := false, rqid := rq }

/-- A requester that MW_FM lists, with a good and a bad form, one that it does not list, and an empty MW_FM. -/
theorem test_fm : each [
    goes (exec (.refusedRegisterRead (other (acc 0x40 0 0) 1)) (fm (onDoms [64] rdy))) fun t => t.out == [.regData (other (acc 0x40 0 0) 1) (t.regValue (other (acc 0x40 0 0) 1))],
    goes (exec (.refusedRegisterRead (other (acc 0x40 4 0) 1)) (fm (onDoms [64] rdy))) fun t => t.out == [.regUr (other (acc 0x40 4 0) 1)] && t.regs.denyCnt == 0,
    goes (exec (.registerWrite (other (acc 0x40 0x10 0) 2)) (fm (onDoms [64] rdy))) fun t => t.out == [.regUr (other (acc 0x40 0x10 0) 2)] && t.regs.denyCnt == 1 && t.regs.denyRq == 2,
    goes (exec (.registerWrite (other (acc 0x40 0x10 (2 ^ 12 + 9)) 2)) (onDoms [64] (boot .romWait))) fun t => t.regs.fmV0 && t.regs.fmRq0 == 9] = true := by decide +kernel

/-- MW_TICK whole, and its upper half. -/
theorem test_tick : each [
    goes (exec (.refusedRegisterRead (acc 0x40 8 0)) { rdy with clk := { tick := 2 ^ 48 - 1, phase := 15 } }) fun t => t.out == [.regData (acc 0x40 8 0) (2 ^ 52 - 1)],
    goes (exec (.refusedRegisterRead { acc 0x40 12 0 with eight := false }) { rdy with clk := { tick := 2 ^ 47, phase := 1 } })
      fun t => t.out == [.regData { acc 0x40 12 0 with eight := false } 0x18000],
    goes (exec (.registerWrite (acc 0x40 8 7)) { rdy with clk := { tick := 3, phase := 1 } }) fun t => t.clk == { tick := 3, phase := 1 } && t.out.length == 1] = true := by
  decide +kernel
/-! ### Port stations (R99 to R105, R144 to R156, R228, R316 to R329, R498 to R509, R560) -/

/-- A request word: kind, opcode, DST, pieces, place; line 264 of agent 5, a whole line, MetaValue Shared. -/
def wd (kind rop dst pcnt pix : Nat) : BitVec 160 :=
  BitVec.ofNat 160 (kind + 2 * 2 ^ 4 + 5 * 2 ^ 11 + rop * 2 ^ 23 + 7 * 2 ^ 29 + 264 * 2 ^ 32 + 63 * 2 ^ 84 + dst * 2 ^ 91 + pcnt * 2 ^ 115 + pix * 2 ^ 122)

/-- The first of two pieces, the second, an access of one piece that is accepted and one that is refused, and reserved kinds. -/
theorem test_request : each [
    goes (exec (.request 0 (wd 1 1 9 2 0) 0 0 (some 0)) live) fun t => (t.ps 0).pieces == [wd 1 1 9 2 0] && t.out == [],
    goes (exec (.request 0 (wd 1 1 9 2 1) 0 0 (some 0)) (ps0 { PSt.reset with pieces := [wd 1 1 9 2 0] } live)) fun t => (t.ps 0).pieces == [],
    live.psUp 0 && (match live.vet (wd 1 1 9 1 0) with | .inr (.coh, .rdS) => true | _ => false) &&
      goes (exec (.request 0 (wd 1 1 9 1 0) 0 0 (some 0)) live) fun t => (t.ps 0).msgs.length == 1 && t.mesh.pkts.length == 1,
    (match live.vet (wd 1 0x3F 9 1 0) with | .inl d => d.st == .unsupported | _ => false) &&
      goes (exec (.request 0 (wd 1 0x3F 9 1 0) 0 0 (some 0)) live) fun t => t.out.length == 1 && (t.ps 0).msgs == [],
    goes (exec (.request 0 (wd 1 1 9 2 1) 0 0 (some 0)) (withA { agent .bi with lst := .held } live)) fun t => t.out == [.dord 0 9 .dfree false] && (t.ps 0).pieces == [],
    goes (exec (.request 0 (wd 0 1 0 1 0) 0 0 (some 0)) live) fun t => t.out == [] && t.obs.pre == [(psCtr 0 1, 1)],
    goes (exec (.request 0 (wd 6 1 9 1 0) 0 0 (some 2)) live) fun t => t.out.length == 1 && (tGet t.obs.pre (psCtr 0 6)) == some 2,
    goes (exec (.request 0 0 0 0 none) live) fun t => t.errLog.length == 1 && t.agents.any fun a => a.2.lst == .held] = true := by decide +kernel

def ost (st : OSt) (old : Bool) : Outst := { req := rq0 .rdS, st := st, dest := 0, old := old, cred := true, first := 0 }

theorem test_requestReinject_retry : each [
    goes (exec (.requestReinject 0 0) (ps0 { PSt.reset with msgs := [ost (.reinject 4) false] } live)) fun t => t.clk.tick == 4 && t.mesh.pkts.length == 1,
    goes (exec (.retry 0) (put (pkt 0 (.retry (rq0 .rdS))) (ps0 { PSt.reset with msgs := [ost .injected false] } live)))
      fun t => ((t.ps 0).msgs.map fun m => m.st) == [.reinject 1],
    goes (exec (.retry 0) (put (pkt 0 (.retry (rq0 .rdS))) (ps0 { PSt.reset with msgs := [ost .injected true] } live))) fun t => (t.ps 0).msgs == [],
    goes (exec (.retry 0) (put (pkt 0 (.retry { rq0 .mw with fwd := true })) (ps0 { PSt.reset with msgs := [{ ost .injected false with req := rq0 .mw }], cred := [(1, (true, false))] } live)))
      fun t => ((t.ps 0).msgs.map fun m => m.st) == [.reinject 1] && tGet (t.ps 0).cred 1 == some (true, false)] = true := by
  decide +kernel

theorem test_wbcr_wradm_rspack : each [
    goes (exec (.wbcr 0) (put (pkt 0 (.wbcr 0 0 1)) (ps0 { PSt.reset with cred := [(1, (true, false))] } live))) fun t => !(((tGet (t.ps 0).cred 1).getD (false, false)).1),
    goes (exec (.wradm 0) (put (pkt 0 (.wradm 0 0 0)) (ps0 { PSt.reset with msgs := [{ ost .injected false with req := { rq0 .wr with rwr := true } }] } live)))
      fun t => ((t.ps 0).msgs.map fun m => m.req.rwr) == [false],
    goes (exec (.rspack 0) (put (pkt 0 (.rspack 0 0 1)) (ps0 { PSt.reset with cred := [(1, (false, true))] } live))) fun t => tGet (t.ps 0).cred 1 == some (false, false)] = true := by
  decide +kernel

def cpl0 (dst : Option Dst) (ord : DOrd) : Cpl :=
  { ps := 0, lp := 2, rqid := 5, sess := 0, mid := 0, lix := 264, dst := dst, ord := ord, rgen := false, psn := false, grant := .s, status := .done, data := 7,
    wbc := none, bicAck := false, hs := none }

theorem test_completionDelivery : each [
    goes (exec (.completionDelivery 0) (put (pkt 0 (.cpl (cpl0 (some 9) .dpush))) (ps0 { PSt.reset with msgs := [ost .injected false] } live)))
      fun t => (t.ps 0).msgs == [] && t.out == [.cpl (cpl0 (some 9) .dpush)],
    goes (exec (.completionDelivery 0) (put (pkt 0 (.cpl (cpl0 (some 9) .dpush))) (ps0 { PSt.reset with msgs := [ost .injected true] } live)))
      fun t => (t.ps 0).msgs == [] && t.out == [.dord 0 9 .dfree false]] = true := by decide +kernel

def snp0 : Snp := { hs := 0, t := 0, att := 0, cax := 3, ci := 0, form := .snpInv, lix := 264 }
def snq0 (given : Option (BitVec 12)) (block : Nat) : SnQ := { sn := snp0, lp := 2, rqid := 5, sess := 0, nsmp := false, given := given, block := block }

/-- The 32nd snoop that waits for its port, and the 33rd. -/
theorem test_snoopDelivery : each [
    goes (exec (.snoopDelivery 0) (put (pkt 0 (.snp snp0)) (ps0 { PSt.reset with snq := List.replicate 31 (snq0 none 0) } { live with lports := [] })))
      fun t => (t.ps 0).snq.length == 32,
    goes (exec (.snoopDelivery 0) (put (pkt 0 (.snp snp0)) live)) fun t => t.out == [.snp 0 2 0 5 .snpInv 264 1],
    goes (exec (.snoopDelivery 0) (put (pkt 0 (.snp snp0)) (ps0 { PSt.reset with snq := List.replicate 32 (snq0 none 0) } { live with lports := [] })))
      fun t => (t.ps 0).snq.length == 32 && (t.mesh.pkts.map fun p => p.msg) == [.snpBusy snp0]] = true := by decide +kernel

def rsp (rop tag : Nat) : BitVec 160 := BitVec.ofNat 160 (2 + 2 * 2 ^ 4 + 5 * 2 ^ 11 + rop * 2 ^ 23 + tag * 2 ^ 29)

/-- An answer, a block answer for two lines, and one that answers nothing. -/
theorem test_snoopResponse : each [
    wRsp (rsp 8 4) == some (.rspI, false) &&
      goes (exec (.snoopResponse 0 (rsp 8 4)) (ps0 { PSt.reset with snq := [snq0 (some 4) 0] } live)) fun t => (t.ps 0).snq == [] && t.mesh.pkts.length == 1,
    wRsp (rsp 0xC 4) == some (.rspI, true) &&
      goes (exec (.snoopResponse 0 (rsp 0xC 4)) (ps0 { PSt.reset with snq := [snq0 (some 4) 2, { snq0 (some 4) 2 with sn := { snp0 with lix := 265 } }] } live))
        fun t => (t.ps 0).snq == [] && t.mesh.pkts.length == 2,
    goes (exec (.snoopResponse 0 (rsp 8 5)) (ps0 { PSt.reset with snq := [snq0 (some 4) 0] } live)) fun t => (t.ps 0).snq.length == 1 && t.mesh.pkts == [],
    (live.hsUp 0) && goes (exec (.snpbusy 0) (put (pkt 8 (.snpBusy snp0)) live)) fun t => t.mesh.pkts == [],
    live.works (psDom 0) && goes (exec (.gpfReq 0) live) fun t => (t.ps 0).gpf == [0] && t.sched == [(1, .gpfFlag 0)]] = true := by decide +kernel

def ag (f : Agent → Agent) (s : State) : State := { s with agents := s.agents.map fun p => (p.1, f p.2) }
def sweep : BulkOp := { id := 0, q := 4096 + 5, kind := .agentLoss 3 5 [], ci := 0, cmd := 0, pos := 8192, total := 8192, done := 8192, outst := [], again := [], stopped := false, ended := none }

theorem test_port_events : each [
    goes (exec (.pevDown 0 2) live) fun t => (t.agent 5).any fun a => a.lst == .down && a.grace.isSome,
    goes (exec (.pevUp 0 2 true) (ag (fun a => { a with lst := .down }) live)) fun t => (t.agent 5).any fun a => a.lst == .up,
    goes (exec (.pevReset 0 2) live) fun t => (t.agent 5).any fun a => a.sess == 1,
    goes (exec (.pevGone 0 2) live) fun t => (t.agent 5).any fun a => a.sess == 1,
    goes (exec (.pevDown 0 2) (onDoms [] { live with arbMode := .test })) fun t => t.latched == [.pevDown 0 2] && t.agents == live.agents,
    goes (exec (.pevUp 0 2 false) (onDoms [] { live with arbMode := .test })) fun t => t.latched == [.pevUp 0 2 false],
    goes (exec (.pevReset 0 2) (onDoms [] { live with arbMode := .test })) fun t => t.latched == [.pevReset 0 2],
    goes (exec (.pevGone 0 2) (onDoms [] { live with arbMode := .test })) fun t => t.latched == [.pevGone 0 2]] = true := by decide +kernel

theorem test_sessions : each [
    goes (exec (.graceTimerExpiry 5) (ag (fun a => { a with lst := .down, grace := some 8 }) live)) fun t => t.clk.tick == 8 && (t.agent 5).any fun a => a.sess == 1,
    goes (exec (.sessionDrain 5) (ag (fun a => { a with swp := true, lst := .held }) live)) fun t => t.be.sweeps.length == 1,
    goes (exec (.sessionDrain 5) (withA { agent .io with swp := true, lst := .held } live)) fun t => (t.agent 5).any fun a => !a.swp,
    ({ live with be := { live.be with sweeps := [sweep] } } : State).opDone sweep &&
      goes (exec (.agentSweepEnd 5) (ag (fun a => { a with swp := true, lst := .held }) { live with be := { live.be with sweeps := [sweep] } })) fun t => t.be.sweeps == [],
    goes (exec (.agentDisableDrain 5) (ag (fun a => { a with en := false, enPs := false }) (withL (aLong 0x305 (.agentDisable 5 [] false)) live)))
      fun t => t.be.ops.length == 1] = true := by decide +kernel
/-! ### Home slices (R59, R60, R78, R102 to R107, R117 to R134, R155, R169 to R181, R233, R379, R380) -/

def entOf (d : Dir) : SfEnt := SfEnt.fresh 264 0 d false
def hs1 (f : Slice → Slice) (s : State) : State := hs0 (f Slice.reset) s
def trk1 (r : Req) (f : Trk → Trk) (s : State) : State := hs1 (fun x => { x with trk := [f (Trk.new 0 .general true r 0)], seq := 1 }) s

/-- A fold of slice 0 onto slice 1 that has handed over the sets given; step `i` of it is outstanding. -/
def folding (moved : List (BitVec 14)) (i : Option Nat) (s : State) : State :=
  let o : BulkOp := { sweep with q := 64, kind := .fold, outst := (i.map fun k => [{ pos := k, todo := [], busy := false, awaited := 1, more := false, cut := false }]).getD [] }
  hs1 (fun x => { x with moved := moved })
    { s with fold := some { oldMap := (List.range 32).map (BitVec.ofNat 5), newMap := List.replicate 32 1, mp := 1, started := true, flipped := false, cmd := none }
             be := { s.be with ops := [o] } }

def toHs (m : Msg) (s : State) : State := put (pkt 8 m) s
def fwdPkt : Pkt := pkt 9 (.fwd 0 1 { rq0 .rdS with fwd := true } false)
def manyFwd (n : Nat) (s : State) : State := { s with mesh := { s.mesh with pkts := s.mesh.pkts ++ List.replicate n fwdPkt } }
def noRoom (s : State) : State := withI { inst .active with regions := [(1, rg .coh)], trkMax := 0 } s

def owned (s : State) : State := hs1 (fun x => { x with sf := [(4224, entOf (Dir.exo 3))] }) s

theorem test_requestAdmission : each [
    live.foldAct 0 264 == .own && live.generalEntry 0 0 0 == some .general &&
      goes (exec (.requestAdmission ⟨0, []⟩) (toHs (.req (rq0 .rdS)) live)) fun t => ((t.slice 0).trk.map fun x => x.req.lix) == [264],
    goes (exec (.requestAdmission ⟨0, [(0, .uncorrectable)]⟩) (toHs (.req (rq0 .rdS)) (owned live))) fun t =>
      (t.slice 0).sf == [] && ((t.slice 0).susp.map fun p => p.1) == [264] && (t.slice 0).trk.length == 1,
    goes (exec (.requestAdmission ⟨0, []⟩) (toHs (.req { rq0 .wr with rwr := true }) live)) fun t =>
      t.mesh.pkts.any fun p => match p.msg with | .wradm _ _ _ => true | _ => false,
    (noRoom live).generalEntry 0 0 0 == none &&
      goes (exec (.requestAdmission ⟨0, []⟩) (toHs (.req (rq0 .rdS)) (noRoom live))) fun t => t.mesh.pkts.any fun p => match p.msg with | .retry r => r.tries == 1 | _ => false,
    (folding [] (some 132) live).foldAct 0 264 == .refuse &&
      goes (exec (.requestAdmission ⟨0, []⟩) (toHs (.req (rq0 .rdS)) (folding [] (some 132) live))) fun t =>
        t.mesh.pkts.any fun p => match p.msg with | .retry _ => true | _ => false,
    (folding [264] none live).foldAct 0 264 == .forward 1 &&
      goes (exec (.requestAdmission ⟨0, []⟩) (manyFwd 31 (toHs (.req (rq0 .rdS)) (folding [264] none live)))) fun t => t.fwdOut 0 == 32,
    goes (exec (.requestAdmission ⟨0, []⟩) (manyFwd 32 (toHs (.req (rq0 .rdS)) (folding [264] none live)))) fun t =>
      t.fwdOut 0 == 32 && t.mesh.pkts.any fun p => match p.msg with | .retry _ => true | _ => false] = true := by decide +kernel

theorem test_writebacks : each [
    live.wbAct 0 264 == none && goes (exec (.mw 0) (toHs (.wbm { rq0 .mw with mval := .i }) (owned live))) fun t =>
      ((t.slice 0).trk.map fun x => x.req.cls) == [.wb],
    goes (exec (.cln 0) (toHs (.wbm (rq0 .cln)) (owned live))) fun t => (t.slice 0).trk == [] && t.mesh.pkts.any fun p => match p.msg with | .cpl _ => true | _ => false,
    goes (exec (.bic 0) (toHs (.wbm (rq0 .bic)) live)) fun t => t.mesh.pkts.any fun p => match p.msg with | .cpl c => c.bicAck && c.wbc == some 1 | _ => false,
    (folding [264] none live).wbAct 0 264 == some 1 && goes (exec (.mw 0) (toHs (.wbm (rq0 .mw)) (folding [264] none live))) fun t =>
      (t.slice 0).trk.length == 1 && t.mesh.pkts.any fun p => match p.msg with | .fwd 0 1 _ true => true | _ => false,
    goes (exec (.cln 0) (toHs (.wbm (rq0 .cln)) (folding [264] none live))) fun t => (t.slice 0).trk.length == 1,
    goes (exec (.bic 0) (toHs (.wbm (rq0 .bic)) (folding [264] none live))) fun t => (t.slice 0).trk.length == 1] = true := by decide +kernel

def so (f : SnpOut → SnpOut) : SnpOut := f { cax := 3, form := .snpInv, att := 0, sent := true, inj := { live.clk with tick := 0 }, deadline := 9, parked := none, wb := none }
def snooping (o : SnpOut) (s : State) : State := trk1 (rq0 .rdA) (fun x => { x with active := true, known := true, ph := .snoop, dir := Dir.exo 3, snps := [o] }) (owned s)
def withSf (s : State) : State := s.modSlice 0 fun x => { x with sf := [(4224, entOf (Dir.exo 3))] }
def sans0 (wbw : Bool) : SAns := { hs := 0, t := 0, att := 0, cax := 3, rsp := .rspI, ps := 0, wbw := wbw, wbc := 1, wbg := true, nsmp := false }

/-- An answer of no tracker entry, of a snoop, of a snoop with an awaited writeback (admitted or not) and a second answer. -/
theorem test_snoop_answers : each [
    goes (exec (.sliceSnoopResponse 0) (toHs (.sans (sans0 false)) live)) fun t => tGet t.obs.pre (hsCtr 0 5) == some 1,
    goes (exec (.sliceSnoopResponse 0) (toHs (.sans (sans0 false)) (withSf (snooping (so id) live)))) fun t => ((t.slice 0).trk.flatMap fun x => x.snps) == [] &&
      (t.slice 0).calQ.length == 1,
    goes (exec (.sliceSnoopResponse 0) (toHs (.sans (sans0 true)) (withSf (snooping (so id) live)))) fun t =>
      ((t.slice 0).trk.flatMap fun x => x.snps.map fun o => o.parked) == [some (sans0 true)],
    goes (exec (.sliceSnoopResponse 0) (toHs (.sans (sans0 true)) ((withSf (snooping (so id) live)).setAdmg 0 0 1 true))) fun t =>
      ((t.slice 0).trk.flatMap fun x => x.snps) == [] && t.mesh.pkts.any fun p => match p.msg with | .rspack _ _ _ => true | _ => false,
    goes (exec (.sliceSnoopResponse 0) (toHs (.sans (sans0 false)) (withSf (snooping (so fun o => { o with parked := some (sans0 true) }) live)))) fun t =>
      tGet t.obs.pre (hsCtr 0 5) == some 1,
    live.hsUp 0 && goes (exec (.snoopTimeout 0 0 3) (withSf (snooping (so id) live))) fun t => t.clk.tick == 9 &&
      ((t.slice 0).trk.flatMap fun x => x.snps.map fun o => o.att) == [1],
    goes (exec (.snoopTimeout 0 0 3) (withSf (snooping (so fun o => { o with att := live.params.biRetry }) live))) fun t => (t.agent 5).any fun a => a.sess == 1,
    goes (exec (.holdWindowExpiry 0 264 3) (hs1 (fun x => { x with hold := [{ lix := 264, cax := 3, expiry := 6 }] }) live)) fun t =>
      t.clk.tick == 6 && (t.slice 0).hold == []] = true := by decide +kernel

def lk0 (noData : Bool) : Lk :=
  { te := false, run := 0, opi := 0, ci := 0, lix := 264, mpid := 0, kind := .coh, noData := noData, writes := true, isAop := false, rqid := 5 }
def te0 (f : Te → Te) (s : State) : State := { s with te0 := f Te.reset }
/-- The operation FETCH_ADD of 4 bytes on a line; a group of it. -/
def addOp (lix : Lix) : GOp := { opk := 2, wid := 0, off := 0, lix := lix, cmask := 0, wmask := 0, opnd := 1, cimg := 0, wimg := 0 }
def grp0 (lix : Lix) (st : GSt) : Group :=
  { id := 0, ci := 0, gidx := 0, recN := 0, ph := true, rq := 5, gtag := 0, ldf := false, stf := false, fen := false, ops := [addOp lix], gen := 0,
    stamped := st != .copied, st := st, locks := [], status := .done, fop := 15, fmap := 0, pw := false, tcmt := 0, rets := [], mir := none, drop := false }
def locked (ph : Ph) (active : Bool) (s : State) : State :=
  (trk1 ((lk0 false).req .lck) (fun x => { x with resv := .engine, active := active, known := true, ph := ph, lk := some (lk0 false) }) s).modSlice 0 fun x =>
    { x with plb := [{ lix := 264, ci := 0, mpid := 0, posted := false, resv := [0], data := 0, psn := false, seq := 0, gpf := [], byGrel := false }] }

/-- A lock at home and in a set handed over; the four releases, the last with no lock. -/
theorem test_locks : each [
    goes (exec (.lck 0) (toHs (.lck (lk0 false)) live)) fun t => ((t.slice 0).trk.map fun x => x.lk) == [some (lk0 false)],
    goes (exec (.lckn 0) (toHs (.lck (lk0 true)) live)) fun t => ((t.slice 0).trk.map fun x => x.lk) == [some (lk0 true)],
    goes (exec (.lck 0) (toHs (.lck (lk0 false)) (folding [] (some 132) live))) fun t =>
      (t.slice 0).trk == [] && t.mesh.pkts.any fun p => match p.msg with | .lnack _ _ => true | _ => false,
    goes (exec (.lckn 0) (toHs (.lck (lk0 true)) (folding [264] none live))) fun t => (t.slice 0).trk == [],
    (live.lockOf 0 (lk0 false)).isNone && ((locked .held true live).lockOf 0 (lk0 false)).isSome &&
      goes (exec (.grelw ⟨0, false⟩) (toHs (.grelw (lk0 false) 7 false true []) (locked .held true live))) fun t =>
        (t.slice 0).trk == [] && ((t.slice 0).plb.map fun p => (p.posted, p.data)) == [(true, 7)],
    goes (exec (.grelw ⟨0, false⟩) (toHs (.grelw (lk0 false) 7 true false []) (locked .held true live))) fun t =>
      (t.slice 0).trk == [] && (t.slice 0).rimeQ.length == 1,
    goes (exec (.grelw ⟨0, false⟩) (toHs (.grelw (lk0 false) 7 true false []) ((locked .held true live).modInst 0 fun i => { i with firnLog2 := 12 }))) fun t =>
      ((t.slice 0).trk.map fun x => x.ph) == [.poison] && ((t.slice 0).facc.map fun a => a.kind) == [.psnNone 0 (some 0)],
    goes (exec (.grelw ⟨0, true⟩) (toHs (.grelw (lk0 false) 7 false false []) (te0 (fun t => { t with grps := [grp0 264 .ret] }) (locked .held true live)))) fun t =>
      (t.slice 0).trk == [] && ((t.slice 0).plb.map fun p => p.psn) == [true] && (t.te0.grps.map fun g => g.pw) == [true] && (t.errLog.map fun e => e.ecode) == [8],
    goes (exec (.grel 0) (toHs (.grel (lk0 false)) (locked .snoop true live))) fun t => ((t.slice 0).trk.map fun x => x.rel) == [true],
    goes (exec (.grel 0) (toHs (.grel (lk0 false)) (locked .held true live))) fun t => (t.slice 0).trk == [] && (t.slice 0).plb == [],
    goes (exec (.grela 0) (toHs (.grela (lk0 false) (rq0 .aop)) (locked .held true live))) fun t =>
      ((t.slice 0).trk.map fun x => x.ph) == [.memAop] && t.mesh.pkts.length == 1,
    goes (exec (.grel 0) (toHs (.grel (lk0 false)) live)) fun t => t == ((toHs (.grel (lk0 false)) live).ejected 0 (pkt 8 (.grel (lk0 false))))] = true := by decide +kernel

def mcp (p : Purp) : Msg := .mcpl (mkCmd 0 .memrd 0 264 p) 0 .clear 7
def fa (k : FKind) (got : List (Nat × Line)) (f : FAcc → FAcc) : FAcc :=
  f { id := 0, ci := 0, fl := 0, lix := 264, kind := k, got := got, writing := false, agency := false, wleft := 0, dirty := [] }

/-- The completion of a read, of a metadata read, a write, a posted line, a rime write, a firn write, MEMAOP, and a firn line. -/
theorem test_memory_completions : each [
    goes (exec (.memoryCompletion 0) (toHs (mcp (.trkRd 0)) (trk1 (rq0 .rdA) (fun x => { x with active := true, known := true, ph := .data, rdOut := true, grant := .a }) live)))
      fun t => (t.slice 0).trk == [] && t.mesh.pkts.any fun p => match p.msg with | .cpl c => c.data == 7 && c.dst == some 9 | _ => false,
    goes (exec (.memoryCompletion 0) (toHs (mcp (.trkMd 0)) (trk1 { rq0 .lrd with kind := .lease } (fun x => { x with active := true, ph := .rime }) live)))
      fun t => ((t.slice 0).trk.map fun x => x.ph) != [.rime],
    goes (exec (.memoryCompletion 0) (toHs (mcp (.trkWr 0)) (trk1 (rq0 .wr) (fun x => { x with active := true, known := true, ph := .write }) live)))
      fun t => (t.slice 0).trk == [],
    goes (exec (.memoryCompletion 0) (toHs (mcp (.plbWr 4)) (hs1 (fun x => { x with plb :=
        [{ lix := 264, ci := 0, mpid := 0, posted := true, resv := [], data := 0, psn := false, seq := 4, gpf := [], byGrel := false }] }) live)))
      fun t => (t.slice 0).plb == [],
    goes (exec (.memoryCompletion 0) (toHs (mcp (.rime 0)) live)) fun _ => true,
    goes (exec (.memoryCompletion 0) (toHs (mcp (.firnWr 0)) (hs1 (fun x => { x with facc := [fa (.psnDel none) [] fun a => { a with writing := true, wleft := 1 }] }) live)))
      fun t => (t.slice 0).facc == [],
    goes (exec (.memoryCompletion 0) (toHs (mcp (.aop 0)) (locked .memAop true live))) fun t => (t.slice 0).trk == [] &&
      t.mesh.pkts.any fun p => match p.msg with | .nma _ _ false d => d == 7 | _ => false,
    goes (exec (.firnLookupData 0 []) (toHs (.mcpl (mkCmd 0 .memrd 0 264 (.firnRd 0 1)) 0 .clear 0) (hs1 (fun x => { x with facc := [fa (.psnDel none) [] id] }) live)))
      fun t => ((t.slice 0).facc.map fun a => a.got.length) == [1]] = true := by decide +kernel

/-- The data of a DST of a whole line, and of one that is merged. -/
theorem test_dpullData : each [
    !live.dpullComing 0 9 && ((trk1 (rq0 .wr) (fun x => { x with active := true, known := true, ph := .pull }) live).pulling 0 9).isSome &&
      goes (exec (.dpullData 0 9 7 0) (trk1 (rq0 .wr) (fun x => { x with active := true, known := true, ph := .pull }) live))
        fun t => (t.slice 0).trk == [] && ((t.slice 0).plb.map fun p => p.data) == [7],
    goes (exec (.dpullData 0 9 7 1) (trk1 (rq0 .wr) (fun x => { x with active := true, known := true, ph := .merge }) live))
        fun t => ((t.slice 0).trk.map fun x => (x.pulled, x.mask, x.req.data)) == [(true, 1, 7)]] = true := by decide +kernel

def ovf : VbEnt := { set := 264, ent := entOf (Dir.shared [3]), dep := false, fdel := false, fwr := false, rclr := false, rtrk := false, calve := false }
def waits (f : Option Bool) (s : State) : State := trk1 (rq0 .rdS) (fun x => { x with active := true, known := true, ph := .victim, dir := Dir.inv, finst := f }) s

theorem test_retries : each [
    goes (exec (.overflowInstallRetry 0) (hs1 (fun x => { x with vb := [ovf] }) live)) fun t => (t.slice 0).vb == [] && ((t.slice 0).sf.map fun e => e.1) == [4224],
    goes (exec (.victimBufferRetry 0 0) (waits none live)) fun t => ((t.slice 0).trk.map fun x => x.ph) != [.victim],
    ((waits (some false) live).allocate 0 264 (entOf Dir.inv)).isSome &&
      goes (exec (.victimBufferRetry 0 0) (waits (some false) live)) fun t => ((t.slice 0).trk.map fun x => x.finst) == [none],
    goes (exec (.plbRetry 0 0) (trk1 { rq0 .wr with ofs := 1, blen := 7 } (fun x => { x with active := true, known := true, ph := .plb }) live))
      fun t => ((t.slice 0).trk.map fun x => x.ph) == [.merge],
    goes (exec (.plbRetry 0 0) (trk1 ((lk0 false).req .lck) (fun x => { x with resv := .engine, active := true, known := true, ph := .lockPlb, lk := some (lk0 false) }) live))
      fun t => ((t.slice 0).trk.map fun x => x.ph) == [.lockRd],
    goes (exec (.internalEntryRetry 0 0) (hs1 (fun x => { x with facc := [fa (.spill (Dir.shared [3])) [(0, 0), (1, 0), (2, 0), (3, 0)] id] }) live)) fun t => ((t.slice 0).facc.map fun a => a.writing) == [true],
    live.works (msDom 0) && goes (exec (.postThrReport 0) (hs1 (fun x => { x with thr := [0, 1] }) live)) fun t => (t.slice 0).thr == [1]] = true := by decide +kernel

/-! ### Memory stations and transaction engines (R87 to R90, R175 to R217, R233, R513, R562) -/

def putMs (m : Msg) (s : State) : State := put (pkt 40 m) s
def rdCmd : MCmd := mkCmd 0 .memrd 0 264 (.trkRd 0)
def ms0 (l : List MEnt) (s : State) : State := { s with mss := [(0, { MSt.reset with cmds := l })] }
def sentE (c : MCmd) : MEnt := { MEnt.new c c.own with sent := true }

/-- A completion word: kind, line, MST, port 0. -/
def mw (kind lix mst : Nat) : BitVec 160 := BitVec.ofNat 160 (kind + lix * 2 ^ 12 + mst * 2 ^ 80)

/-- A command taken; a failed completion, first and repeated, a read's, and those of the two Rime Table commands. -/
theorem test_memory_station : each [
    live.msTakes 0 rdCmd && goes (exec (.memoryCommand 0) (putMs (.mcmd rdCmd) live)) fun t => ((t.ms 0).cmds.map fun e => e.sent) == [true] && t.out.length == 1,
    goes (exec (.memoryPortCompletion 0 (mw 1 264 2) 0 ⟨some 0, false⟩) (ms0 [sentE rdCmd, sentE rdCmd] live)) fun t =>
      ((t.ms 0).cmds.map fun e => (e.cmd.reiss, e.failed)) == [(true, false), (false, true)] && t.out.length == 1,
    goes (exec (.memoryPortCompletion 0 (mw 1 264 2) 0 ⟨some 0, false⟩) (ms0 [{ sentE rdCmd with failed := true }] live)) fun t => t.out.length == 1 && t.errLog == [],
    goes (exec (.memoryPortCompletion 0 (mw 1 264 0) 7 ⟨some 0, false⟩) (ms0 [sentE rdCmd] live)) fun t => (t.ms 0).cmds == [] &&
      t.mesh.pkts.any fun p => match p.msg with | .mcpl _ _ _ d => d == 7 | _ => false,
    (rtCmd .memrd 0 8 .rtRead 0).own && goes (exec (.memoryPortCompletion 0 (mw 1 8 0) 7 ⟨some 0, false⟩) (ms0 [sentE (rtCmd .memrd 0 8 .rtRead 0)] live))
      fun t => (t.ms 0).rcache == [(8, 7)],
    goes (exec (.memoryPortCompletion 0 (mw 2 8 0) 0 ⟨some 0, false⟩) (ms0 [sentE (rtCmd .memwr 0 8 .rtWrite 0)] live)) fun t => (t.ms 0).cmds == [],
    goes (exec (.memoryPortCompletion 0 (mw 1 264 0) 7 ⟨some 0, true⟩) (ms0 [sentE rdCmd] live)) fun t => (t.ms 0).cmds == [] && (t.errLog.map fun e => e.ecode) == [4] &&
      t.mesh.pkts.any fun p => match p.msg with | .mcpl _ _ r _ => r == .unknown | _ => false,
    goes (exec (.memoryPortCompletion 0 0 0 ⟨none, false⟩) live) fun t => t.errLog.length == 1 && t.halt != .running] = true := by decide +kernel

def toTe (m : Msg) (s : State) : State := put (pkt 48 m) s
def held0 (s : State) : State := { s with arb0 := { s.arb0 with holder := some 0 } }
def aop0 : Req := { rq0 .aop with data := 1 }
def lkA (noData : Bool) : Lk := { lk0 noData with isAop := true, writes := !noData }
def lkSt (noData : Bool) : LkSt := { lk := lkA noData, hs := 0, sent := true, act := false, gnt := false, refused := false, psn := false, plbh := false, data := 0, cred := true }
def run0 (nma : Bool) : ARun := { id := 0, req := aop0, lk := lkSt nma, nma := nma, gate := none }
def running (nma : Bool) (s : State) : State := te0 (fun t => { t with runs := [run0 nma], nextId := 1, cred := [(0, 1)] }) s

theorem test_atomicops : each [
    goes (exec (.atomicop 0) (toTe (.aop aop0) live)) fun t => t.te0.aopq == [aop0],
    goes (exec (.atomicop 0) (toTe (.aop aop0) (te0 (fun t => { t with aopq := List.replicate 15 aop0 }) live))) fun t => t.te0.aopq.length == 16,
    goes (exec (.atomicop 0) (toTe (.aop aop0) (te0 (fun t => { t with aopq := List.replicate 16 aop0 }) live))) fun t => t.te0.aopq.length == 16 &&
      t.mesh.pkts.any fun p => match p.msg with | .retry r => r.tries == 1 | _ => false,
    goes (exec (.atomicop 0) (toTe (.aop aop0) { onDoms [80, 81] live with arb0 := { live.arb0 with en := false } })) fun t => t.te0.aopq == [] &&
      (t.mesh.pkts.map fun p => (p.dst, p.msg)) == [(teStop true, .aop aop0)],
    goes (exec (.nmaResult 0) (toTe (.nma (lkA true) 0 false 7) (running true live))) fun t => t.te0.runs == [] &&
      (t.mesh.pkts.any fun p => match p.msg with | .cpl c => c.dst == some 9 | _ => false) && t.mesh.pkts.any fun p => p.msg == .ln 7 && p.vnet == .dat,
    goes (exec (.lact 0) (toTe (.lact (lkA false) 0) (running false live))) fun t => (t.te0.runs.map fun r => r.lk.act) == [true],
    goes (exec (.lgnt 0 false) (toTe (.lgnt (lkA false) 0 false false 5) live)) fun t => t.te0 == Te.reset,
    goes (exec (.lgnt 0 false) (toTe (.lgnt (lkA true) 0 false false 0) (running true live))) fun t =>
      t.mesh.pkts.any fun p => match p.msg with | .grela _ _ => true | _ => false,
    goes (exec (.lgnt 0 false) (toTe (.lgnt (lkA false) 0 false false 5) (running false live))) fun t =>
      t.mesh.pkts.any fun p => match p.msg with | .grelw _ _ _ _ _ => true | _ => false,
    goes (exec (.lgnt 0 false) (toTe (.lgnt (lkA true) 0 true false 0) (running true live))) fun t =>
      (t.mesh.pkts.any fun p => match p.msg with | .grel _ => true | _ => false) && !t.mesh.pkts.any fun p => match p.msg with | .grela _ _ => true | _ => false,
    goes (exec (.lgnt 0 false) (toTe (.lgnt (lkA true) 0 false true 5) (running true live))) fun t =>
      t.mesh.pkts.any fun p => match p.msg with | .grelw _ _ _ _ _ => true | _ => false,
    goes (exec (.lnack 0) (toTe (.lnack (lkA false) 0) (running false live))) fun t => (t.mesh.pkts.any fun p => match p.msg with | .lck _ => true | _ => false) || t.te0.used 0 == 0,
    goes (exec (.uncAccessRetry 0) (toTe (.uncRetry false { aop0 with cls := .urd }) live)) fun t => t.clk.tick == 1 && t.mesh.pkts.length == 1,
    (held0 live).teHolder false == some 0 && goes (exec (.atomicopStart false) (held0 (te0 (fun t => { t with aopq := [aop0] }) live))) fun t =>
      t.te0.aopq == [] && t.te0.used 0 == 1 && (t.te0.runs.map fun r => r.id) == [0] && t.mesh.pkts.length == 1] = true := by decide +kernel

def gq0 (f : GQueue → GQueue) (s : State) : State :=
  s.modGq 0 false fun q => f { q with en := true, dqSize := 5, sqSize := 4, dqMpid := 0, sqMpid := 0, pacc := 3 }
def copy0 (len asked : Nat) : Copy := { ci := 0, base := 0, slots := [], asked := asked, len := len, bad := false, recN := 0 }
def urd0 (pix : Nat) : Req := { Req.internal .urd 0 .unc 264 0 with src := .te false, pix := pix }
def uwr0 (pix : Nat) : Req := { Req.internal .uwr 0 .unc 264 0 with src := .te false, pix := pix }
def copying (len : Nat) (s : State) : State := te0 (fun t => { t with copies := [copy0 len 1] }) (gq0 id s)

/-- A header of one operation and so many slots. -/
def hdr (slots : Nat) : Line := BitVec.ofNat 512 (1 + 1 * 2 ^ 4 + slots * 2 ^ 16)
def withG (g : Group) (s : State) : State := held0 (te0 (fun t => { t with grps := [g], nextId := 1 }) (gq0 id s))

/-- A copy gone on with and one begun; a slot in the midst, the last, a broken header. -/
theorem test_descriptors : each [
    (held0 (copying 2 live)).copyNow false == some (copy0 2 1) && goes (exec (.descriptorCopy false) (held0 (copying 2 live))) fun t =>
      (t.te0.copies.map fun c => c.asked) == [2] && t.mesh.pkts.length == 1,
    (held0 (gq0 id live)).copyNow false == none && goes (exec (.descriptorCopy false) (held0 (gq0 id live))) fun t =>
      t.te0.copies == [copy0 0 1] && ((t.inst 0).gq false).nextRec == 1 && t.mesh.pkts.length == 1,
    headOk (hdr 2) && goes (exec (.descriptorData 0) (toTe (.unc false (urd0 0) false (hdr 2)) (copying 0 live))) fun t =>
      (t.te0.copies.map fun c => (c.len, c.slots.length)) == [(2, 1)],
    goes (exec (.descriptorData 0) (toTe (.unc false (urd0 0) true (hdr 2)) (copying 0 live))) fun t => t.te0.copies == [] &&
      (t.te0.grps.map fun g => g.status) == [.malformed],
    goes (exec (.descriptorData 0) (toTe (.unc false (urd0 1) false (BitVec.ofNat 512 (2 + 2 * 2 ^ 4 + 264 * 2 ^ 64)))
      (te0 (fun t => { t with copies := [{ copy0 2 2 with slots := [(0, hdr 2)] }] }) (gq0 id live)))) fun t =>
        t.te0.copies == [] && (t.te0.grps.map fun g => (g.st, g.ops.length)) == [(.copied, 1)]] = true := by decide +kernel

/-- The two lines of a record; a group that starts, and one denied. -/
theorem test_groups : each [
    goes (exec (.statusRecordCmp 0) (toTe (.unc false (uwr0 1) false 0) (withG (grp0 264 .ret) live))) fun t => (t.te0.grps.map fun g => g.st) == [.ph] && t.mesh.pkts.length == 1,
    goes (exec (.statusRecordCmp 0) (toTe (.unc false (uwr0 0) false 0) (withG (grp0 264 .ph) live))) fun t => t.te0.grps == [] && ((t.inst 0).gq false).prod == 1,
    (withG (grp0 264 .copied) live).groupDenial (grp0 264 .copied) == none && goes (exec (.groupStart false) (withG (grp0 264 .copied) live)) fun t =>
      (t.te0.grps.map fun g => (g.st, g.stamped, g.locks.length)) == [(.locking, true, 1)],
    goes (exec (.groupStart false) (withG (grp0 4096 .copied) live)) fun t => (t.te0.grps.map fun g => g.status) == [.denied] && (t.vlog.map fun v => v.cause) == [1]] = true := by
  decide +kernel

/-! ### Lottery and bulk engine (R292 to R310) -/

def asking (s : State) : State := withG (grp0 264 .copied) (s.modInst 0 fun i => { i with tkt0 := 1 })
def free0 (s : State) : State := { s with arb0 := { s.arb0 with holder := none } }
def bop (k : BKind) (pos : Nat) (outst : List BStep) : BulkOp :=
  { id := 0, q := 64, kind := k, ci := 0, cmd := 0, pos := pos, total := 0, done := 0, outst := outst, again := [], stopped := false, ended := none }
def step0 (pos : Nat) (more : Bool) : BStep := { pos := pos, todo := [], busy := false, awaited := 0, more := more, cut := false }
def withOp (o : BulkOp) (s : State) : State := { s with be := { s.be with ops := [o] }, arbB := { s.arbB with holder := some 64 } }

/-- A draw in the last cycle of a grant, and with and without a requester; a grant that ends by its queue and by a cut, and no grant. -/
theorem test_lottery : each [
    (asking live).running && goes (exec (.lotteryDraw .te0) (free0 (asking live).seeReq)) fun t => t.arb0.holder == none && t.arb0.won == some 0,
    goes (exec (.lotteryDraw .te0) { (asking live).seeReq with arb0 := { (asking live).seeReq.arb0 with holder := some 9, ending := true } }) fun t => t.arb0.won == some 0,
    (free0 live).draw .te0 (some 0) == none && goes (exec (.lotteryDraw .te0) (free0 live)) fun t => t.arb0.won == none,
    goes (exec (.lotteryDraw .be) { withOp (bop .rotate 0 []) live with arbB := live.arbB }) fun t => t.arbB.won == none,
    goes (step { free0 (asking live) with arb0 := { (free0 (asking live)).arb0 with won := some 0 } }) fun t => t.arb0.holder == some 0 && t.arb0.won == none,
    !(held0 live).requests .te0 0 && goes (exec (.grantEnd .te0) (held0 live)) fun t => t.arb0.holder == some 0 && t.arb0.ending,
    goes (exec (.grantEnd .te0) { asking live with arb0 := { (asking live).arb0 with cut := true } }) fun t => t.arb0.ending,
    goes (exec (.grantEnd .te0) (free0 live)) fun t => !t.arb0.ending] = true := by decide +kernel

def cutAt (m : AMode) (s : State) : State := { asking s with arbMode := m, arb0 := { (asking s).arb0 with dl := some 6 } }

theorem test_watchdog_sweep_hints : each [
    ((cutAt .service live).goTo 6).arb0.holder == some 0 && !((cutAt .service live).goTo 6).arb0.ending &&
      goes (exec (.holdWatchdogExpiry .te0) (cutAt .service live)) fun t => t.clk == { tick := 6, phase := 1 } && t.arb0.holder == none && (t.inst 0).cut == 1,
    goes (exec (.holdWatchdogExpiry .te0) (cutAt .test live)) fun t => t.arb0.holder == some 0 && !t.arb0.cut && t.arb0.dl == none && (t.inst 0).cut == 1,
    goes (exec .emergencyPreempt { live with be := { live.be with sweeps := [bop (.agentLoss 3 5 []) 0 []] } }) fun t => t.arbB.won == some 65,
    goes (exec .emergencyPreempt { withOp (bop (.zfillCoh 256 300 .coh) 0 [step0 0 false]) live with
        be := { live.be with ops := [bop (.zfillCoh 256 300 .coh) 0 [step0 0 false]], sweeps := [bop (.agentLoss 3 5 []) 0 []] } })
      fun t => t.arbB.won == some 65 && t.arbB.cut && t.arbB.ending,
    goes (exec .hintUpdate (asking live)) fun t => t.arb0.hints[0]? == some 0 && t.arb0.hints[1]? == some 65535 && t.clk.phase == 0] = true := by decide +kernel

theorem test_bulk_steps : each [
    (withOp (bop .resync 0 []) live).beCurrent == some (bop .resync 0 []) && live.works 82 && goes (exec .bulkStepIssue (withOp (bop .resync 0 []) live)) fun t =>
      (t.be.ops.map fun o => (o.pos, o.outst.length)) == [(1, 1)],
    goes (exec .bulkStepIssue (withOp (bop .resync 7 ((List.range 7).map fun k => step0 k false)) live)) fun t => (t.be.ops.map fun o => o.outst.length) == [8],
    goes (exec .bulkStepIssue (withOp (bop .resync 8 ((List.range 8).map fun k => step0 k false)) live)) fun t => (t.be.ops.map fun o => o.outst.length) == [8],
    goes (exec (.bulkStepComplete 0) (withOp (bop .resync 1 [step0 0 false]) live)) fun t => (t.be.ops.map fun o => (o.done, o.outst.length)) == [(1, 0)],
    goes (exec (.bulkStepComplete 0) (withOp (bop .resync 1 [step0 0 true]) live)) fun t => (t.be.ops.map fun o => (o.done, o.again)) == [(0, [0])]] = true := by
  decide +kernel

/-! ### Fold events (R378 to R382, R489) -/

def sfAt (s : State) : State := s.modSlice 0 fun x => { x with sf := [(4224, entOf (Dir.shared [3]))] }
def foldAt (s : State) (f : Fold → Fold) : State := { s with fold := s.fold.map f }
def to1 (m : Msg) (s : State) : State := put (pkt 9 m) (onDoms [0, 1, 32, 33, 64, 72, 80, 81, 82, 83, 84] s)

theorem test_handover_install : each [
    (folding [] (some 132) live).handing 264 && goes (exec (.setHandover 0 264) (sfAt (folding [] (some 132) live))) fun t =>
      (t.slice 0).sf == [] && (t.slice 0).moved == [264] && (t.slice 1).noAck.length == 8 && t.mesh.pkts.length == 9,
    goes (exec (.movingEntryInstall 0) (to1 (.moving 0 264 [entOf (Dir.shared [3])] (some 5)) (folding [264] (some 132) live))) fun t =>
      ((t.slice 1).sf.map fun e => e.1) == [4224] && (t.slice 1).susp == [(264, 5)] && (t.slice 1).install == [],
    goes (exec (.movingEntryInstall 0) (to1 (.moving 0 264 [entOf (Dir.shared [3])] none) ({ folding [264] (some 132) live with
        ret := { live.ret with chans := (List.range 16).map fun w => { chk := 1, chn := BitVec.ofNat 12 (16 + w) } } }.modSlice 1 fun x =>
          { x with vb := List.replicate 256 ovf }))) fun t => (t.slice 1).install.length == 1,
    goes (exec (.fmark 0) (put (pkt 0 (.fmark 0 1 264 0)) live)) fun t => t.mesh.pkts.any fun p => match p.msg with | .fmack 1 0 264 0 => true | _ => false,
    goes (exec (.fmack 0) (to1 (.fmack 1 0 264 0) (live.modSlice 1 fun x => { x with noAck := [(0, 264, 0)], waitAck := [(264, 0, none, .wbcr 1 0 1)] })))
      fun t => (t.slice 1).noAck == [] && (t.slice 1).waitAck == [] && t.mesh.pkts.length == 1] = true := by decide +kernel

def fw (c : Cls) : Req := { rq0 c with fwd := true, mval := .i }

theorem test_forwarded : each [
    !(live.coming 1 264) && goes (exec (.forwardedRequest 0) (to1 (.fwd 0 1 (fw .rdS) false) live)) fun t => (t.slice 1).trk.length == 1,
    (live.modSlice 1 fun x => { x with install := [(0, 264, [])] }).coming 1 264 &&
      goes (exec (.forwardedRequest 0) (to1 (.fwd 0 1 (fw .rdS) false) (live.modSlice 1 fun x => { x with install := [(0, 264, [])] }))) fun t =>
        (t.slice 1).trk == [] && (t.slice 1).early == [(fw .rdS, false)],
    goes (exec (.forwardedRequest 0) (to1 (.fwd 0 1 (fw .mw) true) (live.modSlice 1 fun x => { x with sf := [(4224, entOf (Dir.exo 3))] }))) fun t => (t.slice 1).trk.length == 1,
    goes (exec (.forwardedRequest 0) (to1 (.fwd 0 1 (fw .cln) true) live)) fun _ => true,
    goes (exec (.forwardedRequest 0) (to1 (.fwd 0 1 (fw .bic) true) live)) fun t => t.mesh.pkts.any fun p => match p.msg with | .cpl c => c.bicAck | _ => false,
    goes (exec (.forwardedEntryFreed 0) (toHs (.fwdFreed 0 1 (fw .mw)) (trk1 (fw .mw) (fun x => { x with resv := .writeback, chain := false }) live)))
      fun t => (t.slice 0).trk == [] && t.mesh.pkts.any fun p => match p.msg with | .wbcr 0 0 1 => true | _ => false,
    goes (exec (.forwardedEntryFreed 0) (toHs (.fwdFreed 0 1 (fw .mw)) ((trk1 (fw .mw) (fun x => { x with resv := .writeback, chain := false }) live).modSlice 0 fun x =>
      { x with fwdQ := [fw .cln] }))) fun t => (t.slice 0).fwdQ == [] && t.mesh.pkts.any fun p => match p.msg with | .fwd 0 1 _ true => true | _ => false] = true := by
  decide +kernel

theorem test_agency : each [
    goes (exec (.firnAgencyRequest 0) (toHs (.agReq 1 0 4 0 9 .read) live)) fun t => ((t.slice 0).facc.map fun a => a.kind) == [.agency 1 4],
    goes (exec (.firnAgencyRequest 0) (toHs (.agReq 1 0 4 0 9 (.write 2 7)) (hs1 (fun x => { x with facc := [fa (.agency 1 4) [] fun a => { a with fl := 9 }] }) live)))
      fun t => t.mesh.pkts.any fun p => match p.msg with | .mcmd c => c.kind == .memwr && t.mesh.pkts.any fun q => q.msg == .ln 7 && q.tag == p.tag | _ => false,
    goes (exec (.firnAgencyRequest 0) (toHs (.agReq 1 0 4 0 9 .done) (hs1 (fun x => { x with facc := [fa (.agency 1 4) [] fun a => { a with fl := 9 }] }) live)))
      fun t => (t.slice 0).facc == [],
    goes (exec (.firnAgencyResult 0) (toHs (.agRsp 1 0 0 0 9 []) (hs1 (fun x => { x with facc := [fa (.psnDel none) [] fun a => { a with writing := true, wleft := 1, agency := true }] }) live)))
      fun t => (t.slice 0).facc == [],
    goes (exec (.firnAgencyResult 0) (toHs (.agRsp 1 0 0 0 9 [0, 0, 0, 0]) (hs1 (fun x => { x with facc := [fa (.psnDel none) [] fun a => { a with agency := true }] }) live)))
      fun t => (t.slice 0).facc == [],
    goes (exec (.firnAgencyResult 0) (toHs (.agRsp 1 0 0 0 9 [0, 0, 0, 0]) live)) fun t => (t.mesh.pkts.map fun p => p.msg) == [.agReq 0 1 0 0 9 .done]] = true := by decide +kernel

def allOver (s : State) : State := { folding [] none s with be := { s.be with ops := [{ bop .fold 8192 [] with done := 8192 }] } }
def drained (cmd : Option (BitVec 512)) (m : List Hs) (s : State) : State :=
  foldAt (folding [] none s) fun f => { f with flipped := true, cmd := cmd, oldMap := m }

/-- The flip; the drain of the old epoch of an own fold, of a fold that frees no slice, and of one that does. -/
theorem test_epoch : each [
    (allOver live).foldOp.isSome && goes (exec .sliceMapEpochFlip (allOver live)) fun t => t.smap == List.replicate 32 1 && t.smep && t.be.ops == [],
    (drained none [0] live).epochDrained && goes (exec .sliceMapEpochDrain (drained none ((List.range 32).map (BitVec.ofNat 5)) live)) fun t =>
      t.fold == none && t.sched.length == 62,
    goes (exec .sliceMapEpochDrain (withL (aLong 0x407 (.fold [])) (drained (some (pk 0x407 0xFF 0 [])) (List.replicate 32 1) live))) fun t => done t && t.mc.longs == [],
    goes (exec .sliceMapEpochDrain (withL (aLong 0x407 (.fold [])) (drained (some (pk 0x407 0xFF 0 [])) [0] live))) fun t =>
      t.fold == none && (t.mc.longs.map fun l => l.job) == [.fold [0, 32]] && t.sched.length == 2] = true := by decide +kernel

/-! ### Power events (R364 to R373, R491) -/

def dm (d : Nat) (f : Dom → Dom) (s : State) : State := s.modDom (BitVec.ofNat 7 d) f

theorem test_freeze : each [
    goes (exec (.freezeFence 72) (dm 72 (fun x => { x with st := .freezing }) live)) fun t => (t.dom 72).fenced && t.sched.length == 2,
    goes (exec (.freezeFence 32) (dm 0 (fun x => { x with st := .freezing }) (dm 32 (fun x => { x with st := .freezing, toRet := true }) live))) fun t =>
      (t.dom 32).fenced && (t.dom 0).fenced && t.sched.length == 5,
    goes (exec (.powerOffAck 0) (dm 32 (fun x => { x with st := .freezing, fenced := true, req := false, dl := some 9 })
      (dm 0 (fun x => { x with st := .freezing, fenced := true, req := false, dl := some 9 }) live))) fun t => !(t.dom 0).ack && (t.dom 32).ack && t.sched == [],
    goes (exec (.powerOffAck 72) (dm 72 (fun x => { x with st := .freezing, fenced := true, req := false, dl := some 9 }) live)) fun t =>
      !(t.dom 72).good && t.sched == [(1, .dom 72 .off)],
    goes (exec (.pgTimeoutExpiry 72) (dm 72 (fun x => { x with st := .freezing, dl := some 9 }) live)) fun t => (t.dom 72).st == .freezing && t.errLog.length == 1,
    goes (exec (.pgTimeoutExpiry 0) (dm 0 (fun x => { x with st := .thawing, dl := some 9 }) live)) fun t => (t.dom 0).st == .off && (t.dom 32).st == .off,
    goes (exec (.frzDrainTmoExpiry 0) (dm 0 (fun x => { x with st := .freezing, force := true }) live)) fun t => (t.dom 0).forced && (t.dom 32).forced,
    goes (exec (.frzDrainTmoExpiry 0) (dm 0 (fun x => { x with st := .freezing }) (withL (aLong 0x401 (.freeze [0, 32])) live))) fun t => said t .timeout &&
      t.sched.map (fun e => e.2) == [.dom 0 .on]] = true := by decide +kernel

theorem test_thaw_and_loss : each [
    goes (exec (.nackFrozen 0) (put (pkt 9 (.nack (.req (rq0 .rdS)))) live)) fun t => (t.mesh.pkts.map fun p => (p.dst, p.msg)) == [(8, .req (rq0 .rdS))],
    goes (exec (.nackFrozen 0) (toHs (.req (rq0 .rdS)) (dm 0 (fun x => { x with st := .freezing, forced := true }) live))) fun t =>
      (t.mesh.pkts.map fun p => p.msg) == [.nack (.req (rq0 .rdS))],
    goes (exec (.powerGood 0) (dm 0 (fun x => { x with st := .thawing, dl := some 9 }) live)) fun t => (t.dom 0).counted && t.sched == [],
    goes (exec (.powerGood 0) (dm 32 (fun x => { x with counted := true }) (dm 0 (fun x => { x with st := .thawing, dl := some 9 }) live))) fun t =>
      t.sched.length == 4 && (t.dom 0).t1 == 1026 && (t.dom 0).dl == none,
    goes (exec (.thawReady 72) (dm 72 (fun x => { x with st := .thawing, counted := true, t1 := 4 }) live)) fun t => (t.dom 72).st == .on && t.clk.tick == 5,
    (owned live).holdsWork 0 && goes (exec (.pgoodLoss 0) (sfAt live)) fun t => t.halt != .running,
    !(live.holdsWork 0) && goes (exec (.pgoodLoss 0) live) fun t => (t.dom 0).st == .on && t.sched.length == 5 && t.sched.contains (1, .dom 0 .off) && t.errLog == [],
    goes (exec (.pgoodLoss 64) live) fun t => t.sched.contains (1, .dom 64 .off) && t.errLog.length == 1,
    goes (exec (.pgoodLoss 83) live) fun t => t.sched.contains (1, .thaw [83]) && t.errLog == []] = true := by decide +kernel

/-! ### Mesh events (R342 to R361) -/

def ms0p (f : Mesh → Mesh) (s : State) : State := { s with mesh := f s.mesh }
def p08 : Pkt := { pkt 8 (.req (rq0 .rdS)) with src := 0 }
def rtr0 (p : Pkt) (s : State) : State := put p s

/-- A grant at router 0 toward stop 8, the arrival of the flit with each check, its replay, the escape channel. -/
theorem test_mesh : each [
    (put p08 live).bestOf ((put p08 live).candidates 0 3) == some (0, p08) && goes (exec (.routerGrant 0 3) (put p08 live)) fun t =>
      (t.mesh.pkts.map fun p => (p.at', p.link)) == [(some (8, 1), true)],
    goes (exec (.flitArrival 0 .ok) (put { p08 with at' := some (8, 1), link := true } live)) fun t => (t.mesh.pkts.map fun p => p.link) == [false],
    goes (exec (.flitArrival 0 .corrected) (put { p08 with at' := some (8, 1), link := true } live)) fun t => (t.mesh.pkts.map fun p => p.link) == [false],
    goes (exec (.flitArrival 0 .uncorrectable) (put { p08 with at' := some (8, 1), link := true } live)) fun t => t.mesh.replays == [(8, 1)],
    goes (exec (.replay 8 (some 1)) (ms0p (fun m => { m with replays := [(8, 1)] }) live)) fun t => t.mesh.replays == [] && (t.errLog.map fun e => e.chn) == [32],
    goes (exec (.replay 8 none) live) fun t => t.errLog.map (fun e => (e.chk, e.chn)) == [(5, 8)],
    goes (exec (.escapeFallback 0) (ms0p (fun m => { m with pkts := p08 :: List.replicate 4 { p08 with at' := some (8, 1) } }) { live with clk := { tick := 0, phase := 8 } })) fun t =>
      (t.mesh.pkts.map fun p => (p.esc, p.link)) == [(true, true), (false, false), (false, false), (false, false), (false, false)],
    goes (exec (.escapeFallback 0) (ms0p (fun m => { m with pkts := p08 :: List.replicate 4 { p08 with at' := some (8, 1) } }) { live with clk := { tick := 0, phase := 7 } })) fun t =>
      (t.mesh.pkts.map fun p => p.esc) == [false, false, false, false, false]] = true := by decide +kernel

def swap0 (f : Bool) (cmd : Option (BitVec 512)) : Swap := { t0 := 3, flipped := f, flipTick := 7, cmd := cmd }

theorem test_swap : each [
    goes (exec .routeEpochFlip (ms0p (fun m => { m with swap := some (swap0 false none) }) live)) fun t => t.mesh.rtep && t.clk.tick == 7,
    goes (exec .routeEpochDrained (withL (aLong 0x408 (.freeze [])) (ms0p (fun m => { m with swap := some (swap0 true (some (pk 0x408 0xFF 0 []))) }) live))) fun t =>
      t.mesh.swap == none && done t,
    goes (exec .routeEpochDrained (ms0p (fun m => { m with swap := some (swap0 true none), queued := [(1, 20, 0, none)] }) live)) fun t =>
      t.mesh.queued == [] && t.mesh.swap.isSome,
    goes (exec .rteDrainTmoExpiry (ms0p (fun m => { m with swap := some (swap0 true none) }) live)) fun t => t.halt == .running,
    goes (exec .rteDrainTmoExpiry (put { p08 with rte := true } (ms0p (fun m => { m with swap := some (swap0 true none) }) live))) fun _ => true] = true := by
  decide +kernel

/-! ### Churn, scrubs, telemetry, retirement (R97, R98, R414 to R425, R481, R484 to R488) -/

def firned (s : State) : State := s.modInst 0 fun i => { i with firnLog2 := 12 }
def walkOf (c : Chan) (s : State) : State := { s with ret := { s.ret with chans := [c], running := [c] }, arbMode := .recovery }

theorem test_calibration_scrub : each [
    goes (exec (.calibrationWrite 0 .ok) (hs1 (fun x => { x with calQ := [(3, 160)], cal := [(3, { mean := 320, min := 160, max := 160, chg := false })] }) live))
      fun t => (t.slice 0).calQ == [] && ((t.slice 0).cal.map fun e => (e.1, e.2.chg)) == [(3, true)],
    goes (exec (.calibrationWrite 0 .uncorrectable) (hs1 (fun x => { x with calQ := [(3, 160)] }) live)) fun t => tGet t.obs.pre (hsCtr 0 22) == some 1,
    goes (exec (.sfScrub 0 [(0, .uncorrectable)]) (hs1 (fun x => { x with scrubSet := 264, sf := [(4224, entOf (Dir.shared [3]))] }) live)) fun t =>
      (t.slice 0).scrubSet == 265 && ((t.slice 0).susp.map fun p => p.1) == [264] && (t.slice 0).sf == [],
    goes (exec (.sfScrub 0 []) (hs1 (fun x => { x with scrubSet := 16383 }) live)) fun t => (t.slice 0).scrubSet == 0 && tGet t.obs.pre (hsCtr 0 23) == some 1,
    (firned live).nextScrub 0 == some (0, 0) && goes (exec (.firnScrub 0) (firned live)) fun t => ((t.slice 0).facc.map fun a => a.kind) == [.scrub],
    (firned live).mayMove 0 0 == false && (firned (live.modInst 0 fun i => { i with rotBusy := true, rotGap := 1 })).mayMove 0 0 &&
      goes (exec (.rotationMove 0 0) (firned (live.modInst 0 fun i => { i with rotBusy := true, rotGap := 1 }))) fun t => ((t.slice 0).facc.map fun a => a.kind) == [.move],
    goes (exec (.rotationMove 0 0) (firned (live.modInst 0 fun i => { i with rotPend := 2, rotGap := 1 }))) fun t => (t.inst 0).rotBusy && (t.inst 0).rotPend == 1] = true := by
  decide +kernel

/-- A bucket at 2 and one at 1 leak; the walk passes an empty set, waits at a pinned entry and lets another go; a path's retirement ends. -/
theorem test_telemetry_retirement : each [
    goes (exec .telemetryEpoch { live with obs := { live.obs with pre := [(5, 2)] } }) fun t => t.obs.pre == [] && t.obs.incs == [(5, 2)],
    goes (exec .bucketLeak { live with buckets := [(1, 2), (2, 1)] }) fun t => t.buckets == [(1, 1)],
    goes (exec (.wayRetirementWalk 0) (walkOf { chk := 1, chn := 0 } (hs1 (fun x => { x with walk := some (0, 7) }) live))) fun t => (t.slice 0).walk == some (0, 8),
    goes (exec (.wayRetirementWalk 0) (walkOf { chk := 1, chn := 0 } ((trk1 (rq0 .rdS) (fun x => { x with active := true, ph := .data }) live).modSlice 0 fun x =>
      { x with walk := some (0, 264), sf := [(4224, entOf (Dir.shared [3]))] }))) fun t => (t.slice 0).walk == some (0, 264),
    goes (exec (.wayRetirementWalk 0) (walkOf { chk := 1, chn := 0 } (hs1 (fun x => { x with walk := some (0, 264), sf := [(4224, entOf (Dir.shared [3]))] }) live)))
      fun t => (t.slice 0).walk == some (0, 265) && (t.slice 0).sf == [],
    goes (exec .retirementProcedureEnd (walkOf { chk := 3, chn := 2 } live)) fun t => t.arbMode == .service && t.ret.running == [] && (t.errLog.map fun e => e.ecode) == [0x15],
    goes (exec .retirementProcedureEnd (walkOf { chk := 1, chn := 0 } live)) fun t => t.arbMode == .recovery && t.ret.running.length == 1] = true := by decide +kernel

/-- A bulk step, a sample or a move before the scrubs; the two scrubs in turn, then the telemetry; the exceptional slot. -/
theorem test_churn_order : each [
    goes (exec (.sfScrub 0 []) (hs1 (fun x => { x with calQ := [(3, 160)] }) live)) fun t =>
      (t.slice 0).sfWait == some [] && (t.slice 0).scrubSet == 0 && t.sched == [(64, .churnSlot 0)],
    goes (exec (.calibrationWrite 0 .ok) (hs1 (fun x => { x with calQ := [(3, 160)], sfWait := some [] }) live)) fun t =>
      (t.slice 0).sfWait == none && (t.slice 0).scrubSet == 1 && t.sched == [],
    (let s := firned (hs1 (fun x => { x with calQ := [(3, 160)] }) (live.modInst 0 fun i => { i with rotBusy := true, rotGap := 1 }))
     s.bulkReady 0 && goes (exec (.calibrationWrite 0 .ok) s) fun t => (t.slice 0).calQ.length == 1),
    (let s := firned (hs1 (fun x => { x with sfWait := some [], fsWait := true, telWait := true }) live)
     (s.slice 0).waits && !s.aheadOfScrub 0 && ((s.scrubSlot 0).slice 0).sfWait == none && ((s.scrubSlot 0).slice 0).fsWait && ((s.scrubSlot 0).slice 0).lastSf &&
       !(((s.scrubSlot 0).scrubSlot 0).slice 0).fsWait && (((s.scrubSlot 0).scrubSlot 0).slice 0).telWait && !((s.churn 0).slice 0).waits),
    (let s := hs1 (fun x => { x with calQ := [(3, 160)], sfWait := some [] }) { live with clk := { tick := 63, phase := 15 } }
     s.lastSlot && goes (exec (.calibrationWrite 0 .ok) s) fun t => (t.slice 0).sfWait == none && (t.slice 0).calQ.length == 1)] = true := by decide +kernel

/-! ### Trace (R434, R435, R438, R522) -/

def trec : TRec := { kind := 1, stop := 8, at' := { live.clk with tick := 0 }, body := 0, ci := none, lix := none }
def ob (f : Obs → Obs) (s : State) : State := { s with obs := f s.obs }

theorem test_trace : each [
    goes (exec (.traceRecord 8) (ob (fun o => { o with taps := [(8, [trec])] }) live)) fun t => t.obs.taps == [] && t.obs.buf == [trec],
    ((ob (fun o => { o with taps := [(8, [trec, trec, trec])] }) live).tapSend 8).mesh.pkts.map (fun p => (p.vnet, p.bodies)) == [(.mgt, [.trace trec, .trace trec])],
    goes (exec (.traceRecord 8) (onDoms [] (ob (fun o => { o with taps := [(8, [trec, trec, trec])] }) live))) fun t => t.obs.taps == [(8, [trec])] && t.obs.buf == [] && t.mesh.pkts.length == 1,
    goes (exec (.traceOutput false 1) (ob (fun o => { o with ring := true, dumping := true, buf := [trec] }) (withL (aLong 0x70D .dump) live))) fun t => t.out.length == 1 && !t.obs.dumping && done t,
    goes (exec (.traceOutput true 1) (ob (fun o => { o with buf := [trec] }) live)) fun t => t.out == [.trace trec.word true],
    goes (exec (.counterIncrement 0) (ob (fun o => { o with incs := [(5, 2)], cnt := [(5, BitVec.allOnes 64)] }) live)) fun t => tGet t.obs.cnt 5 == some 1,
    goes (exec (.counterIncrement 0) (onDoms [] (ob (fun o => { o with incs := [(5, 2)] }) live))) fun t => t.obs.incs == [] && t.obs.cnt == []] = true := by decide +kernel

/-! ### Twin link (R386 to R412, R523) -/

/-- TW is ON and the link up; instance 0 in a role. -/
def twin (r : TRole) (st : ISt) (f : Inst → Inst) : State := onDoms [0, 32, 64, 72, 83] (withI (f { inst st with role := r, pep := 1, exact := true }) (tw rdy))
def lk (f : Tw → Tw) (s : State) : State := { s with tw := f s.tw }

/-- A record of a kind for instance 0: number, epoch, and what stands above bit 40. -/
def mrec (kind seq pep rest : Nat) : BitVec 256 := BitVec.ofNat 256 (kind + seq * 2 ^ 10 + pep * 2 ^ 26 + rest * 2 ^ 40)

theorem test_twin_link : each [
    goes (exec .twinLinkUp (lk (fun t => { t with lup := false, linkUp := false }) (twin .primary .active id))) fun t => t.tw.lup && t.out == [t.hello] && (t.out.any fun | .twinHello _ _ _ ps => ps.length == 64 && ps.take 1 == [(0, 1, .primary)] | _ => false) && t.regs.twinCause == 1,
    goes (exec .twinLinkUp (onDoms [] (lk (fun t => { t with lup := false, linkUp := false }) (twin .primary .active id)))) fun t => t.tw.lup && t.out == [],
    goes (exec (.twLupLow false) (twin .mirror .idle fun i => { i with strict := false })) fun t => !t.tw.lup && !t.tw.linkUp && !(t.inst 0).exact,
    goes (exec (.twLupLow true) (twin .primary .active id)) fun t => t.tw.lup && !t.tw.linkUp,
    goes (exec (.thello 0 1 1 []) (lk (fun t => { t with linkUp := false, plev := 0 }) (twin .primary .active id))) fun t => t.tw.linkUp && t.tw.plev == 1,
    goes (exec (.thello 3 4 3 []) (twin .primary .active id)) fun t => !t.tw.linkUp && t.tw.incompat,
    goes (exec (.thbSend .ok) (lk (fun t => { t with nextHb := 5 }) (twin .primary .active id))) fun t => t.clk.tick == 5 && t.out == [.twinBeat],
    (twin .primary .active id).twinIn && goes (exec (.twinPacket true) (twin .primary .active id)) fun t => t.tw.lastPkt == some 0 && t.regs.qce == [(3, 1)],
    goes (exec (.thbSend .uncorrectable) (lk (fun t => { t with nextHb := 5 }) (twin .primary .active id))) fun t => !t.tw.linkUp,
    goes (exec .twinLeaseLapse (lk (fun t => { t with lastPkt := some 0 }) (twin .primary .active id))) fun t => (t.inst 0).lapsed && t.clk.tick == (BitVec.ofNat 48 t.params.twLease),
    goes (exec (.mack 0 4 1) (twin .primary .active fun i => { i with rseq := 5 })) fun t => (t.inst 0).acked == 5] = true := by decide +kernel

/-- The partner's TWIN_ROLE, TWIN_RELEASE and TWIN_HANDOVER, and a forwarded REGION_CLEAR. -/
theorem test_mrule : each [
    goes (exec (.mrule (mrec 8 0 1 0) (pk 0x601 0 0 [(1, 0)])) (twin .none .idle id)) fun t => (t.inst 0).role == .mirror && (t.inst 0).strict && t.out.length == 1,
    goes (exec (.mrule (mrec 8 0 1 0) (pk 0x602 0 0 [])) (twin .mirror .idle id)) fun t => (t.inst 0).role == .none,
    goes (exec (.mrule (mrec 8 0 1 0) (pk 0x603 0 0 [])) (twin .mirror .idle id)) fun t => (t.inst 0).role == .primary && (t.inst 0).pep == 2,
    goes (exec (.mrule (mrec 8 0 1 0) (pk 0x202 0 0 [(1, 1)])) (twin .mirror .idle fun i => { i with regions := [(1, rg .coh)] })) fun t =>
      (t.inst 0).regions == [] && (t.inst 0).ruleg == 1 && t.out == [.twinMack 0 0 1]] = true := by decide +kernel

def mirror (f : Inst → Inst) : State := onDoms [0, 32, 64, 72, 83] (twin .mirror .idle f)
def ml (g : Option (BitVec 16)) (e : Bool) : MirLine := { ci := 0, lix := 264, gid := g, ended := e, psn := false, data := 7 }
def stored (l : List MirLine) (s : State) : State := lk (fun t => { t with store := l }) s

theorem test_records : each [
    goes (exec (.mdir (mrec 1 0 1 (264 + 3 * 2 ^ 46 + 3 * 2 ^ 49))) (mirror id)) fun t => ((t.slice 0).sf.map fun e => (e.1, e.2.st)) == [(4224, .exo)] && (t.inst 0).rseq == 1,
    goes (exec (.mline (mrec 2 0 1 264) 7) (mirror id)) fun t => t.tw.store == [ml none true] && t.out == [.twinMack 0 0 1],
    goes (exec (.mldone (mrec 3 0 1 264)) (stored [ml none true] (mirror id))) fun t => t.tw.store == [],
    goes (exec (.mgline (mrec 4 0 1 (264 + 6 * 2 ^ 46)) 7) (mirror id)) fun t => t.tw.store == [ml (some 6) false],
    goes (exec (.mgend (mrec 5 0 1 (6 * 2 ^ 46))) (stored [ml (some 6) false] (mirror id))) fun t => t.tw.store == [ml (some 6) true],
    goes (exec (.mrot (mrec 6 0 1 (9 * 2 ^ 46 + 4 * 2 ^ 72))) (mirror id)) fun t => (t.inst 0).rotStart == 9 && (t.inst 0).rotGap == 4,
    goes (exec (.mhold (mrec 7 0 1 (264 + 3 * 2 ^ 46 + 5 * 2 ^ 56))) (mirror id)) fun t => ((t.slice 0).hold.map fun h => (h.cax, h.expiry)) == [(3, 5)],
    goes (exec (.msynce (mrec 9 0 1 0)) (mirror fun i => { i with exact := false })) fun t => (t.inst 0).exact,
    goes (exec (.mline (mrec 2 3 1 264) 7) (mirror id)) fun t => !(t.inst 0).exact && t.out == []] = true := by decide +kernel

/-- The same records in another pair epoch are discarded. -/
theorem test_records_discarded : each ([.mdir (mrec 1 0 2 264), .mline (mrec 2 0 2 264) 7, .mldone (mrec 3 0 2 264), .mgline (mrec 4 0 2 264) 7, .mgend (mrec 5 0 2 0),
    .mrot (mrec 6 0 2 0), .mhold (mrec 7 0 2 264), .msynce (mrec 9 0 2 0)].map fun c =>
      goes (exec c (mirror id)) fun t => tGet t.obs.pre 0xE82 == some 1 && t.insts == (mirror id).insts) = true := by decide +kernel

/-! ### Queue overruns, ends of bulk operations (R306, R310, R465, R527, R528) -/

theorem test_overruns : each ([.psOut 0 1, .psIn 0 1 2, .psDin 0 2, .psDout 0, .msCmd 0 1, .msCpl 0 1 0, .msDout 0, .msDin 0 0, .cmdRing, .replyRing, .trace, .twinIn, .twinOut].map fun q =>
    goes (exec (.queueOverrun q) live) fun t => t.errLog.length == (match q with | .psIn _ _ _ | .psDin _ _ | .msCpl _ _ _ | .msDin _ _ | .cmdRing | .twinIn => 1 | _ => 0)) = true := by
  decide +kernel

theorem test_bulk_ends : each [
    goes (exec (.bulkOperationEnd 64) (withL (aLong 0x50A .wait) (withOp { bop .rotate 0 [] with cmd := pk 0x50A 0xFF 0 [] } live))) fun t => t.be.ops == [] && done t,
    goes (exec (.bulkOperationEnd 64) (withL (aLong 0x50A .wait) (withOp { bop .rotate 0 [] with cmd := pk 0x50A 0xFF 0 [], ended := some .aborted, stopped := true } live)))
      fun t => t.be.ops == [] && said t .aborted,
    goes (exec (.bulkOperationEnd 64) (withOp (bop .rotate 0 []) live)) fun t => t.be.ops == []] = true := by decide +kernel

/-! ### Commands that are not well-formed -/

/-- A packet with another row's opcode, and one of format 0 or 3. -/
theorem test_wf_packet : each [
    (Instr.bootStatus (pk 0x001 0xFF 0 [])).wf, !(Instr.bootStatus (pk 0x002 0xFF 0 [])).wf, !(Instr.bootStatus (pk 0x001 0xFF 0 [] - 1)).wf,
    (Instr.bootStatus (pk 0x001 0xFF 0 [] + 1)).wf, !(Instr.bootStatus (pk 0x001 0xFF 0 [] + 2)).wf,
    (Instr.sliceFold (pk 0x406 0xFF 0 []) 32).wf, !(Instr.sliceFold (pk 0x406 0xFF 0 []) 33).wf, !(Instr.sliceFold (pk 0x405 0xFF 0 []) 32).wf,
    (Instr.deferredCommandReread true 0 32).wf, !(Instr.deferredCommandReread true 0 33).wf] = true := by decide +kernel

/-- Counts and places outside their ranges: the reply ring, a queue of BE, a domain, a router's input, a stop. -/
theorem test_wf_ranges : each [
    (Instr.replyRingRoom 1 8 false).wf, !(Instr.replyRingRoom 1 9 false).wf, (Instr.replyRingRoom 256 0 false).wf, !(Instr.replyRingRoom 0 0 false).wf, !(Instr.replyRingRoom 257 0 false).wf,
    (Instr.bulkOperationEnd 64).wf, !(Instr.bulkOperationEnd 65).wf, (Instr.freezeFence 84).wf, !(Instr.freezeFence 85).wf, !(Instr.powerOffAck 85).wf,
    !(Instr.pgTimeoutExpiry 85).wf, !(Instr.frzDrainTmoExpiry 85).wf, !(Instr.powerGood 85).wf, !(Instr.thawReady 85).wf, !(Instr.pgoodLoss 127).wf,
    (Instr.routerGrant 55 4).wf, !(Instr.routerGrant 56 4).wf, !(Instr.routerGrant 55 5).wf, (Instr.replay 0 (some 0)).wf, !(Instr.replay 56 (some 0)).wf, !(Instr.replay 0 (some 5)).wf,
    (Instr.traceRecord 55).wf, !(Instr.traceRecord 56).wf] = true := by decide +kernel

/-- A message word of another kind, a check that names a word twice or outside the line, a THELLO whose levels contradict, a record of another kind. -/
theorem test_wf_words : each [
    (Instr.request 0 1 0 0 (some 0)).wf, (Instr.request 0 0 0 0 (some 0)).wf, (Instr.request 0 15 0 0 (some 0)).wf, !(Instr.request 0 2 0 0 (some 0)).wf, !(Instr.request 0 5 0 0 (some 0)).wf,
    (Instr.snoopResponse 0 2).wf, !(Instr.snoopResponse 0 1).wf,
    (Instr.sfScrub 0 [(15, .corrected), (0, .ok)]).wf, !(Instr.sfScrub 0 [(16, .corrected)]).wf, !(Instr.sfScrub 0 [(3, .ok), (3, .corrected)]).wf,
    (Instr.firnLookupData 0 [(3, .uncorrectable)]).wf, !(Instr.firnLookupData 0 [(16, .ok)]).wf,
    (Instr.thello 1 2 2 [(0, 1, .mirror)]).wf, !(Instr.thello 0 2 2 []).wf, !(Instr.thello 3 2 2 []).wf, !(Instr.thello 1 1 1 [(0, 1, .mirror), (0, 2, .mirror)]).wf] = true := by
  decide +kernel

theorem test_wf_records : each [
    (Instr.mdir 1).wf, !(Instr.mdir 2).wf, (Instr.mline 2 0).wf, !(Instr.mline 1 0).wf, (Instr.mldone 3).wf, !(Instr.mldone 4).wf, (Instr.mgline 4 0).wf,
    !(Instr.mgline 3 0).wf, (Instr.mgend 5).wf, !(Instr.mgend 6).wf, (Instr.mrot 6).wf, !(Instr.mrot 5).wf, (Instr.mhold 7).wf, !(Instr.mhold 8).wf,
    (Instr.mrule 8 0).wf, !(Instr.mrule 9 0).wf, (Instr.msynce 9).wf, !(Instr.msynce 0).wf] = true := by decide +kernel

/-! ### Statements about the whole block -/

/-- A step with a command in front, and on an empty queue: in the midst of a tick, at its end, and with the cold reset held. -/
theorem test_step : each [
    goes (step { live with pending := [.twinPacket false, .hintUpdate] }) fun t => t.pending == [.hintUpdate],
    goes (step live) fun t => t.clk.phase == 1 && t.arb0.lfsr == 0xAF568003,
    goes (step { live with clk := { live.clk with phase := 15 }, sched := [(1, .inst 0 .draining)] }) fun t =>
      t.clk.phase == 0 && t.clk.tick == 1 && (t.inst 0).st == .draining && t.sched == [],
    goes (step { live with arb0 := { live.arb0 with seed := some 7 } }) fun t => t.arb0.lfsr == 7 && t.arb0.seed == none,
    goes (step { live with coldLow := true }) fun t => t.clk.phase == 0] = true := by decide +kernel

/-- A form that holds with bytes listed, and one that does not: a zero byte, and addresses that do not rise. -/
theorem test_ramOk : each [
    State.reset.ramOk, ({ rdy with mc := { rdy.mc with img := [(0, 1), (9, 2)] } } : State).ramOk, !({ rdy with mc := { rdy.mc with img := [(0, 0)] } } : State).ramOk,
    !({ rdy with mc := { rdy.mc with store := [(9, 1), (3, 1)] } } : State).ramOk] = true := by decide +kernel

/-- Refused by a check (a reserved flag), and by the body (a profile read past its end). -/
theorem test_refused : each [
    ((opRow 0x102).any fun r => (after rdy (pk 0x102 0 0x80 [])).check (pk 0x102 0 0x80 []) r == some .malformed) &&
      goes (exec (.instEnable (pk 0x102 0 0x80 [])) rdy) fun t => said t .malformed && t.insts == rdy.insts && t.kept == rdy.kept,
    servedB 0x705 (pk 0x705 0xFF 0 [(1, 0), (1, 0), (2, 0x8000)]) rdy &&
      goes (exec (.profileRead (pk 0x705 0xFF 0 [(1, 0), (1, 0), (2, 0x8000)])) rdy) fun t => said t .malformed && t.kept == rdy.kept] = true := by decide +kernel

/-- 32 bytes of 0xFF at the start of an image, and at the last place of the staging buffer. -/
theorem test_bytes : each [
    runs 0x003 (pk 0x003 0xFF 0 [(4, 0), (12, 0), (32, 2 ^ 256 - 1)]) .imgData (boot .loading) (fun t => t.mc.imgLen == 0) (fun t => memGet t.mc.img 0 == 255 && memGet t.mc.img 31 == 255 &&
      memGet t.mc.img 32 == 0 && t.mc.imgLen == 32),
    runs 0x702 (pk 0x702 0xFF 0 [(2, 0x7FE0), (14, 0), (32, 2 ^ 256 - 1)]) .profileStage rdy (fun _ => true) (fun t => memGet t.mc.staging 0x7FE0 == 255 && memGet t.mc.staging 0x7FFF == 255 &&
      memGet t.mc.staging 0x7FDF == 0)] = true := by decide +kernel

def fault (n : Nat) (s : State) (ph : Nat := 1) : State :=
  ({ s with clk := { s.clk with phase := BitVec.ofNat 4 ph }, buckets := [(chanKey { chk := 3, chn := 2 }, n)] } : State).faultEv 2 { chk := 3, chn := 2 } 0 0x18

/-- The event before LB_THR, that which reaches it, one in the cycle of a leak (tick 0 phase 0: the fall comes first), and one at 255. -/
theorem test_buckets : each [
    (fault (live.params.lbThr - 1) live 0).ret.running == [] && ((fault 5 live 0).buckets.map fun b => b.2) == [5],
    (fault (live.params.lbThr - 2) live).ret.chans == [] && (fault (live.params.lbThr - 2) live).arbMode == .service,
    (fault (live.params.lbThr - 1) live).ret.running == [{ chk := 3, chn := 2 }] && (fault (live.params.lbThr - 1) live).arbMode == .recovery,
    (fault (live.params.lbThr - 1) { live with arbMode := .start }).arbMode == .start,
    ((fault 255 live).buckets.map fun b => b.2) == [255]] = true := by decide +kernel

theorem test_warm_reset : each [
    ({ live with clk := { live.clk with tick := 77 }, vlog := [vio], errLog := [err 1] } : State).warmReset.clk.tick == 77,
    ({ live with vlog := [vio], errLog := [err 1] } : State).warmReset.vlog == [vio] && live.warmReset.insts == [] && live.warmReset.agents == []] = true := by decide +kernel

/-- R42: two lines of one set, and two of one tag. -/
theorem test_line : each [
    lineOf (lineTag 264) (lineSet 264) == 264, lineTag (264 + 2 ^ 14) == 1, lineSet (264 + 2 ^ 14) != lineSet 264,
    lineOf (lineTag 0x123456789AB) (lineSet 0x123456789AB) == 0x123456789AB] = true := by decide +kernel

end Sys2Proof.Tests
end

namespace Sys2Proof.Machine

open Sys2Proof

/-! ### The outcome of a command: what the shared operations answer -/

/-- The command goes on: it ends in a next state, neither in a fault nor in a refusal. -/
def Answers (o : Res) : Prop := ∃ t : State, o = .next t

theorem Answers.next (t : State) : Answers (.next t) := ⟨t, rfl⟩

/-- A row of the MC: not its opcode, no slot, or the slot served (a refused command has its reply, R462). -/
theorem mcRow_answers (opc : Nat) (w : BitVec 512) (b : Body) (s : State) : Answers (mcRow opc w b s) := by
  fun_cases mcRow opc w b s <;> exact .next _

/-- A record for the Mirror: not for it, discarded and counted, or taken (R407). -/
theorem mirRow_answers (kind : BitVec 4) (w : BitVec 256) (f : State → State) (s : State) : Answers (mirRow kind w f s) := by
  fun_cases mirRow kind w f s <;> exact .next _

/-- A register write: the window is closed, the access is refused with its completion (R240), or the write is acknowledged. -/
theorem State.regWrite_answers (s : State) (a : RegAcc) (f : State → State) : Answers (s.regWrite a f) := by
  fun_cases State.regWrite s a f <;> exact .next _

theorem State.requestWord_answers (s : State) (ps : Stn) (w : BitVec 160) (a b : BitVec 128) : Answers (s.requestWord ps w a b) := by
  fun_cases State.requestWord s ps w a b <;> exact .next _

theorem State.completionWord_answers (s : State) (ms : Stn) (w : BitVec 160) (d : Line) (rerr : Bool) :
    Answers (s.completionWord ms w d rerr) := by
  fun_cases State.completionWord s ms w d rerr <;> exact .next _

/-! ### One meaning at a time

Each meaning is a tree of tests: the happening cannot occur and the state stays (log entry 1), or it has its effect. -/

/-! #### Port stations, agents and the lottery -/

@[simp] theorem execRequest_answers (ps : Stn) (w : BitVec 160) (a b : BitVec 128) (fixes : Option Nat) (s : State) :
    Answers (execRequest ps w a b fixes s) := by
  fun_cases execRequest ps w a b fixes s
  · exact .next _
  · exact State.requestWord_answers ..
  · exact .next _

@[simp] theorem execRequestReinject_answers (ps : Stn) (mid : Nat) (s : State) : Answers (execRequestReinject ps mid s) := by
  fun_cases execRequestReinject ps mid s <;> exact .next _

@[simp] theorem execRetry_answers (k : Nat) (s : State) : Answers (execRetry k s) := by
  fun_cases execRetry k s <;> exact .next _

@[simp] theorem execWbcr_answers (k : Nat) (s : State) : Answers (execWbcr k s) := by
  fun_cases execWbcr k s <;> exact .next _

@[simp] theorem execWradm_answers (k : Nat) (s : State) : Answers (execWradm k s) := by
  fun_cases execWradm k s <;> exact .next _

@[simp] theorem execRspack_answers (k : Nat) (s : State) : Answers (execRspack k s) := by
  fun_cases execRspack k s <;> exact .next _

@[simp] theorem execCompletionDelivery_answers (k : Nat) (s : State) : Answers (execCompletionDelivery k s) := by
  fun_cases execCompletionDelivery k s <;> exact .next _

@[simp] theorem execSnoopDelivery_answers (k : Nat) (s : State) : Answers (execSnoopDelivery k s) := by
  fun_cases execSnoopDelivery k s <;> exact .next _

@[simp] theorem execSnpbusy_answers (k : Nat) (s : State) : Answers (execSnpbusy k s) := by
  fun_cases execSnpbusy k s <;> exact .next _

@[simp] theorem execSnoopResponse_answers (ps : Stn) (w : BitVec 160) (s : State) : Answers (execSnoopResponse ps w s) := by
  fun_cases execSnoopResponse ps w s <;> exact .next _

@[simp] theorem execGpfReq_answers (ps : Stn) (s : State) : Answers (execGpfReq ps s) := by
  fun_cases execGpfReq ps s <;> exact .next _

@[simp] theorem execPevDown_answers (ps : Stn) (lp : Lp) (s : State) : Answers (execPevDown ps lp s) := by
  fun_cases execPevDown ps lp s <;> exact .next _

@[simp] theorem execPevUp_answers (ps : Stn) (lp : Lp) (blk : Bool) (s : State) : Answers (execPevUp ps lp blk s) := by
  fun_cases execPevUp ps lp blk s <;> exact .next _

@[simp] theorem execPevReset_answers (ps : Stn) (lp : Lp) (s : State) : Answers (execPevReset ps lp s) := by
  fun_cases execPevReset ps lp s <;> exact .next _

@[simp] theorem execPevGone_answers (ps : Stn) (lp : Lp) (s : State) : Answers (execPevGone ps lp s) := by
  fun_cases execPevGone ps lp s <;> exact .next _

@[simp] theorem execGraceTimerExpiry_answers (rq : Rqid) (s : State) : Answers (execGraceTimerExpiry rq s) := by
  fun_cases execGraceTimerExpiry rq s <;> exact .next _

@[simp] theorem execSessionDrain_answers (rq : Rqid) (s : State) : Answers (execSessionDrain rq s) := by
  fun_cases execSessionDrain rq s <;> exact .next _

@[simp] theorem execAgentSweepEnd_answers (rq : Rqid) (s : State) : Answers (execAgentSweepEnd rq s) := by
  fun_cases execAgentSweepEnd rq s <;> exact .next _

@[simp] theorem execAgentDisableDrain_answers (rq : Rqid) (s : State) : Answers (execAgentDisableDrain rq s) := by
  fun_cases execAgentDisableDrain rq s <;> exact .next _

@[simp] theorem execLotteryDraw_answers (e : Eng) (s : State) : Answers (execLotteryDraw e s) := by
  fun_cases execLotteryDraw e s <;> exact .next _

@[simp] theorem execGrantEnd_answers (e : Eng) (s : State) : Answers (execGrantEnd e s) := by
  fun_cases execGrantEnd e s <;> exact .next _

@[simp] theorem execHoldWatchdogExpiry_answers (e : Eng) (s : State) : Answers (execHoldWatchdogExpiry e s) := by
  fun_cases execHoldWatchdogExpiry e s <;> exact .next _

@[simp] theorem execEmergencyPreempt_answers (s : State) : Answers (execEmergencyPreempt s) := by
  fun_cases execEmergencyPreempt s <;> exact .next _

@[simp] theorem execHintUpdate_answers (s : State) : Answers (execHintUpdate s) := .next _

/-! #### Bulk work and memory stations -/

@[simp] theorem execBulkStepIssue_answers (s : State) : Answers (execBulkStepIssue s) := by
  fun_cases execBulkStepIssue s <;> exact .next _

@[simp] theorem execBulkStepComplete_answers (n : Nat) (s : State) : Answers (execBulkStepComplete n s) := by
  fun_cases execBulkStepComplete n s <;> exact .next _

@[simp] theorem execMemoryCommand_answers (k : Nat) (s : State) : Answers (execMemoryCommand k s) := by
  fun_cases execMemoryCommand k s <;> exact .next _

@[simp] theorem execMemoryPortCompletion_answers (ms : Stn) (w : BitVec 160) (d : Line) (fixes : PortCheck) (s : State) :
    Answers (execMemoryPortCompletion ms w d fixes s) := by
  fun_cases execMemoryPortCompletion ms w d fixes s
  · exact .next _
  · exact State.completionWord_answers ..
  · exact .next _

/-! #### Home slices -/

@[simp] theorem execRequestAdmission_answers (a : SfLook) (s : State) : Answers (execRequestAdmission a s) := by
  fun_cases execRequestAdmission a s <;> exact .next _

@[simp] theorem execMw_answers (k : Nat) (s : State) : Answers (execMw k s) := by
  fun_cases execMw k s <;> exact .next _

@[simp] theorem execCln_answers (k : Nat) (s : State) : Answers (execCln k s) := by
  fun_cases execCln k s <;> exact .next _

@[simp] theorem execBic_answers (k : Nat) (s : State) : Answers (execBic k s) := by
  fun_cases execBic k s <;> exact .next _

@[simp] theorem execSliceSnoopResponse_answers (k : Nat) (s : State) : Answers (execSliceSnoopResponse k s) := by
  fun_cases execSliceSnoopResponse k s <;> exact .next _

@[simp] theorem execSnoopTimeout_answers (hs : Hs) (t : Nat) (c : Cax) (s : State) : Answers (execSnoopTimeout hs t c s) := by
  fun_cases execSnoopTimeout hs t c s <;> exact .next _

@[simp] theorem execHoldWindowExpiry_answers (hs : Hs) (lix : Lix) (c : Cax) (s : State) : Answers (execHoldWindowExpiry hs lix c s) := by
  fun_cases execHoldWindowExpiry hs lix c s <;> exact .next _

@[simp] theorem execMemoryCompletion_answers (k : Nat) (s : State) : Answers (execMemoryCompletion k s) := by
  fun_cases execMemoryCompletion k s <;> exact .next _

@[simp] theorem execFirnLookupData_answers (k : Nat) (errs : List (Nat × EccErr)) (s : State) : Answers (execFirnLookupData k errs s) := by
  fun_cases execFirnLookupData k errs s <;> exact .next _

@[simp] theorem execOverflowInstallRetry_answers (hs : Hs) (s : State) : Answers (execOverflowInstallRetry hs s) := by
  fun_cases execOverflowInstallRetry hs s <;> exact .next _

@[simp] theorem execVictimBufferRetry_answers (hs : Hs) (t : Nat) (s : State) : Answers (execVictimBufferRetry hs t s) := by
  fun_cases execVictimBufferRetry hs t s <;> exact .next _

@[simp] theorem execPlbRetry_answers (hs : Hs) (t : Nat) (s : State) : Answers (execPlbRetry hs t s) := by
  fun_cases execPlbRetry hs t s <;> exact .next _

@[simp] theorem execInternalEntryRetry_answers (hs : Hs) (n : Nat) (s : State) : Answers (execInternalEntryRetry hs n s) := by
  fun_cases execInternalEntryRetry hs n s <;> exact .next _

@[simp] theorem execPostThrReport_answers (ms : Stn) (s : State) : Answers (execPostThrReport ms s) := by
  fun_cases execPostThrReport ms s <;> exact .next _

@[simp] theorem execLck_answers (k : Nat) (s : State) : Answers (execLck k s) := by
  fun_cases execLck k s <;> exact .next _

@[simp] theorem execLckn_answers (k : Nat) (s : State) : Answers (execLckn k s) := by
  fun_cases execLckn k s <;> exact .next _

@[simp] theorem execGrelw_answers (r : Release) (s : State) : Answers (execGrelw r s) := by
  fun_cases execGrelw r s <;> exact .next _

@[simp] theorem execGrel_answers (k : Nat) (s : State) : Answers (execGrel k s) := by
  fun_cases execGrel k s <;> exact .next _

@[simp] theorem execGrela_answers (k : Nat) (s : State) : Answers (execGrela k s) := by
  fun_cases execGrela k s <;> exact .next _

@[simp] theorem execDpullData_answers (ps : Stn) (dst : Dst) (d : Line) (m : Mask) (s : State) : Answers (execDpullData ps dst d m s) := by
  fun_cases execDpullData ps dst d m s <;> exact .next _

@[simp] theorem execForwardedRequest_answers (k : Nat) (s : State) : Answers (execForwardedRequest k s) := by
  fun_cases execForwardedRequest k s <;> exact .next _

@[simp] theorem execForwardedEntryFreed_answers (k : Nat) (s : State) : Answers (execForwardedEntryFreed k s) := by
  fun_cases execForwardedEntryFreed k s <;> exact .next _

/-! #### Transaction engines -/

@[simp] theorem execAtomicop_answers (k : Nat) (s : State) : Answers (execAtomicop k s) := by
  fun_cases execAtomicop k s <;> exact .next _

@[simp] theorem execAtomicopStart_answers (te : Bool) (s : State) : Answers (execAtomicopStart te s) := by
  fun_cases execAtomicopStart te s <;> exact .next _

@[simp] theorem execNmaResult_answers (k : Nat) (s : State) : Answers (execNmaResult k s) := by
  fun_cases execNmaResult k s <;> exact .next _

@[simp] theorem execDescriptorCopy_answers (te : Bool) (s : State) : Answers (execDescriptorCopy te s) := by
  fun_cases execDescriptorCopy te s <;> exact .next _

@[simp] theorem execDescriptorData_answers (k : Nat) (s : State) : Answers (execDescriptorData k s) := by
  fun_cases execDescriptorData k s <;> exact .next _

@[simp] theorem execGroupStart_answers (te : Bool) (s : State) : Answers (execGroupStart te s) := by
  fun_cases execGroupStart te s <;> exact .next _

@[simp] theorem execLact_answers (k : Nat) (s : State) : Answers (execLact k s) := by
  fun_cases execLact k s <;> exact .next _

@[simp] theorem execLgnt_answers (k : Nat) (err : Bool) (s : State) : Answers (execLgnt k err s) := by
  fun_cases execLgnt k err s <;> exact .next _

@[simp] theorem execLnack_answers (k : Nat) (s : State) : Answers (execLnack k s) := by
  fun_cases execLnack k s <;> exact .next _

@[simp] theorem execStatusRecordCmp_answers (k : Nat) (s : State) : Answers (execStatusRecordCmp k s) := by
  fun_cases execStatusRecordCmp k s <;> exact .next _

@[simp] theorem execUncAccessRetry_answers (k : Nat) (s : State) : Answers (execUncAccessRetry k s) := by
  fun_cases execUncAccessRetry k s <;> exact .next _

/-! #### Registers -/

@[simp] theorem execDoorbell_answers (a : RegAcc) (s : State) : Answers (execDoorbell a s) := by
  fun_cases execDoorbell a s
  · exact State.regWrite_answers ..
  · exact .next _

@[simp] theorem execDeferredDoorbellTest_answers (ci : Ci) (q : Bool) (s : State) : Answers (execDeferredDoorbellTest ci q s) := by
  fun_cases execDeferredDoorbellTest ci q s <;> exact .next _

@[simp] theorem execQueueEnable_answers (a : RegAcc) (s : State) : Answers (execQueueEnable a s) := by
  fun_cases execQueueEnable a s
  · exact .next _
  · exact State.regWrite_answers ..
  · exact .next _

@[simp] theorem execQueueDisable_answers (a : RegAcc) (s : State) : Answers (execQueueDisable a s) := by
  fun_cases execQueueDisable a s
  · exact .next _
  · exact State.regWrite_answers ..
  · exact .next _

@[simp] theorem execPlacementWrite_answers (a : RegAcc) (s : State) : Answers (execPlacementWrite a s) := by
  fun_cases execPlacementWrite a s
  · exact State.regWrite_answers ..
  · exact .next _

@[simp] theorem execSqnConsWrite_answers (a : RegAcc) (s : State) : Answers (execSqnConsWrite a s) := by
  fun_cases execSqnConsWrite a s
  · exact State.regWrite_answers ..
  · exact .next _

@[simp] theorem execWkick_answers (a : RegAcc) (s : State) : Answers (execWkick a s) := by
  fun_cases execWkick a s
  · exact State.regWrite_answers ..
  · exact .next _

@[simp] theorem execRegisterWrite_answers (a : RegAcc) (s : State) : Answers (execRegisterWrite a s) := by
  fun_cases execRegisterWrite a s
  · exact .next _
  · exact State.regWrite_answers ..

@[simp] theorem execRefusedRegisterRead_answers (a : RegAcc) (s : State) : Answers (execRefusedRegisterRead a s) := by
  fun_cases execRefusedRegisterRead a s <;> exact .next _

/-! #### Folds and power domains -/

@[simp] theorem execSetHandover_answers (hs : Hs) (set : BitVec 14) (s : State) : Answers (execSetHandover hs set s) := by
  fun_cases execSetHandover hs set s <;> exact .next _

@[simp] theorem execMovingEntryInstall_answers (k : Nat) (s : State) : Answers (execMovingEntryInstall k s) := by
  fun_cases execMovingEntryInstall k s <;> exact .next _

@[simp] theorem execFmark_answers (k : Nat) (s : State) : Answers (execFmark k s) := by
  fun_cases execFmark k s <;> exact .next _

@[simp] theorem execFmack_answers (k : Nat) (s : State) : Answers (execFmack k s) := by
  fun_cases execFmack k s <;> exact .next _

@[simp] theorem execFirnAgencyRequest_answers (k : Nat) (s : State) : Answers (execFirnAgencyRequest k s) := by
  fun_cases execFirnAgencyRequest k s <;> exact .next _

@[simp] theorem execFirnAgencyResult_answers (k : Nat) (s : State) : Answers (execFirnAgencyResult k s) := by
  fun_cases execFirnAgencyResult k s <;> exact .next _

@[simp] theorem execSliceMapEpochFlip_answers (s : State) : Answers (execSliceMapEpochFlip s) := by
  fun_cases execSliceMapEpochFlip s <;> exact .next _

@[simp] theorem execSliceMapEpochDrain_answers (s : State) : Answers (execSliceMapEpochDrain s) := by
  fun_cases execSliceMapEpochDrain s <;> exact .next _

@[simp] theorem execFreezeFence_answers (d : BitVec 7) (s : State) : Answers (execFreezeFence d s) := by
  fun_cases execFreezeFence d s <;> exact .next _

@[simp] theorem execPowerOffAck_answers (d : BitVec 7) (s : State) : Answers (execPowerOffAck d s) := by
  fun_cases execPowerOffAck d s <;> exact .next _

@[simp] theorem execPgTimeoutExpiry_answers (d : BitVec 7) (s : State) : Answers (execPgTimeoutExpiry d s) := by
  fun_cases execPgTimeoutExpiry d s <;> exact .next _

@[simp] theorem execFrzDrainTmoExpiry_answers (d : BitVec 7) (s : State) : Answers (execFrzDrainTmoExpiry d s) := by
  fun_cases execFrzDrainTmoExpiry d s <;> exact .next _

@[simp] theorem execNackFrozen_answers (k : Nat) (s : State) : Answers (execNackFrozen k s) := by
  fun_cases execNackFrozen k s <;> exact .next _

@[simp] theorem execPowerGood_answers (d : BitVec 7) (s : State) : Answers (execPowerGood d s) := by
  fun_cases execPowerGood d s <;> exact .next _

@[simp] theorem execThawReady_answers (d : BitVec 7) (s : State) : Answers (execThawReady d s) := by
  fun_cases execThawReady d s <;> exact .next _

@[simp] theorem execPgoodLoss_answers (d : BitVec 7) (s : State) : Answers (execPgoodLoss d s) := by
  fun_cases execPgoodLoss d s <;> exact .next _

/-! #### The mesh -/

@[simp] theorem execRouterGrant_answers (stop : Stop) (port : BitVec 3) (s : State) : Answers (execRouterGrant stop port s) := by
  fun_cases execRouterGrant stop port s <;> exact .next _

@[simp] theorem execFlitArrival_answers (k : Nat) (err : EccErr) (s : State) : Answers (execFlitArrival k err s) := by
  fun_cases execFlitArrival k err s <;> exact .next _

@[simp] theorem execReplay_answers (stop : Stop) (port : Option (BitVec 3)) (s : State) : Answers (execReplay stop port s) := by
  fun_cases execReplay stop port s <;> exact .next _

@[simp] theorem execEscapeFallback_answers (k : Nat) (s : State) : Answers (execEscapeFallback k s) := by
  fun_cases execEscapeFallback k s <;> exact .next _

@[simp] theorem execRouteEpochFlip_answers (s : State) : Answers (execRouteEpochFlip s) := by
  fun_cases execRouteEpochFlip s <;> exact .next _

@[simp] theorem execRouteEpochDrained_answers (s : State) : Answers (execRouteEpochDrained s) := by
  fun_cases execRouteEpochDrained s <;> exact .next _

@[simp] theorem execRteDrainTmoExpiry_answers (s : State) : Answers (execRteDrainTmoExpiry s) := by
  fun_cases execRteDrainTmoExpiry s <;> exact .next _

/-! #### Churn and observation -/

@[simp] theorem execCalibrationWrite_answers (hs : Hs) (err : EccErr) (s : State) : Answers (execCalibrationWrite hs err s) := by
  fun_cases execCalibrationWrite hs err s <;> exact .next _

@[simp] theorem execSfScrub_answers (hs : Hs) (errs : List (Nat × EccErr)) (s : State) : Answers (execSfScrub hs errs s) := by
  fun_cases execSfScrub hs errs s <;> exact .next _

@[simp] theorem execFirnScrub_answers (hs : Hs) (s : State) : Answers (execFirnScrub hs s) := by
  fun_cases execFirnScrub hs s <;> exact .next _

@[simp] theorem execRotationMove_answers (hs : Hs) (ci : Ci) (s : State) : Answers (execRotationMove hs ci s) := by
  fun_cases execRotationMove hs ci s <;> exact .next _

@[simp] theorem execTelemetryEpoch_answers (s : State) : Answers (execTelemetryEpoch s) := .next _

@[simp] theorem execCounterIncrement_answers (n : Nat) (s : State) : Answers (execCounterIncrement n s) := by
  fun_cases execCounterIncrement n s <;> exact .next _

@[simp] theorem execTraceRecord_answers (stop : Stop) (s : State) : Answers (execTraceRecord stop s) := by
  fun_cases execTraceRecord stop s <;> exact .next _

@[simp] theorem execTraceOutput_answers (ue : Bool) (fixes : Nat) (s : State) : Answers (execTraceOutput ue fixes s) := by
  fun_cases execTraceOutput ue fixes s <;> exact .next _

/-! #### Resets, faults and retirement -/

@[simp] theorem execColdRstRelease_answers (prof : BitVec 2) (twin : Bool) (s : State) : Answers (execColdRstRelease prof twin s) := by
  fun_cases execColdRstRelease prof twin s <;> exact .next _

@[simp] theorem execRomWaitEntry_answers (s : State) : Answers (execRomWaitEntry s) := by
  fun_cases execRomWaitEntry s <;> exact .next _

@[simp] theorem execBlockHalt_answers (s : State) : Answers (execBlockHalt s) := by
  fun_cases execBlockHalt s <;> exact .next _

@[simp] theorem execMcWatchdogExpiry_answers (s : State) : Answers (execMcWatchdogExpiry s) := by
  fun_cases execMcWatchdogExpiry s <;> exact .next _

@[simp] theorem execWarmRstLow_answers (s : State) : Answers (execWarmRstLow s) := by
  fun_cases execWarmRstLow s <;> exact .next _

@[simp] theorem execWarmResetEffect_answers (s : State) : Answers (execWarmResetEffect s) := by
  fun_cases execWarmResetEffect s <;> exact .next _

@[simp] theorem execWarmRstRelease_answers (prof : BitVec 2) (twin : Bool) (s : State) : Answers (execWarmRstRelease prof twin s) := by
  fun_cases execWarmRstRelease prof twin s <;> exact .next _

@[simp] theorem execImgVerifyEnd_answers (s : State) : Answers (execImgVerifyEnd s) := by
  fun_cases execImgVerifyEnd s <;> exact .next _

@[simp] theorem execAutordyEntry_answers (s : State) : Answers (execAutordyEntry s) := by
  fun_cases execAutordyEntry s <;> exact .next _

@[simp] theorem execReadyAssert_answers (s : State) : Answers (execReadyAssert s) := by
  fun_cases execReadyAssert s <;> exact .next _

@[simp] theorem execQueueOverrun_answers (q : XQueue) (s : State) : Answers (execQueueOverrun q s) := by
  fun_cases execQueueOverrun q s <;> exact .next _

@[simp] theorem execBucketLeak_answers (s : State) : Answers (execBucketLeak s) := .next _

@[simp] theorem execWayRetirementWalk_answers (hs : Hs) (s : State) : Answers (execWayRetirementWalk hs s) := by
  fun_cases execWayRetirementWalk hs s <;> exact .next _

@[simp] theorem execRetirementProcedureEnd_answers (s : State) : Answers (execRetirementProcedureEnd s) := by
  fun_cases execRetirementProcedureEnd s <;> exact .next _

/-! #### The twin pair and the profile store -/

@[simp] theorem execProfileMramWriteEnd_answers (s : State) : Answers (execProfileMramWriteEnd s) := by
  fun_cases execProfileMramWriteEnd s <;> exact .next _

@[simp] theorem execTwinLinkUp_answers (s : State) : Answers (execTwinLinkUp s) := by
  fun_cases execTwinLinkUp s <;> exact .next _

@[simp] theorem execTwLupLow_answers (ue : Bool) (s : State) : Answers (execTwLupLow ue s) := .next _

@[simp] theorem execThbSend_answers (err : EccErr) (s : State) : Answers (execThbSend err s) := by
  fun_cases execThbSend err s <;> exact .next _

@[simp] theorem execTwinPacket_answers (fix : Bool) (s : State) : Answers (execTwinPacket fix s) := by
  fun_cases execTwinPacket fix s <;> exact .next _

@[simp] theorem execTwinLeaseLapse_answers (s : State) : Answers (execTwinLeaseLapse s) := by
  fun_cases execTwinLeaseLapse s <;> exact .next _

@[simp] theorem execThello_answers (cmin cmax lvl : BitVec 8) (peps : List (Ci × BitVec 16 × TRole)) (s : State) :
    Answers (execThello cmin cmax lvl peps s) := by
  fun_cases execThello cmin cmax lvl peps s <;> exact .next _

@[simp] theorem execMdir_answers (w : BitVec 256) (s : State) : Answers (execMdir w s) := mirRow_answers ..

@[simp] theorem execMline_answers (w : BitVec 256) (d : Line) (s : State) : Answers (execMline w d s) := by
  unfold execMline
  exact mirRow_answers ..

@[simp] theorem execMldone_answers (w : BitVec 256) (s : State) : Answers (execMldone w s) := by
  unfold execMldone
  exact mirRow_answers ..

@[simp] theorem execMgline_answers (w : BitVec 256) (d : Line) (s : State) : Answers (execMgline w d s) := by
  unfold execMgline
  exact mirRow_answers ..

@[simp] theorem execMgend_answers (w : BitVec 256) (s : State) : Answers (execMgend w s) := mirRow_answers ..

@[simp] theorem execMrot_answers (w : BitVec 256) (s : State) : Answers (execMrot w s) := mirRow_answers ..

@[simp] theorem execMhold_answers (w : BitVec 256) (s : State) : Answers (execMhold w s) := mirRow_answers ..

@[simp] theorem execMsynce_answers (w : BitVec 256) (s : State) : Answers (execMsynce w s) := mirRow_answers ..

@[simp] theorem execMrule_answers (w : BitVec 256) (cmd : BitVec 512) (s : State) : Answers (execMrule w cmd s) := by
  fun_cases execMrule w cmd s <;> exact .next _

@[simp] theorem execMack_answers (ci : Ci) (rseq : BitVec 16) (pepl : BitVec 8) (s : State) : Answers (execMack ci rseq pepl s) := by
  fun_cases execMack ci rseq pepl s <;> exact .next _

/-! #### Rings, rules and long operations -/

@[simp] theorem execCommandSlotWrite_answers (w : BitVec 512) (fixes : Nat) (s : State) : Answers (execCommandSlotWrite w fixes s) := by
  fun_cases execCommandSlotWrite w fixes s
  · exact .next _
  · exact execQueueOverrun_answers ..
  · exact .next _

@[simp] theorem execDeferredCommandReread_answers (peerIdle : Bool) (peerDigest : BitVec 32) (peerSlices : Nat) (s : State) :
    Answers (execDeferredCommandReread peerIdle peerDigest peerSlices s) := by
  fun_cases execDeferredCommandReread peerIdle peerDigest peerSlices s <;> exact .next _

@[simp] theorem execReplyRingRoom_answers (n fixes : Nat) (ue : Bool) (s : State) : Answers (execReplyRingRoom n fixes ue s) := by
  fun_cases execReplyRingRoom n fixes ue s <;> exact .next _

@[simp] theorem execUnknownOpCommand_answers (w : BitVec 512) (ue : Bool) (s : State) : Answers (execUnknownOpCommand w ue s) := by
  fun_cases execUnknownOpCommand w ue s <;> exact .next _

@[simp] theorem execRuleGenerationSwitch_answers (ci : Ci) (s : State) : Answers (execRuleGenerationSwitch ci s) := by
  fun_cases execRuleGenerationSwitch ci s <;> exact .next _

@[simp] theorem execRuleChangeDrain_answers (ci : Ci) (s : State) : Answers (execRuleChangeDrain ci s) := by
  fun_cases execRuleChangeDrain ci s <;> exact .next _

@[simp] theorem execQuiesceIdle_answers (ci : Ci) (s : State) : Answers (execQuiesceIdle ci s) := by
  fun_cases execQuiesceIdle ci s <;> exact .next _

@[simp] theorem execBulkOperationEnd_answers (q : Nat) (s : State) : Answers (execBulkOperationEnd q s) := by
  fun_cases execBulkOperationEnd q s <;> exact .next _

/-! ### Every command -/

theorem exec_answers (c : Instr) (s : State) : Answers (exec c s) := by
  cases c with
  | bootStatus | imgBegin | imgData | imgEnd | bootStart | cmdProgress | instCreate | instEnable | instQuiesce | instReset | instRemove
  | instQuota | instStatus | irtAdd | irtRemove | iwMask | regionSet | regionClear | leasePass | regionRead | portSet | portRead | agentAdd
  | agentRemove | agentBind | agentUnbind | agentDisable | agentEnable | agentReadmit | agentRead | agentGrace | snoopCfg | calRead | calReset
  | pdFreeze | pdThaw | pdStatus | enginePark | engineUnpark | sliceFold | pwrCfg | meshFence | meshCfg | arbTickets | arbSystkt | arbSeed
  | arbMode | arbPreempt | arbHoldmax | engDisable | engEnable | arbStatus | firnRotate | firnRebuild | churnCfg | sfRebuild | twinRole
  | twinRelease | twinHandover | twinTakeover | twinResync | twinLevelRaise | twinCfg | twinStatus | profileApply | profileStage
  | profileCapture | profileCommit | profileRead | obsTraceCfg | obsTraceDump | obsCntClear | obsSetEvents | errRead | vlogRead | errCfg =>
    exact mcRow_answers ..
  | coldRstAssert | haltPostedLinePoison => exact .next _
  | _ => simp [exec]

/-- Settles O48: whatever the command, its meaning is a tree of tests with a next state at every leaf. -/
theorem everyCommandAnswersNext : Obligations.EveryCommandAnswersNext := exec_answers

/-! ### One idle core cycle (log entry 2) -/

theorem Clk.succ_within {c : Clk} (h : c.phase ≠ 15) : c.succ = { c with phase := c.phase + 1 } := if_neg h

theorem Clk.succ_last {c : Clk} (h : c.phase = 15) : c.succ = { tick := c.tick + 1, phase := 0 } := if_pos h

theorem State.cycle_held {s : State} (h : s.coldLow = true) : s.cycle = s := if_pos h

/-- Within a tick the phase goes on, and nothing that a tick brings takes effect. -/
theorem State.cycle_within {s : State} (h : s.coldLow = false) (hp : s.clk.phase ≠ 15) :
    s.cycle = (({ s with clk := { s.clk with phase := s.clk.phase + 1 } } : State).stepLfsr 1).turn.twArrive.seeReq.injectAll := by
  have hz : s.clk.phase + 1 ≠ 0 := by bv_omega
  simp only [State.cycle, h, Clk.succ_within hp, if_neg hz, Bool.false_eq_true, if_false]

/-- From phase 15 the tick goes on, and at its phase 0 it is counted and what is due takes effect. -/
theorem State.cycle_last {s : State} (h : s.coldLow = false) (hp : s.clk.phase = 15) :
    s.cycle = (((({ s with clk := { tick := s.clk.tick + 1, phase := 0 } } : State).stepLfsr 1).turn.twArrive.countTicks 1).applyDue.seeReq.injectAll) := by
  simp only [State.cycle, h, Clk.succ_last hp, if_true, Bool.false_eq_true, if_false]

theorem step_of_pending_nil {s : State} (h : s.pending = []) : step s = .next s.cycle := by simp only [step, h]

/-- Settles O44: with an empty queue a step is `State.cycle`, by its three cases. -/
theorem stepOnEmptyQueue : Obligations.StepOnEmptyQueue := by
  intro s hq
  rw [step_of_pending_nil hq]
  exact ⟨fun h => congrArg _ (State.cycle_held h), fun h hp => congrArg _ (State.cycle_within h hp),
    fun h hp => congrArg _ (State.cycle_last h hp)⟩

end Sys2Proof.Machine

namespace Sys2Proof.Machine

open Sys2Proof

/-! ### Memory completions at a home slice (R84, R115, R120, R181, R235) -/

/-- What a completion that is no line of a firn set does at the slice: `execMemoryCompletion`'s effect, by the purpose of its
command (tied to the row by `exec_memoryCompletion_at`). -/
def State.completed (s : State) (n : Hs) (c : MCmd) (mst : BitVec 2) (rime : Rime) (d : Line) : State :=
  match c.purp with
  | .trkRd t => s.readDone n t c.rgen mst rime d
  | .trkMd t => (match s.trk n t with | some x => if x.ph = Ph.rime then s.resolveRime n t rime else s | none => s)
  | .trkWr t => (s.rimeTurn n c (s.cmdCi n c)).cmpWrite n t .none
  | .plbWr q => (s.rimeTurn n c (s.cmdCi n c)).plbDone n q
  | .rime tag => s.rimeDone n tag (s.cmdCi n c)
  | .firnWr a => s.wroteLine n a
  | .aop t =>
    (match s.trk n t with
      | some x => (match x.lk with
        | some l => (s.send (hsStop n) (teStop l.te) .dat false (.nma l n (mst == 1) d)).endTrk n t
        | none => s)
      | none => s)
  | _ => s

section
variable {s : State} {k : Nat} {p : Pkt} {n : Hs} {c : MCmd} {mst : BitVec 2} {rime : Rime} {d : Line}

/-- A completion that reaches a working slice, unless it is a line of a firn set, has its effect there. -/
theorem exec_memoryCompletion_at (h : AtHs s k p n) (hb : s.body p = some (.mcpl c mst rime d)) (hp : ∀ a j, c.purp ≠ .firnRd a j) :
    exec (.memoryCompletion k) s = .next ((s.ejected k p).completed n c mst rime d).pump := by
  show execMemoryCompletion k s = _
  unfold execMemoryCompletion
  rw [recvHs_at (a := (c, mst, rime, d)) h]
  · rfl
  · rw [hb]
    cases hc : c.purp with
    | firnRd a j => exact absurd hc (hp a j)
    | _ => simp only [Option.bind_some, hc]

/-- A line of a firn set that reaches a working slice goes to the access that reads it (R159). -/
theorem exec_firnLookupData_at {a j : Nat} (h : AtHs s k p n) (hb : s.body p = some (.mcpl c mst rime d)) (hc : c.purp = .firnRd a j)
    (errs : List (Nat × EccErr)) : exec (.firnLookupData k errs) s = .next ((s.ejected k p).gotLine n a j d errs).pump := by
  show execFirnLookupData k errs s = _
  unfold execFirnLookupData
  rw [recvHs_at (a := (a, j, d)) h]
  rw [hb]
  simp only [Option.bind_some, hc]

/-- The rime bits that a metadata read brings resolve the request that waits for them. -/
theorem State.completed_trkMd {t : Nat} {x : Trk} (hc : c.purp = .trkMd t) (hx : s.trk n t = some x) (hph : x.ph = .rime) :
    s.completed n c mst rime d = s.resolveRime n t rime := by
  simp only [State.completed, hc, hx, hph, if_true]

/-- The original value that `MEMAOP` read goes to the engine, and the lock is freed (R181). -/
theorem State.completed_aop {t : Nat} {x : Trk} {l : Lk} (hc : c.purp = .aop t) (hx : s.trk n t = some x) (hl : x.lk = some l) :
    s.completed n c mst rime d = (s.send (hsStop n) (teStop l.te) .dat false (.nma l n (mst == 1) d)).endTrk n t := by
  simp only [State.completed, hc, hx, hl]

end

/-! ### `DPULL` data (R20, R121; log entry 29) -/

section
variable {s : State} {ps : Stn} {dst : Dst} {n : Hs} {x : Trk}

/-- A write that waits for its data as a whole posts its line, and goes on. -/
theorem exec_dpullData_pull (hd : s.dpullComing ps dst = false) (hx : s.pulling ps dst = some (n, x)) (hph : x.ph = .pull) (d : Line) (m : Mask) :
    exec (.dpullData ps dst d m) s =
      .next (((((s.postLine n (some x.id) x.req.ci x.req.lix x.req.mpid d false x.wrime false []).markLine n x.id x.req.ci).cmpWrite n x.id
        .none).resume n x.req.lix).pump) := by
  show execDpullData ps dst d m s = _
  simp only [execDpullData, hd, hx, hph, beq_self_eq_true, if_true, Bool.false_eq_true, if_false]

/-- A write that merges takes the bytes pulled, and its merge goes on. -/
theorem exec_dpullData_merge (hd : s.dpullComing ps dst = false) (hx : s.pulling ps dst = some (n, x)) (hph : x.ph ≠ .pull) (d : Line) (m : Mask) :
    exec (.dpullData ps dst d m) s = .next ((s.modTrk n x.id fun y =>
      { y with pulled := true, mask := m, req := { y.req with data := d } }).mergeDone n x.id).pump := by
  show execDpullData ps dst d m s = _
  simp only [execDpullData, hd, hx, beq_iff_eq, if_neg hph, Bool.false_eq_true, if_false]

end

/-- Settles O29: a completion by the purpose of its command, and the data of a `DPULL` by the phase of the write. -/
theorem memoryCompletionsReachTheSlice : Obligations.MemoryCompletionsReachTheSlice := by
  intro s k p n
  refine ⟨?_, fun ps dst x d m hd hx => ⟨(exec_dpullData_pull hd hx · d m), (exec_dpullData_merge hd hx · d m)⟩⟩
  rintro h u c mst rime d rfl hb
  have served {v : State} (hp : ∀ a j, c.purp ≠ .firnRd a j) (hv : (s.ejected k p).completed n c mst rime d = v) :
      exec (.memoryCompletion k) s = .next v.pump := hv ▸ exec_memoryCompletion_at h hb hp
  refine ⟨fun t hc => ?_, fun t x hc hx hph => ?_, fun t hc => ?_, fun q hc => ?_, fun q hc => ?_, fun a hc => ?_,
    fun t x l hc hx hl => ?_, fun a j errs hc => exec_firnLookupData_at h hb hc errs⟩
  case refine_2 => exact served (by simp [hc]) (State.completed_trkMd hc hx hph)
  case refine_7 => exact served (by simp [hc]) (State.completed_aop hc hx hl)
  all_goals exact served (by simp [hc]) (by simp only [State.completed, hc])

/-! ### The registers after a cold reset -/

/-- Every field of `MW_ID` is 0 in the cold boot state: the straps are low at `State.reset` (log entry 6), and no image is loaded. -/
theorem State.reset_mwId : State.reset.mwId = 0 := rfl

/-- No reply waits, the logs are empty and no cause is latched, so no line has a cause (R541). -/
theorem State.reset_irqRaw : State.reset.irqRaw = 0 := rfl

theorem State.reset_irqOut : State.reset.irqOut = 0 := by
  simp only [State.irqOut, State.reset_irqRaw, BitVec.ofNat_eq_ofNat, BitVec.zero_and]

/-- The table of `Inst` is empty, and an absent key reads as `Inst.reset` (log entry 11). -/
theorem State.reset_inst (c : Ci) : State.reset.inst c = Inst.reset := rfl

/-- Settles O59: what is read through a register or a table by its lemma, every other part as `State.reset` gives it. -/
theorem resetRegisters : Obligations.ResetRegisters :=
  ⟨rfl, rfl, State.reset_mwId, State.reset_irqOut, rfl, rfl, rfl, rfl, rfl, rfl, rfl, rfl, rfl,
    fun c => congrArg Inst.st (State.reset_inst c), rfl, rfl, rfl⟩

end Sys2Proof.Machine

namespace Sys2Proof.Machine

open Sys2Proof

/-! ### A line, its tag and its set (R40 to R42) -/

theorem lineOf_getLsbD (t : BitVec 32) (set : BitVec 14) (i : Nat) :
    (lineOf t set).getLsbD i = if i < 14 then (set ^^^ tagScramble t).getLsbD i else t.getLsbD (i - 14) := BitVec.getLsbD_append

/-- Scrambling again undoes the scrambling of the set, and the tag and the low bits side by side are the line. -/
theorem lineOf_lineTag_lineSet (l : Lix) : lineOf (lineTag l) (lineSet l) = l := by
  have hset : lineSet l ^^^ tagScramble (lineTag l) = l.setWidth 14 := by
    rw [lineSet, BitVec.xor_assoc, BitVec.xor_self, BitVec.xor_zero]
  refine BitVec.eq_of_getLsbD_eq fun i hi => ?_
  rw [lineOf_getLsbD, hset]
  split
  · next hlow => simp [hlow]
  · next hhigh =>
    have hi32 : i - 14 < 32 := by omega
    have hback : 14 + (i - 14) = i := by omega
    simp [lineTag, hi32, hback]

/-- Putting tag and set side by side is R42's shift and or. -/
theorem lineOf_eq_shift_or (t : BitVec 32) (set : BitVec 14) :
    lineOf t set = ((t.setWidth 46) <<< 14) ||| ((set ^^^ tagScramble t).setWidth 46) := by
  refine BitVec.eq_of_getLsbD_eq fun i hi => ?_
  rw [lineOf_getLsbD]
  split
  · next hlow => simp [hlow, hi]
  · next hhigh => simp [hhigh, hi, BitVec.getLsbD_of_ge _ i (Nat.le_of_not_lt hhigh)]

/-- Settles O52: recovering the line undoes taking tag and set, so both together determine it. -/
theorem lineRecoveredFromTagAndSet : Obligations.LineRecoveredFromTagAndSet := by
  refine ⟨lineOf_lineTag_lineSet, lineOf_eq_shift_or, fun l m htag hset => ?_⟩
  calc l = lineOf (lineTag l) (lineSet l) := (lineOf_lineTag_lineSet l).symm
    _ = lineOf (lineTag m) (lineSet m) := by rw [htag, hset]
    _ = m := lineOf_lineTag_lineSet m

/-! ### `INST_QUOTA` and `INST_STATUS` (R94, R255, R279, R392) -/

/-- With quotas in range, where the target is not FREE, the floors and the ways that twins share admit them and they wait for the next phase 0. -/
theorem instQuota_ok {w : BitVec 512} {t : State} (hq : quotaOk (cPar w 0 1) (cPar w 1 1) (cPar w 2 2) (cPar w 4 2) = true)
    (hst : (t.inst (cCi w)).st ≠ .free) (hfl : t.floors (cCi w) + cPar w 2 2 ≤ 768)
    (htw : (t.inst (cCi w)).role = .none ∨ t.twinSfq (cCi w) + cPar w 0 1 ≤ 16) :
    instQuota w t = .ok ((t.hold w .wait).later 1
      (.quota (cCi w) (cPar w 0 1) (cPar w 1 1) (cPar w 2 2) (cPar w 4 2) (cPar w 6 1) (cFlag w 5) w)) := by
  have hroom : (decide (t.floors (cCi w) + cPar w 2 2 > 768) ||
      ((t.inst (cCi w)).role != TRole.none && decide (t.twinSfq (cCi w) + cPar w 0 1 > 16))) = false := by
    rcases htw with h | h
    · simp [hfl, h]
    · simp [hfl, h]
  simp only [instQuota, hq, beq_iff_eq, hst, hroom, Bool.not_true, Bool.false_eq_true, if_false]

/-- Settles O3: the two bodies, under the checks that `Served` passes. -/
theorem instanceQuotaAndStatusComplete : Obligations.InstanceQuotaAndStatusComplete := by
  rintro w s t i x rfl
  exact ⟨fun h hq hst hfl htw => mcRow_served h (instQuota_ok hq hst hfl htw), fun h => mcRow_served h rfl⟩

/-! ### `FIRN_ROTATE`, `FIRN_REBUILD`, `CHURN_CFG`, `SF_REBUILD` (R98, R309, R391, R413, R490) -/

section
variable {w : BitVec 512} {t : State}

/-- The moves begin where the target is neither FREE nor a Mirror; without a firn there is none (log entry 51). -/
theorem firnRotate_ok (hst : (t.inst (cCi w)).st ≠ .free) (hr : (t.inst (cCi w)).role ≠ .mirror) :
    firnRotate w t = .ok ((t.startLong w .bulk (if (t.inst (cCi w)).firnLog2 = 0 then 0 else cPar w 0 4)).queueBulk false .rotate (cCi w) w
      (if (t.inst (cCi w)).firnLog2 = 0 then 0 else cPar w 0 4)) := by
  simp only [firnRotate, Bool.or_eq_true, beq_iff_eq, hst, hr, or_self, if_false]

theorem firnRebuild_ok (hst : (t.inst (cCi w)).st ≠ .free) (hr : (t.inst (cCi w)).role ≠ .mirror) :
    firnRebuild w t = .ok ((t.startLong w .bulk (t.stepsOf .firnRebuild (cCi w))).queueBulk false .firnRebuild (cCi w) w) := by
  simp only [firnRebuild, Bool.or_eq_true, beq_iff_eq, hst, hr, or_self, if_false]

theorem between_true {a x b : Nat} (ha : a ≤ x) (hb : x ≤ b) : between a x b = true := by simp [between, ha, hb]

/-- The three intervals within their ranges take effect at the next phase 0. -/
theorem churnCfg_ok (h0 : between 1 (cPar w 0 1) 64 = true) (h1 : between 8 (cPar w 1 1) 16 = true) (h2 : between 1 (cPar w 2 2) 65535 = true) :
    churnCfg w t = .ok ((t.later 1 (.churn (cPar w 0 1) (cPar w 1 1) (cPar w 2 2))).replyDone w []) := by
  simp only [churnCfg, h0, h1, h2, Bool.and_self, Bool.not_true, Bool.false_eq_true, if_false, State.done_eq]

end

/-- Settles O13: the four bodies, under the checks that `Served` passes. -/
theorem churnAndRebuildCommandsComplete : Obligations.ChurnAndRebuildCommandsComplete := by
  intro w s t i
  refine ⟨fun hst hr => ⟨fun n h hn => hn ▸ mcRow_served h (firnRotate_ok hst hr), fun h => mcRow_served h (firnRebuild_ok hst hr)⟩,
    fun h a1 a2 b1 b2 c1 c2 => ?_, fun h => mcRow_served h rfl⟩
  exact mcRow_served h (churnCfg_ok (between_true a1 a2) (between_true b1 b2) (between_true c1 c2))

/-! ### What a home slice tries again (R59, R60, R78, R121, R172) -/

section
variable {s : State} {n : Hs} {t : Nat} {x : Trk}

theorem exec_overflowInstallRetry_moved {v : VbEnt} {u : State} (hn : s.hsUp n = true) (hv : ((s.slice n).vb.find? fun v => !v.dep) = some v)
    (hu : ((s.modSlice n fun x => { x with vb := x.vb.erase v }).toWay n v.set v.ent) = some (some u)) :
    exec (.overflowInstallRetry n) s = .next u.pump := by
  show execOverflowInstallRetry n s = _
  simp only [execOverflowInstallRetry, hn, hv, hu, Bool.not_true, Bool.false_eq_true, if_false]

section
variable (hn : s.hsUp n = true) (hx : s.trk n t = some x) (hph : x.ph = .victim)
include hn hx hph

theorem exec_victimBufferRetry_snooped (hf : x.finst = none) : exec (.victimBufferRetry n t) s = .next (s.afterSnoops n t).pump := by
  show execVictimBufferRetry n t s = _
  simp only [execVictimBufferRetry, hx, hph, hn, hf, bne_self_eq_false, Bool.not_true, Bool.or_self, Bool.false_eq_true, if_false]

theorem exec_victimBufferRetry_room {f : Bool} {u : State} (hf : x.finst = some f)
    (hu : s.allocate n x.req.lix (SfEnt.fresh x.req.lix x.req.ci x.dir f) = some u) :
    exec (.victimBufferRetry n t) s = .next ((u.modTrk n t fun y => { y with finst := none }).rule117 n t x.dir).pump := by
  show execVictimBufferRetry n t s = _
  simp only [execVictimBufferRetry, hx, hph, hn, hf, hu, bne_self_eq_false, Bool.not_true, Bool.or_self, Bool.false_eq_true, if_false]

theorem exec_victimBufferRetry_waits {f : Bool} (hf : x.finst = some f)
    (hu : s.allocate n x.req.lix (SfEnt.fresh x.req.lix x.req.ci x.dir f) = none) :
    exec (.victimBufferRetry n t) s = .next (s.bump (hsCtr n 13)) := by
  show execVictimBufferRetry n t s = _
  simp only [execVictimBufferRetry, hx, hph, hn, hf, hu, bne_self_eq_false, Bool.not_true, Bool.or_self, Bool.false_eq_true, if_false]

end

theorem exec_plbRetry_merge (hn : s.hsUp n = true) (hx : s.trk n t = some x) (hph : x.ph = .plb) :
    exec (.plbRetry n t) s = .next (s.startMerge n t).pump := by
  show execPlbRetry n t s = _
  simp only [execPlbRetry, hx, hph, hn, Bool.not_true, Bool.false_eq_true, if_false]

theorem exec_plbRetry_lock (hn : s.hsUp n = true) (hx : s.trk n t = some x) (hph : x.ph = .lockPlb) :
    exec (.plbRetry n t) s = .next (s.lockStep n t).pump := by
  show execPlbRetry n t s = _
  simp only [execPlbRetry, hx, hph, hn, Bool.not_true, Bool.false_eq_true, if_false]

theorem exec_internalEntryRetry_room {a : FAcc} {d : Dir} {u : State} (hn : s.hsUp n = true)
    (ha : ((s.slice n).facc.find? fun a => a.id == t) = some a) (hk : a.kind = .spill d) (hw : a.writing = false) (hg : a.got.length = 4)
    (hu : s.accSpill n a d = some u) : exec (.internalEntryRetry n t) s = .next u.pump := by
  show execInternalEntryRetry n t s = _
  simp only [execInternalEntryRetry, ha, hk, hn, hw, hg, hu, bne_self_eq_false, Bool.not_true, Bool.or_self, Bool.false_eq_true, if_false]

end

/-! ### The report of `POST_THR` (R233, R234; log entry 79) -/

/-- The table with the entry `d` at each of `ks` that it lacks, as `execPostThrReport` completes the table of the slices. -/
def tFill {α : Type} (d : α) (m : List (Nat × α)) (ks : List Nat) : List (Nat × α) :=
  ks.foldl (fun l k => if (tGet l k).isNone then tPut l k d else l) m

theorem tGet_tFill {α : Type} (d : α) (ks : List Nat) (k : Nat) (m : List (Nat × α)) :
    tGet (tFill d m ks) k = if k ∈ ks then some ((tGet m k).getD d) else tGet m k := by
  induction ks generalizing m with
  | nil => rfl
  | cons j ks ih =>
    have hstep : tGet (if (tGet m j).isNone then tPut m j d else m) k = if k = j then some ((tGet m k).getD d) else tGet m k := by
      by_cases hk : k = j
      · subst hk
        cases hm : tGet m k <;> simp [hm, tGet_tPut_same]
      · split <;> simp [hk, tGet_tPut_other]
    show tGet (tFill d (if (tGet m j).isNone then tPut m j d else m) ks) k = _
    rw [ih, hstep]
    by_cases hk : k = j <;> simp [hk]

theorem tGet_map_snd {α β : Type} (f : α → β) (m : List (Nat × α)) (k : Nat) : tGet (m.map fun p => (p.1, f p.2)) k = (tGet m k).map f := by
  induction m with
  | nil => rfl
  | cons p m ih =>
    obtain ⟨j, v⟩ := p
    by_cases hj : j = k <;> simp [tGet, hj, ih]

@[simp] theorem State.bump_slices (s : State) (i : Nat) : (s.bump i).slices = s.slices := by
  simp only [State.bump]
  split <;> rfl

@[simp] theorem State.bumpN_slices (s : State) (i k : Nat) : (s.bumpN i k).slices = s.slices := by
  induction k generalizing s with
  | zero => rfl
  | succ k ih => rw [State.bumpN, ih, State.bump_slices]

/-- The ports of station `ms` whose queue, without the station's own commands, is longer than `POST_THR`. -/
def State.overThr (s : State) (ms : Stn) : List Mpid :=
  (s.ports.filter fun p => p.2.pv && msOf (BitVec.ofNat 8 p.1) == ms &&
    decide ((((s.ms ms).cmds).filter fun c => c.cmd.mpid.toNat == p.1 && !c.cmd.own).length > p.2.thrLive)).map fun p => (BitVec.ofNat 8 p.1 : Mpid)

/-- What a slice holds of the reports once station `ms` reports `over'`. -/
def Slice.reported (ms : Stn) (over' : List Mpid) (x : Slice) : Slice := { x with thr := (x.thr.filter fun m => msOf m != ms) ++ over' }

/-- The report of station `ms`: its ports over the threshold are counted, and every slice takes them. -/
def State.thrReported (s : State) (ms : Stn) : State :=
  { s.bumpN (msCtr ms 2) (s.overThr ms).length with
    slices := (tFill Slice.reset s.slices (List.range 32)).map fun p => (p.1, p.2.reported ms (s.overThr ms)) }

theorem exec_postThrReport_works {ms : Stn} {s : State} (h : s.works (msDom ms) = true) :
    exec (.postThrReport ms) s = .next (s.thrReported ms) := by
  show execPostThrReport ms s = _
  simp only [execPostThrReport, h, Bool.not_true, Bool.false_eq_true, if_false, State.bumpN_slices]
  rfl

/-- Each of the 32 slices has an entry to take the report. -/
theorem State.slice_thrReported (s : State) (ms : Stn) (h : Hs) : (s.thrReported ms).slice h = (s.slice h).reported ms (s.overThr ms) := by
  have hmem : h.toNat ∈ List.range 32 := List.mem_range.2 h.isLt
  simp only [State.slice, State.thrReported, tGet_map_snd, tGet_tFill, if_pos hmem, Option.map_some, Option.getD_some]

/-- Settles O30: each retry where what it waits for is free, and where it is not, and the station's report. -/
theorem sliceRetriesComplete : Obligations.SliceRetriesComplete := by
  intro s n t hn
  refine ⟨fun v u hv hu => exec_overflowInstallRetry_moved hn hv hu, fun x hx hph => ⟨exec_victimBufferRetry_snooped hn hx hph, fun f hf => ?_⟩,
    fun x hx => ⟨exec_plbRetry_merge hn hx, exec_plbRetry_lock hn hx⟩,
    fun a d u ha hk hw hg hu => exec_internalEntryRetry_room hn ha hk hw hg hu, fun ms hms => ?_⟩
  · exact ⟨fun u hu => exec_victimBufferRetry_room hn hx hph hf hu, exec_victimBufferRetry_waits hn hx hph hf⟩
  · exact ⟨_, exec_postThrReport_works hms, fun h => congrArg Slice.thr (s.slice_thrReported ms h)⟩

end Sys2Proof.Machine

namespace Sys2Proof.Machine

open Sys2Proof

/-! ### A memory station takes a command (R89, R90, R148, R233; log entry 79) -/

/-- A command that its station has room for is counted, enters the queue, has its rime bits served, and goes to the port. -/
theorem exec_memoryCommand_taken {s : State} {k : Nat} {p : Pkt} {c : MCmd} {n : Stn} {u : State} (h : Arrives s k p)
    (hb : s.body p = some (.mcmd c)) (hn : p.dst.setWidth 3 = n) (ht : s.msTakes n c = true)
    (hu : u = (s.ejected k p).bump (msCtr n (if c.isMeta then 1 else 0))) :
    exec (.memoryCommand k) s =
      .next (((u.modMs n fun x => { x with cmds := x.cmds ++ [MEnt.new c (u.tabled c)] }).rimeServe n (u.ms n).cmds.length false).msPump n) := by
  subst hn hu
  show execMemoryCommand k s = _
  unfold execMemoryCommand
  rw [recv_at (a := c) h (by rw [hb]; rfl)]
  simp only [ht, Bool.not_true, Bool.false_eq_true, if_false]

/-! ### A memory station takes a completion (R87 to R90, R98, R113, R513, R529; log entries 25 and 31) -/

section
variable {s : State} {n : Stn}

theorem exec_memoryPortCompletion_uncorrectable (h : s.works (msDom n) = true) (w : BitVec 160) (d : Line) (rerr : Bool) :
    exec (.memoryPortCompletion n w d ⟨none, rerr⟩) s = .next (s.fatal (noChan 0x0A) (msStop n) 0x0A) := by
  show execMemoryPortCompletion n w d ⟨none, rerr⟩ s = _
  simp only [execMemoryPortCompletion, h, Bool.not_true, Bool.false_eq_true, if_false]

/-- The corrected crossing words are counted, and the completion word is used. -/
theorem exec_memoryPortCompletion_word (h : s.works (msDom n) = true) (w : BitVec 160) (d : Line) (f : Nat) (rerr : Bool) :
    exec (.memoryPortCompletion n w d ⟨some f, rerr⟩) s = (s.bumpN (msCtr n 5) f).completionWord n w d rerr := by
  show execMemoryPortCompletion n w d ⟨some f, rerr⟩ s = _
  simp only [execMemoryPortCompletion, h, Bool.not_true, Bool.false_eq_true, if_false]

/-- What the station does with the line of a completed command: that of one of its own Rime Table commands is used, but for the write
of a line of UNKNOWN (`completionWord`'s last test, tied to it by `State.completionWord_completed`). -/
def State.rimeLineUsed (s : State) (n : Stn) (e : MEnt) (poison : Bool) (d : Line) : State :=
  match e.cmd.purp with
  | .rtRead => if e.cmd.own then s.rtArrived n e poison d else s
  | .rtWrite => if e.cmd.own && !e.cmd.rtpsn then s.rtWritten n e else s
  | _ => s

section
variable {e : MEnt} {poison : Bool} {d : Line}

theorem State.rimeLineUsed_issued (h : e.cmd.own = false) : s.rimeLineUsed n e poison d = s := by
  cases hp : e.cmd.purp <;> simp [State.rimeLineUsed, hp, h]

theorem State.rimeLineUsed_read (h : e.cmd.own = true) (hp : e.cmd.purp = .rtRead) :
    s.rimeLineUsed n e poison d = s.rtArrived n e poison d := by
  simp only [State.rimeLineUsed, hp, h, if_true]

theorem State.rimeLineUsed_unknownWrite (hp : e.cmd.purp = .rtWrite) (hu : e.cmd.rtpsn = true) : s.rimeLineUsed n e poison d = s := by
  simp only [State.rimeLineUsed, hp, hu, Bool.not_true, Bool.and_false, Bool.false_eq_true, if_false]

theorem State.rimeLineUsed_write (h : e.cmd.own = true) (hp : e.cmd.purp = .rtWrite) (hu : e.cmd.rtpsn = false) :
    s.rimeLineUsed n e poison d = s.rtWritten n e := by
  simp only [State.rimeLineUsed, hp, h, hu, Bool.not_false, Bool.and_self, if_true]

end

variable {w : BitVec 160} {i : Nat} {e : MEnt}

/-- `MST` 10: the command is reissued unless its path is retired, and the later commands of its line wait. -/
theorem State.completionWord_failed (hi : ((s.ms n).cmds.findIdx? fun e => e.answeredBy w) = some i) (he : (s.ms n).cmds[i]? = some e)
    (hm : w.extractLsb' 80 2 = 2) (d : Line) (rerr : Bool) {u : State}
    (hu : u = if e.failed then s else s.faultEv 2 { chk := 4, chn := e.cmd.mpid.setWidth 12 } (msStop n) 0x17 (some e.cmd.lix)) :
    s.completionWord n w d rerr = .next (if u.ret.chans.contains { chk := 4, chn := e.cmd.mpid.setWidth 12 }
      then u.modMs n fun x => { x with cmds := x.cmds.mapIdx fun j f => f.behind i j e }
      else (u.modMs n fun x => { x with cmds := x.cmds.mapIdx fun j f => f.behind i j e }).emit (.mem n { e.cmd with reiss := true })) := by
  subst hu
  simp only [State.completionWord, hi, he, hm, if_true]
  rfl

/-- Any other completion answers its command; rime bits in error are a fault, and a rime line is used. -/
theorem State.completionWord_completed (hi : ((s.ms n).cmds.findIdx? fun e => e.answeredBy w) = some i) (he : (s.ms n).cmds[i]? = some e)
    (hm : w.extractLsb' 80 2 ≠ 2) {d : Line} {rerr : Bool} {v u : State}
    (hv : v = if rerr && e.metaRime && !e.cmd.own then
      s.faultEv 3 { chk := 4, chn := e.cmd.mpid.setWidth 12 } (msStop n) 4 (some e.cmd.lix) else s)
    (hu : u = v.modMs n fun x => { x with cmds := x.cmds.modify i fun f => f.answered w d rerr }) :
    s.completionWord n w d rerr = .next (((u.rimeLineUsed n e (w.extractLsb' 80 2 == 1) d).msPump n).pump) := by
  subst hu hv
  simp only [State.completionWord, hi, he, if_neg hm]
  rfl

end

/-- Settles O31: the command that the station takes, the uncorrectable word, the failed completion, and the others by whose command
they answer. -/
theorem memoryStationCommandsComplete : Obligations.MemoryStationCommandsComplete := by
  intro s k p c n w d f rerr
  refine ⟨fun h hb hn ht u hu => exec_memoryCommand_taken h hb hn ht hu, fun h => exec_memoryPortCompletion_uncorrectable h w d rerr,
    fun i e v hw hv hi he => ?_⟩
  subst hv
  rw [exec_memoryPortCompletion_word hw]
  refine ⟨fun hm u hu => State.completionWord_failed hi he hm d rerr hu, fun hm v' u hv' hu => ?_⟩
  rw [State.completionWord_completed hi he hm hv' hu]
  refine ⟨fun ho => ?_, fun ho => ⟨fun hp => ?_, fun hp hr => ?_, fun hp hr => ?_⟩⟩
  · rw [State.rimeLineUsed_issued ho]
  · rw [State.rimeLineUsed_read ho hp]
  · rw [State.rimeLineUsed_unknownWrite hp hr]
  · rw [State.rimeLineUsed_write ho hp hr]

end Sys2Proof.Machine

namespace Sys2Proof.Machine

open Sys2Proof

@[simp] theorem State.slice_modSlice (s : State) (n : Hs) (f : Slice → Slice) : (s.modSlice n f).slice n = f (s.slice n) :=
  State.slice_setSlice s n _

/-! ### Calibration writes (R415, R420, R422, R423) -/

section
variable {s : State} {n : Hs} {c : Cax} {x : Nat} {r : List (Cax × Nat)} (hq : (s.slice n).calQ = (c, x) :: r) (hn : s.hsUp n = true)
  (hl : s.lastSlot = false) (hb : s.bulkReady n = false)
include hq hn hl hb

theorem exec_calibrationWrite_moves {err : EccErr} (herr : err ≠ .uncorrectable) {u : State} {e : CalEnt}
    (he : e = calSample (tGet (s.slice n).cal c.toNat) x) (hu : u = s.modSlice n fun y => { y with calQ := r, cal := tPut y.cal c.toNat e }) :
    exec (.calibrationWrite n err) s = .next (((u.bump (hsCtr n 21)).tapCal n c x e.mean).churn n) := by
  subst hu he
  show execCalibrationWrite n err s = _
  simp only [execCalibrationWrite, hq, hn, hl, hb, beq_eq_false_iff_ne.2 herr, Bool.not_true, Bool.false_and, Bool.false_eq_true, if_false]

/-- An uncorrectable entry counts as empty: the sample is its new mean. -/
theorem exec_calibrationWrite_uncorrectable {u : State}
    (hu : u = (s.bump (hsCtr n 22)).modSlice n fun y => { y with calQ := r, cal := tPut y.cal c.toNat (calSample none x) }) :
    exec (.calibrationWrite n .uncorrectable) s = .next (((u.bump (hsCtr n 21)).tapCal n c x x).churn n) := by
  subst hu
  show execCalibrationWrite n .uncorrectable s = _
  simp only [execCalibrationWrite, hq, hn, hl, hb, beq_self_eq_true, Bool.not_true, Bool.false_and, Bool.false_eq_true, if_false, if_true]
  rfl

end

/-! ### The order of the scrubs and the telemetry (R97, R98, R413, R415, R416; log entry 81) -/

section
variable {s : State} {n : Hs}

theorem exec_sfScrub_ready (hn : s.hsUp n = true) (hd : s.works (sfDom n) = true) (hw : (s.slice n).sfWait = none) (errs : List (Nat × EccErr)) :
    exec (.sfScrub n errs) s = .next ((s.modSlice n fun x => { x with sfWait := some errs }).churn n) := by
  show execSfScrub n errs s = _
  simp only [execSfScrub, hn, hd, hw, Option.isSome_none, Bool.not_true, Bool.or_self, Bool.false_eq_true, if_false]

theorem exec_firnScrub_ready (hn : s.hsUp n = true) (hw : (s.slice n).fsWait = false) (hs : (s.nextScrub n).isSome = true) :
    exec (.firnScrub n) s = .next ((s.modSlice n fun x => { x with fsWait := true }).churn n) := by
  show execFirnScrub n s = _
  have hs' : (s.nextScrub n).isNone = false := by rw [← Option.not_isSome, hs, Bool.not_true]
  simp only [execFirnScrub, hn, hw, hs', Bool.not_true, Bool.or_self, Bool.false_eq_true, if_false]

theorem State.churnRun_behind (h : s.aheadOfScrub n = true) (i : Nat) : s.churnRun n i = s := by
  cases i with
  | zero => rfl
  | succ i => simp only [State.churnRun, h, Bool.true_or, if_true]

theorem State.churnRun_serves (h : s.aheadOfScrub n = false) (hw : (s.slice n).waits = true) (i : Nat) :
    s.churnRun n (i + 1) = (s.scrubSlot n).churnRun n i := by
  simp only [State.churnRun, h, hw, Bool.not_true, Bool.or_self, Bool.false_eq_true, if_false]

/-- In the exceptional slot what waits comes first, and what still waits then has the next such slot. -/
theorem State.churn_lastSlot (hl : s.lastSlot = true) (hw : (s.slice n).waits = true) {u : State} (hu : u = (s.scrubSlot n).churnRun n 3) :
    s.churn n = if (u.slice n).waits && !u.sched.any (fun e => e.2 == .churnSlot n) then u.later (64 - u.clk.tick.toNat % 64) (.churnSlot n)
      else u := by
  subst hu
  simp only [State.churn, hl, hw, Bool.and_self, if_true]

theorem State.scrubSlot_sf {errs : List (Nat × EccErr)} (hw : (s.slice n).sfWait = some errs)
    (ht : (s.slice n).fsWait = false ∨ (s.slice n).lastSf = false) :
    ∃ t : State, s.scrubSlot n = t.sfScrub n errs ∧ (t.slice n).sfWait = none ∧ (t.slice n).lastSf = true := by
  cases hf : (if (s.slice n).fsWait then s.nextScrub n else none) with
  | none =>
    exact ⟨s.modSlice n fun x => { x with sfWait := none, fsWait := false, lastSf := true }, by simp only [State.scrubSlot, hw, hf],
      by rw [State.slice_modSlice], by rw [State.slice_modSlice]⟩
  | some q =>
    have hlast : (s.slice n).lastSf = false := ht.resolve_left fun h => by simp [h] at hf
    exact ⟨s.modSlice n fun x => { x with sfWait := none, lastSf := true },
      by simp only [State.scrubSlot, hw, hf, hlast, Bool.false_eq_true, if_false], by rw [State.slice_modSlice], by rw [State.slice_modSlice]⟩

theorem State.scrubSlot_firn {c : Ci} {fl : Nat} (hw : (s.slice n).fsWait = true) (hs : s.nextScrub n = some (c, fl))
    (ht : (s.slice n).sfWait = none ∨ (s.slice n).lastSf = true) :
    ∃ t : State, s.scrubSlot n = t.firnScrub n c fl ∧ (t.slice n).fsWait = false ∧ (t.slice n).lastSf = false := by
  refine ⟨s.modSlice n fun x => { x with fsWait := false, lastSf := false }, ?_, by rw [State.slice_modSlice], by rw [State.slice_modSlice]⟩
  cases hsf : (s.slice n).sfWait with
  | none => simp only [State.scrubSlot, hsf, hw, hs, if_true]
  | some errs =>
    have hlast : (s.slice n).lastSf = true := ht.resolve_left (by simp [hsf])
    simp only [State.scrubSlot, hsf, hw, hs, hlast, if_true]

theorem State.scrubSlot_telemetry (hsf : (s.slice n).sfWait = none) (hf : (s.slice n).fsWait = false) (ht : (s.slice n).telWait = true) :
    s.scrubSlot n = s.telSend n := by
  simp only [State.scrubSlot, hsf, hf, ht, Bool.false_eq_true, if_false, if_true]

/-! ### Rotation moves (R414, R415) -/

variable {c : Ci}

theorem exec_rotationMove_bulk (hm : s.mayMove n c = true) (hl : s.lastSlot = false) (hb : s.moveBulk c = true) :
    exec (.rotationMove n c) s = .next ((s.addAcc n c (s.inst c).moveSet 0 .move).pump.churn n) := by
  show execRotationMove n c s = _
  simp only [execRotationMove, hm, hl, hb, Bool.not_true, Bool.false_and, Bool.false_eq_true, if_false, if_true]

theorem exec_rotationMove_posted (hm : s.mayMove n c = true) (hl : s.lastSlot = false) (hb : s.moveBulk c = false)
    (hbusy : (s.inst c).rotBusy = false) (hp : 0 < (s.inst c).rotPend) (hr : s.bulkReady n = false) (hq : (s.slice n).calQ = []) :
    exec (.rotationMove n c) s = .next
      (((s.setInst c { s.inst c with rotBusy := true, rotPend := (s.inst c).rotPend - 1 }).addAcc n c (s.inst c).moveSet 0 .move).pump.churn n) := by
  have hp0 : (s.inst c).rotPend ≠ 0 := Nat.ne_of_gt hp
  show execRotationMove n c s = _
  simp only [execRotationMove, hm, hl, hb, hbusy, hp0, hr, hq, List.isEmpty_nil, decide_false, Bool.not_true, Bool.false_and, Bool.or_self,
    Bool.false_eq_true, if_false]

end

/-! ### Buckets (R481; log entry 85) -/

/-- Where the clock stands when the buckets leak next: at the next multiple of the period, once in its cycle. -/
def State.toLeak (s : State) : State :=
  if s.clk.phase = 0 && s.leak == some (s.clk.tick, true) then
    s.goTo (BitVec.ofNat 48 (s.clk.tick.toNat / s.leakPeriod * s.leakPeriod + s.leakPeriod))
  else s.toMultiple s.leakPeriod

section
variable {s : State}

theorem exec_bucketLeak_falls (h : s.toLeak.leak ≠ some (s.toLeak.clk.tick, false)) : exec .bucketLeak s = .next (s.toLeak.leakNow true) := by
  show Host.Outcome.next (if s.toLeak.leak == some (s.toLeak.clk.tick, false) then _ else s.toLeak.leakNow true) = _
  rw [if_neg (by simpa using h)]

/-- An event of that cycle has brought the fall about: the buckets stay. -/
theorem exec_bucketLeak_fallen (h : s.toLeak.leak = some (s.toLeak.clk.tick, false)) :
    exec .bucketLeak s = .next { s.toLeak with leak := some (s.toLeak.clk.tick, true) } := by
  show Host.Outcome.next
    (if s.toLeak.leak == some (s.toLeak.clk.tick, false) then { s.toLeak with leak := some (s.toLeak.clk.tick, true) } else _) = _
  rw [if_pos (by simpa using h)]

end

/-! ### Retirement (R484, R485, R488) -/

section
variable {s : State} {n : Hs} {w : BitVec 4} {i : Nat} (hw : s.walking n = some w) (hi : (s.slice n).walk = some (w, i)) (hlt : i < 16384)
  (hn : s.hsUp n = true)
include hw hi hlt hn

theorem exec_wayRetirementWalk_empty (hg : tGet (s.slice n).sf (wayKey (BitVec.ofNat 14 i) w.toNat) = none) :
    exec (.wayRetirementWalk n) s = .next (s.modSlice n fun x => { x with walk := some (w, i + 1) }) := by
  show execWayRetirementWalk n s = _
  simp only [execWayRetirementWalk, hw, hi, hn, hg, Nat.not_le.2 hlt, decide_false, Bool.not_true, Bool.or_self, Bool.false_eq_true,
    if_true, if_false]

theorem exec_wayRetirementWalk_pinned {e : SfEnt} (hg : tGet (s.slice n).sf (wayKey (BitVec.ofNat 14 i) w.toNat) = some e)
    (hp : (s.slice n).pinned (e.lix (BitVec.ofNat 14 i)) = true) :
    exec (.wayRetirementWalk n) s = .next (s.modSlice n fun x => { x with walk := some (w, i) }) := by
  show execWayRetirementWalk n s = _
  simp only [execWayRetirementWalk, hw, hi, hn, hg, hp, Nat.not_le.2 hlt, decide_false, Bool.not_true, Bool.or_self,
    Bool.false_eq_true, if_true, if_false]

theorem exec_wayRetirementWalk_evicts {e : SfEnt} (hg : tGet (s.slice n).sf (wayKey (BitVec.ofNat 14 i) w.toNat) = some e)
    (hp : (s.slice n).pinned (e.lix (BitVec.ofNat 14 i)) = false) {u : State}
    (hu : s.evict n (wayKey (BitVec.ofNat 14 i) w.toNat) e = some u) :
    exec (.wayRetirementWalk n) s = .next (u.modSlice n fun x => { x with walk := some (w, i + 1) }).pump := by
  show execWayRetirementWalk n s = _
  simp only [execWayRetirementWalk, hw, hi, hn, hg, hp, hu, Nat.not_le.2 hlt, decide_false, Bool.not_true, Bool.or_self,
    Bool.false_eq_true, if_true, if_false]

end

/-- With procedures under way and no fence left after them, each procedure is carried on, and the last one's end returns to SERVICE. -/
theorem exec_retirementProcedureEnd_carries {s u : State} (hr : s.ret.running ≠ []) (hs : s.running = true)
    (hb : s.mc.bstate = .starting ∨ s.mc.bstate = .ready) (hu : u = s.ret.running.foldl State.retireOne s) (hf : u.fenceWaits = []) :
    exec .retirementProcedureEnd s =
      .next ((if u.ret.running.isEmpty && u.arbMode != .start then { u with arbMode := .service } else u).pump) := by
  have hr' : s.ret.running.isEmpty = false := by simpa using hr
  have hb' : (s.mc.bstate != .starting && s.mc.bstate != .ready) = false := by rcases hb with h | h <;> simp [h]
  subst hu
  show execRetirementProcedureEnd s = _
  simp only [execRetirementProcedureEnd, hr', hb', hs, hf, List.foldl_nil, Bool.false_and, Bool.not_true, Bool.not_false, Bool.true_and,
    Bool.or_self, Bool.false_eq_true, if_false]

/-- Settles O38: the order of the churn by the branches of `scrubSlot`, `churnRun` and `churn`, every event by its meaning. -/
theorem churnEventsComplete : Obligations.ChurnEventsComplete := by
  intro s n
  refine ⟨fun c x r hq hn hl hb => ⟨fun err u e herr he hu => exec_calibrationWrite_moves hq hn hl hb herr he hu,
      fun u hu => exec_calibrationWrite_uncorrectable hq hn hl hb hu⟩,
    fun errs hn hd hw => exec_sfScrub_ready hn hd hw errs, exec_firnScrub_ready, fun i h => State.churnRun_behind h i,
    fun i h hw => State.churnRun_serves h hw i, fun hl hw => ⟨_, rfl, fun u hu => State.churn_lastSlot hl hw hu⟩,
    fun errs hw ht => State.scrubSlot_sf hw ht, fun c fl hw hs ht => State.scrubSlot_firn hw hs ht, State.scrubSlot_telemetry,
    fun c hm hl => ⟨exec_rotationMove_bulk hm hl, exec_rotationMove_posted hm hl⟩, ?telemetry, ?leak, ?walk,
    fun u hr hs hb hf hu => exec_retirementProcedureEnd_carries hr hs hb hu (hu ▸ hf)⟩
  case telemetry =>
    rintro u v rfl rfl
    rfl
  case leak =>
    rintro u l rfl rfl
    exact ⟨exec_bucketLeak_falls, exec_bucketLeak_fallen⟩
  case walk =>
    rintro w i hw hi hlt hn key rfl
    exact ⟨exec_wayRetirementWalk_empty hw hi hlt hn, fun e he =>
      ⟨exec_wayRetirementWalk_pinned hw hi hlt hn he, fun u hp hu => exec_wayRetirementWalk_evicts hw hi hlt hn he hp hu⟩⟩

end Sys2Proof.Machine

namespace Sys2Proof.Machine

open Sys2Proof

/-! ### Requests and writebacks at a home slice (R98, R102 to R107, R117, R134, R379, R380) -/

section
variable {s : State} {n : Hs} {r : Req}

theorem State.admitGeneral_refused (hg : s.generalEntry n r.ci r.tries = none) : s.admitGeneral n r = s.refuseReq n r := by
  simp only [State.admitGeneral, hg]

section
variable {v : Resv} (hg : s.generalEntry n r.ci r.tries = some v)
include hg

theorem State.admitGeneral_entered (hw : r.rwr = false) :
    s.admitGeneral n r = ((s.bump (hsCtr n 0)).bumpI r.ci 0x01).addTrk n v true r := by
  simp only [State.admitGeneral, hg, hw, Bool.false_eq_true, if_false]

/-- A write that was retried tells its port station that it is admitted (R104). -/
theorem State.admitGeneral_retriedWrite (hw : r.rwr = true) {q : Stn} (hq : r.src = .ps q) :
    s.admitGeneral n r =
      (((s.bump (hsCtr n 0)).bumpI r.ci 0x01).addTrk n v true r).sendPs n none r.lix q (.wradm n q r.mid) := by
  simp only [State.admitGeneral, hg, hw, hq, if_true]

end

/-- What a slice does with a general request once its set is checked: `execRequestAdmission`'s effect, by what a fold makes of the
line (tied to the row by `exec_requestAdmission_at`). -/
def State.requestArrives (s : State) (n : Hs) (r : Req) : State :=
  match s.foldAct n r.lix with
  | .own => s.admitGeneral n r
  | .refuse => s.refuseReq n r
  | .forward d =>
    if r.fwd then s.admitGeneral n r
    else if s.fwdOut n ≥ 32 then s.refuseReq n r
    else s.send (hsStop n) (hsStop d) .req false (.fwd n d { r with fwd := true } false) (some (r.itk, r.urg))

theorem State.requestArrives_own (hf : s.foldAct n r.lix = .own) : s.requestArrives n r = s.admitGeneral n r := by
  simp only [State.requestArrives, hf]

theorem State.requestArrives_handover (hf : s.foldAct n r.lix = .refuse) : s.requestArrives n r = s.refuseReq n r := by
  simp only [State.requestArrives, hf]

section
variable {d : Hs} (hf : s.foldAct n r.lix = .forward d) (hr : r.fwd = false)
include hf hr

theorem State.requestArrives_forwarded (hlt : s.fwdOut n < 32) :
    s.requestArrives n r =
      s.send (hsStop n) (hsStop d) .req false (.fwd n d { r with fwd := true } false) (some (r.itk, r.urg)) := by
  simp only [State.requestArrives, hf, hr, ge_iff_le, Nat.not_le.2 hlt, Bool.false_eq_true, if_false]

theorem State.requestArrives_forwardsFull (hge : 32 ≤ s.fwdOut n) : s.requestArrives n r = s.refuseReq n r := by
  simp only [State.requestArrives, hf, hr, ge_iff_le, hge, Bool.false_eq_true, if_false, if_true]

end

/-- What a slice does with a writeback: it goes after a set that has moved, and is admitted by `home` where it is at home. -/
def State.writebackArrives (s : State) (n : Hs) (r : Req) (home : State → Hs → Req → State) : State :=
  match s.wbAct n r.lix with
  | some d => s.fwdWriteback n d r
  | none => home s n r

/-- The rows of `MW`, `CLN` and `BIC` in one, by the class and its admission (tied to them by `exec_mw_eq`, `exec_cln_eq` and
`exec_bic_eq`). -/
def writebackRow (c : Cls) (home : State → Hs → Req → State) (k : Nat) (s : State) : Res :=
  match s.recvHs k (fun m => match m with | .wbm r => if r.cls = c then some r else none | _ => none) with
  | none => stay s
  | some (r, n, s) => .next (s.writebackArrives n r home).pump

theorem exec_mw_eq (k : Nat) (s : State) : exec (.mw k) s = writebackRow .mw State.admitMw k s := rfl

theorem exec_cln_eq (k : Nat) (s : State) : exec (.cln k) s = writebackRow .cln State.admitCln k s := rfl

theorem exec_bic_eq (k : Nat) (s : State) : exec (.bic k) s = writebackRow .bic State.admitBic k s := rfl

theorem State.writebackArrives_home (hw : s.wbAct n r.lix = none) (home : State → Hs → Req → State) :
    s.writebackArrives n r home = home s n r := by
  simp only [State.writebackArrives, hw]

theorem State.writebackArrives_moved {d : Hs} (hw : s.wbAct n r.lix = some d) (home : State → Hs → Req → State) :
    s.writebackArrives n r home = s.fwdWriteback n d r := by
  simp only [State.writebackArrives, hw]

section
variable {k : Nat} {p : Pkt} (h : AtHs s k p n)
include h

/-- A general request that reaches a working slice has its set checked first, where its line is coherent. -/
theorem exec_requestAdmission_at (hb : s.body p = some (.req r)) {errs : List (Nat × EccErr)} {u : State}
    (hu : u = if r.kind = .coh then (s.ejected k p).checkSet n (lineSet r.lix) errs else s.ejected k p) :
    exec (.requestAdmission ⟨k, errs⟩) s = .next (u.requestArrives n r).pump := by
  subst hu
  show execRequestAdmission ⟨k, errs⟩ s = _
  unfold execRequestAdmission
  rw [recvHs_at (a := r) h (by rw [hb]; rfl)]
  rfl

section
variable {c : Cls} (hb : s.body p = some (.wbm r)) (hc : r.cls = c) {u : State} (hu : u = s.ejected k p)
  {home : State → Hs → Req → State}
include hb hc hu

theorem writebackRow_at : writebackRow c home k s = .next (u.writebackArrives n r home).pump := by
  subst hu
  unfold writebackRow
  rw [recvHs_at (a := r) h (by simp only [hb, Option.bind_some, hc, if_true])]

theorem writebackRow_home (hw : u.wbAct n r.lix = none) : writebackRow c home k s = .next (home u n r).pump := by
  rw [writebackRow_at h hb hc hu, State.writebackArrives_home hw]

theorem writebackRow_moved {d : Hs} (hw : u.wbAct n r.lix = some d) : writebackRow c home k s = .next (u.fwdWriteback n d r).pump := by
  rw [writebackRow_at h hb hc hu, State.writebackArrives_moved hw]

end

end

end

/-- Settles O26: a request by what a fold makes of its line and by the entry it gets, a writeback by whether its set has moved. -/
theorem homeRequestsComplete : Obligations.HomeRequestsComplete := by
  intro s k p n r h
  refine ⟨fun hb errs u hu => ?request, fun hb u hu => ?writeback⟩
  case request =>
    rw [exec_requestAdmission_at h hb hu]
    refine ⟨fun hf => ?_, fun hf => ?_, fun d hf hr => ⟨fun hlt => ?_, fun hge => ?_⟩⟩
    · rw [State.requestArrives_own hf]
      refine ⟨?_, fun hg => by rw [State.admitGeneral_refused hg]⟩
      rintro v hg t rfl
      exact ⟨fun hw => by rw [State.admitGeneral_entered hg hw], fun hw q hq => by rw [State.admitGeneral_retriedWrite hg hw hq]⟩
    · rw [State.requestArrives_handover hf]
    · rw [State.requestArrives_forwarded hf hr hlt]
    · rw [State.requestArrives_forwardsFull hf hr hge]
  case writeback =>
    rw [exec_mw_eq, exec_cln_eq, exec_bic_eq]
    refine ⟨fun hw => ?home, fun d hw => ?moved⟩
    case home => exact ⟨fun hc => writebackRow_home h hb hc hu hw, fun hc => writebackRow_home h hb hc hu hw,
      fun hc => writebackRow_home h hb hc hu hw⟩
    case moved => exact ⟨fun hc => writebackRow_moved h hb hc hu hw, fun hc => writebackRow_moved h hb hc hu hw,
      fun hc => writebackRow_moved h hb hc hu hw⟩

/-! ### Snoop answers, snoop timeouts and hold windows at a home slice (R126, R131 to R133, R154, R155, R418; log entry 71) -/

section
variable {s : State} {n : Hs} {a : SAns}

/-- Request `x` has a snoop out that `a` may answer: one to its agent, sent, and with no answer held yet. -/
def Trk.awaits (x : Trk) (a : SAns) : Bool := x.snps.any fun o => o.cax == a.cax && o.sent && o.parked.isNone

/-- What a slice does with a snoop answer once it has its sample: `execSliceSnoopResponse`'s effect (tied to the row by
`exec_sliceSnoopResponse_at`). -/
def State.answerArrives (s : State) (n : Hs) (a : SAns) : State :=
  if (s.trk n a.t).any (·.awaits a) = false then s.lateRsp n a
  else if !a.wbw || (s.slice n).admgOf a.ps a.wbc == a.wbg then s.applyAns n a.t a
  else s.modTrk n a.t fun x =>
    { x with snps := x.snps.map fun (o : SnpOut) => if o.cax == a.cax then { o with parked := some a } else o }

theorem State.answerArrives_noRequest (hx : s.trk n a.t = none) : s.answerArrives n a = s.lateRsp n a := by
  simp only [State.answerArrives, hx, Option.any_none, if_true]

section
variable {x : Trk} (hx : s.trk n a.t = some x)
include hx

theorem State.answerArrives_late (ha : x.awaits a = false) : s.answerArrives n a = s.lateRsp n a := by
  simp only [State.answerArrives, hx, Option.any_some, ha, if_true]

theorem State.answerArrives_applied (ha : x.awaits a = true) (hw : a.wbw = false ∨ (s.slice n).admgOf a.ps a.wbc = a.wbg) :
    s.answerArrives n a = s.applyAns n a.t a := by
  have hadm : (!a.wbw || (s.slice n).admgOf a.ps a.wbc == a.wbg) = true := by
    rcases hw with h | h <;> simp [h]
  simp only [State.answerArrives, hx, Option.any_some, ha, hadm, Bool.true_eq_false, if_false, if_true]

/-- The writeback that the answer names is on its way still: the snoop holds the answer (R155). -/
theorem State.answerArrives_held (ha : x.awaits a = true) (hw : a.wbw = true) (hg : (s.slice n).admgOf a.ps a.wbc ≠ a.wbg) :
    s.answerArrives n a = s.modTrk n a.t fun x =>
      { x with snps := x.snps.map fun (o : SnpOut) => if o.cax == a.cax then { o with parked := some a } else o } := by
  have hadm : (!a.wbw || (s.slice n).admgOf a.ps a.wbc == a.wbg) = false := by simp [hw, hg]
  simp only [State.answerArrives, hx, Option.any_some, ha, hadm, Bool.true_eq_false, Bool.false_eq_true, if_false]

end

theorem exec_sliceSnoopResponse_at {k : Nat} {p : Pkt} (h : AtHs s k p n) (hb : s.body p = some (.sans a)) :
    exec (.sliceSnoopResponse k) s = .next (((s.ejected k p).sample n a).answerArrives n a).pump := by
  show execSliceSnoopResponse k s = _
  unfold execSliceSnoopResponse
  rw [recvHs_at (a := a) h (by rw [hb]; rfl)]
  cases hx : ((s.ejected k p).sample n a).trk n a.t with
  | none => simp only [hx, State.answerArrives_noRequest hx, Bool.not_false, if_true]
  | some x =>
    simp only [hx, State.answerArrives, Option.any_some, Trk.awaits, Bool.not_eq_true']

section
variable {t : Nat} {c : Cax} {x : Trk} {o : SnpOut} {u : State} (hx : s.trk n t = some x)
  (ho : (x.snps.find? fun o => o.cax == c) = some o) (hs : o.sent = true) (hp : o.parked = none) (hn : s.hsUp n = true)
  (hu : u = ((s.goTo o.deadline).bump (hsCtr n 3)).bumpI x.req.ci 0x04)
include hx ho hs hp hn hu

theorem exec_snoopTimeout_sentAgain (ha : o.att < u.params.biRetry) :
    exec (.snoopTimeout n t c) s = .next (u.snoopOut n t x.req.ci x.req.lix { o with att := o.att + 1 }).pump.closeCycle := by
  subst hu
  show execSnoopTimeout n t c s = _
  simp only [execSnoopTimeout, hx, ho, hs, hp, hn, ha, Option.isSome_none, Bool.not_true, Bool.or_self, Bool.false_eq_true, if_false,
    if_true]

theorem exec_snoopTimeout_failed (ha : u.params.biRetry ≤ o.att) :
    exec (.snoopTimeout n t c) s = .next (u.failAgent n c x.req.lix x.req.ci).pump.closeCycle := by
  subst hu
  show execSnoopTimeout n t c s = _
  simp only [execSnoopTimeout, hx, ho, hs, hp, hn, Nat.not_lt.2 ha, Option.isSome_none, Bool.not_true, Bool.or_self, Bool.false_eq_true,
    if_false]

end

theorem exec_holdWindowExpiry_ends {l : Lix} {c : Cax} {h : HoldEnt}
    (hh : ((s.slice n).hold.find? fun h => h.lix == l && h.cax == c) = some h) :
    exec (.holdWindowExpiry n l c) s = .next (((s.goTo h.expiry).modSlice n fun x =>
      { x with hold := x.hold.filter fun y => !(y.lix == l && y.cax == c) }).flushHeld n).pump := by
  show execHoldWindowExpiry n l c s = _
  simp only [execHoldWindowExpiry, hh]

end

/-- Settles O27: an answer by the snoop it finds and the writeback it names, a timeout by the attempts made, a hold window by its end. -/
theorem snoopAnswersReachTheSlice : Obligations.SnoopAnswersReachTheSlice := by
  intro s k p n t c l
  refine ⟨?answer, fun x o u hx ho hs hp hn hu =>
    ⟨exec_snoopTimeout_sentAgain hx ho hs hp hn hu, exec_snoopTimeout_failed hx ho hs hp hn hu⟩, fun h => exec_holdWindowExpiry_ends⟩
  rintro h a u hb rfl
  rw [exec_sliceSnoopResponse_at h hb]
  refine ⟨fun hx => ?_, fun x hx => ⟨fun ha => ⟨fun hw => ?_, fun hw hg => ?_⟩, fun ha => ?_⟩⟩
  · rw [State.answerArrives_noRequest hx]
  · rw [State.answerArrives_applied hx ha hw]
  · rw [State.answerArrives_held hx ha hw hg]
  · rw [State.answerArrives_late hx ha]

/-! ### What arrives at a port station (R103 to R105, R135, R144, R156, R163, R164, R177, R271, R319) -/

section
variable {s : State} {n : Stn}

theorem exec_requestReinject_due {mid : Nat} {m : Outst} {due : Tick} (hm : ((s.ps n).msgs.find? fun m => m.req.mid == mid) = some m)
    (hst : m.st = .reinject due) (hn : s.psUp n = true) :
    exec (.requestReinject n mid) s = .next (((s.goTo due).inject n m).pumpPort n) := by
  show execRequestReinject n mid s = _
  simp only [execRequestReinject, hm, hst, hn, Bool.not_true, Bool.false_eq_true, if_false]

variable {k : Nat} {p : Pkt} {u : State} (h : AtPs s k p n) (hu : u = s.ejected k p)
include h hu

section
variable {r : Req} {m : Outst} {v : State} (hb : s.body p = some (.retry r))
  (hm : ((u.ps n).msgs.find? fun m => m.req.mid == r.mid) = some m)
  (hv : v = if m.cred && !r.fwd then u.modPs n fun p => p.setCred m.dest m.req.wbc fun x => (false, x.2) else u)
include hb hm hv

theorem exec_retry_waits (ho : m.old = false) :
    exec (.retry k) s = .next ((v.modPs n fun p => { p with
      msgs := updWhere (fun x => x.req.mid == r.mid)
        (fun x => { x with req := { r with fwd := false }, st := .reinject (v.clk.tick + 1), cred := false }) p.msgs }).pumpPort n) := by
  subst hu hv
  show execRetry k s = _
  unfold execRetry
  rw [recvPs_at (a := r) h (by rw [hb]; rfl)]
  simp only [hm, ho, Bool.false_eq_true, if_false]

/-- The message is of a lost session: it is given up (R163). -/
theorem exec_retry_givenUp (ho : m.old = true) {w : State} (hw : w = (v.freeMsg n r).retire n m) :
    exec (.retry k) s = .next ((if r.cls = .aop then w.genDec r.ci r.gen else w).pumpPort n) := by
  subst hu hv hw
  show execRetry k s = _
  unfold execRetry
  rw [recvPs_at (a := r) h (by rw [hb]; rfl)]
  simp only [hm, ho, if_true]

end

theorem exec_wbcr_at {d : Hs} {q : Stn} {c : BitVec 4} (hb : s.body p = some (.wbcr d q c)) :
    exec (.wbcr k) s = .next ((u.credBack n d c).pumpPort n) := by
  subst hu
  show execWbcr k s = _
  unfold execWbcr
  rw [recvPs_at (a := (d, c)) h (by rw [hb]; rfl)]

theorem exec_wradm_at {d : Hs} {q : Stn} {mid : Nat} (hb : s.body p = some (.wradm d q mid)) :
    exec (.wradm k) s = .next ((u.modPs n fun p => { p with
      msgs := updWhere (fun m => m.req.mid == mid) (fun m => { m with req := { m.req with rwr := false } }) p.msgs }).pumpPort n) := by
  subst hu
  show execWradm k s = _
  unfold execWradm
  rw [recvPs_at (a := mid) h (by rw [hb]; rfl)]

theorem exec_rspack_at {d : Hs} {q : Stn} {c : BitVec 4} (hb : s.body p = some (.rspack d q c)) :
    exec (.rspack k) s = .next ((u.modPs n fun p => p.setCred d c fun x => (x.1, false)).pumpPort n) := by
  subst hu
  show execRspack k s = _
  unfold execRspack
  rw [recvPs_at (a := (d, c)) h (by rw [hb]; rfl)]

end

/-- The writeback credit that completion `c` brings back, if any, returned (R103). -/
def State.credOfCpl (s : State) (n : Stn) (c : Cpl) : State :=
  match c.wbc, c.hs with
  | some w, some h => s.credBack n h w
  | _, _ => s

/-- The place of a lost session's completion in the agent's data store, if it has one, freed (R164). -/
def State.dstFreed (s : State) (n : Stn) (c : Cpl) : State :=
  match c.dst with
  | some d => if c.ord = .none then s else s.emit (.dord n d .dfree c.rgen)
  | none => s

/-- What a port station does with a completion whose credit has been returned: `execCompletionDelivery`'s effect, by the message that it
completes (tied to the row by `exec_completionDelivery_at`). -/
def State.cplArrives (s : State) (n : Stn) (c : Cpl) : Res :=
  match (s.ps n).msgs.find? fun m => m.req.mid == c.mid with
  | none => .next ((s.dstFreed n c).pumpPort n)
  | some m =>
    .next (((if m.old then s.dstFreed n c else s.emit (.cpl { c with grant := s.grantFor c.rqid c.grant })).retire n m).pumpPort n)

section
variable {s : State} {n : Stn} {c : Cpl} {m : Outst} (hm : ((s.ps n).msgs.find? fun m => m.req.mid == c.mid) = some m)
include hm

theorem State.cplArrives_delivered (ho : m.old = false) :
    s.cplArrives n c = .next (((s.emit (.cpl { c with grant := s.grantFor c.rqid c.grant })).retire n m).pumpPort n) := by
  simp only [State.cplArrives, hm, ho, Bool.false_eq_true, if_false]

/-- The message is of a lost session: only its place in the agent's data store is freed. -/
theorem State.cplArrives_freed (ho : m.old = true) {d : Dst} (hd : c.dst = some d) (hord : c.ord ≠ .none) :
    s.cplArrives n c = .next (((s.emit (.dord n d .dfree c.rgen)).retire n m).pumpPort n) := by
  simp only [State.cplArrives, State.dstFreed, hm, ho, hd, hord, if_true, if_false]

end

section
variable {s : State} {k : Nat} {p : Pkt} {n : Stn} (h : AtPs s k p n)
include h

theorem exec_completionDelivery_at {c : Cpl} (hb : s.body p = some (.cpl c)) :
    exec (.completionDelivery k) s = ((s.ejected k p).credOfCpl n c).cplArrives n c := by
  show execCompletionDelivery k s = _
  unfold execCompletionDelivery
  rw [recvPs_at (a := .inl c) h (by rw [hb]; rfl)]
  rfl

section
variable {x : Snp} {rq : Rqid} {a : Agent} {u : State} (hu : u = s.ejected k p) (hb : s.body p = some (.snp x))
  (ha : u.caxAgent x.cax = some (rq, a))
include hu hb ha

theorem exec_snoopDelivery_queued (hl : ((u.ps n).snq.filter fun q => q.lp == a.lport.setWidth 7 && q.given.isNone).length < 32) :
    exec (.snoopDelivery k) s = .next ((u.modPs n fun p => { p with
      snq := p.snq ++ [{ sn := x, lp := a.lport.setWidth 7, rqid := rq, sess := a.sess, nsmp := a.lst == .down, given := none,
                         block := 0 }] }).deliverAll n) := by
  subst hu
  show execSnoopDelivery k s = _
  unfold execSnoopDelivery
  rw [recvPs_at (a := x) h (by rw [hb]; rfl)]
  simp only [ha, ge_iff_le, Nat.not_le.2 hl, if_false]

theorem exec_snoopDelivery_busy (hl : 32 ≤ ((u.ps n).snq.filter fun q => q.lp == a.lport.setWidth 7 && q.given.isNone).length) :
    exec (.snoopDelivery k) s = .next ((u.bump (psCtr n 3)).send (psStop n) (hsStop x.hs) .rsp false (.snpBusy x)) := by
  subst hu
  show execSnoopDelivery k s = _
  unfold execSnoopDelivery
  rw [recvPs_at (a := x) h (by rw [hb]; rfl)]
  simp only [ha, ge_iff_le, hl, if_true]

end

end

/-- Settles O23: the refused request by its wait, and every message that arrives by its row. -/
theorem portArrivalsComplete : Obligations.PortArrivalsComplete := by
  intro s k p n
  refine ⟨fun mid m due => exec_requestReinject_due, fun h u hu => ⟨fun r m hb hm v hv => ?_, fun d q c => exec_wbcr_at h hu,
    fun d q mid => exec_wradm_at h hu, fun d q c => exec_rspack_at h hu, ?completion, fun x rq a hb ha => ?_⟩⟩
  · exact ⟨exec_retry_waits h hu hb hm hv, fun ho w hw => exec_retry_givenUp h hu hb hm hv ho hw⟩
  case completion =>
    intro c m v hb hv hm
    replace hv : v = (s.ejected k p).credOfCpl n c := hu ▸ hv
    rw [exec_completionDelivery_at h hb, ← hv]
    exact ⟨State.cplArrives_delivered hm, fun ho d hd hord => State.cplArrives_freed hm ho hd hord⟩
  · exact ⟨exec_snoopDelivery_queued h hu hb ha, exec_snoopDelivery_busy h hu hb ha⟩

end Sys2Proof.Machine

namespace Sys2Proof.Machine

open Sys2Proof

/-! ### Snoop response words, SNPBUSY and a Global Persistent Flush (R132, R144, R152, R154, R322, R498, R499, R507, R508) -/

/-- The snoops of station `n` that a block response naming `q` answers: those of `q`'s block, from line `b` on, that were delivered with
`q` and wait still (R508; tied to the row by `exec_snoopResponse_block`). -/
def State.blockWaiting (s : State) (n : Stn) (q : SnQ) (b : Nat) : List SnQ :=
  (s.ps n).snq.filter fun x =>
    x.given.isSome && x.lp == q.lp && x.block == q.block && x.rqid == q.rqid && x.sn.form == q.sn.form && x.sess == q.sess &&
      decide (b ≤ x.sn.lix.toNat) && decide (x.sn.lix.toNat < b + q.block)

section
variable {s : State} {n : Stn} {w : BitVec 160}

section
variable {r : SRsp} {blk : Bool} (hn : s.psUp n = true) (hw : wKind w = 2) (hr : wRsp w = some (r, blk))
include hn hw hr

/-- A response word that names no snoop delivered is counted as late (R132). -/
theorem exec_snoopResponse_late (hq : ((s.ps n).snq.find? fun q => q.named (wLp w) (w.extractLsb' 29 12) blk) = none) :
    exec (.snoopResponse n w) s = .next (s.bump (psCtr n 4)) := by
  show execSnoopResponse n w s = _
  simp only [execSnoopResponse, hn, hw, hr, hq, bne_self_eq_false, Bool.not_true, Bool.or_self, Bool.false_eq_true, if_false]

variable {q : SnQ} (hq : ((s.ps n).snq.find? fun q => q.named (wLp w) (w.extractLsb' 29 12) blk) = some q)
include hq

theorem exec_snoopResponse_line (hblk : blk = false) :
    exec (.snoopResponse n w) s = .next (((s.answerLine n r q).pumpPort n).deliverAll n) := by
  subst hblk
  show execSnoopResponse n w s = _
  simp only [execSnoopResponse, hn, hw, hr, hq, bne_self_eq_false, Bool.not_true, Bool.or_self, Bool.false_eq_true, if_false,
    List.foldl_cons, List.foldl_nil, State.bumpN]

/-- The lines of the block that were answered before are counted as late (R508). -/
theorem exec_snoopResponse_block (hblk : blk = true) {b : Nat} (hb : b = q.sn.lix.toNat / max q.block 1 * max q.block 1) {l : List SnQ}
    (hl : l = s.blockWaiting n q b) :
    exec (.snoopResponse n w) s =
      .next (((l.foldl (fun s x => s.answerLine n r x) (s.bumpN (psCtr n 4) (q.block - l.length))).pumpPort n).deliverAll n) := by
  subst hblk hb hl
  show execSnoopResponse n w s = _
  simp only [execSnoopResponse, hn, hw, hr, hq, bne_self_eq_false, Bool.not_true, Bool.or_self, Bool.false_eq_true, if_false, if_true,
    State.blockWaiting]

end

/-- The slice takes the packet and changes nothing else (R144). -/
theorem exec_snpbusy_at {k : Nat} {p : Pkt} {d : Hs} (h : AtHs s k p d) {x : Snp} (hb : s.body p = some (.snpBusy x)) :
    exec (.snpbusy k) s = .next (s.ejected k p) := by
  show execSnpbusy k s = _
  unfold execSnpbusy
  rw [recvHs_at (a := x) h (by rw [hb]; rfl)]

theorem exec_gpfReq_queued (hn : s.works (psDom n) = true) :
    exec (.gpfReq n) s =
      .next ((({ s with gpfSeq := s.gpfSeq + 1 } : State).modPs n fun p => { p with gpf := p.gpf ++ [s.gpfSeq] }).later 1
        (.gpfFlag s.gpfSeq)) := by
  show execGpfReq n s = _
  simp only [execGpfReq, hn, Bool.not_true, Bool.false_eq_true, if_false]

end

/-- Settles O24: a response word by the snoop it names, if any, and by whether it answers a line or a block; SNPBUSY and the flush by
their rows. -/
theorem snoopAnswersAndFlushComplete : Obligations.SnoopAnswersAndFlushComplete := by
  intro s n w k p d
  refine ⟨fun hn hw r blk hr => ⟨fun q hq => ?named, exec_snoopResponse_late hn hw hr⟩, fun h x => exec_snpbusy_at h, exec_gpfReq_queued⟩
  exact ⟨exec_snoopResponse_line hn hw hr hq, fun hblk b l hb hl => exec_snoopResponse_block hn hw hr hq hblk hb hl⟩

end Sys2Proof.Machine

namespace Sys2Proof.Machine

open Sys2Proof

/-! ### Accepted register accesses, and the queue that they name (R12, R14, R187, R189, R190, R215, R242, R452, R538, R545 to R549) -/

/-- An access names at most one register of a queue block: its offset is that of the register in the block of its queue. -/
theorem RegAcc.off_of_qreg {a : RegAcc} {off : Nat} {q : Bool} (h : a.qreg off = some q) :
    a.off.toNat / 8 * 8 = (if q then 0x200 else 0x100) + off := by
  simp only [RegAcc.qreg, RegAcc.iw, Bool.and_eq_true, beq_iff_eq] at h
  split at h
  · next hlow =>
    cases h
    simpa using hlow.2
  · split at h
    · next hhigh =>
      cases h
      simpa using hhigh.2
    · cases h

theorem lt_of_mem_placeRegs {off : Nat} (h : off ∈ placeRegs) : off < 0x100 := by
  revert off
  decide

/-- The search for the placement register finds the one that the access names. -/
theorem placeRegs_findSome_qreg {a : RegAcc} {off : Nat} {q : Bool} (hmem : off ∈ placeRegs) (hq : a.qreg off = some q) :
    (placeRegs.findSome? fun off => (a.qreg off).map fun q => (off, q)) = some (off, q) := by
  cases hfound : placeRegs.findSome? fun off => (a.qreg off).map fun q => (off, q) with
  | none =>
    have hnone := List.findSome?_eq_none_iff.1 hfound off hmem
    simp [hq] at hnone
  | some r =>
    obtain ⟨off', hmem', hr⟩ := List.exists_of_findSome?_eq_some hfound
    obtain ⟨q', hq', rfl⟩ := Option.map_eq_some_iff.1 hr
    have hsame : off' = off := by
      have h := RegAcc.off_of_qreg hq
      have h' := RegAcc.off_of_qreg hq'
      have := lt_of_mem_placeRegs hmem
      have := lt_of_mem_placeRegs hmem'
      cases q <;> cases q' <;> simp only [Bool.false_eq_true, if_true, if_false] at h h' <;> omega
    subst hsame
    cases hq.symm.trans hq'
    rfl

@[simp] theorem Inst.st_setGq (i : Inst) (e : Bool) (g : GQueue) : (i.setGq e g).st = i.st := by cases e <;> rfl

@[simp] theorem State.st_modGq (s : State) (c : Ci) (e : Bool) (f : GQueue → GQueue) : ((s.modGq c e f).inst c).st = (s.inst c).st := by
  simp [State.modGq, State.modInst]

/-! #### What each happening does to its queue -/

/-- A write of the enable bit as 1 (R546): the effect of `execQueueEnable` (tied to the row by `exec_queueEnable_accepted`). -/
def State.enableQueue (s : State) (c : Ci) (q : Bool) : State :=
  if ((s.inst c).gq q).en && !((s.inst c).gq q).stopping then s
  else if (s.inst c).placeOk ((s.inst c).gq q) then s.modGq c q fun g => { g with en := true, stopping := false }
  else (s.modGq c q fun g => { g with en := false, stopping := false }).gqErr c q 0

/-- The doorbell `v` of requester `rq`, stored in its queue (R549). -/
def GQueue.stored (g : GQueue) (v : BitVec 17) (rq : Rqid) : GQueue := { g with db := v, dbWait := some rq }

/-- The queue that a doorbell has been stored in is tested at once, where it is enabled and its CI is `ACTIVE` (R549; tied to the row by
`exec_doorbell_accepted`). -/
def State.bellNow (u : State) (c : Ci) (q : Bool) (rq : Rqid) : State :=
  if ((u.inst c).gq q).en && (u.inst c).st == .active then u.bellTest c q rq else u

section
variable {s : State} {c : Ci} {q : Bool} {g : GQueue}

/-- A doorbell in range becomes the accepted index (R187). -/
theorem State.gq_bellTest_inRange (hg : g = (s.inst c).gq q) (hlo : (g.pacc - g.cons).toNat ≤ (g.db - g.cons).toNat)
    (hhi : (g.db - g.cons).toNat ≤ 2 ^ g.dqSize.toNat) (rq : Rqid) :
    ∃ l, ((s.bellTest c q rq).inst c).gq q = { g with pacc := g.db, dbWait := none, rungBy := l } := by
  subst hg
  simp only [State.bellTest, hlo, hhi, decide_true, Bool.and_self, if_true, State.gq_modGq]
  exact ⟨_, rfl⟩

/-- Any other is dropped, and is an error (R187, R547). -/
theorem State.bellTest_outOfRange (hg : g = (s.inst c).gq q)
    (h : (g.db - g.cons).toNat < (g.pacc - g.cons).toNat ∨ 2 ^ g.dqSize.toNat < (g.db - g.cons).toNat) (rq : Rqid) :
    s.bellTest c q rq = (s.modGq c q fun g => { g with db := g.pacc, dbWait := none }).gqErr c q 1 := by
  subst hg
  have hout : ¬ ((((s.inst c).gq q).pacc - ((s.inst c).gq q).cons).toNat ≤ (((s.inst c).gq q).db - ((s.inst c).gq q).cons).toNat ∧
      (((s.inst c).gq q).db - ((s.inst c).gq q).cons).toNat ≤ 2 ^ ((s.inst c).gq q).dqSize.toNat) := by omega
  simp only [State.bellTest, Bool.and_eq_true, decide_eq_true_eq, if_neg hout]

theorem State.gq_bellTest_outOfRange (hg : g = (s.inst c).gq q)
    (h : (g.db - g.cons).toNat < (g.pacc - g.cons).toNat ∨ 2 ^ g.dqSize.toNat < (g.db - g.cons).toNat) (rq : Rqid) :
    ∃ v : BitVec 64, v.getLsbD 1 = true ∧
      ((s.bellTest c q rq).inst c).gq q = ({ g with db := g.pacc, dbWait := none } : GQueue).setErr v := by
  rw [State.bellTest_outOfRange hg h, State.gq_gqErr, State.gq_modGq, ← hg]
  exact ⟨_, State.hwSet_bit _ _ _ _ _ (by decide), rfl⟩

section
variable {u : State} {v : BitVec 17} {rq : Rqid}
variable (hu : (u.inst c).gq q = g.stored v rq)
include hu

theorem State.gq_bellNow_waits (h : g.en = false ∨ (u.inst c).st ≠ .active) :
    ((u.bellNow c q rq).inst c).gq q = { g with db := v, dbWait := some rq } := by
  have hoff : ((g.stored v rq).en && (u.inst c).st == .active) = false := by
    rcases h with h | h
    · simp [GQueue.stored, h]
    · simp [h]
  simp only [State.bellNow, hu, hoff, Bool.false_eq_true, if_false]
  rfl

section
variable (hen : g.en = true) (hst : (u.inst c).st = .active)
include hen hst

theorem State.bellNow_tested : u.bellNow c q rq = u.bellTest c q rq := by
  have hon : (g.stored v rq).en = true := hen
  simp only [State.bellNow, hu, hon, hst, beq_self_eq_true, Bool.and_self, if_true]

theorem State.gq_bellNow_inRange (hlo : (g.pacc - g.cons).toNat ≤ (v - g.cons).toNat) (hhi : (v - g.cons).toNat ≤ 2 ^ g.dqSize.toNat) :
    ∃ l, ((u.bellNow c q rq).inst c).gq q = { g with pacc := v, db := v, dbWait := none, rungBy := l } := by
  rw [State.bellNow_tested hu hen hst]
  exact State.gq_bellTest_inRange hu.symm hlo hhi rq

theorem State.gq_bellNow_outOfRange (h : (v - g.cons).toNat < (g.pacc - g.cons).toNat ∨ 2 ^ g.dqSize.toNat < (v - g.cons).toNat) :
    ∃ e : BitVec 64, e.getLsbD 1 = true ∧ ((u.bellNow c q rq).inst c).gq q = ({ g with db := g.pacc, dbWait := none } : GQueue).setErr e := by
  rw [State.bellNow_tested hu hen hst]
  exact State.gq_bellTest_outOfRange hu.symm h rq

end

end

theorem State.gq_enableQueue_placed (hg : g = (s.inst c).gq q) (hen : g.en = false) (hp : (s.inst c).placeOk g = true) :
    ((s.enableQueue c q).inst c).gq q = { g with en := true, stopping := false } := by
  subst hg
  simp only [State.enableQueue, hen, hp, Bool.false_and, Bool.false_eq_true, if_false, if_true, State.gq_modGq]

theorem State.gq_enableQueue_misplaced (hg : g = (s.inst c).gq q) (hen : g.en = false) (hp : (s.inst c).placeOk g = false) :
    ∃ v : BitVec 64, v.getLsbD 0 = true ∧
      ((s.enableQueue c q).inst c).gq q = ({ g with en := false, stopping := false } : GQueue).setErr v := by
  subst hg
  simp only [State.enableQueue, hen, hp, Bool.false_and, Bool.false_eq_true, if_false, State.gq_gqErr, State.gq_modGq]
  exact ⟨_, State.hwSet_bit _ _ _ _ _ (by decide), rfl⟩

/-- The enable bit of a queue that stops falls (R215, R546). -/
theorem State.gq_apply_queueOff (hg : g = (s.inst c).gq q) (h : g.stopping = true) :
    ((s.apply (.queueOff c q)).inst c).gq q = { g with en := false, stopping := false } := by
  subst hg
  show ((s.modGq c q fun g => if g.stopping then { g with en := false, stopping := false } else g).inst c).gq q = _
  simp only [State.gq_modGq, h, if_true]

end

/-! #### The rows of the registers, once the access is accepted -/

theorem State.regWrite_accepted {s : State} {a : RegAcc} (hup : s.regUp a = true) (hr : s.refuseReg a = none) (f : State → State) :
    s.regWrite a f = .next ((f s).emit (.regAck a)) := by
  simp only [State.regWrite, hup, hr, Bool.not_true, Bool.false_eq_true, if_false]

section
variable {a : RegAcc} {s : State} {q : Bool} (hup : s.regUp a = true) (hr : s.refuseReg a = none)
include hup hr

/-- A doorbell is stored, and tested at once where its queue is enabled and its CI is `ACTIVE` (R549). -/
theorem exec_doorbell_accepted (hq : a.qreg 0x20 = some q) (hh : a.hits 17 = true) {u : State}
    (hu : u = s.modGq a.ci q fun g => g.stored ((a.over (g.db.setWidth 64)).setWidth 17) a.rqid) :
    exec (.doorbell a) s = .next ((u.bellNow a.ci q a.rqid).emit (.regAck a)) := by
  subst hu
  show execDoorbell a s = _
  simp only [execDoorbell, hq, State.regWrite_accepted hup hr, State.ring, hh, Bool.not_true, Bool.false_eq_true, if_false]
  rfl

theorem exec_queueEnable_accepted (hq : a.qreg 0x18 = some q) (hh : a.hits 1 = true) (hb : a.bits.getLsbD 0 = true) :
    exec (.queueEnable a) s = .next ((s.enableQueue a.ci q).emit (.regAck a)) := by
  show execQueueEnable a s = _
  simp only [execQueueEnable, hq, hh, hb, State.regWrite_accepted hup hr, Bool.and_self, Bool.not_true, Bool.false_eq_true, if_false]
  rfl

theorem exec_queueDisable_accepted (hq : a.qreg 0x18 = some q) (hh : a.hits 1 = true) (hb : a.bits.getLsbD 0 = false)
    (hen : ((s.inst a.ci).gq q).en = true) :
    exec (.queueDisable a) s =
      .next (((s.modGq a.ci q fun g => { g with stopping := true }).later 1 (.queueOff a.ci q)).emit (.regAck a)) := by
  show execQueueDisable a s = _
  simp only [execQueueDisable, hq, hh, hb, hen, State.regWrite_accepted hup hr, Bool.and_false, Bool.and_self, Bool.false_eq_true,
    if_false, if_true]

section
variable {off : Nat} (hf : (placeRegs.findSome? fun off => (a.qreg off).map fun q => (off, q)) = some (off, q))
  (hh : a.hits (if off = 0x00 || off = 0x30 then 40 else 8) = true)
include hf hh

theorem exec_placementWrite_placed (hen : ((s.inst a.ci).gq q).en = false) (hn : s.ngrp a.ci q = 0) :
    exec (.placementWrite a) s = .next ((s.modGq a.ci q fun g => g.place off a.over).emit (.regAck a)) := by
  show execPlacementWrite a s = _
  simp only [execPlacementWrite, hf, hh, hen, hn, State.regWrite_accepted hup hr, gt_iff_lt, Nat.lt_irrefl, decide_false, Bool.or_self,
    Bool.not_true, Bool.false_eq_true, if_false]

/-- A queue that is enabled or has groups keeps its placement (R545). -/
theorem exec_placementWrite_ignored (h : ((s.inst a.ci).gq q).en = true ∨ 0 < s.ngrp a.ci q) :
    exec (.placementWrite a) s = .next ((s.gqErr a.ci q 2).emit (.regAck a)) := by
  have hbusy : (((s.inst a.ci).gq q).en || decide (s.ngrp a.ci q > 0)) = true := by simpa using h
  show execPlacementWrite a s = _
  simp only [execPlacementWrite, hf, hh, hbusy, State.regWrite_accepted hup hr, Bool.not_true, Bool.false_eq_true, if_false, if_true]

end

theorem exec_sqnConsWrite_accepted (hq : a.qreg 0x50 = some q) (hh : a.hits 16 = true) {g : GQueue} {v : BitVec 16}
    (hg : g = (s.inst a.ci).gq q) (hv : v = (a.over (g.scons.setWidth 64)).setWidth 16) :
    exec (.sqnConsWrite a) s = .next ((if (v - g.scons).toNat ≤ (g.prodAt s.clk - g.scons).toNat
      then s.modGq a.ci q fun g => { g with scons := v } else s.gqErr a.ci q 3).emit (.regAck a)) := by
  subst hv hg
  show execSqnConsWrite a s = _
  simp only [execSqnConsWrite, hq, hh, State.regWrite_accepted hup hr, Bool.not_true, Bool.false_eq_true, if_false]

theorem exec_wkick_restarts (ha : a.mw 0x18 = true) (hmc : a.mc = true) (hh : a.hits 16 = true) (hb : a.bits.extractLsb' 0 16 = 0x5A5A)
    (hw : s.mc.wdog.isSome = true) :
    exec (.wkick a) s = .next (({ s with mc := { s.mc with wdog := some (s.timer 1250000) } } : State).emit (.regAck a)) := by
  show execWkick a s = _
  simp only [execWkick, ha, hmc, hh, hb, hw, State.regWrite_accepted hup hr, beq_self_eq_true, Bool.and_self, if_true]

theorem exec_registerWrite_plain (ho : ownRow a = false) : exec (.registerWrite a) s = .next ((s.plainWrite a).emit (.regAck a)) := by
  show execRegisterWrite a s = _
  simp only [execRegisterWrite, ho, State.regWrite_accepted hup hr, Bool.false_and, Bool.false_eq_true, if_false]

/-- A read changes nothing but the answer that it sends (R242). -/
theorem exec_registerRead_accepted : exec (.refusedRegisterRead a) s = .next (s.emit (.regData a (s.regValue a))) := by
  show execRefusedRegisterRead a s = _
  simp only [execRefusedRegisterRead, hup, hr, Bool.not_true, Bool.false_eq_true, if_false]

end

/-- Settles O20: each register by its row, once the access is accepted. -/
theorem registerCommandsComplete : Obligations.RegisterCommandsComplete := by
  intro a s q hup hr
  exact ⟨fun hq hh u hu => exec_doorbell_accepted hup hr hq hh hu,
    fun hq hh => ⟨exec_queueEnable_accepted hup hr hq hh, exec_queueDisable_accepted hup hr hq hh⟩,
    fun off hf hh => ⟨exec_placementWrite_placed hup hr hf hh, exec_placementWrite_ignored hup hr hf hh⟩,
    fun hq hh g v => exec_sqnConsWrite_accepted hup hr hq hh, exec_wkick_restarts hup hr, exec_registerWrite_plain hup hr,
    exec_registerRead_accepted hup hr⟩

/-! ### Stored doorbells, and each register of a queue (R187, R215, R545 to R547, R549) -/

theorem exec_deferredDoorbellTest_tested {s t : State} {ci : Ci} {q : Bool} {rq : Rqid} (hw : ((s.inst ci).gq q).dbWait = some rq)
    (ht : t = s.toPhase0) (hen : ((t.inst ci).gq q).en = true) (hst : (t.inst ci).st = .active) :
    exec (.deferredDoorbellTest ci q) s = .next (t.bellTest ci q rq) := by
  subst ht
  show execDeferredDoorbellTest ci q s = _
  simp only [execDeferredDoorbellTest, hw, hen, hst, beq_self_eq_true, Bool.and_self, if_true]

/-- Settles O21: a doorbell by its test, the enable bit by the placement, a placement register by its queue. -/
theorem storedDoorbellTested : Obligations.StoredDoorbellTested := by
  intro s ci q a g
  refine ⟨fun t rq hw ht hen hst => ⟨exec_deferredDoorbellTest_tested hw ht hen hst, _, exec_deferredDoorbellTest_tested hw ht hen hst,
    fun hg hlo hhi => ?_, fun hg hout => ?_⟩, ?registers⟩
  · obtain ⟨l, hl⟩ := State.gq_bellTest_inRange hg hlo hhi rq
    simp only [hl, and_self]
  · obtain ⟨e, he, hl⟩ := State.gq_bellTest_outOfRange hg hout rq
    exact hl ▸ ⟨rfl, rfl, rfl, he⟩
  case registers =>
    rintro hup hr rfl hg
    refine ⟨fun v hq hh hv => ?doorbell, fun hq hh => ⟨fun hb hen => ⟨_, exec_queueEnable_accepted hup hr hq hh hb,
      State.gq_enableQueue_placed hg hen, fun hp => ?misplaced⟩, fun hb hen => ?disable⟩, fun off hmem hq hh => ?placement⟩
    case doorbell =>
      have hu : ((s.modGq a.ci q fun g => g.stored ((a.over (g.db.setWidth 64)).setWidth 17) a.rqid).inst a.ci).gq q = g.stored v a.rqid := by
        rw [State.gq_modGq, hv, hg]
      refine ⟨_, exec_doorbell_accepted hup hr hq hh rfl, fun hen hst hlo hhi => ?_, fun hen hst hout => ?_, fun h => ?_⟩
      · obtain ⟨l, hl⟩ := State.gq_bellNow_inRange hu hen (by rwa [State.st_modGq]) hlo hhi
        exact hl ▸ ⟨rfl, rfl, rfl⟩
      · obtain ⟨e, he, hl⟩ := State.gq_bellNow_outOfRange hu hen (by rwa [State.st_modGq]) hout
        exact hl ▸ ⟨rfl, rfl, he⟩
      · exact State.gq_bellNow_waits hu (by rwa [State.st_modGq])
    case misplaced =>
      obtain ⟨e, he, hl⟩ := State.gq_enableQueue_misplaced hg hen hp
      exact hl ▸ ⟨rfl, he⟩
    case disable =>
      have hstop : ((s.modGq a.ci q fun g => { g with stopping := true }).inst a.ci).gq q = { g with stopping := true } := by
        rw [State.gq_modGq, hg]
      exact ⟨_, exec_queueDisable_accepted hup hr hq hh hb (hg ▸ hen), hstop, rfl,
        State.gq_apply_queueOff (g := { g with stopping := true }) hstop.symm rfl⟩
    case placement =>
      have hf := placeRegs_findSome_qreg hmem hq
      by_cases hbusy : g.en = true ∨ 0 < s.ngrp a.ci q
      · have hwign : ((s.gqErr a.ci q 2).inst a.ci).gq q = g.setErr (s.hwSet (.qerr a.ci q) g.err 2 15) := by rw [State.gq_gqErr, hg]
        refine ⟨_, exec_placementWrite_ignored hup hr hf (by simpa using hh) (hg ▸ hbusy), fun hen hn => absurd hbusy (by simp [hen, hn]),
          fun _ => hwign ▸ ⟨State.hwSet_bit _ _ _ _ _ (by decide), rfl, rfl⟩⟩
      · obtain ⟨hen, hn⟩ : g.en = false ∧ s.ngrp a.ci q = 0 := by simpa using hbusy
        have hplaced : ((s.modGq a.ci q fun g => g.place off a.over).inst a.ci).gq q = g.place off a.over := by rw [State.gq_modGq, hg]
        refine ⟨_, exec_placementWrite_placed hup hr hf (by simpa using hh) (hg ▸ hen) hn, fun _ _ => hplaced ▸ ?_, fun h => absurd h hbusy⟩
        refine ⟨?_, ?_, ?_, ?_, ?_, ?_⟩ <;> (rintro rfl; rfl)

end Sys2Proof.Machine

namespace Sys2Proof.Machine

open Sys2Proof

/-! ### Locks at their home, and their releases (R169, R170, R172 to R174, R181, R209, R379; log entries 34, 78 and 82) -/

theorem State.admitLock_own {s : State} {n : Hs} {l : Lk} (h : s.foldAct n l.lix = .own) :
    s.admitLock n l = s.addTrk n .engine true (l.req (if l.noData then .lckn else .lck)) fun x => { x with lk := some l } := by
  simp only [State.admitLock, h]

/-- The set is handed over: the lock goes back to its engine (R379). -/
theorem State.admitLock_handedOver {s : State} {n : Hs} {l : Lk} (h : s.foldAct n l.lix ≠ .own) :
    s.admitLock n l = s.send (hsStop n) (teStop l.te) .rsp false (.lnack l n) := by
  cases ha : s.foldAct n l.lix with
  | own => exact absurd ha h
  | _ => simp only [State.admitLock, ha]

/-- The lock waits for its lookup, its recall or its victim, which a release leaves to end first (R174; log entry 78; tied to the row by
`exec_grel_waiting` and `exec_grel_freed`). -/
def Trk.lockWaits (x : Trk) : Prop := x.active = true ∧ (x.ph = .snoop ∨ x.ph = .rime ∨ x.ph = .firn ∨ x.ph = .victim)

theorem Trk.lockWaits_iff {x : Trk} :
    (x.active && (x.ph == Ph.snoop || x.ph == Ph.rime || x.ph == Ph.firn || x.ph == Ph.victim)) = true ↔ x.lockWaits := by
  simp only [Trk.lockWaits, Bool.and_eq_true, Bool.or_eq_true, beq_iff_eq, or_assoc]

/-- The line of a `GRELW` has been posted as `q`: the end of the release, as the line is poisoned or not and the firn is looked into or
not (R82, R173; tied to the row by `exec_grelw_at`). -/
def State.grelwEnd (q : State) (n : Hs) (l : Lk) (x : Trk) (psn : Bool) : State :=
  if !psn then q.endTrk n x.id
  else if q.firnPoison n l.ci l.kind l.lix (x.rime == some .clear) then
    q.poisonLine n l.ci l.kind l.lix l.mpid (x.rime == some .clear) (some x.id)
  else (q.poisonLine n l.ci l.kind l.lix l.mpid (x.rime == some .clear) none).endTrk n x.id

section
variable {q : State} {n : Hs} {l : Lk} {x : Trk} {psn : Bool}

theorem State.grelwEnd_clean (h : psn = false) : q.grelwEnd n l x psn = q.endTrk n x.id := by
  simp only [State.grelwEnd, h, Bool.not_false, if_true]

/-- The lock is freed once the firn has been looked into (log entry 82). -/
theorem State.grelwEnd_firn (h : psn = true) (hf : q.firnPoison n l.ci l.kind l.lix (x.rime == some .clear) = true) :
    q.grelwEnd n l x psn = q.poisonLine n l.ci l.kind l.lix l.mpid (x.rime == some .clear) (some x.id) := by
  simp only [State.grelwEnd, h, hf, Bool.not_true, Bool.false_eq_true, if_false, if_true]

theorem State.grelwEnd_poisoned (h : psn = true) (hf : q.firnPoison n l.ci l.kind l.lix (x.rime == some .clear) = false) :
    q.grelwEnd n l x psn = (q.poisonLine n l.ci l.kind l.lix l.mpid (x.rime == some .clear) none).endTrk n x.id := by
  simp only [State.grelwEnd, h, hf, Bool.not_true, Bool.false_eq_true, if_false]

end

section
variable {s u : State} {k : Nat} {p : Pkt} {n : Hs} {l : Lk} (h : AtHs s k p n) (hu : u = s.ejected k p)
include h hu

theorem exec_lck_at (hb : s.body p = some (.lck l)) (hd : l.noData = false) : exec (.lck k) s = .next (u.admitLock n l).pump := by
  subst hu
  show execLck k s = _
  unfold execLck
  rw [recvHs_at (a := l) h (by rw [hb]; simp only [Option.bind_some, hd, Bool.false_eq_true, if_false])]

theorem exec_lckn_at (hb : s.body p = some (.lck l)) (hd : l.noData = true) : exec (.lckn k) s = .next (u.admitLock n l).pump := by
  subst hu
  show execLckn k s = _
  unfold execLckn
  rw [recvHs_at (a := l) h (by rw [hb]; simp only [Option.bind_some, hd, if_true])]

/-- A release of a lock that is not there does nothing. -/
theorem exec_grel_noLock (hl : u.lockOf n l = none) (hb : s.body p = some (.grel l)) : exec (.grel k) s = .next u := by
  subst hu
  show execGrel k s = _
  unfold execGrel
  rw [recvHs_at (a := l) h (by rw [hb]; rfl)]
  simp only [hl]

section
variable {x : Trk} (hl : u.lockOf n l = some x)
include hl

theorem exec_grelw_at {err psn whole : Bool} {d : Line} {g : List Nat} (hb : s.body p = some (.grelw l d psn whole g))
    {v w q : State}
    (hv : v = if err && u.recordOpen l then (u.markPw l).logBare (teStop l.te) 0x08 l.lix (some l.ci) l.rqid else u)
    (hw : w = if l.clears x whole && l.kind == .coh then (v.setDir n x.id l.ci l.lix Dir.inv).getD v else v)
    (hq : q = w.postLine n (some x.id) l.ci l.lix l.mpid d (psn || (err && u.recordOpen l))
      (if l.clears x whole then some (v.clearRime n l) else none) true g) :
    exec (.grelw ⟨k, err⟩) s = .next (q.grelwEnd n l x (psn || (err && u.recordOpen l))).gpfCheck.pump := by
  subst hu hv hw hq
  show execGrelw ⟨k, err⟩ s = _
  unfold execGrelw
  rw [recvHs_at (a := (l, d, psn, whole, g)) h (by rw [hb]; rfl)]
  simp only [hl, State.grelwEnd]

theorem exec_grel_waiting (hb : s.body p = some (.grel l)) (hx : x.lockWaits) :
    exec (.grel k) s = .next (u.modTrk n x.id fun y => { y with rel := true }).pump := by
  subst hu
  show execGrel k s = _
  unfold execGrel
  rw [recvHs_at (a := l) h (by rw [hb]; rfl)]
  simp only [hl]
  exact if_pos (Trk.lockWaits_iff.2 hx)

theorem exec_grel_freed (hb : s.body p = some (.grel l)) (hx : ¬ x.lockWaits) :
    exec (.grel k) s = .next ((u.freeResv n x.id).endTrk n x.id).pump := by
  subst hu
  show execGrel k s = _
  unfold execGrel
  rw [recvHs_at (a := l) h (by rw [hb]; rfl)]
  simp only [hl]
  exact if_neg (mt Trk.lockWaits_iff.1 hx)

theorem exec_grela_at {r : Req} (hb : s.body p = some (.grela l r)) :
    exec (.grela k) s = .next ((u.setPh n x.id .memAop).memCmd n l.ci
      { mkCmd n .memaop l.mpid l.lix (.aop x.id) with aop := r.aop, aofs := r.ofs, alen := r.blen.setWidth 4, opA := r.opA, opB := r.opB }) := by
  subst hu
  show execGrela k s = _
  unfold execGrela
  rw [recvHs_at (a := (l, r)) h (by rw [hb]; rfl)]
  simp only [hl]

end

end

/-- Settles O28: a lock by whose set it names, a release by the lock it finds. -/
theorem locksAndReleasesComplete : Obligations.LocksAndReleasesComplete := by
  intro s k p n l h u hu
  refine ⟨fun hb => ⟨fun ho => ⟨fun hd => ?_, fun hd => ?_⟩, fun ho t ht => ⟨fun hd => ?_, fun hd => ?_⟩⟩, fun x hl =>
    ⟨fun err d psn whole g hb v w q hv hw hq => ?grelw, fun hb => ⟨exec_grel_waiting h hu hl hb, exec_grel_freed h hu hl hb⟩,
      fun r => exec_grela_at h hu hl⟩, exec_grel_noLock h hu⟩
  · rw [exec_lck_at h hu hb hd, State.admitLock_own ho, hd, if_neg Bool.false_ne_true]
  · rw [exec_lckn_at h hu hb hd, State.admitLock_own ho, hd, if_pos rfl]
  · rw [exec_lck_at h hu hb hd, State.admitLock_handedOver ho, ht]
  · rw [exec_lckn_at h hu hb hd, State.admitLock_handedOver ho, ht]
  case grelw =>
    rw [exec_grelw_at h hu hl hb hv hw hq]
    refine ⟨fun hp he => ?_, fun hpsn => ?_⟩
    · rw [State.grelwEnd_clean (by rw [hp, he, Bool.or_self])]
    · have hp : (psn || (err && u.recordOpen l)) = true := Bool.or_eq_true_iff.2 hpsn
      exact ⟨fun hf => by rw [State.grelwEnd_firn hp hf], fun hf => by rw [State.grelwEnd_poisoned hp hf]⟩

end Sys2Proof.Machine

namespace Sys2Proof.Machine

open Sys2Proof

/-! ### AtomicOps at a transaction engine, and the answers to its locks (R177, R178, R181, R186, R198, R214, R217, R306, R379) -/

section
variable {s u : State} {k : Nat} {p : Pkt} {e : Bool} (h : AtTe s k p e) (hu : u = s.ejected k p)
include h hu

section
variable {r : Req} (hb : s.body p = some (.aop r))
include hb

theorem exec_atomicop_sentOn (hen : (u.arb (Eng.ofTe e)).en = false) (hup : u.teUp (!e) = true) :
    exec (.atomicop k) s = .next (u.send (teStop e) (teStop (!e)) .req false (.aop r) (some (r.itk, r.urg))) := by
  subst hu
  show execAtomicop k s = _
  unfold execAtomicop
  rw [recvTe_at (a := r) h (by rw [hb]; rfl)]
  simp only [hen, hup, Bool.not_false, if_true]

section
variable (hen : (u.arb (Eng.ofTe e)).en = true) (hst : (u.inst r.ci).st = .active)
include hen hst

theorem exec_atomicop_queued (hl : ((u.te e).aopq.filter fun q => q.ci == r.ci).length < 16) :
    exec (.atomicop k) s = .next (u.modTe e fun t => { t with aopq := t.aopq ++ [r] }) := by
  subst hu
  show execAtomicop k s = _
  unfold execAtomicop
  rw [recvTe_at (a := r) h (by rw [hb]; rfl)]
  simp only [hen, hst, Nat.not_le.2 hl, reduceCtorEq, bne_self_eq_false, Bool.not_true, Bool.false_eq_true, if_false]

theorem exec_atomicop_sentBack {q : Stn} (hs : r.src = .ps q) (hl : 16 ≤ ((u.te e).aopq.filter fun q => q.ci == r.ci).length) :
    exec (.atomicop k) s = .next (u.send (teStop e) (psStop q) .rsp false (.retry { r with tries := r.tries + 1 })) := by
  subst hu
  show execAtomicop k s = _
  unfold execAtomicop
  rw [recvTe_at (a := r) h (by rw [hb]; rfl)]
  simp only [hen, hst, hs, hl, reduceCtorEq, bne_self_eq_false, Bool.not_true, Bool.false_eq_true, if_false, if_true]

end

end

theorem exec_nmaResult_run {l : Lk} {n : Hs} {psn : Bool} {d : Line} {v : ARun} (hb : s.body p = some (.nma l n psn d))
    (hv : ((u.te e).runs.find? fun u => u.id == l.run) = some v) :
    exec (.nmaResult k) s = .next (((((u.bump (teCtr e 3)).bumpI v.req.ci 0x0F).dropRun e v.id).aopEnd e v.req .done psn d).pump) := by
  subst hu
  show execNmaResult k s = _
  unfold execNmaResult
  rw [recvTe_at (a := (l, psn, d)) h (by rw [hb]; rfl)]
  simp only [hv]

theorem exec_lact_at {l : Lk} {n : Hs} (hb : s.body p = some (.lact l n)) :
    exec (.lact k) s = .next ((u.modLock e l fun m => { m with act := true }).pump) := by
  subst hu
  show execLact k s = _
  unfold execLact
  rw [recvTe_at (a := l) h (by rw [hb]; rfl)]

/-- What an engine does once a granted lock stands in its state: an AtomicOp goes on, by `GRELA` or at the engine, or a group does.
`execLgnt`'s effect for a grant without error (tied to the row by `exec_lgnt_granted`). -/
def State.lockGranted (v : State) (e : Bool) (l : Lk) : State :=
  match (v.te e).runs.find? fun u => u.id == l.run with
  | some r =>
    if r.nma && !r.lk.plbh && !r.lk.psn then (v.send (teStop e) (hsStop r.lk.hs) .snp false (.grela r.lk.lk r.req)).pump
    else (v.modRun e r.id fun r => { r with nma := false }).pump
  | none => v.pump

theorem exec_lgnt_granted {l : Lk} {n : Hs} {psn plbh : Bool} {d : Line} {v : State} (hb : s.body p = some (.lgnt l n psn plbh d))
    (hv : v = u.modLock e l fun m => { m with act := true, gnt := true, psn := psn, plbh := plbh, data := d }) :
    exec (.lgnt k false) s = .next (v.lockGranted e l) := by
  subst hu
  show execLgnt k false s = _
  unfold execLgnt
  rw [recvTe_at (a := (l, some (psn, plbh, d))) h (by rw [hb]; rfl)]
  simp only [← hv, Option.isNone_some, Bool.false_and, Bool.false_eq_true, if_false, State.lockGranted]
  cases hg : (v.te e).grps.find? fun g => g.id == l.run <;> cases hr : (v.te e).runs.find? fun u => u.id == l.run
  all_goals simp only [apply_ite Host.Outcome.next]

theorem exec_lnack_at {l : Lk} {n : Hs} {v : State} (hb : s.body p = some (.lnack l n)) (hv : v = u.modTe e fun t => t.give n) :
    exec (.lnack k) s = .next ((v.modLock e l fun m => { m with sent := false, cred := false, hs := v.teHome l.lix }).pump) := by
  subst hu hv
  show execLnack k s = _
  unfold execLnack
  rw [recvTe_at (a := (l, n)) h (by rw [hb]; rfl)]

theorem exec_uncAccessRetry_at {x : Bool} {r : Req} {v : State} (hb : s.body p = some (.uncRetry x r)) (hv : v = u.goTo (u.clk.tick + 1)) :
    exec (.uncAccessRetry k) s =
      .next (v.send (teStop e) (hsStop (v.home r.lix)) .req false (.req { r with smep := v.smep }) (some (r.itk, r.urg))) := by
  subst hu hv
  show execUncAccessRetry k s = _
  unfold execUncAccessRetry
  rw [recvTe_at (a := r) h (by rw [hb]; rfl)]

end

section
variable {v : State} {e : Bool} {l : Lk}

/-- The lock is one of a group, or its AtomicOp has ended. -/
theorem State.lockGranted_noRun (hr : ((v.te e).runs.find? fun u => u.id == l.run) = none) : v.lockGranted e l = v.pump := by
  simp only [State.lockGranted, hr]

section
variable {r : ARun} (hr : ((v.te e).runs.find? fun u => u.id == l.run) = some r)
include hr

/-- The AtomicOp is computed at memory (R181). -/
theorem State.lockGranted_atMemory (h : r.nma = true ∧ r.lk.plbh = false ∧ r.lk.psn = false) :
    v.lockGranted e l = (v.send (teStop e) (hsStop r.lk.hs) .snp false (.grela r.lk.lk r.req)).pump := by
  obtain ⟨hn, hp, hq⟩ := h
  simp only [State.lockGranted, hr, hn, hp, hq, Bool.not_false, Bool.and_self, if_true]

/-- The AtomicOp is computed at the engine: so the port has it, or the line is in the PLB or poisoned (R179). -/
theorem State.lockGranted_atEngine (h : r.nma = false ∨ r.lk.plbh = true ∨ r.lk.psn = true) :
    v.lockGranted e l = (v.modRun e r.id fun r => { r with nma := false }).pump := by
  have hoff : (r.nma && !r.lk.plbh && !r.lk.psn) = false := by
    rcases h with h | h | h <;> simp [h]
  simp only [State.lockGranted, hr, hoff, Bool.false_eq_true, if_false]

end

end

/-- The holder's first waiting AtomicOp takes a context and a credit, and sends its lock (R178, R181, R217). -/
theorem exec_atomicopStart_sends {s : State} {e : Bool} {c : Ci} {r : Req} {t : Te} {n : Hs} {lk : Lk} {l : LkSt}
    (hc : s.teHolder e = some c) (hr : ((s.te e).aopq.find? fun r => r.ci == c) = some r) (ht : t = s.te e) (hn : n = s.teHome r.lix)
    (hctx : t.contexts < 64) (hcr : t.used n < 32)
    (hlk : lk = { te := e, run := t.nextId, opi := 0, ci := r.ci, lix := r.lix, mpid := r.mpid, kind := r.kind, noData := s.nmaOn r.mpid,
                  writes := !s.nmaOn r.mpid, isAop := true, rqid := r.rqid })
    (hl : l = { lk := lk, hs := n, sent := true, act := false, gnt := false, refused := false, psn := false, plbh := false, data := 0,
                cred := true }) :
    exec (.atomicopStart e) s = .next ((s.setTe e { t.take n with
      aopq := t.aopq.erase r, runs := t.runs ++ [({ id := t.nextId, req := r, lk := l, nma := s.nmaOn r.mpid, gate := none } : ARun)],
      nextId := t.nextId + 1 }).lockMsg e l) := by
  subst ht hn hlk hl
  show execAtomicopStart e s = _
  simp only [execAtomicopStart, hc, hr, ge_iff_le, Nat.not_le.2 hctx, Nat.not_le.2 hcr, decide_false, Bool.or_self, Bool.false_eq_true,
    if_false]

/-- Settles O32: each packet by its row, a grant by the AtomicOp that waits for it, if any. -/
theorem atomicOpsAndLockAnswersComplete : Obligations.AtomicOpsAndLockAnswersComplete := by
  intro s k p e
  refine ⟨fun h u hu => ⟨fun r hb => exec_atomicop_sentOn h hu hb, fun r q hb hs hen hst =>
      ⟨exec_atomicop_queued h hu hb hen hst, exec_atomicop_sentBack h hu hb hen hst hs⟩, fun l n psn d v => exec_nmaResult_run h hu,
      fun l n => exec_lact_at h hu, fun l n psn plbh d v hb hv => ?granted, fun l n v => exec_lnack_at h hu,
      fun x r v => exec_uncAccessRetry_at h hu⟩, fun c r t n lk hc hr ht hn hctx hcr hlk l hl =>
    exec_atomicopStart_sends hc hr ht hn hctx hcr hlk hl⟩
  case granted =>
    rw [exec_lgnt_granted h hu hb hv]
    exact ⟨fun hr => by rw [State.lockGranted_noRun hr], fun r hr =>
      ⟨fun hm => by rw [State.lockGranted_atMemory hr hm], fun he => by rw [State.lockGranted_atEngine hr he]⟩⟩

end Sys2Proof.Machine

namespace Sys2Proof.Machine

open Sys2Proof

/-! ### Copying descriptors (R186, R190, R194, R215, R562; log entry 58) -/

section
variable {s : State} {e : Bool} {c : Ci}

/-- The engine goes on with a copy that has begun, with the grant or without it. -/
theorem exec_descriptorCopy_goesOn {x : Copy} (hx : s.copyNow e = some x) (hw : s.works (teDom e) = true) :
    exec (.descriptorCopy e) s = .next (s.askSlots e x (x.limit ((s.inst x.ci).gq e))) := by
  show execDescriptorCopy e s = _
  simp only [execDescriptorCopy, hx, hw, if_true]

/-- With no such copy, the holder's queue reserves a record and reads its next header (R190, R215). -/
theorem exec_descriptorCopy_begins {q : GQueue} (hn : s.copyNow e = none) (hc : s.teHolder e = some c) (hq : q = (s.inst c).gq e)
    (hst : (s.inst c).st = .active) (hen : (s.arb (Eng.ofTe e)).en = true) (hqen : q.en = true) (hstop : q.stopping = false)
    (hhead : q.cons ≠ q.pacc) (hrec : q.recFree = true) (hroom : (s.te e).buffered + (s.te e).copies.length < 64)
    (hone : ((s.te e).copies.any fun x => x.ci == c) = false) :
    exec (.descriptorCopy e) s = .next (((s.modGq c e fun q => { q with nextRec := q.nextRec + 1 }).modTe e fun t =>
      { t with copies := t.copies ++
        [({ ci := c, base := q.cons, slots := [], asked := 1, len := 0, bad := false, recN := q.nextRec } : Copy)] }).uncSend
          e .urd c (q.slotLix q.cons) q.dqMpid 0 0 0) := by
  subst hq
  show execDescriptorCopy e s = _
  simp only [execDescriptorCopy, hn, hc, hst, hen, hqen, hstop, beq_eq_false_iff_ne.2 hhead, hrec, ge_iff_le, Nat.not_le.2 hroom, hone,
    bne_self_eq_false, Bool.not_true, decide_false, Bool.or_self, Bool.false_eq_true, if_false]

end

/-- A slot `r.pix` whose data are `d`, arrived for the copy `c` (`execDescriptorData`'s new copy, tied to it by
`exec_descriptorData_at`): the header says how long the descriptor is, and a `broken` one has every slot up to PACC. -/
def Copy.withSlot (c : Copy) (q : GQueue) (r : Req) (psn : Bool) (d : Line) (broken : Bool) : Copy :=
  { c with
    slots := tPut c.slots r.pix d, bad := c.bad || psn || broken
    len := if broken then q.ahead else if r.pix == 0 then dNslot d else c.len }

/-- What follows a slot's arrival for the copy `c`: its descriptor is taken when it is whole or broken. -/
def State.slotKept (v : State) (e : Bool) (c : Copy) (broken : Bool) : State :=
  if broken || (c.len != 0 && c.slots.length == c.len) then v.takeDesc e c false
  else if (v.inst c.ci).st = .aborting then v.cutCopies e c.ci else v

section
variable {v : State} {e : Bool} {c : Copy} {broken : Bool}

theorem Copy.taken_iff :
    (broken || (c.len != 0 && c.slots.length == c.len)) = true ↔ broken = true ∨ (c.len ≠ 0 ∧ c.slots.length = c.len) := by
  simp only [Bool.or_eq_true, Bool.and_eq_true, bne_iff_ne, beq_iff_eq]

theorem State.slotKept_taken (h : broken = true ∨ (c.len ≠ 0 ∧ c.slots.length = c.len)) : v.slotKept e c broken = v.takeDesc e c false :=
  if_pos (Copy.taken_iff.2 h)

theorem State.slotKept_awaits (h : ¬(broken = true ∨ (c.len ≠ 0 ∧ c.slots.length = c.len))) :
    v.slotKept e c broken = if (v.inst c.ci).st = .aborting then v.cutCopies e c.ci else v :=
  if_neg (mt Copy.taken_iff.1 h)

end

/-! ### A slot that arrives, and the lines of a status record (R190, R194, R211, R562) -/

section
variable {s u : State} {k : Nat} {p : Pkt} {e : Bool} (h : AtTe s k p e) (hu : u = s.ejected k p)
  {x : Bool} {r : Req} {psn : Bool} {d : Line} (hb : s.body p = some (.unc x r psn d))
include h hu hb

theorem exec_descriptorData_at (hr : r.cls = .urd) {c c' : Copy} {v : State} {br : Bool}
    (hc : ((u.te e).copies.find? fun c => c.ci == r.ci) = some c) (hbr : br = (r.pix == 0 && (psn || !headOk d)))
    (hc' : c' = c.withSlot ((u.inst c.ci).gq e) r psn d br)
    (hv : v = u.modTe e fun t => { t with copies := updWhere (fun x => x.ci == c'.ci) (fun _ => c') t.copies }) :
    exec (.descriptorData k) s = .next (v.slotKept e c' br) := by
  subst hu hbr hc' hv
  show execDescriptorData k s = _
  unfold execDescriptorData
  rw [recvTe_at (a := (r, psn, d)) h (by rw [hb]; simp only [Option.bind_some, hr, if_true])]
  simp only [hc, State.slotKept, apply_ite Host.Outcome.next]
  rfl

section
variable (hr : r.cls = .uwr) {g : Group} (hg : ((u.te e).grps.find? fun g => g.id == r.mid) = some g)
include hr hg

/-- The upper line of the record is written: the line of `PH` follows. -/
theorem exec_statusRecordCmp_upper (hp : r.pix = 1) {v : State} (hv : v = u.modGroup e g.id fun h => { h with st := .ph }) :
    exec (.statusRecordCmp k) s = .next (v.uncSend e .uwr g.ci (((u.inst g.ci).gq e).recLix g.recN 0) ((u.inst g.ci).gq e).sqMpid
      (g.line1 ((v.arb (Eng.ofTe e)).hints.getD g.ci.toNat 0)) g.id 0) := by
  subst hu hv
  show execStatusRecordCmp k s = _
  unfold execStatusRecordCmp
  rw [recvTe_at (a := r) h (by rw [hb]; simp only [Option.bind_some, hr, if_true])]
  simp only [hg, hp, if_true]

/-- The line of `PH` is written: the group has ended, and its generation's count falls if it was stamped (R270). -/
theorem exec_statusRecordCmp_ph (hp : r.pix ≠ 1) {v z : State}
    (hv : v = u.modTe e fun t => { t with grps := t.grps.filter fun h => h.id != g.id })
    (hz : z = if g.stamped then v.genDec g.ci g.gen else v) :
    exec (.statusRecordCmp k) s = .next (z.modGq g.ci e fun q => q.recorded z.clk g.recN).pump := by
  subst hu hv hz
  show execStatusRecordCmp k s = _
  unfold execStatusRecordCmp
  rw [recvTe_at (a := r) h (by rw [hb]; simp only [Option.bind_some, hr, if_true])]
  simp only [hg, if_neg hp]

end

end

/-! ### The start of a group (R195 to R197, R217; log entries 20 and 34) -/

@[simp] theorem State.inst_setTe (s : State) (e : Bool) (t : Te) (c : Ci) : (s.setTe e t).inst c = s.inst c := by cases e <;> rfl

section
variable {s : State} {e : Bool} {c : Ci} {g : Group} (hc : s.teHolder e = some c)
  (hg : ((s.te e).grps.find? fun g => g.ci == c && g.st == .copied) = some g) (hst : g.stamped = false)
include hc hg hst

/-- The group is stamped with the current generation and has its context and the credits of its locks. -/
theorem exec_groupStart_starts (hd : s.groupDenial g = none) (hctx : (s.te e).contexts < 64)
    (hcr : (s.te e).credFor (s.groupLocks e g) = true) :
    exec (.groupStart e) s = .next ((((s.setTe e ((s.groupLocks e g).foldl (fun t l => t.take l.hs) (s.te e))).genInc c
      (s.inst c).ruleg).modGroup e g.id fun h =>
        { h with st := .locking, locks := s.groupLocks e g, gen := (s.inst c).ruleg, stamped := true }).pump) := by
  show execGroupStart e s = _
  simp only [execGroupStart, hc, hg, hst, hd, hcr, ge_iff_le, Nat.not_le.2 hctx, State.inst_setTe, decide_false, Bool.not_true,
    Bool.or_self, Bool.false_eq_true, if_false]

/-- The first refused line of the group denies it. -/
theorem exec_groupStart_denied {o : GOp} {cause : BitVec 4} {ridx : Option Nat} {v : State} (hd : s.groupDenial g = some (o, cause, ridx))
    (hv : v = s.violation { lix := o.lix, akind := 4, rqid := g.rq, ci := some c, ridx := ridx.map (BitVec.ofNat 6), cause := cause,
                            tick := s.clk.tick }) :
    exec (.groupStart e) s =
      .next (((if cause = 5 then v.logBare (teStop e) 0x0D o.lix (some c) g.rq else v).failGroup e g .denied).pump) := by
  subst hv
  show execGroupStart e s = _
  simp only [execGroupStart, hc, hg, hst, hd, Bool.false_eq_true, if_false]

end

/-- Settles O33: a copy that goes on or begins, a slot by whether its descriptor is at hand, a record by its line, a group by its denial. -/
theorem descriptorsAndGroupsComplete : Obligations.DescriptorsAndGroupsComplete := by
  intro s k p e
  refine ⟨fun c => exec_descriptorCopy_goesOn, fun c q => exec_descriptorCopy_begins, fun h u hu =>
    ⟨fun x r psn d c c' v br hb hr hc hbr hc' hv => ?slot, fun x r psn d g v hb hr hg =>
      ⟨fun hp => exec_statusRecordCmp_upper h hu hb hr hg hp, fun z hp => exec_statusRecordCmp_ph h hu hb hr hg hp⟩⟩, fun c g hc hg hst =>
    ⟨exec_groupStart_starts hc hg hst, fun o cause ridx v => exec_groupStart_denied hc hg hst⟩⟩
  case slot =>
    rw [exec_descriptorData_at h hu hb hr hc hbr hc' hv]
    exact ⟨fun ht => by rw [State.slotKept_taken ht], fun ht => by rw [State.slotKept_awaits ht]⟩

end Sys2Proof.Machine

namespace Sys2Proof.Machine

open Sys2Proof

/-! ### `INST_CREATE`, `INST_ENABLE`, `INST_QUIESCE`, `INST_RESET`, `INST_REMOVE` (R65, R66, R254, R255, R281, R283, R286, R287, R391; log entry 47) -/

section
variable {w : BitVec 512} {t : State}

/-- On a FREE target that holds nothing, parameters in range with resources left make the new `Inst`; a firn area, where one is given,
fits the total of R65, meets no other range and lies on its port. -/
theorem instCreate_ok {rents csets : List Nat} {x : Inst} (hok : createOk w = true) (hst : (t.inst (cCi w)).st = .free)
    (hnreg : (t.inst (cCi w)).nreg = 0)
    (hrents : rents = lowestFree ((t.insts.filter fun p => p.2.nreg != 0).flatMap fun p => p.2.rents) 2048 (cPar w 1 1))
    (hcsets : csets = lowestFree ((t.insts.filter fun p => p.2.nreg != 0).flatMap fun p => p.2.csets) 64 (cPar w 2 1))
    (hx : x = createInst w rents csets) (hfloors : t.floors (cCi w) + x.trkMin ≤ 768) (hrl : rents.length = cPar w 1 1)
    (hcl : csets.length = cPar w 2 1)
    (hfirn : x.firnLog2 = 0 ∨
      (((t.insts.filter fun p => p.2.nreg != 0).map fun p => p.2.firnSets).sum + x.firnSets ≤ 2 ^ 28 ∧
        ((t.firnSpans ++ t.rtSpans ++ t.allRegions.map fun r => r.2.2.span).any fun r => Span.meets x.firnSpan r) = false ∧
        ∃ p, t.port x.firnMpid = some p ∧ Span.inside x.firnSpan p.span = true)) :
    instCreate w t = .ok ((((t.setInst (cCi w) x).later 1 (.inst (cCi w) .idle)).startLong w .create
      (((t.setInst (cCi w) x).later 1 (.inst (cCi w) .idle)).stepsOf .zfillFirn (cCi w))).queueBulk false .zfillFirn (cCi w) w) := by
  have hroom : (decide (t.floors (cCi w) + x.trkMin > 768) || decide (rents.length < cPar w 1 1) ||
      decide (csets.length < cPar w 2 1)) = false := by simp [hfloors, hrl, hcl]
  simp only [instCreate, ← hrents, ← hcsets, ← hx, hok, hst, hnreg, hroom, bne_self_eq_false, Bool.not_true, Bool.or_self,
    Bool.false_eq_true, if_false]
  rcases hfirn with h0 | ⟨hsum, hmeets, p, hp, hin⟩
  · simp only [h0, bne_self_eq_false, Bool.false_and, Bool.false_eq_true, if_false]
  · simp only [hp, hin, hmeets, Nat.not_lt.2 hsum, decide_false, Bool.or_self, Bool.not_true, Bool.and_false,
      Bool.false_eq_true, if_false]

theorem instEnable_ok (hst : (t.inst (cCi w)).st = .idle ∨ (t.inst (cCi w)).st = .quiesced) (hr : (t.inst (cCi w)).role ≠ .mirror) :
    instEnable w t = .ok ((t.hold w .wait).later 1 (.inst (cCi w) .active)) := by
  have hready : ((t.inst (cCi w)).st != .idle && (t.inst (cCi w)).st != .quiesced) = false := by rcases hst with h | h <;> simp [h]
  simp only [instEnable, hready, beq_iff_eq, hr, Bool.false_or, if_false]

theorem instQuiesce_ok (hst : (t.inst (cCi w)).st = .active) :
    instQuiesce w t = .ok ((t.startLong w .quiesce 0).later 1 (.inst (cCi w) (if cFlag w 0 then .aborting else .draining))) := by
  simp only [instQuiesce, hst, bne_self_eq_false, Bool.false_eq_true, if_false, State.startQuiesce]

theorem instReset_ok (h : (t.inst (cCi w)).clearable = true) : instReset w t = .ok (t.clearCmd w false) := by
  simp only [instReset, h, if_true]

/-- Where a COH region stands, `ZF` or `KEEP` must be given (R287). -/
theorem instRemove_ok (h : (t.inst (cCi w)).clearable = true)
    (hcoh : cFlag w 1 = true ∨ cFlag w 2 = true ∨ ((t.inst (cCi w)).regions.any fun r => r.2.kind == .coh) = false) :
    instRemove w t = .ok (t.clearCmd w true) := by
  have hmay : (!cFlag w 1 && !cFlag w 2 && (t.inst (cCi w)).regions.any fun r => r.2.kind == .coh) = false := by
    rcases hcoh with h | h | h <;> simp [h]
  simp only [instRemove, h, hmay, Bool.not_true, Bool.or_self, Bool.false_eq_true, if_false]

end

/-- Settles O2: the five bodies, under the checks that `Served` passes. -/
theorem instanceLifeCommandsComplete : Obligations.InstanceLifeCommandsComplete := by
  intro w s t i rents csets x
  exact ⟨fun h hok hst hn hr hc hx hf hrl hcl hfirn => mcRow_served h (instCreate_ok hok hst hn hr hc hx hf hrl hcl hfirn),
    fun h hst hr => mcRow_served h (instEnable_ok hst hr), fun h hst => mcRow_served h (instQuiesce_ok hst),
    fun h hc => mcRow_served h (instReset_ok hc), fun h hc hcoh => mcRow_served h (instRemove_ok hc hcoh)⟩

/-! ### `IRT_ADD`, `IRT_REMOVE`, `IW_MASK` (R249, R250, R253, R272; log entry 48) -/

section
variable {w : BitVec 512} {t : State}

/-- An entry is well formed unless its PASID is not zero while PV is 0 (R248). -/
theorem pasidReserved_eq_false {e : IrtEnt} (h : e.pv = true ∨ e.pasid = 0) : (!e.pv && e.pasid != 0) = false := by
  rcases h with h | h <;> simp [h]

/-- The change is held where the target takes IRT entries, the key is new (of an agent known or not, log entry 48), the agent is not
bound and the set of R249 has room. -/
theorem irtAdd_ok (hform : (cIrt w).pv = true ∨ (cIrt w).pasid = 0) (hst : (t.inst (cCi w)).st ≠ .free) (hmode : (t.inst (cCi w)).mode = false)
    (hnew : t.irtFind (cIrt w) = none)
    (hpend : (t.pendIrt.any fun x => x.rqid == cRq w && x.pv == (cIrt w).pv && x.pasid == (cIrt w).pasid) = false)
    (hbind : ((t.agent (cRq w)).any fun a => a.bind.isSome) = false) (hpb : t.pendBind (cRq w) = false)
    (hroom : ((t.irt ++ t.pendIrt).filter fun e => irtSet e == irtSet (cIrt w)).length < 8) :
    irtAdd w t = .ok (t.startRule w (.addIrt (cIrt w)) .nothing 0) := by
  have hci : (cIrt w).ci = cCi w := rfl
  have hrq : (cIrt w).rqid = cRq w := rfl
  simp only [irtAdd, pasidReserved_eq_false hform, hci, hrq, beq_eq_false_iff_ne.2 hst, hmode, hnew, hpend, hbind, hpb, Nat.not_le.2 hroom,
    Option.isSome_none, Bool.or_self, Bool.false_eq_true, if_false]

/-- The entry found is removed where it is of the target; its agent is recalled where it is the last one (R253). -/
theorem irtRemove_ok {e : IrtEnt} {r : Recall} (hform : (cIrt w).pv = true ∨ (cIrt w).pasid = 0) (hst : (t.inst (cCi w)).st ≠ .free)
    (he : t.irtFind (cIrt w) = some e) (hci : e.ci = cCi w)
    (hr : r = if t.lastMember e.rqid (cCi w) e then t.leaving e.rqid else .nothing) :
    irtRemove w t = .ok (t.startRule w (.removeIrt e) r (t.leaveSteps (cCi w) r)) := by
  subst hr
  simp only [irtRemove, pasidReserved_eq_false hform, beq_eq_false_iff_ne.2 hst, he, hci, bne_self_eq_false, Bool.false_eq_true, if_false]

theorem iwMask_ok (hst : (t.inst (cCi w)).st ≠ .free) :
    iwMask w t = .ok (t.startRule w (.iwMask (BitVec.ofNat 16 (cPar w 0 2))) .nothing 0) := by
  simp only [iwMask, beq_iff_eq, hst, if_false]

end

/-- Settles O4: the three bodies, under the checks that `Served` passes. -/
theorem ruleChangeCommandsBegin : Obligations.RuleChangeCommandsBegin := by
  intro w s t i
  exact ⟨fun h hform hst hmode hnew hpend hbind hpb hroom => mcRow_served h (irtAdd_ok hform hst hmode hnew hpend hbind hpb hroom),
    fun e h hform hst he hci => mcRow_served h (irtRemove_ok hform hst he hci rfl), fun h hst => mcRow_served h (iwMask_ok hst)⟩

/-! ### `AGENT_BIND`, `AGENT_UNBIND`, `AGENT_DISABLE` (R247, R250, R253, R272, R329) -/

section
variable {w : BitVec 512} {t : State} {a : Agent} (ha : t.agent (cRq w) = some a)
include ha

/-- A command that names an agent of the table goes on with its entry. -/
theorem State.named_some (f : Agent → Except Status State) : t.named w f = f a := by
  simp only [State.named, ha]

theorem agentBind_ok (hst : (t.inst (cCi w)).st ≠ .free) (hmode : (t.inst (cCi w)).mode = true)
    (hirt : ((t.irt ++ t.pendIrt).any fun e => e.rqid == cRq w) = false) (hbind : a.bind = none) (hpb : t.pendBind (cRq w) = false) :
    agentBind w t = .ok (t.startRule w (.bind (cRq w) (BitVec.ofNat 4 (cPar w 2 1))) .nothing 0) := by
  simp only [agentBind, State.named_some ha, beq_eq_false_iff_ne.2 hst, hmode, hirt, hbind, hpb, Option.isSome_none, Bool.not_true,
    Bool.or_self, Bool.false_eq_true, if_false]

theorem agentUnbind_ok {g : BitVec 4} (hst : (t.inst (cCi w)).st ≠ .free) (hbind : a.bind = some (cCi w, g)) :
    agentUnbind w t = .ok (t.startRule w (.unbind (cRq w)) (t.leaving (cRq w)) (t.leaveSteps (cCi w) (t.leaving (cRq w)))) := by
  simp only [agentUnbind, State.named_some ha, beq_eq_false_iff_ne.2 hst, hbind, Option.any_some, beq_self_eq_true, Bool.not_true,
    Bool.false_eq_true, if_false]

theorem agentDisable_ok :
    agentDisable w t = .ok (((t.setAgent (cRq w) { a with en := false }).later 1 (.agentEn (cRq w) false)).startLong w
      (.agentDisable (cRq w) [] false)
      (((if a.cax.isSome then t.memberOf (cRq w) else []).map fun c => t.stepsOf (.agentRecall (a.cax.getD 0)) c).sum)) := by
  simp only [agentDisable, State.named_some ha]

end

/-- Settles O8: the three bodies, under the checks that `Served` passes. -/
theorem agentMembershipCommandsBegin : Obligations.AgentMembershipCommandsBegin := by
  intro w s t i a ha
  exact ⟨fun h hst hmode hirt hbind hpb => mcRow_served h (agentBind_ok ha hst hmode hirt hbind hpb),
    fun g h hst hbind => mcRow_served h (agentUnbind_ok ha hst hbind), fun h => mcRow_served h (agentDisable_ok ha)⟩

/-! ### `REGION_SET`, `REGION_CLEAR`, `LEASE_PASS`, `REGION_READ` (R67, R261 to R264, R274, R277) -/

/-- What `REGION_SET` cuts off the entry that it replaces, if there is one (R263, R274). -/
def State.regionCut (s : State) (w : BitVec 512) : Recall :=
  match s.regionAt w with
  | some o => o.removed (cEntry w)
  | none => .nothing

/-- The entry that `REGION_READ` replies: of zeros where none is valid (log entry 48). -/
def State.regionReply (s : State) (w : BitVec 512) : Nat :=
  match s.regionAt w with
  | some r => r.encode
  | none => 0

/-- What `REGION_CLEAR` asks for: the recall of a COH range, and with `ZF` its zero-fill. -/
def Region.clearedBy (o : Region) (zf : Bool) : Recall :=
  if o.kind = .coh then .range o.lo o.hi 1 0 (if zf then some (o.lo, o.hi, .coh) else none) else if zf then .zero o.lo o.hi o.kind else .nothing

section
variable {w : BitVec 512} {t : State} (hst : (t.inst (cCi w)).st ≠ .free) (hidx : cPar w 0 1 < (t.inst (cCi w)).nreg)
include hst hidx

/-- An entry in range is set where the old one has its kind and its LHV, nothing overlaps it, and it lies on a port (R261, R262). -/
theorem regionSet_ok (hok : entryOk w = true)
    (hsame : ((t.regionAt w).any fun r => r.kind != (cEntry w).kind || r.lhv != (cEntry w).lhv) = false)
    (hregions : ((t.allRegions.filter fun r => !(r.1 == cCi w && r.2.1 == cPar w 0 1)).any fun r => Span.meets r.2.2.span (cEntry w).span) = false)
    (hspans : ((t.firnSpans ++ t.rtSpans).any fun r => Span.meets r (cEntry w).span) = false) (hport : t.onPort262 (cEntry w) = true) :
    regionSet w t = .ok (t.startRule w (.setRegion (cPar w 0 1) (cEntry w)) (t.regionCut w) (t.recallSteps (cCi w) (t.regionCut w))) := by
  rw [State.regionAt] at hsame
  simp only [regionSet, hok, beq_eq_false_iff_ne.2 hst, Nat.not_le.2 hidx, hsame, hregions, hspans, hport, Bool.not_true, Bool.or_self,
    Bool.false_eq_true, if_false] <;> rfl

theorem regionClear_ok {o : Region} (ho : t.regionAt w = some o) :
    regionClear w t = .ok (t.startRule w (.clearRegion (cPar w 0 1)) (o.clearedBy (cFlag w 1))
      (t.recallSteps (cCi w) (o.clearedBy (cFlag w 1)))) := by
  rw [State.regionAt] at ho
  simp only [regionClear, beq_iff_eq, hst, Nat.not_le.2 hidx, ho, if_false, Region.clearedBy]

theorem leasePass_ok {o : Region} {r : Recall} (ho : t.regionAt w = some o) (hk : o.kind = .lease)
    (hr : r = if cFlag w 1 then .zero o.lo o.hi .lease else .nothing) :
    leasePass w t = .ok (t.startRule w (.setRegion (cPar w 0 1) { o with lhrq := BitVec.ofNat 12 (cPar w 2 2), lhv := cPar w 4 1 == 1 }) r
      (t.recallSteps (cCi w) r)) := by
  subst hr
  rw [State.regionAt] at ho
  simp only [leasePass, beq_eq_false_iff_ne.2 hst, Nat.not_le.2 hidx, ho, hk, bne_self_eq_false, Bool.false_eq_true, if_false]

theorem regionRead_ok : regionRead w t = .ok (t.replyDone w [(16, t.regionReply w)]) := by
  simp only [regionRead, beq_iff_eq, hst, Nat.not_le.2 hidx, if_false, State.done_eq] <;> rfl

end

/-- Settles O5: the four bodies, under the checks that `Served` passes; what a change asks for is `State.regionCut` or `Region.clearedBy`. -/
theorem regionCommandsComplete : Obligations.RegionCommandsComplete := by
  rintro w s t i x o rfl hst hidx
  refine ⟨?set, ?clear, fun h ho hk r hr => mcRow_served h (leasePass_ok hst hidx ho hk hr), fun h => mcRow_served h (regionRead_ok hst hidx)⟩
  case set =>
    rintro h hok hsame hregions hspans hport r rfl
    exact mcRow_served h (regionSet_ok hst hidx hok hsame hregions hspans hport)
  case clear =>
    rintro h ho r rfl
    exact mcRow_served h (regionClear_ok hst hidx ho)

end Sys2Proof.Machine

namespace Sys2Proof.Machine

open Sys2Proof

/-! ### The LFSR of a lottery over many core cycles (R291) -/

/-- A map on 32 bits is linear over GF(2): it distributes over exclusive or, so it is known from its images of the unit vectors. -/
def XorLinear (f : BitVec 32 → BitVec 32) : Prop := ∀ x y, f (x ^^^ y) = f x ^^^ f y

/-- The images of the 32 unit vectors: the matrix form in which `linApply` and `linSq` take a linear map. -/
def unitImages (f : BitVec 32 → BitVec 32) : List (BitVec 32) := (List.range 32).map fun i => f (BitVec.ofNat 32 (2 ^ i))

/-- The low `k` bits of a word. -/
def lowBits (x : BitVec 32) (k : Nat) : BitVec 32 := (x.setWidth k).setWidth 32

theorem lowBits_zero (x : BitVec 32) : lowBits x 0 = 0 := BitVec.eq_of_getLsbD_eq fun i _ => by simp [lowBits]

theorem lowBits_all (x : BitVec 32) : lowBits x 32 = x := by simp [lowBits]

theorem getLsbD_lowBits (x : BitVec 32) (k i : Nat) : (lowBits x k).getLsbD i = (decide (i < k) && x.getLsbD i) := by
  by_cases hi : i < 32
  · simp [lowBits, hi]
  · simp [BitVec.getLsbD_of_ge _ i (Nat.le_of_not_lt hi)]

/-- One more low bit adds its unit vector where the bit is set. -/
theorem lowBits_succ (x : BitVec 32) (k : Nat) :
    lowBits x (k + 1) = if x.getLsbD k then lowBits x k ^^^ BitVec.ofNat 32 (2 ^ k) else lowBits x k := by
  have hunit : BitVec.ofNat 32 (2 ^ k) = BitVec.twoPow 32 k := by
    apply BitVec.eq_of_toNat_eq; simp [BitVec.toNat_twoPow]
  refine BitVec.eq_of_getLsbD_eq fun i hi => ?_
  rw [hunit, apply_ite (BitVec.getLsbD · i), BitVec.getLsbD_xor, BitVec.getLsbD_twoPow, getLsbD_lowBits, getLsbD_lowBits]
  by_cases hk : k = i
  · subst hk
    cases x.getLsbD k <;> simp [hi]
  · have hlt : i < k + 1 ↔ i < k := by omega
    simp [hk, hlt]

section
variable {f g : BitVec 32 → BitVec 32}

theorem XorLinear.map_zero (hf : XorLinear f) : f 0 = 0 := by
  have h := hf 0 0
  rwa [BitVec.xor_self, BitVec.xor_self] at h

theorem XorLinear.comp (hf : XorLinear f) (hg : XorLinear g) : XorLinear (f ∘ g) := fun x y => by
  simp only [Function.comp_apply, hg x y, hf (g x) (g y)]

/-- After `k` unit vectors `linApply` has summed the image of the low `k` bits. -/
theorem foldl_unitImages_lowBits (hf : XorLinear f) (x : BitVec 32) (k : Nat) :
    ((List.range k).map fun i => f (BitVec.ofNat 32 (2 ^ i))).foldl
      (fun (p : Nat × BitVec 32) c => (p.1 + 1, if x.getLsbD p.1 then p.2 ^^^ c else p.2)) (0, 0) = (k, f (lowBits x k)) := by
  induction k with
  | zero => exact congrArg (Prod.mk 0) ((congrArg f (lowBits_zero x)).trans hf.map_zero).symm
  | succ k ih =>
    rw [List.range_succ, List.map_append, List.foldl_append, ih, lowBits_succ, apply_ite f, hf]
    rfl

theorem linApply_unitImages (hf : XorLinear f) (x : BitVec 32) : linApply (unitImages f) x = f x := by
  rw [linApply, unitImages, foldl_unitImages_lowBits hf x 32, lowBits_all]

theorem linSq_unitImages (hf : XorLinear f) : linSq (unitImages f) = unitImages (f ∘ f) := by
  rw [linSq, funext (linApply_unitImages hf), unitImages, List.map_map]
  rfl

/-- The binary jump is the iteration: the lowest bit of `n` gives a single application, the others the iteration of the square. -/
theorem lfsrJump_unitImages {fuel : Nat} (hf : XorLinear f) {n : Nat} (hn : n < 2 ^ fuel) (x : BitVec 32) :
    lfsrJump fuel (unitImages f) n x = f^[n] x := by
  induction fuel generalizing f n x with
  | zero =>
    have h0 : n = 0 := by simpa using hn
    rw [h0]
    rfl
  | succ fuel ih =>
    have hhalf : n / 2 < 2 ^ fuel := by omega
    have hodd : (if n % 2 = 1 then f x else x) = f^[n % 2] x := by
      rcases Nat.mod_two_eq_zero_or_one n with h | h
      · simp [h]
      · simp [h]
    calc lfsrJump (fuel + 1) (unitImages f) n x
        = lfsrJump fuel (unitImages (f ∘ f)) (n / 2) (f^[n % 2] x) := by
          rw [lfsrJump, linSq_unitImages hf, linApply_unitImages hf, hodd]
      _ = (f^[2])^[n / 2] (f^[n % 2] x) := ih (hf.comp hf) hhalf _
      _ = f^[n] x := by rw [← Function.iterate_mul, ← Function.iterate_add_apply, Nat.div_add_mod]

end

/-- R291's step is linear: the shift is, and so is the feedback of bit 0, which two set bits cancel. -/
theorem xorLinear_lfsrStep : XorLinear lfsrStep := by
  intro x y
  simp only [lfsrStep, BitVec.getLsbD_xor, BitVec.ushiftRight_xor_distrib]
  cases x.getLsbD 0 <;> cases y.getLsbD 0 <;>
    simp only [Bool.xor_self, Bool.xor_true, Bool.xor_false, Bool.not_false, Bool.false_eq_true, if_true, if_false]
  case false.true => ac_rfl
  case true.false => ac_rfl
  case true.true =>
    rw [BitVec.xor_assoc, BitVec.xor_comm 0x80200003, BitVec.xor_assoc, BitVec.xor_self, BitVec.xor_zero]

theorem lfsrAfter_eq_iterate {n : Nat} (hn : n < 2 ^ 52) (x : BitVec 32) : lfsrAfter n x = lfsrStep^[n] x := by
  unfold lfsrAfter
  split
  · next h => rw [h]; rfl
  · split
    · next h => rw [h]; rfl
    · exact lfsrJump_unitImages xorLinear_lfsrStep hn x

/-- Settles O53: the jump by the squares of the step's matrix is the iteration of R291's linear step. -/
theorem lfsrRunsCycleByCycle : Obligations.LfsrRunsCycleByCycle := by
  refine ⟨fun x => rfl, by decide, fun n x => (lfsrAfter_eq_iterate · x), fun a n hn => ⟨fun h => ?unseeded, fun v h => ?seeded⟩,
    fun s n => ⟨rfl, rfl, rfl⟩⟩
  case unseeded => simp only [Arb.run, h, lfsrAfter_eq_iterate hn]
  case seeded =>
    have hn' : n - 1 < 2 ^ 52 := Nat.lt_of_le_of_lt (Nat.sub_le n 1) hn
    simp only [Arb.run, h, lfsrAfter_eq_iterate hn', and_self]

end Sys2Proof.Machine

namespace Sys2Proof.Machine

open Sys2Proof

/-! ### The cut of a grant (R202, R298, R299, R301) -/

section
variable {s : State} {e : Eng}

theorem State.modArb_eq_self {f : Arb → Arb} (h : f (s.arb e) = s.arb e) : s.modArb e f = s := by
  rw [State.modArb, h]
  cases e <;> rfl

/-- The cut of a grant that is held makes this cycle its last. -/
theorem State.cutGrant_held {q : Nat} (h : (s.arb e).holder = some q) :
    s.cutGrant e = s.modArb e fun a => { a with cut := true, ending := true } := by
  simp only [State.cutGrant, State.modArb, h, Option.isSome_some, if_true]

theorem State.cutGrant_free (h : (s.arb e).holder = none) : s.cutGrant e = s :=
  State.modArb_eq_self (if_neg (by rw [h]; decide))

end

/-! ### The commands of the arbiters and engines (R291, R296, R298 to R300, R302, R303, R306) -/

section
variable {w : BitVec 512} {t : State}

theorem arbTickets_ok (hst : (t.inst (cCi w)).st ≠ .free) :
    arbTickets w t =
      .ok ((t.modInst (cCi w) fun x => { x with tkt0 := cPar w 0 2, tkt1 := cPar w 2 2, tktB := cPar w 4 2 }).replyDone w []) := by
  simp only [arbTickets, beq_iff_eq, hst, if_false, State.done_eq]

/-- The modes 1 to 3 are SERVICE, TEST and RECOVERY (R300). -/
theorem arbMode_ok (h : between 1 (cPar w 0 1) 3 = true) :
    arbMode w t = .ok (({ t with arbMode := if cPar w 0 1 = 1 then .service else if cPar w 0 1 = 2 then .test
      else .recovery } : State).replyDone w []) := by
  simp only [arbMode, h, Bool.not_true, Bool.false_eq_true, if_false, State.done_eq]

/-- The watchdog's limit of an engine (R296): the effect of `arbHoldmax`, tied to it by `arbHoldmax_ok`. -/
def Params.withHoldMax (p : Params) (v : Nat) : Eng → Params
  | .te0 => { p with hm0 := v }
  | .te1 => { p with hm1 := v }
  | .be => { p with hmB := v }

/-- What a disabled engine ends at once (R306): the effect of `engDisable`, tied to it by `engDisable_ok`. -/
def State.engOff (s : State) : Eng → State
  | .te0 => s.teOff false
  | .te1 => s.teOff true
  | .be => s.beOff

section
variable {e : Eng} (he : engOf (cPar w 0 1) = some e)
include he

/-- A command that names an engine goes on with it. -/
theorem withEng_some (f : Eng → Except Status State) : withEng w f = f e := by
  simp only [withEng, he]

theorem arbSeed_ok (h : cPar w 4 4 ≠ 0) :
    arbSeed w t = .ok ((t.modArb e fun a => { a with seed := some (BitVec.ofNat 32 (cPar w 4 4)) }).replyDone w []) := by
  simp only [arbSeed, withEng_some he, h, if_false, State.done_eq]

theorem arbPreempt_ok (h : t.arbMode = .service) : arbPreempt w t = .ok ((t.cutGrant e).replyDone w []) := by
  simp only [arbPreempt, withEng_some he, h, bne_self_eq_false, Bool.false_eq_true, if_false, State.done_eq]

theorem arbHoldmax_ok : arbHoldmax w t = .ok (({ t with params := t.params.withHoldMax (cPar w 2 2) e } : State).replyDone w []) := by
  rw [arbHoldmax, withEng_some he]
  cases e <;> rfl

/-- BE serves neither a sweep nor the emergency: the copied and queued work ends, and the answer waits for the grant's (log entry 51). -/
theorem engDisable_ok (h : e = .be → t.be.sweeps = [] ∧ t.arbB.holder ≠ some 65 ∧ t.arbB.won ≠ some 65) :
    engDisable w t = .ok ((((t.modArb e fun a => { a with en := false }).startLong w (.engDisable e) 0).engOff e).pump.engEnds) := by
  have hidle : (e == .be && (!t.be.sweeps.isEmpty || t.arbB.holder == some 65 || t.arbB.won == some 65)) = false := by
    cases e with
    | te0 | te1 => rfl
    | be =>
      obtain ⟨hsweeps, hholder, hwon⟩ := h rfl
      simp [hsweeps, hholder, hwon]
  rw [engDisable, withEng_some he, hidle]
  cases e <;> rfl

theorem engEnable_ok : engEnable w t = .ok ((t.modArb e fun a => { a with en := true }).replyDone w []) := by
  rw [engEnable, withEng_some he, State.done_eq]

theorem arbStatus_ok :
    arbStatus w t = .ok (t.replyDone w [(1, t.arbMode.code), (1, match (t.arb e).holder with | some q => q | none => 0xFF),
      (2, t.hestNow e), (4, (t.arb e).lfsr.toNat), (1, b2n (t.arb e).en 0)]) :=
  (withEng_some he _).trans rfl

end

end

/-- Settles O12: the nine bodies, under the checks that `Served` passes; ARB_PREEMPT by whether a grant is held. -/
theorem arbiterCommandsComplete : Obligations.ArbiterCommandsComplete := by
  intro w s t i e
  refine ⟨fun h hst => mcRow_served h (arbTickets_ok hst), fun h => mcRow_served h rfl,
    fun h h1 h3 => mcRow_served h (arbMode_ok (between_true h1 h3)), fun he => ⟨fun h hseed => mcRow_served h (arbSeed_ok he hseed),
    fun q h hm hq => ?held, fun h hm hn => ?free, fun h => ?holdmax, fun u h hbe hu => ?disable,
    fun h => mcRow_served h (engEnable_ok he), fun h => mcRow_served h (arbStatus_ok he)⟩⟩
  case held => exact mcRow_served h (State.cutGrant_held hq ▸ arbPreempt_ok he hm)
  case free => exact mcRow_served h (by rw [arbPreempt_ok he hm, State.cutGrant_free hn])
  case holdmax =>
    refine (mcRow_served h (arbHoldmax_ok he)).trans ?_
    cases e <;> rfl
  case disable =>
    subst hu
    refine (mcRow_served h (engDisable_ok he hbe)).trans ?_
    cases e <;> rfl

end Sys2Proof.Machine

namespace Sys2Proof.Machine

open Sys2Proof

/-! ### Draws, the end of a grant, its watchdog and the emergency (R292, R294, R295, R297, R301, R303, R306; log entries 51, 71 and 83) -/

section
variable {s : State} {e : Eng}

/-- A draw in the cycle of no holder, or in the last one of a grant (R294, R295). -/
theorem exec_lotteryDraw_draws (hfree : (s.arb e).holder = none ∨ (s.arb e).ending = true) (hwon : (s.arb e).won = none)
    (hen : (s.arb e).en = true) (hrun : s.running = true) (hsweep : e = .be → s.be.sweeps = []) :
    exec (.lotteryDraw e) s = .next (s.modArb e fun b => { b with won := s.draw e (s.arb e).holder }) := by
  have hbusy : ((s.arb e).holder.isSome && !(s.arb e).ending) = false := by
    rcases hfree with h | h
    · simp [h]
    · simp [h]
  have hwait : (e == .be && !s.be.sweeps.isEmpty) = false := by
    cases e with
    | te0 | te1 => rfl
    | be => simp [hsweep rfl]
  show execLotteryDraw e s = _
  simp only [execLotteryDraw, hbusy, hwon, hen, hrun, hwait, Option.isSome_none, Bool.not_true, Bool.or_self, Bool.false_eq_true, if_false]

theorem exec_grantEnd_last {q : Nat} (hq : (s.arb e).holder = some q) (hlot : q ≠ 65)
    (h : s.requests e q = false ∨ (s.arb e).cut = true) :
    exec (.grantEnd e) s = .next (s.modArb e fun a => { a with ending := true }) := by
  have hover : (!s.requests e q || (s.arb e).cut) = true := by
    rcases h with h | h
    · simp [h]
    · simp [h]
  show execGrantEnd e s = _
  simp only [execGrantEnd, hq, if_neg hlot, hover, if_true]

theorem exec_grantEnd_free (h : (s.arb e).holder = none) : exec (.grantEnd e) s = .next s.engEnds := by
  show execGrantEnd e s = _
  simp only [execGrantEnd, h]

/-- The watchdog of a grant that goes on: the cut is recorded, is made in SERVICE, and the core cycle is over (R297, log entry 71). -/
theorem exec_holdWatchdogExpiry_cuts {q : Nat} {d : Tick} {u v : State} (hq : (s.arb e).holder = some q) (hd : (s.arb e).dl = some d)
    (hu : u = s.goTo d) (huq : (u.arb e).holder = some q) (hue : (u.arb e).ending = false) (hlot : q < 64)
    (hv : v = ((u.modArb e fun a => { a with dl := none }).markCut (BitVec.ofNat 6 q) e).bump (Eng.cutCtr e)) :
    exec (.holdWatchdogExpiry e) s = .next (if v.arbMode = .service then v.cutGrant e else v).closeCycle := by
  subst hu hv
  show execHoldWatchdogExpiry e s = _
  simp only [execHoldWatchdogExpiry, hq, hd, huq, hue, bne_self_eq_false, Bool.or_self, Bool.false_eq_true, if_false, if_pos hlot]

end

section
variable {s : State}

theorem exec_emergencyPreempt_cuts (hsweep : s.be.sweeps ≠ []) (hrun : s.running = true)
    (h : s.arbB.holder ≠ some 65 ∨ s.arbB.ending = true) :
    exec .emergencyPreempt s = .next ((s.cutGrant .be).modArb .be fun a => { a with won := some 65 }) := by
  have hgrant : (s.arbB.holder == some 65 && !s.arbB.ending) = false := by
    rcases h with h | h
    · simp [h]
    · simp [h]
  have hwaits : s.be.sweeps.isEmpty = false := by simpa using hsweep
  show execEmergencyPreempt s = _
  simp only [execEmergencyPreempt, hwaits, hgrant, hrun, Bool.not_true, Bool.or_self, Bool.false_eq_true, if_false]

/-! ### The steps of the bulk engine (R308, R309) -/

/-- The step of the holder's operation, the first of this tick. -/
theorem exec_bulkStepIssue_begins {o : BulkOp} {t u : State} (hready : s.stepReady.isSome = true) (hu : u = s.toPhase0)
    (ho : u.stepReady = some o) (hnew : u.be.issued ≠ some u.clk.tick) (hb : u.beginStep o = some t) :
    exec .bulkStepIssue s = .next ((({ t with be := { t.be with issued := some t.clk.tick } } : State).bump 0xE40).pump) := by
  subst hu
  have hsome : s.stepReady.isNone = false := by rw [← Option.not_isSome, hready]; rfl
  show execBulkStepIssue s = _
  simp only [execBulkStepIssue, hsome, ho, beq_eq_false_iff_ne.2 hnew, hb, Bool.false_eq_true, if_false]

section
variable {n : Nat} {o : BulkOp} {b : BStep} (hn : s.nthStep n = some (o, b)) (hover : s.stepOver o b = true)
include hn hover

theorem exec_bulkStepComplete_done (hmore : b.more = false) :
    exec (.bulkStepComplete n) s = .next ((s.stepDone o b).modOp o.id fun p =>
      { p with outst := p.outst.filter fun c => c.pos != b.pos, done := p.done + 1 }) := by
  show execBulkStepComplete n s = _
  simp only [execBulkStepComplete, hn, hover, hmore, Bool.not_true, Bool.false_and, Bool.false_eq_true, if_false]

/-- A step that is not done runs again, unless its operation has been stopped. -/
theorem exec_bulkStepComplete_again (hmore : b.more = true) :
    exec (.bulkStepComplete n) s = .next (s.modOp o.id fun p =>
      { p with outst := p.outst.filter fun c => c.pos != b.pos, again := if p.stopped then p.again else p.again ++ [b.pos] }) := by
  have hagain (p : BulkOp) : (if !p.stopped then p.again ++ [b.pos] else p.again) = if p.stopped then p.again else p.again ++ [b.pos] := by
    cases p.stopped <;> rfl
  show execBulkStepComplete n s = _
  simp only [execBulkStepComplete, hn, hover, hmore, hagain, Bool.not_true, Bool.true_and, Bool.false_eq_true, if_false, if_true]

end

end

/-- Settles O34: each row, under its conditions; the watchdog by the mode of R297. -/
theorem lotteryAndBulkEventsComplete : Obligations.LotteryAndBulkEventsComplete := by
  intro s e
  refine ⟨exec_lotteryDraw_draws, fun q => exec_grantEnd_last, exec_grantEnd_free, fun q d u v hq hd hu huq hue hlot hv => ?watchdog,
    exec_emergencyPreempt_cuts, ?hints, fun o t u => exec_bulkStepIssue_begins,
    fun n o b hn hover => ⟨exec_bulkStepComplete_done hn hover, exec_bulkStepComplete_again hn hover⟩⟩
  case watchdog =>
    rw [exec_holdWatchdogExpiry_cuts hq hd hu huq hue hlot hv]
    exact ⟨fun hm => by rw [if_pos hm], fun hm => by rw [if_neg hm]⟩
  case hints =>
    rintro u rfl
    rfl

end Sys2Proof.Machine

namespace Sys2Proof.Machine

open Sys2Proof

/-! ### `AGENT_ADD`, `AGENT_REMOVE`, `AGENT_ENABLE`, `AGENT_READMIT`, `AGENT_READ` (R311, R314, R315, R321, R326, R327, R330, R424, R484; log entry 48) -/

section
variable {w : BitVec 512} {t : State}

section
variable {l : BitVec 10} (hl : l = BitVec.ofNat 10 (cPar w 4 2)) (hnew : t.agent (cRq w) = none)
  (hpath : t.ret.chans.contains { chk := 3, chn := l.setWidth 12 } = false)
include hl hnew hpath

/-- An agent of class LEASE or IO has no CAX (R314). -/
theorem agentAdd_noCax (hcls : cPar w 2 1 = 1 ∨ cPar w 2 1 = 2) :
    agentAdd w t = .ok ((t.setAgent (cRq w) (Agent.fresh (aclassOf (cPar w 2 1)) none l)).replyDone w [(2, 0)]) := by
  subst hl
  have hknown : ¬ cPar w 2 1 > 2 := by omega
  have hbi : (cPar w 2 1 == 0) = false := by rw [beq_eq_false_iff_ne]; omega
  simp only [agentAdd, hknown, hnew, hpath, bne, hbi, Option.isSome_none, Bool.false_and, Bool.or_self, Bool.not_false, Bool.false_eq_true,
    if_false, if_true, State.done_eq]

/-- An agent of class BI gets the lowest free CAX or the one named, which nobody holds, and joins its instances. -/
theorem agentAdd_cax {c : Cax} (hcls : cPar w 2 1 = 0)
    (hc : (cFlag w 4 = true ∧ t.freeCax = some c) ∨ (cFlag w 4 = false ∧ c = BitVec.ofNat 10 (cPar w 6 2) ∧ t.caxAgent c = none)) :
    agentAdd w t = .ok ((((t.setAgent (cRq w) (Agent.fresh .bi (some c) l)).joinAll (cRq w) c).later 1 (.calReset c)).replyDone w
      [(2, c.toNat)]) := by
  subst hl
  have hknown : ¬ (0 : Nat) > 2 := by omega
  rcases hc with ⟨hany, hfree⟩ | ⟨hany, rfl, hheld⟩
  case inl =>
    simp only [agentAdd, hcls, hknown, hnew, hpath, hany, hfree, bne_self_eq_false, Option.isSome_none, Bool.not_true, Bool.and_false,
      Bool.false_and, Bool.or_self, Bool.false_eq_true, if_false, if_true, State.done_eq]
  case inr =>
    simp only [agentAdd, hcls, hknown, hnew, hpath, hany, hheld, bne_self_eq_false, Option.isSome_none, Bool.and_false,
      Bool.or_self, Bool.false_eq_true, if_false, State.done_eq]

end

variable {a : Agent} (ha : t.agent (cRq w) = some a)
include ha

section
variable {u : State} (hbind : a.bind = none) (hpb : t.pendBind (cRq w) = false)
  (hirt : ((t.irt ++ t.pendIrt).any fun e => e.rqid == cRq w) = false) (hswp : a.swp = false) (hmsg : t.msgOut (cRq w) a = false)
  (hu : u = { t with agents := tDel t.agents (cRq w).toNat })
include hbind hpb hirt hswp hmsg hu

theorem agentRemove_notHeld (hst : a.lst ≠ .held) : agentRemove w t = .ok (u.replyDone w []) := by
  subst hu
  simp only [agentRemove, State.named_some ha, hbind, hpb, hirt, hswp, hmsg, Option.isSome_none, Bool.or_self, beq_iff_eq, hst,
    Bool.false_eq_true, if_false, State.done_eq]

/-- The credits of the port stay withheld for another agent that is held out there, or for a retired path (R321, R484). -/
theorem agentRemove_held (hst : a.lst = .held) :
    agentRemove w t = .ok ((u.modLport a.lport fun p =>
      { p with held := (u.agents.any fun q => q.2.lport == a.lport && q.2.lst == .held) ||
        t.ret.chans.contains { chk := 3, chn := a.lport.setWidth 12 } }).replyDone w []) := by
  subst hu
  simp only [agentRemove, State.named_some ha, hbind, hpb, hirt, hswp, hmsg, Option.isSome_none, Bool.or_self, hst, beq_self_eq_true,
    Bool.false_eq_true, if_false, if_true, State.done_eq]

end

theorem agentEnable_ok (hret : a.retired = false) :
    agentEnable w t = .ok (((t.setAgent (cRq w) { a with en := true }).later 1 (.agentEn (cRq w) true)).replyDone w []) := by
  simp only [agentEnable, State.named_some ha, hret, Bool.false_eq_true, if_false, State.done_eq]

section
variable (hret : a.retired = false) (hswp : a.swp = false)
include hret hswp

theorem agentReadmit_held (hst : a.lst = .held) :
    agentReadmit w t = .ok (((t.setAgent (cRq w) { a with rdm := false }).later 1 (.credits (cRq w))).replyDone w []) := by
  simp only [agentReadmit, State.named_some ha, hret, hswp, hst, Bool.or_self, beq_self_eq_true, Bool.false_eq_true, if_false, if_true,
    State.done_eq]

/-- The agent is not held out: there are no credits to restore (log entry 48). -/
theorem agentReadmit_notHeld (hst : a.lst ≠ .held) :
    agentReadmit w t = .ok ((t.setAgent (cRq w) { a with rdm := false }).replyDone w []) := by
  simp only [agentReadmit, State.named_some ha, hret, hswp, Bool.or_self, beq_iff_eq, hst, Bool.false_eq_true, if_false, State.done_eq]

end

theorem agentRead_ok : agentRead w t = .ok (t.replyDone w [(8, a.encode)]) := State.named_some ha _

end

/-- Settles O7: the five bodies, under the checks that `Served` passes; AGENT_ADD by the class, AGENT_REMOVE and AGENT_READMIT by whether
the agent is held out. -/
theorem agentTableCommandsComplete : Obligations.AgentTableCommandsComplete := by
  intro w s t i a l
  refine ⟨fun h hl hnew hpath => ⟨fun hcls => mcRow_served h (agentAdd_noCax hl hnew hpath hcls),
    fun c hcls hc => mcRow_served h (agentAdd_cax hl hnew hpath hcls hc)⟩, fun ha => ⟨fun u h hbind hpb hirt hswp hmsg hu => ?remove,
    fun h hret => mcRow_served h (agentEnable_ok ha hret), fun h hret hswp => ?readmit, fun h => mcRow_served h (agentRead_ok ha)⟩⟩
  case remove => exact ⟨fun hst => mcRow_served h (agentRemove_notHeld ha hbind hpb hirt hswp hmsg hu hst),
    fun hst => mcRow_served h (agentRemove_held ha hbind hpb hirt hswp hmsg hu hst)⟩
  case readmit => exact ⟨fun hst => mcRow_served h (agentReadmit_held ha hret hswp hst),
    fun hst => mcRow_served h (agentReadmit_notHeld ha hret hswp hst)⟩

/-! ### `AGENT_GRACE`, `SNOOP_CFG`, `CAL_READ`, `CAL_RESET` (R131, R318, R424, R425) -/

/-- The fields of the block summary that `CAL_READ` replies: of zeros where there is none (R425; tied to the body by `calRead_ok`). -/
def State.calReply (s : State) (w : BitVec 512) : List (Nat × Nat) :=
  match tGet s.calSum (cPar w 0 2) with
  | some (a, b, c) => [(4, a), (4, b), (4, c), (1, 1)]
  | none => [(4, 0), (4, 0), (4, 0), (1, 0)]

section
variable {w : BitVec 512} {t : State}

theorem agentGrace_ok (h : between 1250 (cPar w 0 4) 125000000 = true) :
    agentGrace w t = .ok (({ t with params := { t.params with graceTmo := cPar w 0 4 } } : State).replyDone w []) := by
  simp only [agentGrace, h, Bool.not_true, Bool.false_eq_true, if_false, State.done_eq]

/-- The limits and the number of retries within their ranges take effect at the next phase 0. -/
theorem snoopCfg_ok (hmin : between 16 (cPar w 0 2) 65535 = true) (hmax : between 1024 (cPar w 4 4) 1048575 = true)
    (hle : cPar w 0 2 ≤ cPar w 4 4) (hretry : cPar w 8 1 ≤ 7) :
    snoopCfg w t = .ok ((t.later 1 (.snoopCfg (cPar w 0 2) (cPar w 4 4) (cPar w 8 1))).replyDone w []) := by
  simp only [snoopCfg, hmin, hmax, hle, hretry, decide_true, Bool.and_self, Bool.not_true, Bool.false_eq_true, if_false, State.done_eq]

theorem calRead_ok : calRead w t = .ok (t.replyDone w (t.calReply w)) := by
  cases hsum : tGet t.calSum (cPar w 0 2) <;> simp only [calRead, State.calReply, hsum, State.done_eq]

end

/-- Settles O9: the four bodies, under the checks that `Served` passes. -/
theorem snoopAndCalibrationCommandsComplete : Obligations.SnoopAndCalibrationCommandsComplete := by
  intro w s t i
  exact ⟨fun h hlo hhi => mcRow_served h (agentGrace_ok (between_true hlo hhi)),
    fun h hmin hmax hmax' hle hmin' hretry => mcRow_served h (snoopCfg_ok (between_true hmin hmin') (between_true hmax hmax') hle hretry),
    fun h => mcRow_served h calRead_ok, fun h => mcRow_served h rfl⟩

end Sys2Proof.Machine

namespace Sys2Proof.Machine

open Sys2Proof

/-! ### Port events, the grace timer and the end of a lost session (R316 to R321, R324, R326, R329, R375; log entries 56, 59 and 71) -/

/-- What port event `e` at station `n` leaves, where its effect would be `t`: a station that does not work latches the event (R375; tied
to the rows of the events by `exec_pevDown_eq`, `exec_pevUp_eq`, `exec_pevReset_eq` and `exec_pevGone_eq`). -/
def State.pevAt (s : State) (n : Stn) (e : Instr) (t : State) : State := if s.works (psDom n) then t else s.latch n e

section
variable {s : State} {n : Stn}

theorem State.pevAt_works {e : Instr} {t : State} (hn : s.works (psDom n) = true) : s.pevAt n e t = t := if_pos hn

theorem State.pevAt_latched {e : Instr} {t : State} (hn : s.works (psDom n) = false) : s.pevAt n e t = s.latch n e := by
  simp only [State.pevAt, hn, Bool.false_eq_true, if_false]

variable {lp : Lp}

theorem exec_pevDown_eq : exec (.pevDown n lp) s = .next (s.pevAt n (.pevDown n lp) (s.linkDown n lp)) :=
  (apply_ite Host.Outcome.next _ _ _).symm

theorem exec_pevUp_eq {blk : Bool} :
    exec (.pevUp n lp blk) s = .next (s.pevAt n (.pevUp n lp blk)
      (if (s.linkUp n lp blk).psUp n then (s.linkUp n lp blk).deliverAll n else s.linkUp n lp blk)) :=
  (apply_ite Host.Outcome.next _ _ _).symm

theorem exec_pevReset_eq : exec (.pevReset n lp) s = .next (s.pevAt n (.pevReset n lp) (s.linkReset n lp).pump) :=
  (apply_ite Host.Outcome.next _ _ _).symm

theorem exec_pevGone_eq : exec (.pevGone n lp) s = .next (s.pevAt n (.pevGone n lp) (s.linkReset n lp).pump) :=
  (apply_ite Host.Outcome.next _ _ _).symm

end

section
variable {s : State} {rq : Rqid}

/-- An agent that stays DOWN for the grace time has failed (R318, R320), and the core cycle is over (log entry 71). -/
theorem exec_graceTimerExpiry_lost {a : Agent} {d : Tick} (ha : s.agent rq = some a) (hst : a.lst = .down) (hd : a.grace = some d) :
    exec (.graceTimerExpiry rq) s = .next ((s.goTo d).loseSession rq true).pump.closeCycle := by
  show execGraceTimerExpiry rq s = _
  simp only [execGraceTimerExpiry, ha, hst, hd]

section
variable {a : Agent} (ha : s.agent rq = some a) (hswp : a.swp = true) (hdr : s.drained rq a = true)
  (hnew : (s.be.sweeps.any fun o => o.q == 4096 + rq.toNat) = false)
include ha hswp hdr hnew

theorem exec_sessionDrain_sweeps {c : Cax} (hc : a.cax = some c) : exec (.sessionDrain rq) s = .next (s.queueSweep rq c a.lostMem) := by
  show execSessionDrain rq s = _
  simp only [execSessionDrain, ha, hswp, hdr, hnew, hc, Bool.not_true, Bool.or_self, Bool.false_eq_true, if_false]

/-- An agent without a CAX holds no lines (R324; log entry 59). -/
theorem exec_sessionDrain_releases (hc : a.cax = none) : exec (.sessionDrain rq) s = .next (s.release rq) := by
  show execSessionDrain rq s = _
  simp only [execSessionDrain, ha, hswp, hdr, hnew, hc, Bool.not_true, Bool.or_self, Bool.false_eq_true, if_false]

end

theorem exec_agentSweepEnd_releases {o : BulkOp} (ho : (s.be.sweeps.find? fun o => o.q == 4096 + rq.toNat) = some o)
    (hdone : s.opDone o = true) :
    exec (.agentSweepEnd rq) s =
      .next ((({ s with be := { s.be with sweeps := s.be.sweeps.erase o } } : State).bump 0xE42).release rq) := by
  show execAgentSweepEnd rq s = _
  simp only [execAgentSweepEnd, ho, hdone, Bool.not_true, Bool.false_eq_true, if_false]

/-- The command under way is `AGENT_DISABLE` of `rq`, and its sweeps have not begun. -/
def LongCmd.disables (rq : Rqid) (l : LongCmd) : Bool :=
  match l.job with
  | .agentDisable r _ false => r == rq
  | _ => false

/-- No general message of the disabled agent is out, and its station has learnt of the disable: the sweeps begin (R329). -/
theorem exec_agentDisableDrain_sweeps {l : LongCmd} {a : Agent} (hl : s.mc.longs.find? (·.disables rq) = some l) (ha : s.agent rq = some a)
    (hout : s.generalOut rq a = false) (hen : a.enPs = false) :
    exec (.agentDisableDrain rq) s = .next (s.disableNext l.cmd rq (if a.cax.isSome then s.memberOf rq else [])) := by
  show execAgentDisableDrain rq s = _
  unfold execAgentDisableDrain
  generalize hfound : s.mc.longs.find? _ = found
  obtain rfl : found = some l := hfound.symm.trans hl
  simp only [ha, hout, hen, Bool.or_self, Bool.false_eq_true, if_false]

end

/-- Settles O25: a port event by whether its station works, a drained session by whether its agent holds lines, and the other rows under
their conditions. -/
theorem sessionEventsComplete : Obligations.SessionEventsComplete := by
  intro s n lp blk rq
  refine ⟨fun hn => ?works, fun hn => ?latched, fun a d => exec_graceTimerExpiry_lost,
    fun a ha hswp hdr hnew => ⟨fun c => exec_sessionDrain_sweeps ha hswp hdr hnew, exec_sessionDrain_releases ha hswp hdr hnew⟩,
    fun o => exec_agentSweepEnd_releases, fun l a => exec_agentDisableDrain_sweeps⟩
  case works => simp only [exec_pevDown_eq, exec_pevUp_eq, exec_pevReset_eq, exec_pevGone_eq, State.pevAt_works hn, and_self]
  case latched => simp only [exec_pevDown_eq, exec_pevUp_eq, exec_pevReset_eq, exec_pevGone_eq, State.pevAt_latched hn, and_self]

end Sys2Proof.Machine

namespace Sys2Proof.Machine

open Sys2Proof

/-! ### Grants of an output and hops (R342, R347, R348) -/

section
variable {s : State} {k : Nat} {p : Pkt} {stop : Stop} {port : BitVec 3}

/-- What a hop does to the list of packets; that the queue entered is now full is noted beside the list. -/
theorem State.hop_pkts (st q t : Nat) (esc : Bool) :
    (s.hop k p st q t esc).mesh.pkts = s.mesh.pkts.set k { p with
      urg := BitVec.ofNat 3 (s.urgency p), link := true, esc := esc, at' := some (BitVec.ofNat 6 t, BitVec.ofNat 3 (oppPort q)),
      came := s.clk, qn := s.mesh.seq } := by
  unfold State.hop
  extract_lets
  split
  · rfl
  · rfl

/-- An output remembers the queue that it has granted, for its rotating order (R348): the last effect of `execRouterGrant` before the
injections, tied to it by `exec_routerGrant_hops` and `exec_routerGrant_ejects`. -/
def State.rememberGrant (s : State) (stop : Stop) (port : BitVec 3) (p : Pkt) : State :=
  { s with mesh := { s.mesh with rot := tPut s.mesh.rot (stop.toNat * 8 + port.toNat) (BitVec.ofNat 7 p.queue) } }

section
variable (hb : s.bestOf (s.candidates stop.toNat port.toNat) = some (k, p))
include hb

theorem exec_routerGrant_hops {t : Nat} (ht : nbr stop.toNat port.toNat = some t) :
    exec (.routerGrant stop port) s = .next ((s.hop k p stop.toNat port.toNat t p.esc).rememberGrant stop port p).injectAll := by
  show execRouterGrant stop port s = _
  simp only [execRouterGrant, hb, ht, State.rememberGrant]

theorem exec_routerGrant_ejects (hn : nbr stop.toNat port.toNat = none) :
    exec (.routerGrant stop port) s = .next ((s.eject k p).rememberGrant stop port p).injectAll := by
  show execRouterGrant stop port s = _
  simp only [execRouterGrant, hb, hn, State.rememberGrant]

end

/-! ### Flits on a link, and replays (R335, R360, R361, R480; log entry 80) -/

/-- What the check of a flit makes of its arrival at an input, `u` being the state in which it is taken (R360): the effect of
`execFlitArrival`, tied to it by `exec_flitArrival_first`. -/
def State.flitChecked (s : State) (stop : Stop) (port : BitVec 3) (u : State) : EccErr → State
  | .ok => u
  | .corrected => u.bump (0xF00 + 2 * stop.toNat)
  | .uncorrectable | .reserved => { s with mesh := { s.mesh with replays := s.mesh.replays ++ [(stop.toNat, port.toNat)] } }

/-- A flit arrives when it is the first on its link and the link awaits no replay. -/
theorem exec_flitArrival_first (hk : s.mesh.pkts[k]? = some p) (ha : p.at' = some (stop, port)) (hl : p.link = true)
    (hr : s.replaying stop port = false) (hf : s.firstOnLink p = true) {u : State}
    (hu : u = { s with mesh := { s.mesh with pkts := s.mesh.pkts.set k { p with link := false, came := s.clk } } }) (err : EccErr) :
    exec (.flitArrival k err) s = .next (s.flitChecked stop port u err) := by
  subst hu
  show execFlitArrival k err s = _
  simp only [execFlitArrival, hk, ha, hl, hr, hf, Bool.not_true, Bool.or_self, Bool.false_eq_true, if_false]
  cases err <;> rfl

theorem exec_replay_link (hr : s.replaying stop port = true) :
    exec (.replay stop (some port)) s = .next
      ((({ s with mesh := { s.mesh with replays := s.mesh.replays.erase (stop.toNat, port.toNat) } } : State).bump (0xF01 + 2 * stop.toNat)).faultEv
        2 { chk := 6, chn := BitVec.ofNat 12 (4 * stop.toNat + port.toNat - 1) } stop 0x09) := by
  show execReplay stop (some port) s = _
  simp only [execReplay, hr, Bool.not_true, Bool.false_eq_true, if_false]

/-! ### The escape channel (R351) -/

theorem exec_escapeFallback_escapes {e t : Nat} {l : List Nat} (hk : s.mesh.pkts[k]? = some p) (hesc : p.esc = false) (hh : s.atHead p = true)
    (hp : (s.mesh.bank p.rte).ports p.here.1 p.here.2 p.dst.toNat = e :: l) (hst : s.starved p p.here.1 (e :: l) = true)
    (ht : nbr p.here.1 e = some t) (hc : p.flits ≤ s.credit t (oppPort e) p.vnet true) (hb : s.outBusy p.here.1 e = false) :
    exec (.escapeFallback k) s = .next (s.hop k p p.here.1 e t true).injectAll := by
  show execEscapeFallback k s = _
  simp only [execEscapeFallback, hk, hp, hesc, hh, hst, ht, hb, Nat.not_lt.2 hc, decide_false, Bool.not_true, Bool.or_self, Bool.false_eq_true,
    if_false]

end

/-! ### Route-epoch swaps (R356 to R359) -/

/-- Behind a swap that has ended, the one queued first begins (R358): the end of `execRouteEpochDrained`, tied to it by
`exec_routeEpochDrained_ends`. -/
def State.nextSwap (s : State) : State :=
  match s.mesh.queued with
  | [] => s
  | (a, st, q, c) :: r => ({ s with mesh := { s.mesh with queued := r } } : State).fence a st q c

section
variable {s : State} {w : Swap} (hw : s.mesh.swap = some w)
include hw

theorem exec_routeEpochFlip_flips (hf : w.flipped = false) {u : State} (hu : u = s.goTo (w.t0 + 4)) {m : Mesh}
    (hm : m = { u.mesh with rtep := !u.mesh.rtep, swap := some { w with flipped := true, flipTick := u.clk.tick } }) :
    exec .routeEpochFlip s = .next { u with mesh := { m with pkts := m.pkts.map fun (p : Pkt) =>
      if p.wait then { p with held := m.holds p.src p.dst p.ord } else p } } := by
  subst hm hu
  show execRouteEpochFlip s = _
  simp only [execRouteEpochFlip, hw, hf, Bool.false_eq_true, if_false]

variable (hf : w.flipped = true)
include hf

/-- The old epoch has drained: the held packets go, the command ends, and the swap queued next begins. -/
theorem exec_routeEpochDrained_ends (ho : s.oldEpoch = false) {u v : State}
    (hu : u = ({ s.toPhase0 with mesh := { s.toPhase0.mesh with
      swap := none, pkts := s.toPhase0.mesh.pkts.map fun (p : Pkt) => { p with held := false } } } : State).injectAll.bump 0xEA1)
    (hv : v = w.cmd.elim u fun c => u.finish c .done) : exec .routeEpochDrained s = .next v.nextSwap := by
  show execRouteEpochDrained s = _
  simp only [execRouteEpochDrained, hw, hf, ho, Bool.not_true, Bool.or_self, Bool.false_eq_true, if_false]
  rw [← hu, hv]
  cases w.cmd with
  | none => cases hq : u.mesh.queued <;> simp only [Option.elim, State.nextSwap, hq]
  | some c => cases hq : (u.finish c .done).mesh.queued <;> simp only [Option.elim, State.nextSwap, hq]

theorem exec_rteDrainTmoExpiry_expires {u : State} (hu : u = s.goTo (w.flipTick + BitVec.ofNat 48 s.params.rteTmo)) :
    exec .rteDrainTmoExpiry s = .next (if u.oldEpoch then u.fatal (noChan 0x11) mcStop 0x11 else u) := by
  subst hu
  show execRteDrainTmoExpiry s = _
  simp only [execRteDrainTmoExpiry, hw, hf, Bool.not_true, Bool.false_eq_true, if_false]
  split
  · rfl
  · rfl

end

/-- Settles O37: a grant by whether its output leads to a neighbour, an arrival by what the check of the flit found, the end of a swap by
whether another is queued. -/
theorem meshEventsComplete : Obligations.MeshEventsComplete := by
  intro s k p stop port
  refine ⟨fun u hb hu => ?grant, State.hop_pkts, fun hk ha hl hr hf u hu => ?arrival, exec_replay_link, rfl,
    fun e l t => exec_escapeFallback_escapes, fun w u m hw hf hu hm => exec_routeEpochFlip_flips hw hf hu hm,
    fun w u v hw hf ho hu hv => ?drained, fun w u hw hf hu => exec_rteDrainTmoExpiry_expires hw hf hu⟩
  case grant =>
    obtain ⟨t, ht, rfl⟩ | ⟨hn, rfl⟩ := hu
    · exact exec_routerGrant_hops hb ht
    · exact exec_routerGrant_ejects hb hn
  case arrival =>
    have harr := exec_flitArrival_first hk ha hl hr hf hu
    exact ⟨harr .ok, harr .corrected, harr .uncorrectable⟩
  case drained =>
    have hends := exec_routeEpochDrained_ends hw hf ho hu hv
    exact ⟨fun hq => by rw [hends, State.nextSwap, hq], fun a st q c r hq => by rw [hends, State.nextSwap, hq]⟩

end Sys2Proof.Machine

namespace Sys2Proof.Machine

open Sys2Proof

/-! ### `PD_FREEZE`, `PD_THAW`, `PD_STATUS`, `ENGINE_PARK`, `ENGINE_UNPARK`, `PWR_CFG` (R367, R369, R370, R373 to R375, R469, R484; log entry 49) -/

section
variable {w : BitVec 512} {t : State}

section
variable {ds : List (BitVec 7)} (hds : ds = domPair (BitVec.ofNat 7 (cPar w 0 1))) (hn : cPar w 0 1 ≤ 84) (hseq : ds.any t.inSeq = false)
include hds hn hseq

/-- The freeze begins where the domain is ON and R374 does not hold it. -/
theorem pdFreeze_ok (hon : t.allIn ds .on = true) (hheld : t.freezeHeld (BitVec.ofNat 7 (cPar w 0 1)) = false) :
    pdFreeze w t = .ok ((t.startLong w (.freeze ds) 0).startFreeze ds false (cFlag w 3)) := by
  subst hds
  simp only [pdFreeze, gt_iff_lt, Nat.not_lt.2 hn, hon, hseq, hheld, Bool.not_true, Bool.or_self, Bool.false_eq_true, if_false]

variable (hret : t.domRetired (BitVec.ofNat 7 (cPar w 0 1)) = false)
include hret

/-- A thaw that is under way, or begins at the next phase 0, is joined (log entry 49). -/
theorem pdThaw_joins (h : t.allIn ds .thawing = true ∨ (t.allIn ds .off = true ∧ t.thawDue (BitVec.ofNat 7 (cPar w 0 1)) = true)) :
    pdThaw w t = .ok (t.startLong w (.thaw ds) 0) := by
  subst hds
  have hjoin : (t.allIn (domPair (BitVec.ofNat 7 (cPar w 0 1))) .thawing ||
      t.allIn (domPair (BitVec.ofNat 7 (cPar w 0 1))) .off && t.thawDue (BitVec.ofNat 7 (cPar w 0 1))) = true := by
    rcases h with h | ⟨hoff, hdue⟩
    · simp [h]
    · simp [hoff, hdue]
  simp only [pdThaw, gt_iff_lt, Nat.not_lt.2 hn, hret, hseq, hjoin, Bool.or_self, Bool.false_eq_true, if_false, if_true]

theorem pdThaw_begins (hth : t.allIn ds .thawing = false) (hoff : t.allIn ds .off = true)
    (hdue : t.thawDue (BitVec.ofNat 7 (cPar w 0 1)) = false) :
    pdThaw w t = .ok ((t.startLong w (.thaw ds) 0).startThaw ds) := by
  subst hds
  simp only [pdThaw, gt_iff_lt, Nat.not_lt.2 hn, hret, hseq, hth, hoff, hdue, Bool.and_false, Bool.not_true, Bool.or_self,
    Bool.false_eq_true, if_false]

end

theorem enginePark_ok (h : t.mayPark = true) :
    enginePark w t = .ok ((t.startLong w .seq 0).startSeq true (pickGroups t.parks parkOrder) (some w)) := by
  simp only [enginePark, h, Bool.not_true, Bool.false_eq_true, if_false]

theorem engineUnpark_begins (h : t.mc.seq = none) :
    engineUnpark w t = .ok ((t.startLong w .seq 0).startSeq false t.unparkGroups (some w)) := by
  simp only [engineUnpark, h]

/-- The unpark that the MC has begun by itself becomes the command's (log entry 49). -/
theorem engineUnpark_joins {q : Seq} {u : State} (hq : t.mc.seq = some q) (hfr : q.freeze = false) (hcmd : q.cmd = none)
    (hb : t.mc.bstate = .ready) (hu : u = t.startLong w .seq 0) :
    engineUnpark w t = .ok { u with mc := { u.mc with seq := some { q with cmd := some w } } } := by
  subst hu
  simp only [engineUnpark, hq, hfr, hcmd, hb, Option.isSome_none, bne_self_eq_false, Bool.or_self, Bool.false_eq_true, if_false]

theorem pwrCfg_ok (hpg : between 16 (cPar w 0 2) 65535 = true) (hfrz : between 1250 (cPar w 4 4) 12500000 = true) :
    pwrCfg w t = .ok (({ t with params := { t.params with pgTmo := cPar w 0 2, frzTmo := cPar w 4 4 } } : State).replyDone w []) := by
  simp only [pwrCfg, hpg, hfrz, Bool.and_self, Bool.not_true, Bool.false_eq_true, if_false, State.done_eq]

end

/-- Settles O10: the bodies, under the checks that `Served` passes; PD_THAW and ENGINE_UNPARK by whether they join what is under way. -/
theorem powerCommandsComplete : Obligations.PowerCommandsComplete := by
  intro w s t i ds hds
  exact ⟨fun h hn hon hseq hheld => mcRow_served h (pdFreeze_ok hds hn hseq hon hheld),
    fun h hn hret hseq => ⟨fun hjoin => mcRow_served h (pdThaw_joins hds hn hseq hret hjoin),
      fun hth hoff hdue => mcRow_served h (pdThaw_begins hds hn hseq hret hth hoff hdue)⟩,
    fun h => mcRow_served h rfl, fun h hpark => mcRow_served h (enginePark_ok hpark), fun h hq => mcRow_served h (engineUnpark_begins hq),
    fun q u h hq hfr hcmd hb hu => mcRow_served h (engineUnpark_joins hq hfr hcmd hb hu),
    fun h hpg hpg' hfrz hfrz' => mcRow_served h (pwrCfg_ok (between_true hpg hpg') (between_true hfrz hfrz'))⟩

/-! ### `SLICE_FOLD`, `MESH_FENCE`, `MESH_CFG` (R353, R357, R359, R376, R378, R393, R469, R487) -/

section
variable {w : BitVec 512} {t u : State}

/-- The fold begins where the new map halves or doubles the active slices and nothing of R378 or R393 forbids it; the slices that it adds
and that are not ON thaw first. -/
theorem sliceFold_ok {peer : Nat} (hshape : foldShape (t.smap.map fun h => h.toNat) (cSmap w) = true) (hfold : t.fold = none)
    (hpark : t.parked = false) (hclean : t.mapClean (cSmap w) = true)
    (hret : (t.ret.doms.any fun d => decide (d.toNat < 64) && (cSmap w).contains (domHs d).toNat) = false)
    (hpeer : (t.insts.any fun p => p.2.role == TRole.mirror) = false ∨ peer ≤ (cSmap w).eraseDups.length)
    (hu : u = { t.startLong w (.fold []) sfSteps with
      fold := some { oldMap := t.smap, newMap := toHs (cSmap w), mp := 0, started := false, flipped := false, cmd := some w } }) :
    sliceFold w peer t = .ok (if u.allIn (sliceDoms (mapLess (toHs (cSmap w)) t.smap)) .on then u.startFold
      else u.startThaw ((sliceDoms (mapLess (toHs (cSmap w)) t.smap)).filter fun d => (u.dom d).st == .off && !u.thawDue d)) := by
  subst hu
  have hroom : ((t.insts.any fun p => p.2.role == TRole.mirror) && decide ((cSmap w).eraseDups.length < peer)) = false := by
    rcases hpeer with h | h
    · simp [h]
    · simp [h]
  rw [apply_ite Except.ok]
  simp only [sliceFold, hshape, hfold, hpark, hclean, hret, hroom, Option.isSome_none, Bool.not_true, Bool.or_self, Bool.false_eq_true,
    if_false]
  -- the new long command leaves the Slice Map as it was
  rfl

/-- The fence begins where the stop is not the MC's and no swap runs: at once for actions 1 and 3, else with its unit (R487). -/
theorem meshFence_ok (hn : cPar w 0 1 ≤ 55) (hact : cPar w 1 1 ≤ 3) (hlink : cPar w 1 1 = 3 → (nbr (cPar w 0 1) (cPar w 2 1)).isSome = true)
    (hstop : BitVec.ofNat 6 (cPar w 0 1) ≠ mcStop) (hswap : t.mesh.swap = none)
    (hu : u = t.startLong w (.fence (BitVec.ofNat 8 (cPar w 1 1)) (BitVec.ofNat 6 (cPar w 0 1)) (BitVec.ofNat 3 (cPar w 2 1))) 0) :
    meshFence w t = .ok (if cPar w 1 1 = 1 ∨ cPar w 1 1 = 3 then
        u.fenceGo w (cPar w 1 1) (BitVec.ofNat 6 (cPar w 0 1)) (BitVec.ofNat 3 (cPar w 2 1))
      else u.fenceStep w (cPar w 1 1) (BitVec.ofNat 6 (cPar w 0 1)) (BitVec.ofNat 3 (cPar w 2 1))) := by
  subst hu
  have hno : (cPar w 1 1 == 3 && (nbr (cPar w 0 1) (cPar w 2 1)).isNone) = false := by
    by_cases h3 : cPar w 1 1 = 3
    · simp [Option.isNone_eq_false_iff.2 (hlink h3)]
    · simp [h3]
  rw [apply_ite Except.ok]
  simp only [meshFence, gt_iff_lt, Nat.not_lt.2 hn, Nat.not_lt.2 hact, hno, hstop, hswap, decide_false, Option.isSome_none, Bool.or_self,
    Bool.false_eq_true, Bool.or_eq_true, decide_eq_true_eq, if_false]

theorem meshCfg_ok (h : between 1250 (cPar w 0 4) 1250000 = true) :
    meshCfg w t = .ok (({ t with params := { t.params with rteTmo := cPar w 0 4 } } : State).replyDone w []) := by
  simp only [meshCfg, h, Bool.not_true, Bool.false_eq_true, if_false, State.done_eq]

end

/-- Settles O11: the three bodies, under the checks that `Served` passes. -/
theorem foldAndMeshCommandsComplete : Obligations.FoldAndMeshCommandsComplete := by
  intro w s t u i peer
  exact ⟨fun h hshape hfold hpark hclean hret hpeer hu => mcRow_served h (sliceFold_ok hshape hfold hpark hclean hret hpeer hu),
    fun h hn hact hlink hstop hswap hu => mcRow_served h (meshFence_ok hn hact hlink hstop hswap hu),
    fun h hlo hhi => mcRow_served h (meshCfg_ok (between_true hlo hhi))⟩

end Sys2Proof.Machine

namespace Sys2Proof.Machine

open Sys2Proof

/-! ### A source hands a set over (R379) -/

theorem exec_setHandover_hands {s : State} {n : Hs} {f : Fold} {set : BitVec 14} (hf : s.fold = some f) (hs : f.started = true)
    (hfl : f.flipped = false) (hd : f.dests n ≠ []) (hh : s.handing set = true) (hm : (s.slice n).moved.contains set = false)
    (hn : s.hsUp n = true) (hq : s.setQuiet f n set = true) :
    exec (.setHandover n set) s =
      .next (((f.dests n).foldl (fun s d => s.handTo f n d set) s).modSlice n fun y => { y with moved := y.moved ++ [set] }) := by
  show execSetHandover n set s = _
  simp only [execSetHandover, hf, hs, hfl, List.isEmpty_eq_false_iff.2 hd, hh, hm, hn, hq, Bool.not_true, Bool.or_self, Bool.false_eq_true,
    if_false]

/-! ### Moving entries, marks and forwarded messages at a slice (R379, R380, R381, R489; log entry 61) -/

/-- What follows an install, of which `i` are the state and the entries that found no room: these wait for the next tick (R379 step 5,
R489). The last test of `execMovingEntryInstall` on an arrival, tied to it by `exec_movingEntryInstall_at`. -/
def State.restWaits (n src : Hs) (set : BitVec 14) (i : State × List SfEnt) : State :=
  if i.2.isEmpty then i.1 else i.1.modSlice n fun x => { x with install := x.install ++ [(src, set, i.2)] }

/-- The source forwards the first of the writebacks that wait beyond the 8 outstanding to `d` (R380): the end of `execForwardedEntryFreed`, tied to it by
`exec_forwardedEntryFreed_at`. -/
def State.forwardNext (s : State) (n d : Hs) : State :=
  match (s.slice n).fwdQ with
  | [] => s
  | q :: rest => (s.modSlice n fun y => { y with fwdQ := rest }).send (hsStop n) (hsStop d) .req false (.fwd n d q true) (some (q.itk, q.urg))

section
variable {s : State} {n src : Hs} {r : Req}

theorem State.restWaits_none {set : BitVec 14} {i : State × List SfEnt} (h : i.2 = []) : State.restWaits n src set i = i.1 := by
  simp only [State.restWaits, h, List.isEmpty_nil, if_true]

theorem State.restWaits_some {set : BitVec 14} {i : State × List SfEnt} (h : i.2 ≠ []) :
    State.restWaits n src set i = i.1.modSlice n fun x => { x with install := x.install ++ [(src, set, i.2)] } := by
  simp only [State.restWaits, List.isEmpty_eq_false_iff.2 h, Bool.false_eq_true, if_false]

theorem State.forwardNext_nil {d : Hs} (h : (s.slice n).fwdQ = []) : s.forwardNext n d = s := by
  simp only [State.forwardNext, h]

theorem State.forwardNext_cons {d : Hs} {q : Req} {rest : List Req} (h : (s.slice n).fwdQ = q :: rest) :
    s.forwardNext n d = (s.modSlice n fun y => { y with fwdQ := rest }).send (hsStop n) (hsStop d) .req false (.fwd n d q true)
      (some (q.itk, q.urg)) := by
  simp only [State.forwardNext, h]

theorem State.admitFwd_general : s.admitFwd n r false = s.admitGeneral n r := rfl

theorem State.admitFwd_mw (h : r.cls = .mw) : s.admitFwd n r true = s.admitMw n r := by
  simp only [State.admitFwd, h, Bool.not_true, Bool.false_eq_true, if_false, if_true]

theorem State.admitFwd_cln (h : r.cls = .cln) : s.admitFwd n r true = s.admitCln n r := by
  simp only [State.admitFwd, h, Bool.not_true, Bool.false_eq_true, reduceCtorEq, if_false, if_true]

theorem State.admitFwd_bic (h : r.cls = .bic) : s.admitFwd n r true = s.admitBic n r := by
  simp only [State.admitFwd, h, Bool.not_true, Bool.false_eq_true, reduceCtorEq, if_false]

end

section
variable {s : State} {k : Nat} {p : Pkt} {n : Hs} (h : AtHs s k p n) {u : State} (hu : u = s.ejected k p)
include h hu

/-- The entries that arrive are installed youngest first, under the suspicion that came with them. -/
theorem exec_movingEntryInstall_at {src : Hs} {set : BitVec 14} {es : List SfEnt} {sp : Option Tick}
    (hb : s.body p = some (.moving src set es sp)) {v : State} (hv : v = sp.elim u fun t => u.modSlice n fun x => x.markSet set t) :
    exec (.movingEntryInstall k) s = .next ((State.restWaits n src set (v.installAll n set (byAge es))).releaseEarly n).pump := by
  subst hu hv
  show execMovingEntryInstall k s = _
  unfold execMovingEntryInstall
  rw [recvHs_at (a := (src, set, es, sp)) h (by rw [hb]; rfl)]
  cases sp <;> rfl

theorem exec_fmack_at {d src : Hs} {set : BitVec 14} {ps : Stn} (hb : s.body p = some (.fmack d src set ps)) :
    exec (.fmack k) s = .next ((u.modSlice n fun y => { y with noAck := y.noAck.erase (src, set, ps) }).release379 n) := by
  subst hu
  show execFmack k s = _
  unfold execFmack
  rw [recvHs_at (a := (src, set, ps)) h (by rw [hb]; rfl)]

section
variable {x d : Hs} {r : Req} {w : Bool} (hb : s.body p = some (.fwd x d r w))
include hb

/-- Entries of its set are still to come: what was forwarded waits in the destination (log entry 61). -/
theorem exec_forwardedRequest_waits (hc : u.coming n r.lix = true) :
    exec (.forwardedRequest k) s = .next (u.modSlice n fun x => { x with early := x.early ++ [(r, w)] }) := by
  subst hu
  show execForwardedRequest k s = _
  unfold execForwardedRequest
  rw [recvHs_at (a := (r, w)) h (by rw [hb]; rfl)]
  simp only [hc, if_true]

theorem exec_forwardedRequest_admitted (hc : u.coming n r.lix = false) : exec (.forwardedRequest k) s = .next (u.admitFwd n r w).pump := by
  subst hu
  show execForwardedRequest k s = _
  unfold execForwardedRequest
  rw [recvHs_at (a := (r, w)) h (by rw [hb]; rfl)]
  simp only [hc, Bool.false_eq_true, if_false]

end

/-- The end of a forwarded writeback frees the source's entry for it, returns the credit and sends the next. -/
theorem exec_forwardedEntryFreed_at {y d : Hs} {r : Req} (hb : s.body p = some (.fwdFreed y d r)) {x : Trk}
    (hx : ((u.slice n).trk.find? fun x => x.req.fwd && x.resv == .writeback && x.req.station == r.station && x.req.wbc == r.wbc) = some x)
    {v : State} (hv : v = (u.endTrk n x.id).send (hsStop n) (psStop r.station) .rsp true (.wbcr n r.station r.wbc)) :
    exec (.forwardedEntryFreed k) s = .next (v.forwardNext n d).pump := by
  subst hu hv
  show execForwardedEntryFreed k s = _
  unfold execForwardedEntryFreed
  rw [recvHs_at (a := (d, r)) h (by rw [hb]; rfl)]
  simp only [hx]
  rfl

/-! ### The firn agency (R382) -/

section
variable {d x : Hs} {acc : Nat} {ci : Ci} {fl : Nat}

theorem exec_firnAgencyRequest_read (hb : s.body p = some (.agReq d x acc ci fl .read)) :
    exec (.firnAgencyRequest k) s = .next (u.addAcc n ci fl 0 (.agency d acc)).pump := by
  subst hu
  show execFirnAgencyRequest k s = _
  unfold execFirnAgencyRequest
  rw [recvHs_at (a := (d, acc, ci, fl, .read)) h (by rw [hb]; rfl)]

section
variable {a : FAcc} (ha : ((u.slice n).facc.find? fun a => a.kind == .agency d acc && a.ci == ci && a.fl == fl) = some a)
include ha

theorem exec_firnAgencyRequest_write {j : Nat} {l : Line} (hb : s.body p = some (.agReq d x acc ci fl (.write j l))) :
    exec (.firnAgencyRequest k) s = .next (u.firnWrite n a j l).pump := by
  subst hu
  show execFirnAgencyRequest k s = _
  unfold execFirnAgencyRequest
  rw [recvHs_at (a := (d, acc, ci, fl, .write j l)) h (by rw [hb]; rfl)]
  simp only [ha]

theorem exec_firnAgencyRequest_done (hb : s.body p = some (.agReq d x acc ci fl .done)) (hd : a.dirty = []) :
    exec (.firnAgencyRequest k) s = .next (u.closeAcc n a.id).pump := by
  subst hu
  show execFirnAgencyRequest k s = _
  unfold execFirnAgencyRequest
  rw [recvHs_at (a := (d, acc, ci, fl, .done)) h (by rw [hb]; rfl)]
  simp only [ha, hd, List.isEmpty_nil, if_true]

end
end

section
variable {x y : Hs} {acc : Nat} {z : Ci} {fl : Nat} {ls : List Line} (hb : s.body p = some (.agRsp x y acc z fl ls))
include hb

/-- Nothing here waits for the result: the source is told that the access is over. -/
theorem exec_firnAgencyResult_unwanted (ha : ((u.slice n).facc.any fun a => a.id == acc) = false) :
    exec (.firnAgencyResult k) s = .next (u.send (hsStop n) (hsStop x) .req false (.agReq n x acc z fl .done)) := by
  subst hu
  show execFirnAgencyResult k s = _
  unfold execFirnAgencyResult
  rw [recvHs_at (a := (x, acc, z, fl, ls)) h (by rw [hb]; rfl)]
  simp only [ha, Bool.not_false, if_true]

variable (ha : ((u.slice n).facc.any fun a => a.id == acc) = true)
include ha

theorem exec_firnAgencyResult_written (hl : ls = []) : exec (.firnAgencyResult k) s = .next (u.wroteLine n acc).pump := by
  subst hu
  show execFirnAgencyResult k s = _
  unfold execFirnAgencyResult
  rw [recvHs_at (a := (x, acc, z, fl, ls)) h (by rw [hb]; rfl)]
  simp only [ha, hl, List.isEmpty_nil, Bool.not_true, Bool.false_eq_true, if_false, if_true]

theorem exec_firnAgencyResult_lines (hl : ls ≠ []) : exec (.firnAgencyResult k) s =
    .next ((((List.range 4).zip ls).foldl (fun (s : State) (p : Nat × Line) => s.gotLine n acc p.1 p.2 []) u).pump) := by
  subst hu
  show execFirnAgencyResult k s = _
  unfold execFirnAgencyResult
  rw [recvHs_at (a := (x, acc, z, fl, ls)) h (by rw [hb]; rfl)]
  simp only [ha, List.isEmpty_eq_false_iff.2 hl, Bool.not_true, Bool.false_eq_true, if_false]

end
end

theorem exec_fmark_at {s : State} {k : Nat} {p : Pkt} {q : Stn} (h : AtPs s k p q) {src dst : Hs} {set : BitVec 14} {ps : Stn}
    (hb : s.body p = some (.fmark src dst set ps)) :
    exec (.fmark k) s = .next ((s.ejected k p).send (psStop q) (hsStop dst) .rsp false (.fmack dst src set ps)) := by
  show execFmark k s = _
  unfold execFmark
  rw [recvPs_at (a := (src, dst, set, ps)) h (by rw [hb]; rfl)]

/-! ### The flip of the Slice Map and the drain of the old epoch (R378, R381) -/

section
variable {s : State} {f : Fold} (hf : s.fold = some f)
include hf

theorem exec_sliceMapEpochFlip_flips {o : BulkOp} (ho : s.foldOp = some o) (hfl : f.flipped = false) {u : State} (hu : u = s.toPhase0) :
    exec .sliceMapEpochFlip s = .next { u with
      smap := f.newMap, smep := !u.smep, fold := some { f with flipped := true }, be := { u.be with ops := u.be.ops.erase o } } := by
  subst hu
  show execSliceMapEpochFlip s = _
  simp only [execSliceMapEpochFlip, hf, ho, hfl, Bool.false_eq_true, if_false]

section
variable (hfl : f.flipped = true) (hd : s.epochDrained = true) {gone : List (BitVec 7)}
  (hg : gone = sliceDoms (mapLess f.oldMap f.newMap)) {u : State}
  (hu : u = ({ s.toPhase0 with fold := none, slices := s.toPhase0.slices.map fun (p : Nat × Slice) =>
    (p.1, ({ p.2 with moved := [] } : Slice)) } : State).bump 0xEA2)
include hfl hd hg hu

theorem exec_sliceMapEpochDrain_uncommanded (hc : f.cmd = none) : exec .sliceMapEpochDrain s = .next (u.startFreeze gone false false) := by
  subst hg hu
  show execSliceMapEpochDrain s = _
  simp only [execSliceMapEpochDrain, hf, hfl, hd, hc, Bool.not_true, Bool.or_self, Bool.false_eq_true, if_false]

variable {c : BitVec 512} (hc : f.cmd = some c)
include hc

/-- No slice departs: the command ends. -/
theorem exec_sliceMapEpochDrain_ends (hne : gone = []) : exec .sliceMapEpochDrain s = .next (u.finish c .done) := by
  subst hu
  rw [hne] at hg
  show execSliceMapEpochDrain s = _
  simp only [execSliceMapEpochDrain, hf, hfl, hd, hc, ← hg, List.isEmpty_nil, Bool.not_true, Bool.or_self, Bool.false_eq_true, if_false, if_true]

/-- The departing slices freeze, and the command waits for them. -/
theorem exec_sliceMapEpochDrain_freezes (hne : gone ≠ []) : exec .sliceMapEpochDrain s = .next (({ u with mc := { u.mc with
    longs := u.mc.longs.map fun (l : LongCmd) => if l.cmd == c then { l with job := .fold gone } else l } } : State).startFreeze
      gone false false) := by
  subst hu
  show execSliceMapEpochDrain s = _
  simp only [execSliceMapEpochDrain, hf, hfl, hd, hc, ← hg, List.isEmpty_eq_false_iff.2 hne, Bool.not_true, Bool.or_self, Bool.false_eq_true,
    if_false]

end
end

/-- Settles O35: the handover, each packet at a slice or a port station by its row, and the flip and the drain of the epoch. -/
theorem foldEventsComplete : Obligations.FoldEventsComplete := by
  intro s k p n
  refine ⟨fun f set hf hs hfl hd hh hm hn hq => exec_setHandover_hands hf hs hfl hd hh hm hn hq, fun h u hu => ?slice,
    fun q h src dst set ps hb => exec_fmark_at h hb, fun f o u hf ho hfl hu => exec_sliceMapEpochFlip_flips hf ho hfl hu,
    fun f u gone hf hfl hd hg hu => ⟨exec_sliceMapEpochDrain_uncommanded hf hfl hd hg hu,
      fun c hc hne => exec_sliceMapEpochDrain_ends hf hfl hd hg hu hc hne,
      fun c hc hne => exec_sliceMapEpochDrain_freezes hf hfl hd hg hu hc hne⟩⟩
  case slice =>
    refine ⟨fun src set es sp v hb hv => ?moving, fun d src set ps hb => exec_fmack_at h hu hb,
      fun x d r w hb hc => exec_forwardedRequest_waits h hu hb hc, fun x d r w hb hc => ?admitted, fun y d r x v hb hx hv => ?freed,
      fun d x acc ci fl hb => exec_firnAgencyRequest_read h hu hb, fun d x acc ci fl j l a hb ha => exec_firnAgencyRequest_write h hu ha hb,
      fun d x acc ci fl a hb ha hd => exec_firnAgencyRequest_done h hu ha hb hd,
      fun x y acc z fl ls hb => ⟨exec_firnAgencyResult_unwanted h hu hb,
        fun ha => ⟨exec_firnAgencyResult_written h hu hb ha, exec_firnAgencyResult_lines h hu hb ha⟩⟩⟩
    case moving =>
      have hat := exec_movingEntryInstall_at h hu hb hv
      exact ⟨fun hr => by rw [hat, State.restWaits_none hr], fun hr => by rw [hat, State.restWaits_some hr]⟩
    case admitted =>
      have hat := exec_forwardedRequest_admitted h hu hb hc
      refine ⟨?_, ?_, ?_, ?_⟩
      · rintro rfl
        rw [hat, State.admitFwd_general]
      · rintro rfl hcls
        rw [hat, State.admitFwd_mw hcls]
      · rintro rfl hcls
        rw [hat, State.admitFwd_cln hcls]
      · rintro rfl hcls
        rw [hat, State.admitFwd_bic hcls]
    case freed =>
      have hat := exec_forwardedEntryFreed_at h hu hb hx hv
      exact ⟨fun hq => by rw [hat, State.forwardNext_nil hq], fun q rest hq => by rw [hat, State.forwardNext_cons hq]⟩

end Sys2Proof.Machine

namespace Sys2Proof.Machine

open Sys2Proof

/-! ### The steps of a freeze and their time limits (R363, R369, R370, R480; log entries 49 and 71) -/

section
variable {s : State} {d : BitVec 7}

theorem exec_freezeFence_closes {u : State} (hu : u = s.toPhase0)
    (hds : ((domPair d).all fun e => (u.dom e).st == .freezing && !(u.dom e).fenced) = true) (hi : u.unitIdle d = true)
    (hp : u.noneTo (domStop d) = true) : exec (.freezeFence d) s = .next ((domPair d).foldl State.fenceDom u) := by
  subst hu
  show execFreezeFence d s = _
  simp only [execFreezeFence, hds, hi, hp, Bool.not_true, Bool.or_self, Bool.false_eq_true, if_false]

/-- The port closes and `PG_TIMEOUT` starts; isolation, retention where the freeze keeps the array, and `PD_REQ` change one tick after
another. -/
theorem State.fenceDom_eq {u v : State} {x : Dom} (hx : x = u.dom d)
    (hv : v = u.setDom d { x with fenced := true, dl := some (u.clk.tick + 4 + BitVec.ofNat 48 u.params.pgTmo) }) :
    u.fenceDom d = (if x.toRet then (v.later 1 (.domSig d (some true) none none)).later 2 (.domSig d none (some true) none)
      else v.later 1 (.domSig d (some true) none none)).later 3 (.domSig d none none (some false)) := by
  subst hx hv
  rfl

/-- A domain that waits for its power-off acknowledge passes the first test of `execPowerOffAck`. -/
theorem awaitsOffAck {x : Dom} (hst : x.st = .freezing) (hfen : x.fenced = true) (hreq : x.req = false) (hdl : x.dl.isSome = true) :
    (x.st != .freezing || !x.fenced || x.req || x.dl.isNone) = false := by
  simp [hst, hfen, hreq, hdl]

section
variable (hst : (s.dom d).st = .freezing) (hfen : (s.dom d).fenced = true) (hreq : (s.dom d).req = false) (hdl : (s.dom d).dl.isSome = true)
  {u : State} (hu : u = s.setDom d { s.dom d with ack := false, good := false })
include hst hfen hreq hdl hu

/-- The other domain of the slice has not acknowledged yet. -/
theorem exec_powerOffAck_waits (hall : ((domPair d).all fun e => !(u.dom e).ack && !(u.dom e).good) = false) :
    exec (.powerOffAck d) s = .next u := by
  subst hu
  show execPowerOffAck d s = _
  simp only [execPowerOffAck, awaitsOffAck hst hfen hreq hdl, Bool.false_eq_true, if_false]
  exact if_pos (congrArg (!·) hall)

theorem exec_powerOffAck_off (hall : ((domPair d).all fun e => !(u.dom e).ack && !(u.dom e).good) = true) :
    exec (.powerOffAck d) s =
      .next ((domPair d).foldl (fun s e => (s.modDom e fun y => { y with dl := none }).later 1 (.dom e .off)) u) := by
  subst hu
  show execPowerOffAck d s = _
  simp only [execPowerOffAck, awaitsOffAck hst hfen hreq hdl, Bool.false_eq_true, if_false]
  exact if_neg (ne_true_of_eq_false (congrArg (!·) hall))

end

section
variable {t : Tick} (ht : (s.dom d).dl = some t) {u : State} (hu : u = (s.goTo t).toPhase0) (hdl : (u.dom d).dl = some t)
include ht hu hdl

/-- A freeze that fails stays FREEZING. -/
theorem exec_pgTimeoutExpiry_freeze (hst : (u.dom d).st = .freezing) : exec (.pgTimeoutExpiry d) s =
    .next ((((domPair d).foldl (fun s e => s.modDom e fun x => { x with dl := none }) u).pdFault d).pdFail d .pwrFault).closeCycle := by
  subst hu
  show execPgTimeoutExpiry d s = _
  simp only [execPgTimeoutExpiry, ht, hdl, hst, bne_self_eq_false, beq_self_eq_true, Bool.false_eq_true, if_false, if_true]

/-- A thaw that fails returns to OFF. -/
theorem exec_pgTimeoutExpiry_thaw (hst : (u.dom d).st ≠ .freezing) : exec (.pgTimeoutExpiry d) s =
    .next (((domPair d).foldl (fun s e => s.unitOff e)
      ((domPair d).foldl (fun s e => s.modDom e fun x => { x with dl := none, req := false, counted := false, st := .off })
        (u.pdFault d))).pdFail d .pwrFault).closeCycle := by
  subst hu
  show execPgTimeoutExpiry d s = _
  simp only [execPgTimeoutExpiry, ht, hdl, beq_eq_false_iff_ne.2 hst, bne_self_eq_false, Bool.false_eq_true, if_false]

end

section
variable (hst : (s.dom d).st = .freezing) (hfen : (s.dom d).fenced = false) (hfd : (s.dom d).forced = false) {u : State}
  (hu : u = s.goTo ((s.dom d).t1 + BitVec.ofNat 48 s.params.frzTmo)) (hust : (u.dom d).st = .freezing) (hufen : (u.dom d).fenced = false)
include hst hfen hfd hu hust hufen

theorem exec_frzDrainTmoExpiry_forces (hf : (s.dom d).force = true) : exec (.frzDrainTmoExpiry d) s =
    .next ((domPair d).foldl (fun s e => s.modDom e fun y => { y with forced := true }) u).closeCycle := by
  subst hu
  show execFrzDrainTmoExpiry d s = _
  simp only [execFrzDrainTmoExpiry, hst, hfen, hfd, hust, hufen, hf, bne_self_eq_false, Bool.or_self, Bool.false_eq_true, if_false, if_true]

/-- The domains that have not closed return to ON. -/
theorem exec_frzDrainTmoExpiry_abandons (hf : (s.dom d).force = false) : exec (.frzDrainTmoExpiry d) s =
    .next (((domPair d).foldl (fun s e => if (s.dom e).st == .freezing && !(s.dom e).fenced then s.later 1 (.dom e .on) else s) u).pdFail
      d .timeout).closeCycle := by
  subst hu
  show execFrzDrainTmoExpiry d s = _
  simp only [execFrzDrainTmoExpiry, hst, hfen, hfd, hust, hufen, hf, bne_self_eq_false, Bool.or_self, Bool.false_eq_true, if_false]

end

/-! ### Packets returned by a forced freeze (R346, R370, R371) -/

section
variable {k : Nat} {p : Pkt} (h : Arrives s k p) {e : BitVec 7} {m : Msg}
include h

/-- At its sender the message is sent again, to where it goes now. -/
theorem exec_nackFrozen_again (hb : s.body p = some (.nack m)) (he : stopDom (s.newDest m p.src) = some e) (hon : s.isOn e = true) :
    exec (.nackFrozen k) s = .next ((s.ejected k p).send p.dst (s.newDest m p.src) m.net.1 m.net.2 m
      (some (s.itkOf p, BitVec.ofNat 3 (s.urgency p)))) := by
  show execNackFrozen k s = _
  unfold execNackFrozen
  rw [recv_at (a := .nack m) h (by rw [hb]; rfl)]
  simp only [he, hon, if_true, State.keepAge]

/-- The unit of a forced freeze returns any other message to its sender. -/
theorem exec_nackFrozen_returned (hb : s.body p = some m) (hm : ∀ x, m ≠ .nack x) (he : stopDom p.dst = some e)
    (hst : (s.dom e).st = .freezing) (hfd : (s.dom e).forced = true) (hfen : (s.dom e).fenced = false) :
    exec (.nackFrozen k) s = .next ((s.ejected k p).send p.dst p.src .rsp false (.nack m)
      (some (s.itkOf p, BitVec.ofNat 3 (s.urgency p)))) := by
  show execNackFrozen k s = _
  unfold execNackFrozen
  rw [recv_at (a := m) h (by rw [hb]; rfl)]
  split
  case h_1 heq => cases heq
  case h_2 x q t heq =>
    cases heq
    exact absurd rfl (hm x)
  case h_3 heq =>
    cases heq
    simp only [he, hst, hfd, hfen, beq_self_eq_true, Bool.not_false, Bool.and_self, if_true, State.keepAge]

end

/-! ### The steps of a thaw (R363 to R365, R373) -/

/-- A domain that waits for its power good passes the first test of `execPowerGood`. -/
theorem awaitsPowerGood {x : Dom} (hst : x.st = .thawing) (hreq : x.req = true) (hcnt : x.counted = false) (hdl : x.dl.isSome = true) :
    (x.st != .thawing || !x.req || x.counted || x.dl.isNone) = false := by
  simp [hst, hreq, hcnt, hdl]

section
variable (hst : (s.dom d).st = .thawing) (hreq : (s.dom d).req = true) (hcnt : (s.dom d).counted = false) (hdl : (s.dom d).dl.isSome = true)
  {u : State} (hu : u = s.setDom d { s.dom d with counted := true, ack := true, good := true })
include hst hreq hcnt hdl hu

/-- Power good of the other domain of the slice has not counted yet. -/
theorem exec_powerGood_waits (hall : ((domPair d).all fun e => (u.dom e).counted) = false) : exec (.powerGood d) s = .next u := by
  subst hu
  show execPowerGood d s = _
  simp only [execPowerGood, awaitsPowerGood hst hreq hcnt hdl, Bool.false_eq_true, if_false]
  exact if_pos (congrArg (!·) hall)

/-- Retention, then isolation, is released; the unit of an array that comes from OFF is ready after its clearing (R364). -/
theorem exec_powerGood_releases (hall : ((domPair d).all fun e => (u.dom e).counted) = true) : exec (.powerGood d) s =
    .next ((domPair d).foldl (fun v e => ((v.modDom e fun y => { y with dl := none, t1 := v.clk.tick +
      (if (domPair d).any fun e => decide (32 ≤ e.toNat) && decide (e.toNat < 64) && !(u.dom e).ret then 1026 else 2) }).later
        1 (.domSig e none (some false) none)).later 2 (.domSig e (some false) none none)) u) := by
  subst hu
  show execPowerGood d s = _
  simp only [execPowerGood, awaitsPowerGood hst hreq hcnt hdl, Bool.false_eq_true, if_false]
  exact if_neg (ne_true_of_eq_false (congrArg (!·) hall))

end

theorem exec_thawReady_on (h : ((domPair d).all fun e => (s.dom e).st == .thawing && (s.dom e).counted && (s.dom e).dl.isNone) = true) :
    exec (.thawReady d) s = .next ((domPair d).reverse.foldl (fun s e => s.domTo e .on) (s.goTo ((s.dom d).t1 + 1)).toPhase0).pump := by
  show execThawReady d s = _
  simp only [execThawReady, h, Bool.not_true, Bool.false_eq_true, if_false]

/-! ### A lost supply (R365, R366, R372, R491; log entry 57) -/

/-- The units whose work is lost with their supply: slices, memory stations, engines (R491). -/
theorem lossIsFatal_iff :
    ((decide (d.toNat < 64) || (decide (72 ≤ d.toNat) && decide (d.toNat ≤ 82))) && s.holdsWork d) = true ↔
      (d.toNat < 64 ∨ (72 ≤ d.toNat ∧ d.toNat ≤ 82)) ∧ s.holdsWork d = true := by
  simp only [Bool.and_eq_true, Bool.or_eq_true, decide_eq_true_eq]

section
variable (hon : s.isOn d = true) (hgood : (s.dom d).good = true)
include hon hgood

theorem exec_pgoodLoss_fatal (hn : d.toNat < 64 ∨ (72 ≤ d.toNat ∧ d.toNat ≤ 82)) (hw : s.holdsWork d = true) :
    exec (.pgoodLoss d) s = .next (s.fatal { chk := 8, chn := d.setWidth 12 } (domStop d) 0x0F) := by
  show execPgoodLoss d s = _
  simp only [execPgoodLoss, hon, hgood, lossIsFatal_iff.2 ⟨hn, hw⟩, Bool.not_true, Bool.or_self, Bool.false_eq_true, if_false, if_true]

/-- OFF and the changed outputs come at the next phase 0, and then the thaw; a port station loses what it holds. -/
theorem exec_pgoodLoss_thaws (hn : ¬((d.toNat < 64 ∨ (72 ≤ d.toNat ∧ d.toNat ≤ 82)) ∧ s.holdsWork d = true)) {u : State}
    (hu : u = if 64 ≤ d.toNat ∧ d.toNat < 72 then (s.psLost (d.setWidth 3)).faultEv 3 { chk := 8, chn := d.setWidth 12 } (domStop d) 0x0F
      else s) :
    exec (.pgoodLoss d) s = .next (((domPair d).foldl (fun s e =>
      ((s.modDom e fun x => { x with good := false, ack := false }).later 1 (.domSig e (some true) (some false) (some false))).later 1
        (.dom e .off)) u).later 1 (.thaw (domPair d))).pump := by
  subst hu
  show execPgoodLoss d s = _
  simp only [execPgoodLoss, hon, hgood, mt lossIsFatal_iff.1 hn, Bool.not_true, Bool.or_self, Bool.false_eq_true, if_false,
    Bool.and_eq_true, decide_eq_true_eq]

end

end

/-- Settles O36: each row, under its conditions; a step of a pair by whether it is the second's, a time limit by what it finds. -/
theorem powerEventsComplete : Obligations.PowerEventsComplete := by
  intro s d k
  exact ⟨fun u hu hds hi hp => exec_freezeFence_closes hu hds hi hp, fun u v x hv hx => State.fenceDom_eq hx hv,
    fun u hst hfen hreq hdl hu => ⟨exec_powerOffAck_waits hst hfen hreq hdl hu, exec_powerOffAck_off hst hfen hreq hdl hu⟩,
    fun t u ht hu hdl => ⟨exec_pgTimeoutExpiry_freeze ht hu hdl, exec_pgTimeoutExpiry_thaw ht hu hdl⟩,
    fun u hst hfen hfd hu hust hufen => ⟨exec_frzDrainTmoExpiry_forces hst hfen hfd hu hust hufen,
      exec_frzDrainTmoExpiry_abandons hst hfen hfd hu hust hufen⟩,
    fun p h => ⟨fun m e hb he hon => exec_nackFrozen_again h hb he hon,
      fun e m hb hm he hst hfd hfen => exec_nackFrozen_returned h hb hm he hst hfd hfen⟩,
    fun u hst hreq hcnt hdl hu => ⟨exec_powerGood_waits hst hreq hcnt hdl hu, exec_powerGood_releases hst hreq hcnt hdl hu⟩,
    exec_thawReady_on,
    fun hon hgood => ⟨exec_pgoodLoss_fatal hon hgood, fun hn u hu => exec_pgoodLoss_thaws hon hgood hn hu⟩⟩

end Sys2Proof.Machine

namespace Sys2Proof.Machine

open Sys2Proof

/-! ### What outlives every step (log entry 1; R442, R443, R445, R470, R475, R476, R493, R533) -/

/-- Every command but those that may write a part of `State.kept` leaves it alone: row by row of the opcode table. -/
theorem exec_kept (c : Instr) (h : c.writesKept = false) (s : State) : KeptR s.kept (exec c s) := by
  cases c with
  | coldRstAssert | coldRstRelease | warmRstLow | warmResetEffect | warmRstRelease | imgVerifyEnd | deferredCommandReread
  | imgBegin | imgData | profileStage | profileCapture | profileMramWriteEnd | registerWrite => cases h
  | _ => simp only [exec,
    execRomWaitEntry_kept, execAutordyEntry_kept, execReadyAssert_kept, execMcWatchdogExpiry_kept, execHaltPostedLinePoison_kept,
    execBlockHalt_kept, execCommandSlotWrite_kept, execQueueOverrun_kept, execReplyRingRoom_kept, execBootStatus_kept, execImgEnd_kept,
    execBootStart_kept, execCmdProgress_kept, execInstCreate_kept, execInstEnable_kept, execInstQuiesce_kept, execInstReset_kept,
    execInstRemove_kept, execInstQuota_kept, execInstStatus_kept, execIrtAdd_kept, execIrtRemove_kept, execIwMask_kept,
    execRegionSet_kept, execRegionClear_kept, execLeasePass_kept, execRegionRead_kept, execPortSet_kept, execPortRead_kept,
    execAgentAdd_kept, execAgentRemove_kept, execAgentBind_kept, execAgentUnbind_kept, execAgentDisable_kept, execAgentEnable_kept,
    execAgentReadmit_kept, execAgentRead_kept, execAgentGrace_kept, execSnoopCfg_kept, execCalRead_kept, execCalReset_kept,
    execPdFreeze_kept, execPdThaw_kept, execPdStatus_kept, execEnginePark_kept, execEngineUnpark_kept, execSliceFold_kept,
    execPwrCfg_kept, execMeshFence_kept, execMeshCfg_kept, execArbTickets_kept, execArbSystkt_kept, execArbSeed_kept, execArbMode_kept,
    execArbPreempt_kept, execArbHoldmax_kept, execEngDisable_kept, execEngEnable_kept, execArbStatus_kept, execFirnRotate_kept,
    execFirnRebuild_kept, execChurnCfg_kept, execSfRebuild_kept, execTwinRole_kept, execTwinRelease_kept, execTwinHandover_kept,
    execTwinTakeover_kept, execTwinResync_kept, execTwinLevelRaise_kept, execTwinCfg_kept, execTwinStatus_kept, execProfileApply_kept,
    execProfileCommit_kept, execProfileRead_kept, execObsTraceCfg_kept, execObsTraceDump_kept, execObsCntClear_kept,
    execObsSetEvents_kept, execErrRead_kept, execVlogRead_kept, execErrCfg_kept, execRuleGenerationSwitch_kept,
    execRuleChangeDrain_kept, execQuiesceIdle_kept, execBulkOperationEnd_kept, execRequest_kept, execRequestReinject_kept,
    execRetry_kept, execWbcr_kept, execWradm_kept, execRspack_kept, execCompletionDelivery_kept, execSnoopDelivery_kept,
    execSnoopResponse_kept, execSnpbusy_kept, execPevDown_kept, execPevUp_kept, execPevReset_kept, execPevGone_kept,
    execGraceTimerExpiry_kept, execSessionDrain_kept, execAgentSweepEnd_kept, execAgentDisableDrain_kept, execGpfReq_kept,
    execDoorbell_kept, execDeferredDoorbellTest_kept, execQueueEnable_kept, execQueueDisable_kept, execPlacementWrite_kept,
    execSqnConsWrite_kept, execWkick_kept, execRequestAdmission_kept, execMw_kept, execCln_kept, execBic_kept,
    execSliceSnoopResponse_kept, execSnoopTimeout_kept, execHoldWindowExpiry_kept, execMemoryCompletion_kept, execFirnLookupData_kept,
    execOverflowInstallRetry_kept, execVictimBufferRetry_kept, execPlbRetry_kept, execInternalEntryRetry_kept, execPostThrReport_kept,
    execLck_kept, execLckn_kept, execGrelw_kept, execGrel_kept, execGrela_kept, execMemoryCommand_kept, execMemoryPortCompletion_kept,
    execAtomicop_kept, execAtomicopStart_kept, execNmaResult_kept, execDescriptorCopy_kept, execDescriptorData_kept,
    execGroupStart_kept, execLact_kept, execLgnt_kept, execLnack_kept, execStatusRecordCmp_kept, execLotteryDraw_kept,
    execGrantEnd_kept, execHoldWatchdogExpiry_kept, execEmergencyPreempt_kept, execHintUpdate_kept, execBulkStepIssue_kept,
    execBulkStepComplete_kept, execSetHandover_kept, execMovingEntryInstall_kept, execFmark_kept, execFmack_kept,
    execForwardedRequest_kept, execFirnAgencyRequest_kept, execFirnAgencyResult_kept, execSliceMapEpochFlip_kept,
    execSliceMapEpochDrain_kept, execFreezeFence_kept, execPowerOffAck_kept, execPgTimeoutExpiry_kept, execFrzDrainTmoExpiry_kept,
    execNackFrozen_kept, execPowerGood_kept, execThawReady_kept, execPgoodLoss_kept, execFlitArrival_kept, execReplay_kept,
    execRouterGrant_kept, execEscapeFallback_kept, execRouteEpochFlip_kept, execRouteEpochDrained_kept, execRteDrainTmoExpiry_kept,
    execCalibrationWrite_kept, execSfScrub_kept, execFirnScrub_kept, execRotationMove_kept, execTelemetryEpoch_kept,
    execBucketLeak_kept, execRetirementProcedureEnd_kept, execWayRetirementWalk_kept, execThello_kept, execThbSend_kept,
    execTwinPacket_kept, execTwinLeaseLapse_kept, execTwLupLow_kept, execMdir_kept, execMline_kept, execMldone_kept, execMgline_kept,
    execMgend_kept, execMrot_kept, execMhold_kept, execMrule_kept, execMsynce_kept, execMack_kept, execTraceRecord_kept,
    execTraceOutput_kept, execCounterIncrement_kept, execTwinLinkUp_kept, execDpullData_kept, execUncAccessRetry_kept,
    execForwardedEntryFreed_kept, execUnknownOpCommand_kept, execRefusedRegisterRead_kept]

/-- Every command leaves the queue alone and keeps the canonical forms: those of `Instr.writesKept` one by one, the others with
`State.kept`. -/
theorem exec_tidy (c : Instr) (s : State) : TidyR s (exec c s) := by
  cases c with
  | coldRstAssert => exact execColdRstAssert_tidy s
  | coldRstRelease p t => exact execColdRstRelease_tidy p t s
  | warmRstLow => exact execWarmRstLow_tidy s
  | warmResetEffect => exact execWarmResetEffect_tidy s
  | warmRstRelease p t => exact execWarmRstRelease_tidy p t s
  | imgVerifyEnd => exact execImgVerifyEnd_tidy s
  | deferredCommandReread i d n => exact execDeferredCommandReread_tidy i d n s
  | imgBegin w => exact mcRow_tidy _ w _ s (imgBegin_tidy w)
  | imgData w => exact mcRow_tidy _ w _ s (imgData_tidy w)
  | profileStage w => exact mcRow_tidy _ w _ s (profileStage_tidy w)
  | profileCapture w => exact mcRow_tidy _ w _ s (profileCapture_tidy w)
  | profileMramWriteEnd => exact execProfileMramWriteEnd_tidy s
  | registerWrite a => exact execRegisterWrite_tidy a s
  | _ => exact TidyR.of_kept (exec_kept _ rfl s)

theorem step_of_pending_cons {c : Instr} {r : List Instr} {s : State} (h : s.pending = c :: r) : step s = exec c { s with pending := r } := by
  simp only [step, h]

/-- Settles O43: the definition of a step, where a command waits. -/
theorem stepRunsFrontCommand : Obligations.StepRunsFrontCommand := fun _ _ _ => step_of_pending_cons

/-- Settles O47: the queue is a part of what every command keeps. -/
theorem commandsLeaveTheQueueAlone : Obligations.CommandsLeaveTheQueueAlone := fun c s t h => (exec_tidy c s t h).pending

/-- Settles O46: an idle core cycle leaves the memories alone, and every command keeps their form. -/
theorem stepKeepsRamForm : Obligations.StepKeepsRamForm := by
  intro s t hs ht
  cases hq : s.pending with
  | nil =>
    rw [step_of_pending_nil hq] at ht
    cases ht
    exact State.ramOk_of_kept (State.cycle_kept s) hs
  | cons c r =>
    rw [step_of_pending_cons hq] at ht
    exact (exec_tidy c _ t ht).ram hs

/-- Settles O49: each part is a field of `State.kept`. -/
theorem onlyImageAndProfileCommandsWriteMemory : Obligations.OnlyImageAndProfileCommandsWriteMemory := by
  intro c s t hc ht
  have hk : t.kept = s.kept := exec_kept c hc s t ht
  simp only [State.kept, Kept.mk.injEq, Prod.mk.injEq] at hk
  obtain ⟨-, himg, hlen, hstore, hstaging, hprof, htwin, hcold, hmin, hmax, hver, ⟨hrq0, hv0⟩, hrq1, hv1⟩ := hk
  exact ⟨fun a => ⟨by rw [himg], by rw [hstore], by rw [hstaging]⟩, hlen, hprof, htwin, hcold, hmin, hmax, hver, hrq0, hv0, hrq1, hv1⟩

/-- Settles O45: no memory lists a byte after reset. -/
theorem resetMeetsRamForm : Obligations.ResetMeetsRamForm :=
  ⟨(State.ramOk_iff _).2 ⟨Memory.wf_nil, Memory.wf_nil, Memory.wf_nil⟩, rfl⟩

end Sys2Proof.Machine

namespace Sys2Proof.Machine

open Sys2Proof

/-! ### Registers of the management window and `SQn_CONS` (R12, R240, R530, R531, R533, R537, R538, R548) -/

/-- A register of the management window: its place in it, and no register of a queue block. -/
theorem RegAcc.of_mw {a : RegAcc} {off : Nat} (h : a.mw off = true) : a.win = 0x40 ∧ a.off.toNat / 8 * 8 = off := by
  simpa only [RegAcc.mw, Bool.and_eq_true, beq_iff_eq] using h

theorem RegAcc.qreg_of_win {a : RegAcc} (h : a.win = 0x40) (off : Nat) : a.qreg off = none := by
  simp [RegAcc.qreg, RegAcc.iw, h]

theorem ownRow_of_win {a : RegAcc} (h : a.win = 0x40) : ownRow a = a.mw 0x18 := by
  simp [ownRow, RegAcc.qreg_of_win h]

section
variable {s : State} {a : RegAcc}

/-- The form that every accepted access has, whatever its window (R240). -/
theorem State.aligned_of_accepted (hr : s.refuseReg a = none) : a.off.toNat % (if a.eight then 8 else 4) = 0 := by
  have hform : a.formOk 0x10000 = true ∨ a.formOk 0x1000 = true := by
    by_contra hno
    simp only [not_or, Bool.not_eq_true] at hno
    simp only [State.refuseReg, hno, Bool.not_false, if_true] at hr
    split at hr
    · split at hr <;> cases hr
    · split at hr <;> cases hr
  rcases hform with h | h
  all_goals
    simp only [RegAcc.formOk, Bool.and_eq_true, beq_iff_eq] at h
    exact h.1

theorem RegAcc.getLsbD_off_two (a : RegAcc) : a.off.getLsbD 2 = decide (a.off.toNat / 4 % 2 = 1) := by
  rw [BitVec.getLsbD, Nat.testBit_eq_decide_div_mod_eq]

/-- An accepted access to the upper half of a register names 4 bytes. -/
theorem State.eight_of_upperHalf (hr : s.refuseReg a = none) (h : a.off.getLsbD 2 = true) : a.eight = false := by
  have ha := State.aligned_of_accepted hr
  rw [RegAcc.getLsbD_off_two, decide_eq_true_eq] at h
  cases he : a.eight with
  | false => rfl
  | true =>
    rw [he, if_pos rfl] at ha
    omega

/-- A write of the upper half misses the low 32 bits (R531). -/
theorem RegAcc.hits_upperHalf (he : a.eight = false) (h : a.off.getLsbD 2 = true) : a.hits 16 = false := by
  simp [RegAcc.hits, RegAcc.mask, he, h]

section
variable (h : a.off.getLsbD 2 = false)
include h

theorem RegAcc.hits_lowerHalf : a.hits 16 = true := by
  cases he : a.eight with
  | false =>
    simp only [RegAcc.hits, RegAcc.mask, he, h, Bool.false_eq_true, if_false]
    decide
  | true =>
    simp only [RegAcc.hits, RegAcc.mask, he, if_true]
    decide

/-- A write of the lower half, or of all of the register, brings the low bits of its data. -/
theorem RegAcc.lowBits {i : Nat} (hi : i < 16) : a.mask.getLsbD i = true ∧ a.bits.getLsbD i = a.data.getLsbD i := by
  have hlow : (0xFFFFFFFF : BitVec 64).getLsbD i = true := by
    revert i
    decide
  cases he : a.eight with
  | false =>
    simp only [RegAcc.mask, RegAcc.bits, he, h, Bool.false_eq_true, if_false, BitVec.getLsbD_and, hlow, Bool.and_true, and_self]
  | true =>
    simp only [RegAcc.mask, RegAcc.bits, he, if_true, BitVec.getLsbD_allOnes, and_true, decide_eq_true_eq]
    omega

theorem RegAcc.bits_lowerHalf : a.bits.extractLsb' 0 16 = a.data.setWidth 16 := by
  apply BitVec.eq_of_getLsbD_eq
  intro i hi
  simp [hi, (RegAcc.lowBits h hi).2]

theorem RegAcc.over_lowerHalf (cur : BitVec 64) : (a.over cur).setWidth 16 = a.data.setWidth 16 := by
  apply BitVec.eq_of_getLsbD_eq
  intro i hi
  obtain ⟨hm, hb⟩ := RegAcc.lowBits h hi
  simp [RegAcc.over, hi, hm, hb]

end

end

/-! #### `MW_TICK` -/

/-- What no step of a fold changes stands at its end. -/
theorem foldl_preserves {α β γ : Type} (f : β → γ) {g : β → α → β} (h : ∀ b a, f (g b a) = f b) (l : List α) (b : β) :
    f (l.foldl g b) = f b := by
  induction l generalizing b with
  | nil => rfl
  | cons a l ih => exact (ih (g b a)).trans (h b a)

theorem State.gpfEnd_clk (s : State) : s.gpfEnd.clk = s.clk := by
  unfold State.gpfEnd
  refine foldl_preserves State.clk (fun s p => ?_) s.pss s
  exact (foldl_preserves State.clk (fun s _ => State.emit_clk s _) p.2.gpf _).trans (State.modPs_clk s _ _)

/-- The tick counter goes on over a block warm reset (R537). -/
theorem State.warmReset_clk (s : State) : s.warmReset.clk = s.clk := by
  unfold State.warmReset
  split <;> exact State.gpfEnd_clk s

section
variable {s : State} {a : RegAcc}

/-- An accepted access of a register starts at it, or at its upper half. -/
theorem State.off_of_accepted (hr : s.refuseReg a = none) {off : Nat} (hoff : a.off.toNat / 8 * 8 = off) :
    a.off.toNat = if a.off.getLsbD 2 then off + 4 else off := by
  have hfour : a.off.toNat % 4 = 0 := by
    have ha := State.aligned_of_accepted hr
    split at ha <;> omega
  rw [RegAcc.getLsbD_off_two]
  by_cases h : a.off.toNat / 4 % 2 = 1
  · rw [if_pos (by simpa using h)]
    omega
  · rw [if_neg (by simpa using h)]
    omega

/-- `MW_TICK` has no field that a write changes (R537). -/
theorem State.plainWrite_tick (h : a.mw 0x08 = true) : s.plainWrite a = s := by
  obtain ⟨hwin, hoff⟩ := RegAcc.of_mw h
  simp [State.plainWrite, hwin, hoff]

theorem State.regRead_tick (h : a.mw 0x08 = true) : s.regRead a = BitVec.ofNat 64 (s.clk.tick.toNat + s.clk.phase.toNat * 2 ^ 48) := by
  obtain ⟨hwin, hoff⟩ := RegAcc.of_mw h
  simp [State.regRead, hwin, hoff, State.mwRead]

end

/-- Settles O55: the value of the register is the clock, and a write of it is no field's. -/
theorem tickRegisterReadsTheClock : Obligations.TickRegisterReadsTheClock := by
  intro a s h hup hr
  obtain ⟨hwin, hoff⟩ := RegAcc.of_mw h
  have hown : ownRow a = false := by simp [ownRow_of_win hwin, RegAcc.mw, hoff]
  have hhalf : a.off = 0x0C ↔ a.off.getLsbD 2 = true := by
    rw [← BitVec.toNat_inj, State.off_of_accepted hr hoff]
    cases a.off.getLsbD 2 <;> decide
  refine ⟨?_, by rw [exec_registerWrite_plain hup hr hown, State.plainWrite_tick h], State.warmReset_clk s⟩
  rintro v rfl
  simp only [exec_registerRead_accepted hup hr, State.regValue, State.regRead_tick h, hhalf]

/-! #### `MW_WDOG` -/

section
variable {s : State} {a : RegAcc} (h : a.mw 0x18 = true) (hup : s.regUp a = true) (hr : s.refuseReg a = none)
include h hup hr

/-- A write that does not name the low bits, is not the MC's, or brings any other value (R538). -/
theorem exec_wkick_ignored (hno : (a.mc && a.hits 16 && a.bits.extractLsb' 0 16 == 0x5A5A) = false) :
    exec (.wkick a) s = .next (s.emit (.regAck a)) := by
  show execWkick a s = _
  simp only [execWkick, h, hno, State.regWrite_accepted hup hr, Bool.false_and, Bool.false_eq_true, if_false, if_true]

end

/-- Settles O57: the lower half of the register holds WKICK, and the register reads zero. -/
theorem watchdogKick : Obligations.WatchdogKick := by
  intro a s h hup hr
  obtain ⟨hwin, hoff⟩ := RegAcc.of_mw h
  have hpos := State.off_of_accepted hr hoff
  refine ⟨fun hmc ho hd hw => ?kick, fun hno => exec_wkick_ignored h hup hr ?other, ?read⟩
  case kick =>
    have hlow : a.off.getLsbD 2 = false := by rw [ho]; rfl
    exact exec_wkick_restarts hup hr h hmc (RegAcc.hits_lowerHalf hlow) ((RegAcc.bits_lowerHalf hlow).trans hd) hw
  case other =>
    cases hhalf : a.off.getLsbD 2 with
    | true => simp [RegAcc.hits_upperHalf (State.eight_of_upperHalf hr hhalf) hhalf]
    | false =>
      rcases hno with hmc | ho | hd
      · simp [hmc]
      · rw [ho] at hhalf
        cases hhalf
      · rw [RegAcc.bits_lowerHalf hhalf, beq_eq_false_iff_ne.2 hd, Bool.and_false]
  case read =>
    have hzero : s.regRead a = 0 := by simp [State.regRead, hwin, hoff, State.mwRead]
    simp [exec_registerRead_accepted hup hr, State.regValue, hzero]

/-! #### `SQn_CONS` -/

theorem exec_sqnConsWrite_upperHalf {s : State} {a : RegAcc} {q : Bool} (hup : s.regUp a = true) (hr : s.refuseReg a = none)
    (hq : a.qreg 0x50 = some q) (hh : a.hits 16 = false) : exec (.sqnConsWrite a) s = .next (s.emit (.regAck a)) := by
  show execSqnConsWrite a s = _
  simp only [execSqnConsWrite, hq, hh, State.regWrite_accepted hup hr, Bool.not_false, if_true]

/-- Settles O56: the test of R548 on the low bits that the write brings. -/
theorem statusConsumerRule : Obligations.StatusConsumerRule := by
  intro a s q v old prod hq hup hr hv hold hprod
  have hsub (x : BitVec 16) : (x.toNat + 2 ^ 16 - old.toNat) % 2 ^ 16 = (x - old).toNat := by
    rw [BitVec.toNat_sub]
    congr 1
    omega
  simp only [hsub]
  refine ⟨fun h => exec_sqnConsWrite_upperHalf hup hr hq (RegAcc.hits_upperHalf (State.eight_of_upperHalf hr h) h),
    fun h hle => ?ahead, fun h hgt => ?past, fun h he => ?equal⟩
  all_goals
    have hwrite := exec_sqnConsWrite_accepted hup hr hq (RegAcc.hits_lowerHalf h) rfl (v := v) (by rw [RegAcc.over_lowerHalf h, hv])
    rw [← hold, ← hprod] at hwrite
  case ahead => rw [hwrite, if_pos hle]
  case past =>
    refine ⟨by rw [hwrite, if_neg hgt], ?_⟩
    rw [State.gq_gqErr]
    exact State.hwSet_bit _ _ _ _ _ (by decide)
  case equal => rw [hwrite, if_pos (by rw [he]), he]

/-! #### Who may use the management window -/

section
variable {s : State} {a : RegAcc} (hwin : a.win = 0x40)
include hwin

theorem State.refuseReg_denied (hmc : a.mc = false) (hv : (s.regs.fmV0 || s.regs.fmV1) = true) (hfm : s.isFm a.rqid = false) :
    s.refuseReg a = some (({ s with regs := { s.regs with denyCnt := s.regs.denyCnt + 1, denyRq := a.rqid } } : State).emit (.regUr a)) := by
  simp [State.refuseReg, hwin, hmc, hv, hfm]

theorem State.refuseReg_listed (hl : (s.regs.fmV0 || s.regs.fmV1) = false ∨ s.isFm a.rqid = true) :
    s.refuseReg a = if a.formOk 0x10000 then none else some (s.emit (.regUr a)) := by
  have hno : (!a.mc && (s.regs.fmV0 || s.regs.fmV1) && !s.isFm a.rqid) = false := by
    rcases hl with h | h <;> simp [h]
  cases hf : a.formOk 0x10000 <;> simp [State.refuseReg, hwin, hno, hf]

end

section
variable {s t : State} {a : RegAcc} (hup : s.regUp a = true) (hr : s.refuseReg a = some t)
include hup hr

theorem exec_registerRead_refused : exec (.refusedRegisterRead a) s = .next t := by
  show execRefusedRegisterRead a s = _
  simp only [execRefusedRegisterRead, hup, hr, Bool.not_true, Bool.false_eq_true, if_false]

theorem exec_registerWrite_refused : exec (.registerWrite a) s = .next t := by
  show execRegisterWrite a s = _
  simp only [execRegisterWrite, State.regWrite, hup, hr, Option.isNone_some, Bool.and_false, Bool.not_true, Bool.false_eq_true, if_false]

end

/-- Settles O54: the requester first, then the form (R240, R533). -/
theorem managementWindowRequesters : Obligations.ManagementWindowRequesters := by
  rintro a s hwin hps hmc v0 v1 rfl rfl
  have hup : s.regUp a = true := by rw [State.regUp, hps, Bool.or_true]
  refine ⟨fun hv h0 h1 t ht => ?denied, fun hl => ?listed⟩
  case denied =>
    have hr : s.refuseReg a = some t := ht ▸ State.refuseReg_denied hwin hmc (by simpa using hv) (by rw [State.isFm, h0, h1]; rfl)
    exact ⟨exec_registerRead_refused hup hr, exec_registerWrite_refused hup hr⟩
  case listed =>
    have hr := State.refuseReg_listed (s := s) hwin (by simpa only [State.isFm, Bool.or_eq_true, Bool.or_eq_false_iff] using hl)
    refine ⟨fun hf => ?_, fun hf => ?_⟩
    · rw [hf, if_pos rfl] at hr
      exact ⟨exec_registerRead_accepted hup hr, fun hw => exec_registerWrite_plain hup hr ((ownRow_of_win hwin).trans hw)⟩
    · rw [hf, if_neg Bool.false_ne_true] at hr
      exact ⟨exec_registerRead_refused hup hr, exec_registerWrite_refused hup hr⟩

end Sys2Proof.Machine

namespace Sys2Proof.Machine

open Sys2Proof

/-! ### The boot commands, `CMD_PROGRESS` and the ports (R445 to R448, R450, R463, R467, R468) -/

section
variable {w : BitVec 512} {t : State}

section
variable (hofs : cPar w 0 4 = t.mc.imgLen)
include hofs

/-- The 32 bytes follow those that stand, within the length that the header names (R446). -/
theorem imgData_taken (hroom : t.mc.imgLen < 512 ∨ t.mc.imgLen + 32 ≤ memGetN t.mc.img 0xC 4)
    (hhead : t.mc.imgLen + 32 ≠ 512 ∨ imgHeadOk (memSetN t.mc.img t.mc.imgLen 32 (cPar w 16 32)) = true) :
    imgData w t = .ok (({ t with mc := { t.mc with img := memSetN t.mc.img t.mc.imgLen 32 (cPar w 16 32), imgLen := t.mc.imgLen + 32 } } :
      State).replyDone w [(4, t.mc.imgLen + 32)]) := by
  have hfits : (decide (512 ≤ t.mc.imgLen) && decide (memGetN t.mc.img 0xC 4 < t.mc.imgLen + 32)) = false := by
    simpa [or_iff_not_imp_left] using hroom
  have hvalid : (decide (t.mc.imgLen + 32 = 512) && !imgHeadOk (memSetN t.mc.img t.mc.imgLen 32 (cPar w 16 32))) = false := by
    rcases hhead with h | h <;> simp [h]
  simp only [imgData, hofs, hfits, hvalid, bne_self_eq_false, Bool.or_self, Bool.false_eq_true, if_false, State.done_eq]

/-- The bytes that complete a header which fails R447 discard the image. -/
theorem imgData_badHeader (hlen : t.mc.imgLen = 480) (hhead : imgHeadOk (memSetN t.mc.img 480 32 (cPar w 16 32)) = false) :
    imgData w t = .ok (({ t with mc := { t.mc with bstate := .romWait, lstat := .badFormat, img := [], imgLen := 0 } } : State).reply w
      .badFormat) := by
  simp [imgData, hofs, hlen, hhead]

end

theorem imgEnd_ok (hlen : 512 ≤ t.mc.imgLen) (hall : memGetN t.mc.img 0xC 4 ≤ t.mc.imgLen) :
    imgEnd w t = .ok (({ t with mc := { t.mc with bstate := .verify } } : State).startLong w .imgEnd 0) := by
  simp only [imgEnd, Nat.not_lt.2 hlen, Nat.not_lt.2 hall, decide_false, Bool.or_self, Bool.false_eq_true, if_false]

theorem bootStart_ready (hseq : t.mc.seq = none) (hmay : t.mayReady = true) : bootStart w t = .ok ((t.reply w .done).enterReady) := by
  simp only [bootStart, hseq, hmay, Option.isSome_none, Bool.false_eq_true, if_false, if_true]

theorem bootStart_waits (hseq : t.mc.seq.isSome = true) : bootStart w t = .ok (t.hold w .bootStart) := by
  simp only [bootStart, hseq, if_true]

theorem cmdProgress_found {l : LongCmd}
    (hl : (t.mc.longs.find? fun l => l.long && (cTag l.cmd).toNat == cPar w 0 2 && cOp l.cmd == cPar w 2 2) = some l) :
    cmdProgress w t = .ok (t.replyDone w [(4, l.steps), (4, t.stepsDone l)]) := by
  simp only [cmdProgress, hl, State.done_eq]

section
variable {m : Nat} {q : PortDesc} {u : State} (hm : m = cPar w 0 1) (hq : q = cPdesc w) (hin : q.inRange = true)
  (hret : t.ret.chans.contains { chk := 4, chn := BitVec.ofNat 12 m } = false) (hfix : t.portFixed m q = false)
  (hclash : t.portClash m q = false)
  (hu : u = ({ t with ports := tPut t.ports m (q.over (tGet t.ports m)) } : State).later 1 (.port (BitVec.ofNat 8 m) q.nma q.thr))
include hm hq hin hret hfix hclash hu

theorem portSet_short (hlong : t.isLong w = false) : portSet w t = .ok (u.replyDone w []) := by
  subst hm hq hu
  simp only [portSet, hin, hret, hfix, hclash, hlong, Bool.not_true, Bool.or_self, Bool.false_eq_true, if_false, State.done_eq]

/-- The port becomes TABLE: its Rime Table is filled with zeros (R91, R468). -/
theorem portSet_long (hlong : t.isLong w = true) :
    portSet w t = .ok ((u.startLong w (.portFill (BitVec.ofNat 8 m)) (u.stepsOf (.zfillRt (BitVec.ofNat 8 m)) 0)).queueBulk true
      (.zfillRt (BitVec.ofNat 8 m)) 0 w) := by
  subst hm hq hu
  simp only [portSet, hin, hret, hfix, hclash, hlong, Bool.not_true, Bool.or_self, Bool.false_eq_true, if_false, if_true]

end

end

/-- Settles O1: each body, under the checks that `Served` passes; IMG_DATA by the header, BOOT_START by the sequence of start-up. -/
theorem bootAndProgressCommandsComplete : Obligations.BootAndProgressCommandsComplete := by
  intro w s t i
  exact ⟨fun h => mcRow_served h rfl, fun h => mcRow_served h rfl,
    fun h hofs hroom hhead => mcRow_served h (imgData_taken hofs hroom hhead),
    fun h hofs hlen hhead => mcRow_served h (imgData_badHeader (hofs.trans hlen.symm) hlen hhead),
    fun h hlen hall => mcRow_served h (imgEnd_ok hlen hall), fun h hseq hmay => mcRow_served h (bootStart_ready hseq hmay),
    fun h hseq => mcRow_served h (bootStart_waits hseq), fun l h hl => mcRow_served h (cmdProgress_found hl)⟩

/-- Settles O6: the two bodies, under the checks that `Served` passes; PORT_SET by whether the port becomes TABLE. -/
theorem portCommandsComplete : Obligations.PortCommandsComplete := by
  intro w s t u i m hm
  exact ⟨fun h hin hret hfix hclash hu =>
      ⟨fun hlong => mcRow_served h (portSet_short hm rfl hin hret hfix hclash hu hlong),
        fun hlong => mcRow_served h (portSet_long hm rfl hin hret hfix hclash hu hlong)⟩,
    fun h => mcRow_served h (by rw [hm]; rfl)⟩

/-! ### The profile commands, and what IMG_DATA and PROFILE_STAGE store (R446, R470, R471, R474 to R476) -/

section
variable {w : BitVec 512} {t : State} {k : Nat} (hk : k = cPar w 0 1) (h3 : k ≤ 3)
include hk h3

theorem profileApply_ok (hvalid : (t.prof k).valid = true)
    (hfree : ((t.prof k).ports.any fun e => t.portFixed e.1 e.2 || t.ret.chans.contains { chk := 4, chn := BitVec.ofNat 12 e.1 }) = false)
    (hapart : portsApart ((t.portsAfter (t.prof k).ports).filter fun e => e.2.pv) = true)
    (hrt : (((t.portsAfter (t.prof k).ports).filter fun e => e.2.pv).any fun e => t.rtMeets e.2) = false) :
    profileApply w t = .ok ((t.hold w .wait).later 1 (.profile (t.prof k).params
      ((t.prof k).ports.map fun e => (e.1, e.2.over (tGet t.ports e.1))) w)) := by
  subst hk
  simp only [profileApply, gt_iff_lt, Nat.not_lt.2 h3, hvalid, hfree, hapart, hrt, decide_false, Bool.not_true, Bool.or_self,
    Bool.false_eq_true, if_false]

theorem profileCommit_ok (hsound : t.staged.sound = true) : profileCommit w t = .ok (t.startLong w (.commit k) 0) := by
  subst hk
  simp only [profileCommit, gt_iff_lt, Nat.not_lt.2 h3, hsound, decide_false, Bool.not_true, Bool.or_self, Bool.false_eq_true, if_false]

theorem profileRead_ok (hofs : cPar w 2 2 + 32 ≤ 0x8000) :
    profileRead w t = .ok (t.replyDone w [(32, (t.prof k).get (cPar w 2 2) 32)]) := by
  subst hk
  simp only [profileRead, gt_iff_lt, Nat.not_lt.2 h3, Nat.not_lt.2 hofs, decide_false, Bool.or_self, Bool.false_eq_true, if_false,
    State.done_eq]

end

theorem profileStage_ok {w : BitVec 512} {t : State} (ha : cPar w 0 2 % 32 = 0) (hlt : cPar w 0 2 < 0x8000) :
    profileStage w t =
      .ok (({ t with mc := { t.mc with staging := memSetN t.mc.staging (cPar w 0 2) 32 (cPar w 16 32) } } : State).replyDone w []) := by
  simp only [profileStage, ge_iff_le, Nat.not_le.2 hlt, ha, decide_false, bne_self_eq_false, Bool.or_self, Bool.false_eq_true, if_false,
    State.done_eq]

theorem exec_profileMramWriteEnd_stores {w : BitVec 512} {s : State} {k : Nat} (hl : s.mc.longs.findSome? LongCmd.commitOf = some (w, k))
    (hup : s.mcUp = true) :
    exec .profileMramWriteEnd s = .next (({ s with mc := { s.mc with store := s.committed k } } : State).finish w .done) := by
  show execProfileMramWriteEnd s = _
  simp only [execProfileMramWriteEnd, hl, hup, Bool.not_true, Bool.false_eq_true, if_false]

/-- Settles O15: each body, under the checks that `Served` passes, and the end of the write. -/
theorem profileCommandsComplete : Obligations.ProfileCommandsComplete := by
  intro w s t i k hk
  exact ⟨fun h h3 hvalid hfree hapart hrt => mcRow_served h (profileApply_ok hk h3 hvalid hfree hapart hrt),
    fun h ha hlt => mcRow_served h (profileStage_ok ha hlt), fun h => mcRow_served h rfl,
    fun h h3 hsound => mcRow_served h (profileCommit_ok hk h3 hsound),
    fun h h3 hofs => mcRow_served h (profileRead_ok hk h3 hofs), exec_profileMramWriteEnd_stores⟩

/-- What follows a command that is served leaves `State.kept` alone. -/
theorem State.closed_replyDone_kept (u : State) (w : BitVec 512) (l : List (Nat × Nat)) (i : Nat) :
    ((u.replyDone w l).closed i).kept = u.kept := by
  simp [State.closed, State.replyDone]

theorem Served.kept {op : Nat} {w : BitVec 512} {s t : State} {i : Nat} (h : Served op w s t i) : t.kept = s.kept :=
  State.readSlot_kept s w i t h.read

/-- Byte `j` of the 32 bytes that a command brings. -/
theorem ofNat_cPar_data (w : BitVec 512) {j : Nat} (hj : j < 32) :
    BitVec.ofNat 8 (cPar w 16 32 / 256 ^ j) = w.extractLsb' (256 + 8 * j) 8 := by
  apply BitVec.eq_of_getLsbD_eq
  intro i hi
  have hpow : 256 ^ j = 2 ^ (8 * j) := by simp [pow_mul]
  have hbyte : i + 8 * j < 8 * 32 := by omega
  rw [hpow, BitVec.getLsbD_ofNat, Nat.testBit_div_two_pow, cPar, BitVec.testBit_toNat, BitVec.getLsbD_extractLsb',
    BitVec.getLsbD_extractLsb']
  simp only [hi, hbyte, decide_true, Bool.true_and]
  congr 1
  omega

/-- The bytes that a command brings, written at `a`: they read back, and every other byte stands. -/
theorem memGet_memSetN_data (m : List Host.Cell) (a : Nat) (w : BitVec 512) :
    (∀ j, j < 32 → memGet (memSetN m a 32 (cPar w 16 32)) (a + j) = w.extractLsb' (256 + 8 * j) 8) ∧
      ∀ c, c < a ∨ a + 32 ≤ c → memGet (memSetN m a 32 (cPar w 16 32)) c = memGet m c :=
  ⟨fun j hj => (memGet_memSetN_same m a 32 _ j hj).trans (ofNat_cPar_data w hj), fun c hc => memGet_memSetN_other m a 32 _ c hc⟩

/-- The memories of the MC are parts of `State.kept`. -/
theorem State.memories_of_kept {s t : State} (e : t.kept = s.kept) :
    t.mc.img = s.mc.img ∧ t.mc.imgLen = s.mc.imgLen ∧ t.mc.store = s.mc.store ∧ t.mc.staging = s.mc.staging :=
  ⟨congrArg Kept.img e, congrArg Kept.imgLen e, congrArg Kept.store e, congrArg Kept.staging e⟩

/-- Settles O51: the bytes written read back, and `State.kept` holds the others. -/
theorem imageAndStagingBytesRead : Obligations.ImageAndStagingBytesRead := by
  intro w s t i
  refine ⟨fun h hofs hroom hhead => ?image, fun h ha hlt => ?staging⟩
  all_goals obtain ⟨himg, hlen, hstore, hstaging⟩ := State.memories_of_kept h.kept
  case image =>
    rw [← himg, ← hlen] at hroom
    rw [← hlen] at hofs hhead
    refine ⟨_, mcRow_served h (imgData_taken hofs hroom (.inl hhead)), ?_⟩
    obtain ⟨uimg, ulen, ustore, ustaging⟩ := State.memories_of_kept (State.closed_replyDone_kept _ w [(4, t.mc.imgLen + 32)] i)
    obtain ⟨hread, hrest⟩ := memGet_memSetN_data t.mc.img t.mc.imgLen w
    rw [uimg, ulen, ustore, ustaging, ← himg, ← hlen, ← hstore, ← hstaging]
    exact ⟨rfl, hread, hrest, fun a => ⟨rfl, rfl⟩⟩
  case staging =>
    refine ⟨_, mcRow_served h (profileStage_ok ha hlt), ?_⟩
    obtain ⟨uimg, -, ustore, ustaging⟩ := State.memories_of_kept (State.closed_replyDone_kept _ w [] i)
    obtain ⟨hread, hrest⟩ := memGet_memSetN_data t.mc.staging (cPar w 0 2) w
    rw [uimg, ustore, ustaging, ← himg, ← hstore, ← hstaging]
    exact ⟨hread, hrest, fun a => ⟨rfl, rfl⟩⟩

end Sys2Proof.Machine

namespace Sys2Proof.Machine

open Sys2Proof

/-! ### The commands of observation and of the logs (R268, R431, R434, R435, R437, R441, R481, R483; log entry 52) -/

section
variable {w : BitVec 512} {t : State}

/-- The OBS unit as `OBS_TRACE_CFG` leaves it: the fields that the command brings, and the trigger armed (log entry 52). -/
def Obs.configured (o : Obs) (w : BitVec 512) : Obs :=
  { o with tkmask := BitVec.ofNat 8 (cPar w 0 1), vnmask := BitVec.ofNat 8 (cPar w 1 1), ring := cPar w 2 1 == 1,
           trigSel := BitVec.ofNat 8 (cPar w 3 1), trigKind := BitVec.ofNat 8 (cPar w 4 1), fci := BitVec.ofNat 8 (cPar w 6 1),
           smask := BitVec.ofNat 64 (cPar w 8 8), flix := BitVec.ofNat 64 (cPar w 16 8), flmask := BitVec.ofNat 64 (cPar w 24 8),
           trPost := cPar w 32 4, trigLix := BitVec.ofNat 64 (cPar w 36 8), stopIn := none, stopped := false }

theorem obsTraceCfg_ok (h : traceCfgOk w = true) :
    obsTraceCfg w t = .ok (({ t with obs := t.obs.configured w } : State).replyDone w []) := by
  simp only [obsTraceCfg, h, BitVec.setWidth_ofNat_of_le (show 8 ≤ 64 by decide), Bool.not_true, Bool.false_eq_true, if_false,
    State.done_eq]
  rfl

theorem obsCntClear_ok (ha : cPar w 0 2 < 4096) (hn : cPar w 0 2 + cPar w 2 2 ≤ 4096) :
    obsCntClear w t = .ok (({ t with obs := { t.obs with cnt := t.obs.cnt.filter fun p =>
      !(decide (cPar w 0 2 ≤ p.1) && decide (p.1 < cPar w 0 2 + cPar w 2 2)) } } : State).replyDone w []) := by
  simp only [obsCntClear, ge_iff_le, gt_iff_lt, Nat.not_le.2 ha, Nat.not_lt.2 hn, decide_false, Bool.or_self, Bool.false_eq_true, if_false,
    State.done_eq]

theorem obsSetEvents_ok {x : Inst} (hx : x = t.inst (cCi w)) (hev : ((List.range 32).any fun k => decide (cPar w (2 + k) 1 > 0x11)) = false)
    (hst : x.st ≠ .free) (hset : x.csets.contains (cPar w 0 1) = true) :
    obsSetEvents w t = .ok ((t.setInst (cCi w) { x with evts := (x.evts.filter fun p => p.1 / 32 != cPar w 0 1) ++
      ((List.range 32).map fun k => (32 * cPar w 0 1 + k, cPar w (2 + k) 1)).filter (fun p => p.2 != 0) }).replyDone w []) := by
  subst hx
  simp only [obsSetEvents, hev, beq_eq_false_iff_ne.2 hst, hset, Bool.not_true, Bool.false_eq_true, if_false, State.done_eq]

theorem errRead_ok {e : ErrRec} {r : List ErrRec} (h : t.errLog = e :: r) :
    errRead w t = .ok (({ t with errLog := r } : State).replyDone w [(2, r.length), (14, 0), (32, e.encode)]) := by
  simp only [errRead, h, State.done_eq]

theorem vlogRead_ok {v : VRec} {r : List VRec} (h : t.vlog = v :: r) :
    vlogRead w t =
      .ok (({ t with vlog := r } : State).replyDone w [(2, r.length), (4, t.vlogLost.toNat), (10, 0), (16, v.encode)]) := by
  simp only [vlogRead, h, State.done_eq]

theorem errCfg_ok (hthr : between 1 (cPar w 0 2) 255 = true) (hwin : between 1250 (cPar w 4 4) 1250000000 = true)
    (hle : cPar w 0 2 ≤ cPar w 4 4) :
    errCfg w t = .ok (({ t with params := { t.params with lbThr := cPar w 0 2, lbWin := cPar w 4 4 } } : State).replyDone w []) := by
  simp only [errCfg, hthr, hwin, hle, decide_true, Bool.and_self, Bool.not_true, Bool.false_eq_true, if_false, State.done_eq]

end

/-- Settles O16: each body, under the checks that `Served` passes. -/
theorem observationCommandsComplete : Obligations.ObservationCommandsComplete := by
  intro w s t i
  exact ⟨fun h hok => ⟨_, mcRow_served h (obsTraceCfg_ok hok),
      rfl, rfl, rfl, rfl, rfl, rfl, rfl, rfl, rfl, rfl, rfl, rfl, rfl, rfl, rfl, rfl, rfl⟩,
    fun h => mcRow_served h rfl, fun h ha hn c hc => mcRow_served h (hc ▸ obsCntClear_ok ha hn),
    fun x h hx hev hst hset l hl => mcRow_served h (hl ▸ obsSetEvents_ok hx hev hst hset),
    fun e r h hlog => mcRow_served h (errRead_ok hlog), fun v r h hlog => mcRow_served h (vlogRead_ok hlog),
    fun h hlo hhi hwlo hwhi hle => mcRow_served h (errCfg_ok (between_true hlo hhi) (between_true hwlo hwhi) hle)⟩

/-! ### Trace records, the trace output and counter increments (R430, R434, R435, R438, R522, R529) -/

@[simp] theorem State.qceAdd_obs (s : State) (k n : Nat) : (s.qceAdd k n).obs = s.obs := by
  fun_cases State.qceAdd s k n <;> rfl

@[simp] theorem State.tap_mesh (s : State) (r : TRec) (v : Option Nat) : (s.tap r v).mesh = s.mesh := by
  fun_cases State.tap s r v <;> rfl

/-- The taps record a packet, and leave the mesh alone (R429). -/
@[simp] theorem State.tapPkt_mesh (s : State) (p : Pkt) (stop : Stop) (ej : Bool) : (s.tapPkt p stop ej).mesh = s.mesh :=
  foldl_preserves State.mesh (fun s _ => State.tap_mesh s _ _) p.bodies s

/-- A tap with records whose unit has no other packet of VN4 that waits sends its oldest two (R430). -/
theorem State.tapSend_pkts {s : State} {stop : Stop} {r : TRec} {rest : List TRec} (hr : (tGet s.obs.taps stop.toNat).getD [] = r :: rest)
    (hfree : (s.mesh.pkts.any fun p => p.wait && p.src == stop && p.vnet == .mgt) = false) :
    ∃ q : Pkt, (s.tapSend stop).mesh.pkts = s.mesh.pkts ++ [q] ∧ q.src = stop ∧ q.dst = obsStop ∧ q.vnet = .mgt ∧
      q.bodies = (r :: rest.take 1).map Msg.trace := by
  cases rest <;>
    (simp only [State.tapSend, hr, hfree, Bool.false_eq_true, if_false, State.tapPkt_mesh]
     exact ⟨_, rfl, rfl, rfl, rfl, rfl⟩)

/-- The record in the packet in place `k` reaches OBS. -/
theorem exec_traceRecord_at {s u : State} {stop : Stop} {k : Nat} {p : Pkt} {r : TRec}
    (hu : u = if (s.traceIdx stop).isSome then s else s.tapSend stop) (hk : u.traceIdx stop = some k) (h : Arrives u k p)
    (hb : u.body p = some (.trace r)) :
    exec (.traceRecord stop) s = .next (if (u.ejected k p).isOn 84 then (u.ejected k p).capture r else u.ejected k p) := by
  rw [apply_ite Host.Outcome.next]
  show execTraceRecord stop s = _
  unfold execTraceRecord
  rw [← hu]
  simp only [hk]
  rw [recv_at (a := r) h (by rw [hb]; rfl)]

theorem exec_traceOutput_leaves {s u : State} {r : TRec} {rest : List TRec} {ue : Bool} {f : Nat}
    (hready : s.obs.ring = false ∨ s.obs.dumping = true) (hbuf : s.obs.buf = r :: rest)
    (hu : u = (({ s with obs := { s.obs with buf := rest } } : State).emit (.trace r.word ue)).qceAdd 2 f) :
    exec (.traceOutput ue f) s = .next (if rest = [] ∧ s.obs.dumping = true then u.dumpEnd else u) := by
  have hno : (s.obs.ring && !s.obs.dumping) = false := by
    rcases hready with h | h <;> simp [h]
  have hdump : u.obs.dumping = s.obs.dumping := by rw [hu, State.qceAdd_obs]; rfl
  show execTraceOutput ue f s = _
  simp only [execTraceOutput, hno, hbuf, ← hu, hdump, Bool.false_eq_true, if_false, Bool.and_eq_true, List.isEmpty_iff]

theorem exec_counterIncrement_found {s : State} {n i v : Nat} (h : s.obs.incs[n]? = some (i, v)) :
    exec (.counterIncrement n) s = .next { s with obs := if s.isOn 84 then { s.obs with
        incs := s.obs.incs.eraseIdx n, cnt := tPut s.obs.cnt i ((tGet s.obs.cnt i).getD 0 + BitVec.ofNat 64 v) }
      else { s.obs with incs := s.obs.incs.eraseIdx n } } := by
  show execCounterIncrement n s = _
  simp only [execCounterIncrement, h]

/-- Settles O39: a record and an increment by whether OBS is ON, the trace output by whether its record is the last of a dump. -/
theorem traceEventsComplete : Obligations.TraceEventsComplete := by
  intro s stop n f ue
  refine ⟨fun u k p r v hu hk h hb hv => ?record, fun r rest => State.tapSend_pkts,
    fun r rest u hready hbuf hu => ?output, fun i v h => ?increment⟩
  case record =>
    rw [exec_traceRecord_at hu hk h hb, ← hv]
    exact ⟨fun hon => by rw [if_pos hon], fun hoff => by rw [hoff, if_neg Bool.false_ne_true]⟩
  case output =>
    rw [exec_traceOutput_leaves hready hbuf hu]
    exact ⟨fun hlast => by rw [if_pos hlast], fun hmore => by rw [if_neg (by simpa [imp_iff_not_or] using hmore)]⟩
  case increment =>
    rw [exec_counterIncrement_found h]
    exact ⟨fun hon => by rw [hon, if_pos rfl], fun hoff => by rw [hoff, if_neg Bool.false_ne_true]⟩

end Sys2Proof.Machine

namespace Sys2Proof.Machine

open Sys2Proof

/-! ### The commands of the twin pair (R387 to R389, R391, R392, R404, R408 to R410, R412; log entries 35, 36 and 41) -/

/-- What `TWIN_ROLE` makes of a CI (R388, R389; log entries 35 and 36): a Primary in its first epoch. -/
def Inst.madePrimary (x : Inst) (strict : Bool) : Inst :=
  { x with role := .primary, strict := strict, pep := 1, exact := false, twr := false, lapsed := false, alone := false, rseq := 0,
           acked := 0 }

/-- A Mirror that takes over (R409): a Primary alone, in a higher epoch. -/
def Inst.takenOver (x : Inst) : Inst :=
  { x with pep := x.pep + 1, role := .primary, alone := true, lapsed := false, rseq := 0, acked := 0 }

section
variable {w : BitVec 512} {t u : State} {x : Inst} (hx : x = t.inst (cCi w))
include hx

theorem twinRole_ok {idle : Bool} {dig : BitVec 32} (hform : cPar w 0 1 ≤ 1) (hst : x.st = .idle) (hrole : x.role ≠ .mirror)
    (hidle : idle = true) (hlink : t.tw.linkUp = true) (hways : t.twinSfq (cCi w) + x.sfq ≤ 16) (hdig : x.digest = dig)
    (hu : u = (t.startLong w .wait 0).setInst (cCi w) (x.madePrimary (cPar w 0 1 == 0))) :
    twinRole w idle dig t = .ok ((u.mruleRec (cCi w) w).finish w .done) := by
  subst hx hu hidle hdig
  have hgo : ((t.inst (cCi w)).st != .idle || (t.inst (cCi w)).role == .mirror || !true || !t.tw.linkUp) = false := by
    simp [hst, hrole, hlink]
  simp only [twinRole, gt_iff_lt, Nat.not_lt.2 hform, hgo, Nat.not_lt.2 hways, bne_self_eq_false, Bool.false_eq_true, if_false]
  rfl

theorem twinRelease_ok {idle : Bool} (hst : x.st = .idle) (hidle : idle = true) (hlink : x.role = .none ∨ t.tw.linkUp = true) :
    twinRelease w idle t =
      .ok (((if x.role = .none then t else t.mruleRec (cCi w) w).roleNone (cCi w)).replyDone w []) := by
  subst hx hidle
  have hno : ((t.inst (cCi w)).role != .none && !t.tw.linkUp) = false := by
    rcases hlink with h | h <;> simp [h]
  simp only [twinRelease, hst, hno, bne_self_eq_false, Bool.not_true, Bool.or_self, Bool.false_eq_true, if_false, beq_iff_eq, State.done_eq]

theorem twinHandover_ok (htwin : x.twin = true) (hst : x.st = .active) (hlapsed : x.lapsed = false) (hlink : t.tw.linkUp = true) :
    twinHandover w t = .ok ((t.startLong w (.twin 0x603) 0).later 1 (.inst (cCi w) .draining)) := by
  subst hx
  simp only [twinHandover, htwin, hst, hlapsed, hlink, bne_self_eq_false, Bool.not_true, Bool.or_self, Bool.false_eq_true, if_false]
  rfl

section
variable (hrole : x.role = .mirror) (hmay : t.silent = true ∨ cFlag w 3 = true)
include hrole hmay

/-- A strict Mirror that is exact goes on at once (R410). -/
theorem twinTakeover_exact (hstrict : x.strict = true) (hexact : x.exact = true)
    (hu : u = ((t.startLong w (.twin 0x604) 0).modInst (cCi w) Inst.takenOver).takeLines (cCi w)) :
    twinTakeover w t = .ok (((u.later 1 (.inst (cCi w) .active)).twinCause 5).finish w .done) := by
  subst hx hu
  have hok : (t.silent || cFlag w 3) = true := by simpa using hmay
  simp only [twinTakeover, hrole, hok, hstrict, hexact, bne_self_eq_false, Bool.not_true, Bool.and_self, Bool.or_self, Bool.false_eq_true,
    if_false, if_true]
  rfl

/-- Any other deletes its firn, and walks its regions with recalls (R410). -/
theorem twinTakeover_recalls (hinexact : x.strict = false ∨ x.exact = false)
    (hu : u = ((t.startLong w (.twin 0x604) (t.stepsOf .zfillFirn (cCi w) + t.stepsOf .walk (cCi w))).modInst (cCi w)
      Inst.takenOver).takeLines (cCi w)) :
    twinTakeover w t = .ok ((((u.dropEntries (cCi w)).modInst (cCi w) fun y =>
      { y with twr := true, trp := (rangesAt x.cohRanges 0).getD (2 ^ 46) }).later 1 (.inst (cCi w) .active)).queueBulk false
        .zfillFirn (cCi w) w) := by
  subst hx hu
  have hok : (t.silent || cFlag w 3) = true := by simpa using hmay
  have hno : ((t.inst (cCi w)).strict && (t.inst (cCi w)).exact) = false := by simpa [or_iff_not_imp_left] using hinexact
  simp only [twinTakeover, hrole, hok, hno, bne_self_eq_false, Bool.not_true, Bool.or_self, Bool.false_eq_true, if_false]
  rfl

end

theorem twinResync_ok (htwin : x.twin = true) (hlink : t.tw.linkUp = true) :
    twinResync w t = .ok ((t.startLong w (.twin 0x605) sfSteps).queueBulk true .resync (cCi w) w sfSteps) := by
  subst hx
  simp only [twinResync, htwin, hlink, Bool.not_true, Bool.or_self, Bool.false_eq_true, if_false]

theorem twinStatus_ok {y : Inst} (hy : y = if (cCi8 w).toNat < 64 then x else Inst.reset) :
    twinStatus w t = .ok (t.replyDone w [(1, if t.tw.incompat then 2 else if t.tw.linkUp then 1 else 0), (1, t.tw.plev.toNat),
      (1, TRole.code y.role), (1, b2n (!y.strict) 0), (2, y.pep.toNat), (1, b2n y.exact 0), (1, b2n y.twr 0),
      (2, if y.role == TRole.primary then (y.rseq - y.acked).toNat else 0)]) := by
  subst hx hy
  rfl

end

section
variable {w : BitVec 512} {t : State}

theorem twinLevelRaise_ok (hlink : t.tw.linkUp = true) (hmine : t.tw.plev.toNat < t.mc.clevMax.toNat)
    (hpeer : t.tw.plev.toNat < t.tw.pMax.toNat) :
    twinLevelRaise w t = .ok ((({ t with tw := { t.tw with plev := BitVec.ofNat 8 (t.tw.plev.toNat + 1) } } : State).twinCause 2).replyDone w
      [(1, t.tw.plev.toNat + 1)]) := by
  simp only [twinLevelRaise, hlink, gt_iff_lt, Nat.not_lt.2 (Nat.succ_le_of_lt hmine), Nat.not_lt.2 (Nat.succ_le_of_lt hpeer), decide_false,
    Bool.not_true, Bool.or_self, Bool.false_eq_true, if_false, State.done_eq]

theorem twinCfg_ok (hhb : between 16 (cPar w 0 2) 65535 = true) (hlease : between 1250 (cPar w 4 4) 1250000 = true)
    (hle : 8 * cPar w 0 2 ≤ cPar w 4 4) :
    twinCfg w t = .ok (({ t with params := { t.params with twHb := cPar w 0 2, twLease := cPar w 4 4 } } : State).replyDone w []) := by
  simp only [twinCfg, hhb, hlease, hle, decide_true, Bool.and_self, Bool.not_true, Bool.false_eq_true, if_false, State.done_eq]

end

/-- Settles O14: the eight bodies, under the checks that `Served` passes; TWIN_TAKEOVER by whether the Mirror is strict and exact. -/
theorem twinCommandsComplete : Obligations.TwinCommandsComplete := by
  intro w s t u i x idle dig hx
  exact ⟨fun h hform hst hrole hidle hlink hways hdig hu => mcRow_served h (twinRole_ok hx hform hst hrole hidle hlink hways hdig hu),
    fun h hst hidle hlink => mcRow_served h (twinRelease_ok hx hst hidle hlink),
    fun h htwin hst hlapsed hlink => mcRow_served h (twinHandover_ok hx htwin hst hlapsed hlink),
    fun h hrole hmay => ⟨fun hstrict hexact hu => mcRow_served h (twinTakeover_exact hx hrole hmay hstrict hexact hu),
      fun hinexact hu => mcRow_served h (twinTakeover_recalls hx hrole hmay hinexact hu)⟩,
    fun h htwin hlink => mcRow_served h (twinResync_ok hx htwin hlink),
    fun h hlink hmine hpeer => mcRow_served h (twinLevelRaise_ok hlink hmine hpeer),
    fun h hlo hhi hllo hlhi hle => mcRow_served h (twinCfg_ok (between_true hlo hhi) (between_true hllo hlhi) hle),
    fun y h hy => mcRow_served h (twinStatus_ok hx hy)⟩

end Sys2Proof.Machine

namespace Sys2Proof.Machine

open Sys2Proof

/-! ### The twin link, its heartbeats and leases (R386, R403 to R405, R523, R529; log entries 35, 37, 38 and 71) -/

section
variable {s u v : State}

theorem exec_twinLinkUp_rises (hup : s.tw.linkUp = false) (hin : s.tw.incompat = false) (hu : u = { s with tw := { s.tw with lup := true } }) :
    exec .twinLinkUp s = .next (if u.twinIn then (u.twinCause 0).emit u.hello else u) := by
  subst hu
  show execTwinLinkUp s = _
  simp only [execTwinLinkUp, hup, hin, Bool.or_self, Bool.false_eq_true, if_false]

theorem exec_twLupLow_lost (hheld : s.tw.held = false) (hw : s.works 83 = true) (ue : Bool) :
    exec (.twLupLow ue) s = .next { s.twinLost with tw := { s.twinLost.tw with lup := ue && s.tw.lup } } := by
  show execTwLupLow ue s = _
  simp only [execTwLupLow, hheld, hw, Bool.not_true, Bool.or_self, Bool.false_eq_true, if_false]

section
variable {cmin cmax lvl lev : BitVec 8} {peps : List (Ci × BitVec 16 × TRole)} {w : State} (hin : s.twinIn = true)
  (hlev : lev = if s.mc.clevMax.toNat ≤ cmax.toNat then s.mc.clevMax else cmax) (hw : w = peps.foldl State.helloInst v)
include hin hlev hw

/-- The levels of the engines meet: the pair takes the highest that both have (R386). -/
theorem exec_thello_agreed (hok : s.mc.clevMin.toNat ≤ lev.toNat ∧ cmin.toNat ≤ lev.toNat)
    (hu : u = if s.tw.plev != lev then s.twinCause 2 else s)
    (hv : v = { u with tw := { u.tw with
      linkUp := true, incompat := false, pMin := cmin, pMax := cmax, plev := lev,
      nextHb := if u.tw.linkUp then u.tw.nextHb else u.timer u.params.twHb } }) :
    exec (.thello cmin cmax lvl peps) s = .next ((w.insts.foldl (fun (s : State) p => s.ungate (BitVec.ofNat 6 p.1)) w.renew).pump) := by
  subst hw hv hu
  show execThello cmin cmax lvl peps s = _
  simp only [execThello, hin, ← hlev, Nat.not_lt.2 hok.1, Nat.not_lt.2 hok.2, decide_false, Bool.or_self, Bool.not_false, Bool.true_and,
    Bool.false_and, Bool.not_true, Bool.false_eq_true, if_false]

/-- The levels of the engines do not meet. -/
theorem exec_thello_incompatible (hbad : lev.toNat < s.mc.clevMin.toNat ∨ lev.toNat < cmin.toNat)
    (hu : u = if s.tw.incompat then s else s.twinCause 1)
    (hv : v = { u with tw := { u.tw with
      linkUp := false, incompat := true, pMin := cmin, pMax := cmax,
      nextHb := if u.tw.linkUp then u.tw.nextHb else u.timer u.params.twHb } }) :
    exec (.thello cmin cmax lvl peps) s = .next ((w.insts.foldl (fun (s : State) p => s.ungate (BitVec.ofNat 6 p.1)) w.renew).pump) := by
  subst hw hv hu
  have hno : (decide (lev.toNat < s.mc.clevMin.toNat) || decide (lev.toNat < cmin.toNat)) = true := by simpa using hbad
  show execThello cmin cmax lvl peps s = _
  cases hwas : s.tw.incompat <;>
    simp only [execThello, hin, ← hlev, hno, hwas, Bool.not_true, Bool.not_false, Bool.false_and, Bool.and_false, Bool.and_self,
      Bool.false_eq_true, if_false, if_true]

end

section
variable (hin : s.twinIn = true) (hup : s.tw.linkUp = true)
include hin hup

/-- A heartbeat at its tick: the next one is set first, and then the word goes out, or the link is lost with it (R404, R529). -/
theorem exec_thbSend_at (hu : u = s.goTo s.tw.nextHb) (hv : v = { u with tw := { u.tw with nextHb := u.timer u.params.twHb } }) :
    exec (.thbSend .ok) s = .next (v.emit .twinBeat) ∧ exec (.thbSend .corrected) s = .next ((v.qceAdd 4 1).emit .twinBeat) ∧
      exec (.thbSend .uncorrectable) s = .next v.twinLost := by
  subst hv hu
  have hgo : (!s.twinIn || !s.tw.linkUp) = false := by simp [hin, hup]
  refine ⟨?_, ?_, ?_⟩
  all_goals
    simp only [exec, execThbSend, hgo, Bool.false_eq_true, if_false]

end

theorem exec_twinPacket_renews (hin : s.twinIn = true) (fix : Bool) :
    exec (.twinPacket fix) s = .next (s.qceAdd 3 (if fix then 1 else 0)).renew := by
  show execTwinPacket fix s = _
  simp only [execTwinPacket, hin, if_true]

theorem exec_twinLeaseLapse_lapses {t : Tick} (ht : s.tw.lastPkt = some t) (hpair : s.strapTwin = true) (hreset : s.inReset = false)
    (hany : (s.insts.any fun p => p.2.twin && !p.2.lapsed) = true) (hu : u = s.goTo (t + BitVec.ofNat 48 s.params.twLease)) :
    exec .twinLeaseLapse s = .next (({ u with insts := u.insts.map fun (p : Nat × Inst) =>
      if p.2.twin then (p.1, { p.2 with lapsed := true }) else p } : State).twinCause 3).closeCycle := by
  subst hu
  show execTwinLeaseLapse s = _
  simp only [execTwinLeaseLapse, ht, hpair, hreset, hany, Bool.not_true, Bool.or_self, Bool.false_eq_true, if_false]

end

/-! ### Acknowledgements, and forwarded rules and roles (R391, R394, R397, R400, R403, R407, R408; log entry 36) -/

/-- What a partner's `TWIN_ROLE` makes of a CI here: a Mirror in its first epoch, which awaits the record `q` next (log entry 36). -/
def Inst.madeMirror (x : Inst) (strict : Bool) (q : BitVec 16) : Inst :=
  { x with role := .mirror, strict := strict, pep := 1, exact := false, twr := false, lapsed := false, alone := false, rseq := q, acked := q }

/-- What a handover makes of a Mirror (R408): a Primary in the next epoch. -/
def Inst.handedOver (x : Inst) : Inst :=
  { x with role := .primary, pep := x.pep + 1, rseq := 0, acked := 0, lapsed := false, alone := false, twr := false }

section
variable {s u : State} {c : Ci} (hin : s.twinIn = true) (hup : s.tw.linkUp = true)
include hin hup

theorem exec_mack_acknowledges {q : BitVec 16} {pepl : BitVec 8} (hu : u = s.renew) (hpep : (u.inst c).pep.setWidth 8 = pepl)
    (hrole : (u.inst c).role = .primary) (hq : (q + 1 - (u.inst c).acked).toNat < 2 ^ 15) :
    exec (.mack c q pepl) s = .next ((((u.setInst c { u.inst c with acked := q + 1 }).ungate c).handoverGo c).pump) := by
  subst hu
  show execMack c q pepl s = _
  simp only [execMack, hin, hup, hpep, hrole, hq, bne_self_eq_false, Bool.not_true, Bool.or_self, Bool.false_eq_true, if_false, if_true]

section
variable {w : BitVec 256} {cmd : BitVec 512} (hk : rKind w = 8) (hc : rCi w = c) (hu : u = s.renew.bump 0xE81)
include hk hc hu

/-- The partner becomes Primary of the CI, and this engine its Mirror (R394). -/
theorem exec_mrule_role (hop : cOp cmd = 0x601) (hst : (u.inst c).st = .idle) (hrole : (u.inst c).role ≠ .primary) :
    exec (.mrule w cmd) s = .next (((u.setInst c ((u.inst c).madeMirror (cPar cmd 0 1 == 0) (rSeq w + 1))).uncacheTwin c).emit
      (.twinMack c (rSeq w) 1)) := by
  subst hc hu
  have hgo : (((s.renew.bump 0xE81).inst (rCi w)).st != .idle || ((s.renew.bump 0xE81).inst (rCi w)).role == .primary) = false := by
    simp [hst, hrole]
  show execMrule w cmd s = _
  simp only [execMrule, hin, hup, hk, hop, hgo, bne_self_eq_false, Bool.not_true, Bool.or_self, Bool.false_eq_true, if_false, if_true]
  rfl

section
variable (hpep : (u.inst c).pep.setWidth 8 = rPepl w) (hrole : (u.inst c).role = .mirror)
include hpep hrole

theorem exec_mrule_release (hop : cOp cmd = 0x602) : exec (.mrule w cmd) s = .next (u.roleNone c) := by
  subst hc hu
  show execMrule w cmd s = _
  simp [execMrule, hin, hup, hk, hop, hpep]

/-- The partner hands the CI over, and this engine becomes its Primary (R408). -/
theorem exec_mrule_handover (hop : cOp cmd = 0x603) :
    exec (.mrule w cmd) s =
      .next ((((u.setInst c (u.inst c).handedOver).dropStore c).twinCause 6).later 1 (.inst c .active)) := by
  subst hc hu
  show execMrule w cmd s = _
  simp [execMrule, hin, hup, hk, hop, hpep, hrole, Inst.handedOver]

theorem exec_mrule_rule {op : RuleOp} (h1 : cOp cmd ≠ 0x601) (h2 : cOp cmd ≠ 0x602) (h3 : cOp cmd ≠ 0x603)
    (hop : u.mirRule c cmd = some op) : exec (.mrule w cmd) s = .next ((u.applyRule c op false).took c (rSeq w) false) := by
  subst hc hu
  show execMrule w cmd s = _
  simp only [execMrule, hin, hup, hk, hpep, hrole, h1, h2, h3, hop, bne_self_eq_false, Bool.not_true, Bool.or_self, Bool.false_eq_true, if_false]

end

end

end

/-- Settles O40: each row, under its conditions; THELLO by whether the levels meet, a forwarded command by its opcode. -/
theorem twinLinkEventsComplete : Obligations.TwinLinkEventsComplete := by
  intro s c
  exact ⟨fun hup hin u hu => exec_twinLinkUp_rises hup hin hu, fun ue hheld hw => exec_twLupLow_lost hheld hw ue,
    fun cmin cmax lvl lev peps u v w hin hlev => ⟨fun hok hu hv hw => exec_thello_agreed hin hlev hw hok hu hv,
      fun hbad hu hv hw => exec_thello_incompatible hin hlev hw hbad hu hv⟩,
    fun u v hin hup hu hv => exec_thbSend_at hin hup hu hv, fun hin => ⟨exec_twinPacket_renews hin false, exec_twinPacket_renews hin true⟩,
    fun t u ht hpair hreset hany hu => exec_twinLeaseLapse_lapses ht hpair hreset hany hu,
    fun q pepl u hin hup hu hpep hrole hq => exec_mack_acknowledges hin hup hu hpep hrole hq,
    fun w cmd u hin hup hk hc hu => ⟨exec_mrule_role hin hup hk hc hu,
      fun hpep hrole => ⟨exec_mrule_release hin hup hk hc hu hpep hrole, exec_mrule_handover hin hup hk hc hu hpep hrole,
        fun op h1 h2 h3 hop => exec_mrule_rule hin hup hk hc hu hpep hrole h1 h2 h3 hop⟩⟩⟩

/-! ### The records that a Mirror applies (R395 to R397, R401, R407, R411, R412; log entry 40) -/

section
variable {s u : State} {w : BitVec 256} {c : Ci} {i : Inst} {k : BitVec 4} (hin : s.twinIn = true) (hup : s.tw.linkUp = true)
  (hu : u = s.renew.bump 0xE81) (hc : c = rCi w) (hi : i = u.inst c) (hk : rKind w = k)
include hin hup hu hc hi hk

/-- A record of its own kind, for a Mirror of its epoch: its effect, and its number is taken. -/
theorem mirRow_applied (hpep : i.pep.setWidth 8 = rPepl w) (hrole : i.role = .mirror) (f : State → State) :
    mirRow k w f s = .next ((f u).took c (rSeq w) (k == 9)) := by
  subst hu hc hi
  simp only [mirRow, hin, hup, hk, hpep, hrole, bne_self_eq_false, Bool.not_true, Bool.or_self, Bool.false_eq_true, if_false]

theorem mirRow_discarded (h : i.pep.setWidth 8 ≠ rPepl w ∨ i.role ≠ .mirror) (f : State → State) :
    mirRow k w f s = .next (u.bump 0xE82) := by
  subst hu hc hi
  have hno : (((s.renew.bump 0xE81).inst (rCi w)).pep.setWidth 8 != rPepl w || ((s.renew.bump 0xE81).inst (rCi w)).role != .mirror) = true := by
    simpa using h
  simp only [mirRow, hin, hup, hk, hno, bne_self_eq_false, Bool.not_true, Bool.or_self, Bool.false_eq_true, if_false, if_true]

end

/-! #### Each record is the row of its kind -/

theorem exec_mdir_eq (w : BitVec 256) (s : State) : exec (.mdir w) s = mirRow 1 w (fun u => u.mirDir w) s := rfl

theorem exec_mline_eq (w : BitVec 256) (d : Line) (s : State) : exec (.mline w d) s = mirRow 2 w (fun u => { u with tw := { u.tw with
    store := putLine u.tw.store { ci := rCi w, lix := rLix w, gid := none, ended := true, psn := w.getLsbD 86, data := d } } }) s := rfl

theorem exec_mldone_eq (w : BitVec 256) (s : State) : exec (.mldone w) s = mirRow 3 w (fun u => { u with tw := { u.tw with
    store := u.tw.store.filter fun y => !(y.ci == rCi w && y.lix == rLix w && y.ended) } }) s := rfl

theorem exec_mgline_eq (w : BitVec 256) (d : Line) (s : State) : exec (.mgline w d) s = mirRow 4 w (fun u => { u with tw := { u.tw with
    store := u.tw.store ++ [{ ci := rCi w, lix := rLix w, gid := some (rGid w), ended := false, psn := false, data := d }] } }) s := rfl

theorem exec_mgend_eq (w : BitVec 256) (s : State) {mine : MirLine → Bool}
    (hm : ∀ y, mine y = (y.ci == rCi w && y.gid == some (rGid w) && !y.ended)) :
    exec (.mgend w) s = mirRow 5 w (fun u => { u with tw := { u.tw with
      store := (u.tw.store.filter mine).foldl (fun l y => putLine l { y with ended := true }) (u.tw.store.filter fun y => !mine y) } }) s := by
  rw [funext hm]
  rfl

theorem exec_mrot_eq (w : BitVec 256) (s : State) : exec (.mrot w) s = mirRow 6 w (fun u => u.modInst (rCi w) fun i =>
    { i with rotStart := (w.extractLsb' 86 26).toNat, rotGap := (w.extractLsb' 112 27).toNat }) s := rfl

/-- The hold window of a record stands in the Mirror's own home slice, whose oldest window makes room (log entry 40). -/
def State.mirHold (u : State) (w : BitVec 256) : State :=
  let n := u.homeNow (u.home (rLix w)) (rLix w)
  let l := (u.slice n).hold.filter fun y => !(y.lix == rLix w && y.cax == w.extractLsb' 86 10)
  u.setSlice n { u.slice n with hold := (if l.length < 128 then l else l.drop 1) ++
    [{ lix := rLix w, cax := w.extractLsb' 86 10, expiry := u.timer (w.extractLsb' 96 8).toNat }] }

theorem exec_mhold_eq (w : BitVec 256) (s : State) : exec (.mhold w) s = mirRow 7 w (fun u => u.mirHold w) s := rfl

theorem exec_msynce_eq (w : BitVec 256) (s : State) : exec (.msynce w) s = mirRow 9 w (fun u => u.twinCause 7) s := rfl

/-- Settles O41: every record is the row of its kind, applied or discarded as one. -/
theorem mirrorRecordsComplete : Obligations.MirrorRecordsComplete := by
  rintro s w d hin hup u i c hu hc rfl
  refine ⟨fun hpep hrole => ?applied, fun h t ht => ?discarded⟩
  case applied =>
    have row {k : BitVec 4} (hk : rKind w = k) := mirRow_applied hin hup hu hc rfl hk hpep hrole
    subst hc
    refine ⟨fun hk => (exec_mdir_eq w s).trans (row hk _), fun hk => (exec_mline_eq w d s).trans (row hk _),
      fun hk => (exec_mldone_eq w s).trans (row hk _), fun hk => (exec_mgline_eq w d s).trans (row hk _),
      fun hk mine hm => (exec_mgend_eq w s hm).trans (row hk _), fun hk => (exec_mrot_eq w s).trans (row hk _), fun hk n l hn hl => ?_,
      fun hk => (exec_msynce_eq w s).trans (row hk _)⟩
    subst hn hl
    exact (exec_mhold_eq w s).trans (row hk _)
  case discarded =>
    subst ht
    have row {k : BitVec 4} (hk : rKind w = k) := mirRow_discarded hin hup hu hc rfl hk h
    exact ⟨fun hk => (exec_mdir_eq w s).trans (row hk _), fun hk => (exec_mline_eq w d s).trans (row hk _),
      fun hk => (exec_mldone_eq w s).trans (row hk _), fun hk => (exec_mgline_eq w d s).trans (row hk _),
      fun hk => (exec_mgend_eq w s fun _ => rfl).trans (row hk _), fun hk => (exec_mrot_eq w s).trans (row hk _),
      fun hk => (exec_mhold_eq w s).trans (row hk _), fun hk => (exec_msynce_eq w s).trans (row hk _)⟩

end Sys2Proof.Machine

namespace Sys2Proof.Machine

open Sys2Proof

/-! ### The reset pins (R443, R492 to R494, R516, R517; log entry 62) -/

theorem State.running_iff (s : State) : s.running = true ↔ s.halt = .running := by simp [State.running]

section
variable {s : State}

theorem exec_coldRstRelease_samples (hc : s.coldLow = true) (p : BitVec 2) (tw : Bool) :
    exec (.coldRstRelease p tw) s = .next { s.coldReset with coldLow := false, strapProf := p, strapTwin := tw } := by
  show execColdRstRelease p tw s = _
  simp only [execColdRstRelease, hc, Bool.not_true, Bool.false_eq_true, if_false]

section
variable (hc : s.coldLow = false)
include hc

theorem exec_warmRstLow_again (hw : s.warmLow = true) : exec .warmRstLow s = .next { s with warmRel := none } := by
  show execWarmRstLow s = _
  simp only [execWarmRstLow, hc, hw, Bool.false_eq_true, if_false, if_true]

section
variable (hw : s.warmLow = false)
include hw

theorem exec_warmRstLow_running (hh : s.halt = .running) : exec .warmRstLow s =
    .next (({ s with warmLow := true, halt := .draining s.clk.tick true false false } : State).later 1 .readyLow) := by
  show execWarmRstLow s = _
  simp only [execWarmRstLow, hc, hw, hh, Bool.false_eq_true, if_false]

/-- A drain under way ends in the reset (log entry 62). -/
theorem exec_warmRstLow_draining {t0 : Tick} {v d q : Bool} (hh : s.halt = .draining t0 v d q) :
    exec .warmRstLow s = .next { s with warmLow := true, halt := .draining t0 true d q } := by
  show execWarmRstLow s = _
  simp only [execWarmRstLow, hc, hw, hh, Bool.false_eq_true, if_false]

theorem exec_warmRstLow_halted {d : Bool} (hh : s.halt = .halted d) :
    exec .warmRstLow s = .next ({ s with warmLow := true } : State).warmReset := by
  show execWarmRstLow s = _
  simp only [execWarmRstLow, hc, hw, hh, Bool.false_eq_true, if_false]

end

section
variable (hw : s.warmLow = true) (p : BitVec 2) (tw : Bool)
include hw

theorem exec_warmRstRelease_running (hh : s.halt = .running) :
    exec (.warmRstRelease p tw) s = .next { s with warmLow := false, strapProf := p, strapTwin := tw } := by
  show execWarmRstRelease p tw s = _
  simp only [execWarmRstRelease, hc, hw, s.running_iff.2 hh, Bool.not_true, Bool.or_self, Bool.false_eq_true, if_false, if_true]

/-- A block that drains takes the release with the reset (R494). -/
theorem exec_warmRstRelease_recorded (hh : s.halt ≠ .running) : exec (.warmRstRelease p tw) s = .next { s with warmRel := some (p, tw) } := by
  show execWarmRstRelease p tw s = _
  simp only [execWarmRstRelease, hc, hw, mt s.running_iff.1 hh, Bool.not_true, Bool.or_self, Bool.false_eq_true, if_false]

end

end

theorem exec_warmResetEffect_drained {t0 : Tick} {d q : Bool} (hh : s.halt = .draining t0 true d q) :
    exec .warmResetEffect s = .next (if s.drainDone q then s.warmReset else (s.drainOut t0).warmReset) := by
  show execWarmResetEffect s = _
  simp only [execWarmResetEffect, hh]

end

/-- Settles O17: each pin by the state of the other and by the halt. -/
theorem resetPinsComplete : Obligations.ResetPinsComplete := by
  intro s p tw
  exact ⟨rfl, fun hc => exec_coldRstRelease_samples hc p tw, exec_warmRstLow_again,
    fun hc hw => ⟨exec_warmRstLow_running hc hw, fun t0 v d q hh => exec_warmRstLow_draining hc hw hh,
      fun d hh => exec_warmRstLow_halted hc hw hh⟩,
    fun t0 d q hh => exec_warmResetEffect_drained hh,
    fun hw hc => ⟨exec_warmRstRelease_running hc hw p tw, exec_warmRstRelease_recorded hc hw p tw⟩⟩

/-! ### The boot, and a halt (R444, R448 to R452, R492, R499; log entry 71) -/

section
variable {s : State}

theorem exec_romWaitEntry_waits (hb : s.mc.bstate = .cold) (hr : s.inReset = false) (hh : s.halt = .running) :
    exec .romWaitEntry s = .next { s with mc := { s.mc with bstate := .romWait } } := by
  show execRomWaitEntry s = _
  simp only [execRomWaitEntry, hb, hr, s.running_iff.2 hh, bne_self_eq_false, Bool.not_true, Bool.or_self, Bool.false_eq_true, if_false]

/-- The MC as an authentic image starts it: the levels and the version of its header, and the watchdog (R448, R452). -/
def State.imageStarted (s : State) (l : LongCmd) : State :=
  let t := s.finish l.cmd .done
  { t with mc := { t.mc with bstate := .starting, lstat := .done, clevMin := BitVec.ofNat 8 (memGetN t.mc.img 6 1),
                             clevMax := BitVec.ofNat 8 (memGetN t.mc.img 7 1), iver := BitVec.ofNat 32 (memGetN t.mc.img 8 4),
                             wdog := some (t.timer 1250000) } }

/-- The MC without the image that is not authentic. -/
def State.imageDiscarded (s : State) (l : LongCmd) : State :=
  let t := s.finish l.cmd .authFail
  { t with mc := { t.mc with bstate := .romWait, lstat := .authFail, img := [], imgLen := 0 } }

theorem exec_imgVerifyEnd_verified {l : LongCmd} (hl : (s.mc.longs.find? fun l => l.job == .imgEnd) = some l) (hb : s.mc.bstate = .verify)
    (hh : s.halt = .running) :
    exec .imgVerifyEnd s = .next (if Config.imageAuthentic s.mc.img s.mc.imgLen then (s.imageStarted l).startUp else s.imageDiscarded l) := by
  rw [apply_ite Host.Outcome.next]
  show execImgVerifyEnd s = _
  simp only [execImgVerifyEnd, hl, hb, s.running_iff.2 hh, bne_self_eq_false, Bool.not_true, Bool.or_self, Bool.false_eq_true, if_false]
  rfl

theorem exec_autordyEntry_ready (hb : s.mc.bstate = .starting) (ha : s.mc.autordy = true) (hm : s.mayReady = true) (hh : s.halt = .running) :
    exec .autordyEntry s = .next s.enterReady := by
  show execAutordyEntry s = _
  simp only [execAutordyEntry, hb, ha, hm, s.running_iff.2 hh, beq_self_eq_true, Bool.and_self, if_true]

theorem exec_readyAssert_at {e : Tick × Eff} (he : (s.sched.find? fun e => e.2 == .readyHigh) = some e) :
    exec .readyAssert s = .next (s.goTo e.1) := by
  show execReadyAssert s = _
  simp only [execReadyAssert, he]

theorem exec_mcWatchdogExpiry_fatal {d : Tick} {t : State} (hd : s.mc.wdog = some d) (ht : t = s.goTo d) (hdt : t.mc.wdog = some d)
    (hh : t.halt = .running) : exec .mcWatchdogExpiry s =
      .next (({ t with mc := { t.mc with wdog := none } } : State).fatal (noChan 0x10) mcStop 0x10 true).closeCycle := by
  subst ht
  show execMcWatchdogExpiry s = _
  simp only [execMcWatchdogExpiry, hd, hdt, (s.goTo d).running_iff.2 hh, bne_self_eq_false, Bool.not_true, Bool.or_self, Bool.false_eq_true,
    if_false]

theorem exec_haltPostedLinePoison_at {t0 : Tick} {v d : Bool} {u : State} (hh : s.halt = .draining t0 v d false)
    (hu : u = { s.goTo (t0 + 501) with halt := .draining t0 v d true }) :
    exec .haltPostedLinePoison s = .next (u.postedLines.foldl (fun s p =>
      (s.addRime p.1 p.2.ci p.2.lix p.2.mpid .poison .plain).lineRec p.1 p.2 0x13) u) := by
  subst hu
  show Host.Outcome.next s.haltPoison = _
  simp only [State.haltPoison, hh]

theorem exec_blockHalt_halts {t0 : Tick} {d q : Bool} (hh : s.halt = .draining t0 false d q) :
    exec .blockHalt s = .next ({ s.drainOut t0 with halt := .halted d } : State).gpfEnd := by
  show execBlockHalt s = _
  simp only [execBlockHalt, hh]

end

/-- Settles O18: each row, under its conditions; the end of a verification by whether the image is authentic. -/
theorem bootAndHaltEventsComplete : Obligations.BootAndHaltEventsComplete := by
  intro s
  refine ⟨exec_romWaitEntry_waits, fun l hl hb hh => ?verified, exec_autordyEntry_ready, fun e he => exec_readyAssert_at he,
    fun d t hd ht hdt hh => exec_mcWatchdogExpiry_fatal hd ht hdt hh, fun t0 v d u hh hu => exec_haltPostedLinePoison_at hh hu,
    fun t0 d q hh => exec_blockHalt_halts hh⟩
  case verified =>
    rw [exec_imgVerifyEnd_verified hl hb hh]
    exact ⟨fun ha => ⟨s.imageStarted l, by rw [if_pos ha], rfl, rfl, rfl, rfl, rfl, rfl, rfl, rfl⟩,
      fun ha => ⟨s.imageDiscarded l, by rw [ha, if_neg Bool.false_ne_true], rfl, rfl, rfl, rfl, rfl, rfl⟩⟩

/-! ### Buckets and retirement (R478, R481, R484; log entry 85) -/

section
variable (s : State)

theorem State.logErr_eq (e : ErrRec) : ∃ l n, s.logErr e = { s with errLog := l, errLost := n } := by
  fun_cases State.logErr s e <;> exact ⟨_, _, rfl⟩

@[simp] theorem State.logErr_buckets (e : ErrRec) : (s.logErr e).buckets = s.buckets := by
  obtain ⟨l, n, h⟩ := s.logErr_eq e
  rw [h]

@[simp] theorem State.logErr_ret (e : ErrRec) : (s.logErr e).ret = s.ret := by
  obtain ⟨l, n, h⟩ := s.logErr_eq e
  rw [h]

@[simp] theorem State.logErr_arbMode (e : ErrRec) : (s.logErr e).arbMode = s.arbMode := by
  obtain ⟨l, n, h⟩ := s.logErr_eq e
  rw [h]

@[simp] theorem State.logErr_params (e : ErrRec) : (s.logErr e).params = s.params := by
  obtain ⟨l, n, h⟩ := s.logErr_eq e
  rw [h]

/-- A leak changes the buckets and its own mark, and nothing else. -/
theorem State.leakFirst_eq : ∃ b l, s.leakFirst = { s with buckets := b, leak := l } := by
  fun_cases State.leakFirst s <;> exact ⟨_, _, rfl⟩

@[simp] theorem State.leakFirst_params : s.leakFirst.params = s.params := by
  obtain ⟨b, l, h⟩ := s.leakFirst_eq
  rw [h]

@[simp] theorem State.leakFirst_ret : s.leakFirst.ret = s.ret := by
  obtain ⟨b, l, h⟩ := s.leakFirst_eq
  rw [h]

@[simp] theorem State.leakFirst_arbMode : s.leakFirst.arbMode = s.arbMode := by
  obtain ⟨b, l, h⟩ := s.leakFirst_eq
  rw [h]

/-- The cycle of a leak that is not made yet. -/
theorem leakDue_iff : (s.clk.phase = 0 && s.clk.tick.toNat % s.leakPeriod == 0 && !(s.leak.any fun l => l.1 == s.clk.tick)) = true ↔
    s.clk.phase = 0 ∧ s.clk.tick.toNat % max 1 (s.params.lbWin / s.params.lbThr) = 0 ∧ ∀ r, s.leak ≠ some (s.clk.tick, r) := by
  cases hl : s.leak <;> simp [State.leakPeriod, and_assoc, Prod.ext_iff]

end

section
variable (s : State) (cls : BitVec 4) (ch : Chan) (stop : Stop) (code : BitVec 8) (l : Option Lix) (c : Option Ci) (rq : Option Rqid)

theorem State.faultEv_buckets : (s.faultEv cls ch stop code l c rq).buckets =
    tPut s.leakFirst.buckets (chanKey ch) (min 255 ((tGet s.leakFirst.buckets (chanKey ch)).getD 0 + 1)) := by
  simp only [State.faultEv]
  split <;> simp

section
variable {n : Nat} (hn : n = min 255 ((tGet s.leakFirst.buckets (chanKey ch)).getD 0 + 1))
include hn

/-- The event that brings the bucket to `LB_THR` retires a channel that is in service (R484). -/
theorem State.faultEv_retires (hthr : s.params.lbThr ≤ n) (hin : s.ret.chans.contains ch = false) :
    (s.faultEv cls ch stop code l c rq).ret.chans = s.ret.chans ++ [ch] ∧
      (s.faultEv cls ch stop code l c rq).ret.running = s.ret.running ++ [ch] ∧
      (s.faultEv cls ch stop code l c rq).arbMode = s.arbMode.recover := by
  simp only [State.faultEv, ← hn]
  have hout : ch ∉ s.ret.chans := by simpa using hin
  rw [if_pos (by simp [hthr, hout])]
  simp

theorem State.faultEv_below (hthr : n < s.params.lbThr) :
    (s.faultEv cls ch stop code l c rq).ret = s.ret ∧ (s.faultEv cls ch stop code l c rq).arbMode = s.arbMode := by
  simp only [State.faultEv, ← hn]
  rw [if_neg (by simp [hthr])]
  simp

end

end

/-- A flit whose error is corrected is counted, and no bucket changes (R360). -/
theorem exec_flitArrival_corrected_buckets {s t : State} {k : Nat} (h : exec (.flitArrival k .corrected) s = .next t) :
    t.buckets = s.buckets := by
  have hbump (u : State) (i : Nat) : (u.bump i).buckets = u.buckets := by fun_cases State.bump u i <;> rfl
  change execFlitArrival k .corrected s = .next t at h
  unfold execFlitArrival at h
  split at h
  case h_1 => cases h; rfl
  case h_2 p hk =>
    split at h
    case h_1 => cases h; rfl
    case h_2 st i ha =>
      split at h
      · cases h; rfl
      · cases h; exact hbump _ _

/-- Settles O58: the bucket of the channel after the leak that is due, and the retirement by whether it reaches the threshold. -/
theorem bucketsCountFaults : Obligations.BucketsCountFaults := by
  refine ⟨fun s cls ch stop code l c rq n hn => ⟨?same, fun k hk => ?other, s.faultEv_retires cls ch stop code l c rq hn,
    s.faultEv_below cls ch stop code l c rq hn⟩, fun s => ⟨fun hno => ?stays, fun hp ht hl => ?falls⟩,
    fun s t k h => exec_flitArrival_corrected_buckets h⟩
  case same => rw [State.faultEv_buckets, tGet_tPut_same, hn]
  case other => rw [State.faultEv_buckets, tGet_tPut_other _ _ hk]
  case stays =>
    refine if_neg (mt (leakDue_iff s).1 ?_)
    rintro ⟨hp, ht, hl⟩
    rcases hno with h | h | ⟨r, h⟩
    · exact h hp
    · exact h ht
    · exact hl r h
  case falls =>
    rw [State.leakFirst, if_pos ((leakDue_iff s).2 ⟨hp, ht, hl⟩)]
    rfl

end Sys2Proof.Machine

namespace Sys2Proof.Machine

open Sys2Proof

/-! ### Request words at a port station (R24, R163, R175, R228, R491, R502, R503, R529, R560; log entries 14 and 77) -/

/-- The pieces that a port station has of the access to which a word belongs (log entry 77). -/
def PSt.mates (p : PSt) (w : BitVec 160) : List (BitVec 160) := p.pieces.filter fun x => wRq x == wRq w && wLp x == wLp w

/-- The port station without those pieces. -/
def PSt.taken (p : PSt) (w : BitVec 160) : PSt := { p with pieces := p.pieces.filter fun x => !(wRq x == wRq w && wLp x == wLp w) }

section
variable {s v : State} {n : Stn} {w : BitVec 160}

theorem exec_request_uncorrectable (h : s.psUp n = true) (a b : BitVec 128) :
    exec (.request n w a b none) s = .next (s.psWordLost n).pump := by
  show execRequest n w a b none s = _
  simp only [execRequest, h, Bool.not_true, Bool.false_eq_true, if_false]

/-- Corrected words are counted before the word is looked at (R529). -/
theorem exec_request_word {f : Nat} (h : s.psUp n = true) (hv : v = s.bumpN (psCtr n 6) f) (a b : BitVec 128) :
    exec (.request n w a b (some f)) s = v.requestWord n w a b := by
  subst hv
  show execRequest n w a b (some f) s = _
  simp only [execRequest, h, Bool.not_true, Bool.false_eq_true, if_false]

section
variable (hk : wKind w = 1) (a b : BitVec 128)
include hk

/-- A word of a `HELD` agent only returns its DST (R175). -/
theorem State.requestWord_held {ag : Agent} (hg : v.agent (wRq w) = some ag) (hl : ag.lst = .held) :
    v.requestWord n w a b = .next ((v.bump (psCtr n 1)).emit (.dord n (wDst w) .dfree false)) := by
  simp only [State.requestWord, hk, hg, hl, beq_self_eq_true, if_true]

section
variable (hg : ∀ ag, v.agent (wRq w) = some ag → ag.lst ≠ .held)
include hg

/-- A word of any other agent is one piece of its access (R228). -/
theorem State.requestWord_piece : v.requestWord n w a b =
    if ((v.ps n).mates w).length + 1 < wPcnt w then .next (v.modPs n fun p => { p with pieces := p.pieces ++ [w] })
    else .next ((v.modPs n fun p => p.taken w).access n (if ((v.ps n).mates w).isEmpty then [w] else byPix ((v.ps n).mates w ++ [w])) a b) := by
  cases ha : v.agent (wRq w) with
  | none =>
    simp only [State.requestWord, hk, ha, Bool.false_eq_true, if_false, if_true]
    rfl
  | some ag =>
    simp only [State.requestWord, hk, ha, beq_eq_false_iff_ne.2 (hg ag ha), Bool.false_eq_true, if_false, if_true]
    rfl

theorem State.requestWord_awaits (hlt : ((v.ps n).mates w).length + 1 < wPcnt w) :
    v.requestWord n w a b = .next (v.modPs n fun p => { p with pieces := p.pieces ++ [w] }) := by
  rw [State.requestWord_piece hk a b hg, if_pos hlt]

theorem State.requestWord_last (hne : (v.ps n).mates w ≠ []) (hle : wPcnt w ≤ ((v.ps n).mates w).length + 1) :
    v.requestWord n w a b = .next ((v.modPs n fun p => p.taken w).access n (byPix ((v.ps n).mates w ++ [w])) a b) := by
  rw [State.requestWord_piece hk a b hg, if_neg (Nat.not_lt.2 hle), if_neg (by simpa using hne)]

theorem State.requestWord_single (he : (v.ps n).mates w = []) (hle : wPcnt w ≤ 1) :
    v.requestWord n w a b = .next ((v.modPs n fun p => p.taken w).access n [w] a b) := by
  rw [State.requestWord_piece hk a b hg, he]
  exact if_neg (Nat.not_lt.2 hle)

end

end

section
variable (hk : wKind w = 0 ∨ 6 ≤ (wKind w).toNat) (a b : BitVec 128)
include hk

/-- A word of a reserved kind (R503; log entry 14). -/
theorem State.requestWord_reserved : v.requestWord n w a b =
    if wDst w = 0 then .next (v.bump (psCtr n 1)) else .next (v.refuseAll n [w] .unsupported) := by
  have h1 : wKind w ≠ 1 := by
    rintro h
    rw [h] at hk
    exact absurd hk (by decide)
  have hr : (wKind w = 0 || 6 ≤ (wKind w).toNat) = true := by simpa using hk
  rw [State.requestWord, if_neg h1, if_pos hr]

end

end

/-- Settles O22: an uncorrectable word, and any other by its kind, its agent and the pieces that have come before it. -/
theorem requestWordsComplete : Obligations.RequestWordsComplete := by
  intro s v u n w a b f hn
  refine ⟨exec_request_uncorrectable hn a b, fun hv hu => ?word⟩
  rw [exec_request_word hn hv]
  refine ⟨fun hk ag hg hl => State.requestWord_held hk a b hg hl, fun hk hg mine hm => ?pieces, fun hk => ?reserved⟩
  case pieces =>
    subst hm hu
    refine ⟨State.requestWord_awaits hk a b hg, State.requestWord_last hk a b hg, fun he hle => ?single⟩
    rw [State.requestWord_single hk a b hg he hle]
    exact ⟨fun k c hc ha => congrArg _ (access_accepted hg hc ha), fun d hd => congrArg _ (access_refused hg hd)⟩
  case reserved =>
    rw [State.requestWord_reserved hk]
    exact ⟨fun h0 => if_pos h0, fun h0 => if_neg h0⟩

/-! ### Queue overruns, and the end of a bulk operation (R283, R285, R306, R310, R463, R465, R527, R528) -/

section
variable {s u v : State} {q : Nat} {o : BulkOp}
  (ho : (s.be.ops.find? fun o => o.q == q && s.opDone o && !(o.kind == .fold && o.ended.isNone)) = some o)
  (hu : u = { s with be := { s.be with ops := s.be.ops.erase o }, mc := { s.mc with longs := s.mc.longs.map fun (l : LongCmd) =>
    if l.cmd == o.cmd then { l with done := l.done + o.done } else l } })
  (hv : v = if o.ended.getD .done = .done then u.opEffect o else u)
include ho hu hv

/-- The operation has left its queue and had its effect; the command that it served goes on, or ends. -/
theorem exec_bulkOperationEnd_served {l : LongCmd} (hl : (v.mc.longs.find? fun l => l.cmd == o.cmd) = some l) :
    exec (.bulkOperationEnd q) s = .next (v.opServed o (o.ended.getD .done) l).engEnds.pump := by
  subst hu hv
  show execBulkOperationEnd q s = _
  simp only [execBulkOperationEnd, ho, hl]

theorem exec_bulkOperationEnd_unserved (hl : (v.mc.longs.find? fun l => l.cmd == o.cmd) = none) (hk : o.kind ≠ .fold) :
    exec (.bulkOperationEnd q) s = .next v.engEnds.pump := by
  subst hu hv
  show execBulkOperationEnd q s = _
  simp only [execBulkOperationEnd, ho, hl, beq_eq_false_iff_ne.2 hk, Bool.false_eq_true, if_false]

end

/-- Settles O42: out of reset each queue by its row, and the end of an operation by whether a command waits for it. -/
theorem queueOverrunsAndBulkEndsComplete : Obligations.QueueOverrunsAndBulkEndsComplete := by
  intro s n j lp m
  refine ⟨fun hr => ?overruns, fun q o u ho hu v hv => ⟨fun l hl => exec_bulkOperationEnd_served ho hu hv hl,
    fun hl hk => exec_bulkOperationEnd_unserved ho hu hv hl hk⟩⟩
  case overruns =>
    have hrun : ¬s.inReset = true := ne_true_of_eq_false hr
    exact ⟨if_neg hrun, if_neg hrun, if_neg hrun, if_neg hrun, if_neg hrun, if_neg hrun, if_neg hrun, if_neg hrun, if_neg hrun,
      if_neg hrun, if_neg hrun, if_neg hrun, if_neg hrun⟩

/-! ### The command and reply rings, and commands that wait (R272, R283, R284, R453, R455 to R457, R462, R527, R529; log entries 18, 44, 46) -/

section
variable {s t u : State} {w : BitVec 512} {n f i : Nat} {ci : Ci}

theorem exec_commandSlotWrite_room (hr : s.inReset = false) (hroom : (s.mc.crProd - s.mc.crRel).toNat < 256) :
    exec (.commandSlotWrite w f) s = .next (({ s with mc := { s.mc with
      crSlots := tPut s.mc.crSlots s.mc.crProd.toNat w, crProd := s.mc.crProd + 1 } } : State).qceAdd 0 f) := by
  show execCommandSlotWrite w f s = _
  simp only [execCommandSlotWrite, hr, ge_iff_le, Nat.not_le.2 hroom, Bool.false_eq_true, if_false]

theorem exec_deferredCommandReread_due {idle : Bool} {dig : BitVec 32} {peer : Nat} {r : OpRow} {b : Body} (hm : s.mayRead = true)
    (hd : s.dueDeferred = some (i, w)) (hrow : opRow (cOp w) = some r) (hb : mcBody w idle dig peer = some b) :
    exec (.deferredCommandReread idle dig peer) s = .next ((s.execCmd w r b).slotDone i).ringSettle := by
  show execDeferredCommandReread idle dig peer s = _
  simp only [execDeferredCommandReread, hm, hd, hrow, hb, Bool.not_true, Bool.false_eq_true, if_false]

theorem exec_replyRingRoom_taken {ue : Bool} (hn : n ≤ s.mc.replies.length)
    (hu : u = { s with mc := { s.mc with replies := s.mc.replies.drop n, rrRp := s.mc.rrRp + BitVec.ofNat 12 (8 * n) } }) :
    exec (.replyRingRoom n f ue) s = .next ((if ue then u.ringErrBit 4 else u).qceAdd 1 f) := by
  subst hu
  show execReplyRingRoom n f ue s = _
  simp only [execReplyRingRoom, gt_iff_lt, Nat.not_lt.2 hn, if_false]

section
variable (hr : s.readSlot w = some (i, t))
include hr

/-- An uncorrectable word of a packet: the packet is refused whatever it says (R529). -/
theorem exec_unknownOpCommand_uncorrectable :
    exec (.unknownOpCommand w true) s = .next (((t.ringErrBit 2).refuseCmd w .crcErr).slotDone i).ringSettle := by
  show execUnknownOpCommand w true s = _
  simp only [execUnknownOpCommand, hr, Bool.not_true, Bool.false_and, Bool.false_eq_true, if_false, if_true]

/-- A packet that no row serves is read and refused by the first check of R462 that it fails. -/
theorem exec_unknownOpCommand_served (hbad : ((cFmt w != 1 && cFmt w != 2) || (cFmt w == 2 && w.extractLsb' 64 32 != crcPar w) ||
    (opRow (cOp w)).isNone) = true) :
    exec (.unknownOpCommand w false) s = .next (t.serve i w fun _ => .error .unknownOp).ringSettle := by
  show execUnknownOpCommand w false s = _
  simp only [execUnknownOpCommand, hr, hbad, Bool.not_true, Bool.and_false, Bool.false_eq_true, if_false]

end

theorem State.serve_badFormat (h1 : cFmt w ≠ 1) (h2 : cFmt w ≠ 2) (b : Body) :
    t.serve i w b = (t.refuseCmd w .badFormat).slotDone i := by
  simp only [State.serve, bne_iff_ne.2 h1, bne_iff_ne.2 h2, Bool.and_self, if_true]

theorem State.serve_badSum (h2 : cFmt w = 2) (hc : w.extractLsb' 64 32 ≠ crcPar w) (b : Body) :
    t.serve i w b = (t.refuseCmd w .crcErr).slotDone i := by
  simp only [State.serve, h2, bne_iff_ne.2 hc, bne_self_eq_false, beq_self_eq_true, Bool.and_false, Bool.and_self, Bool.false_eq_true,
    if_false, if_true]

theorem State.serve_unknownOp (h1 : cFmt w = 1) (ho : opRow (cOp w) = none) (b : Body) :
    t.serve i w b = (t.refuseCmd w .unknownOp).slotDone i := by
  have h2 : ((1 : BitVec 4) == 2) = false := by decide
  simp only [State.serve, h1, ho, h2, bne_self_eq_false, Bool.false_and, Bool.false_eq_true, if_false]

/-- The shadow rules become current at the next phase 0, and a twin forwards the command (R272, R391; log entry 44). -/
theorem exec_ruleGenerationSwitch_switches {r : RuleChg} (hr : (s.inst ci).rule = some r) (hs : r.switched = false)
    (ht : t = s.goTo (s.clk.tick + 1))
    (hu : u = t.applyRule ci r.op (match r.rcl with | .agent _ => true | _ => false)) :
    exec (.ruleGenerationSwitch ci) s =
      .next ((if (t.inst ci).twin then u.mruleRec ci r.cmd else u).modInst ci fun x =>
        { x with rule := some { r with switched := true, mrule := if (t.inst ci).twin then some (t.inst ci).rseq else none } }) := by
  subst hu ht
  show execRuleGenerationSwitch ci s = _
  simp only [execRuleGenerationSwitch, hr]
  exact if_neg (ne_true_of_eq_false hs)

theorem exec_ruleChangeDrain_drained {r : RuleChg} (hr : (s.inst ci).rule = some r) (hs : r.switched = true) (hn : r.running = false)
    (hg : (if r.gen.getLsbD 0 then (s.inst ci).genOdd else (s.inst ci).genEven) = 0) :
    exec (.ruleChangeDrain ci) s = .next (s.ruleGo ci r) := by
  show execRuleChangeDrain ci s = _
  simp only [execRuleChangeDrain, hr, hs, hn, hg, bne_self_eq_false, Bool.not_true, Bool.or_self, Bool.false_eq_true, if_false]

theorem exec_quiesceIdle_quiesced (hst : (s.inst ci).st = .draining ∨ (s.inst ci).st = .aborting) (hi : s.instIdle ci = true) :
    exec (.quiesceIdle ci) s = .next (s.quiesced ci) := by
  have hgo : ((s.inst ci).st != .draining && (s.inst ci).st != .aborting) = false := by
    rcases hst with h | h <;> simp [h]
  show execQuiesceIdle ci s = _
  simp only [execQuiesceIdle, hgo, hi, Bool.not_true, Bool.or_self, Bool.false_eq_true, if_false]

end

/-- Settles O19: each row, under its conditions; a packet that no row serves by the check that it fails. -/
theorem ringEventsComplete : Obligations.RingEventsComplete := by
  intro s w n f ci
  refine ⟨exec_commandSlotWrite_room, fun idle dig peer i r b hm hd hrow hb => exec_deferredCommandReread_due hm hd hrow hb,
    fun ue u hn hu => exec_replyRingRoom_taken hn hu, fun i t hr => ⟨exec_unknownOpCommand_uncorrectable hr, fun h1 h2 => ?format,
      fun h2 hc => ?sum, fun h1 ho => ?opcode⟩, fun r u hr hs hu => ⟨_, exec_ruleGenerationSwitch_switches hr hs rfl hu⟩,
    fun r hr hs hn hg => exec_ruleChangeDrain_drained hr hs hn hg, exec_quiesceIdle_quiesced⟩
  case format => rw [exec_unknownOpCommand_served hr (by rw [bne_iff_ne.2 h1, bne_iff_ne.2 h2]; rfl), State.serve_badFormat h1 h2]
  case sum => rw [exec_unknownOpCommand_served hr (by simp [h2, hc]), State.serve_badSum h2 hc]
  case opcode => rw [exec_unknownOpCommand_served hr (by simp [ho]), State.serve_unknownOp h1 ho]

end Sys2Proof.Machine
